-- ==== Sys2Proof/Word.lean ====
section
/-! DEFINITION. The word type, the parts an instruction is made of, and tables keyed by a number. -/

namespace Sys2Proof

/-- An instruction word of 80 bits (R147). -/
abbrev Word := BitVec 80

/-- A byte. -/
abbrev Byte := BitVec 8

/-- A 64-bit register or address. -/
abbrev W64 := BitVec 64

/-- A 32-bit register. -/
abbrev W32 := BitVec 32

/-- The element types of the 34 families, in the order of their codes 0 to 6 (R165). -/
inductive Elt where
  | i8 | i16 | i32 | i64 | f16 | bf16 | f32
deriving DecidableEq, Repr

/-- An operand field, R55 to R58. `slice wc st` has width code `wc` (0 to 9) and start slice `st`;
`flag k` is flag fk; the others are the special operands of Table 3.3. -/
inductive Opnd where
  | slice (wc : BitVec 4) (st : BitVec 11)
  | flag (k : BitVec 6)
  | zero
  | kbank (k : BitVec 4)
  | port (q : BitVec 4)
  | tid
  | xy
  | bunch
  | stage
  | time
deriving DecidableEq, Repr

/-- The guard of an instruction, R153 and R76. `flag k pol` holds when flag fk equals `pol`;
`port dir ch n` is a port guard with N code `n`. -/
inductive Guard where
  | none
  | flag (k : BitVec 6) (pol : Bool)
  | port (dir : BitVec 3) (ch : Bool) (n : BitVec 2)
deriving DecidableEq, Repr

/-- The fields every instruction word carries beside its opcode and operands (Table 9.1).
`rnd` is RND, or ORD in the memory forms (R167). -/
structure Hdr where
  x    : Bool
  sat  : Bool
  rnd  : BitVec 2
  wait : BitVec 7
  atag : BitVec 3
  dist : BitVec 3
  grd  : Guard
deriving DecidableEq, Repr

/-- Who performs an access to a register block or a target (R362): the KIND and id of the access tables. -/
inductive Master where
  | host (p : Nat)
  | thread (asid : Nat) (lvl : Nat)
  | engine (kind : Nat) (asid : Nat)
  | firmware
  | debugger
deriving DecidableEq, Repr

/-- A finite table: pairs of a key and a value, keys strictly rising. -/
abbrev Table (α : Type) := List (Nat × α)

end Sys2Proof
end

