-- ==== Sys2Proof/Syntax.lean ====
section
/-! DEFINITION. The instructions and events of the Decrix DX-8416W: one constructor for each row of the
opcode table, those with arguments first and then those without, each in the table's order. Arguments of an
encoded word are its fields (R147 to R153); an event without arguments concerns the executing thread, the
whole machine, or the transaction an outside agent presents (State.bus). -/

namespace Sys2Proof

inductive Instr where
  /-- ADD, R181: Writes a + b, wrapped to the width or clamped under SAT. -/
  | add (h : Hdr) (d : Opnd) (a : Opnd) (b : Opnd)
  /-- ADDI, R181: Writes a plus the extended imm15, wrapped or clamped. -/
  | addi (h : Hdr) (d : Opnd) (a : Opnd) (imm : BitVec 15)
  /-- SUB, R181: Writes a − b, wrapped or clamped. -/
  | sub (h : Hdr) (d : Opnd) (a : Opnd) (b : Opnd)
  /-- MUL, R181: Writes the low bits of a × b, or the clamped product. -/
  | mul (h : Hdr) (d : Opnd) (a : Opnd) (b : Opnd)
  /-- MULH, R181: Writes the high half of the signed product. -/
  | mulh (h : Hdr) (d : Opnd) (a : Opnd) (b : Opnd)
  /-- MULHN, R181: Writes the high half of the natural product. -/
  | mulhn (h : Hdr) (d : Opnd) (a : Opnd) (b : Opnd)
  /-- DIV, R182: Signed division that never traps; lands as class T. -/
  | div (h : Hdr) (d : Opnd) (a : Opnd) (b : Opnd)
  /-- DIVN, R182: Natural division that never traps; lands as class T. -/
  | divn (h : Hdr) (d : Opnd) (a : Opnd) (b : Opnd)
  /-- REM, R182: Signed remainder with the dividend's sign; lands as class T. -/
  | rem (h : Hdr) (d : Opnd) (a : Opnd) (b : Opnd)
  /-- REMN, R182: Natural remainder; lands as class T. -/
  | remn (h : Hdr) (d : Opnd) (a : Opnd) (b : Opnd)
  /-- AND, R183: Writes the bitwise and of a and b. -/
  | and (h : Hdr) (d : Opnd) (a : Opnd) (b : Opnd)
  /-- ANDI, R183: Writes the bitwise and of a and the immediate. -/
  | andi (h : Hdr) (d : Opnd) (a : Opnd) (imm : BitVec 15)
  /-- OR, R183: Writes the bitwise or of a and b. -/
  | or (h : Hdr) (d : Opnd) (a : Opnd) (b : Opnd)
  /-- ORI, R183: Writes the bitwise or of a and the immediate. -/
  | ori (h : Hdr) (d : Opnd) (a : Opnd) (imm : BitVec 15)
  /-- XOR, R183: Writes the bitwise xor of a and b. -/
  | xor (h : Hdr) (d : Opnd) (a : Opnd) (b : Opnd)
  /-- XORI, R183: Writes the bitwise xor of a and the immediate. -/
  | xori (h : Hdr) (d : Opnd) (a : Opnd) (imm : BitVec 15)
  /-- ANDN, R183: Writes a and not b. -/
  | andn (h : Hdr) (d : Opnd) (a : Opnd) (b : Opnd)
  /-- SHL, R184: Shifts a left by the natural count in b, with optional saturation. -/
  | shl (h : Hdr) (d : Opnd) (a : Opnd) (b : Opnd)
  /-- SHLI, R184: Shifts a left by the immediate count. -/
  | shli (h : Hdr) (d : Opnd) (a : Opnd) (imm : BitVec 15)
  /-- SHR, R184: Shifts a right logically by the count in b. -/
  | shr (h : Hdr) (d : Opnd) (a : Opnd) (b : Opnd)
  /-- SHRI, R184: Shifts a right logically by the immediate count. -/
  | shri (h : Hdr) (d : Opnd) (a : Opnd) (imm : BitVec 15)
  /-- SAR, R184: Shifts a right arithmetically by the count in b. -/
  | sar (h : Hdr) (d : Opnd) (a : Opnd) (b : Opnd)
  /-- SARI, R184: Shifts a right arithmetically by the immediate count. -/
  | sari (h : Hdr) (d : Opnd) (a : Opnd) (imm : BitVec 15)
  /-- ROL, R184: Rotates a left by the count in b modulo w. -/
  | rol (h : Hdr) (d : Opnd) (a : Opnd) (b : Opnd)
  /-- ROLI, R184: Rotates a left by the immediate count modulo w. -/
  | roli (h : Hdr) (d : Opnd) (a : Opnd) (imm : BitVec 15)
  /-- CLZ, R185: Counts the leading zero bits of A's image. -/
  | clz (h : Hdr) (d : Opnd) (a : Opnd)
  /-- CTZ, R185: Counts the trailing zero bits of A's image. -/
  | ctz (h : Hdr) (d : Opnd) (a : Opnd)
  /-- POPC, R185: Counts the one bits of A's image. -/
  | popc (h : Hdr) (d : Opnd) (a : Opnd)
  /-- MIN, R181: Writes the signed minimum of a and b. -/
  | min (h : Hdr) (d : Opnd) (a : Opnd) (b : Opnd)
  /-- MAX, R181: Writes the signed maximum of a and b. -/
  | max (h : Hdr) (d : Opnd) (a : Opnd) (b : Opnd)
  /-- MINN, R181: Writes the natural minimum of a and b. -/
  | minn (h : Hdr) (d : Opnd) (a : Opnd) (b : Opnd)
  /-- MAXN, R181: Writes the natural maximum of a and b. -/
  | maxn (h : Hdr) (d : Opnd) (a : Opnd) (b : Opnd)
  /-- ABS, R181: Writes the absolute value of a, wrapped or clamped. -/
  | abs (h : Hdr) (d : Opnd) (a : Opnd)
  /-- NEG, R181: Writes −a, wrapped or clamped. -/
  | neg (h : Hdr) (d : Opnd) (a : Opnd)
  /-- SEL, R188: Writes a to D when D is nonzero, else b. -/
  | sel (h : Hdr) (d : Opnd) (a : Opnd) (b : Opnd)
  /-- MOV, R187: Copies A to D at the operation width. -/
  | mov (h : Hdr) (d : Opnd) (a : Opnd)
  /-- MOVI, R187: Writes the extended immediate to D. -/
  | movi (h : Hdr) (d : Opnd) (imm : BitVec 15)
  /-- MOVH, R187: Shifts A left by 15 and inserts the raw immediate. -/
  | movh (h : Hdr) (d : Opnd) (a : Opnd) (imm : BitVec 15)
  /-- BFX, R189: Extracts bit fields of A into lanes under a control word. -/
  | bfx (h : Hdr) (d : Opnd) (a : Opnd) (b : Opnd)
  /-- BFI, R190: Inserts a bit field of A into D under a control word. -/
  | bfi (h : Hdr) (d : Opnd) (a : Opnd) (b : Opnd)
  /-- BREV, R186: Reverses the bit order of A. -/
  | brev (h : Hdr) (d : Opnd) (a : Opnd)
  /-- BSWAP, R186: Reverses the byte order of A. -/
  | bswap (h : Hdr) (d : Opnd) (a : Opnd)
  /-- CMPEQ, R191: Writes 1 when a = b, else 0. -/
  | cmpeq (h : Hdr) (d : Opnd) (a : Opnd) (b : Opnd)
  /-- CMPNE, R191: Writes 1 when a ≠ b, else 0. -/
  | cmpne (h : Hdr) (d : Opnd) (a : Opnd) (b : Opnd)
  /-- CMPLT, R191: Writes 1 when a < b signed. -/
  | cmplt (h : Hdr) (d : Opnd) (a : Opnd) (b : Opnd)
  /-- CMPLTN, R191: Writes 1 when a < b natural. -/
  | cmpltn (h : Hdr) (d : Opnd) (a : Opnd) (b : Opnd)
  /-- CMPLE, R191: Writes 1 when a ≤ b signed. -/
  | cmple (h : Hdr) (d : Opnd) (a : Opnd) (b : Opnd)
  /-- CMPLEN, R191: Writes 1 when a ≤ b natural. -/
  | cmplen (h : Hdr) (d : Opnd) (a : Opnd) (b : Opnd)
  /-- BR, R193: Branches to PC plus offset when its guard holds. -/
  | br (h : Hdr) (off : BitVec 32)
  /-- JMP, R194: Sets PC to the 32-bit value of A. -/
  | jmp (h : Hdr) (a : Opnd)
  /-- CALL, R195: Writes PC + 1 to s16:32 and branches by offset. -/
  | call (h : Hdr) (off : BitVec 32)
  /-- CALLR, R195: Writes PC + 1 to D and jumps to the value of A. -/
  | callr (h : Hdr) (d : Opnd) (a : Opnd)
  /-- LOOP, R197: Opens a hardware loop frame over the following body. -/
  | loop (h : Hdr) (a : Opnd) (imm : BitVec 15)
  /-- REP, R199: Repeats the next instruction N times with operand advance. -/
  | rep (h : Hdr) (a : Opnd) (imm : BitVec 15)
  /-- YIELD, R201: Passes over the thread in issue selection for a bounded time. -/
  | yield (h : Hdr)
  /-- EXIT, R202: Waits for busy tags and ends the thread. -/
  | exit (h : Hdr)
  /-- VADD, R205: Adds lanes of A and B. -/
  | vadd (h : Hdr) (t : Elt) (d : Opnd) (a : Opnd) (b : Opnd)
  /-- VSUB, R205: Subtracts lanes of B from A. -/
  | vsub (h : Hdr) (t : Elt) (d : Opnd) (a : Opnd) (b : Opnd)
  /-- VMUL, R205: Multiplies lanes of A and B. -/
  | vmul (h : Hdr) (t : Elt) (d : Opnd) (a : Opnd) (b : Opnd)
  /-- VFMA, R206: Writes a × b + d per lane, rounded once. -/
  | vfma (h : Hdr) (t : Elt) (d : Opnd) (a : Opnd) (b : Opnd)
  /-- VFMS, R206: Writes a × b − d per lane, rounded once. -/
  | vfms (h : Hdr) (t : Elt) (d : Opnd) (a : Opnd) (b : Opnd)
  /-- VFNMA, R206: Writes d − a × b per lane, rounded once. -/
  | vfnma (h : Hdr) (t : Elt) (d : Opnd) (a : Opnd) (b : Opnd)
  /-- VMIN, R205: Writes the lesser of each lane pair. -/
  | vmin (h : Hdr) (t : Elt) (d : Opnd) (a : Opnd) (b : Opnd)
  /-- VMAX, R205: Writes the greater of each lane pair. -/
  | vmax (h : Hdr) (t : Elt) (d : Opnd) (a : Opnd) (b : Opnd)
  /-- VABS, R205: Writes the absolute value of each lane. -/
  | vabs (h : Hdr) (t : Elt) (d : Opnd) (a : Opnd)
  /-- VNEG, R205: Writes the negation of each lane. -/
  | vneg (h : Hdr) (t : Elt) (d : Opnd) (a : Opnd)
  /-- VSHL, R207: Shifts each lane left by its count lane. -/
  | vshl (h : Hdr) (t : Elt) (d : Opnd) (a : Opnd) (b : Opnd)
  /-- VSHR, R207: Shifts each lane right logically. -/
  | vshr (h : Hdr) (t : Elt) (d : Opnd) (a : Opnd) (b : Opnd)
  /-- VSAR, R207: Shifts each lane right arithmetically. -/
  | vsar (h : Hdr) (t : Elt) (d : Opnd) (a : Opnd) (b : Opnd)
  /-- VCMPEQ, R208: Compares lanes for equality into a mask or flag. -/
  | vcmpeq (h : Hdr) (t : Elt) (d : Opnd) (a : Opnd) (b : Opnd)
  /-- VCMPNE, R208: Compares lanes for inequality into a mask or flag. -/
  | vcmpne (h : Hdr) (t : Elt) (d : Opnd) (a : Opnd) (b : Opnd)
  /-- VCMPLT, R208: Compares lanes for less-than into a mask or flag. -/
  | vcmplt (h : Hdr) (t : Elt) (d : Opnd) (a : Opnd) (b : Opnd)
  /-- VCMPLE, R208: Compares lanes for less-or-equal into a mask or flag. -/
  | vcmple (h : Hdr) (t : Elt) (d : Opnd) (a : Opnd) (b : Opnd)
  /-- VSEL, R209: Selects A or B lanes by the nonzero lanes of D. -/
  | vsel (h : Hdr) (t : Elt) (d : Opnd) (a : Opnd) (b : Opnd)
  /-- VSHUF, R211: Permutes lanes of A by indices in B. -/
  | vshuf (h : Hdr) (t : Elt) (d : Opnd) (a : Opnd) (b : Opnd)
  /-- VBCAST, R212: Copies lane 0 of A into every lane of D. -/
  | vbcast (h : Hdr) (t : Elt) (d : Opnd) (a : Opnd)
  /-- VSLIDE, R213: Slides lanes of A by a signed count. -/
  | vslide (h : Hdr) (t : Elt) (d : Opnd) (a : Opnd) (b : Opnd)
  /-- VHSUM, R214: Sums the lanes of A in the fixed tree into lane 0. -/
  | vhsum (h : Hdr) (t : Elt) (d : Opnd) (a : Opnd)
  /-- VHMAX, R214: Takes the maximum of the lanes of A in the fixed tree. -/
  | vhmax (h : Hdr) (t : Elt) (d : Opnd) (a : Opnd)
  /-- VHMIN, R214: Takes the minimum of the lanes of A in the fixed tree. -/
  | vhmin (h : Hdr) (t : Elt) (d : Opnd) (a : Opnd)
  /-- VCVT, R215: Converts each lane from the source type to the destination type. -/
  | vcvt (h : Hdr) (t : Elt) (d : Opnd) (a : Opnd) (imm : BitVec 15)
  /-- VCLASS, R210: Writes a one-hot class code for each floating-point lane. -/
  | vclass (h : Hdr) (t : Elt) (d : Opnd) (a : Opnd)
  /-- FDIV, R216: Divides lanes, correctly rounded; lands as class T. -/
  | fdiv (h : Hdr) (t : Elt) (d : Opnd) (a : Opnd) (b : Opnd)
  /-- FSQRT, R216: Takes lane square roots; lands as class T. -/
  | fsqrt (h : Hdr) (t : Elt) (d : Opnd) (a : Opnd)
  /-- FRCP, R216: Takes lane reciprocals, correctly rounded. -/
  | frcp (h : Hdr) (t : Elt) (d : Opnd) (a : Opnd)
  /-- FRSQ, R216: Takes lane reciprocal square roots. -/
  | frsq (h : Hdr) (t : Elt) (d : Opnd) (a : Opnd)
  /-- FLUT, R218: Range-reduces each lane and evaluates a function table. -/
  | flut (h : Hdr) (t : Elt) (d : Opnd) (a : Opnd) (imm : BitVec 15)
  /-- LUTLD, R217: Loads entries of a function table from A. -/
  | lutld (h : Hdr) (t : Elt) (a : Opnd) (imm : BitVec 15)
  /-- FEXPS, R219: Writes 1 plus the fractional part of each lane, rounded towards zero. -/
  | fexps (h : Hdr) (t : Elt) (d : Opnd) (a : Opnd)
  /-- FLDX, R220: Scales each lane of A by 2 to the floor of B. -/
  | fldx (h : Hdr) (t : Elt) (d : Opnd) (a : Opnd) (b : Opnd)
  /-- BPACK, R225: Packs a block or F32 lanes into D's block format and writes the overflow record. -/
  | bpack (h : Hdr) (d : Opnd) (a : Opnd) (b : Opnd)
  /-- BUNPK, R226: Unpacks a block into 32 F32 lanes. -/
  | bunpk (h : Hdr) (d : Opnd) (a : Opnd)
  /-- BALIGN, R227: Rewrites a block at a given exponent with zero sub-shifts. -/
  | balign (h : Hdr) (d : Opnd) (a : Opnd) (b : Opnd)
  /-- BADD, R228: Adds two blocks exactly and fits or packs the sum. -/
  | badd (h : Hdr) (d : Opnd) (a : Opnd) (b : Opnd)
  /-- BADDQ, R229: Adds two narrow blocks at an exponent no lower than either input's. -/
  | baddq (h : Hdr) (d : Opnd) (a : Opnd) (b : Opnd)
  /-- BSCALE, R230: Multiplies a block by a power of two. -/
  | bscale (h : Hdr) (d : Opnd) (a : Opnd) (b : Opnd)
  /-- BNORM, R231: Re-forms a block's exponent and sub-shifts. -/
  | bnorm (h : Hdr) (d : Opnd) (a : Opnd)
  /-- BMAXE, R233: Writes the largest biased element exponent of a block. -/
  | bmaxe (h : Hdr) (d : Opnd) (a : Opnd)
  /-- BMAC, R228: Accumulates the element products of two narrow blocks into a BXA block. -/
  | bmac (h : Hdr) (d : Opnd) (a : Opnd) (b : Opnd)
  /-- BHSUM, R232: Sums the 32 elements of a block exactly. -/
  | bhsum (h : Hdr) (d : Opnd) (a : Opnd)
  /-- BERR, R228: Writes the BXA residual of A less B. -/
  | berr (h : Hdr) (d : Opnd) (a : Opnd) (b : Opnd)
  /-- BCMPZ, R234: Forms a mask of zero or NaN elements of a block. -/
  | bcmpz (h : Hdr) (d : Opnd) (a : Opnd)
  /-- BHDR, R235: Reads or replaces a block header. -/
  | bhdr (h : Hdr) (d : Opnd) (a : Opnd)
  /-- MLEASE, R243: Asks for the core's MAC array. -/
  | mlease (h : Hdr)
  /-- MRELS, R243: Releases the MAC array after accepted MMACs complete. -/
  | mrels (h : Hdr)
  /-- MCFG, R242: Claims and drops matrix slots and sets the latch formats. -/
  | mcfg (h : Hdr) (a : Opnd)
  /-- MZERO, R244: Clears a slot's C tile after its earlier commands. -/
  | mzero (h : Hdr) (imm : BitVec 15)
  /-- MLDA, R247: Loads a slot's A latch from local store. -/
  | mlda (h : Hdr) (a : Opnd) (imm : BitVec 15)
  /-- MLDB, R247: Loads a slot's B latch from local store. -/
  | mldb (h : Hdr) (a : Opnd) (imm : BitVec 15)
  /-- MGATHA, R247: Loads a slot's A latch from indexed rows. -/
  | mgatha (h : Hdr) (a : Opnd) (imm : BitVec 15)
  /-- MMAC, R249: Accepts a tile multiply-accumulate into a slot's C tile. -/
  | mmac (h : Hdr) (imm : BitVec 15)
  /-- MSTC, R250: Converts and stores a slot's C tile to local store. -/
  | mstc (h : Hdr) (a : Opnd) (imm : BitVec 15)
  /-- MSTC_Q, R250: Converts a slot's C tile into one entry of the collective outbound queue. -/
  | mstcQ (h : Hdr) (a : Opnd) (imm : BitVec 15)
  /-- MSAVE, R251: Writes a slot's BXA tile to local store. -/
  | msave (h : Hdr) (a : Opnd) (imm : BitVec 15)
  /-- MRSTR, R251: Reads a saved BXA tile into a slot. -/
  | mrstr (h : Hdr) (a : Opnd) (imm : BitVec 15)
  /-- MSTAT, R245: Writes the matrix unit status word. -/
  | mstat (h : Hdr) (d : Opnd)
  /-- MATRIX_COMMAND_COMPLETE, R239: An accepted matrix command finishes, its flags set and its slot state updated. -/
  | matrixCommandComplete (c : Nat) (id : Nat)
  /-- MMAC_KSTEP, R249: The MAC array performs one k-step of an accepted MMAC into the C tile. -/
  | mmacKstep (c : Nat)
  /-- MATRIX_LEASE_GRANT, R243: The array is granted round-robin to the next waiting thread when it has no holder. -/
  | matrixLeaseGrant (c : Nat)
  /-- LEASE_BUDGET_EXPIRY, R243: A grant's 4,096-cycle budget runs out, renewing or ending the lease. -/
  | leaseBudgetExpiry (c : Nat)
  /-- LD, R258: Loads n/8 bytes into D as class T. -/
  | ld (h : Hdr) (d : Opnd) (a : Opnd) (imm : BitVec 15)
  /-- ST, R259: Sends a store of D's bytes; the thread runs on. -/
  | st (h : Hdr) (d : Opnd) (a : Opnd) (imm : BitVec 15)
  /-- AADD, R260: Atomically adds to memory and returns the old value. -/
  | aadd (h : Hdr) (d : Opnd) (a : Opnd) (imm : BitVec 15)
  /-- AMIN, R260: Atomic signed minimum. -/
  | amin (h : Hdr) (d : Opnd) (a : Opnd) (imm : BitVec 15)
  /-- AMAX, R260: Atomic signed maximum. -/
  | amax (h : Hdr) (d : Opnd) (a : Opnd) (imm : BitVec 15)
  /-- AMINN, R260: Atomic natural minimum. -/
  | aminn (h : Hdr) (d : Opnd) (a : Opnd) (imm : BitVec 15)
  /-- AMAXN, R260: Atomic natural maximum. -/
  | amaxn (h : Hdr) (d : Opnd) (a : Opnd) (imm : BitVec 15)
  /-- AAND, R260: Atomic and. -/
  | aand (h : Hdr) (d : Opnd) (a : Opnd) (imm : BitVec 15)
  /-- AOR, R260: Atomic or. -/
  | aor (h : Hdr) (d : Opnd) (a : Opnd) (imm : BitVec 15)
  /-- AXOR, R260: Atomic xor. -/
  | axor (h : Hdr) (d : Opnd) (a : Opnd) (imm : BitVec 15)
  /-- ASWAP, R260: Atomic swap. -/
  | aswap (h : Hdr) (d : Opnd) (a : Opnd) (imm : BitVec 15)
  /-- ACAS, R260: Atomic compare-and-swap, logging a lost compare. -/
  | acas (h : Hdr) (d : Opnd) (a : Opnd) (imm : BitVec 15)
  /-- AFADD, R260: Atomic F32 add with RNE. -/
  | afadd (h : Hdr) (d : Opnd) (a : Opnd) (imm : BitVec 15)
  /-- REDI, R262: Adds 32-bit integer lanes into memory at the target. -/
  | redi (h : Hdr) (d : Opnd) (a : Opnd) (imm : BitVec 15)
  /-- REDF, R262: Adds F32 lanes into memory at the target. -/
  | redf (h : Hdr) (d : Opnd) (a : Opnd) (imm : BitVec 15)
  /-- REDB, R262: Adds a block into a BXA block in memory at the target. -/
  | redb (h : Hdr) (d : Opnd) (a : Opnd) (imm : BitVec 15)
  /-- FENCE, R264: Orders predecessor-class accesses before successor-class ones. -/
  | fence (h : Hdr) (imm : BitVec 15)
  /-- SPILL, R266: Writes slices to memory at nibble granularity. -/
  | spill (h : Hdr) (d : Opnd) (a : Opnd) (imm : BitVec 15)
  /-- FILL, R266: Reads slices from memory at nibble granularity as class T. -/
  | fill (h : Hdr) (d : Opnd) (a : Opnd) (imm : BitVec 15)
  /-- PUSH, R268: Pushes A on a port. -/
  | push (h : Hdr) (d : Opnd) (a : Opnd)
  /-- POP, R268: Pops a group from an input queue into D. -/
  | pop (h : Hdr) (d : Opnd) (a : Opnd)
  /-- PEEK, R268: Reads the head group of an input queue without removing it. -/
  | peek (h : Hdr) (d : Opnd) (a : Opnd)
  /-- PDRAIN, R269: Removes every complete group from an input queue. -/
  | pdrain (h : Hdr) (d : Opnd) (a : Opnd)
  /-- PCNT, R269: Writes the state word of an input queue. -/
  | pcnt (h : Hdr) (d : Opnd) (a : Opnd)
  /-- PCFG, R270: Sets, ors, clears DISCARD bits or clears DROPPED bits of portcfg. -/
  | pcfg (h : Hdr) (d : Opnd) (a : Opnd) (imm : BitVec 15)
  /-- PORT_PUSH_RETEST, R74: A push held because its target bunch is unplaced or out is tested again. -/
  | portPushRetest (c : Nat) (t : Nat)
  /-- PORT_GROUP_COMPLETE, R70: A pushed group becomes complete in its target input queue. -/
  | portGroupComplete (c : Nat) (t : Nat) (q : Nat)
  /-- PORT_ROOM_RETURN, R70: Room freed by a pop reaches the pushing slot. -/
  | portRoomReturn (c : Nat) (t : Nat) (q : Nat)
  /-- SEND, R272: Sends a message with an inline payload. -/
  | send (h : Hdr) (d : Opnd) (a : Opnd)
  /-- SENDM, R272: Sends a message whose payload is read from local store. -/
  | sendm (h : Hdr) (d : Opnd) (a : Opnd)
  /-- REPLY, R279: Posts a REPLY event to the sender of the running handler's message. -/
  | reply (h : Hdr) (a : Opnd)
  /-- REFUSE, R279: Posts a REFUSED event with reason 6 to the sender. -/
  | refuse (h : Hdr)
  /-- HSET, R277: Copies 64 handler PCs into the core's handler table. -/
  | hset (h : Hdr) (a : Opnd)
  /-- HEXIT, R281: Ends a handler, posting REPLY_EMPTY when asked and unanswered. -/
  | hexit (h : Hdr)
  /-- MBXCFG, R276: Configures or unconfigures the core's mailbox. -/
  | mbxcfg (h : Hdr) (d : Opnd) (a : Opnd)
  /-- WAITEV, R282: Removes the oldest event, waiting while the queue is empty. -/
  | waitev (h : Hdr) (d : Opnd)
  /-- POLLEV, R282: Removes the oldest event, or writes 0 when none. -/
  | pollev (h : Hdr) (d : Opnd)
  /-- MESSAGE_ARRIVAL, R275: A message reaches its target core and is accepted into the mailbox or refused. -/
  | messageArrival (id : Nat)
  /-- HANDLER_START, R278: The oldest mailbox entry starts a handler in the lowest free handler slot. -/
  | handlerStart (c : Nat)
  /-- EVENT_DELIVERY, R280: An event record reaches the sender's event queue or is discarded. -/
  | eventDelivery (id : Nat)
  /-- CPY, R289: Queues a strided copy command on a copy-engine queue. -/
  | cpy (h : Hdr) (d : Opnd) (a : Opnd) (imm : BitVec 15)
  /-- CPYR, R290: Queues a copy that combines elements into local contents. -/
  | cpyr (h : Hdr) (d : Opnd) (a : Opnd) (imm : BitVec 15)
  /-- SORTK, R291: Queues a stable key sort of records. -/
  | sortk (h : Hdr) (d : Opnd) (a : Opnd) (imm : BitVec 15)
  /-- QFENCE, R293: Completes when earlier commands on the named queues complete. -/
  | qfence (h : Hdr) (imm : BitVec 15)
  /-- ENGST, R294: Reads a queue's status and optionally cancels its commands and clears HALT. -/
  | engst (h : Hdr) (d : Opnd) (imm : BitVec 15)
  /-- ENGINE_COMMAND_COMPLETE, R285: A copy-engine command finishes or fails, landing status and posting any event. -/
  | engineCommandComplete (c : Nat) (q : Nat)
  /-- RTREE, R295: Installs the core's node of a reduction tree. -/
  | rtree (h : Hdr) (d : Opnd) (a : Opnd)
  /-- RSEND, R298: Contributes one block to the core's tree node. -/
  | rsend (h : Hdr) (d : Opnd) (a : Opnd) (imm : BitVec 15)
  /-- RWAIT, R302: Lands the oldest delivered result of a tree. -/
  | rwait (h : Hdr) (d : Opnd) (imm : BitVec 15)
  /-- RABORT, R303: Aborts a tree on every member. -/
  | rabort (h : Hdr) (imm : BitVec 15)
  /-- TREE_PARTIAL_ARRIVAL, R299: A child's partial reaches a node, which folds the block once all inputs are held. -/
  | treePartialArrival (id : Nat)
  /-- TREE_RACK_WORD_ARRIVAL, R300: A rack word reaches a node, updating its current exponent and releasing folds. -/
  | treeRackWordArrival (id : Nat)
  /-- TREE_TIMEOUT, R301: A block's timer expires and the node folds without its absent inputs. -/
  | treeTimeout (c : Nat) (k : Nat) (blk : Nat)
  /-- TREE_RESULT_DELIVERY, R302: A result reaches a member's delivery queue. -/
  | treeResultDelivery (id : Nat)
  /-- TREE_ABORT_ARRIVAL, R303: An abort arriving over the tree removes it from a member. -/
  | treeAbortArrival (id : Nat)
  /-- COLL, R305: Submits a collective request block. -/
  | coll (h : Hdr) (d : Opnd) (a : Opnd)
  /-- COLLW, R305: Waits for a collective and lands its status word. -/
  | collw (h : Hdr) (d : Opnd) (a : Opnd)
  /-- COLL_STEP_START, R358: A collective step is sent once its slot time is reached. -/
  | collStepStart (id : Nat)
  /-- COLL_STEP_ARRIVAL, R360: A step packet arrives and is checked for skew. -/
  | collStepArrival (id : Nat) (src : Nat) (packet : List Byte)
  /-- COLL_MEMBER_TIMEOUT, R352: A member hearing nothing from a peer for TO completes with ERR 3. -/
  | collMemberTimeout (id : Nat)
  /-- COLL_COMPLETE, R352: A member completes its collective, writing DST and RES and posting KIND 5. -/
  | collComplete (id : Nat)
  /-- BDISP, R306: Lands the next block index of a press dispatch stream. -/
  | bdisp (h : Hdr) (d : Opnd) (a : Opnd)
  /-- TWAIT, R307: Waits until wafer time reaches a target. -/
  | twait (h : Hdr) (d : Opnd) (a : Opnd)
  /-- SPAWN, R308: Creates a child task and places it by its trellis digest. -/
  | spawn (h : Hdr) (d : Opnd) (a : Opnd) (b : Opnd)
  /-- JOIN, R310: Waits for named children and merges their results in spawn order. -/
  | join (h : Hdr) (d : Opnd) (a : Opnd) (imm : BitVec 15)
  /-- TASKID, R311: Writes a task identity value. -/
  | taskid (h : Hdr) (d : Opnd) (imm : BitVec 15)
  /-- BAR, R312: Arrives at a barrier and waits for its generation. -/
  | bar (h : Hdr) (d : Opnd) (a : Opnd) (imm : BitVec 15)
  /-- ARRIVE, R312: Arrives at a barrier without waiting. -/
  | arrive (h : Hdr) (d : Opnd) (a : Opnd) (imm : BitVec 15)
  /-- WAITB, R312: Waits until a barrier generation has completed. -/
  | waitb (h : Hdr) (a : Opnd) (imm : BitVec 15)
  /-- LAUNCH, R313: Submits a launch descriptor from a device thread. -/
  | launch (h : Hdr) (d : Opnd) (a : Opnd)
  /-- TASK_QUEUE_START, R32: When a slot frees, the oldest queued task starts in it. -/
  | taskQueueStart (c : Nat)
  /-- DLOGH, R314: Asks the cluster agent to merge the core's dirty log. -/
  | dlogh (h : Hdr)
  /-- TINV, R315: Drops edge translations by page, ASID or all. -/
  | tinv (h : Hdr) (a : Opnd) (imm : BitVec 15)
  /-- TRAP, R316: Raises SOFT_TRAP. -/
  | trap (h : Hdr) (imm : BitVec 15)
  /-- ERET, R325: Returns from a trap, restoring level, class and loop bank. -/
  | eret (h : Hdr)
  /-- CSRR, R317: Reads a CSR. -/
  | csrr (h : Hdr) (d : Opnd) (imm : BitVec 15)
  /-- CSRW, R317: Writes a CSR and returns its old value. -/
  | csrw (h : Hdr) (d : Opnd) (a : Opnd) (imm : BitVec 15)
  /-- CSRS, R317: Sets bits of a CSR. -/
  | csrs (h : Hdr) (d : Opnd) (a : Opnd) (imm : BitVec 15)
  /-- CSRC, R317: Clears bits of a CSR. -/
  | csrc (h : Hdr) (d : Opnd) (a : Opnd) (imm : BitVec 15)
  /-- BRK, R316: Raises BREAKPOINT or halts the thread for the debugger. -/
  | brk (h : Hdr) (imm : BitVec 15)
  /-- SYSC, R316: Raises SYSCALL to S level. -/
  | sysc (h : Hdr) (imm : BitVec 15)
  /-- IDLE, R316: Waits until the event queue holds an event. -/
  | idle (h : Hdr)
  /-- RESULT_LANDING, R158: A class T result or response lands, writing covered slices and freeing its tag. -/
  | resultLanding (c : Nat) (t : Nat) (id : Nat)
  /-- ACCESS_ARRIVAL, R142: A non-local access reaches its target and is performed, held or answered from the window. -/
  | accessArrival (id : Nat)
  /-- ACK_ARRIVAL, R141: An acknowledgement reaches the issuing thread's stream. -/
  | ackArrival (id : Nat)
  /-- ACCESS_RESEND, R145: An access unacknowledged after 50 µs is resent with the same numbers. -/
  | accessResend (id : Nat)
  /-- STREAM_ADMIT_RETRY, R146: A refused new stream retries every 1 µs. -/
  | streamAdmitRetry (id : Nat)
  /-- RELEASE_CLEARANCE, R143: A clearance reaches the target, which performs the held release. -/
  | releaseClearance (id : Nat)
  /-- RELEASE_CANCEL, R143: A cancel reaches the target, which discards the held release. -/
  | releaseCancel (id : Nat)
  /-- REMOTE_RETEST, R116: A held remote access is tested again every 1 µs. -/
  | remoteRetest (id : Nat)
  /-- REPLICA_INVALIDATE_ACK, R121: A replica acknowledges an invalidate; on the last, home performs the write. -/
  | replicaInvalidateAck (id : Nat) (p : Nat)
  /-- EDGE_TRANSLATION_WALK, R119: An edge port walks the page table for an access, faulting or translating it. -/
  | edgeTranslationWalk (id : Nat)
  /-- STORAGE_FAULT, R123: A port hands a non-resident storage page to its Cellar engine and the bunch is swapped out. -/
  | storageFault (id : Nat)
  /-- PAGE_FILL_COMPLETE, R123: The NVMe reads finish; FRAME and RES are written and the bunch made ready. -/
  | pageFillComplete (e : Nat) (id : Nat)
  /-- NVME_COMMAND_FAIL, R125: An NVMe command fails and is retried, failing its fill after the fourth failure. -/
  | nvmeCommandFail (e : Nat) (id : Nat) (code : Nat)
  /-- FRAME_EVICTION, R124: The engine evicts the oldest frame, writing it back if written. -/
  | frameEviction (e : Nat) (pool : Nat)
  /-- DLOG_MERGE, R129: The cluster agent merges a log holding 128 entries into PTE D bits. -/
  | dlogMerge (c : Nat)
  /-- DET_WINDOW_CLOSE, R342: A closing DET window performs its held reductions in key order. -/
  | detWindowClose (l : Nat)
  /-- WINDOW_DROWSY, R65: A window whose thread has waited 8,192 cycles may become drowsy. -/
  | windowDrowsy (c : Nat) (t : Nat)
  /-- DESCRIPTOR_READ, R17: The sequencer reads the next descriptor of a queue. -/
  | descriptorRead (q : Nat)
  /-- BUNCH_PLACE, R25: A bunch is placed on the first fitting rectangle and initialised. -/
  | bunchPlace (l : Nat)
  /-- ROUND_END, R40: When every thread of a round has exited the next round's record is applied and roots restart. -/
  | roundEnd (l : Nat)
  /-- BUNCH_RETIRE, R43: A bunch whose last round, commands and acknowledgements are done frees its cores. -/
  | bunchRetire (l : Nat) (b : Nat)
  /-- LAUNCH_COMPLETE, R43: A launch completes when all its bunches have retired. -/
  | launchComplete (l : Nat)
  /-- DEADLOCK_REPORT, R46: After 2^16 quiet blocked cycles the detector writes a report and an interim record. -/
  | deadlockReport (l : Nat)
  /-- WATCHDOG_EXPIRY, R329: Wafer time reaches TW and WATCHDOG is raised in running threads. -/
  | watchdogExpiry (l : Nat) (b : Nat) (tw : Nat)
  /-- BUNCH_HALT, R330: A halt reaches a core, which stops issue and accepting traffic. -/
  | bunchHalt (c : Nat)
  /-- ORPHAN_TIMEOUT, R330: After 2 µs the halt orphans missing loads and completes. -/
  | orphanTimeout (l : Nat) (b : Nat)
  /-- BUNCH_SAVE, R332: The halted bunch's state is written to its save areas. -/
  | bunchSave (l : Nat) (b : Nat)
  /-- BUNCH_SWAP_IN, R333: A ready bunch is restored, replays its recorded accesses and resumes. -/
  | bunchSwapIn (l : Nat) (b : Nat)
  /-- CORE_FAILURE, R13: A core fails in service, raising machine checks and draining its field. -/
  | coreFailure (c : Nat)
  /-- MESH_LINK_FAILURE, R132: A mesh link failing 16 retries raises machine checks. -/
  | meshLinkFailure (c : Nat) (dir : Nat)
  /-- GRAFTING, R12: A field is grafted at power-up or when its draining ends. -/
  | grafting (f : Nat) (ok : Bool)
  /-- HOST_LINK_TRAINED, R372: CXL link training completes and a HOST bit is set. -/
  | hostLinkTrained (p : Nat)
  /-- EDGE_MEMORY_TRAINED, R372: An edge port's memory is trained and its bit set. -/
  | edgeMemoryTrained (p : Nat) (size : Nat)
  /-- CELLAR_DRIVES_READY, R372: A Cellar engine's drive controllers report ready. -/
  | cellarDrivesReady (e : Nat) (drives : Nat)
  /-- LINK_PORT_LOCKED, R372: A link port achieves PHY lock, key agreement and 1588 lock. -/
  | linkPortLocked (p : Nat)
  /-- LINK_PORT_DOWN, R356: A link that delivers nothing for 10 ms clears its ready bit. -/
  | linkPortDown (p : Nat)
  /-- LINK_REKEY, R356: Firmware replaces a link key before the nonce counter reaches 2^48. -/
  | linkRekey (p : Nat)
  /-- TRACE_FRAME_CLOSE, R383: A record that does not fit closes the frame, which is written or dropped. -/
  | traceFrameClose (f : Nat)
  /-- TRACE_FRAME_TIMEOUT, R383: A frame closes 100 µs after its first record. -/
  | traceFrameTimeout (f : Nat) (n : Nat)
  /-- WAFER_TIME_REACHES_TARGET, R307: Wafer time reaches a TWAIT's target and the waiting thread proceeds, with D receiving TIME. -/
  | waferTimeReachesTarget (c : Nat) (t : Nat)
  /-- SOFT_ERROR, R131: A single-bit or uncorrectable error appears in slice-file, local-store or edge data, or CXL poison appears on edge or host data. -/
  | softError (kind : Nat) (a : Nat)
  /-- PAGE_WRITE_BACK_COMPLETE, R127: An NVMe Write of a storage-backed page, or the Flush after it, completes, letting a PERSIST fence complete or an evicted frame be reused. -/
  | pageWriteBackComplete (e : Nat) (id : Nat) (ok : Bool)
  /-- NOP, R164: The all-zero instruction word does nothing and takes one stream position. -/
  | nop
  /-- TRAP_ENTRY, R323: A deferred or asynchronous cause is entered at a thread boundary. -/
  | trapEntry
  /-- STREAM_WINDOW_RETIRE, R146: A stream window with no arrival for 1 ms retires. -/
  | streamWindowRetire
  /-- LQ_TAIL_WRITE, R17: A host advances a launch queue's tail. -/
  | lqTailWrite
  /-- LQ_HEAD_WRITE, R17: A host writes HEAD while disabled, clearing CONS. -/
  | lqHeadWrite
  /-- LQ_ENABLE, R17: Setting lq_ctl.EN starts the sequencer on the queue, writing held records first. -/
  | lqEnable
  /-- LQ_DISABLE, R16: Writing lq_ctl.EN = 0 stops the queue and clears HALT. -/
  | lqDisable
  /-- LQ_CRD_WRITE, R23: A host advances the completion read index, releasing held records. -/
  | lqCrdWrite
  /-- PRE_CTL_PREEMPT, R329: A pre_ctl write with OP 0 requests a halt of the matched bunches. -/
  | preCtlPreempt
  /-- PRE_CTL_RELEASE, R329: A pre_ctl write with OP 1 releases bunches for swap-in. -/
  | preCtlRelease
  /-- PRE_CTL_ABORT, R50: A pre_ctl write with OP 2 aborts the launch at once. -/
  | preCtlAbort
  /-- PRE_CTL_ARM_WATCHDOG, R329: A pre_ctl write with OP 3 arms a watchdog at time TW. -/
  | preCtlArmWatchdog
  /-- TN_RD_WRITE, R334: A host advances the trap-notice read index, releasing held notices. -/
  | tnRdWrite
  /-- TN_BASE_WRITE, R334: A nonzero trap-notice base configures the ring and releases held notices. -/
  | tnBaseWrite
  /-- POWER_UP, R364: The security unit verifies the firmware and bring-up starts. -/
  | powerUp
  /-- RESET, R367: A reset returns the module to locked. -/
  | reset
  /-- LINK_FLIT_RETRY, R356: A lost or failing flit is retried go-back-N. -/
  | linkFlitRetry
  /-- TIME_SYNC, R357: An IEEE 1588 exchange disciplines wafer time. -/
  | timeSync
  /-- RSLICE, R374: Debug command reading slices of a thread. -/
  | rslice
  /-- WSLICE, R374: Debug command writing slices of a thread. -/
  | wslice
  /-- RCSR, R374: Debug command reading a CSR. -/
  | rcsr
  /-- WCSR, R374: Debug command writing a CSR at F level. -/
  | wcsr
  /-- RMEM, R374: Debug command reading local store. -/
  | rmem
  /-- WMEM, R374: Debug command writing local store, code region included. -/
  | wmem
  /-- HALT, R375: Debug command halting a thread at its next boundary. -/
  | halt
  /-- HALTB, R375: Debug command halting a whole bunch. -/
  | haltb
  /-- RESUME, R374: Debug command resuming a thread or bunch. -/
  | resume
  /-- STEP, R377: Debug command running a halted thread to its next boundary. -/
  | step
  /-- SETBP, R378: Debug command setting a comparator. -/
  | setbp
  /-- RSAVE, R374: Debug command reading a save area. -/
  | rsave
  /-- WSAVE, R336: Debug command writing a save area and updating its CRC. -/
  | wsave
  /-- BRKMODE, R374: Debug command choosing whether BRK halts its thread. -/
  | brkmode
  /-- DBG_AUTH_NEWCHAL, R368: A write of NEWCHAL forms a fresh authorisation challenge. -/
  | dbgAuthNewchal
  /-- DBG_AUTH_VERIFY, R368: A write of VERIFY checks the signed response and may authorise debug. -/
  | dbgAuthVerify
  /-- AUTH_LOCKOUT_EXPIRY, R368: The 10 s lockout after three failures ends. -/
  | authLockoutExpiry
  /-- DBG_SEC_WRITE, R367: A write of 0 to dbg_sec returns the module to locked. -/
  | dbgSecWrite
  /-- DBG_LVL_WRITE, R367: A write of dbg_lvl sets the debug level if the state admits it. -/
  | dbgLvlWrite
  /-- ATTESTATION_GO, R365: A write of GO starts an attestation report. -/
  | attestationGo
  /-- ATTESTATION_REPORT_DONE, R366: The signed report is written and MSI-X 19 signalled. -/
  | attestationReportDone
  /-- RTVGO, R369: A write of RTVGO checks a vendor command and returns the module to vendor. -/
  | rtvgo
  /-- STANDBY_REQUEST, R370: Writing STANDBY = 1 enters standby or is refused. -/
  | standbyRequest
  /-- STANDBY_EXIT, R370: Writing STANDBY = 0 repeats bring-up from the edge ports. -/
  | standbyExit
  /-- ACCESS_TABLE_WRITE, R363: An F-level write updates an access table entry. -/
  | accessTableWrite
  /-- TRACE_PC_SAMPLE, R381: The sample interval elapses and a PC-sample record is formed. -/
  | tracePcSample
  /-- TR_CTL_WRITE, R383: A write of tr_ctl configures tracing; clearing EN closes the open frame. -/
  | trCtlWrite
  /-- TR_RD_WRITE, R387: A host advances the trace read index, writing a LEES frame or releasing stalled threads. -/
  | trRdWrite
  /-- REGISTER_WRITE, R361: A write to an MMIO register without behaviour of its own. -/
  | registerWrite
  /-- WORD_NOT_AN_INSTRUCTION, R166: A thread issues a fetched word that is not an instruction, or fetches a word beyond the code image, and traps ILLEGAL_OP, ILLEGAL_FILL, ILLEGAL_RSVD or FETCH_RANGE. -/
  | wordNotAnInstruction
deriving DecidableEq, Repr

end Sys2Proof
end

