-- ==== Sys2Proof/Machine/Forms.lean ====
section
/-! DEFINITION. What the spec fixes of each instruction word before it runs: its opcode and fields, its
latency class, and the checks of R56, R58, R76, R81, R86, R150, R153 and R203 that need no state. -/

namespace Sys2Proof

/-- The latency classes of Table 9.3. -/
inductive Latency where
  | f1 | f3 | f4 | f6 | f8 | t
deriving DecidableEq, Repr

/-- The fields an encoded instruction uses: an operand or immediate its format does not use is `none`. -/
structure View where
  op  : BitVec 10
  h   : Hdr
  d   : Option Opnd := none
  a   : Option Opnd := none
  b   : Option Opnd := none
  imm : Option (BitVec 15) := none
  off : Option (BitVec 32) := none
deriving DecidableEq, Repr

/-- The header whose every field is 0. -/
def Hdr.plain : Hdr := ⟨false, false, 0#2, 0#7, 0#3, 0#3, .none⟩

/-- The type code OP[2:0] of a family instruction (R165). -/
def Elt.code : Elt → BitVec 10
  | .i8 => 0#10 | .i16 => 1#10 | .i32 => 2#10 | .i64 => 3#10 | .f16 => 4#10 | .bf16 => 5#10 | .f32 => 6#10

/-- The element type of a type code; code 7 names none (R166). -/
def Elt.ofCode : Nat → Option Elt
  | 0 => some .i8 | 1 => some .i16 | 2 => some .i32 | 3 => some .i64
  | 4 => some .f16 | 5 => some .bf16 | 6 => some .f32 | _ => none

/-- Opcode and fields of each encoded instruction (Tables 9.4 to 9.6); an event has none. -/
def Instr.view : Instr → Option View
-- table view, one row a constructor
  | .nop => some { op := 0x000#10, h := Hdr.plain }
  | .add h d a b => some { op := 0x001#10, h := h, d := some d, a := some a, b := some b }
  | .addi h d a imm => some { op := 0x002#10, h := h, d := some d, a := some a, imm := some imm }
  | .sub h d a b => some { op := 0x003#10, h := h, d := some d, a := some a, b := some b }
  | .mul h d a b => some { op := 0x004#10, h := h, d := some d, a := some a, b := some b }
  | .mulh h d a b => some { op := 0x005#10, h := h, d := some d, a := some a, b := some b }
  | .mulhn h d a b => some { op := 0x006#10, h := h, d := some d, a := some a, b := some b }
  | .div h d a b => some { op := 0x007#10, h := h, d := some d, a := some a, b := some b }
  | .divn h d a b => some { op := 0x008#10, h := h, d := some d, a := some a, b := some b }
  | .rem h d a b => some { op := 0x009#10, h := h, d := some d, a := some a, b := some b }
  | .remn h d a b => some { op := 0x00a#10, h := h, d := some d, a := some a, b := some b }
  | .and h d a b => some { op := 0x00b#10, h := h, d := some d, a := some a, b := some b }
  | .andi h d a imm => some { op := 0x00c#10, h := h, d := some d, a := some a, imm := some imm }
  | .or h d a b => some { op := 0x00d#10, h := h, d := some d, a := some a, b := some b }
  | .ori h d a imm => some { op := 0x00e#10, h := h, d := some d, a := some a, imm := some imm }
  | .xor h d a b => some { op := 0x00f#10, h := h, d := some d, a := some a, b := some b }
  | .xori h d a imm => some { op := 0x010#10, h := h, d := some d, a := some a, imm := some imm }
  | .andn h d a b => some { op := 0x011#10, h := h, d := some d, a := some a, b := some b }
  | .shl h d a b => some { op := 0x012#10, h := h, d := some d, a := some a, b := some b }
  | .shli h d a imm => some { op := 0x013#10, h := h, d := some d, a := some a, imm := some imm }
  | .shr h d a b => some { op := 0x014#10, h := h, d := some d, a := some a, b := some b }
  | .shri h d a imm => some { op := 0x015#10, h := h, d := some d, a := some a, imm := some imm }
  | .sar h d a b => some { op := 0x016#10, h := h, d := some d, a := some a, b := some b }
  | .sari h d a imm => some { op := 0x017#10, h := h, d := some d, a := some a, imm := some imm }
  | .rol h d a b => some { op := 0x018#10, h := h, d := some d, a := some a, b := some b }
  | .roli h d a imm => some { op := 0x019#10, h := h, d := some d, a := some a, imm := some imm }
  | .clz h d a => some { op := 0x01a#10, h := h, d := some d, a := some a }
  | .ctz h d a => some { op := 0x01b#10, h := h, d := some d, a := some a }
  | .popc h d a => some { op := 0x01c#10, h := h, d := some d, a := some a }
  | .min h d a b => some { op := 0x01d#10, h := h, d := some d, a := some a, b := some b }
  | .max h d a b => some { op := 0x01e#10, h := h, d := some d, a := some a, b := some b }
  | .minn h d a b => some { op := 0x01f#10, h := h, d := some d, a := some a, b := some b }
  | .maxn h d a b => some { op := 0x020#10, h := h, d := some d, a := some a, b := some b }
  | .abs h d a => some { op := 0x021#10, h := h, d := some d, a := some a }
  | .neg h d a => some { op := 0x022#10, h := h, d := some d, a := some a }
  | .sel h d a b => some { op := 0x023#10, h := h, d := some d, a := some a, b := some b }
  | .mov h d a => some { op := 0x024#10, h := h, d := some d, a := some a }
  | .movi h d imm => some { op := 0x025#10, h := h, d := some d, imm := some imm }
  | .movh h d a imm => some { op := 0x026#10, h := h, d := some d, a := some a, imm := some imm }
  | .bfx h d a b => some { op := 0x027#10, h := h, d := some d, a := some a, b := some b }
  | .bfi h d a b => some { op := 0x028#10, h := h, d := some d, a := some a, b := some b }
  | .brev h d a => some { op := 0x029#10, h := h, d := some d, a := some a }
  | .bswap h d a => some { op := 0x02a#10, h := h, d := some d, a := some a }
  | .cmpeq h d a b => some { op := 0x02b#10, h := h, d := some d, a := some a, b := some b }
  | .cmpne h d a b => some { op := 0x02c#10, h := h, d := some d, a := some a, b := some b }
  | .cmplt h d a b => some { op := 0x02d#10, h := h, d := some d, a := some a, b := some b }
  | .cmpltn h d a b => some { op := 0x02e#10, h := h, d := some d, a := some a, b := some b }
  | .cmple h d a b => some { op := 0x02f#10, h := h, d := some d, a := some a, b := some b }
  | .cmplen h d a b => some { op := 0x030#10, h := h, d := some d, a := some a, b := some b }
  | .br h off => some { op := 0x040#10, h := h, off := some off }
  | .jmp h a => some { op := 0x041#10, h := h, a := some a }
  | .call h off => some { op := 0x042#10, h := h, off := some off }
  | .callr h d a => some { op := 0x043#10, h := h, d := some d, a := some a }
  | .loop h a imm => some { op := 0x044#10, h := h, a := some a, imm := some imm }
  | .rep h a imm => some { op := 0x045#10, h := h, a := some a, imm := some imm }
  | .yield h => some { op := 0x046#10, h := h }
  | .exit h => some { op := 0x047#10, h := h }
  | .vadd h t d a b => some { op := 0x080#10 + t.code, h := h, d := some d, a := some a, b := some b }
  | .vsub h t d a b => some { op := 0x088#10 + t.code, h := h, d := some d, a := some a, b := some b }
  | .vmul h t d a b => some { op := 0x090#10 + t.code, h := h, d := some d, a := some a, b := some b }
  | .vfma h t d a b => some { op := 0x098#10 + t.code, h := h, d := some d, a := some a, b := some b }
  | .vfms h t d a b => some { op := 0x0a0#10 + t.code, h := h, d := some d, a := some a, b := some b }
  | .vfnma h t d a b => some { op := 0x0a8#10 + t.code, h := h, d := some d, a := some a, b := some b }
  | .vmin h t d a b => some { op := 0x0b0#10 + t.code, h := h, d := some d, a := some a, b := some b }
  | .vmax h t d a b => some { op := 0x0b8#10 + t.code, h := h, d := some d, a := some a, b := some b }
  | .vabs h t d a => some { op := 0x0c0#10 + t.code, h := h, d := some d, a := some a }
  | .vneg h t d a => some { op := 0x0c8#10 + t.code, h := h, d := some d, a := some a }
  | .vshl h t d a b => some { op := 0x0d0#10 + t.code, h := h, d := some d, a := some a, b := some b }
  | .vshr h t d a b => some { op := 0x0d8#10 + t.code, h := h, d := some d, a := some a, b := some b }
  | .vsar h t d a b => some { op := 0x0e0#10 + t.code, h := h, d := some d, a := some a, b := some b }
  | .vcmpeq h t d a b => some { op := 0x0e8#10 + t.code, h := h, d := some d, a := some a, b := some b }
  | .vcmpne h t d a b => some { op := 0x0f0#10 + t.code, h := h, d := some d, a := some a, b := some b }
  | .vcmplt h t d a b => some { op := 0x0f8#10 + t.code, h := h, d := some d, a := some a, b := some b }
  | .vcmple h t d a b => some { op := 0x100#10 + t.code, h := h, d := some d, a := some a, b := some b }
  | .vsel h t d a b => some { op := 0x108#10 + t.code, h := h, d := some d, a := some a, b := some b }
  | .vshuf h t d a b => some { op := 0x110#10 + t.code, h := h, d := some d, a := some a, b := some b }
  | .vbcast h t d a => some { op := 0x118#10 + t.code, h := h, d := some d, a := some a }
  | .vslide h t d a b => some { op := 0x120#10 + t.code, h := h, d := some d, a := some a, b := some b }
  | .vhsum h t d a => some { op := 0x128#10 + t.code, h := h, d := some d, a := some a }
  | .vhmax h t d a => some { op := 0x130#10 + t.code, h := h, d := some d, a := some a }
  | .vhmin h t d a => some { op := 0x138#10 + t.code, h := h, d := some d, a := some a }
  | .vcvt h t d a imm => some { op := 0x140#10 + t.code, h := h, d := some d, a := some a, imm := some imm }
  | .vclass h t d a => some { op := 0x148#10 + t.code, h := h, d := some d, a := some a }
  | .fdiv h t d a b => some { op := 0x150#10 + t.code, h := h, d := some d, a := some a, b := some b }
  | .fsqrt h t d a => some { op := 0x158#10 + t.code, h := h, d := some d, a := some a }
  | .frcp h t d a => some { op := 0x160#10 + t.code, h := h, d := some d, a := some a }
  | .frsq h t d a => some { op := 0x168#10 + t.code, h := h, d := some d, a := some a }
  | .flut h t d a imm => some { op := 0x170#10 + t.code, h := h, d := some d, a := some a, imm := some imm }
  | .lutld h t a imm => some { op := 0x178#10 + t.code, h := h, a := some a, imm := some imm }
  | .fexps h t d a => some { op := 0x180#10 + t.code, h := h, d := some d, a := some a }
  | .fldx h t d a b => some { op := 0x188#10 + t.code, h := h, d := some d, a := some a, b := some b }
  | .bpack h d a b => some { op := 0x200#10, h := h, d := some d, a := some a, b := some b }
  | .bunpk h d a => some { op := 0x201#10, h := h, d := some d, a := some a }
  | .balign h d a b => some { op := 0x202#10, h := h, d := some d, a := some a, b := some b }
  | .badd h d a b => some { op := 0x203#10, h := h, d := some d, a := some a, b := some b }
  | .baddq h d a b => some { op := 0x204#10, h := h, d := some d, a := some a, b := some b }
  | .bscale h d a b => some { op := 0x205#10, h := h, d := some d, a := some a, b := some b }
  | .bnorm h d a => some { op := 0x206#10, h := h, d := some d, a := some a }
  | .bmaxe h d a => some { op := 0x207#10, h := h, d := some d, a := some a }
  | .bmac h d a b => some { op := 0x208#10, h := h, d := some d, a := some a, b := some b }
  | .bhsum h d a => some { op := 0x209#10, h := h, d := some d, a := some a }
  | .berr h d a b => some { op := 0x20a#10, h := h, d := some d, a := some a, b := some b }
  | .bcmpz h d a => some { op := 0x20b#10, h := h, d := some d, a := some a }
  | .bhdr h d a => some { op := 0x20c#10, h := h, d := some d, a := some a }
  | .mlease h => some { op := 0x240#10, h := h }
  | .mrels h => some { op := 0x241#10, h := h }
  | .mcfg h a => some { op := 0x242#10, h := h, a := some a }
  | .mzero h imm => some { op := 0x243#10, h := h, imm := some imm }
  | .mlda h a imm => some { op := 0x244#10, h := h, a := some a, imm := some imm }
  | .mldb h a imm => some { op := 0x245#10, h := h, a := some a, imm := some imm }
  | .mgatha h a imm => some { op := 0x246#10, h := h, a := some a, imm := some imm }
  | .mmac h imm => some { op := 0x247#10, h := h, imm := some imm }
  | .mstc h a imm => some { op := 0x248#10, h := h, a := some a, imm := some imm }
  | .mstcQ h a imm => some { op := 0x248#10, h := h, a := some a, imm := some imm }
  | .msave h a imm => some { op := 0x249#10, h := h, a := some a, imm := some imm }
  | .mrstr h a imm => some { op := 0x24a#10, h := h, a := some a, imm := some imm }
  | .mstat h d => some { op := 0x24b#10, h := h, d := some d }
  | .matrixCommandComplete _ _ => none
  | .mmacKstep _ => none
  | .matrixLeaseGrant _ => none
  | .leaseBudgetExpiry _ => none
  | .ld h d a imm => some { op := 0x260#10, h := h, d := some d, a := some a, imm := some imm }
  | .st h d a imm => some { op := 0x261#10, h := h, d := some d, a := some a, imm := some imm }
  | .aadd h d a imm => some { op := 0x262#10, h := h, d := some d, a := some a, imm := some imm }
  | .amin h d a imm => some { op := 0x263#10, h := h, d := some d, a := some a, imm := some imm }
  | .amax h d a imm => some { op := 0x264#10, h := h, d := some d, a := some a, imm := some imm }
  | .aminn h d a imm => some { op := 0x265#10, h := h, d := some d, a := some a, imm := some imm }
  | .amaxn h d a imm => some { op := 0x266#10, h := h, d := some d, a := some a, imm := some imm }
  | .aand h d a imm => some { op := 0x267#10, h := h, d := some d, a := some a, imm := some imm }
  | .aor h d a imm => some { op := 0x268#10, h := h, d := some d, a := some a, imm := some imm }
  | .axor h d a imm => some { op := 0x269#10, h := h, d := some d, a := some a, imm := some imm }
  | .aswap h d a imm => some { op := 0x26a#10, h := h, d := some d, a := some a, imm := some imm }
  | .acas h d a imm => some { op := 0x26b#10, h := h, d := some d, a := some a, imm := some imm }
  | .afadd h d a imm => some { op := 0x26c#10, h := h, d := some d, a := some a, imm := some imm }
  | .redi h d a imm => some { op := 0x26d#10, h := h, d := some d, a := some a, imm := some imm }
  | .redf h d a imm => some { op := 0x26e#10, h := h, d := some d, a := some a, imm := some imm }
  | .redb h d a imm => some { op := 0x26f#10, h := h, d := some d, a := some a, imm := some imm }
  | .fence h imm => some { op := 0x270#10, h := h, imm := some imm }
  | .spill h d a imm => some { op := 0x271#10, h := h, d := some d, a := some a, imm := some imm }
  | .fill h d a imm => some { op := 0x272#10, h := h, d := some d, a := some a, imm := some imm }
  | .push h d a => some { op := 0x280#10, h := h, d := some d, a := some a }
  | .pop h d a => some { op := 0x281#10, h := h, d := some d, a := some a }
  | .peek h d a => some { op := 0x282#10, h := h, d := some d, a := some a }
  | .pdrain h d a => some { op := 0x283#10, h := h, d := some d, a := some a }
  | .pcnt h d a => some { op := 0x284#10, h := h, d := some d, a := some a }
  | .pcfg h d a imm => some { op := 0x285#10, h := h, d := some d, a := some a, imm := some imm }
  | .portPushRetest _ _ => none
  | .portGroupComplete _ _ _ => none
  | .portRoomReturn _ _ _ => none
  | .send h d a => some { op := 0x290#10, h := h, d := some d, a := some a }
  | .sendm h d a => some { op := 0x291#10, h := h, d := some d, a := some a }
  | .reply h a => some { op := 0x292#10, h := h, a := some a }
  | .refuse h => some { op := 0x293#10, h := h }
  | .hset h a => some { op := 0x294#10, h := h, a := some a }
  | .hexit h => some { op := 0x295#10, h := h }
  | .mbxcfg h d a => some { op := 0x296#10, h := h, d := some d, a := some a }
  | .waitev h d => some { op := 0x297#10, h := h, d := some d }
  | .pollev h d => some { op := 0x298#10, h := h, d := some d }
  | .messageArrival _ => none
  | .handlerStart _ => none
  | .eventDelivery _ => none
  | .cpy h d a imm => some { op := 0x2a0#10, h := h, d := some d, a := some a, imm := some imm }
  | .cpyr h d a imm => some { op := 0x2a1#10, h := h, d := some d, a := some a, imm := some imm }
  | .sortk h d a imm => some { op := 0x2a2#10, h := h, d := some d, a := some a, imm := some imm }
  | .qfence h imm => some { op := 0x2a3#10, h := h, imm := some imm }
  | .engst h d imm => some { op := 0x2a4#10, h := h, d := some d, imm := some imm }
  | .engineCommandComplete _ _ => none
  | .rtree h d a => some { op := 0x2a5#10, h := h, d := some d, a := some a }
  | .rsend h d a imm => some { op := 0x2a6#10, h := h, d := some d, a := some a, imm := some imm }
  | .rwait h d imm => some { op := 0x2a7#10, h := h, d := some d, imm := some imm }
  | .rabort h imm => some { op := 0x2a8#10, h := h, imm := some imm }
  | .treePartialArrival _ => none
  | .treeRackWordArrival _ => none
  | .treeTimeout _ _ _ => none
  | .treeResultDelivery _ => none
  | .treeAbortArrival _ => none
  | .coll h d a => some { op := 0x2a9#10, h := h, d := some d, a := some a }
  | .collw h d a => some { op := 0x2aa#10, h := h, d := some d, a := some a }
  | .collStepStart _ => none
  | .collStepArrival _ _ _ => none
  | .collMemberTimeout _ => none
  | .collComplete _ => none
  | .bdisp h d a => some { op := 0x2ab#10, h := h, d := some d, a := some a }
  | .twait h d a => some { op := 0x2ac#10, h := h, d := some d, a := some a }
  | .spawn h d a b => some { op := 0x2c0#10, h := h, d := some d, a := some a, b := some b }
  | .join h d a imm => some { op := 0x2c1#10, h := h, d := some d, a := some a, imm := some imm }
  | .taskid h d imm => some { op := 0x2c2#10, h := h, d := some d, imm := some imm }
  | .bar h d a imm => some { op := 0x2c3#10, h := h, d := some d, a := some a, imm := some imm }
  | .arrive h d a imm => some { op := 0x2c4#10, h := h, d := some d, a := some a, imm := some imm }
  | .waitb h a imm => some { op := 0x2c5#10, h := h, a := some a, imm := some imm }
  | .launch h d a => some { op := 0x2c6#10, h := h, d := some d, a := some a }
  | .taskQueueStart _ => none
  | .dlogh h => some { op := 0x2d0#10, h := h }
  | .tinv h a imm => some { op := 0x2d1#10, h := h, a := some a, imm := some imm }
  | .trap h imm => some { op := 0x2e0#10, h := h, imm := some imm }
  | .eret h => some { op := 0x2e1#10, h := h }
  | .csrr h d imm => some { op := 0x2e2#10, h := h, d := some d, imm := some imm }
  | .csrw h d a imm => some { op := 0x2e3#10, h := h, d := some d, a := some a, imm := some imm }
  | .csrs h d a imm => some { op := 0x2e4#10, h := h, d := some d, a := some a, imm := some imm }
  | .csrc h d a imm => some { op := 0x2e5#10, h := h, d := some d, a := some a, imm := some imm }
  | .brk h imm => some { op := 0x2e6#10, h := h, imm := some imm }
  | .sysc h imm => some { op := 0x2e7#10, h := h, imm := some imm }
  | .idle h => some { op := 0x2e8#10, h := h }
  | .resultLanding _ _ _ => none
  | .trapEntry => none
  | .accessArrival _ => none
  | .ackArrival _ => none
  | .accessResend _ => none
  | .streamWindowRetire => none
  | .streamAdmitRetry _ => none
  | .releaseClearance _ => none
  | .releaseCancel _ => none
  | .remoteRetest _ => none
  | .replicaInvalidateAck _ _ => none
  | .edgeTranslationWalk _ => none
  | .storageFault _ => none
  | .pageFillComplete _ _ => none
  | .nvmeCommandFail _ _ _ => none
  | .frameEviction _ _ => none
  | .dlogMerge _ => none
  | .detWindowClose _ => none
  | .windowDrowsy _ _ => none
  | .lqTailWrite => none
  | .lqHeadWrite => none
  | .lqEnable => none
  | .lqDisable => none
  | .lqCrdWrite => none
  | .descriptorRead _ => none
  | .bunchPlace _ => none
  | .roundEnd _ => none
  | .bunchRetire _ _ => none
  | .launchComplete _ => none
  | .deadlockReport _ => none
  | .preCtlPreempt => none
  | .preCtlRelease => none
  | .preCtlAbort => none
  | .preCtlArmWatchdog => none
  | .watchdogExpiry _ _ _ => none
  | .bunchHalt _ => none
  | .orphanTimeout _ _ => none
  | .bunchSave _ _ => none
  | .tnRdWrite => none
  | .tnBaseWrite => none
  | .bunchSwapIn _ _ => none
  | .coreFailure _ => none
  | .meshLinkFailure _ _ => none
  | .grafting _ _ => none
  | .powerUp => none
  | .reset => none
  | .hostLinkTrained _ => none
  | .edgeMemoryTrained _ _ => none
  | .cellarDrivesReady _ _ => none
  | .linkPortLocked _ => none
  | .linkPortDown _ => none
  | .linkFlitRetry => none
  | .linkRekey _ => none
  | .timeSync => none
  | .rslice => none
  | .wslice => none
  | .rcsr => none
  | .wcsr => none
  | .rmem => none
  | .wmem => none
  | .halt => none
  | .haltb => none
  | .resume => none
  | .step => none
  | .setbp => none
  | .rsave => none
  | .wsave => none
  | .brkmode => none
  | .dbgAuthNewchal => none
  | .dbgAuthVerify => none
  | .authLockoutExpiry => none
  | .dbgSecWrite => none
  | .dbgLvlWrite => none
  | .attestationGo => none
  | .attestationReportDone => none
  | .rtvgo => none
  | .standbyRequest => none
  | .standbyExit => none
  | .accessTableWrite => none
  | .tracePcSample => none
  | .traceFrameClose _ => none
  | .traceFrameTimeout _ _ => none
  | .trCtlWrite => none
  | .trRdWrite => none
  | .registerWrite => none
  | .waferTimeReachesTarget _ _ => none
  | .softError _ _ => none
  | .pageWriteBackComplete _ _ _ => none
  | .wordNotAnInstruction => none
-- end of table view

namespace Forms

/-- The opcode lies in the 34 families (R164). -/
def isFamily (n : Nat) : Bool := 0x080 ≤ n && n ≤ 0x18F

/-- Index of a family opcode in Tables 9.5 and 9.6. -/
def family (n : Nat) : Nat := (n - 0x080) / 8

/-- Table 11.8, column Types: whether the family lists its type. -/
def typeListed (n : Nat) : Bool :=
  if isFamily n then
    let ty := n % 8
    match family n with
    | 3 | 4 | 5 | 25 | 26 | 27 | 28 | 29 | 33 => 4 ≤ ty && ty ≤ 6
    | 10 | 11 | 12 | 18 => ty ≤ 3
    | 30 | 31 | 32 => ty == 6
    | _ => ty ≤ 6
  else true

/-- Latency class of an opcode: Tables 9.3, 11.3, 11.8, 15.1 and 17.1, R182 and R222. -/
def latency (n : Nat) : Latency :=
  if isFamily n then
    match family n with
    | 2 | 3 | 4 | 5 | 18 | 19 | 20 | 24 => .f6
    | 21 | 22 | 23 | 28 | 29 | 30 | 32 | 33 => .f8
    | 26 | 27 => .t
    | 31 => .f1
    | _ => .f4
  else match n with
    | 0x004 | 0x005 | 0x006 => .f3
    | 0x007 | 0x008 | 0x009 | 0x00A => .t
    | 0x206 | 0x208 | 0x209 => .f8
    | 0x200 | 0x201 | 0x202 | 0x203 | 0x204 | 0x205 | 0x207 | 0x20A | 0x20B | 0x20C => .f6
    | 0x260 | 0x262 | 0x263 | 0x264 | 0x265 | 0x266 | 0x267 | 0x268 | 0x269 | 0x26A | 0x26B | 0x26C
    | 0x270 | 0x272 => .t
    | 0x2A0 | 0x2A1 | 0x2A2 | 0x2A3 | 0x2A5 | 0x2A7 | 0x2AA | 0x2AB | 0x2D0 | 0x2D1 => .t
    | _ => .f1

/-- The class value L of a fixed class (Table 9.3); class T has none and reads 0 here. -/
def Latency.value : Latency → Nat
  | .f1 => 1 | .f3 => 3 | .f4 => 4 | .f6 => 6 | .f8 => 8 | .t => 0

/-- Bits [hi:lo] of an immediate, as a number. -/
def immBits (imm : BitVec 15) (lo len : Nat) : Nat := imm.toNat / 2 ^ lo % 2 ^ len

/-- VCVT only: the destination is an integer type (R215). -/
def cvtDstInt (n : Nat) (imm : BitVec 15) : Bool := n % 8 ≤ 3 && immBits imm 4 1 == 0

/-- VCVT only: the source code names an integer type (Table 11.9). -/
def cvtSrcInt (imm : BitVec 15) : Bool :=
  let c := immBits imm 0 4
  c ≤ 3 || (8 ≤ c && c ≤ 11)

/-- Whether X = 1 has a meaning (R150, R174, R203, Table 13.1, R241, Table 15.1, R272). -/
def xAdmitted (n : Nat) (imm : BitVec 15) : Bool :=
  if n ≤ 0x030 then true
  else if isFamily n then if family n == 24 then cvtDstInt n imm else n % 8 ≤ 3
  else match n with
    | 0x200 | 0x20B | 0x20C | 0x242 | 0x248 | 0x26D | 0x271 | 0x272 | 0x290 | 0x291 => true
    | _ => false

/-- Whether SAT = 1 is admitted (R81, Tables 11.3 and 11.8, R182, R184, R215, Table 15.1). -/
def satAdmitted (n : Nat) (imm : BitVec 15) : Bool :=
  if isFamily n then
    match family n with
    | 0 | 1 | 2 | 8 | 9 | 10 | 21 => n % 8 ≤ 3
    | 24 => cvtDstInt n imm && cvtSrcInt imm
    | _ => false
  else match n with
    | 0x001 | 0x002 | 0x003 | 0x004 | 0x007 | 0x012 | 0x013 | 0x021 | 0x022 | 0x26D => true
    | _ => false

/-- Whether the instruction rounds by the mode, so that RND = 0b11 traps (R86, R203, R222, R241). -/
def roundsByMode (n : Nat) (imm : BitVec 15) : Bool :=
  if isFamily n then
    match family n with
    | 0 | 1 | 2 | 3 | 4 | 5 | 21 | 26 | 27 | 28 | 29 | 33 => 4 ≤ n % 8
    | 24 => !(cvtDstInt n imm && cvtSrcInt imm)
    | _ => false
  else match n with
    | 0x200 | 0x201 | 0x202 | 0x203 | 0x204 | 0x205 | 0x206 | 0x209 | 0x248 => true
    | _ => false

/-- Whether the value of RND or ORD is admitted (R86, R255, R264). -/
def rndAdmitted (n : Nat) (rnd : BitVec 2) (imm : BitVec 15) : Bool :=
  if roundsByMode n imm then rnd != 3#2
  else match n with
    | 0x260 | 0x262 | 0x263 | 0x264 | 0x265 | 0x266 | 0x267 | 0x268 | 0x269 | 0x26A | 0x26B | 0x26C
    | 0x26D | 0x26E | 0x26F | 0x272 => rnd != 2#2
    | 0x270 => rnd == 0#2 || rnd == 1#2
    | _ => true

/-- Whether the immediate has only assigned bits and values (R197, R199, R215, R217, R218, R241, R250,
R264, R270, R283, R293, R310, R311, R315, R317). -/
def immAdmitted (n : Nat) (imm : BitVec 15) : Bool :=
  if isFamily n then
    match family n with
    | 24 => immBits imm 5 10 == 0 && immBits imm 0 4 < 12 && (immBits imm 4 1 == 0 || n % 8 == 0)
    | 30 => immBits imm 2 13 == 0
    | 31 => immBits imm 10 5 == 0
    | _ => true
  else match n with
    | 0x044 => imm != 0#15
    | 0x045 => immBits imm 3 12 == 0
    | 0x243 | 0x244 | 0x245 | 0x246 | 0x247 | 0x249 | 0x24A => immBits imm 2 13 == 0
    | 0x248 => immBits imm 4 11 == 0
    | 0x270 => immBits imm 7 8 == 0 && immBits imm 3 2 != 0 && immBits imm 5 2 != 0
    | 0x285 | 0x2A0 | 0x2A1 | 0x2A2 => immBits imm 2 13 == 0
    | 0x2A3 => immBits imm 4 11 == 0 && imm != 0#15
    | 0x2A4 | 0x2A6 | 0x2A7 | 0x2A8 => immBits imm 3 12 == 0
    | 0x2C1 => immBits imm 11 4 == 0 && immBits imm 8 3 < 6
    | 0x2C2 => imm.toNat ≤ 4
    | 0x2C3 | 0x2C4 | 0x2C5 => immBits imm 4 11 == 0
    | 0x2D1 => imm.toNat ≤ 2
    | 0x2E2 | 0x2E3 | 0x2E4 | 0x2E5 => immBits imm 12 3 == 0
    | _ => true

/-- The checks whose failure is ILLEGAL_RSVD, on the fields an instruction uses (R150, R166). -/
def rsvdOk (v : View) : Bool :=
  let n := v.op.toNat
  let imm := v.imm.getD 0#15
  (v.h.atag == 0#3 || latency n == .t)
    && (!v.h.x || xAdmitted n imm)
    && (!v.h.sat || satAdmitted n imm)
    && rndAdmitted n v.h.rnd imm
    && immAdmitted n imm

/-- The width code, flag index and special operand of a field are those of Tables 3.1 to 3.3 (R56, R58). -/
def opndOk : Opnd → Bool
  | .slice wc _ => wc.toNat ≤ 9
  | .port q => q.toNat ≤ 9
  | _ => true

/-- The operand is one that Table 3.3 admits as a destination (R58). -/
def destOk : Opnd → Bool
  | .slice _ _ | .flag _ | .zero | .port _ => true
  | _ => false

/-- D is only read in ST, REDI, REDF, REDB and SPILL (Table 15.1). -/
def dIsSource (n : Nat) : Bool :=
  match n with
  | 0x261 | 0x26D | 0x26E | 0x26F | 0x271 => true
  | _ => false

/-- The checks whose failure is ILLEGAL_OPERAND at decode (R56, R58, R76, R154). -/
def operandsOk (v : View) : Bool :=
  let n := v.op.toNat
  (v.d.all fun o => opndOk o && (dIsSource n || destOk o))
    && v.a.all opndOk
    && (v.b.all fun o => opndOk o && (n != 0x200 || destOk o))
    && (match v.h.grd with
        | .port dir _ _ => dir.toNat ≤ 4
        | _ => true)

end Forms

end Sys2Proof
end

