-- ==== Sys2Proof/WellFormed.lean ====
section
/-! DEFINITION. The well-formed instructions: those that a word of the instruction stream can hold. -/

namespace Sys2Proof

/-- MSTC and MSTC.Q share opcode 0x248 and differ in X (R241). -/
def Instr.xFits : Instr → Bool
  | .mstc h _ _ => !h.x
  | .mstcQ h _ _ => h.x
  | _ => true

/-- A well-formed instruction passes every check of R154 that needs no state. An event is no word and is
well formed as it stands. -/
def Instr.wellFormed (i : Instr) : Bool :=
  match i.view with
  | none => true
  | some v => Forms.typeListed v.op.toNat && Forms.rsvdOk v && Forms.operandsOk v && i.xFits

end Sys2Proof
end

