-- ==== Sys2Proof/Decode.lean ====
section
/-! DEFINITION. Reading an instruction from the ten bytes of its word, and the encoder that writes it (chapter 9). -/

namespace Sys2Proof

/-- Why a word is not an instruction (Table 9.7). -/
inductive BadWord where
  /-- OP = 0x3FF. -/
  | illegalFill
  /-- An unassigned opcode, or a type that the family does not list. -/
  | illegalOp
  /-- A field that must be 0, or a value of SAT, RND, ORD, ATAG, X or the immediate that is not admitted. -/
  | illegalRsvd
  /-- A width code of 11 to 14, a flag above f63, an illegal special operand or a port-guard direction of 5 to 7. -/
  | illegalOperand
deriving DecidableEq, Repr

/-- The fields of Table 9.1 as they stand in the word. -/
structure Raw where
  x    : BitVec 1
  sat  : BitVec 1
  rnd  : BitVec 2
  wait : BitVec 7
  atag : BitVec 3
  dist : BitVec 3
  b    : BitVec 15
  a    : BitVec 15
  d    : BitVec 15
  grd  : BitVec 8
  op   : BitVec 10
deriving DecidableEq, Repr

/-- The fields of a word (Table 9.1). -/
def rawOfWord (w : Word) : Raw where
  x    := w.extractLsb' 79 1
  sat  := w.extractLsb' 78 1
  rnd  := w.extractLsb' 76 2
  wait := w.extractLsb' 69 7
  atag := w.extractLsb' 66 3
  dist := w.extractLsb' 63 3
  b    := w.extractLsb' 48 15
  a    := w.extractLsb' 33 15
  d    := w.extractLsb' 18 15
  grd  := w.extractLsb' 10 8
  op   := w.extractLsb' 0 10

/-- The word of given fields (Table 9.1). -/
def wordOfRaw (r : Raw) : Word :=
  r.x ++ (r.sat ++ (r.rnd ++ (r.wait ++ (r.atag ++ (r.dist ++ (r.b ++ (r.a ++ (r.d ++ (r.grd ++ r.op)))))))))

/-- The operand a field names, R55, R56 and Table 3.3; `none` where it names none. -/
def opndOfField (f : BitVec 15) : Option Opnd :=
  let wc := f.extractLsb' 11 4
  let st := f.extractLsb' 0 11
  if wc.toNat ≤ 9 then some (.slice wc st)
  else if wc.toNat = 10 then
    if st.toNat ≤ 63 then some (.flag (st.extractLsb' 0 6)) else none
  else if wc.toNat = 15 then
    if st.toNat = 0 then some .zero
    else if st.toNat ≤ 0x010 then some (.kbank (BitVec.ofNat 4 (st.toNat - 1)))
    else if 0x020 ≤ st.toNat ∧ st.toNat ≤ 0x029 then some (.port (BitVec.ofNat 4 (st.toNat - 0x020)))
    else if st.toNat = 0x040 then some .tid
    else if st.toNat = 0x041 then some .xy
    else if st.toNat = 0x042 then some .bunch
    else if st.toNat = 0x043 then some .stage
    else if st.toNat = 0x044 then some .time
    else none
  else none

/-- The field that names an operand (R55, Table 3.3). -/
def fieldOfOpnd : Opnd → BitVec 15
  | .slice wc st => wc ++ st
  | .flag k => 10#4 ++ (0#5 ++ k)
  | .zero => 15#4 ++ 0x000#11
  | .kbank k => 15#4 ++ BitVec.ofNat 11 (k.toNat + 1)
  | .port q => 15#4 ++ BitVec.ofNat 11 (q.toNat + 0x020)
  | .tid => 15#4 ++ 0x040#11
  | .xy => 15#4 ++ 0x041#11
  | .bunch => 15#4 ++ 0x042#11
  | .stage => 15#4 ++ 0x043#11
  | .time => 15#4 ++ 0x044#11

/-- The guard that GRD gives (R153, R76). -/
def guardOfField (g : BitVec 8) : Guard :=
  match (g.extractLsb' 6 2).toNat with
  | 0 => .none
  | 1 => .flag (g.extractLsb' 0 6) true
  | 2 => .flag (g.extractLsb' 0 6) false
  | _ => .port (g.extractLsb' 3 3) (g.extractLsb' 2 1 == 1#1) (g.extractLsb' 0 2)

/-- The GRD field of a guard (R153, R76). -/
def fieldOfGuard : Guard → BitVec 8
  | .none => 0#8
  | .flag k true => 1#2 ++ k
  | .flag k false => 2#2 ++ k
  | .port dir ch n => 3#2 ++ (dir ++ (BitVec.ofBool ch ++ n))

/-- The header of a word's fields. -/
def hdrOfRaw (r : Raw) : Hdr :=
  ⟨r.x == 1#1, r.sat == 1#1, r.rnd, r.wait, r.atag, r.dist, guardOfField r.grd⟩

/-- Every field of a word as each format reads it. An operand field that names no operand reads as ZERO
here; `operandsNamed` refuses it. -/
structure Fields where
  h   : Hdr
  d   : Opnd
  a   : Opnd
  b   : Opnd
  imm : BitVec 15
  off : BitVec 32
deriving DecidableEq, Repr

/-- The fields of a word, each read in every way a format may read it (R149). -/
def fieldsOfRaw (r : Raw) : Fields where
  h   := hdrOfRaw r
  d   := (opndOfField r.d).getD .zero
  a   := (opndOfField r.a).getD .zero
  b   := (opndOfField r.b).getD .zero
  imm := r.b
  off := r.b.extractLsb' 0 2 ++ (r.a ++ r.d)

/-- The family instruction of index `k` and type `t` (Tables 9.5 and 9.6). -/
def buildFamily (k : Nat) (t : Elt) (f : Fields) : Option Instr :=
  match k with
-- table families, one row a constructor
  | 0 => some (.vadd f.h t f.d f.a f.b)
  | 1 => some (.vsub f.h t f.d f.a f.b)
  | 2 => some (.vmul f.h t f.d f.a f.b)
  | 3 => some (.vfma f.h t f.d f.a f.b)
  | 4 => some (.vfms f.h t f.d f.a f.b)
  | 5 => some (.vfnma f.h t f.d f.a f.b)
  | 6 => some (.vmin f.h t f.d f.a f.b)
  | 7 => some (.vmax f.h t f.d f.a f.b)
  | 8 => some (.vabs f.h t f.d f.a)
  | 9 => some (.vneg f.h t f.d f.a)
  | 10 => some (.vshl f.h t f.d f.a f.b)
  | 11 => some (.vshr f.h t f.d f.a f.b)
  | 12 => some (.vsar f.h t f.d f.a f.b)
  | 13 => some (.vcmpeq f.h t f.d f.a f.b)
  | 14 => some (.vcmpne f.h t f.d f.a f.b)
  | 15 => some (.vcmplt f.h t f.d f.a f.b)
  | 16 => some (.vcmple f.h t f.d f.a f.b)
  | 17 => some (.vsel f.h t f.d f.a f.b)
  | 18 => some (.vshuf f.h t f.d f.a f.b)
  | 19 => some (.vbcast f.h t f.d f.a)
  | 20 => some (.vslide f.h t f.d f.a f.b)
  | 21 => some (.vhsum f.h t f.d f.a)
  | 22 => some (.vhmax f.h t f.d f.a)
  | 23 => some (.vhmin f.h t f.d f.a)
  | 24 => some (.vcvt f.h t f.d f.a f.imm)
  | 25 => some (.vclass f.h t f.d f.a)
  | 26 => some (.fdiv f.h t f.d f.a f.b)
  | 27 => some (.fsqrt f.h t f.d f.a)
  | 28 => some (.frcp f.h t f.d f.a)
  | 29 => some (.frsq f.h t f.d f.a)
  | 30 => some (.flut f.h t f.d f.a f.imm)
  | 31 => some (.lutld f.h t f.a f.imm)
  | 32 => some (.fexps f.h t f.d f.a)
  | 33 => some (.fldx f.h t f.d f.a f.b)
  | _ => none
-- end of table families

/-- The instruction of an opcode outside the families (Table 9.4). -/
def buildPlain (n : Nat) (f : Fields) : Option Instr :=
  match n with
-- table build, one row a constructor
  | 0x000 => some .nop
  | 0x001 => some (.add f.h f.d f.a f.b)
  | 0x002 => some (.addi f.h f.d f.a f.imm)
  | 0x003 => some (.sub f.h f.d f.a f.b)
  | 0x004 => some (.mul f.h f.d f.a f.b)
  | 0x005 => some (.mulh f.h f.d f.a f.b)
  | 0x006 => some (.mulhn f.h f.d f.a f.b)
  | 0x007 => some (.div f.h f.d f.a f.b)
  | 0x008 => some (.divn f.h f.d f.a f.b)
  | 0x009 => some (.rem f.h f.d f.a f.b)
  | 0x00a => some (.remn f.h f.d f.a f.b)
  | 0x00b => some (.and f.h f.d f.a f.b)
  | 0x00c => some (.andi f.h f.d f.a f.imm)
  | 0x00d => some (.or f.h f.d f.a f.b)
  | 0x00e => some (.ori f.h f.d f.a f.imm)
  | 0x00f => some (.xor f.h f.d f.a f.b)
  | 0x010 => some (.xori f.h f.d f.a f.imm)
  | 0x011 => some (.andn f.h f.d f.a f.b)
  | 0x012 => some (.shl f.h f.d f.a f.b)
  | 0x013 => some (.shli f.h f.d f.a f.imm)
  | 0x014 => some (.shr f.h f.d f.a f.b)
  | 0x015 => some (.shri f.h f.d f.a f.imm)
  | 0x016 => some (.sar f.h f.d f.a f.b)
  | 0x017 => some (.sari f.h f.d f.a f.imm)
  | 0x018 => some (.rol f.h f.d f.a f.b)
  | 0x019 => some (.roli f.h f.d f.a f.imm)
  | 0x01a => some (.clz f.h f.d f.a)
  | 0x01b => some (.ctz f.h f.d f.a)
  | 0x01c => some (.popc f.h f.d f.a)
  | 0x01d => some (.min f.h f.d f.a f.b)
  | 0x01e => some (.max f.h f.d f.a f.b)
  | 0x01f => some (.minn f.h f.d f.a f.b)
  | 0x020 => some (.maxn f.h f.d f.a f.b)
  | 0x021 => some (.abs f.h f.d f.a)
  | 0x022 => some (.neg f.h f.d f.a)
  | 0x023 => some (.sel f.h f.d f.a f.b)
  | 0x024 => some (.mov f.h f.d f.a)
  | 0x025 => some (.movi f.h f.d f.imm)
  | 0x026 => some (.movh f.h f.d f.a f.imm)
  | 0x027 => some (.bfx f.h f.d f.a f.b)
  | 0x028 => some (.bfi f.h f.d f.a f.b)
  | 0x029 => some (.brev f.h f.d f.a)
  | 0x02a => some (.bswap f.h f.d f.a)
  | 0x02b => some (.cmpeq f.h f.d f.a f.b)
  | 0x02c => some (.cmpne f.h f.d f.a f.b)
  | 0x02d => some (.cmplt f.h f.d f.a f.b)
  | 0x02e => some (.cmpltn f.h f.d f.a f.b)
  | 0x02f => some (.cmple f.h f.d f.a f.b)
  | 0x030 => some (.cmplen f.h f.d f.a f.b)
  | 0x040 => some (.br f.h f.off)
  | 0x041 => some (.jmp f.h f.a)
  | 0x042 => some (.call f.h f.off)
  | 0x043 => some (.callr f.h f.d f.a)
  | 0x044 => some (.loop f.h f.a f.imm)
  | 0x045 => some (.rep f.h f.a f.imm)
  | 0x046 => some (.yield f.h)
  | 0x047 => some (.exit f.h)
  | 0x200 => some (.bpack f.h f.d f.a f.b)
  | 0x201 => some (.bunpk f.h f.d f.a)
  | 0x202 => some (.balign f.h f.d f.a f.b)
  | 0x203 => some (.badd f.h f.d f.a f.b)
  | 0x204 => some (.baddq f.h f.d f.a f.b)
  | 0x205 => some (.bscale f.h f.d f.a f.b)
  | 0x206 => some (.bnorm f.h f.d f.a)
  | 0x207 => some (.bmaxe f.h f.d f.a)
  | 0x208 => some (.bmac f.h f.d f.a f.b)
  | 0x209 => some (.bhsum f.h f.d f.a)
  | 0x20a => some (.berr f.h f.d f.a f.b)
  | 0x20b => some (.bcmpz f.h f.d f.a)
  | 0x20c => some (.bhdr f.h f.d f.a)
  | 0x240 => some (.mlease f.h)
  | 0x241 => some (.mrels f.h)
  | 0x242 => some (.mcfg f.h f.a)
  | 0x243 => some (.mzero f.h f.imm)
  | 0x244 => some (.mlda f.h f.a f.imm)
  | 0x245 => some (.mldb f.h f.a f.imm)
  | 0x246 => some (.mgatha f.h f.a f.imm)
  | 0x247 => some (.mmac f.h f.imm)
  | 0x248 => some (if f.h.x then .mstcQ f.h f.a f.imm else .mstc f.h f.a f.imm)
  | 0x249 => some (.msave f.h f.a f.imm)
  | 0x24a => some (.mrstr f.h f.a f.imm)
  | 0x24b => some (.mstat f.h f.d)
  | 0x260 => some (.ld f.h f.d f.a f.imm)
  | 0x261 => some (.st f.h f.d f.a f.imm)
  | 0x262 => some (.aadd f.h f.d f.a f.imm)
  | 0x263 => some (.amin f.h f.d f.a f.imm)
  | 0x264 => some (.amax f.h f.d f.a f.imm)
  | 0x265 => some (.aminn f.h f.d f.a f.imm)
  | 0x266 => some (.amaxn f.h f.d f.a f.imm)
  | 0x267 => some (.aand f.h f.d f.a f.imm)
  | 0x268 => some (.aor f.h f.d f.a f.imm)
  | 0x269 => some (.axor f.h f.d f.a f.imm)
  | 0x26a => some (.aswap f.h f.d f.a f.imm)
  | 0x26b => some (.acas f.h f.d f.a f.imm)
  | 0x26c => some (.afadd f.h f.d f.a f.imm)
  | 0x26d => some (.redi f.h f.d f.a f.imm)
  | 0x26e => some (.redf f.h f.d f.a f.imm)
  | 0x26f => some (.redb f.h f.d f.a f.imm)
  | 0x270 => some (.fence f.h f.imm)
  | 0x271 => some (.spill f.h f.d f.a f.imm)
  | 0x272 => some (.fill f.h f.d f.a f.imm)
  | 0x280 => some (.push f.h f.d f.a)
  | 0x281 => some (.pop f.h f.d f.a)
  | 0x282 => some (.peek f.h f.d f.a)
  | 0x283 => some (.pdrain f.h f.d f.a)
  | 0x284 => some (.pcnt f.h f.d f.a)
  | 0x285 => some (.pcfg f.h f.d f.a f.imm)
  | 0x290 => some (.send f.h f.d f.a)
  | 0x291 => some (.sendm f.h f.d f.a)
  | 0x292 => some (.reply f.h f.a)
  | 0x293 => some (.refuse f.h)
  | 0x294 => some (.hset f.h f.a)
  | 0x295 => some (.hexit f.h)
  | 0x296 => some (.mbxcfg f.h f.d f.a)
  | 0x297 => some (.waitev f.h f.d)
  | 0x298 => some (.pollev f.h f.d)
  | 0x2a0 => some (.cpy f.h f.d f.a f.imm)
  | 0x2a1 => some (.cpyr f.h f.d f.a f.imm)
  | 0x2a2 => some (.sortk f.h f.d f.a f.imm)
  | 0x2a3 => some (.qfence f.h f.imm)
  | 0x2a4 => some (.engst f.h f.d f.imm)
  | 0x2a5 => some (.rtree f.h f.d f.a)
  | 0x2a6 => some (.rsend f.h f.d f.a f.imm)
  | 0x2a7 => some (.rwait f.h f.d f.imm)
  | 0x2a8 => some (.rabort f.h f.imm)
  | 0x2a9 => some (.coll f.h f.d f.a)
  | 0x2aa => some (.collw f.h f.d f.a)
  | 0x2ab => some (.bdisp f.h f.d f.a)
  | 0x2ac => some (.twait f.h f.d f.a)
  | 0x2c0 => some (.spawn f.h f.d f.a f.b)
  | 0x2c1 => some (.join f.h f.d f.a f.imm)
  | 0x2c2 => some (.taskid f.h f.d f.imm)
  | 0x2c3 => some (.bar f.h f.d f.a f.imm)
  | 0x2c4 => some (.arrive f.h f.d f.a f.imm)
  | 0x2c5 => some (.waitb f.h f.a f.imm)
  | 0x2c6 => some (.launch f.h f.d f.a)
  | 0x2d0 => some (.dlogh f.h)
  | 0x2d1 => some (.tinv f.h f.a f.imm)
  | 0x2e0 => some (.trap f.h f.imm)
  | 0x2e1 => some (.eret f.h)
  | 0x2e2 => some (.csrr f.h f.d f.imm)
  | 0x2e3 => some (.csrw f.h f.d f.a f.imm)
  | 0x2e4 => some (.csrs f.h f.d f.a f.imm)
  | 0x2e5 => some (.csrc f.h f.d f.a f.imm)
  | 0x2e6 => some (.brk f.h f.imm)
  | 0x2e7 => some (.sysc f.h f.imm)
  | 0x2e8 => some (.idle f.h)
  | _ => none
-- end of table build

/-- The instruction an opcode names; `none` for an unassigned opcode and for type 7 (R164 to R166). -/
def build (n : Nat) (f : Fields) : Option Instr :=
  if Forms.isFamily n then
    match Elt.ofCode (n % 8) with
    | some t => buildFamily (Forms.family n) t f
    | none => none
  else buildPlain n f

/-- The parts of the word that the format leaves unused are 0 (R150, R153; R166 for NOP). -/
def unusedZero (r : Raw) (v : View) : Bool :=
  if v.off.isSome then r.b.extractLsb' 2 13 == 0#13 && guardZero
  else
    (v.d.isSome || r.d == 0#15) && (v.a.isSome || r.a == 0#15)
      && (v.b.isSome || v.imm.isSome || r.b == 0#15) && guardZero
      && (r.op != 0#10 || r == ⟨0#1, 0#1, 0#2, 0#7, 0#3, 0#3, 0#15, 0#15, 0#15, 0#8, 0#10⟩)
where
  /-- Guard kind 0b00 has an index of 0. -/
  guardZero : Bool := r.grd.extractLsb' 6 2 != 0#2 || r.grd == 0#8

/-- Each operand field the format uses names an operand (R56, R58). -/
def operandsNamed (r : Raw) (v : View) : Bool :=
  (v.d.isNone || (opndOfField r.d).isSome)
    && (v.a.isNone || (opndOfField r.a).isSome)
    && (v.b.isNone || (opndOfField r.b).isSome)

/-- The instruction in a word's fields, or the first failing check in the order of Table 9.7 (R154, R166). -/
def decodeRaw (r : Raw) : Except BadWord Instr :=
  if r.op = 0x3FF#10 then .error .illegalFill
  else
    match build r.op.toNat (fieldsOfRaw r) with
    | none => .error .illegalOp
    | some i =>
      match i.view with
      | none => .error .illegalOp
      | some v =>
        if !Forms.typeListed r.op.toNat then .error .illegalOp
        else if !(unusedZero r v && Forms.rsvdOk v) then .error .illegalRsvd
        else if !(operandsNamed r v && Forms.operandsOk v) then .error .illegalOperand
        else .ok i

/-- The instruction in a word (R147, R166). -/
def decodeWord (w : Word) : Except BadWord Instr := decodeRaw (rawOfWord w)

/-- The word in ten bytes, the lowest address first (R147, R3); bytes past the tenth are not read. -/
def wordOfBytes (bs : List Byte) : Word :=
  (bs.take 10).foldr (fun b acc => (acc <<< 8) ||| b.zeroExtend 80) 0#80

/-- The ten bytes of a word, the lowest address first (R147, R3). -/
def bytesOfWord (w : Word) : List Byte :=
  (List.range 10).map fun k => w.extractLsb' (8 * k) 8

/-- The instruction in the bytes at an address; fewer than ten bytes hold none. -/
def decodeBytes (bs : List Byte) : Except BadWord Instr :=
  if bs.length < 10 then .error .illegalOp else decodeWord (wordOfBytes bs)

/-- The fields of an instruction's word. -/
def rawOfView (v : View) : Raw where
  x    := BitVec.ofBool v.h.x
  sat  := BitVec.ofBool v.h.sat
  rnd  := v.h.rnd
  wait := v.h.wait
  atag := v.h.atag
  dist := v.h.dist
  b    := match v.off with
          | some o => 0#13 ++ o.extractLsb' 30 2
          | none => match v.imm with
            | some n => n
            | none => (v.b.map fieldOfOpnd).getD 0#15
  a    := match v.off with
          | some o => o.extractLsb' 15 15
          | none => (v.a.map fieldOfOpnd).getD 0#15
  d    := match v.off with
          | some o => o.extractLsb' 0 15
          | none => (v.d.map fieldOfOpnd).getD 0#15
  grd  := fieldOfGuard v.h.grd
  op   := v.op

/-- The word of an instruction (R147 to R153, Tables 9.4 to 9.6); an event has no word. -/
def encode (i : Instr) : Option Word := i.view.map fun v => wordOfRaw (rawOfView v)

/-- The bytes of an instruction as the code image holds them. -/
def encodeBytes (i : Instr) : Option (List Byte) := (encode i).map bytesOfWord

/-- The instruction that the decoder reads from a word whose bits are `w`, laid out in ten bytes. An
instruction is 80 bits, and bits above `nbits` are 0. -/
def decodeTableWord (nbits w : Nat) : Option Instr :=
  match decodeBytes (bytesOfWord (BitVec.ofNat 80 (w % 2 ^ nbits))) with
  | .ok i => some i
  | .error _ => none

end Sys2Proof
end

