-- ==== Sys2Proof/Machine/Bits.lean ====
section
/-! DEFINITION. The helpers of R7 and R176 on bit images, held as natural numbers; tables keyed by a number; bytes. -/

namespace Sys2Proof.Machine

/-- trunc(v, w) of R7: the low `w` bits. -/
def trunc (v w : Nat) : Nat := v % 2 ^ w

/-- trunc(v, w) of R7 for an exact integer. -/
def truncI (v : Int) (w : Nat) : Nat := (v % (2 ^ w : Nat)).toNat

/-- v[lo + len − 1 : lo] of R7. -/
def bits (v lo len : Nat) : Nat := (v >>> lo) % 2 ^ len

/-- Bit `k` of an image. -/
def bit (v k : Nat) : Bool := v.testBit k

/-- An image with bits [lo + len − 1 : lo] replaced by the low bits of `x`. -/
def setBits (v lo len x : Nat) : Nat :=
  v - (bits v lo len <<< lo) + (x % 2 ^ len) <<< lo

/-- sext(v, w) of R7 for an n-bit image with n ≤ w. -/
def sext (v n w : Nat) : Nat :=
  if 0 < n ∧ v.testBit (n - 1) then v + (2 ^ w - 2 ^ n) else v

/-- val(v, w, s) of R176: `signed` reads two's complement. -/
def val (v w : Nat) (signed : Bool) : Int :=
  if signed ∧ 0 < w ∧ v.testBit (w - 1) then (v : Int) - (2 ^ w : Nat) else (v : Int)

/-- lo(w, s) of R176. -/
def loVal (w : Nat) (signed : Bool) : Int := if signed then -((2 ^ (w - 1) : Nat) : Int) else 0

/-- hi(w, s) of R176. -/
def hiVal (w : Nat) (signed : Bool) : Int :=
  if signed then ((2 ^ (w - 1) : Nat) : Int) - 1 else ((2 ^ w : Nat) : Int) - 1

/-- ceil(a / b). -/
def ceilDiv (a b : Nat) : Nat := (a + b - 1) / b

/-- 0 or 1. -/
def b2n (b : Bool) : Nat := if b then 1 else 0

/-- floor(log2 v) + 1, and 0 for 0. -/
def bitLen (v : Nat) : Nat := if v = 0 then 0 else Nat.log2 v + 1

/-- The greatest r with r × r ≤ n, found bit by bit from bit `k` − 1 down. -/
def isqrtFrom (n : Nat) : Nat → Nat → Nat
  | 0, r => r
  | k + 1, r =>
    let r' := r + 2 ^ k
    isqrtFrom n k (if r' * r' ≤ n then r' else r)

/-- floor(√n). -/
def isqrt (n : Nat) : Nat := isqrtFrom n (bitLen n / 2 + 1) 0

/-- The number of one bits among the low `n` bits. -/
def popCount (v : Nat) : Nat → Nat
  | 0 => 0
  | n + 1 => b2n (v.testBit n) + popCount v n

/-- The indices below `n` whose bit is set, rising. -/
def bitList (v n : Nat) : List Nat := (List.range n).filter fun k => v.testBit k

/-- The values of a list laid out `w` bits each, the first at bit 0 (R4). -/
def joinLanes (w : Nat) : List Nat → Nat
  | [] => 0
  | x :: xs => x % 2 ^ w + (joinLanes w xs) <<< w

/-- The `n` lanes of width `w` of an image (R4). -/
def lanes (v w n : Nat) : List Nat := (List.range n).map fun k => bits v (w * k) w

/-- The low n bytes of an image, the lowest first (R3). -/
def toBytes (v n : Nat) : List Byte := (List.range n).map fun k => BitVec.ofNat 8 (v >>> (8 * k))

/-- The number whose bytes, the lowest first, are given (R3). -/
def ofBytes : List Byte → Nat
  | [] => 0
  | b :: bs => b.toNat + 256 * ofBytes bs

/-- rotl64 of R7. -/
def rotl64 (v k : Nat) : Nat :=
  let m := k % 64
  trunc (v <<< m) 64 ||| ((trunc v 64) >>> (64 - m))

/-- Insertion into a list sorted by a key, after the entries of an equal key. -/
def insertBy {α : Type} (key : α → Nat) (x : α) : List α → List α
  | [] => [x]
  | y :: ys => if key x < key y then x :: y :: ys else y :: insertBy key x ys

/-- A stable sort by a key, by insertion. -/
def sortBy {α : Type} (key : α → Nat) : List α → List α
  | [] => []
  | x :: xs => insertFront key x (sortBy key xs)
where
  /-- Insertion before the entries of an equal key. -/
  insertFront (key : α → Nat) (x : α) : List α → List α
    | [] => [x]
    | y :: ys => if key x ≤ key y then x :: y :: ys else y :: insertFront key x ys

namespace Tbl

/-- The value at a key, if the table has one. -/
def find? {α : Type} (t : Table α) (k : Nat) : Option α :=
  match t with
  | [] => none
  | (j, a) :: r => if j = k then some a else if k < j then none else find? r k

/-- The value at a key, or a default. -/
def get {α : Type} (t : Table α) (k : Nat) (dflt : α) : α := (find? t k).getD dflt

/-- The table with a value at a key; keys stay strictly rising. -/
def set {α : Type} (t : Table α) (k : Nat) (a : α) : Table α :=
  match t with
  | [] => [(k, a)]
  | (j, b) :: r => if j = k then (k, a) :: r else if k < j then (k, a) :: (j, b) :: r else (j, b) :: set r k a

/-- The table without a key. -/
def erase {α : Type} (t : Table α) (k : Nat) : Table α := t.filter fun p => p.1 ≠ k

/-- The table with a value at a key changed, if it is there. -/
def modify {α : Type} (t : Table α) (k : Nat) (f : α → α) : Table α :=
  t.map fun p => if p.1 = k then (p.1, f p.2) else p

/-- The keys. -/
def keys {α : Type} (t : Table α) : List Nat := t.map Prod.fst

/-- Keys strictly rising. -/
def rising {α : Type} : Table α → Bool
  | (a, _) :: (b, y) :: r => decide (a < b) && rising ((b, y) :: r)
  | _ => true

end Tbl

end Sys2Proof.Machine
end

