-- ==== Sys2Proof/Machine/Fp.lean ====
section
/-! DEFINITION. Number formats, rounding and IEEE 754 arithmetic (R82 to R89, R101, R102, R216): exact values, then one rounding. -/

namespace Sys2Proof.Machine

/-- The rounding modes of Table 5.3. -/
inductive Mode where
  | rne | rtz | rup | rdn
deriving DecidableEq, Repr

/-- A floating-point format (Table 5.2): exponent and fraction widths; `f8` marks F8, which has no infinity. -/
structure Fmt where
  ew : Nat
  fw : Nat
  f8 : Bool
deriving DecidableEq, Repr

/-- A value before rounding: a NaN (signalling or not), an infinity, or (−1)^neg × m × 2^e. -/
inductive FVal where
  | nan (sig : Bool)
  | inf (neg : Bool)
  | fin (neg : Bool) (m : Nat) (e : Int)
deriving DecidableEq, Repr

namespace Flag
/-- Bits of `fflags` (Table 5.4). -/
def nx : Nat := 1
/-- Underflow. -/
def uf : Nat := 2
/-- Overflow. -/
def of : Nat := 4
/-- Division by zero. -/
def dz : Nat := 8
/-- Invalid operation. -/
def nv : Nat := 16
/-- An integer result was clamped. -/
def sat : Nat := 32
/-- A block element saturated. -/
def ovf : Nat := 64
/-- A BX4 marker was read as zero. -/
def malf : Nat := 128
/-- A BXA fit rounded. -/
def ren : Nat := 256
end Flag

namespace Fp

def f32 : Fmt := ⟨8, 23, false⟩
def f16 : Fmt := ⟨5, 10, false⟩
def bf16 : Fmt := ⟨8, 7, false⟩
def f8 : Fmt := ⟨4, 3, true⟩

/-- Width of a format in bits. -/
def width (f : Fmt) : Nat := 1 + f.ew + f.fw

/-- Exponent bias (Table 5.2). -/
def bias (f : Fmt) : Nat := 2 ^ (f.ew - 1) - 1

/-- The canonical NaN (Table 5.2). -/
def canonNaN (f : Fmt) : Nat :=
  if f.f8 then 0x7F else ((2 ^ f.ew - 1) <<< f.fw) + 2 ^ (f.fw - 1)

/-- The sign bit of a format. -/
def signBit (f : Fmt) (neg : Bool) : Nat := if neg then 2 ^ (f.ew + f.fw) else 0

/-- The exponent of the least subnormal unit: values are multiples of 2^minExp. -/
def minExp (f : Fmt) : Int := 1 - (bias f : Int) - (f.fw : Int)

/-- The value of a code (R82, R84). With `ftz` a subnormal reads as a zero of its sign (R85); F8 is never flushed. -/
def decode (f : Fmt) (ftz : Bool) (v : Nat) : FVal :=
  let neg := bit v (f.ew + f.fw)
  let e := bits v f.fw f.ew
  let fr := bits v 0 f.fw
  if f.f8 then
    if e = 15 ∧ fr = 7 then .nan false
    else if e = 0 then .fin neg fr (minExp f)
    else .fin neg (2 ^ f.fw + fr) (minExp f + (e : Int) - 1)
  else if e = 2 ^ f.ew - 1 then
    if fr = 0 then .inf neg else .nan (!bit v (f.fw - 1))
  else if e = 0 then .fin neg (if ftz then 0 else fr) (minExp f)
  else .fin neg (2 ^ f.fw + fr) (minExp f + (e : Int) - 1)

/-- round_grid of R87 on a magnitude m × 2^k with the sign `neg`: the integer nearest in the mode's direction. -/
def roundMag (mode : Mode) (neg : Bool) (m : Nat) (k : Int) : Nat :=
  if 0 ≤ k then m <<< k.toNat
  else
    let d := (-k).toNat
    let fl := m >>> d
    let r := m % 2 ^ d
    let up :=
      if r = 0 then false
      else match mode with
        | .rtz => false
        | .rup => !neg
        | .rdn => neg
        | .rne => 2 * r > 2 ^ d || (2 * r == 2 ^ d && fl % 2 == 1)
    if up then fl + 1 else fl

/-- round_grid of R87 on a dyadic value m × 2^k. -/
def roundGrid (mode : Mode) (m : Int) (k : Int) : Int :=
  let neg := decide (m < 0)
  let r := roundMag mode neg m.natAbs k
  if neg then -(r : Int) else r

/-- m × 2^k is the integer r exactly. -/
def isExact (m : Nat) (k : Int) (r : Nat) : Bool :=
  if 0 ≤ k then true else m == r <<< (-k).toNat

/-- A finite value rounded once to a format, and the flags it sets (R83 to R85, R87). -/
def roundFin (f : Fmt) (mode : Mode) (ftz neg : Bool) (m : Nat) (e : Int) : Nat × Nat :=
  let sg := signBit f neg
  if m = 0 then (sg, 0)
  else
    let top : Int := (Nat.log2 m : Int) + e
    let q : Int := max (top - f.fw) (minExp f)
    let r := roundMag mode neg m (e - q)
    let inexact := !isExact m (e - q) r
    let code := r + (q - minExp f).toNat <<< f.fw
    let big := if f.f8 then decide (0x7E < code) else decide ((2 ^ f.ew - 1) <<< f.fw ≤ code)
    if big then
      let toMax := f.f8 || (match mode with | .rne => false | .rtz => true | .rup => neg | .rdn => !neg)
      let maxCode := if f.f8 then 0x7E else ((2 ^ f.ew - 1) <<< f.fw) - 1
      (sg + (if toMax then maxCode else (2 ^ f.ew - 1) <<< f.fw), Flag.of ||| Flag.nx)
    else if ftz && !f.f8 && decide (0 < code) && decide (code < 2 ^ f.fw) then (sg, Flag.uf ||| Flag.nx)
    else
      -- tininess after rounding to the full precision with an unbounded exponent
      let r4 := roundMag mode neg m (e - (top - f.fw))
      let tiny := decide (top < minExp f + f.fw)
        && !(decide (top + 1 = minExp f + f.fw) && r4 == 2 ^ (f.fw + 1))
      (sg + code, (if inexact then Flag.nx else 0) ||| (if inexact && tiny then Flag.uf else 0))

/-- A value rounded to a format. `nv` says that a signalling NaN or an invalid operation made it. -/
def encode (f : Fmt) (mode : Mode) (ftz : Bool) (x : FVal) : Nat × Nat :=
  match x with
  | .nan sig => (canonNaN f, if sig then Flag.nv else 0)
  | .inf neg =>
    if f.f8 then (0x7F, Flag.nv) else (signBit f neg + (2 ^ f.ew - 1) <<< f.fw, 0)
  | .fin neg m e => roundFin f mode ftz neg m e

/-- The value with its sign inverted; a NaN stays. -/
def neg : FVal → FVal
  | .nan s => .nan s
  | .inf n => .inf (!n)
  | .fin n m e => .fin (!n) m e

/-- A signalling NaN. -/
def isSig : FVal → Bool
  | .nan s => s
  | _ => false

/-- A NaN. -/
def isNaN : FVal → Bool
  | .nan _ => true
  | _ => false

/-- The exact sum of two finite values; an exact zero from different signs is −0 only under RDN. -/
def addFin (mode : Mode) (n1 : Bool) (m1 : Nat) (e1 : Int) (n2 : Bool) (m2 : Nat) (e2 : Int) : FVal :=
  let e := min e1 e2
  let a : Int := ((m1 <<< (e1 - e).toNat : Nat) : Int)
  let b : Int := ((m2 <<< (e2 - e).toNat : Nat) : Int)
  let s : Int := (if n1 then -a else a) + (if n2 then -b else b)
  if s = 0 then .fin (if n1 = n2 then n1 else decide (mode = .rdn)) 0 e
  else .fin (decide (s < 0)) s.natAbs e

/-- a + b; the result NaN is marked signalling when the sum sets NV. -/
def add (mode : Mode) (a b : FVal) : FVal :=
  match a, b with
  | .nan s, .nan t => .nan (s || t)
  | .nan s, _ => .nan s
  | _, .nan t => .nan t
  | .inf n, .inf m => if n = m then .inf n else .nan true
  | .inf n, _ => .inf n
  | _, .inf n => .inf n
  | .fin n1 m1 e1, .fin n2 m2 e2 => addFin mode n1 m1 e1 n2 m2 e2

/-- a × b. -/
def mul (a b : FVal) : FVal :=
  match a, b with
  | .nan s, .nan t => .nan (s || t)
  | .nan s, _ => .nan s
  | _, .nan t => .nan t
  | .inf n, .inf m => .inf (n != m)
  | .inf n, .fin m mm _ => if mm = 0 then .nan true else .inf (n != m)
  | .fin n nm _, .inf m => if nm = 0 then .nan true else .inf (n != m)
  | .fin n1 m1 e1, .fin n2 m2 e2 => .fin (n1 != n2) (m1 * m2) (e1 + e2)

/-- a × b + d, exact (R206): a zero × infinity product is invalid even when d is a quiet NaN. -/
def fma (mode : Mode) (a b d : FVal) : FVal :=
  match mul a b with
  | .nan s => .nan (s || isSig d)
  | p => add mode p d

/-- a / b to 128 bits below the leading one, with the last bit set when inexact, and the flags of R216. -/
def div (a b : FVal) : FVal × Nat :=
  match a, b with
  | .nan s, .nan t => (.nan (s || t), 0)
  | .nan s, _ => (.nan s, 0)
  | _, .nan t => (.nan t, 0)
  | .inf _, .inf _ => (.nan true, 0)
  | .inf n, .fin m _ _ => (.inf (n != m), 0)
  | .fin n _ _, .inf m => (.fin (n != m) 0 0, 0)
  | .fin n1 m1 e1, .fin n2 m2 e2 =>
    if m2 = 0 then
      if m1 = 0 then (.nan true, 0) else (.inf (n1 != n2), Flag.dz)
    else
      let num := m1 <<< 128
      let q := num / m2
      let q' := 2 * q + b2n (q * m2 != num)
      (.fin (n1 != n2) q' (e1 - e2 - 129), 0)

/-- √a, with the last bit set when inexact (R216). -/
def sqrt (a : FVal) : FVal :=
  match a with
  | .nan s => .nan s
  | .inf n => if n then .nan true else .inf false
  | .fin n m e =>
    if m = 0 then .fin n 0 0
    else if n then .nan true
    else
      let odd := decide (e % 2 ≠ 0)
      let m' := (if odd then 2 * m else m) <<< 128
      let e' := if odd then e - 1 else e
      let r := isqrt m'
      .fin false (2 * r + b2n (r * r != m')) (e' / 2 - 65)

/-- 1 / √a, with the last bit set when inexact, and the flags of R216. -/
def rsqrt (a : FVal) : FVal × Nat :=
  match a with
  | .nan s => (.nan s, 0)
  | .inf n => if n then (.nan true, 0) else (.fin false 0 0, 0)
  | .fin n m e =>
    if m = 0 then (.inf n, Flag.dz)
    else if n then (.nan true, 0)
    else
      let odd := decide (e % 2 ≠ 0)
      let m' := if odd then 2 * m else m
      let e' := if odd then e - 1 else e
      -- r = floor(√(2^256 / m')), scaled by 2^−128
      let r := isqrt (2 ^ 256 / m')
      (.fin false (2 * r + b2n (r * r * m' != 2 ^ 256)) (-(e' / 2) - 129), 0)

/-- Order of two values that are not NaN: −1, 0 or 1 (−0 equals +0). -/
def cmp (a b : FVal) : Int :=
  match a, b with
  | .nan _, _ => 0
  | _, .nan _ => 0
  | .inf n, .inf m => if n = m then 0 else if n then -1 else 1
  | .inf n, _ => if n then -1 else 1
  | _, .inf m => if m then 1 else -1
  | .fin n1 m1 e1, .fin n2 m2 e2 =>
    let e := min e1 e2
    let x : Int := ((m1 <<< (e1 - e).toNat : Nat) : Int)
    let y : Int := ((m2 <<< (e2 - e).toNat : Nat) : Int)
    let x := if n1 then -x else x
    let y := if n2 then -y else y
    if x < y then -1 else if x = y then 0 else 1

/-- Sign of a value; a NaN reads as positive. -/
def isNeg : FVal → Bool
  | .nan _ => false
  | .inf n => n
  | .fin n _ _ => n

/-- Minimum or maximum of R83: a NaN on either side gives a NaN, and −0 orders below +0. -/
def minMax (wantMax : Bool) (a b : FVal) : FVal :=
  if isNaN a || isNaN b then .nan (isSig a || isSig b)
  else
    let c := cmp a b
    let aLess := decide (c < 0) || (c == 0 && isNeg a && !isNeg b)
    if wantMax then (if aLess then b else a) else (if aLess || c == 0 && isNeg a == isNeg b then a else b)

/-- An integer as a value; 0 is +0. -/
def ofInt (v : Int) : FVal := .fin (decide (v < 0)) v.natAbs 0

/-- A value rounded to an integer of `w` bits (Table 11.10): NaN gives 0 and NV; out of range gives the nearer bound and NV. -/
def toInt (mode : Mode) (w : Nat) (signed : Bool) (x : FVal) : Nat × Nat :=
  match x with
  | .nan _ => (0, Flag.nv)
  | .inf n => (truncI (if n then loVal w signed else hiVal w signed) w, Flag.nv)
  | .fin n m e =>
    let r := roundMag mode n m e
    let v : Int := if n then -(r : Int) else r
    if v < loVal w signed then (truncI (loVal w signed) w, Flag.nv)
    else if hiVal w signed < v then (truncI (hiVal w signed) w, Flag.nv)
    else (truncI v w, if isExact m e r then 0 else Flag.nx)

/-- floor of a finite value. -/
def floorFin (n : Bool) (m : Nat) (e : Int) : Int :=
  let r := roundMag .rdn n m e
  if n then -(r : Int) else r

end Fp

end Sys2Proof.Machine
end

