-- ==== Sys2Proof/Config.lean ====
section
/-! DEFINITION. What the spec leaves open: free values, which nothing in Lean can evaluate, and the
constants an implementation fixes. Every free value is a function with no body (log entry 3). -/

namespace Sys2Proof.Config

/-- A duration in cycles that the spec calls implementation-defined (R389), read at a fresh counter value. -/
opaque delay : Nat → Nat

/-- A byte whose value the spec does not state, read at a fresh counter value. -/
opaque freeByte : Nat → BitVec 8

/-- A 64-bit value the spec does not state, read at a fresh counter value. -/
opaque freeWord : Nat → BitVec 64

/-- A free choice between two outcomes the spec allows, read at a fresh counter value. -/
opaque freeBool : Nat → Bool

/-- The link port that traffic to a wafer of a campus takes; how the wafers are cabled is the installation's. -/
opaque linkPortOf : Nat → Nat → Nat

/-- The owner's public key, X then Y (R367, R368). -/
opaque ownerKey : Nat → BitVec 8

/-- The digest of the owner's key that is fused (R367). -/
opaque ownerDigest : Nat → BitVec 8

/-- The vendor's public key, X then Y (R364, R369). -/
opaque vendorKey : Nat → BitVec 8

/-- The digest of the vendor's key that is fused (R364). -/
opaque vendorDigest : Nat → BitVec 8

/-- The identity private key, which is fused and never leaves the security unit (R364). -/
opaque identityPrivate : Nat

/-- Bytes of the firmware image in module flash (R364). -/
opaque firmwareSize : Nat

/-- The firmware image in module flash (R364). -/
opaque firmwareByte : Nat → BitVec 8

/-- The signature of the firmware image (R364). -/
opaque firmwareSig : Nat → BitVec 8

/-- Bytes of the fuse map (R366). -/
opaque fuseSize : Nat

/-- The fuse map, by whether the return-to-vendor fuse is blown (R366). -/
opaque fuseByte : Bool → Nat → BitVec 8

/-- The IDCODE of the test access port (R374). -/
opaque idcode : BitVec 32

end Sys2Proof.Config
end

