-- ==== Sys2Proof/Machine/State.lean ====
section
/-! DEFINITION. The state of the wafer as plain data: threads, cores, launches, the network, and every
register block the spec gives; the machine right after reset. Rules are cited beside the fields. -/

namespace Sys2Proof.Machine

open Sys2Proof

/-- No step of the model stops with a fault: every cause of Table 19.3 is taken, and every other end is a next state. -/
inductive Fault
deriving DecidableEq, Repr

/-- Why a step is refused. -/
inductive Refusal where
  /-- Raised by exec for an instruction whose meaning is not written; safe. -/
  | notModelled (mnemonic : String)
deriving DecidableEq, Repr

/-! ## Threads -/

/-- What a slot is for (R28). -/
inductive SlotKind where
  | free | root | handler | task
deriving DecidableEq, Repr

/-- Class of a thread (R34): the codes of Table 19.1, and 3 for an ended thread (R326). -/
inductive TClass where
  | normal | handler | trap | ended
deriving DecidableEq, Repr

/-- A fixed-class result that later instructions may not yet read (R156): stream position, class value L,
bits, and the time from which it stands. -/
structure Pending where
  pos   : Nat
  lat   : Nat
  mask  : BitVec 8192
  value : BitVec 8192
  ready : Nat
deriving DecidableEq, Repr

/-- Where a class T result lands (R158, R285). -/
inductive Dest where
  | slices (st n : Nat)
  | flag (k : Nat)
  | port (q w : Nat)
  | nowhere
deriving DecidableEq, Repr

/-- What else happens when a class T result lands. -/
inductive LandKind where
  | plain
  | load (phase : Bool) (n : Nat)
  | acas (q : Nat)
  | rwait (tree : Nat)
  | fence
  | merge
  | tinv (kind asid a : Nat)
deriving DecidableEq, Repr

/-- A class T result on its way (R158): the window bits it still covers, responses still missing, its value; a
landed result of a repetition stays until the last one lands (R199). -/
structure Landing where
  id      : Nat
  tag     : Nat
  pos     : Nat
  pc      : W32
  dest    : Dest
  cover   : BitVec 8192
  landed  : Bool
  kind    : LandKind
  missing : Nat
  value   : Nat
  flags   : Nat
deriving DecidableEq, Repr

/-- A FENCE or QFENCE that is not complete (R265, R293): predecessors awaited, successor classes held. -/
structure Fence where
  id      : Nat
  tag     : Nat
  pieces  : List Nat
  cmds    : List Nat
  pages   : List Nat
  succR   : Bool
  succW   : Bool
  uo      : Bool               -- of the UO kind
  persist : Bool               -- at scope PERSIST, its write-backs not yet begun (R127)
  queues  : Bool               -- a QFENCE (R293)
deriving DecidableEq, Repr

/-- A group in an input queue (R70), and when it is complete. -/
structure Group where
  width    : Nat
  value    : Nat
  complete : Bool
  due      : Nat
  after    : List Nat           -- accesses the pop's later accesses follow (R140)
deriving DecidableEq, Repr

/-- An input queue (R69, R70): its groups, and entries popped whose room has not reached the producer, with the
time at which it does. -/
structure InQueue where
  groups    : List Group
  returning : List (Nat × Nat)
deriving DecidableEq, Repr

/-- What the beats of a repetition that is under way have popped and made so far (R62, R63): the groups of A, B and D,
the result for a destination that is written whole, and the flags of a class T result. -/
structure BeatBuf where
  a     : Nat
  b     : Nat
  d     : Nat
  acc   : Nat
  flags : Nat
deriving DecidableEq, Repr

/-- A bank of loop state (R196, R323). -/
structure LoopBank where
  loopst0  : W64
  loopst1  : W64
  repstate : W64
  bar      : Option (Nat × Nat × W32) -- a BAR that has arrived and waits: barrier, generation, its PC (R312)
  beats    : Option BeatBuf       -- a repetition some of whose beats are done (R63, R200)
deriving DecidableEq, Repr

/-- A wait of Table 1.7: reason, DETAIL of R47, PC of the waiting instruction, since when. -/
structure Wait where
  reason : Nat
  detail : Nat
  pc     : W32
  since  : Nat
deriving DecidableEq, Repr

/-- A deferred fault found and not yet taken (R326). -/
structure Deferred where
  order : Nat
  cause : Nat
  tval  : Nat
  tag   : Nat
  fpc   : W32
  land  : Nat
deriving DecidableEq, Repr

/-- An asynchronous cause raised and not yet taken (R327), or a pending cause of a thread's record (R332)
with the resume PC and the fields of Table 19.1 it is entered with. -/
structure Raised where
  cause  : Nat
  tval   : Nat
  resume : W32
  fpc    : W32
  async  : Bool
  defer  : Bool
  tag    : Nat
deriving DecidableEq, Repr

/-- A join record (R309). -/
structure JoinRec where
  child  : Nat
  result : Option W64
  after  : List Nat           -- accesses the child's EXIT releases (R309)
deriving DecidableEq, Repr

/-- A collective of a thread, R305: its number and its status word once complete. -/
structure ThreadColl where
  num    : W32
  cid    : Nat
  status : Option W64
deriving DecidableEq, Repr

/-- A thread: launch, bunch, in-bunch index and slot (R141). -/
structure Agent where
  launch : Nat
  bunch  : Nat
  i      : Nat
  slot   : Nat
deriving DecidableEq, Repr

/-- The message a handler runs for (R278, R279). -/
structure HandlerMsg where
  header   : BitVec 256
  answered : Bool
  src      : Agent
  route    : W64
deriving DecidableEq, Repr

/-- An execute comparator that has fired at a PC does not fire again before the next issue in the loop bank's context it
fired in (R378, log entry 14). -/
structure BreakSkip where
  comp : Nat
  pc   : W32
  ctx  : Nat
deriving DecidableEq, Repr

/-- A hardware thread context, one a slot. -/
structure Thread where
  kind     : SlotKind          -- R28
  running  : Bool              -- it has a program to run (R69, R202, R278)
  granules : Nat               -- R51
  window   : BitVec 8192       -- R51 to R53
  pend     : List Pending      -- R156
  pos      : Nat               -- R156
  pc       : W32               -- R148
  cls      : TClass            -- R34
  status   : W64               -- R319
  fflags   : W64               -- R88
  portcfg  : W64               -- R75
  tvec     : W64               -- R322
  temask0  : W64               -- R318
  temask1  : W64
  cause    : W64               -- R323
  tval     : W64
  epc      : W64
  estat    : W64               -- R324
  stvec    : W64
  scause   : W64
  stval    : W64
  sepc     : W64
  sestat   : W64
  loops    : LoopBank          -- current bank, R196
  bankN    : LoopBank          -- banks of R323 not in use
  bankU    : LoopBank
  bankS    : LoopBank
  rstat    : W64               -- R320
  landings : List Landing      -- R158
  fences   : List Fence        -- R265, R293
  qin      : List InQueue      -- R69, ten
  evq      : List (BitVec 512) -- R274
  credits  : Nat               -- R274
  msgSeq   : W32               -- R272
  hmsg     : Option HandlerMsg -- R279
  budget   : Nat               -- R36
  digest   : W64               -- R30
  depth    : Nat               -- R30
  childIx  : Nat               -- R311
  spawner  : W32               -- TID of the spawner, R311
  parent   : Option (Agent × Nat)  -- R309: the spawner and its `since`
  since    : Nat               -- the next free name when its program started (R326)
  spawns   : Nat               -- R30
  joins    : List JoinRec      -- R309
  fmta     : Nat               -- R238
  fmtb     : Nat
  collNum  : W32               -- R305
  colls    : List ThreadColl   -- R305
  launchNum : W32              -- R313
  detCount : Nat               -- R342
  counters : List W64          -- R379, 16
  deferred : List Deferred     -- R326
  deferOn  : Option Nat        -- the access whose deferred fault is being handled (R326)
  async    : List Raised       -- R327
  pendCause : Option Raised    -- R332
  resumed  : Bool              -- swapped in since its pending cause was raised (R333)
  wait     : Option Wait       -- R37
  held     : Option Nat        -- the landing an untagged class T waits for (R158)
  tried    : Bool              -- considered in this cycle
  busyTo   : Nat               -- may issue from this time on (R178)
  yieldTo  : Nat               -- R201
  yieldFor : List Nat          -- R201, slots still to issue
  drowsy   : Bool              -- R65
  halted   : Bool              -- R375
  stepping : Bool              -- R377
  bpSkip   : List BreakSkip    -- R378
  vecHeld  : Bool              -- held by the vector datapath (R39)
  passed   : Nat               -- cycles running in which it could issue and another normal thread did (R35)
  badGroups : List Nat         -- R67, groups with an uncorrectable error
  own      : Table Nat         -- R141, last OWN per target
  sync     : List Nat          -- accesses of other threads its later accesses follow (R140)
  blockFill : Option Nat       -- the fill that a block's read of it waits for (R123)
  blockErr : Bool              -- that fill has failed (R125)
  issuedIn : Nat               -- the cycle it last issued in, plus 1
  cclass   : Nat               -- class code of its last cycle (R379, R381)
deriving DecidableEq, Repr

/-! ## Cores -/

/-- Who holds a core (R15). -/
structure Occ where
  launch : Nat
  bunch  : Nat
  i      : Nat
deriving DecidableEq, Repr

/-- A mailbox entry in use (R276). -/
structure MbxEntry where
  entry  : Nat
  header : BitVec 256
  src    : Agent
  route  : W64
deriving DecidableEq, Repr

/-- A latch of the matrix unit (R236). -/
structure Latch where
  loaded : Bool
  fmt    : Nat
  blocks : List (BitVec 2048)
deriving DecidableEq, Repr

/-- A matrix slot (R236, R238). -/
structure MSlot where
  owner : Option Nat
  live  : Bool
  tile  : List (BitVec 2048)
  la    : Latch
  lb    : Latch
deriving DecidableEq, Repr

/-- What an accepted matrix command does (R241). Loaded blocks are those read at acceptance (R252). -/
inductive MOp where
  | zero
  | loadA (fmt : Nat) (blocks : List (BitVec 2048))
  | loadB (fmt : Nat) (blocks : List (BitVec 2048))
  | mac
  | store
  | storeQ (fmt : Nat) (mode : Nat) (seq : W64)
  | save
  | restore (blocks : List (BitVec 2048))
deriving DecidableEq, Repr

/-- An accepted matrix command (R239): thread slot, matrix slot, flags raised, next k, and the address of an error. -/
structure MCmd where
  id    : Nat
  slot  : Nat
  mslot : Nat
  op    : MOp
  flags : Nat
  k     : Nat
  pc    : W32
  err   : Option Nat
  started : Bool
deriving DecidableEq, Repr

/-- An entry of the collective outbound queue (R250). -/
structure OutEntry where
  fmt    : Nat
  blocks : List (BitVec 2048)
  seq    : W64
deriving DecidableEq, Repr

/-- The matrix unit (R236, R243). -/
structure Matrix where
  slots   : List MSlot
  cmds    : List MCmd
  outq    : List OutEntry
  holder  : Option Nat
  last    : Nat
  left    : Nat          -- MMACs left of the budget
  granted : Nat          -- time of the grant
  release : Bool         -- the holder gives the array up once its MMACs complete
  running : Bool         -- a k-step is due
  asked   : List (Nat × Nat)  -- threads whose MCFG has passed its tests and waits, and since when (R242)
deriving DecidableEq, Repr

/-- A copy-engine command (R285). -/
structure EngCmd where
  id    : Nat
  slot  : Nat
  kind  : Nat            -- 0 CPY, 1 CPYR, 2 SORTK
  descr : BitVec 512
  seq   : W32
  land  : Option Nat
  ev    : Bool
  pc    : W32
  lvl   : Nat            -- level of the issuing thread
  after : List Nat       -- LOCAL accesses of the thread that it follows (R144)
  fill  : Option Nat     -- the fill it waits for (R126)
  ioErr : Bool           -- that fill failed
  done  : Nat            -- how many of its parts it has done (R126, R292)
  buf   : List Byte      -- what it has read and not yet written
  up    : Bool           -- the order in which it meets its own bytes, where it may choose (R289)
deriving DecidableEq, Repr

/-- A queue of the copy engine (R285, R294). -/
structure EngQueue where
  cmds    : List EngCmd
  halt    : Bool
  next    : W32
  last    : W32
  errLast : Nat
deriving DecidableEq, Repr

/-- A task waiting to start or being started (R31, R308). -/
structure TaskDesc where
  entry   : W32
  arg     : Nat
  argW    : Nat
  status  : W64
  digest  : W64
  depth   : Nat
  childIx : Nat
  spawner : W32
  parent  : Agent × Nat
deriving DecidableEq, Repr

/-- A contribution or partial held at a node (R298, R299): block index, entry it comes from, image, INC, missing entries, RQ. -/
structure TreePart where
  blk     : Nat
  src     : Nat
  img     : BitVec 2048
  inc     : Bool
  missing : List Nat
  rq      : Nat
  after   : List Nat               -- accesses a contribution releases (R298)
deriving DecidableEq, Repr

/-- A result queued at a member (R302). -/
structure TreeResult where
  blk     : Nat
  img     : BitVec 2048
  inc     : Bool
  missing : List Nat
  rack    : Bool
deriving DecidableEq, Repr

/-- The node of a tree on a core (R295 to R302). -/
structure TreeNode where
  rpt      : Nat
  timeout  : Nat
  e0       : Nat
  dist     : Nat
  trapInc  : Bool
  deliv    : Bool
  wire     : Nat
  table    : List (Nat × Nat)      -- core, parent entry
  me       : Nat
  depth    : Nat
  nextSend : Nat
  contribs : List TreePart
  parts    : List TreePart
  nextFold : Nat
  ecur     : Nat                   -- Ecur of block nextFold − 1
  racks    : Table Nat             -- W(b)
  queue    : List TreeResult
  timers   : List (Nat × Nat)      -- blocks whose timer runs, and when it ends
  pausedAt : Option Nat            -- since when its timeouts are suspended (R297)
deriving DecidableEq, Repr

/-- State of a tree id on a core (R303). -/
inductive TreeState where
  | installed (n : TreeNode)
  | aborted (wire : Nat)
deriving DecidableEq, Repr

/-- A comparator (Table 23.8). -/
structure Comparator where
  v     : Bool
  slots : BitVec 8
  act   : Nat
  kind  : Nat
  addr  : W64
deriving DecidableEq, Repr

/-- A core and the context of the bunch on it. -/
structure Core where
  owner    : Option Occ           -- R15
  codelen  : Nat                  -- R19, R108
  codever  : Nat                  -- R381
  kbank    : List W32             -- R27, 16
  stage    : W32                  -- R29
  round    : W64                  -- R41
  rtbase   : List W64             -- R111, 32
  rtlim    : List W64
  dlogbase : W64                  -- R128
  dlogidx  : W64
  filter   : List Nat             -- R128, most recent first
  merging  : Bool                 -- R129
  mbxcfg   : W64                  -- R276
  mbx      : List MbxEntry        -- R278, oldest first
  htable   : List W32             -- R277, 64
  hset     : Bool                 -- R275
  ft       : Table W64            -- R105, entry 256 × t + n; an unlisted entry is 0
  mat      : Matrix               -- R236
  eng      : List EngQueue        -- R285, 4
  taskq    : List TaskDesc        -- R31
  stalled  : List Agent           -- R31, stalled spawners in order
  trees    : Table TreeState      -- R303
  lastH    : Nat                  -- R34, last-issuing slot of each class
  lastT    : Nat
  lastN    : Nat
  vecLast  : Nat                  -- R39
  vecFree  : Nat                  -- R178
  vecAsk   : Bool                 -- its next holder is still to be found (R39)
  vecGrant : Option Nat           -- the slot it has been given to (R39)
  preempted : Bool                -- a handler or trap thread issued in this cycle (R35)
  comps    : List Comparator      -- R378, 4
  stopped  : Bool                 -- halted for its bunch (R330)
  dbgHalt  : Bool                 -- no handler or task starts, HALTB (R375)
  issued   : Bool                 -- an instruction issued in this cycle (R34)
  failed   : Bool                 -- failed in service (R13)
  threads  : List Thread          -- eight
deriving DecidableEq, Repr

/-! ## Accesses in the network -/

/-- The target of a stream (R141). -/
inductive Tgt where
  | core (c : Nat)
  | edge (p : Nat)
  | host (p : Nat)
  | mmio (blk : Nat)
deriving DecidableEq, Repr

/-- What a piece does at its target (R254, R260, R262, R143). -/
inductive MemOp where
  | read
  | write
  | atomic (op : Nat) (n : Nat)
  | redi (natural : Bool) (sat : Bool)
  | redf
  | redb (fmt : Nat)
  | clearance (rel : Nat)
  | cancel (rel : Nat)
deriving DecidableEq, Repr

/-- The attribute of a piece (R135, R136). -/
inductive Attr where
  | so | rc | uo
deriving DecidableEq, Repr

/-- Where a piece stands. -/
inductive Phase where
  | unsent                      -- not yet sent (R136, R139, R143)
  | held1                       -- held at the requester between two tests (R116)
  | flying                      -- sent, not yet at its target
  | turn                        -- at its target, waiting for its stream's earlier accesses (R142)
  | waiting                     -- at its target, waiting for a translation or for invalidates (R120, R121)
  | paged                       -- at its target, waiting for a page that is not resident (R123)
  | held                        -- a ticketed release held invisible (R143)
  | detHeld                     -- a reduction held under DET (R342)
  | done                        -- performed or refused; the response is on its way
deriving DecidableEq, Repr

/-- The key of a reduction under DET (R342). -/
structure DetKey where
  round  : Nat
  g      : Nat
  digest : Nat
  n      : Nat
  core   : Nat
  slot   : Nat
deriving DecidableEq, Repr

/-- A piece of a non-local access (R134, R141). -/
structure Piece where
  id      : Nat
  src     : Agent
  tgt     : Tgt
  loc     : Bool                -- under a LOCAL entry: it uses no network
  addr    : Nat
  va      : Nat
  len     : Nat
  op      : MemOp
  data    : Nat
  lowNib  : Bool                -- the first byte's low nibble is not covered (R266)
  highNib : Bool                -- the last byte's high nibble is not covered
  attr    : Attr
  strm    : Bool
  acq     : Option Nat
  rel     : Option Nat
  land    : Option Nat
  off     : Nat                 -- its first byte within the access
  tag     : Nat
  pc      : W32
  order   : Nat
  after   : List Nat            -- pieces of other threads that come before it (R140)
  pred    : Nat
  own     : Nat
  succ    : Nat
  phase   : Phase
  ticket  : Bool
  acked   : Bool                -- a held acknowledgement has arrived (R143)
  resends : Nat
  sentAt  : Nat
  asid    : Nat
  lvl     : Nat
  det     : Option DetKey
  handler : Bool                -- issued by a handler-class thread under DET, and logged at issue (R343)
  resp    : Nat
  err     : Option Nat          -- cause of the failure
  told    : Bool                -- its access's fault has been raised (R326)
  key     : Option Nat          -- the byte it starts at, as its address translated at issue (R139)
  orphan  : Bool                -- its response is discarded (R331)
  tries   : Nat                 -- first refusal time plus 1 (R146)
deriving DecidableEq, Repr

/-- An access performed at a target in the last microsecond (R258, R340): the 32-byte units it touched, whose it is, its
name and its time. -/
structure Touch where
  lo    : Nat
  hi    : Nat
  src   : Agent
  order : Nat
  at_   : Nat
deriving DecidableEq, Repr

/-- An event of Table 21.2 on its way from where it happened to the core of its thread (R339). -/
structure NdNote where
  due  : Nat
  who  : Agent
  code : Nat
  pc   : W32
deriving DecidableEq, Repr

/-- A stream window at a target (R145, R146). -/
structure StreamWin where
  src    : Agent
  tgt    : Tgt
  high   : Nat
  seen   : List (Nat × Nat)     -- OWN and response
  last   : Nat
deriving DecidableEq, Repr

/-- A message in flight (R275). -/
structure Msg where
  id      : Nat
  src     : Agent
  core    : Nat
  header  : BitVec 256
  payload : List Byte
  route   : W64
  pc      : W32
  after   : List Nat
deriving DecidableEq, Repr

/-- An event record in flight (R280). -/
structure EvMsg where
  id   : Nat
  src  : Option Nat     -- the core it left, none where the launch sequencer sends it
  dst  : Agent
  home : Nat
  rec_ : BitVec 512
  after : List Nat
deriving DecidableEq, Repr

/-- What travels on a reduction tree. -/
inductive TreeWhat where
  | part (p : TreePart)
  | rack (blk : Nat) (w : Nat)
  | result (r : TreeResult)
  | abort (wire : Nat)
deriving DecidableEq, Repr

/-- A message of a reduction tree in flight (R296 to R303). -/
structure TreeMsg where
  id     : Nat
  launch : Nat
  at_    : Nat            -- the core it left
  core   : Nat
  tree   : Nat
  src    : Nat            -- the core index of its sender (R49, R296)
  what   : TreeWhat
deriving DecidableEq, Repr

/-- A collective of one member (R344 to R360): its block, member array and tree as read at issue, the packets it has
sent, one a step, and those it has got, with step and rank. -/
structure Coll where
  id      : Nat
  src     : Agent
  num     : W32
  blkAddr : Nat
  block   : List Byte
  memb    : List Byte
  tree    : List Byte
  rank    : Nat
  hash    : List Byte
  pc      : W32
  lvl     : Nat
  after   : List Nat
  step    : Nat
  sent    : List (List Byte)
  got     : List (Nat × Nat × List Byte)
  nlate   : Nat
  nskew   : Nat
  skewed  : List Nat            -- steps counted in NSKEW (R360)
  drawn   : List (BitVec 2048)  -- what it has taken from the outbound queue (R305)
  heard   : Nat                 -- when its present step was sent
  fill    : Option Nat          -- the fill it waits for
  ioErr   : Bool
  err     : Option Nat
  done    : Bool
deriving DecidableEq, Repr

/-! ## Launches -/

/-- A launch descriptor (Table 1.3), its fields as numbers. -/
structure Desc where
  addr   : Nat
  words  : List W64             -- the 24 words of the descriptor
deriving DecidableEq, Repr

/-- Where a launch came from (R20, R22). -/
inductive Source where
  | queue (q : Nat) (issuer : Option Nat)
  | device (who : Agent) (asid : Nat) (num : W32) (addr : Nat) (home : Nat)
deriving DecidableEq, Repr

/-- Where a bunch stands. -/
inductive BunchState where
  | unplaced | placed | halting | saved | retired
deriving DecidableEq, Repr

/-- A barrier of a bunch (R312). -/
structure Barrier where
  g        : W32
  count    : Nat
  arrivals : Nat
  who      : List (Nat × Nat)   -- barrier 0: members that arrived in g, by core index in the bunch and slot
  after    : List Nat           -- accesses the arrivals in g release (R312)
  last     : List Nat           -- those of the generations before
deriving DecidableEq, Repr

/-- A saved core (R332): its context, where it stood, the cells of its save area as the device wrote them, and the bytes
of its local store with an uncorrectable error. -/
structure SavedCore where
  ctx   : Core
  core  : Nat
  image : List Host.Cell
  bad   : List Nat
deriving DecidableEq, Repr

/-- A bunch (R24 to R28, R48, R329 to R334). -/
structure Bunch where
  idx      : Nat
  state    : BunchState
  hx       : Nat                -- home origin
  hy       : Nat
  x        : Nat                -- present origin
  y        : Nat
  preempt  : Bool               -- out by OP 0, until OP 1
  paging   : List Nat           -- page fills awaited
  trapped  : List (Raised × Nat × Nat)    -- unhandled causes, in-bunch index, slot
  haltAsk  : Bool               -- a halt is requested
  haltAt   : Nat                -- step 1 of R330
  haltCause : Nat
  fault    : Nat                -- faulting address of a storage halt
  tsave    : Nat
  outSince : Nat
  barriers : List Barrier       -- 16
  ndc      : List W64           -- 16, R339
  ndOvf    : Bool
  saved    : List SavedCore
  watch    : Option Nat         -- R329
  halted   : Bool               -- HALTB
deriving DecidableEq, Repr

/-- A deadlock report that waits for a page (R46, R388): the next entry's number, the entries left, whether one is lost, and
how many there are in all. -/
structure Report where
  next  : Nat
  rest  : List (List Byte)
  lost  : Bool
  total : Nat
deriving DecidableEq, Repr

/-- A launch. -/
structure Launch where
  id       : Nat
  desc     : Desc
  source   : Source
  prio     : Nat
  started  : Bool
  round    : Nat
  roundsDone : Nat
  bunches  : List Bunch
  ndlog    : Bool
  quiet    : Nat                -- cycles of quiescence, R46
  armed    : Bool
  ended    : Bool
  fatal    : Option (Raised × Nat × Nat × Nat)  -- first Fatal cause, bunch, slot, home core (R335)
  final    : Option (Nat × Nat) -- STATUS and REASON of its final record, once it has ended
  fills    : List (Nat × Nat)   -- fills it waits for, and what for: 1 code, 2 stage table, 3 arguments, 4 report, 5 + 2 b save, 6 + 2 b restore (R388)
  badFills : List Nat           -- what for a fill has failed
  report   : Option Report      -- the deadlock report it is writing
deriving DecidableEq, Repr

/-- A completion record or trap notice held or being written. -/
structure Record where
  words : List W64
  owner : Option (Nat × Option Nat)   -- the launch whose record waits for this notice (R335), or its bunch that stays out (R334)
deriving DecidableEq, Repr

/-- The registers and held records of a launch queue (Table 1.2, R23). -/
structure LQueue where
  head  : W64
  tail  : W64
  en    : Bool
  msix  : Bool
  err   : Nat
  cons  : Bool
  halt  : Bool
  cbase : W64
  cmask : W32
  cwr   : W32
  crd   : W32
  heldRecs : List Record
  issuer : Option Nat
  stuck  : Bool                 -- a record write has failed; held until EN is set (R23)
deriving DecidableEq, Repr

/-- The pre-emption and trap-notice registers (Table 19.4). -/
structure PreRegs where
  lid    : W64
  ctl    : W64
  arg    : W64
  count  : Nat
  err    : Nat
  done   : Bool
  busy   : Bool
  await  : List (Nat × Nat)     -- launch and bunch of the matched bunches not yet halted
  thalt  : W64
  tnBase : W64
  tnMask : W32
  tnWr   : W32
  tnRd   : W32
  heldNotices : List Record
deriving DecidableEq, Repr

/-- The collective log registers (Table 21.10). -/
structure CollLog where
  base : W64
  mask : W32
  wr   : W32
  rd   : W32
  lost : Bool
deriving DecidableEq, Repr

/-! ## Memory ports, storage, security, trace -/

/-- A cached translation (R120). -/
structure Xlat where
  asid : Nat
  va   : Nat
  size : Nat
  pte  : W64
  at_  : Nat                    -- address of the PTE in the port's DRAM
deriving DecidableEq, Repr

/-- An edge port (Table 23.13). -/
structure EdgePort where
  rtab  : W64
  size  : Nat                   -- bytes of DRAM behind it
  walks : Nat
  cache : List Xlat
  roots : Table W64             -- root table entries cached, by ASID (R385)
deriving DecidableEq, Repr

/-- A replica directory entry (R121): a page of a home port and the ports that hold copies. -/
structure Replica where
  home  : Nat
  frame : Nat
  ports : List Nat
deriving DecidableEq, Repr

/-- A write waiting for invalidate acknowledgements (R121). -/
structure InvWait where
  piece : Nat
  left  : List Nat
  key   : Nat
  home  : Nat
  frame : Nat
deriving DecidableEq, Repr

/-- A frame of a Cellar engine, in fill order (R124). -/
structure Frame where
  pool    : Nat
  addr    : Nat
  asid    : Nat
  va      : Nat
  port    : Nat
  written : Bool
  evicting : Bool
deriving DecidableEq, Repr

/-- A fill in progress (R123): the page, and how often each of its commands failed. -/
structure Fill where
  id    : Nat
  asid  : Nat
  va    : Nat                   -- first address of the page
  pool  : Nat
  port  : Nat                   -- the port that translates it
  map   : Option Nat
  frame : Option Nat            -- the address of its frame, once it has one
  fails : Table Nat             -- failures of each of its commands
deriving DecidableEq, Repr

/-- A write-back or Flush in progress (R124, R127). -/
structure WriteBack where
  id    : Nat
  addr  : Nat                   -- the frame, and the page in it
  asid  : Nat
  va    : Nat
  port  : Nat
  drive : Nat
  lba   : Nat
  flush : Bool                  -- a Flush of the drive
  keep  : Bool                  -- the page stays resident, and a Flush follows (R127)
  await : Bool                  -- of an eviction: a FENCE awaits it, and a Flush follows; of a Flush: its drive has been written since (R127)
  fails : Table Nat
deriving DecidableEq, Repr

/-- A Cellar engine (Tables 7.4 and 23.15). -/
structure Cellar where
  smbase : List W64
  smlim  : List W64
  smlba  : List W64
  smasid : List W64
  fbase  : List W64
  fcount : List W64
  nerr   : Nat
  sc     : Nat
  op     : Nat
  wberr  : Bool
  fillerr : Bool
  erraddr : W64
  errlba  : W64
  erasid  : Nat
  frames : List Frame
  fills  : List Fill
  wbs    : List WriteBack
  unflushed : List Nat          -- drives written and not flushed since
  drives : Table Nat            -- drives whose controllers are ready, and their LBA size
deriving DecidableEq, Repr

/-- A trace block (Table 23.9) and the frame being formed (R383). -/
structure TraceBlk where
  base    : W64
  mask    : W32
  wr      : W32
  rd      : W32
  sample  : Nat
  types   : Nat
  stall   : Bool
  en      : Bool
  lost    : Nat
  seq     : Nat
  payload : List Byte
  tfirst  : Nat
  tlast   : Nat
  dict    : List (BitVec 256)
  nlit    : Nat
  pendLoss : Nat
  heldFrames : List (List Byte)   -- frames that wait for room in stall mode
  wasFull : Bool
  closed  : Nat                 -- frames closed so far
  nextSample : Nat              -- when the next PC sample is due
deriving DecidableEq, Repr

/-- The debug block (Tables 23.5 and 23.12). -/
structure Debug where
  cmd     : W64
  arg0    : W64
  arg1    : W64
  err     : Nat
  precise : Bool
  cancel  : Bool
  gated   : Bool
  done    : Bool
  busy    : Bool
  data    : List Byte
  level   : Nat
  secState : Nat
  authOk  : Bool
  authFail : Bool
  chal    : List Byte
  chalOk  : Bool
  fails   : Nat
  lockout : Nat
  resp    : List Byte
  brk     : Bool
deriving DecidableEq, Repr

/-- The security block (R365, R369). -/
structure Security where
  nonce    : List Byte
  dest     : W64
  busy     : Bool
  done     : Bool
  err      : Nat
  lastNonce : List Byte
  rtvCmd   : List Byte
  rtvBusy  : Bool
  rtvDone  : Bool
  rtvErr   : Nat
  fused    : Bool
  identity : Bool
deriving DecidableEq, Repr

/-- The `ready` block (Table 23.7) as it would stand outside standby. -/
structure Ready where
  field  : BitVec 48
  edge   : W64
  sec    : Bool
  host   : BitVec 4
  link   : BitVec 16
  cellar : BitVec 16
deriving DecidableEq, Repr

/-- A dispatch stream of a link port's press cores (R306, R354). -/
structure PressStream where
  area   : W64
  stride : W64
  next   : Nat
  stop   : Nat
deriving DecidableEq, Repr

/-- A link port (R356). -/
structure LinkPort where
  keyed : Bool
  nonce : Nat
  last  : Nat
deriving DecidableEq, Repr

/-- What an outside agent presents to the machine: who, a register's MMIO offset or a number the event takes,
the length and the bytes written as a number (R361, R374). -/
structure Bus where
  who   : Master
  off   : Nat
  len   : Nat
  value : Nat
deriving DecidableEq, Repr

/-- The instruction register of the test access port (R374). -/
inductive TapIr where
  | idcode | dbgacc
deriving DecidableEq, Repr

/-- What a host port or the test access port asks of the machine (R373, R374). -/
inductive Outside where
  /-- CXL.io through BAR0: the MMIO space. -/
  | barRead (port off len : Nat)
  | barWrite (port off : Nat) (bytes : List Byte)
  /-- CXL.mem: edge memory by device physical address. -/
  | memRead (port addr len : Nat)
  | memWrite (port addr : Nat) (bytes : List Byte)
  /-- The test access port: an instruction loaded, and data read and written under it. -/
  | tapSelect (ir : TapIr)
  | tapRead (off len : Nat)
  | tapWrite (off : Nat) (bytes : List Byte)
deriving DecidableEq, Repr

/-- The machine: the wafer, its memories and everything in flight. -/
structure State where
  now       : Nat                     -- TIME in ns, one cycle each (R1, R357)
  syncAt    : Nat                     -- the last time TIME was disciplined (R357)
  curCore   : Nat                     -- the thread whose instruction executes
  curSlot   : Nat
  bus       : Bus                     -- the transaction of the event that happens
  agenda    : List (Bus × Instr)      -- events that happen next, in order
  timers    : List (Nat × Instr)      -- events at a wafer time
  asked     : List Outside            -- requests of the host ports and the test access port, served in order
  answers   : List (Option (List Byte)) -- what they were answered, the latest first; none where denied
  tap       : TapIr                   -- R374
  freeCount : Nat                     -- where the next free value is read
  nextId    : Nat                     -- the next name of an access, command, message or record
  mem       : List Host.Cell          -- every store, R108, R110, R122
  badMem    : List Nat                -- bytes with an uncorrectable error or poison (R131)
  cores     : Table Core              -- R14
  wafer     : Nat                     -- wafer id assigned by firmware (R345)
  campus    : Nat                     -- campus id of the wafer
  launches  : List Launch             -- R15, in start order
  nextLaunch : Nat
  lqs       : List LQueue             -- R16
  devq      : List (List Launch)      -- R22, device queues by priority
  waitq     : List (Option Launch)    -- heads read from the launch queues and not yet started (R18)
  pre       : PreRegs                 -- R329
  clog      : CollLog                 -- R353
  ready     : Ready                   -- R371
  draining  : List Nat                -- R13
  standby   : Bool                    -- R370
  pwRefused : Bool
  tables    : Table W64               -- access tables, entry 64 × t + e (R362); an unlisted entry is 0
  trace     : List TraceBlk           -- R380, 48
  dbg       : Debug                   -- R374
  security  : Security                -- R365
  press     : List PressStream        -- R361, R306: stream 4 × p + s
  msix      : List Nat                -- vectors signalled, the latest first (R373)
  edges     : List EdgePort           -- R385, 64
  replicas  : List Replica            -- R121
  invWaits  : List InvWait
  cellars   : List Cellar             -- R386, 16
  links     : List LinkPort           -- R356, 16
  net       : List Piece              -- accesses not yet acknowledged (R141)
  wins      : List StreamWin          -- R145
  msgs      : List Msg                -- R275
  evs       : List EvMsg              -- R280
  treeMsgs  : List TreeMsg            -- R296
  colls     : List Coll               -- R305
  touches   : List Touch              -- R340
  ndNotes   : List NdNote             -- R339
deriving DecidableEq, Repr

/-! ## Reset -/

/-- A loop bank with nothing valid (R196). -/
def LoopBank.empty : LoopBank := ⟨0, 0, 0, none, none⟩

/-- A slot at reset (Tables 5.4, 3.4, 17.12, 17.13, R322, R324; log entry 1 for the rest). -/
def Thread.reset : Thread where
  kind := .free
  running := false
  granules := 0
  window := 0
  pend := []
  pos := 0
  pc := 0
  cls := .normal
  status := 0
  fflags := 0
  portcfg := 0
  tvec := 0xFFFFFFFF
  temask0 := 0
  temask1 := 0
  cause := 0
  tval := 0
  epc := 0
  estat := 0
  stvec := 0xFFFFFFFF
  scause := 0
  stval := 0
  sepc := 0
  sestat := 0
  loops := .empty
  bankN := .empty
  bankU := .empty
  bankS := .empty
  rstat := 0
  landings := []
  fences := []
  qin := List.replicate 10 ⟨[], []⟩
  evq := []
  credits := 32
  msgSeq := 0
  hmsg := none
  budget := 0
  digest := 0
  depth := 0
  childIx := 0xFFFFFFFF
  spawner := 0xFFFFFFFF
  parent := none
  since := 0
  spawns := 0
  joins := []
  fmta := 1
  fmtb := 1
  collNum := 0
  colls := []
  launchNum := 0
  detCount := 0
  counters := List.replicate 16 0
  deferred := []
  deferOn := none
  async := []
  pendCause := none
  resumed := false
  wait := none
  held := none
  tried := false
  busyTo := 0
  yieldTo := 0
  yieldFor := []
  drowsy := false
  halted := false
  stepping := false
  bpSkip := []
  vecHeld := false
  passed := 0
  badGroups := []
  own := []
  sync := []
  blockFill := none
  blockErr := false
  issuedIn := 0
  cclass := 0x0E

/-- A BXA block of zeros at E = −32,768 with FL 0 (R242, R244). -/
def zeroBxa : BitVec 2048 := 0x8000#2048 <<< 1536

/-- An empty latch. -/
def Latch.empty : Latch := ⟨false, 1, []⟩

/-- A free matrix slot (R242). -/
def MSlot.empty : MSlot := ⟨none, false, List.replicate 64 zeroBxa, .empty, .empty⟩

/-- The matrix unit with nothing in it; the last holder counts as slot 7 (R243). -/
def Matrix.empty : Matrix := ⟨List.replicate 4 .empty, [], [], none, 7, 0, 0, false, false, []⟩

/-- A copy-engine queue with no command yet (Table 17.6). -/
def EngQueue.empty : EngQueue := ⟨[], false, 0, 0xFFFFFFFF, 0⟩

/-- A comparator that is off. -/
def Comparator.off : Comparator := ⟨false, 0, 0, 0, 0⟩

/-- A core at reset: no bunch on it (log entry 1 for registers with no stated reset value). -/
def Core.reset : Core where
  owner := none
  codelen := 0
  codever := 0
  kbank := List.replicate 16 0
  stage := 0
  round := 0
  rtbase := List.replicate 32 0
  rtlim := List.replicate 32 0
  dlogbase := 0
  dlogidx := 0
  filter := []
  merging := false
  mbxcfg := 0
  mbx := []
  htable := List.replicate 64 0xFFFFFFFF
  hset := false
  ft := []
  mat := .empty
  eng := List.replicate 4 .empty
  taskq := []
  stalled := []
  trees := []
  lastH := 7
  lastT := 7
  lastN := 7
  vecLast := 7
  vecFree := 0
  vecAsk := false
  vecGrant := none
  preempted := false
  comps := List.replicate 4 .off
  stopped := false
  dbgHalt := false
  issued := false
  failed := false
  threads := List.replicate 8 .reset

/-- A launch queue at reset (Table 1.2). -/
def LQueue.reset : LQueue := ⟨0, 0, false, false, 0, false, false, 0, 0, 0, 0, [], none, false⟩

/-- A trace block at reset (Table 23.9). -/
def TraceBlk.reset : TraceBlk where
  base := 0
  mask := 0
  wr := 0
  rd := 0
  sample := 0
  types := 0
  stall := false
  en := false
  lost := 0
  seq := 0
  payload := []
  tfirst := 0
  tlast := 0
  dict := []
  nlit := 0
  pendLoss := 0
  heldFrames := []
  wasFull := false
  closed := 0
  nextSample := 0

/-- An edge port at reset (Table 23.13). -/
def EdgePort.reset : EdgePort := ⟨0, 0, 0, [], []⟩

/-- A Cellar engine at reset (Tables 7.4 and 23.15). -/
def Cellar.reset : Cellar where
  smbase := List.replicate 16 0
  smlim := List.replicate 16 0
  smlba := List.replicate 16 0
  smasid := List.replicate 16 0
  fbase := List.replicate 3 0
  fcount := List.replicate 3 0
  nerr := 0
  sc := 0
  op := 0
  wberr := false
  fillerr := false
  erraddr := 0
  errlba := 0
  erasid := 0
  frames := []
  fills := []
  wbs := []
  unflushed := []
  drives := []

/-- The machine right after reset: every register at the value the spec states, nothing placed, nothing
stored. Values the spec does not state are those of log entry 1. -/
def State.reset : State where
  now := 0
  syncAt := 0
  curCore := 0
  curSlot := 0
  bus := ⟨.firmware, 0, 0, 0⟩
  agenda := []
  timers := []
  asked := []
  answers := []
  tap := .idcode
  freeCount := 0
  nextId := 0
  mem := []
  badMem := []
  cores := []
  wafer := 0
  campus := 0
  launches := []
  nextLaunch := 0
  lqs := List.replicate 16 .reset
  devq := List.replicate 16 []
  waitq := List.replicate 16 none
  pre := ⟨0, 0, 0, 0, 0, false, false, [], 0, 0, 0, 0, 0, []⟩
  clog := ⟨0, 0, 0, 0, false⟩
  ready := ⟨0, 0, false, 0, 0, 0⟩
  draining := []
  standby := false
  pwRefused := false
  tables := []
  trace := List.replicate 48 .reset
  dbg := ⟨0, 0, 0, 0, false, false, false, false, false, List.replicate 256 0, 0, 0, false, false,
    List.replicate 64 0, false, 0, 0, List.replicate 132 0, false⟩
  security := ⟨List.replicate 64 0, 0, false, false, 0, List.replicate 64 0, List.replicate 268 0,
    false, false, 0, false, true⟩
  press := List.replicate 64 ⟨0, 0, 0, 0⟩
  msix := []
  edges := List.replicate 64 .reset
  replicas := []
  invWaits := []
  cellars := List.replicate 16 .reset
  links := List.replicate 16 ⟨false, 0, 0⟩
  net := []
  wins := []
  msgs := []
  evs := []
  treeMsgs := []
  colls := []
  touches := []
  ndNotes := []

end Sys2Proof.Machine
end

