-- ==== Sys2Proof/Machine/Memory.lean ====
section
/-! DEFINITION. The byte store: every memory of the wafer as one canonical list of cells. -/

namespace Sys2Proof.Machine

/-- What an unlisted byte reads as: 0 (R109 for a placed local store; log entry 4 for the rest). -/
def unlisted : Byte := 0#8

namespace Mem

/-- The byte at a key. -/
def read : List Host.Cell → Nat → Byte
  | [], _ => unlisted
  | (j, b) :: r, k => if j = k then b else if k < j then unlisted else read r k

/-- The store with a byte at a key; writing what an unlisted byte reads as removes the entry. -/
def write : List Host.Cell → Nat → Byte → List Host.Cell
  | [], k, b => if b = unlisted then [] else [(k, b)]
  | (j, x) :: r, k, b =>
    if j = k then (if b = unlisted then r else (k, b) :: r)
    else if k < j then (if b = unlisted then (j, x) :: r else (k, b) :: (j, x) :: r)
    else (j, x) :: write r k b

/-- The n bytes from a key. -/
def readN (m : List Host.Cell) (k n : Nat) : List Byte := (List.range n).map fun j => read m (k + j)

/-- The store with bytes written from a key on. -/
def writeN (m : List Host.Cell) (k : Nat) : List Byte → List Host.Cell
  | [] => m
  | b :: bs => writeN (write m k b) (k + 1) bs

/-- The store with the bytes of [k, k + n) as unlisted bytes read. -/
def clear (m : List Host.Cell) (k n : Nat) : List Host.Cell := m.filter fun c => c.1 < k || k + n ≤ c.1

/-- The cells of [k, k + n), numbered from 0. -/
def slice (m : List Host.Cell) (k n : Nat) : List Host.Cell :=
  (m.filter fun c => k ≤ c.1 && c.1 < k + n).map fun c => (c.1 - k, c.2)

/-- The store that holds given cells, of equal keys the first. -/
def ofCells : List Host.Cell → List Host.Cell
  | [] => []
  | c :: r => write (ofCells r) c.1 c.2

/-- The store with [k, k + n) replaced by cells numbered from 0. -/
def splice (m : List Host.Cell) (k n : Nat) (cells : List Host.Cell) : List Host.Cell :=
  (m.filter fun c => c.1 < k) ++ ofCells ((cells.filter fun c => c.1 < n).map fun c => (c.1 + k, c.2)) ++
    m.filter fun c => k + n ≤ c.1

/-- The store with the bytes of [src, src + n) copied to [dst, dst + n), as they stood before. -/
def copy (m : List Host.Cell) (src dst n : Nat) : List Host.Cell :=
  splice m dst n (slice m src n)

/-- The canonical form: keys strictly rising, no entry equal to what an unlisted byte reads as. -/
def wf : List Host.Cell → Bool
  | [] => true
  | [(_, b)] => b != unlisted
  | (j, b) :: (k, x) :: r => b != unlisted && decide (j < k) && wf ((k, x) :: r)

end Mem

/-- Key of byte `o` of core `c`'s local store (R108). -/
def localKey (c o : Nat) : Nat := c * 2 ^ 20 + o

/-- Key of byte `a` of edge port `p`'s DRAM (R110). -/
def edgeKey (p a : Nat) : Nat := 2 ^ 58 + p * 2 ^ 52 + a

/-- Key of byte `a` of host port `h`'s memory (R114). -/
def hostKey (h a : Nat) : Nat := 2 ^ 66 + h * 2 ^ 64 + a

/-- Key of byte `b` of drive `d` of Cellar engine `e` (R122). -/
def driveKey (e d b : Nat) : Nat := 2 ^ 80 + (4 * e + d) * 2 ^ 78 + b

/-- Bytes of a local store (R108). -/
def localSize : Nat := 0xC0000

/-- Offset of the code region (R108). -/
def codeBase : Nat := 0xA8000

/-- Little-endian number of n bytes from a key (R3). -/
def loadN (s : State) (k n : Nat) : Nat := ofBytes (Mem.readN s.mem k n)

/-- The state with the low n bytes of v stored from a key on (R3). -/
def storeN (s : State) (k n v : Nat) : State := { s with mem := Mem.writeN s.mem k (toBytes v n) }

/-- Two runs of bytes share one. -/
def meets (a n b m : Nat) : Bool := a < b + m && b < a + n

/-- Bytes of a page of pool `p` of a Cellar engine (Table 23.15). -/
def poolSize (p : Nat) : Nat := if p = 0 then 2 ^ 16 else if p = 1 then 2 ^ 21 else 2 ^ 30

/-- A frame of engine `e` with the bytes [k, k + n) written: the port has seen a write to it if they meet it (R124). -/
def Frame.seen (e k n : Nat) (f : Frame) : Frame :=
  if meets (edgeKey (4 * e) f.addr) (poolSize f.pool) k n then { f with written := true } else f

/-- The bytes [k, k + n) have been written, whoever wrote them: the frames they meet have been written (R124). -/
def markFrames (k n : Nat) (s : State) : State :=
  { s with cellars := s.cellars.mapIdx fun e (x : Cellar) => { x with frames := x.frames.map (Frame.seen e k n) } }

/-- Some byte of [k, k + n) holds an uncorrectable error or poison (R131). -/
def anyBad (s : State) (k n : Nat) : Bool := s.badMem.any fun a => k ≤ a && a < k + n

end Sys2Proof.Machine
end

