-- ==== Sys2Proof/Machine/Access.lean ====
section
/-! DEFINITION. Reaching into the state: cores, threads, launches and bunches; the agenda and the timers;
free values; coordinates; access tables. -/

namespace Sys2Proof.Machine

open Sys2Proof

/-! ## Cores and threads -/

/-- Core `c`; a core nothing has touched is as at reset. -/
def State.core (s : State) (c : Nat) : Core := Tbl.get s.cores c .reset

/-- The state with core `c` replaced. -/
def State.setCore (s : State) (c : Nat) (k : Core) : State := { s with cores := Tbl.set s.cores c k }

/-- The state with core `c` changed. -/
def State.modCore (s : State) (c : Nat) (f : Core → Core) : State := s.setCore c (f (s.core c))

/-- The state with the cores of a list changed, each once; `f` must leave a core as at reset as it is. -/
def State.modCores (s : State) (cs : List Nat) (f : Core → Core) : State :=
  { s with cores := s.cores.map fun p => if cs.contains p.1 then (p.1, f p.2) else p }

/-- The thread of slot `t` of a core. -/
def Core.thread (k : Core) (t : Nat) : Thread := k.threads.getD t .reset

/-- The core with slot `t` replaced. -/
def Core.setThread (k : Core) (t : Nat) (th : Thread) : Core := { k with threads := k.threads.set t th }

/-- The thread of slot `t` of core `c`. -/
def State.thread (s : State) (c t : Nat) : Thread := (s.core c).thread t

/-- The state with the thread of slot `t` of core `c` replaced. -/
def State.setThread (s : State) (c t : Nat) (th : Thread) : State := s.setCore c ((s.core c).setThread t th)

/-- The state with the thread of slot `t` of core `c` changed. -/
def State.modThread (s : State) (c t : Nat) (f : Thread → Thread) : State := s.setThread c t (f (s.thread c t))

/-- The core whose thread executes. -/
def State.myCore (s : State) : Core := s.core s.curCore

/-- The thread that executes. -/
def State.me (s : State) : Thread := s.thread s.curCore s.curSlot

/-- The state with the executing thread changed. -/
def State.modMe (s : State) (f : Thread → Thread) : State := s.modThread s.curCore s.curSlot f

/-- The state with the executing thread's core changed. -/
def State.modMyCore (s : State) (f : Core → Core) : State := s.modCore s.curCore f

/-- Level of a thread: 0 U, 1 S, 2 F (Table 17.12). -/
def Thread.level (th : Thread) : Nat := bits th.status.toNat 9 2

/-- `status.DET` of a thread. -/
def Thread.det (th : Thread) : Bool := th.status.getLsbD 4

/-- `status.STALECHK` of a thread. -/
def Thread.stalechk (th : Thread) : Bool := th.status.getLsbD 3

/-- `status.FTZ` of a thread. -/
def Thread.ftz (th : Thread) : Bool := th.status.getLsbD 2

/-- A 64-bit register with bits [lo + len − 1 : lo] replaced. -/
def putBits (r : W64) (lo len x : Nat) : W64 := BitVec.ofNat 64 (setBits r.toNat lo len x)

/-- A field of a 64-bit register. -/
def fieldOf (r : W64) (lo len : Nat) : Nat := bits r.toNat lo len

/-- The slices of a thread's window (R51). -/
def Thread.slices (th : Thread) : Nat := 64 * th.granules

/-! ## Coordinates (R5, R11) -/

/-- Columns of the logical mesh. -/
def meshW : Nat := 384

/-- Rows of the logical mesh. -/
def meshH : Nat := 224

/-- Column of a core. -/
def coreX (c : Nat) : Nat := c % 384

/-- Row of a core. -/
def coreY (c : Nat) : Nat := c / 384

/-- The core at a column and row. -/
def coreAt (x y : Nat) : Nat := y * 384 + x

/-- Field FY × 12 + FX of a core (R5, R371). -/
def fieldOfCore (c : Nat) : Nat := coreY c / 56 * 12 + coreX c / 32

/-- Cycles of a hop sequence between two cores in dimension order (R11). -/
def hopCycles (c d : Nat) : Nat :=
  let dx := (coreX c - coreX d) + (coreX d - coreX c)
  let dy := (coreY c - coreY d) + (coreY d - coreY c)
  let fx := (coreX c / 32 - coreX d / 32) + (coreX d / 32 - coreX c / 32)
  let fy := (coreY c / 56 - coreY d / 56) + (coreY d / 56 - coreY c / 56)
  dx + dy + 2 * (fx + fy)

/-- The neighbour of a core in direction 1 N, 2 E, 3 S or 4 W, if it is on the wafer. -/
def neighbour (c dir : Nat) : Option Nat :=
  let x := coreX c
  let y := coreY c
  if dir = 1 then (if 0 < y then some (coreAt x (y - 1)) else none)
  else if dir = 2 then (if x < 383 then some (coreAt (x + 1) y) else none)
  else if dir = 3 then (if y < 223 then some (coreAt x (y + 1)) else none)
  else if dir = 4 then (if 0 < x then some (coreAt (x - 1) y) else none)
  else none

/-! ## Time, agenda, timers, names and free values -/

/-- A timer list with an event added after those of the same time. -/
def addTimer (t : Nat) (i : Instr) : List (Nat × Instr) → List (Nat × Instr)
  | [] => [(t, i)]
  | (u, j) :: r => if t < u then (t, i) :: (u, j) :: r else (u, j) :: addTimer t i r

/-- The state with an event due at a time. -/
def State.atTime (s : State) (t : Nat) (i : Instr) : State := { s with timers := addTimer t i s.timers }

/-- The state with an event due after some cycles. -/
def State.after (s : State) (d : Nat) (i : Instr) : State := s.atTime (s.now + d) i

/-- The state with an event that happens next, after those already waiting. -/
def State.soon (s : State) (i : Instr) : State := { s with agenda := s.agenda ++ [(s.bus, i)] }

/-- The next free value's index, used up. -/
def State.fresh (s : State) : Nat × State := (s.freeCount, { s with freeCount := s.freeCount + 1 })

/-- The state with an event due after an implementation-defined time (R389). -/
def State.later (s : State) (i : Instr) : State :=
  { s.after (Config.delay s.freeCount) i with freeCount := s.freeCount + 1 }

/-- The state with an event due after an implementation-defined time on top of some cycles that it takes at least (R11,
R389). -/
def State.laterBy (s : State) (n : Nat) (i : Instr) : State :=
  { s.after (n + Config.delay s.freeCount) i with freeCount := s.freeCount + 1 }

/-- A free choice (log entry 3). -/
def State.choose (s : State) : Bool × State :=
  (Config.freeBool s.freeCount, { s with freeCount := s.freeCount + 1 })

/-- A new name. -/
def State.newId (s : State) : Nat × State := (s.nextId, { s with nextId := s.nextId + 1 })

/-- The state with an MSI-X vector signalled (R373). -/
def State.signal (s : State) (v : Nat) : State := { s with msix := v :: s.msix }

/-! ## Launches and bunches -/

/-- Field [lo + len − 1 : lo] of descriptor word `k` (Table 1.3). -/
def Desc.field (d : Desc) (k lo len : Nat) : Nat := bits (d.words.getD k 0).toNat lo len

/-- LID. -/
def Desc.lid (d : Desc) : Nat := d.field 1 0 64
/-- CODE. -/
def Desc.code (d : Desc) : Nat := d.field 2 0 64
/-- ENTRY. -/
def Desc.entry (d : Desc) : Nat := d.field 3 32 32
/-- CODELEN. -/
def Desc.codelen (d : Desc) : Nat := d.field 3 0 32
/-- STAGEMODE. -/
def Desc.stagemode (d : Desc) : Nat := d.field 4 36 3
/-- STALECHK. -/
def Desc.stalechk (d : Desc) : Bool := d.field 4 34 1 == 1
/-- PINNED. -/
def Desc.pinned (d : Desc) : Bool := d.field 4 33 1 == 1
/-- DET. -/
def Desc.det (d : Desc) : Bool := d.field 4 32 1 == 1
/-- HWIN + 1: granules of a handler window. -/
def Desc.hwin (d : Desc) : Nat := d.field 4 23 5 + 1
/-- HSLOTS. -/
def Desc.hslots (d : Desc) : Nat := d.field 4 20 3
/-- WIN + 1: granules of a thread window. -/
def Desc.win (d : Desc) : Nat := d.field 4 15 5 + 1
/-- SLOTS + 1: root threads a core. -/
def Desc.roots (d : Desc) : Nat := d.field 4 12 3 + 1
/-- H + 1. -/
def Desc.h (d : Desc) : Nat := d.field 4 6 6 + 1
/-- W + 1. -/
def Desc.w (d : Desc) : Nat := d.field 4 0 6 + 1
/-- ROUNDS. -/
def Desc.rounds (d : Desc) : Nat := d.field 5 32 32
/-- BCOUNT. -/
def Desc.bcount (d : Desc) : Nat := d.field 5 0 32
/-- PRIO. -/
def Desc.prio (d : Desc) : Nat := d.field 6 48 4
/-- ASID. -/
def Desc.asid (d : Desc) : Nat := d.field 6 34 14
/-- RH + 1. -/
def Desc.rh (d : Desc) : Nat := d.field 6 26 8 + 1
/-- RW + 1. -/
def Desc.rw (d : Desc) : Nat := d.field 6 17 9 + 1
/-- Y0. -/
def Desc.y0 (d : Desc) : Nat := d.field 6 9 8
/-- X0. -/
def Desc.x0 (d : Desc) : Nat := d.field 6 0 9
/-- SAVE. -/
def Desc.save (d : Desc) : Nat := d.field 7 0 64
/-- STAGETAB. -/
def Desc.stagetab (d : Desc) : Nat := d.field 8 0 64
/-- ARGS. -/
def Desc.args (d : Desc) : Nat := d.field 9 0 64
/-- REPORT. -/
def Desc.report (d : Desc) : Nat := d.field 10 0 64
/-- k0 to k15. -/
def Desc.kbank (d : Desc) : List W32 :=
  (List.range 16).map fun j => BitVec.ofNat 32 (d.field (16 + j / 2) (32 * (j % 2)) 32)
/-- A descriptor whose fields are all 0. -/
def Desc.empty : Desc := ⟨0, []⟩

/-- A core lies in a launch's region (Table 1.3). -/
def Desc.inRegion (d : Desc) (c : Nat) : Bool :=
  d.x0 ≤ coreX c && coreX c < d.x0 + d.rw && d.y0 ≤ coreY c && coreY c < d.y0 + d.rh

/-- The launch of an id. -/
def State.launch? (s : State) (l : Nat) : Option Launch := s.launches.find? fun x => x.id == l

/-- The state with a launch changed. -/
def State.modLaunch (s : State) (l : Nat) (f : Launch → Launch) : State :=
  { s with launches := s.launches.map fun x => if x.id == l then f x else x }

/-- The descriptor of a launch. -/
def State.desc (s : State) (l : Nat) : Desc := ((s.launch? l).map Launch.desc).getD .empty

/-- Bunch `b` of a launch. -/
def Launch.bunch? (x : Launch) (b : Nat) : Option Bunch := x.bunches.find? fun y => y.idx == b

/-- Bunch `b` of launch `l`. -/
def State.bunch? (s : State) (l b : Nat) : Option Bunch := (s.launch? l).bind (·.bunch? b)

/-- The state with a bunch changed. -/
def State.modBunch (s : State) (l b : Nat) (f : Bunch → Bunch) : State :=
  s.modLaunch l fun x => { x with bunches := x.bunches.map fun y => if y.idx == b then f y else y }

/-- The launch, bunch and in-bunch index that hold a core; 0s where none does. -/
def State.occ (s : State) (c : Nat) : Occ := (s.core c).owner.getD ⟨0, 0, 0⟩

/-- The core a bunch of width `w` from (x, y) has at in-bunch index `i` (R24). -/
def coreOfIndex (x y w i : Nat) : Nat := coreAt (x + i % w) (y + i / w)

/-- Where in-bunch index `i` of a bunch stands now. -/
def State.coreNow (s : State) (l b i : Nat) : Option Nat :=
  match s.launch? l with
  | none => none
  | some x =>
    match x.bunch? b with
    | none => none
    | some y => if y.state = .placed ∨ y.state = .halting then some (coreOfIndex y.x y.y x.desc.w i) else none

/-- The home core of in-bunch index `i` (R49). -/
def State.homeCore (s : State) (l b i : Nat) : Nat :=
  match s.bunch? l b with
  | some y => coreOfIndex y.hx y.hy (s.desc l).w i
  | none => 0

/-- The home of a core's bunch at the core's index: the index every name of it uses (R49). -/
def State.homeOf (s : State) (c : Nat) : Nat :=
  match (s.core c).owner with
  | some o => s.homeCore o.launch o.bunch o.i
  | none => c

/-- A rectangle holds a core; its in-bunch index. -/
def indexIn (x y w h c : Nat) : Option Nat :=
  if x ≤ coreX c ∧ coreX c < x + w ∧ y ≤ coreY c ∧ coreY c < y + h then
    some ((coreY c - y) * w + (coreX c - x)) else none

/-- What a core index of a launch names (R49): the bunch and in-bunch index whose home it is, or the physical core. -/
inductive Named where
  | member (b i : Nat)
  | physical (c : Nat)
deriving DecidableEq, Repr

/-- R49: a core index resolved through a launch's bunch map. -/
def State.resolve (s : State) (l c : Nat) : Named :=
  match s.launch? l with
  | none => .physical c
  | some x =>
    match x.bunches.findSome? fun y =>
        if y.state = .unplaced then none
        else (indexIn y.hx y.hy x.desc.w x.desc.h c).map fun i => (y.idx, i) with
    | some (b, i) => .member b i
    | none => .physical c

/-- A bunch is out (R46): from the request of its halt until its threads may issue again. -/
def Bunch.out (y : Bunch) : Bool := y.state = .halting || y.state = .saved || y.haltAsk

/-- A thread as the agent of its accesses (R141). -/
def State.agent (s : State) (c t : Nat) : Agent :=
  let o := s.occ c
  ⟨o.launch, o.bunch, o.i, t⟩

/-- The executing thread as the agent of its accesses. -/
def State.myAgent (s : State) : Agent := s.agent s.curCore s.curSlot

/-- The ASID of the launch that holds a core. -/
def State.asidOf (s : State) (c : Nat) : Nat := (s.desc (s.occ c).launch).asid

/-- The core and slot where an agent's thread stands now. -/
def State.whereIs (s : State) (a : Agent) : Option (Nat × Nat) :=
  (s.coreNow a.launch a.bunch a.i).map fun c => (c, a.slot)

/-- Where the core that a core index of a launch names stands now (R49). -/
def State.placeNow (s : State) (l c : Nat) : Option Nat :=
  match s.resolve l c with
  | .member b i => s.coreNow l b i
  | .physical d => some d

/-- The least cycles between two cores that may not be on the mesh at present (R11). -/
def hopsBetween (a b : Option Nat) : Nat :=
  match a, b with
  | some c, some d => hopCycles c d
  | _, _ => 0

/-- A core index of a launch names core `c`: a member's, where its bunch stands or stood last, or none's (R49). -/
def State.names (s : State) (l e c : Nat) : Bool :=
  match s.resolve l e with
  | .member b i =>
    match s.launch? l, s.bunch? l b with
    | some x, some y => coreOfIndex y.x y.y x.desc.w i == c
    | _, _ => false
  | .physical d => d == c

/-- The least cycles between a core and the store that a key lies in: the hops to another core (R11). -/
def keyHops (c k : Nat) : Nat := if k < 2 ^ 58 then hopCycles c (k / 2 ^ 20) else 0

/-- The thread of an agent changed, wherever its bunch stands. -/
def State.modAgent (a : Agent) (f : Thread → Thread) (s : State) : State :=
  match s.whereIs a with
  | some (c, t) => s.modThread c t f
  | none => s.modBunch a.launch a.bunch fun y =>
      { y with saved := (List.range y.saved.length).zip y.saved |>.map fun (p : Nat × SavedCore) =>
          if p.1 = a.i then { p.2 with ctx := p.2.ctx.setThread a.slot (f (p.2.ctx.thread a.slot)) } else p.2 }

/-- The words of CRC-32C with the reflected polynomial 0x82F63B78, one bit. -/
def crcBit (v : Nat) : Nat := if v % 2 = 1 then (v / 2) ^^^ 0x82F63B78 else v / 2

/-- CRC-32C of bytes, from a running value. -/
def crcFrom (v : Nat) : List Byte → Nat
  | [] => v
  | b :: bs => crcFrom (Nat.repeat crcBit 8 (v ^^^ b.toNat)) bs

/-- CRC-32C of bytes. -/
def crc32c (bs : List Byte) : Nat := crcFrom 0xFFFFFFFF bs ^^^ 0xFFFFFFFF

/-! ## Readiness and access tables -/

/-- `ready` bit of field `f`. -/
def State.fieldReady (s : State) (f : Nat) : Bool := s.ready.field.getLsbD f && !s.standby

/-- `ready` bit of edge port `p`. -/
def State.edgeReady (s : State) (p : Nat) : Bool := p < 64 && s.ready.edge.getLsbD p && !s.standby

/-- `ready` bit of Cellar engine `e`; clear while edge port 4e is not ready (R372). -/
def State.cellarReady (s : State) (e : Nat) : Bool := s.ready.cellar.getLsbD e && s.edgeReady (4 * e)

/-- `ready` bit of link port `p`; clear while edge port 4p + 2 is not ready (R372). -/
def State.linkReady (s : State) (p : Nat) : Bool := s.ready.link.getLsbD p && s.edgeReady (4 * p + 2)

/-- The field of a core is ready and the core is not failed. -/
def State.coreReady (s : State) (c : Nat) : Bool := s.fieldReady (fieldOfCore c)

/-- The debug level in force: none in standby (Table 23.4). -/
def State.debugLevel (s : State) : Nat := if s.standby then 0 else s.dbg.level

/-- An access table entry matches a master (R363). -/
def entryMatches (e : W64) (m : Master) : Bool :=
  let kind := fieldOf e 60 3
  let lo := fieldOf e 20 14
  let hi := fieldOf e 34 14
  fieldOf e 63 1 == 1 &&
  match m with
  | .thread asid _ => kind == 0 && lo ≤ asid && asid ≤ hi
  | .engine k _ => kind == 1 && lo ≤ k && k ≤ hi
  | .host p => kind == 2 && lo ≤ p && p ≤ hi
  | .debugger => kind == 3
  | .firmware => false

/-- The entries of target `t`'s access table. -/
def State.accessEntries (s : State) (t : Nat) : List W64 := (List.range 64).map fun e => Tbl.get s.tables (64 * t + e) 0

/-- Rights of a master at a target (R363): the first valid entry that matches; none means no rights. Firmware
needs no entry. -/
def State.rights (s : State) (t : Nat) (m : Master) : Nat :=
  match m with
  | .firmware => 0x1F
  | _ =>
    match (s.accessEntries t).find? (entryMatches · m) with
    | some e => fieldOf e 0 5
    | none => 0

/-- RD at a target. -/
def State.mayRead (s : State) (t : Nat) (m : Master) : Bool := (s.rights t m).testBit 0

/-- WR at a target. -/
def State.mayWrite (s : State) (t : Nat) (m : Master) : Bool := (s.rights t m).testBit 1

/-- AT at a target. -/
def State.mayAtomic (s : State) (t : Nat) (m : Master) : Bool := (s.rights t m).testBit 2

/-- WR and AD at a target: a write of a control register. -/
def State.mayControl (s : State) (t : Nat) (m : Master) : Bool :=
  (s.rights t m).testBit 1 && (s.rights t m).testBit 3

/-- LN at the launch block. -/
def State.mayLaunch (s : State) (m : Master) : Bool := (s.rights 97 m).testBit 4

/-! ## Device physical addresses (R17) -/

/-- A device physical address names a ready port and has its upper bits 0 (R17). -/
def State.physOk (s : State) (a : Nat) : Bool := a / 2 ^ 58 == 0 && s.edgeReady (a / 2 ^ 52 % 64)

/-- The [a, a + n) of a device physical address lie in the port's DRAM and hold no poison. -/
def State.physHas (s : State) (a n : Nat) : Bool :=
  let p := a / 2 ^ 52 % 64
  let o := a % 2 ^ 52
  o + n ≤ ((s.edges.getD p .reset).size)

/-- Read of device physical memory by a master; none where it fails (R17). -/
def State.physRead (s : State) (m : Master) (a n : Nat) : Option (List Byte) :=
  let p := a / 2 ^ 52 % 64
  let k := edgeKey p (a % 2 ^ 52)
  if s.physOk a && s.physHas a n && s.mayRead p m && !anyBad s k n then some (Mem.readN s.mem k n) else none

/-- Write of device physical memory by a master; none where it fails (R17, R23). -/
def State.physWrite (s : State) (m : Master) (a : Nat) (bs : List Byte) : Option State :=
  let p := a / 2 ^ 52 % 64
  let k := edgeKey p (a % 2 ^ 52)
  if s.physOk a && s.physHas a bs.length && s.mayWrite p m then
    some (markFrames k bs.length { s with mem := Mem.writeN s.mem k bs,
                                          badMem := s.badMem.filter fun x => !(k ≤ x && x < k + bs.length) }) else none

/-- The bytes of 64-bit words. -/
def wordBytes (ws : List W64) : List Byte := ws.flatMap fun w => toBytes w.toNat 8

end Sys2Proof.Machine
end

