-- ==== Sys2Proof/Machine/Trace.lean ====
section
/-! DEFINITION. Trace: records, tokens, frames and their rings (R380 to R384, R387). -/

namespace Sys2Proof.Machine

open Sys2Proof

/-- A trace ring is full (R384). -/
def TraceBlk.full (b : TraceBlk) : Bool := (b.wr - b.rd).toNat > b.mask.toNat

/-- Trace block `f`. -/
def State.traceBlk (s : State) (f : Nat) : TraceBlk := s.trace.getD f .reset

/-- The state with trace block `f` replaced. -/
def State.setTrace (s : State) (f : Nat) (b : TraceBlk) : State := { s with trace := s.trace.set f b }

/-- Unsigned LEB128 of a number below 2^70. -/
def leb128 : Nat → Nat → List Byte
  | 0, _ => []
  | k + 1, v => if v < 128 then [BitVec.ofNat 8 v] else BitVec.ofNat 8 (v % 128 + 128) :: leb128 k (v / 128)

/-- A record (R381) with its fields. -/
def traceRecord (core slot type time lid codever data : Nat) : BitVec 256 :=
  BitVec.ofNat 256 (core % 2 ^ 17 + slot % 8 * 2 ^ 21 + type % 256 * 2 ^ 24 + time % 2 ^ 64 * 2 ^ 32 +
    lid % 2 ^ 64 * 2 ^ 96 + codever % 2 ^ 32 * 2 ^ 160 + data % 2 ^ 64 * 2 ^ 192)

/-- A record without TIME and DATA. -/
def recordKey (r : BitVec 256) : Nat := bits r.toNat 0 32 + bits r.toNat 96 96 * 2 ^ 32

/-- A frame (Table 23.11). -/
def traceFrame (kind field seq loss tfirst : Nat) (payload : List Byte) : List Byte :=
  let head := toBytes 0x5EA1F00D 4 ++ toBytes payload.length 2 ++ toBytes kind 1 ++ toBytes field 1 ++
    toBytes seq 4 ++ toBytes loss 4 ++ toBytes tfirst 8
  head ++ toBytes (crc32c (head ++ payload)) 4 ++ toBytes 0 4 ++ payload ++ List.replicate (4064 - payload.length) 0

/-- The state with trace block `f` replaced; MSI-X 18 is signalled when its ring becomes full (R384). -/
def putTrace (f : Nat) (b : TraceBlk) (s : State) : State :=
  let s1 := s.setTrace f { b with wasFull := b.full }
  if b.full && !b.wasFull then s1.signal 18 else s1

/-- Writes a frame at BASE + 4,096 × (WR and MASK) as master kind 3 and advances WR (R384). A write that the
target refuses leaves memory as it was (log entry 30). -/
def writeFrame (f : Nat) (bytes : List Byte) (s : State) : State :=
  let b := s.traceBlk f
  let s1 := (s.physWrite (.engine 3 0) (b.base.toNat + 4096 * (b.wr &&& b.mask).toNat) bytes).getD s
  putTrace f { b with wr := b.wr + 1 } s1

/-- The LEES frame of field `f`, if frames have been dropped and there is room (R384). -/
def writeLees (f : Nat) (s : State) : State :=
  let b := s.traceBlk f
  if b.pendLoss = 0 || b.full then s
  else writeFrame f (traceFrame 1 f b.seq b.pendLoss 0 []) (s.setTrace f { b with seq := (b.seq + 1) % 2 ^ 32, pendLoss := 0 })

/-- Frames kept in stall mode are written while there is room (R384). -/
def writeHeld (f : Nat) : List (List Byte) → State → State
  | [], s => s
  | bytes :: rest, s =>
    if (s.traceBlk f).full then s
    else writeHeld f rest (writeFrame f bytes (s.setTrace f { s.traceBlk f with heldFrames := rest }))

/-- What waits for room is written: a LEES frame, then the frames kept (R384). -/
def drainTrace (f : Nat) (s : State) : State :=
  let s1 := writeLees f s
  writeHeld f (s1.traceBlk f).heldFrames s1

/-- Closes the open frame of field `f` (R383, R384), a LEES frame first where one is owed: written, dropped and counted, or
kept until room in stall mode. -/
def closeFrame (f : Nat) (s0 : State) : State :=
  if (s0.traceBlk f).payload.isEmpty then s0 else
  let s := drainTrace f s0
  let b := s.traceBlk f
  let bytes := traceFrame 0 f b.seq 0 b.tfirst b.payload
  let b1 := { b with payload := [], dict := [], nlit := 0, seq := (b.seq + 1) % 2 ^ 32, closed := b.closed + 1 }
  if !b.full then writeFrame f bytes (s.setTrace f b1)
  else if b.stall then s.setTrace f { b1 with heldFrames := b.heldFrames ++ [bytes] }
  else s.setTrace f { b1 with lost := if b.lost + 1 < 2 ^ 32 then b.lost + 1 else b.lost, pendLoss := b.pendLoss + 1 }

/-- The token of a record in a frame: the literal, or a reference to dictionary entry `j` (R383). -/
def traceToken (b : TraceBlk) (j : Option Nat) (r : BitVec 256) : List Byte :=
  match j with
  | none => 0#8 :: toBytes r.toNat 32
  | some j =>
    let e := b.dict.getD j 0
    [BitVec.ofNat 8 (0x80 + j / 256), BitVec.ofNat 8 j] ++ leb128 10 (bits r.toNat 32 64 - b.tlast) ++
      leb128 10 ((bits r.toNat 192 64) ^^^ (bits e.toNat 192 64))

/-- The open frame with a record's token appended; a literal enters the dictionary. -/
def putToken (b : TraceBlk) (j : Option Nat) (r : BitVec 256) : TraceBlk :=
  let t := bits r.toNat 32 64
  let b1 := { b with payload := b.payload ++ traceToken b j r, tlast := t,
                     tfirst := if b.payload.isEmpty then t else b.tfirst }
  match j with
  | some _ => b1
  | none =>
    { b1 with dict := if b.nlit < 4096 then b.dict ++ [r] else b.dict.set (b.nlit % 4096) r, nlit := b.nlit + 1 }

/-- Appends a record to field `f`'s frame (R383); one that does not fit closes the frame first. Whether a record
that a dictionary entry could stand for is written as a literal is a free choice (log entry 30). -/
def appendRecord (f : Nat) (r : BitVec 256) (s : State) : State :=
  let b := s.traceBlk f
  let found := b.dict.findIdx? fun e => recordKey e == recordKey r
  let (short, s0) := if found.isSome && b.tlast ≤ bits r.toNat 32 64 && !b.payload.isEmpty then s.choose else (false, s)
  let j := if short then found else none
  let s1 := if b.payload.length + (traceToken b j r).length ≤ 4064 then s0 else closeFrame f s0
  let b1 := s1.traceBlk f
  if b1.payload.isEmpty then
    (s1.setTrace f (putToken b1 none r)).after 100000 (.traceFrameTimeout f b1.closed)
  else s1.setTrace f (putToken b1 j r)

/-- Records of `type` are formed for the threads of core `c`. -/
def tracing (s : State) (c type : Nat) : Bool :=
  let b := s.traceBlk (fieldOfCore c)
  b.en && b.types.testBit (type - 1)

/-- Forms a record about a slot of a core, if its field's block traces the type (R380, R381). -/
def trace (c t type data : Nat) (s : State) : State :=
  if tracing s c type then
    let lid := match (s.core c).owner with
      | some o => (s.desc o.launch).lid
      | none => 0
    appendRecord (fieldOfCore c) (traceRecord c t type s.now lid (s.core c).codever data) s
  else s

/-- A step of core `c` that formed a record must wait: stall mode and a full ring (R384). -/
def traceHolds (c : Nat) (s s' : State) : Bool :=
  let b := s.traceBlk (fieldOfCore c)
  b.en && b.stall && b.full && decide (b ≠ s'.traceBlk (fieldOfCore c))

end Sys2Proof.Machine
end

