-- ==== Sys2Proof/Machine/Ops.lean ====
section
/-! DEFINITION. The named operations on threads and bunches: the nondeterminism cause log, the cause codes, the
request of a halt, taking a cause and returning from one (R322 to R328, R339). -/

namespace Sys2Proof.Machine

open Sys2Proof

/-! ## Cause codes (Table 19.3) -/

namespace Cause
/-- Table 19.3. -/
def illegalOp : Nat := 0x00
/-- Table 19.3. -/
def illegalRsvd : Nat := 0x01
/-- Table 19.3. -/
def illegalFill : Nat := 0x02
/-- Table 19.3. -/
def illegalOperand : Nat := 0x03
/-- Table 19.3. -/
def illegalCsr : Nat := 0x04
/-- Table 19.3. -/
def privOp : Nat := 0x05
/-- Table 19.3. -/
def csrPriv : Nat := 0x06
/-- Table 19.3. -/
def windowRange : Nat := 0x07
/-- Table 19.3. -/
def fetchRange : Nat := 0x08
/-- Table 19.3. -/
def staleRead : Nat := 0x09
/-- Table 19.3. -/
def staleWrite : Nat := 0x0A
/-- Table 19.3. -/
def sliceEcc : Nat := 0x0B
/-- Table 19.3. -/
def loopDepth : Nat := 0x0C
/-- Table 19.3. -/
def repTarget : Nat := 0x0D
/-- Table 19.3. -/
def handlerBudget : Nat := 0x0E
/-- Table 19.3. -/
def handlerExit : Nat := 0x0F
/-- Table 19.3. -/
def handlerWait : Nat := 0x10
/-- Table 19.3. -/
def taskLimit : Nat := 0x11
/-- Table 19.3. -/
def taskJoin : Nat := 0x12
/-- Table 19.3. -/
def barCount : Nat := 0x13
/-- Table 19.3. -/
def matrixSlot : Nat := 0x14
/-- Table 19.3. -/
def matrixBusy : Nat := 0x15
/-- Table 19.3. -/
def matrixLive : Nat := 0x16
/-- Table 19.3. -/
def matrixEmpty : Nat := 0x17
/-- Table 19.3. -/
def softTrap : Nat := 0x18
/-- Table 19.3. -/
def syscall : Nat := 0x19
/-- Table 19.3. -/
def breakpoint : Nat := 0x1A
/-- Table 19.3. -/
def trapNest : Nat := 0x1C
/-- Table 19.3. -/
def rangeMiss : Nat := 0x20
/-- Table 19.3. -/
def accessPerm : Nat := 0x21
/-- Table 19.3. -/
def accessDenied : Nat := 0x22
/-- Table 19.3. -/
def edgePage : Nat := 0x23
/-- Table 19.3. -/
def edgePerm : Nat := 0x24
/-- Table 19.3. -/
def remoteAbsent : Nat := 0x25
/-- Table 19.3. -/
def codeWrite : Nat := 0x26
/-- Table 19.3. -/
def memEcc : Nat := 0x27
/-- Table 19.3. -/
def storageIo : Nat := 0x28
/-- Table 19.3. -/
def atomicAlign : Nat := 0x29
/-- Table 19.3. -/
def atomicTarget : Nat := 0x2A
/-- Table 19.3. -/
def matrixAddr : Nat := 0x2B
/-- Table 19.3. -/
def portWidth : Nat := 0x40
/-- Table 19.3. -/
def portEdge : Nat := 0x41
/-- Table 19.3. -/
def msgTarget : Nat := 0x42
/-- Table 19.3. -/
def msgLen : Nat := 0x43
/-- Table 19.3. -/
def msgAddr : Nat := 0x44
/-- Table 19.3. -/
def msgReply : Nat := 0x45
/-- Table 19.3. -/
def mbxBusy : Nat := 0x46
/-- Table 19.3. -/
def evqFull : Nat := 0x47
/-- Table 19.3. -/
def treeState : Nat := 0x48
/-- Table 19.3. -/
def reduceTimeout : Nat := 0x49
/-- Table 19.3. -/
def collReq : Nat := 0x4A
/-- Table 19.3. -/
def preempt : Nat := 0x50
/-- Table 19.3. -/
def pageSwap : Nat := 0x51
/-- Table 19.3. -/
def watchdog : Nat := 0x52
/-- Table 19.3. -/
def mchkCore : Nat := 0x53
/-- Table 19.3. -/
def mchkLink : Nat := 0x54
/-- Table 19.3. -/
def mchkResend : Nat := 0x55
/-- Table 19.3. -/
def saveFail : Nat := 0x56
/-- Table 19.3. -/
def timeSkew : Nat := 0x57
end Cause

/-! ## The nondeterminism cause log (R339) -/

/-- An `ndc` entry (Table 21.3). -/
def ndcEntry (count pc code : Nat) : W64 := BitVec.ofNat 64 (count * 2 ^ 40 + pc % 2 ^ 32 * 2 ^ 8 + code)

/-- The log of a bunch with one event, and the entry it was counted in (R339). -/
def ndcAdd (entries : List W64) (code pc : Nat) : Option (List W64 × W64) :=
  match entries.findIdx? fun e => fieldOf e 0 8 == code && fieldOf e 8 32 == pc with
  | some k =>
    let n := fieldOf (entries.getD k 0) 40 24
    let e := ndcEntry (if n + 1 < 2 ^ 24 then n + 1 else n) pc code
    some (entries.set k e, e)
  | none =>
    match entries.findIdx? fun e => fieldOf e 0 8 == 0 with
    | some k => some (entries.set k (ndcEntry 1 pc code), ndcEntry 1 pc code)
    | none => none

/-- Logs an event of Table 21.2 for a thread (R339), and traces it (R381). -/
def logNd (a : Agent) (code : Nat) (pc : W32) (s : State) : State :=
  match s.bunch? a.launch a.bunch with
  | none => s
  | some y =>
    match ndcAdd y.ndc code pc.toNat with
    | some (es, e) =>
      let s1 := s.modBunch a.launch a.bunch fun y => { y with ndc := es }
      match s.whereIs a with
      | some (c, t) => trace c t 6 e.toNat s1
      | none => s1
    | none => s.modBunch a.launch a.bunch fun y => { y with ndOvf := true }

/-- An event of Table 21.2 found at a target: it is logged once its news has reached the thread's core, `n` cycles away at
the least (R11, R339). -/
def noteNd (n : Nat) (a : Agent) (code : Nat) (pc : W32) (s : State) : State :=
  { s with ndNotes := s.ndNotes ++ [⟨s.now + n + Config.delay s.freeCount, a, code, pc⟩], freeCount := s.freeCount + 1 }

/-- The events of Table 21.2 whose news has come are logged. -/
def deliverNotes (s : State) : State :=
  (s.ndNotes.filter fun x => x.due ≤ s.now).foldl (fun s x => logNd x.who x.code x.pc s)
    { s with ndNotes := s.ndNotes.filter fun x => s.now < x.due }

/-! ## Halting a bunch (R330) -/

/-- A bunch holds a member of a node's tree. -/
def TreeNode.reaches (s : State) (l b : Nat) (n : TreeNode) : Bool :=
  n.table.any fun p => match s.resolve l p.1 with
    | .member c _ => c == b
    | .physical _ => false

/-- A core's context with the nodes of its trees changed. -/
def Core.mapNodes (f : TreeNode → TreeNode) (k : Core) : Core :=
  { k with trees := k.trees.map fun p => match p.2 with
      | .installed n => (p.1, .installed (f n))
      | .aborted _ => p }

/-- The state with the nodes of a launch's trees changed, those of bunches swapped out included. -/
def State.mapNodes (s : State) (l : Nat) (f : TreeNode → TreeNode) : State :=
  ({ s with cores := s.cores.map fun (p : Nat × Core) =>
      if p.2.owner.any fun o => o.launch == l then (p.1, p.2.mapNodes f) else p } : State).modLaunch l fun x =>
    { x with bunches := x.bunches.map fun (y : Bunch) =>
        { y with saved := y.saved.map fun (v : SavedCore) => { v with ctx := v.ctx.mapNodes f } } }

/-- A bunch goes out: the timeouts of every tree with a member in it are suspended (R297). -/
def pauseTrees (l b : Nat) (s : State) : State :=
  s.mapNodes l fun n => if n.pausedAt.isNone && n.reaches s l b then { n with pausedAt := some s.now } else n

/-- Requests a halt of a bunch: it reaches each core over CTL after an implementation-defined time below 2 µs. A
bunch whose halt is already requested keeps its first cause. -/
def requestHalt (l b cause fault : Nat) (s : State) : State :=
  match s.launch? l with
  | none => s
  | some x =>
    match x.bunch? b with
    | none => s
    | some y =>
      if y.state = .placed ∧ y.haltAsk = false then
        let s1 := s.modBunch l b fun y => { y with haltAsk := true, haltAt := 0, haltCause := cause, fault := fault }
        (List.range (x.desc.w * x.desc.h)).foldl (fun s i =>
          let (k, s) := s.fresh
          s.after (Config.delay k % 2000) (.bunchHalt (coreOfIndex y.x y.y x.desc.w i))) (pauseTrees l b s1)
      else s

/-- A Fatal cause ends its launch (R335): the first one is kept, and the launch ends next. -/
def raiseFatal (l b slot core : Nat) (r : Raised) (s : State) : State :=
  (s.modLaunch l fun x => { x with fatal := x.fatal.orElse fun _ => some (r, b, slot, core) }).soon (.launchComplete l)

/-! ## Taking a cause (R322, R323) -/

/-- Where a cause goes (R322); `nest` is a cause in trap class at S (R323). -/
inductive Place where
  | toU | toS | unhandled | nest
deriving DecidableEq, Repr

/-- The mask bit of a cause in `temask0` and `temask1` (Table 17.11). -/
def Thread.masked (th : Thread) (cause : Nat) : Bool :=
  if cause < 0x40 then th.temask0.getLsbD cause else th.temask1.getLsbD (cause - 0x40)

/-- R322: the first place that applies. -/
def Thread.place (th : Thread) (cause : Nat) : Place :=
  if th.cls = .trap ∧ th.level = 1 then .nest
  else if th.cls = .normal ∧ th.level = 0 ∧ th.masked cause = true ∧ fieldOf th.tvec 0 32 ≠ 0xFFFFFFFF ∧
      cause ≠ Cause.syscall ∧ cause ≠ Cause.watchdog then .toU
  else if fieldOf th.stvec 0 32 ≠ 0xFFFFFFFF then .toS
  else .unhandled

/-- PCLASS code of a class (Table 19.1). -/
def TClass.code : TClass → Nat
  | .normal => 0
  | .handler => 1
  | .trap => 2
  | .ended => 3

/-- The loop bank of a class and level: three banks, handler class sharing the normal one (R323). -/
def Thread.bank (th : Thread) (cls : TClass) (lvl : Nat) : LoopBank :=
  if cls = .trap then (if lvl = 0 then th.bankU else th.bankS) else th.bankN

/-- The context of a thread: the loop bank it uses. -/
def Thread.context (th : Thread) : Nat := if th.cls = .trap then 1 + th.level else 0

/-- The comparators that a thread's issue does not lift the skip of: those that fired in another context (R378). -/
def Thread.unskipped (th : Thread) : List BreakSkip := th.bpSkip.filter fun e => e.ctx ≠ th.context

/-- The thread with its loop state put into the bank of its class and level. -/
def Thread.putBank (th : Thread) : Thread :=
  if th.cls = .trap then (if th.level = 0 then { th with bankU := th.loops } else { th with bankS := th.loops })
  else { th with bankN := th.loops }

/-- `estat` or `sestat` of an entry (Table 19.1). -/
def estatWord (th : Thread) (r : Raised) : W64 :=
  BitVec.ofNat 64 (r.fpc.toNat * 2 ^ 32 + b2n r.async * 2 ^ 23 + b2n r.defer * 2 ^ 22 + r.tag % 8 * 2 ^ 19 +
    th.level * 2 ^ 10 + th.cls.code * 2 ^ 8)

/-- Trap entry to level `lvl` (R323): saved registers, a fresh loop bank, level, class and PC; 8 positions (R157). -/
def Thread.enter (th : Thread) (lvl : Nat) (r : Raised) : Thread :=
  let e := estatWord th r
  let th1 := th.putBank
  let th2 := if lvl = 0 then
      { th1 with cause := BitVec.ofNat 64 r.cause, tval := BitVec.ofNat 64 r.tval,
                 epc := r.resume.setWidth 64, estat := e, pc := th.tvec.setWidth 32 }
    else
      { th1 with scause := BitVec.ofNat 64 r.cause, stval := BitVec.ofNat 64 r.tval,
                 sepc := r.resume.setWidth 64, sestat := e, pc := th.stvec.setWidth 32 }
  { th2 with loops := .empty, status := putBits th.status 9 2 lvl, cls := .trap, pos := th.pos + 8,
             wait := none, pendCause := none, resumed := false, stepping := false, halted := th.halted || th.stepping }

/-- The bunch of a core halts for a cause of a slot, with a trap notice to come (R334). -/
def haltNotice (c t : Nat) (notice : Raised) (s : State) : State :=
  let o := s.occ c
  requestHalt o.launch o.bunch notice.cause 0
    (s.modBunch o.launch o.bunch fun y => { y with trapped := y.trapped ++ [(notice, o.i, t)] })

/-- An unhandled cause of a slot (R322 place 3, R334), or TRAP_NEST: the cause stays pending, with its resume PC
as the PC of the record, and the bunch halts. -/
def unhandled (c t : Nat) (r : Raised) (notice : Raised) (s : State) : State :=
  haltNotice c t notice (s.modThread c t fun th =>
    { th with pendCause := some r, resumed := false, wait := none, pc := r.resume })

/-- Takes a cause in a slot (R322, R323): entry at U or S, or an unhandled cause. Entry is traced (R381). -/
def takeCause (c t : Nat) (r : Raised) (s : State) : State :=
  let th := s.thread c t
  match th.place r.cause with
  | .toU => trace c t 3 (r.cause % 256 + r.tval % 2 ^ 56 * 256) (s.setThread c t (th.enter 0 r))
  | .toS => trace c t 3 (r.cause % 256 + r.tval % 2 ^ 56 * 256) (s.setThread c t (th.enter 1 r))
  | .unhandled => unhandled c t r r s
  | .nest => unhandled c t r { r with cause := Cause.trapNest, tval := r.cause } s

/-- A synchronous cause of the executing thread at its PC with a given resume PC. -/
def takeSync (cause tval : Nat) (resume : W32) (s : State) : State :=
  takeCause s.curCore s.curSlot ⟨cause, tval, resume, s.me.pc, false, false, 0⟩ s

/-! ## Faults found after issue (R326) -/

/-- A deferred fault of a thread; a thread that has ended cannot take it, so its bunch halts (R326). A program that
has started in the slot since then does not receive it. -/
def raiseDeferred (a : Agent) (d : Deferred) (s : State) : State :=
  match s.whereIs a with
  | none => s
  | some (c, t) =>
    let th := s.thread c t
    let r : Raised := ⟨d.cause, d.tval, th.pc, d.fpc, false, true, d.tag⟩
    if th.running && th.since ≤ d.order then s.setThread c t { th with deferred := th.deferred ++ [d] }
    else if th.running then haltNotice c t r s
    else unhandled c t r r (s.setThread c t { th with cls := .ended })

/-! ## Returning from a trap (R325) -/

/-- The status word ERET reads: `estat` at U, else `sestat`. -/
def Thread.returnWord (th : Thread) : W64 := if th.level = 0 then th.estat else th.sestat

/-- PLEVEL of the word ERET reads. -/
def Thread.plevel (th : Thread) : Nat := fieldOf th.returnWord 10 2

/-- PCLASS of the word ERET reads. -/
def Thread.pclass (th : Thread) : Nat := fieldOf th.returnWord 8 2

/-- ERET is admitted (R325). -/
def Thread.mayReturn (th : Thread) : Bool :=
  th.plevel ≤ th.level && th.pclass ≠ 3 && !(th.pclass == 1 && th.kind ≠ .handler) && !(th.pclass == 2 && th.level == 0)

/-- The class a PCLASS code restores. -/
def classOfCode (n : Nat) : TClass := if n = 0 then .normal else if n = 1 then .handler else .trap

/-- The cause register of the level ERET leaves. -/
def Thread.returnCause (th : Thread) : Nat := if th.level = 0 then th.cause.toNat else th.scause.toNat

/-- The tval register of the level ERET leaves. -/
def Thread.returnTval (th : Thread) : Nat := if th.level = 0 then th.tval.toNat else th.stval.toNat

/-- The PC ERET restores. -/
def Thread.returnPc (th : Thread) : W32 := (if th.level = 0 then th.epc else th.sepc).setWidth 32

/-- The return from a trap (R325): level, class, loop bank and PC; 8 positions. The budget restarts after
HANDLER_BUDGET (R36); the next deferred fault may be taken (R326). -/
def Thread.returned (th : Thread) : Thread :=
  let cls := classOfCode th.pclass
  let th1 := th.putBank
  { th1 with status := putBits th.status 9 2 th.plevel, cls := cls, loops := th1.bank cls th.plevel,
             pc := th.returnPc, pos := th.pos + 8,
             budget := if cls = .handler ∧ th.returnCause = Cause.handlerBudget then 0 else th.budget,
             bpSkip := th.unskipped,
             deferOn := if fieldOf th.returnWord 22 1 = 1 ∨ cls ≠ .trap then none else th.deferOn }

end Sys2Proof.Machine
end

