-- ==== Sys2Proof/Machine/Operands.lean ====
section
/-! DEFINITION. Operand forms: widths, ranges, the window as an instruction reads it, special operands, extension,
and writes to the window (R51 to R60, R156, R160, R161, R199). -/

namespace Sys2Proof.Machine

open Sys2Proof

/-! ## Operands of one repetition -/

/-- What an operand names in one repetition (R199): `n` slices from `st`, a flag, or a special operand. -/
inductive Loc where
  | slices (st n : Nat)
  | flag (k : Nat)
  | zero
  | kbank (k : Nat)
  | port (q : Nat)
  | tid
  | xy
  | bunch
  | stage
  | time
deriving DecidableEq, Repr

/-- Width of a slice or flag operand (Table 3.2); none for a special operand (R59). -/
def opndWidth : Opnd → Option Nat
  | .slice wc _ => some (4 * 2 ^ wc.toNat)
  | .flag _ => some 1
  | _ => none

/-- The operand of repetition `k`; `adv` is its ENA bit (R199). -/
def opndAt (adv : Bool) (k : Nat) : Opnd → Loc
  | .slice wc st => .slices (st.toNat + if adv then k * 2 ^ wc.toNat else 0) (2 ^ wc.toNat)
  | .flag f => .flag (f.toNat + if adv then k else 0)
  | .zero => .zero
  | .kbank j => .kbank j.toNat
  | .port q => .port q.toNat
  | .tid => .tid
  | .xy => .xy
  | .bunch => .bunch
  | .stage => .stage
  | .time => .time

/-- The wider of two optional widths. -/
def widerOf : Option Nat → Option Nat → Option Nat
  | some x, some y => some (Nat.max x y)
  | some x, none => some x
  | none, y => y

/-- R59 without a fixed width: D's width, else the largest of A and B, else 32. -/
def opWidth (v : View) : Nat :=
  match v.d.bind opndWidth with
  | some w => w
  | none => (widerOf (v.a.bind opndWidth) (v.b.bind opndWidth)).getD 32

/-- The operand is a flag. -/
def isFlag : Option Opnd → Bool
  | some (.flag _) => true
  | _ => false

/-- The operand is a slice range. -/
def isSlice : Option Opnd → Bool
  | some (.slice _ _) => true
  | _ => false

/-- The operand is a port. -/
def isPort : Option Opnd → Bool
  | some (.port _) => true
  | _ => false

/-- The width of a slice operand; 0 for any other. -/
def sliceWidth : Option Opnd → Nat
  | some (.slice wc _) => 4 * 2 ^ wc.toNat
  | _ => 0

/-- The window bits a location names: its lowest bit and how many (R52, R53). -/
def Loc.range : Loc → Option (Nat × Nat)
  | .slices st n => some (4 * st, 4 * n)
  | .flag k => some (k, 1)
  | _ => none

/-- The window bits of a location as a mask. -/
def Loc.mask (l : Loc) : Nat :=
  match l.range with
  | some (lo, len) => (2 ^ len - 1) <<< lo
  | none => 0

/-- A slice location lies in a window of `slices` slices (R57). -/
def Loc.inWindow (slices : Nat) : Loc → Bool
  | .slices st n => st + n ≤ slices
  | _ => true

/-- tval of a slice range (R57); a start beyond ST's 11 bits is cut to them (log entry 75). -/
def rangeTval (st n : Nat) : Nat := st % 2 ^ 11 + n % 2 ^ 11 * 2 ^ 16

/-- tval of WINDOW_RANGE for a location. -/
def Loc.tval : Loc → Nat
  | .slices st n => rangeTval st n
  | _ => 0

/-- The extra cycle of R57: the slices touch more granules than ceil(n / 64). -/
def Loc.extra : Loc → Nat
  | .slices st n => if (st + n - 1) / 64 - st / 64 + 1 > (n + 63) / 64 then 1 else 0
  | _ => 0

/-! ## The window an instruction reads -/

/-- A pending result is visible to an instruction at `pos` with distance `dist` (R156); a repetition sees the
writes of the repetitions before it (R63). -/
def Pending.visible (p : Pending) (pos dist : Nat) : Bool :=
  let d := pos - p.pos
  d == 0 || p.lat ≤ d || (dist ≠ 0 && dist ≤ d)

/-- An image with the bits of a mask taken from a value. -/
def blend (img mask value : Nat) : Nat := (img - (img &&& mask)) ||| (value &&& mask)

/-- The window as read through pending results, the oldest first: bits of a result that is not visible read as
they stood before it, whatever later results wrote (R156; log entry 5). -/
def viewFrom (pos dist : Nat) : List Pending → Nat → Nat → Nat
  | [], img, _ => img
  | p :: ps, img, hidden =>
    if p.pos = pos then viewFrom pos dist ps (blend img p.mask.toNat p.value.toNat) hidden
    else if p.visible pos dist then
      let m := p.mask.toNat - (p.mask.toNat &&& hidden)
      viewFrom pos dist ps (blend img m p.value.toNat) hidden
    else viewFrom pos dist ps img (hidden ||| p.mask.toNat)

/-- The window as an instruction at `pos` with distance `dist` reads it. -/
def Thread.view (th : Thread) (pos dist : Nat) : Nat := viewFrom pos dist th.pend th.window.toNat 0

/-- The leading pending results that every instruction from `pos` on reads, folded into the window. -/
def absorb (pos : Nat) : List Pending → BitVec 8192 → List Pending × BitVec 8192
  | [], w => ([], w)
  | p :: ps, w =>
    if p.pos + p.lat ≤ pos then absorb pos ps ((w &&& ~~~p.mask) ||| (p.value &&& p.mask)) else (p :: ps, w)

/-- The thread with settled results folded into its window. -/
def Thread.settle (th : Thread) : Thread :=
  let (ps, w) := absorb th.pos th.pend th.window
  { th with pend := ps, window := w }

/-- The window with every pending result in it: what a save or a debugger reads (R157, R332). -/
def Thread.allWritten (th : Thread) : BitVec 8192 :=
  th.pend.foldl (fun w p => (w &&& ~~~p.mask) ||| (p.value &&& p.mask)) th.window

/-- The groups with an uncorrectable error that a write of some window bits leaves: those it does not replace (R67). -/
def Thread.badAfter (th : Thread) (mask : BitVec 8192) : List Nat :=
  th.badGroups.filter fun g => bits mask.toNat (64 * g) 64 ≠ 2 ^ 64 - 1

/-- The thread with window bits [lo, lo + len) written at once, over every pending result (a landing, R161). -/
def Thread.landBits (th : Thread) (mask value : BitVec 8192) : Thread :=
  { th with window := (th.window &&& ~~~mask) ||| (value &&& mask),
            pend := th.pend.map fun p => { p with mask := p.mask &&& ~~~mask },
            badGroups := th.badAfter mask }

/-- The thread with a fixed-class write at its position, joined to the one before it at the same position. -/
def Thread.addPending (th : Thread) (p : Pending) : Thread :=
  match th.pend.getLast? with
  | some q =>
    if q.pos = p.pos ∧ q.lat = p.lat then
      { th with pend := th.pend.dropLast ++
        [{ q with mask := q.mask ||| p.mask, value := (q.value &&& ~~~p.mask) ||| (p.value &&& p.mask), ready := p.ready }] }
    else { th with pend := th.pend ++ [p] }
  | none => { th with pend := [p] }

/-! ## Tags (R158 to R161) -/

/-- A tag is busy: a result of it is still on its way, or a repetition of its producer may still make one. -/
def Thread.tagBusy (th : Thread) (k : Nat) : Bool :=
  th.landings.any (fun l => l.tag == k) || th.fences.any (fun f => f.tag == k)

/-- The busy tags of a mask whose bit k − 1 names tk, as DETAIL of reason 1 (R47). -/
def Thread.busyOf (th : Thread) (mask : Nat) : Nat :=
  ((List.range 7).map fun j => if mask.testBit j && th.tagBusy (j + 1) then 2 ^ (j + 1) else 0).sum

/-- A tag is busy by an instruction at another position than `pos`. -/
def Thread.tagBusyElse (th : Thread) (k pos : Nat) : Bool :=
  th.landings.any (fun l => l.tag == k && l.pos ≠ pos) || th.fences.any (fun f => f.tag == k)

/-- The window bits whose results busy tags outside a WAIT mask still await, but those of the instruction at `pos` itself: a
result that has landed is read as it stands (R160). -/
def Thread.awaited (th : Thread) (mask pos : Nat) : Nat :=
  th.landings.foldl (fun m l =>
    if !l.landed && l.pos ≠ pos && !(l.tag ≠ 0 && mask.testBit (l.tag - 1)) then m ||| l.cover.toNat else m) 0

/-- The window bits that busy tags outside a WAIT mask cover, but those of the instruction at `pos` itself (R161, R199). -/
def Thread.cover (th : Thread) (mask pos : Nat) : Nat :=
  th.landings.foldl (fun m l =>
    if l.pos ≠ pos && !(l.tag ≠ 0 && mask.testBit (l.tag - 1)) then m ||| l.cover.toNat else m) 0

/-- The busy tags outside position `pos` that cover some of the bits of a mask, as DETAIL of reason 1. -/
def Thread.coveringTags (th : Thread) (m pos : Nat) : Nat :=
  th.landings.foldl (fun r l => if l.pos ≠ pos && (l.cover.toNat &&& m) ≠ 0 then r ||| 2 ^ l.tag else r) 0

/-- First slice and count of the slices of [st, st + n) some bit of which a mask holds. -/
def coveredSlices (m st n : Nat) : Option (Nat × Nat) :=
  match (List.range n).filter fun j => bits m (4 * (st + j)) 4 ≠ 0 with
  | [] => none
  | j :: js => some (st + j, 1 + js.length)

/-- The slices of a location that a mask covers, as tval of STALE_READ and STALE_WRITE (R160). -/
def Loc.staleTval (m : Nat) : Loc → Option Nat
  | .slices st n => (coveredSlices m st n).map fun p => rangeTval p.1 p.2
  | .flag k => if m.testBit k then some (rangeTval (k / 4) 1) else none
  | _ => none

/-- The first of the groups with an uncorrectable error that a read of a location finds (R67). -/
def Thread.badRead (th : Thread) (l : Loc) : Option Nat :=
  match l.range with
  | some (lo, len) => th.badGroups.find? fun g => lo < 64 * g + 64 && 64 * g < lo + len
  | none => none

/-- The first of the groups with an uncorrectable error that a write of a location covers only in part (R67). -/
def Thread.badWrite (th : Thread) (l : Loc) : Option Nat :=
  match l.range with
  | some (lo, len) => th.badGroups.find? fun g =>
      (lo < 64 * g + 64 && 64 * g < lo + len) && !(lo ≤ 64 * g && 64 * g + 64 ≤ lo + len)
  | none => none

/-! ## Reading a source -/

/-- Extension of an n-bit source to `w` bits (R60): `x` extends with zeros. -/
def extend (v n w : Nat) (x : Bool) : Nat := if w ≤ n then trunc v w else if x then v else sext v n w

/-- TID of a thread (Table 1.6). -/
def tidOf (s : State) (c t : Nat) : Nat :=
  let th := s.thread c t
  let o := s.occ c
  let d := s.desc o.launch
  match th.kind with
  | .task => 0x80000000 + th.digest.toNat % 2 ^ 31
  | .handler => 0x40000000 + (t - d.roots)
  | _ => trunc (o.i * d.roots + t) 32

/-- XY of a core: its home coordinates (Table 1.6, R49). -/
def xyOf (s : State) (c : Nat) : Nat := coreX (s.homeOf c) + coreY (s.homeOf c) * 2 ^ 16

/-- Natural width of a special operand (Table 3.3); 0 for one that takes the operation width. -/
def Loc.naturalWidth : Loc → Nat
  | .slices _ n => 4 * n
  | .flag _ => 1
  | .kbank _ | .tid | .xy | .bunch | .stage => 32
  | .time => 64
  | .zero | .port _ => 0

/-- The value a location holds before extension, in a window image and with the value a port source popped. -/
def rawRead (s : State) (c t img popped : Nat) : Loc → Nat
  | .slices st n => bits img (4 * st) (4 * n)
  | .flag k => bits img k 1
  | .zero => 0
  | .kbank k => ((s.core c).kbank.getD k 0).toNat
  | .port _ => popped
  | .tid => trunc (tidOf s c t) 32
  | .xy => trunc (xyOf s c) 32
  | .bunch => trunc (s.occ c).bunch 32
  | .stage => (s.core c).stage.toNat
  | .time => trunc s.now 64

/-- A source brought to `w` bits (R60). -/
def readLoc (s : State) (c t img popped : Nat) (l : Loc) (w : Nat) (x : Bool) : Nat :=
  match l with
  | .flag _ => trunc (rawRead s c t img popped l) w
  | .zero => 0
  | .port _ => trunc popped w
  | _ => extend (rawRead s c t img popped l) l.naturalWidth w x

/-- A source of lanes of width `lw` (R60, R204): one narrower than `w` supplies only its whole lanes. -/
def readLanes (s : State) (c t img popped : Nat) (l : Loc) (w lw : Nat) : Nat :=
  match l with
  | .zero => 0
  | .port _ => trunc popped w
  | _ =>
    let n := l.naturalWidth
    let v := rawRead s c t img popped l
    if w ≤ n then trunc v w else trunc v (n / lw * lw)

/-! ## Writing a destination -/

/-- One write of an instruction: window bits, or a push of `w` bits. -/
inductive Write where
  | win (lo len v : Nat)
  | push (q w v : Nat)
deriving DecidableEq, Repr

/-- The write of a `w`-bit value to a destination: a slice range takes its own width (R59), ZERO takes none. -/
def writeLoc (l : Loc) (w v : Nat) : List Write :=
  match l with
  | .slices st n => [.win (4 * st) (4 * n) (trunc v (4 * n))]
  | .flag k => [.win k 1 (trunc v 1)]
  | .port q => [.push q w (trunc v w)]
  | _ => []

/-- An image with a write in it. -/
def applyWin (img : Nat) : Write → Nat
  | .win lo len v => setBits img lo len v
  | .push _ _ _ => img

end Sys2Proof.Machine
end

