-- ==== Sys2Proof/Machine/Flags.lean ====
section
/-! DEFINITION. Flag computations: the sticky bits of `fflags` (Table 5.4) and the saturation of integer results (R81). -/

namespace Sys2Proof.Machine

open Sys2Proof

/-- The thread with bits of `fflags` raised; they are sticky (R88, R89). -/
def Thread.raise (th : Thread) (fl : Nat) : Thread := { th with fflags := th.fflags ||| BitVec.ofNat 64 fl }

/-- An exact integer result at width `w` (R81): wrapped, or clamped to the signed or natural range under SAT, with
`fflags.SAT` when the clamp changes it. -/
def intResult (v : Int) (w : Nat) (sat signed : Bool) : Nat × Nat :=
  if sat then
    if v < loVal w signed then (truncI (loVal w signed) w, Flag.sat)
    else if hiVal w signed < v then (truncI (hiVal w signed) w, Flag.sat)
    else (truncI v w, 0)
  else (truncI v w, 0)

/-- The rounding mode of RND, or of `status.RM` where RND is 0 (R86). -/
def roundingOf (rnd : BitVec 2) (th : Thread) : Mode :=
  if rnd = 1 then .rne else if rnd = 2 then .rtz
  else match fieldOf th.status 0 2 with
    | 0 => .rne
    | 1 => .rtz
    | 2 => .rup
    | _ => .rdn

end Sys2Proof.Machine
end

