-- ==== Sys2Proof/Machine/Queues.lean ====
section
/-! DEFINITION. Port queues: where a port leads, whether a push may go, pushing and popping (R69 to R79). -/

namespace Sys2Proof.Machine

open Sys2Proof

/-- Entries of a group of width `w` (R70). -/
def entriesOf (w : Nat) : Nat := ceilDiv w 256

/-- The direction opposite to N, E, S or W. -/
def opposite (dir : Nat) : Nat := if dir ≤ 2 then dir + 2 else dir - 2

/-- Where a push on port `q` of slot `t` of core `c` goes (R69): core, slot and input queue; none beyond the wafer. -/
def portTarget (c t q : Nat) : Option (Nat × Nat × Nat) :=
  let dir := q / 2
  if dir = 0 then some (c, (t + 1) % 8, q)
  else (neighbour c dir).map fun d => (d, t, 2 * opposite dir + q % 2)

/-- The slot that produces into input queue `q` of a slot (R69): core, slot and its port. -/
def portSource (c t q : Nat) : Option (Nat × Nat × Nat) :=
  let dir := q / 2
  if dir = 0 then some (c, (t + 7) % 8, q)
  else (neighbour c dir).map fun d => (d, t, 2 * opposite dir + q % 2)

/-- A slot is live (R69). -/
def slotLive (s : State) (c t : Nat) : Bool :=
  (s.core c).owner.isSome && t < 8 && decide ((s.thread c t).kind ≠ .free)

/-- A launch has a bunch not yet placed. -/
def Launch.hasUnplaced (x : Launch) : Bool := x.bunches.length < x.desc.bcount

/-- A launch has a bunch not yet placed, or one that is out: its halt has reached its cores and its swap-in has
not completed (R74 step 2, R78). -/
def State.mayReturn (s : State) (l : Nat) : Bool :=
  match s.launch? l with
  | none => false
  | some x => x.hasUnplaced || x.bunches.any fun y =>
      y.state = .saved || y.state = .halting ||
      (y.state = .placed && (List.range (x.desc.w * x.desc.h)).any fun i =>
        (s.core (coreOfIndex y.x y.y x.desc.w i)).stopped)

/-- The outcome of testing a push's target (R74, R70). -/
inductive PushTest where
  | room (c t q : Nat)
  | full
  | later
  | discard
  | edge
deriving DecidableEq, Repr

/-- Entries in use in an input queue, the room on its way back included (R70). -/
def InQueue.used (iq : InQueue) : Nat :=
  (iq.groups.map fun g => entriesOf g.width).sum + (iq.returning.map Prod.fst).sum

/-- Entries a thread has kept for results of class T on port `q` (R158). -/
def Thread.reserved (th : Thread) (q : Nat) : Nat :=
  (th.landings.map fun l => match l.dest with
    | .port p w => if p = q ∧ ¬ l.landed then entriesOf w else 0
    | _ => 0).sum

/-- Input queue `q` of a thread. -/
def Thread.queue (th : Thread) (q : Nat) : InQueue := th.qin.getD q ⟨[], []⟩

/-- The thread with input queue `q` replaced. -/
def Thread.setQueue (th : Thread) (q : Nat) (iq : InQueue) : Thread := { th with qin := th.qin.set q iq }

/-- R74, with the room test of R70: a push of width `w` on port `q` by slot `t` of core `c`, with `extra` entries
the same instruction takes before it. -/
def pushTest (s : State) (c t q w extra : Nat) : PushTest :=
  let me := s.thread c t
  let l := (s.occ c).launch
  let fail : PushTest := if me.portcfg.getLsbD q then .discard else .edge
  match portTarget c t q with
  | none => fail
  | some (d, u, r) =>
    if slotLive s d u && (s.occ d).launch == l && !(s.core d).stopped then
      (if ((s.thread d u).queue r).used + me.reserved q + extra + entriesOf w ≤ 8 then .room d u r else .full)
    else if (s.desc l).inRegion d && s.coreReady d && s.mayReturn l then .later
    else fail

/-- Cycles until a group of `k` entries is complete, or its room is back (R70). -/
def portLatency (c d k : Nat) : Nat := (if fieldOfCore c = fieldOfCore d then 1 else 3) + k - 1

/-- A piece whose response is still to come, or that faulted with its handler still to return (R326). A reduction
held under DET that has been acknowledged is not outstanding (R342). -/
def Piece.unacked (p : Piece) : Bool := !(p.phase = .detHeld && p.acked)

/-- A piece is an access of a thread, not a clearance or a cancel. -/
def Piece.isAccess (p : Piece) : Bool :=
  match p.op with
  | .clearance _ | .cancel _ => false
  | _ => true

/-- The accesses that a release by slot `t` of core `c` now follows (R139): its own that are unacknowledged and not
UO, and those its earlier synchronisations brought (R140). -/
def outstanding (s : State) (c t : Nat) : List Nat :=
  let a := s.agent c t
  (s.net.filter fun p => p.src == a && p.unacked && p.isAccess && p.attr ≠ .uo).map Piece.id ++
    (s.thread c t).sync.filter fun i => s.net.any fun p => p.id == i

/-- The thread with further accesses that its later ones follow (R140). -/
def Thread.synced (th : Thread) (l : List Nat) : Thread := { th with sync := th.sync ++ l.filter (· ∉ th.sync) }

/-- Performs a push that has room (R70): the group enters the target queue and completes later, in push order. -/
def enterGroup (c t d u r w v : Nat) (s : State) : State :=
  let th := s.thread d u
  let iq := th.queue r
  let last := (iq.groups.map Group.due).foldl Nat.max 0
  let due := Nat.max (s.now + portLatency c d (entriesOf w)) last
  (s.setThread d u (th.setQueue r { iq with groups := iq.groups ++ [⟨w, trunc v w, false, due, outstanding s c t⟩] })).atTime due
    (.portGroupComplete d u r)

/-- Sets DROPPED bit `q` (Table 3.4). -/
def Thread.dropped (th : Thread) (q : Nat) : Thread := { th with portcfg := th.portcfg ||| (1 <<< (16 + q)) }

/-- A push on port `q` of a slot whose test has been made (R74): entered, or lost with DROPPED set. -/
def doPush (c t q w v : Nat) (s : State) : State :=
  match pushTest s c t q w 0 with
  | .room d u r => enterGroup c t d u r w v s
  | .discard => s.modThread c t (·.dropped q)
  | _ => s

/-- The `j`-th group of an input queue, if it is complete. -/
def InQueue.ready? (iq : InQueue) (j : Nat) : Option Group :=
  match iq.groups[j]? with
  | some g => if g.complete then some g else none
  | none => none

/-- Entries in complete groups (R76). -/
def InQueue.completeEntries (iq : InQueue) : Nat :=
  (iq.groups.map fun g => if g.complete then entriesOf g.width else 0).sum

/-- Removes the head group of input queue `q`; its room goes back to the producer (R70, R71). -/
def popHead (c t q : Nat) (s : State) : State :=
  let th := s.thread c t
  let iq := th.queue q
  match iq.groups with
  | [] => s
  | g :: gs =>
    let k := entriesOf g.width
    let d := ((portSource c t q).map Prod.fst).getD c
    let due := s.now + portLatency c d k
    (s.setThread c t ((th.setQueue q { groups := gs, returning := iq.returning ++ [(k, due)] }).synced g.after)).atTime due
      (.portRoomReturn c t q)

/-- The first group that is not complete becomes so, if its time has come (R70). -/
def completeGroups (now : Nat) : List Group → List Group
  | [] => []
  | g :: gs => { g with complete := g.complete || g.due ≤ now } :: completeGroups now gs

end Sys2Proof.Machine
end

