-- ==== Sys2Proof/Machine/Issue.lean ====
section
/-! DEFINITION. Issuing one instruction: the order of checks and waits of R154, operands read once, writes in their
class, LOOP and REP (R34 to R39, R61 to R63, R72, R154 to R161, R178, R196 to R200). -/

namespace Sys2Proof.Machine

open Sys2Proof

/-! ## What a meaning answers -/

/-- Why an instruction does not complete: a synchronous cause, a wait of Table 1.7, a wait that leaves a mark in the
state, or an issue hold of R39. -/
inductive Stop where
  | trap (cause tval : Nat)
  | wait (reason detail : Nat)
  | waitDo (reason detail : Nat) (mark : State → State)
  | hold (vec : Bool)

/-- What an instruction does with its operands: widths at which it reads A, B and D and writes D and B, further window
ranges, its operation width, whether its beats are separate (R62), whether the groups it reads stay in their queues
(PEEK), and whether the description admits its operands. -/
structure Spec where
  v     : View
  ra    : Option Nat := none
  rb    : Option Nat := none
  rd    : Option Nat := none
  wd    : Option Nat := none
  wb    : Option Nat := none
  moreR : List Loc := []
  moreW : List Loc := []
  wide  : Nat := 32
  lane  : Bool := false
  keep  : Bool := false
  legal : Bool := true

/-- An instruction about to perform: the state, its thread and slot, the window it reads, repetition and first
beat, its operands of this repetition and the values its port sources pop; whether beats of the repetition are done
already, whether these are its last, and what the beats before have made of a result that is written whole. -/
structure Ctx where
  v    : View
  s    : State
  c    : Nat
  t    : Nat
  th   : Thread
  img  : Nat
  k    : Nat
  beat : Nat
  beats : Nat
  la   : Loc
  lb   : Loc
  ld   : Loc
  pa   : Nat
  pb   : Nat
  pd   : Nat
  stale : Nat
  mid  : Bool
  last : Bool
  acc  : Nat
  accFlags : Nat

/-- A class T result to come (R158): where it lands, what lands with it, and after how many cycles if that is fixed. -/
structure LandReq where
  dest    : Loc
  w       : Nat
  kind    : LandKind := .plain
  missing : Nat := 0
  cycles  : Option Nat := none
  value   : Nat := 0
  flags   : Nat := 0

/-- What an instruction does: writes in order, `fflags` bits, a transfer (with whether it clears LOOP frames), a
class T result, a change of the thread before the loop test, and whatever else changes, applied last. `acc` and
`accFlags` are what the beats so far have made of a result that is written whole. -/
structure Res where
  writes : List Write := []
  flags  : Nat := 0
  acc    : Nat := 0
  accFlags : Nat := 0
  jump   : Option (W32 × Bool) := none
  land   : Option LandReq := none
  pre    : Thread → Thread := id
  post   : State → State := id

/-! ## Operands of the instruction at hand -/

/-- `repstate.V`. -/
def Thread.inRep (th : Thread) : Bool := th.loops.repstate.getLsbD 53

/-- `repstate.K`, or 0 outside a REP. -/
def Thread.repK (th : Thread) : Nat := if th.inRep then fieldOf th.loops.repstate 0 24 else 0

/-- `repstate.N`. -/
def Thread.repN (th : Thread) : Nat := fieldOf th.loops.repstate 24 24

/-- `repstate.BEAT`, or 0 outside a REP. -/
def Thread.repBeat (th : Thread) : Nat := if th.inRep then fieldOf th.loops.repstate 51 2 else 0

/-- Beats of the repetition at hand are done and others are not (R200). -/
def Thread.midBeat (th : Thread) : Bool := th.repBeat ≠ 0 && th.loops.beats.isSome

/-- ENA bit `j` of a REP in progress. -/
def Thread.ena (th : Thread) (j : Nat) : Bool := th.inRep && th.loops.repstate.getLsbD (48 + j)

/-- An operand of the repetition at hand; an operand the format lacks reads as ZERO. -/
def Thread.locOf (th : Thread) (j : Nat) (o : Option Opnd) : Loc :=
  match o with
  | some x => opndAt (th.ena j) th.repK x
  | none => .zero

/-- D of the repetition at hand. -/
def Thread.locD (th : Thread) (v : View) : Loc := th.locOf 0 v.d
/-- A of the repetition at hand. -/
def Thread.locA (th : Thread) (v : View) : Loc := th.locOf 1 v.a
/-- B of the repetition at hand. -/
def Thread.locB (th : Thread) (v : View) : Loc := th.locOf 2 v.b

/-- Bits [63:0] of the instruction word, the tval of many causes (Table 19.3). -/
def viewLow64 (v : View) : Nat := trunc (wordOfRaw (rawOfView v)).toNat 64

/-- The latency class of an instruction. -/
def viewLat (v : View) : Latency := Forms.latency v.op.toNat

/-- The instruction needs the vector datapath (R178). -/
def Spec.vec (sp : Spec) : Bool :=
  let n := sp.v.op.toNat
  Forms.isFamily n || (0x200 ≤ n && n ≤ 0x20C) || 64 < sp.wide

/-- Beats of the operation (R178). -/
def Spec.beats (sp : Spec) : Nat := Nat.max 1 (ceilDiv sp.wide 512)

/-- A repeated lane-parallel instruction stops at its beats too (R200, R322). -/
def Spec.perBeat (sp : Spec) (th : Thread) : Bool := th.inRep && sp.lane && 1 < sp.beats

/-- The beats at hand are the last of the instruction or repetition. -/
def Spec.lastBeat (sp : Spec) (th : Thread) : Bool := !sp.perBeat th || sp.beats ≤ th.repBeat + 1

/-- The reads of an instruction: location and width, A first, then B, then D. -/
def Spec.reads (sp : Spec) (th : Thread) : List (Loc × Nat) :=
  (match sp.ra with | some w => [(th.locA sp.v, w)] | none => []) ++
  (match sp.rb with | some w => [(th.locB sp.v, w)] | none => []) ++
  (match sp.rd with | some w => [(th.locD sp.v, w)] | none => [])

/-- Every window range an instruction reads. -/
def Spec.readLocs (sp : Spec) (th : Thread) : List Loc := (sp.reads th).map Prod.fst ++ sp.moreR

/-- Every window range an instruction writes. -/
def Spec.writeLocs (sp : Spec) (th : Thread) : List Loc :=
  (if sp.wd.isSome then [th.locD sp.v] else []) ++ (if sp.wb.isSome then [th.locB sp.v] else []) ++ sp.moreW

/-- How many of the reads before this one pop the same queue (R72). -/
def popsBefore (q : Nat) (before : List (Loc × Nat)) : Nat :=
  (before.map fun p => if p.1 = .port q then 1 else 0).sum

/-- The group each port source takes, in reading order, with the reads before it (R71, R72). -/
def popList (th : Thread) : List (Loc × Nat) → List (Loc × Nat) → List (Nat × Nat × Option Group)
  | _, [] => []
  | before, (l, w) :: rest =>
    match l with
    | .port q => (q, w, (th.queue q).ready? (popsBefore q before)) :: popList th (before ++ [(l, w)]) rest
    | _ => popList th (before ++ [(l, w)]) rest

/-- DETAIL of reasons 2 to 4 (R47). Counts of 16 and more run on above the field N (log entry 82). -/
def portDetail (q n : Nat) : Nat := q / 2 + q % 2 * 8 + n * 16

/-! ## The checks before an instruction performs (R154) -/

/-- The first trap or wait of a list of checks. -/
def firstStop : List (Option Stop) → Except Stop Unit
  | [] => .ok ()
  | none :: r => firstStop r
  | some e :: _ => .error e

/-- A port guard that does not hold waits (R76). -/
def portGuardStop (th : Thread) : Guard → Option Stop
  | .port dir ch n =>
    let q := 2 * dir.toNat + b2n ch
    if (th.queue q).completeEntries < 2 ^ n.toNat then some (.wait 4 (portDetail q (2 ^ n.toNat))) else none
  | _ => none

/-- DIST holds issue until the producer at that distance and every earlier one have their results (R156). -/
def distStop (now : Nat) (th : Thread) (dist : Nat) : Option Stop :=
  if dist ≠ 0 && th.pend.any (fun p => p.pos + dist ≤ th.pos && now < p.ready) then some (.hold false) else none

/-- Tags of a mask that are busy by an instruction at another position. -/
def Thread.busyElse (th : Thread) (mask : Nat) : Nat :=
  ((List.range 7).map fun j => if mask.testBit j && th.tagBusyElse (j + 1) th.pos then 2 ^ (j + 1) else 0).sum

/-- WAIT waits for its busy tags (R159). -/
def waitStop (th : Thread) (mask : Nat) : Option Stop :=
  if th.busyElse mask ≠ 0 then some (.wait 1 (th.busyElse mask)) else none

/-- The vector datapath is another slot's at a time: its beats hold it, or it has been given to it (R39, R178). -/
def Core.vecOther (k : Core) (t now : Nat) : Bool :=
  (now < k.vecFree && k.vecLast ≠ t) || k.vecGrant.any fun g => g ≠ t

/-- The vector datapath is another thread's (R39, R178). -/
def vecStop (s : State) (sp : Spec) : Option Stop :=
  if sp.vec && s.myCore.vecOther s.curSlot s.now then some (.hold true) else none

/-- Stall mode: the issue would form a class-change record on a full ring (R384). -/
def traceStop (s : State) : Option Stop :=
  let b := s.traceBlk (fieldOfCore s.curCore)
  if b.stall && b.full && tracing s s.curCore 2 && s.me.cclass ≠ 0 then some (.hold false) else none

/-- A handler's 4,097th instruction (R36). -/
def budgetStop (th : Thread) : Option Stop :=
  if th.cls = .handler ∧ 4096 ≤ th.budget ∧ th.repK = 0 ∧ th.repBeat = 0 then some (.trap Cause.handlerBudget 0) else none

/-- The flag a guard reads, and the value it needs. -/
def flagGuard : Guard → Option (Nat × Bool)
  | .flag k pol => some (k.toNat, pol)
  | _ => none

/-- A flag guard reads a flag in a group with an uncorrectable error (R67, R153). -/
def guardEcc (th : Thread) (g : Guard) : Option Stop :=
  (flagGuard g).bind fun p => (th.badRead (.flag p.1)).map fun j => .trap Cause.sliceEcc (rangeTval (16 * j) 16)

/-- A flag guard on a covered flag traps under STALECHK (R153, R160). -/
def guardStop (th : Thread) (mask : Nat) (g : Guard) : Option Stop :=
  match flagGuard g with
  | some (k, _) =>
    match (Loc.flag k).staleTval (th.awaited mask th.pos) with
    | some v => if th.stalechk then some (.trap Cause.staleRead v) else none
    | none => none
  | none => none

/-- 1 when a flag guard reads a covered flag. -/
def guardStale (th : Thread) (mask : Nat) (g : Guard) : Nat :=
  match flagGuard g with
  | some (k, _) => b2n ((Loc.flag k).staleTval (th.awaited mask th.pos)).isSome
  | none => 0

/-- The flag guard holds (R153); no flag guard always does. -/
def guardHolds (th : Thread) (dist : Nat) (g : Guard) : Bool :=
  match flagGuard g with
  | some (k, pol) => bit (th.view th.pos dist) k == pol
  | none => true

/-- A class T instruction waits for its own tag and for tags that cover its destination (R158). -/
def tagStop (sp : Spec) (th : Thread) : Option Stop :=
  if (viewLat sp.v) ≠ .t then none else
  let a := sp.v.h.atag.toNat
  let m := (sp.writeLocs th).foldl (fun r l => r ||| th.coveringTags l.mask th.pos) 0
  if a ≠ 0 && th.tagBusyElse a th.pos then some (.wait 1 (2 ^ a))
  else if m ≠ 0 then some (.wait 1 m) else none

/-- Port sources wait for their groups (R71, R72). -/
def popStops (sp : Spec) (th : Thread) : List (Option Stop) :=
  (popList th [] (sp.reads th)).map fun (q, w, g) =>
    if g.isSome then none else some (.wait 2 (portDetail q (entriesOf w)))

/-- The pushes of an instruction: D's, then B's, with the entries the same instruction takes before. -/
def Spec.pushes (sp : Spec) (th : Thread) : List (Nat × Nat × Nat) :=
  match sp.wd, th.locD sp.v, sp.wb, th.locB sp.v with
  | some w, .port q, some u, .port r => [(q, w, 0), (r, u, if q = r then entriesOf w else 0)]
  | some w, .port q, _, _ => [(q, w, 0)]
  | _, _, some u, .port r => [(r, u, 0)]
  | _, _, _, _ => []

/-- A port destination waits for room, or traps at the edge (R70, R74). -/
def pushStops (sp : Spec) (s : State) (th : Thread) : List (Option Stop) :=
  (sp.pushes th).map fun (q, w, extra) =>
    match pushTest s s.curCore s.curSlot q w extra with
    | .full | .later => some (.wait 3 (portDetail q (entriesOf w)))
    | .edge => some (.trap Cause.portEdge q)
    | _ => none

/-- The operands the description admits (ILLEGAL_OPERAND, with the word as tval), and flags advanced past f63. -/
def legalStop (sp : Spec) (th : Thread) : Option Stop :=
  let past (l : Loc) : Bool := match l with | .flag k => 63 < k | _ => false
  if sp.legal && !((sp.readLocs th ++ sp.writeLocs th).any past) then none
  else some (.trap Cause.illegalOperand (viewLow64 sp.v))

/-- WINDOW_RANGE for the first range that leaves the window (R57). -/
def rangeStop (sp : Spec) (th : Thread) : Option Stop :=
  ((sp.readLocs th ++ sp.writeLocs th).find? fun l => !(l.inWindow th.slices)).map fun l =>
    .trap Cause.windowRange l.tval

/-- What beat `b` and the beats after it reach of a location (R62). -/
def Loc.fromBeat (b : Nat) : Loc → Loc
  | .slices st n => if n ≤ 128 * b then .zero else .slices (st + 128 * b) (n - 128 * b)
  | l => l

/-- What an instruction has still to reach of a location: of a repetition under way, what its other beats do. -/
def Thread.left (th : Thread) (l : Loc) : Loc := if th.midBeat then l.fromBeat th.repBeat else l

/-- SLICE_ECC for a read, or a partial write, of a group with an uncorrectable error (R67); which of several it names is
the model's choice (log entry 67). -/
def eccStop (sp : Spec) (th : Thread) : Option Stop :=
  match ((sp.readLocs th).map th.left).findSome? th.badRead, ((sp.writeLocs th).map th.left).findSome? th.badWrite with
  | some g, _ => some (.trap Cause.sliceEcc (rangeTval (16 * g) 16))
  | none, some g => some (.trap Cause.sliceEcc (rangeTval (16 * g) 16))
  | none, none => none

/-- The stale reads of an instruction, then its stale writes (R160, R161), as the tval of their traps. -/
def staleReads (sp : Spec) (th : Thread) : List Nat :=
  (sp.readLocs th).filterMap fun l => l.staleTval (th.awaited sp.v.h.wait.toNat th.pos)

/-- Stale writes (R161). -/
def staleWrites (sp : Spec) (th : Thread) : List Nat :=
  (sp.writeLocs th).filterMap fun l => l.staleTval (th.cover sp.v.h.wait.toNat th.pos)

/-- STALE_READ and STALE_WRITE under `status.STALECHK`. -/
def staleStop (sp : Spec) (th : Thread) : Option Stop :=
  if !th.stalechk then none else
  match staleReads sp th, staleWrites sp th with
  | v :: _, _ => some (.trap Cause.staleRead v)
  | [], v :: _ => some (.trap Cause.staleWrite v)
  | [], [] => none

/-- A pop whose group was pushed at another width traps PORT_WIDTH (R71). A width of 4,096 bits or more runs on above the
field w of tval (log entry 82). -/
def widthStops (sp : Spec) (th : Thread) : List (Option Stop) :=
  (popList th [] (sp.reads th)).map fun (q, w, g) =>
    match g with
    | some g => if g.width = w then none else some (.trap Cause.portWidth (q + w * 2 ^ 16 + g.width * 2 ^ 32))
    | none => none

/-- A thread whose MMAC a swap has halted waits for the array, which it does not hold (R253). -/
def arrayStop (s : State) : Option Stop :=
  let x := s.myCore.mat
  if x.holder ≠ some s.curSlot && x.cmds.any fun k => k.slot == s.curSlot && k.mslot < 4 && k.op == .mac && k.k < 32 then
    some (.wait 5 (x.holder.getD 15))
  else none

/-- What stands before the guard of an instruction is evaluated. A repetition under way has passed its guard (R199). -/
def beforeGuard (sp : Spec) (s : State) : Except Stop Unit :=
  let th := s.me
  if th.midBeat then firstStop [arrayStop s, vecStop s sp, traceStop s] else
  firstStop [arrayStop s, portGuardStop th sp.v.h.grd, distStop s.now th sp.v.h.dist.toNat, waitStop th sp.v.h.wait.toNat,
    vecStop s sp, traceStop s, budgetStop th, guardEcc th sp.v.h.grd, guardStop th sp.v.h.wait.toNat sp.v.h.grd]

/-- What stands between a guard that holds and the instruction's own checks. Operands that the description does not
admit trap before any wait for a tag or a port, as R58 has it for special operands (log entry 62). A repetition under
way has popped its groups; its last beat finds its tag free and room for its push as the first did, and each beat reads
its sources afresh (R67, R200). -/
def afterGuard (sp : Spec) (s : State) : Except Stop Unit :=
  let th := s.me
  if th.midBeat then
    firstStop (legalStop sp th :: (if sp.lastBeat th then tagStop sp th :: pushStops sp s th else []) ++ [eccStop sp th]) else
  firstStop ([legalStop sp th, tagStop sp th] ++ popStops sp th ++ pushStops sp s th ++ [rangeStop sp th,
    eccStop sp th, staleStop sp th] ++ widthStops sp th)

/-- The value popped for reading number `j` of A, B, D. -/
def poppedFor (th : Thread) (before : List (Loc × Nat)) (l : Loc) : Nat :=
  match l with
  | .port q => (((th.queue q).ready? (popsBefore q before)).map Group.value).getD 0
  | _ => 0

/-- What a repetition starts from: the groups that its sources pop, and nothing made. -/
def Spec.popped (sp : Spec) (th : Thread) : BeatBuf :=
  let ra := match sp.ra with | some w => [(th.locA sp.v, w)] | none => []
  let rb := match sp.rb with | some w => [(th.locB sp.v, w)] | none => []
  { a := poppedFor th [] (th.locA sp.v), b := poppedFor th ra (th.locB sp.v), d := poppedFor th (ra ++ rb) (th.locD sp.v),
    acc := 0, flags := 0 }

/-- What the beats before have left, for a repetition under way. -/
def Spec.buf (sp : Spec) (th : Thread) : BeatBuf :=
  if th.midBeat then th.loops.beats.getD (sp.popped th) else sp.popped th

/-- The instruction with its operands read. -/
def mkCtx (sp : Spec) (s : State) : Ctx :=
  let th := s.me
  { v := sp.v, s := s, c := s.curCore, t := s.curSlot, th := th, img := th.view th.pos sp.v.h.dist.toNat,
    k := th.repK, beat := th.repBeat, beats := if sp.perBeat th then 1 else sp.beats - th.repBeat,
    la := th.locA sp.v, lb := th.locB sp.v, ld := th.locD sp.v,
    pa := (sp.buf th).a, pb := (sp.buf th).b, pd := (sp.buf th).d,
    stale := if th.midBeat then 0 else
      guardStale th sp.v.h.wait.toNat sp.v.h.grd + (staleReads sp th).length + (staleWrites sp th).length,
    mid := th.midBeat, last := sp.lastBeat th, acc := (sp.buf th).acc, accFlags := (sp.buf th).flags }

/-- A brought to `w` bits (R60). -/
def Ctx.a (x : Ctx) (w : Nat) (zx : Bool) : Nat := readLoc x.s x.c x.t x.img x.pa x.la w zx
/-- B brought to `w` bits. -/
def Ctx.b (x : Ctx) (w : Nat) (zx : Bool) : Nat := readLoc x.s x.c x.t x.img x.pb x.lb w zx
/-- D brought to `w` bits, for an instruction that reads it. -/
def Ctx.d (x : Ctx) (w : Nat) (zx : Bool) : Nat := readLoc x.s x.c x.t x.img x.pd x.ld w zx

/-! ## Loops (R196 to R198) -/

/-- V of a frame. -/
def frameV (f : W64) : Bool := f.getLsbD 63

/-- The test of R198 on one frame: the frame after it, where the thread goes if it counts down, and whether the
frame ended so that the next is tested. A count of 0 ends it (log entry 74). -/
def testFrame (f : W64) (pc next : W32) : W64 × W32 × Bool :=
  if frameV f = true ∧ fieldOf f 46 14 = pc.toNat ∧ next = pc + 1 then
    if 1 < fieldOf f 0 32 then (putBits f 0 32 (fieldOf f 0 32 - 1), BitVec.ofNat 32 (fieldOf f 32 14), false)
    else (putBits f 63 1 0, next, true)
  else (f, next, false)

/-- The loop test after an instruction at `pc` completes with next PC `next` (R198). -/
def loopTest (b : LoopBank) (pc next : W32) : LoopBank × W32 :=
  if frameV b.loopst1 then
    let (f1, n1, again) := testFrame b.loopst1 pc next
    if again then
      let (f0, n0, _) := testFrame b.loopst0 pc next
      ({ b with loopst1 := f1, loopst0 := f0 }, n0)
    else ({ b with loopst1 := f1 }, n1)
  else
    let (f0, n0, _) := testFrame b.loopst0 pc next
    ({ b with loopst0 := f0 }, n0)

/-- A frame after a taken BR or JMP (R198): cleared when `pc` is in its range and the target is not. -/
def leaveFrame (f : W64) (pc target : W32) : W64 :=
  let inside (p : W32) : Bool := fieldOf f 32 14 ≤ p.toNat && p.toNat ≤ fieldOf f 46 14
  if frameV f && inside pc && !inside target then putBits f 63 1 0 else f

/-! ## Completing -/

/-- A slot holds the datapath for the beats of a repetition that are still to come (R178). -/
def Core.streams (k : Core) (t now : Nat) : Bool := k.vecLast = t && now < k.vecFree && (k.thread t).midBeat

/-- The datapath is no longer kept for a slot: its next holder is to be found (R39). -/
def Core.ungrant (k : Core) (t : Nat) : Core :=
  if k.vecGrant = some t then { k with vecGrant := none, vecAsk := true } else k

/-- A core on which slot `t` issues: the last slot of its class, the slots other threads yield to. A beat that streams
takes no issue of the core (R34, R35, R178, R201). -/
def Core.issuedBy (k : Core) (t : Nat) (beat : Bool) : Core :=
  let cls := if beat then TClass.ended else (k.thread t).cls
  { k.ungrant t with
    issued := k.issued || !beat
    preempted := k.preempted || cls = TClass.handler || cls = TClass.trap
    lastH := if cls = TClass.handler then t else k.lastH
    lastT := if cls = TClass.trap then t else k.lastT
    lastN := if cls = TClass.normal then t else k.lastN
    threads := k.threads.map fun (th : Thread) => { th with yieldFor := th.yieldFor.filter fun u => u ≠ t || beat } }

/-- The slot issued in this cycle: the class's last slot, the cycle marks, and the slots other threads of the core
yield to (R34, R201). -/
def markIssued (c t : Nat) (s : State) : State :=
  s.modCore c fun k =>
    let k2 := k.issuedBy t (k.streams t s.now)
    k2.setThread t { k2.thread t with issuedIn := s.now + 1, tried := true, wait := none, vecHeld := false, stepping := false }

/-- A thread has done one repetition or the whole of an instruction without a transfer: the next repetition, or
the next position and PC, with the loop test (R156, R198, R199). -/
def Thread.advance (th : Thread) (perBeat : Bool) (beats : Nat) : Thread :=
  let r := th.loops.repstate
  if th.inRep then
    if perBeat ∧ th.repBeat + 1 < beats then { th with loops := { th.loops with repstate := putBits r 51 2 (th.repBeat + 1) } }
    else if th.repK + 1 < th.repN then
      { th with loops := { th.loops with repstate := putBits (putBits r 51 2 0) 0 24 (th.repK + 1) } }
    else
      let (b, n) := loopTest { th.loops with repstate := putBits (putBits r 51 2 0) 53 1 0 } th.pc (th.pc + 1)
      { th with loops := b, pc := n, pos := th.pos + 1, bpSkip := th.unskipped }
  else
    let (b, n) := loopTest th.loops th.pc (th.pc + 1)
    { th with loops := b, pc := n, pos := th.pos + 1, bpSkip := th.unskipped }

/-- A thread has made a taken transfer: PC, position, and the frames a BR or JMP leaves (R152, R198). -/
def Thread.transfer (th : Thread) (target : W32) (clears : Bool) : Thread :=
  { th with pc := target, pos := th.pos + 1, bpSkip := th.unskipped,
            loops := if clears then { th.loops with loopst0 := leaveFrame th.loops.loopst0 th.pc target,
                                                    loopst1 := leaveFrame th.loops.loopst1 th.pc target } else th.loops }

/-- The budget of a handler counts an instruction once (R36). -/
def Thread.charge (th : Thread) : Thread :=
  if th.cls = .handler ∧ th.repK = 0 ∧ th.repBeat = 0 then { th with budget := th.budget + 1 } else th

/-- Landed results leave once no repetition at their position is still to come or on its way (R199). -/
def Thread.dropLanded (th : Thread) : Thread :=
  { th with landings := th.landings.filter fun l =>
      !l.landed || (th.inRep && th.pos == l.pos) || th.landings.any fun m => m.pos == l.pos && !m.landed }

/-- A mask and a value over the window with one more write in them. -/
def addWrite (p : BitVec 8192 × BitVec 8192) : Write → BitVec 8192 × BitVec 8192
  | .win lo len x => (p.1 ||| BitVec.ofNat 8192 ((2 ^ len - 1) <<< lo), BitVec.ofNat 8192 (setBits p.2.toNat lo len x))
  | .push _ _ _ => p

/-- The writes of an instruction as a mask and a value over the window, later writes standing (R61). -/
def windowWrites (ws : List Write) : BitVec 8192 × BitVec 8192 := ws.foldl addWrite (0, 0)

/-- A write is one of window bits. -/
def Write.isWin : Write → Bool
  | .win _ _ _ => true
  | .push _ _ _ => false

/-- The fixed-class writes of an instruction become results its class value later (R155, R156). A write that covers
a whole group with an uncorrectable error replaces it (R67). -/
def Thread.putWrites (th : Thread) (lat cycles now : Nat) (ws : List Write) : Thread :=
  if ws.any Write.isWin then
    let (m, v) := windowWrites ws
    let th1 := th.addPending ⟨th.pos, lat, m, v, now + lat + cycles - 1⟩
    { th1 with badGroups := th1.badAfter m }
  else th

/-- Where a result lands. -/
def destOf (l : Loc) (w : Nat) : Dest :=
  match l with
  | .slices st n => .slices st n
  | .flag k => .flag k
  | .port q => .port q w
  | _ => .nowhere

/-- The class T result of an instruction, on its way (R158). -/
def landingOf (sp : Spec) (s : State) (r : LandReq) : Landing :=
  { id := s.nextId, tag := sp.v.h.atag.toNat, pos := s.me.pos, pc := s.me.pc, dest := destOf r.dest r.w,
    cover := BitVec.ofNat 8192 r.dest.mask, landed := false, kind := r.kind, missing := r.missing,
    value := r.value, flags := r.flags }

/-- The thread with a class T result on its way: its tag is busy and covers its destination; without a tag the
thread is held (R158). -/
def Thread.awaits (th : Thread) (l : Landing) : Thread :=
  { th with landings := th.landings ++ [l], held := if l.tag = 0 then some l.id else th.held }

/-- A class T result starts (R158). One with a fixed time lands then, `extra` cycles of R57 later (R180). -/
def startLanding (sp : Spec) (r : LandReq) (extra : Nat) (s : State) : State :=
  let s1 := s.newId.2.modMe (·.awaits (landingOf sp s r))
  match r.cycles with
  | some n => s1.after (n + extra) (.resultLanding s.curCore s.curSlot s.nextId)
  | none => s1

/-- The pushes of an instruction (R61: after its pops). -/
def doPushes (c t : Nat) (ws : List Write) (s : State) : State :=
  ws.foldl (fun s w => match w with
    | .push q w v => doPush c t q w v s
    | .win _ _ _ => s) s

/-- An instruction reaches its thread's window: a source, a destination or its guard does. -/
def Spec.reaches (sp : Spec) (th : Thread) : Bool :=
  (sp.readLocs th ++ sp.writeLocs th).any (fun l => l.range.isSome) || (flagGuard sp.v.h.grd).isSome

/-- Cycles an instruction or repetition takes at issue: its beats, the extra cycles of R57, and 20 where it wakes a
drowsy window (R65, R178). -/
def Spec.cycles (sp : Spec) (x : Ctx) : Nat :=
  let extra := ((sp.readLocs x.th ++ (if sp.wd.isSome ∧ sp.rd.isNone then [x.ld] else []) ++ sp.moreW).map Loc.extra).sum
  x.beats + (if x.beat = 0 then extra else 0) + if x.th.drowsy && sp.reaches x.th then 20 else 0

/-- The thread is busy for the instruction's cycles, its window awake if it was reached (R65), and the datapath for those and
the `rest` of the repetition's beats (R178); who has it next is found when it frees (R39). -/
def occupy (sp : Spec) (n rest : Nat) (s : State) : State :=
  let s1 := s.modMe fun th => { th with busyTo := s.now + n, drowsy := th.drowsy && !sp.reaches th }
  if sp.vec then
    s1.modMyCore fun k => { k with vecFree := s.now + n + rest, vecLast := s.curSlot, vecAsk := true, vecGrant := none }
  else s1

/-- Logs `n` stale reads of the executing thread at its PC (R160, R161). -/
def logStale (n : Nat) (s : State) : State := Nat.repeat (logNd s.myAgent 3 s.me.pc) n s

/-- The executing thread once its instruction is done: the handler's budget, the change `r` asks for, the transfer or
the advance, what further beats need, results that leave, and the window. -/
def Thread.finish (th : Thread) (r : Res) (perBeat : Bool) (beats : Nat) (buf : Option BeatBuf) : Thread :=
  let th1 := r.pre th.charge
  let th2 := match r.jump with
    | some (target, clears) => th1.transfer target clears
    | none => th1.advance perBeat beats
  { th2 with loops := { th2.loops with bar := none, beats := buf }, blockFill := none, blockErr := false }.dropLanded.settle

/-- The state with the port sources of an instruction popped, unless it keeps them or has popped them (R63, R71). -/
def takePops (sp : Spec) (x : Ctx) (s : State) : State :=
  if sp.keep || x.mid then s else (popList x.th [] (sp.reads x.th)).foldl (fun s p => popHead x.c x.t p.1 s) s

/-- The state with the class T result of an instruction on its way, if it has one. -/
def startLandings (sp : Spec) (l : Option LandReq) (extra : Nat) (s : State) : State :=
  match l with
  | some l => startLanding sp l extra s
  | none => s

/-- The executing thread with the fixed-class writes and flags of an instruction; the flags reach fflags at once (log
entry 68). -/
def Thread.written (th : Thread) (sp : Spec) (r : Res) (n now : Nat) : Thread :=
  (th.putWrites (Forms.Latency.value (viewLat sp.v)) n now r.writes).raise r.flags

/-- What the beats still to come need of those done. -/
def Ctx.buf (x : Ctx) (r : Res) : Option BeatBuf :=
  if x.last then none else some { a := x.pa, b := x.pb, d := x.pd, acc := r.acc, flags := r.accFlags }

/-- Completes an instruction: pops, the class T result, fixed-class writes, pushes, flags, position, PC and the rest. -/
def commit (sp : Spec) (x : Ctx) (r : Res) (s : State) : State :=
  let n := sp.cycles x
  let s1 := takePops sp x (logStale x.stale s)
  let s2 := startLandings sp r.land (n - x.beats) s1
  let s3 := s2.modMe fun th => th.written sp r n s.now
  let s4 := doPushes x.c x.t r.writes s3
  let s5 := occupy sp n (if x.last then 0 else sp.beats - (x.beat + 1)) (markIssued x.c x.t s4)
  r.post (s5.modMe fun th => th.finish r (sp.perBeat x.th) sp.beats (x.buf r))

/-- What an instruction whose guard does not hold uses: its header alone (R154). -/
def guardSpec (v : View) : Spec := { v := { op := 0, h := v.h } }

/-- An instruction or repetition whose flag guard does not hold (R154): one position, nothing else. -/
def skip (sp : Spec) (s : State) : State := commit (guardSpec sp.v) (mkCtx (guardSpec sp.v) s) {} s

/-- The executing thread waits with a reason of Table 1.7. -/
def waitHere (reason detail : Nat) (s : State) : State :=
  (s.modMyCore (·.ungrant s.curSlot)).modMe fun th =>
    let since := match th.wait with
      | some w => if w.pc = th.pc ∧ w.reason = reason then w.since else s.now
      | none => s.now
    { th with wait := some ⟨reason, detail, th.pc, since⟩, tried := true, vecHeld := false }

/-- An instruction that does not complete: the thread takes the cause with its PC as resume PC (Retry, Table 19.2),
waits, or is held. Under REP the cause leaves BEAT 0 (R200). -/
def stopAt (e : Stop) (s : State) : State :=
  match e with
  | .trap cause tval =>
    let s1 := markIssued s.curCore s.curSlot s
    let s2 := s1.modMe fun th =>
      if th.inRep then { th with loops := { th.loops with repstate := putBits th.loops.repstate 51 2 0, beats := none } } else th
    takeSync cause tval s.me.pc s2
  | .wait reason detail => waitHere reason detail s
  | .waitDo reason detail mark => mark (waitHere reason detail s)
  | .hold vec => (s.modMyCore (·.ungrant s.curSlot)).modMe fun th => { th with wait := none, tried := true, vecHeld := vec }

/-- Issues an instruction of the executing thread (R154): waits and traps in order, then its meaning. -/
def attempt (sp : Spec) (s : State) (body : Ctx → Except Stop Res) : State :=
  match beforeGuard sp s with
  | .error e => stopAt e s
  | .ok () =>
    if s.me.midBeat || guardHolds s.me sp.v.h.dist.toNat sp.v.h.grd then
      match afterGuard sp s with
      | .error e => stopAt e s
      | .ok () =>
        match body (mkCtx sp s) with
        | .error e => stopAt e s
        | .ok r => commit sp (mkCtx sp s) r s
    else skip sp s

/-- Issues an instruction, held where it would form a trace record on a full ring in stall mode (R384). -/
def issue (sp : Spec) (s : State) (body : Ctx → Except Stop Res) : Host.Outcome State Fault Refusal :=
  let s' := attempt sp s body
  .next (if traceHolds s.curCore s s' then stopAt (.hold false) s else s')

/-- An encoded instruction of the executing thread, by its fields. -/
def run (i : Instr) (f : View → Spec) (body : Ctx → Except Stop Res) (s : State) :
    Host.Outcome State Fault Refusal :=
  match i.view with
  | some v => issue (f v) s body
  | none => .next s

/-- X of the instruction. -/
def Ctx.x (x : Ctx) : Bool := x.v.h.x
/-- SAT of the instruction. -/
def Ctx.sat (x : Ctx) : Bool := x.v.h.sat
/-- Its operation width where no width is fixed (R59). -/
def Ctx.w (x : Ctx) : Nat := opWidth x.v
/-- imm15 as a natural number. -/
def Ctx.immNat (x : Ctx) : Nat := (x.v.imm.getD 0).toNat
/-- imm15 extended to `w` bits: with zeros when `zx`, else with its sign (R151). -/
def Ctx.immExt (x : Ctx) (w : Nat) (zx : Bool) : Nat := extend x.immNat 15 w zx

/-- One beat's bits. -/
def beatBits (v w j : Nat) : Nat := bits v (512 * j) (Nat.min 512 (w - 512 * j))

/-- Beats `j` to `j + n − 1` of a lane-parallel instruction (R62): each reads A, B and D in the window the beats
before it left, and writes its bits of D. Answers the result's bits from beat to beat, and the flags. -/
def laneBeats (ld : Loc) (w : Nat) (rd : Nat → Nat × Nat × Nat) (op : Nat → Nat → Nat → Nat → Nat × Nat) :
    Nat → Nat → Nat → Nat × Nat
  | 0, _, _ => (0, 0)
  | n + 1, j, img =>
    let src := rd img
    let len := Nat.min 512 (w - 512 * j)
    let r := op len (beatBits src.1 w j) (beatBits src.2.1 w j) (beatBits src.2.2 w j)
    let img1 := match ld with
      | .slices st k => setBits img (4 * st + 512 * j) (Nat.min len (4 * k - 512 * j)) r.1
      | .flag k => setBits img k 1 r.1
      | _ => img
    let rest := laneBeats ld w rd op n (j + 1) img1
    ((trunc r.1 len) <<< (512 * j) + rest.1, r.2 ||| rest.2)

/-- The bits of D that beats from `lo` on write: those of the beats, and with the last beat the bits of a wider D,
as zeros; a narrower D takes its part (R62; log entry 63). -/
def beatWrites (st k w lo hi v : Nat) : List Write :=
  let top := if hi = w then 4 * k else Nat.min hi (4 * k)
  if lo < top then [.win (4 * st + lo) (top - lo) (trunc (v >>> lo) (top - lo))] else []

/-- A result that is written whole after the last beat (R63), of which the beats at hand make `v`. -/
def Ctx.gather (x : Ctx) (w v flags : Nat) : Res :=
  if x.last then { writes := writeLoc x.ld w (x.acc ||| v), flags := flags }
  else { flags := flags, acc := x.acc ||| v }

/-- A lane-parallel instruction from its first beat on: `op len a b d` is one beat's result and flags (R62). -/
def Ctx.lanewise (x : Ctx) (w : Nat) (rd : Nat → Nat × Nat × Nat) (op : Nat → Nat → Nat → Nat → Nat × Nat) : Res :=
  let r := laneBeats x.ld w rd op x.beats x.beat x.img
  match x.ld with
  | .slices st k =>
    { writes := beatWrites st k w (512 * x.beat) (Nat.min w (512 * (x.beat + x.beats))) r.1, flags := r.2 }
  | _ => x.gather w r.1 r.2

/-- Own width of an operand for an instruction that reads it without R60: natural, or `w` for a port or ZERO. -/
def ownWidth (o : Option Opnd) (w : Nat) : Nat :=
  match o with
  | some o =>
    match (opndAt false 0 o).naturalWidth with
    | 0 => w
    | n => n
  | none => w

/-- The result of an instruction that writes D alone. -/
def Ctx.write (x : Ctx) (w v : Nat) (flags : Nat := 0) : Res := { writes := writeLoc x.ld w v, flags := flags }

end Sys2Proof.Machine
end

