-- ==== Sys2Proof/Machine/Landing.lean ====
section
/-! DEFINITION. Class T results landing (R158, R161, R162). -/

namespace Sys2Proof.Machine

open Sys2Proof

/-- A landing of a thread by its name. -/
def Thread.landing? (th : Thread) (id : Nat) : Option Landing := th.landings.find? fun l => l.id == id

/-- The thread with a landing changed. -/
def Thread.modLanding (th : Thread) (id : Nat) (f : Landing → Landing) : Thread :=
  { th with landings := th.landings.map fun l => if l.id == id then f l else l }

/-- The window value of a landing's result: its image at the destination's first bit. -/
def Landing.image (l : Landing) : BitVec 8192 :=
  match l.dest with
  | .slices st _ => BitVec.ofNat 8192 (l.value <<< (4 * st))
  | .flag k => BitVec.ofNat 8192 ((l.value % 2) <<< k)
  | _ => 0

/-- The thread once a result has landed: the covered bits written over whatever stands there, the flags of the
result, and the tag freed with the last result of its producer (R158, R161, R162, R199). -/
def Thread.land (th : Thread) (l : Landing) : Thread :=
  let th1 := (th.landBits l.cover l.image).raise l.flags
  let th2 := th1.modLanding l.id fun l => { l with landed := true }
  let th3 := { th2 with held := if th2.held = some l.id then none else th2.held,
                        wait := if th2.held = some l.id then none else th2.wait }
  let th4 := match l.kind with
    | .rwait w => { th3 with rstat := BitVec.ofNat 64 w }
    | _ => th3
  th4.dropLanded

/-- A result lands on a port (R158): `s1` is the state with it landed. The room found at issue has been kept; a target
that takes nothing while it is saved is tested again (R74, R78), by its wake if it is the thread's own, and one that has
left the launch fails the push as at issue, the fault being deferred (log entry 54). -/
def landPush (c t q w : Nat) (l : Landing) (s1 s : State) : State :=
  if (s.core c).stopped then s else
  match pushTest s1 c t q w 0 with
  | .room d u r => enterGroup c t d u r w l.value s1
  | .discard => s1.modThread c t (·.dropped q)
  | .edge => raiseDeferred (s.agent c t) ⟨l.id, Cause.portEdge, q, l.tag, l.pc, l.id⟩ s
  | _ => s.after 1 (.resultLanding c t l.id)

/-- A result lands in the window. -/
def Dest.inWindow : Dest → Bool
  | .slices _ _ | .flag _ => true
  | _ => false

/-- A result lands in a slot, if it waits for no response (R158): a port destination is pushed at the landing. One that
reaches a drowsy window wakes it, and lands 20 cycles later (R65). -/
def landResult (c t id : Nat) (s : State) : State :=
  match (s.thread c t).landing? id with
  | none => s
  | some l =>
    if l.missing ≠ 0 ∨ l.landed = true then s
    else if (s.thread c t).drowsy && l.dest.inWindow then
      (s.modThread c t fun th => { th with drowsy := false }).after 20 (.resultLanding c t id)
    else
    let s1 := s.setThread c t ((s.thread c t).land l)
    match l.dest with
    | .port q w => landPush c t q w l s1 s
    | _ => s1

/-- A landing is dropped without writing: its access faulted, and the tag frees (R326). -/
def Thread.dropLanding (th : Thread) (id : Nat) : Thread :=
  { th with landings := th.landings.filter fun l => l.id ≠ id,
            held := if th.held = some id then none else th.held }.dropLanded

/-- TINV covers a cached translation (R315): the page holding an address under an ASID, an ASID, or all. -/
def Xlat.dropped (kind asid a : Nat) (x : Xlat) : Bool :=
  match kind with
  | 0 => x.asid == asid && x.va ≤ a && a < x.va + x.size
  | 1 => x.asid == a % 2 ^ 14
  | _ => true

/-- A landing of TINV drops what it covers in all 64 edge ports (R315). An access that has used a translation and is
not complete holds it. -/
def landTinv (c t : Nat) (l : Landing) (s : State) : State :=
  match l.kind with
  | .tinv kind asid a =>
    if s.invWaits.isEmpty then
      landResult c t l.id { s with edges := s.edges.map fun (e : EdgePort) =>
        { e with cache := e.cache.filter fun x => !x.dropped kind asid a
                 roots := if kind = 0 then e.roots else if kind = 1 then e.roots.filter fun x => x.1 ≠ a % 2 ^ 14 else [] } }
    else s.after 1 (.resultLanding c t l.id)
  | _ => landResult c t l.id s

/-- RESULT_LANDING (R158): a class T result lands. -/
def execResultLanding (c t id : Nat) (s : State) : Host.Outcome State Fault Refusal :=
  .next (match (s.thread c t).landing? id with
    | some l => landTinv c t l s
    | none => s)

end Sys2Proof.Machine
end

