-- ==== Sys2Proof/Machine/Boundary.lean ====
section
/-! DEFINITION. Causes taken at thread boundaries: pending, deferred and asynchronous ones (R322, R326, R327). -/

namespace Sys2Proof.Machine

open Sys2Proof

/-- A deferred fault as it is entered: the next PC to issue is the resume PC (Table 19.2, R326). -/
def Deferred.raised (d : Deferred) (th : Thread) : Raised := ⟨d.cause, d.tval, th.pc, d.fpc, false, true, d.tag⟩

/-- The deferred fault whose access was issued first, if none is being handled (R326). -/
def Thread.firstDeferred (th : Thread) : Option Deferred :=
  if th.deferOn.isSome then none
  else th.deferred.foldl (fun m d => match m with
    | none => some d
    | some e => if d.order < e.order then some d else some e) none

/-- The asynchronous cause of the lowest code (R327). -/
def Thread.firstAsync (th : Thread) : Option Raised :=
  th.async.foldl (fun m r => match m with
    | none => some r
    | some e => if r.cause < e.cause then some r else some e) none

/-- A slot whose program runs may be at a boundary: no beat under way, and held by no result but one that faulted (R322). -/
def Thread.atBoundary (th : Thread) (now : Nat) : Bool :=
  th.running && th.busyTo ≤ now && !(th.halted && !th.stepping) &&
  match th.held with
  | none => true
  | some id => th.deferred.any fun d => d.land == id

/-- The slot has a cause to take at its boundary. STORAGE_IO of a block that its instruction is about to read again is raised
ahead of an asynchronous cause (R125, R327). -/
def Thread.hasCause (th : Thread) : Bool :=
  match th.pendCause with
  | some _ => th.resumed
  | none => th.firstDeferred.isSome || (th.held.isNone && !th.blockErr && th.firstAsync.isSome)

/-- The first cause of a slot and the slot without it: a pending one, a deferred one, which frees its tag, an
asynchronous one (R327). -/
def Thread.nextCause (th : Thread) : Option (Raised × Thread) :=
  match th.pendCause with
  | some r => some (r, { th with pendCause := none })
  | none =>
    match th.firstDeferred with
    | some d => some (d.raised th, { th with deferred := th.deferred.erase d, deferOn := some d.order }.dropLanding d.land)
    | none => th.firstAsync.map fun r =>
        ({ r with resume := th.pc, fpc := if r.async then th.pc else r.fpc }, { th with async := th.async.erase r })

/-- The slot held by no result: one that still holds it at a boundary has faulted, and its fault is raised after those
of the accesses issued before it (R326). -/
def Thread.letGo (th : Thread) : Thread := th.held.elim th th.dropLanding

/-- Takes the first cause of a slot at a boundary (R327). -/
def takeFirst (c t : Nat) (s : State) : State :=
  match (s.thread c t).letGo.nextCause with
  | some (r, th) => takeCause c t r (s.setThread c t th)
  | none => s

/-- A slot as its bunch is saved: the first cause raised and not entered is the pending one of its record (R327, R332). -/
def Thread.pended (th : Thread) : Thread :=
  match th.nextCause with
  | some (r, th') => { th' with pendCause := some r }
  | none => th

/-- A slot at a boundary has no beat in the datapath of its core. -/
def Core.leaveDatapath (k : Core) (t now : Nat) : Core :=
  if k.vecLast = t then { k with vecFree := Nat.min k.vecFree now } else k

/-- TRAP_ENTRY (R323): the executing thread, at a boundary, takes the cause raised for it. One held by a trace stall does
not wait (R387). -/
def execTrapEntry (s : State) : Host.Outcome State Fault Refusal :=
  .next (
    let th := s.me
    if th.atBoundary s.now && th.hasCause && !s.myCore.stopped then
      let s' := takeFirst s.curCore s.curSlot (s.modMyCore (·.leaveDatapath s.curSlot s.now))
      if traceHolds s.curCore s s' then s.modMe fun th => { th.letGo with tried := true, wait := none } else s'
    else s)

end Sys2Proof.Machine
end

