-- ==== Sys2Proof/Machine/Comparators.lean ====
section
/-! DEFINITION. Debug halts and comparators (R375, R377, R378). -/

namespace Sys2Proof.Machine

open Sys2Proof

/-- Halts a thread for the debugger at its next boundary (R375). -/
def haltThread (c t : Nat) (s : State) : State :=
  s.modThread c t fun th => { th with halted := true, stepping := false }

/-- The cores of a placed bunch. -/
def bunchCores (s : State) (l b : Nat) : List Nat :=
  match s.bunch? l b with
  | some y =>
    let d := s.desc l
    if y.state = .placed ∨ y.state = .halting then
      (List.range (d.w * d.h)).map fun i => coreOfIndex y.x y.y d.w i
    else []
  | none => []

/-- Halts every thread of a bunch for the debugger; none of its cores starts a handler (R375). -/
def haltBunchDebug (l b : Nat) (s : State) : State :=
  (bunchCores s l b).foldl (fun s c => s.modCore c fun k =>
      { k with dbgHalt := true, threads := k.threads.map fun th => { th with halted := true, stepping := false } })
    (s.modBunch l b fun y => { y with halted := true })

/-- A comparator that has fired (Table 23.8): halts the thread or the bunch, or raises BREAKPOINT with the given
resume PC and FPC. -/
def fire (c t n : Nat) (x : Comparator) (resume fpc : W32) (s : State) : State :=
  match x.act with
  | 0 => haltThread c t s
  | 1 => haltBunchDebug (s.occ c).launch (s.occ c).bunch s
  | _ => takeCause c t ⟨Cause.breakpoint, 0x100 + n, resume, fpc, false, false, 0⟩ s

/-- The comparators of a core with their numbers. -/
def Core.numbered (k : Core) : List (Nat × Comparator) := (List.range 4).zip k.comps

/-- A comparator watches a slot. -/
def Comparator.watches (x : Comparator) (t : Nat) : Bool := x.v && x.slots.getLsbD t

/-- A thread's execute comparator has fired at its PC and waits for its next issue (R378). -/
def Thread.skips (th : Thread) (n : Nat) : Bool := th.bpSkip.any fun e => e == ⟨n, th.pc, th.context⟩

/-- The execute comparators that fire before the issue of a slot. -/
def Core.execHits (k : Core) (t : Nat) : List (Nat × Comparator) :=
  k.numbered.filter fun p =>
    p.2.watches t && p.2.kind == 0 && p.2.addr.toNat == (k.thread t).pc.toNat && !(k.thread t).skips p.1

/-- Comparators fire together: halts all take effect, and one BREAKPOINT is raised, that of the lowest number. -/
def fireAll (hits : List (Nat × Comparator)) (resume fpc : W32) (s : State) : State :=
  let s1 := (hits.filter fun p => p.2.act < 2).foldl (fun s p => fire s.curCore s.curSlot p.1 p.2 resume fpc s) s
  match hits.find? fun p => 2 ≤ p.2.act with
  | some (m, x) => fire s.curCore s.curSlot m x resume fpc s1
  | none => s1

/-- The comparators among those that match which have fired: the halts, and the BREAKPOINT raised. -/
def fired (hits : List (Nat × Comparator)) : List Nat :=
  (hits.filter fun p => p.2.act < 2).map Prod.fst ++ ((hits.find? fun p => 2 ≤ p.2.act).map Prod.fst).toList

/-- The execute comparators of the executing thread fire (R378). They do not fire again until it has issued. -/
def breakHere (s : State) : State :=
  let hits := s.myCore.execHits s.curSlot
  let s1 := s.modMe fun th =>
    { th with bpSkip := th.bpSkip ++ (fired hits).map fun n => ⟨n, th.pc, th.context⟩
              tried := true }
  fireAll hits s.me.pc s.me.pc s1

/-- The data comparators that a memory form's bytes [ea, ea + n) touch (R378). -/
def Core.dataHits (k : Core) (t ea n : Nat) (writes : Bool) : List (Nat × Comparator) :=
  k.numbered.filter fun p => p.2.watches t && (p.2.kind == 2 || (p.2.kind == 1 && writes)) &&
    ea / 8 ≤ p.2.addr.toNat / 8 && p.2.addr.toNat / 8 ≤ (ea + n - 1) / 8

/-- After a memory form at `fpc`, its data comparators fire, at the invasive level (Table 23.4). -/
def fireData (ea n : Nat) (writes : Bool) (fpc : W32) (s : State) : State :=
  if s.debugLevel = 2 then fireAll (s.myCore.dataHits s.curSlot ea n writes) s.me.pc fpc s else s

end Sys2Proof.Machine
end

