-- ==== Sys2Proof/Machine/Fetch.lean ====
section
/-! DEFINITION. Fetching the word at a thread's PC, and words that are not instructions (R147, R148, R166). -/

namespace Sys2Proof.Machine

open Sys2Proof

/-- The ten bytes of the word at a PC of a core's code region (R147). -/
def codeBytes (s : State) (c : Nat) (pc : W32) : List Byte :=
  Mem.readN s.mem (localKey c (codeBase + 10 * pc.toNat)) 10

/-- The word's bytes lie wholly below 0xA_8000 + CODELEN (R148). -/
def inImage (s : State) (c : Nat) (pc : Nat) : Bool := 10 * pc + 10 ≤ (s.core c).codelen

/-- The instruction of the executing thread; a word that is none, or lies beyond the image, is the event
WORD_NOT_AN_INSTRUCTION. -/
def fetch (s : State) : Instr :=
  if inImage s s.curCore s.me.pc.toNat then
    match decodeBytes (codeBytes s s.curCore s.me.pc) with
    | .ok i => i
    | .error _ => .wordNotAnInstruction
  else .wordNotAnInstruction

/-- The cause of a bad word (Table 9.7). -/
def badWordCause : BadWord → Nat
  | .illegalFill => Cause.illegalFill
  | .illegalOp => Cause.illegalOp
  | .illegalRsvd => Cause.illegalRsvd
  | .illegalOperand => Cause.illegalOperand

/-- The cause and tval of the word at a PC, if it is no instruction (R148, R166). -/
def wordTrap (s : State) (c : Nat) (pc : W32) : Option (Nat × Nat) :=
  if inImage s c pc.toNat then
    let bs := codeBytes s c pc
    match decodeBytes bs with
    | .ok _ => none
    | .error e => some (badWordCause e, trunc (ofBytes bs) 64)
  else some (Cause.fetchRange, pc.toNat)

/-- WORD_NOT_AN_INSTRUCTION (R166): the executing thread takes the cause of the word at its PC. -/
def execWordNotAnInstruction (s : State) : Host.Outcome State Fault Refusal :=
  .next (match wordTrap s s.curCore s.me.pc with
    | some (cause, tval) =>
      let s' := stopAt (.trap cause tval) s
      if traceHolds s.curCore s s' then stopAt (.hold false) s else s'
    | none => s)

end Sys2Proof.Machine
end

