-- ==== Sys2Proof/Machine/Schedule.lean ====
section
/-! DEFINITION. Issue selection (R34, R39, R201): which slot of which core acts next in a cycle. -/

namespace Sys2Proof.Machine

open Sys2Proof

/-- Slot numbers from the one after `last` on, wrapping from 7 to 0 (R34). -/
def slotsAfter (last : Nat) : List Nat := (List.range 8).map fun j => (last + 1 + j) % 8

/-- YIELD passes over a slot (R201). -/
def Thread.yields (th : Thread) (now : Nat) : Bool := now < th.yieldTo && !th.yieldFor.isEmpty

/-- A slot may be considered for issue in this cycle. -/
def Thread.mayIssue (th : Thread) (now : Nat) : Bool :=
  th.running && th.cls ≠ .ended && th.pendCause.isNone && th.held.isNone && th.busyTo ≤ now && !th.tried &&
  !(th.halted && !th.stepping) && !th.yields now

/-- A core may issue in this cycle. -/
def Core.mayIssue (k : Core) : Bool := k.owner.isSome && !k.issued && !k.stopped && !k.failed

/-- A slot of a class may be considered for issue in this cycle. -/
def Core.mayTry (k : Core) (now : Nat) (cls : TClass) (t : Nat) : Bool :=
  (k.thread t).mayIssue now && decide ((k.thread t).cls = cls)

/-- The normal slots that must issue within `r` cycles, where they are ready, if none may be passed over in 8 (R35). -/
def Core.within (k : Core) (now r : Nat) : List Nat :=
  (List.range 8).filter fun t => k.mayTry now .normal t && decide (8 ≤ (k.thread t).passed + r)

/-- `r` slots that are ready must issue within `r` cycles. -/
def Core.tight (k : Core) (ready : Nat → Bool) (now r : Nat) : Bool :=
  decide (r ≤ (k.within now r).length) && decide (r ≤ ((k.within now r).filter ready).length)

/-- The normal slots to choose among: the ready ones whose bound of R35 leaves no cycle for another, if there are such; else
all (log entry 53). -/
def Core.due (k : Core) (ready : Nat → Bool) (now : Nat) : List Nat :=
  (([1, 2, 3, 4, 5, 6, 7, 8].find? (k.tight ready now)).map fun r => (k.within now r).filter ready).getD (List.range 8)

/-- The normal slot a core considers next: the one the vector datapath has been given to comes ahead of the others
(R39), which follow round-robin (R34); neither breaks the bound of R35. -/
def Core.nextNormal (k : Core) (ready : Nat → Bool) (now : Nat) : Option Nat :=
  let ok (t : Nat) : Bool := k.mayTry now .normal t && (k.due ready now).contains t
  match k.vecGrant.filter ok with
  | some t => some t
  | none => (slotsAfter k.lastN).find? ok

/-- The slot a core considers next (R34): the highest class, round-robin; R35's bound comes before R39's order (log entry
53). -/
def Core.nextSlot (k : Core) (ready : Nat → Bool) (now : Nat) : Option Nat :=
  match (slotsAfter k.lastH).find? (k.mayTry now .handler) with
  | some t => some t
  | none =>
    match (slotsAfter k.lastT).find? (k.mayTry now .trap) with
    | some t => some t
    | none => k.nextNormal ready now

/-- The datapath is free, and who has it next is to be found: it has just freed, or the slot it was given to cannot
issue any more (R39). -/
def Core.vecDue (k : Core) (now : Nat) : Bool :=
  k.vecFree ≤ now && (k.vecAsk || k.vecGrant.any fun t => !({ k.thread t with tried := false }).mayIssue now)

/-- A slot whose repetition streams on (R178): its next beat needs no issue of the core. -/
def Core.beatSlot (k : Core) (now : Nat) : Option Nat :=
  (List.range 8).find? fun t => k.streams t now && (k.thread t).mayIssue now

/-- What happens next in a cycle. -/
inductive Pick where
  | cause (c t : Nat)
  | datapath (c : Nat)
  | comparator (c t : Nat)
  | issue (c t : Nat)
  | none
deriving DecidableEq, Repr

/-- The slot of a core with a cause to take at its boundary. -/
def Core.causeSlot (k : Core) (now : Nat) : Option Nat :=
  if k.owner.isSome && !k.stopped && !k.failed then
    (List.range 8).find? fun t => (k.thread t).atBoundary now && (k.thread t).hasCause && !(k.thread t).tried
  else none

/-- The first core, in index order, with something to do in this cycle (log entry 2); `ready` tells of a core and slot whether
its instruction would issue. Execute comparators fire at the invasive level (Table 23.4). -/
def pickFrom (now : Nat) (invasive : Bool) (ready : Nat → Nat → Bool) : Table Core → Pick
  | [] => .none
  | (c, k) :: r =>
    match k.causeSlot now with
    | some t => .cause c t
    | none =>
      match if k.owner.isSome && !k.stopped && !k.failed then k.beatSlot now else none with
      | some t => .issue c t
      | none =>
        if k.mayIssue then
          if k.vecDue now then .datapath c
          else match k.nextSlot (ready c) now with
            | some t => if invasive && !(k.execHits t).isEmpty then .comparator c t else .issue c t
            | none => pickFrom now invasive ready r
        else pickFrom now invasive ready r

/-- The state with a slot as the executing thread. -/
def focus (c t : Nat) (s : State) : State := { s with curCore := c, curSlot := t }

/-- The first event whose time has come, and the state without it. -/
def dueEvent (s : State) : Option (Instr × State) :=
  match s.timers with
  | (t, i) :: r => if t ≤ s.now then some (i, { s with timers := r }) else none
  | [] => none

end Sys2Proof.Machine
end

