-- ==== Sys2Proof/Machine/Placing.lean ====
section
/-! DEFINITION. A bunch, a launch, a thread and a core as placing makes them (R24), and those of a loaded program (log entry 6). -/

namespace Sys2Proof.Machine

open Sys2Proof

/-- A descriptor of one bunch of one core with one root thread of the largest window (Table 1.3). -/
def loadDesc : Desc := ⟨0, [0, 0, 0, 98300, 0x048F8000, 0x100000001, 0] ++ List.replicate 17 0⟩

/-- The bunch of a loaded program, at home on core 0. -/
def loadBunch : Bunch where
  idx := 0
  state := .placed
  hx := 0
  hy := 0
  x := 0
  y := 0
  preempt := false
  paging := []
  trapped := []
  haltAsk := false
  haltAt := 0
  haltCause := 0
  fault := 0
  tsave := 0
  outSince := 0
  barriers := List.replicate 16 ⟨0, 0, 0, [], [], []⟩
  ndc := List.replicate 16 0
  ndOvf := false
  saved := []
  watch := none
  halted := false

/-- The launch of a loaded program. -/
def loadLaunch (id : Nat) : Launch where
  id := id
  desc := loadDesc
  source := .queue 0 none
  prio := 0
  started := true
  round := 1
  roundsDone := 0
  bunches := [loadBunch]
  ndlog := false
  quiet := 0
  armed := true
  ended := false
  fatal := none
  final := none
  fills := []
  badFills := []
  report := none

/-- Slot 0 of a loaded program: a root thread at PC 0. -/
def loadThread : Thread := { Thread.reset with kind := .root, running := true, granules := 32 }

/-- The default range table (Table 7.2): `rtbase` and `rtlim`. -/
def defaultRanges : List W64 × List W64 :=
  ([0, 0x0000010000000000, 0x0000800000000000, 0x0000F00000000000] ++ List.replicate 28 0,
   [0x00000000000B8700, 0x0000024FFFFF9700, 0x0000EFFFFFFFA302, 0x0000FFFFFFFFC300] ++ List.replicate 28 0)

/-- Core 0 with the loaded program's thread. -/
def loadCore (id : Nat) : Core :=
  { Core.reset with owner := some ⟨id, 0, 0⟩, codelen := 98300, round := 1,
                    rtbase := defaultRanges.1, rtlim := defaultRanges.2, dlogbase := 0xA7800,
                    threads := loadThread :: List.replicate 7 .reset }

end Sys2Proof.Machine
end

