-- ==== Sys2Proof/Machine/Blocks.lean ====
section
/-! DEFINITION. Block formats (R90 to R98), packing with sub-shifts and outliers, the BXA fit and sum, and
the block arithmetic of R225 to R235 on block images in slice form. -/

namespace Sys2Proof.Machine

/-- The block formats (Table 5.5). -/
inductive BFmt where
  | bx4 | bx8 | bx16 | bxa
deriving DecidableEq, Repr

/-- An exact element: NaN, an infinity (IEEE lanes only) or m × 2^e. -/
inductive EVal where
  | nan
  | inf (neg : Bool)
  | num (m : Int) (e : Int)
deriving DecidableEq, Repr

/-- A block taken apart: exact elements, flag byte, and whether a marker was read as zero (R94). -/
structure Elems where
  vs   : List EVal
  fl   : Nat
  malf : Bool
deriving DecidableEq, Repr

/-- A packed block: its slice image, the `fflags` bits it sets, and the MASK of R100. -/
structure Packed where
  img   : Nat
  flags : Nat
  mask  : Nat
deriving DecidableEq, Repr

namespace FL
/-- Bits of the block flag byte (Table 5.10). -/
def ovf : Nat := 1
/-- An element is NaN. -/
def nan : Nat := 2
/-- Delivered without every contribution. -/
def inc : Nat := 4
/-- A BX4 marker in a source was read as zero. -/
def malf : Nat := 8
/-- A BXA fit rounded. -/
def ren : Nat := 16
end FL

namespace Blk

/-- The format of a block operand's width (R221); `none` for a width that is no block. -/
def fmtOf (w : Nat) : Option BFmt :=
  if w = 256 then some .bx4 else if w = 512 then some .bx8 else if w = 1024 then some .bx16
  else if w = 2048 then some .bxa else none

/-- Slice width (Table 5.5). -/
def width : BFmt → Nat
  | .bx4 => 256 | .bx8 => 512 | .bx16 => 1024 | .bxa => 2048

/-- Memory bytes (Table 5.5). -/
def memBytes : BFmt → Nat
  | .bx4 => 24 | .bx8 => 36 | .bx16 => 68 | .bxa => 200

/-- Element code width (Table 5.5). -/
def codeW : BFmt → Nat
  | .bx4 => 4 | .bx8 => 8 | .bx16 => 16 | .bxa => 48

/-- log2 of the scale S (Table 5.5); BXA has none. -/
def logS : BFmt → Nat
  | .bx4 => 2 | .bx8 => 6 | .bx16 => 14 | .bxa => 0

/-- The limit L of a code (Table 5.5). -/
def limit : BFmt → Nat
  | .bx4 => 7 | .bx8 => 127 | .bx16 => 32767 | .bxa => 2 ^ 47 - 1

/-- Header width (Table 5.6, R235). -/
def hdrW : BFmt → Nat
  | .bx4 => 64 | .bx8 => 32 | .bx16 => 32 | .bxa => 64

/-- First bit of the header in slice form (Table 5.6). -/
def hdrAt (f : BFmt) : Nat := 32 * codeW f

/-- The header bits of a block. -/
def header (f : BFmt) (img : Nat) : Nat := bits img (hdrAt f) (hdrW f)

/-- The header with its reserved bits zero (R91, Tables 5.7 to 5.10). -/
def cleanHdr (f : BFmt) (h : Nat) : Nat :=
  match f with
  | .bx4 => bits h 0 29 + (bits h 32 32) <<< 32
  | .bx8 | .bx16 => bits h 0 29
  | .bxa => bits h 0 21

/-- E of a narrow block; for BXA the signed exponent (Tables 5.7 to 5.9). -/
def expOf (f : BFmt) (img : Nat) : Int :=
  match f with
  | .bxa => val (bits (header f img) 0 16) 16 true
  | _ => (bits (header f img) 0 8 : Int)

/-- The flag byte of a block, reserved bits read as 0 (Table 5.10). -/
def flOf (f : BFmt) (img : Nat) : Nat :=
  match f with
  | .bxa => bits (header f img) 16 5
  | _ => bits (header f img) 24 5

/-- A block with more bits of its flag byte set. -/
def addFl (f : BFmt) (img x : Nat) : Nat := img ||| x <<< (hdrAt f + (if f = .bxa then 16 else 24))

/-- SH[q] of a narrow block. -/
def shOf (f : BFmt) (img q : Nat) : Nat := bits (header f img) (8 + 2 * q) 2

/-- The entry exponent E0 of Table 5.11; for a BXA block it is E (R223). -/
def entryExp (f : BFmt) (img : Nat) : Int :=
  match f with
  | .bx4 => expOf f img + 9
  | _ => expOf f img

/-- lu(X) of R223: log2 of the unit of the elements. -/
def logUnit (f : BFmt) (img : Nat) : Int :=
  match f with
  | .bx4 | .bx8 => expOf f img - 136
  | .bx16 => expOf f img - 144
  | .bxa => expOf f img - 173

/-- A BX8 or BX16 element, or a BX4 element that is no marker (R93). -/
def plainElem (f : BFmt) (img i : Nat) : EVal :=
  let c := val (bits img (codeW f * i) (codeW f)) (codeW f) true
  .num c (expOf f img - 127 - (shOf f img (i / 4) : Int) - (logS f : Int))

/-- Whether BX4 element `i` holds the marker 0b1000. -/
def isMarker (img i : Nat) : Bool := bits img (4 * i) 4 == 8

/-- The pairs of a BX4 block from pair `p` on, with `k` ONIB nibbles used (R94): elements, and whether a marker read as zero. -/
def decPairs (img p : Nat) : Nat → Nat → List EVal × Bool
  | 0, _ => ([], false)
  | n + 1, k =>
    let h := header .bx4 img
    let os := bits h (48 + p) 1
    let i := 2 * p + os
    let j := if os = 0 then i + 1 else i - 1
    if isMarker img i && decide (k < 4) then
      let f := bits h (32 + 4 * k) 4 * 16 + bits img (4 * j) 4
      let v := match Fp.decode Fp.f8 false f with
        | .fin ng m e => EVal.num (if ng then -(m : Int) else m) (e + expOf .bx4 img - 127)
        | _ => .nan
      let r := decPairs img (p + 1) n (k + 1)
      ((if os = 0 then [v, .num 0 0] else [.num 0 0, v]) ++ r.1, r.2)
    else
      let one := fun q => if isMarker img q then EVal.num 0 0 else plainElem .bx4 img q
      let bad := isMarker img (2 * p) || isMarker img (2 * p + 1)
      let r := decPairs img (p + 1) n k
      ([one (2 * p), one (2 * p + 1)] ++ r.1, bad || r.2)

/-- dec of R223: the 32 exact elements of a block, its flag byte (with MALF when a marker read as zero). -/
def dec (f : BFmt) (img : Nat) : Elems :=
  match f with
  | .bx4 =>
    let r := decPairs img 0 16 0
    ⟨r.1, flOf f img ||| (if r.2 then FL.malf else 0), r.2⟩
  | .bx8 | .bx16 =>
    ⟨(List.range 32).map fun i =>
      if bits img (codeW f * i) (codeW f) = 2 ^ (codeW f - 1) then .nan else plainElem f img i,
      flOf f img, false⟩
  | .bxa =>
    ⟨(List.range 32).map fun i =>
      let c := bits img (48 * i) 48
      if c = 2 ^ 47 then .nan else .num (val c 48 true) (expOf f img - 173),
      flOf f img, false⟩

/-- The `fflags` that decoding sets (R94). -/
def malfFlag (x : Elems) : Nat := if x.malf then Flag.malf else 0

/-- m1 × 2^e1 = m2 × 2^e2. -/
def sameValue (m1 : Int) (e1 : Int) (m2 : Int) (e2 : Int) : Bool :=
  let e := min e1 e2
  m1 * ((1 <<< (e1 - e).toNat : Nat) : Int) == m2 * ((1 <<< (e2 - e).toNat : Nat) : Int)

/-- floor(log2 |v|) of a nonzero finite element. -/
def logMag (m : Int) (e : Int) : Int := (Nat.log2 m.natAbs : Int) + e

/-- The finite nonzero elements. -/
def finNonzero (vs : List EVal) : List (Int × Int) :=
  vs.filterMap fun v => match v with
    | .num m e => if m = 0 then none else some (m, e)
    | _ => none

/-- |v| < 7.5 for v = m × 2^k. -/
def under7h (m : Int) (k : Int) : Bool :=
  if 0 ≤ k then decide (2 * (m.natAbs <<< k.toNat) < 15)
  else decide (2 * m.natAbs < 15 <<< (-k).toNat)

/-- The exponent of sc(i, x) for an element m × 2^e (R95). -/
def scExp (f : BFmt) (E : Int) (e : Int) (x : Nat) : Int := e + (logS f : Int) + 127 - E + (x : Int)

/-- A finite element fits with sub-shift `x` (R95). -/
def fits (f : BFmt) (mode : Mode) (E : Int) (x : Nat) (m e : Int) : Bool :=
  let k := scExp f E e x
  decide ((Fp.roundGrid mode m k).natAbs ≤ limit f) && (f != .bx4 || under7h m k)

/-- The grid-overflow loop of R95, R229 and R300: the least exponent from E, at most 255, at which every element is on the grid. -/
def raiseE (f : BFmt) (mode : Mode) (fin : List (Int × Int)) : Nat → Int → Int
  | 0, E => E
  | n + 1, E =>
    if E < 255 && !(fin.all fun p => decide ((Fp.roundGrid mode p.1 (scExp f E p.2 0)).natAbs ≤ limit f))
    then raiseE f mode fin n (E + 1) else E

/-- The exponent R95 chooses. -/
def packExp (f : BFmt) (mode : Mode) (vs : List EVal) : Int :=
  let fin := finNonzero vs
  let top : Int := match fin with
    | [] => 0
    | p :: ps => (ps.foldl (fun a q => max a (logMag q.1 q.2)) (logMag p.1 p.2)) + 127
  let E := min (max top 0) 255
  if f = .bx4 then E else raiseE f mode fin 256 E

/-- An element is finite and fits with sub-shift `x`. -/
def elemFits (f : BFmt) (mode : Mode) (E : Int) (x : Nat) : EVal → Bool
  | .num m e => fits f mode E x m e
  | _ => false

/-- SH of a quad: the largest sub-shift at which all four elements fit, 0 when none (R95). -/
def quadShift (f : BFmt) (mode : Mode) (E : Int) (quad : List EVal) : Nat :=
  if quad.all (elemFits f mode E 3) then 3
  else if quad.all (elemFits f mode E 2) then 2
  else if quad.all (elemFits f mode E 1) then 1 else 0

/-- A packed element code, with the flag-byte bits it sets and whether it counts in MASK. -/
structure Code where
  c   : Int
  fl  : Nat
  sat : Bool
deriving DecidableEq, Repr

/-- The first element loop of R95. For BX4 it never clamps; NaN and infinite elements get their codes in the outlier pass. -/
def firstCode (f : BFmt) (mode : Mode) (E : Int) (sh : Nat) : EVal → Code
  | .nan => ⟨-(2 ^ (codeW f - 1) : Nat), FL.nan, false⟩
  | .inf _ => ⟨-(2 ^ (codeW f - 1) : Nat), FL.nan ||| (if f = .bx4 then 0 else FL.ovf), f != .bx4⟩
  | .num m e =>
    let c := Fp.roundGrid mode m (scExp f E e sh)
    if f != .bx4 && decide (limit f < c.natAbs) then
      ⟨if m < 0 then -(limit f : Int) else (limit f : Int), FL.ovf, true⟩
    else ⟨c, 0, false⟩

/-- The state of the BX4 outlier pass. -/
structure OutState where
  k     : Nat
  onib  : Nat
  oside : Nat
  flags : Nat
deriving DecidableEq, Repr

/-- The larger magnitude of a pair, NaN and infinities highest, the lower index on a tie (R95): true for the second. -/
def secondLarger (x y : EVal) : Bool :=
  match x, y with
  | .num m e, .num m' e' =>
    let lo := min e e'
    decide (m.natAbs <<< (e - lo).toNat < m'.natAbs <<< (e' - lo).toNat)
  | .num _ _, _ => true
  | _, _ => false

/-- A pair of the BX4 outlier pass (R95), at pair `p` with the codes of the first loop. An outlier clamped to 448 does not
count as saturated (log entry 69). -/
def outlierPair (mode : Mode) (E : Int) (p : Nat) (x y : EVal) (cx cy : Code) (st : OutState) :
    Code × Code × OutState :=
  let inX := !elemFits .bx4 mode E 0 x
  let inY := !elemFits .bx4 mode E 0 y
  if !inX && !inY then (cx, cy, st)
  else if st.k < 4 then
    let second := if inX && inY then secondLarger x y else inY
    let v := if second then y else x
    let bothIn := inX && inY
    let (f, fl, ff, sat) : Nat × Nat × Nat × Bool := match v with
      | .num m e =>
        let r := Fp.roundFin Fp.f8 mode false (decide (m < 0)) m.natAbs (e + 127 - E)
        (r.1, 0, r.2, false)
      | .nan => (0x7F, FL.nan, 0, false)
      | .inf _ => (0x7F, FL.nan ||| FL.ovf, 0, true)
    let cOut : Code := ⟨8, fl, sat⟩
    let cNext : Code := ⟨(f % 16 : Nat), if bothIn then FL.ovf else 0, bothIn⟩
    let st' : OutState :=
      ⟨st.k + 1, st.onib + (f / 16) <<< (4 * st.k), st.oside + (b2n second) <<< p, st.flags ||| ff⟩
    if second then (⟨cNext.c, cx.fl ||| cNext.fl, cNext.sat⟩, ⟨8, cy.fl ||| fl, sat⟩, st')
    else (⟨cOut.c, cx.fl ||| fl, sat⟩, ⟨cNext.c, cy.fl ||| cNext.fl, cNext.sat⟩, st')
  else
    let lose := fun (inC : Bool) (v : EVal) (c : Code) =>
      if inC then
        match v with
        | .num m _ => (⟨if m < 0 then -7 else 7, c.fl ||| FL.ovf, true⟩ : Code)
        | .nan => ⟨0, c.fl ||| FL.nan ||| FL.ovf, true⟩
        | .inf _ => ⟨0, c.fl ||| FL.ovf, true⟩
      else c
    (lose inX x cx, lose inY y cy, st)

/-- The BX4 outlier pass over the pairs from `p` on (R95). -/
def outliers (mode : Mode) (E : Int) (p : Nat) : List EVal → List Code → OutState → List Code × OutState
  | x :: y :: vs, cx :: cy :: cs, st =>
    let (a, b, st1) := outlierPair mode E p x y cx cy st
    let r := outliers mode E (p + 1) vs cs st1
    (a :: b :: r.1, r.2)
  | _, cs, st => (cs, st)

/-- A finite element differs from the element it decodes to. -/
def lost (v d : EVal) : Bool :=
  match v, d with
  | .num m e, .num m' e' => !sameValue m e m' e'
  | .num _ _, _ => true
  | _, _ => false

/-- The packing of R95 at a given exponent; with `flat` every SH field is 0. -/
def packAt (f : BFmt) (mode : Mode) (fl : Nat) (E : Int) (flat : Bool) (vs : List EVal) : Packed :=
  let shs := (List.range 8).map fun q => if flat then 0 else quadShift f mode E ((vs.drop (4 * q)).take 4)
  let sh := joinLanes 2 shs
  let cs0 := (List.range 32).map fun i =>
    firstCode f mode E (shs.getD (i / 4) 0) (vs.getD i (.num 0 0))
  let (cs, st) := if f = .bx4 then outliers mode E 0 vs cs0 ⟨0, 0, 0, 0⟩ else (cs0, (⟨0, 0, 0, 0⟩ : OutState))
  let fl' := cs.foldl (fun a c => a ||| c.fl) (fl % 32)
  let codes := joinLanes (codeW f) (cs.map fun c => truncI c.c (codeW f))
  let hdr := E.toNat % 256 + sh <<< 8 + fl' <<< 24
    + (if f = .bx4 then st.onib <<< 32 + st.oside <<< 48 else 0)
  let img := codes + hdr <<< hdrAt f
  let mask := joinLanes 1 (cs.map fun c => b2n c.sat)
  let nx := (vs.zip (dec f img).vs).any fun p => lost p.1 p.2
  ⟨img, st.flags ||| (if mask = 0 then 0 else Flag.ovf) ||| (if nx then Flag.nx else 0), mask⟩

/-- pack(v, fmt, mode, FLin) of R95. -/
def pack (f : BFmt) (mode : Mode) (fl : Nat) (vs : List EVal) : Packed :=
  packAt f mode fl (packExp f mode vs) false vs

/-- A BXA block of mantissas, exponent and flag byte (Tables 5.6 and 5.9). -/
def bxaBlock (ms : List Int) (E : Int) (fl : Nat) : Nat :=
  joinLanes 48 (ms.map fun m => truncI m 48) + (truncI E 16 + (fl % 32) <<< 16) <<< 1536

/-- The least exponent at or above `e0` at which the element m × 2^e fits a BXA mantissa (R98). -/
def fitExp (m e : Int) : Int :=
  -- at exponent E the mantissa has bitLen + e + 173 − E bits before rounding
  let E := (bitLen m.natAbs : Int) + e + 173 - 47
  if (Fp.roundGrid .rne m (e + 173 - E)).natAbs ≤ 2 ^ 47 - 1 then E else E + 1

/-- bxa_fit of R98. An infinite element enters as NaN and sets OVF (R97). -/
def bxaFit (vs : List EVal) (e0 : Int) (fl : Nat) : Packed :=
  let E := min (vs.foldl (fun a v => match v with
    | .num m e => if m = 0 then a else max a (fitExp m e)
    | _ => a) e0) (max e0 32767)
  let one := fun (v : EVal) => match v with
    | .nan => ((-(2 ^ 47 : Nat) : Int), FL.nan, false)
    | .inf _ => (-(2 ^ 47 : Nat), FL.nan ||| FL.ovf, true)
    | .num m e =>
      let c := Fp.roundGrid .rne m (e + 173 - E)
      if 2 ^ 47 - 1 < c.natAbs then
        (if m < 0 then -((2 ^ 47 - 1 : Nat) : Int) else ((2 ^ 47 - 1 : Nat) : Int), FL.ovf, true)
      else if sameValue c (E - 173) m e then (c, 0, false) else (c, FL.ren, false)
  let cs := vs.map one
  let add := cs.foldl (fun a c => a ||| c.2.1) 0
  let mask := joinLanes 1 (cs.map fun c => b2n c.2.2)
  ⟨bxaBlock (cs.map fun c => c.1) E (fl ||| add),
    (if mask = 0 then 0 else Flag.ovf) ||| (if add &&& FL.ren = 0 then 0 else Flag.ren), mask⟩

/-- The exact sum of two elements; NaN where either is. -/
def addE (x y : EVal) : EVal :=
  match x, y with
  | .num m e, .num m' e' =>
    let lo := min e e'
    .num (m * ((1 <<< (e - lo).toNat : Nat) : Int) + m' * ((1 <<< (e' - lo).toNat : Nat) : Int)) lo
  | _, _ => .nan

/-- The negated element. -/
def negE : EVal → EVal
  | .num m e => .num (-m) e
  | v => v

/-- The exact product of two elements; NaN where either is. -/
def mulE (x y : EVal) : EVal :=
  match x, y with
  | .num m e, .num m' e' => .num (m * m') (e + e')
  | _, _ => .nan

/-- The element scaled by 2^k. -/
def scaleE (k : Int) : EVal → EVal
  | .num m e => .num m (e + k)
  | v => v

/-- bxa_add of R98. -/
def bxaAdd (a b : Nat) : Packed :=
  let x := dec .bxa a
  let y := dec .bxa b
  bxaFit (List.zipWith addE x.vs y.vs) (min (expOf .bxa a) (expOf .bxa b)) (x.fl ||| y.fl)

/-- A block brought into BXA (R97). -/
def toBxa (f : BFmt) (img : Nat) : Packed :=
  let x := dec f img
  let p := bxaFit x.vs (entryExp f img) x.fl
  ⟨p.img, p.flags ||| malfFlag x, p.mask⟩

/-- The element of an IEEE value. -/
def ofFVal : FVal → EVal
  | .nan _ => .nan
  | .inf n => .inf n
  | .fin n m e => .num (if n then -(m : Int) else m) e

/-- The IEEE value of an element. -/
def toFVal : EVal → FVal
  | .nan => .nan false
  | .inf n => .inf n
  | .num m e => .fin (decide (m < 0)) m.natAbs e

/-- The slice form of a block read from its memory bytes (R91). -/
def ofMem (f : BFmt) (bs : List Byte) : Nat := ofBytes (bs.take (memBytes f))

/-- The memory bytes of a block in slice form (R91). -/
def toMem (f : BFmt) (img : Nat) : List Byte := toBytes img (memBytes f)

/-- A block with the bits above its header zero and its reserved header bits zero (R91, R221). -/
def clean (f : BFmt) (img : Nat) : Nat :=
  bits img 0 (hdrAt f) + cleanHdr f (header f img) <<< hdrAt f

/-- The overflow record of Table 5.12. -/
def overflowRecord (mask : Nat) (inf : Bool) : Nat :=
  mask % 2 ^ 32 + (popCount mask 32) <<< 32 + (b2n inf) <<< 40

/-- BPACK of a block source or of 32 F32 lanes (R225): result and whether an infinity was converted. -/
def bpack (f : BFmt) (mode : Mode) (x : Elems) (e0 : Int) : Packed × Bool :=
  let inf := x.vs.any fun v => match v with | .inf _ => true | _ => false
  let p := if f = .bxa then bxaFit x.vs e0 x.fl else pack f mode x.fl x.vs
  (⟨p.img, p.flags ||| malfFlag x, p.mask⟩, inf)

/-- BALIGN (R227). -/
def balign (f : BFmt) (mode : Mode) (img : Nat) (et : Int) : Packed :=
  let x := dec f img
  if f = .bxa then
    let one := fun (v : EVal) => match v with
      | .num m e =>
        let c := Fp.roundGrid mode m (e + 173 - et)
        if 2 ^ 47 - 1 < c.natAbs then
          ((if m < 0 then -((2 ^ 47 - 1 : Nat) : Int) else ((2 ^ 47 - 1 : Nat) : Int)), FL.ovf)
        else if sameValue c (et - 173) m e then (c, 0) else (c, FL.ren)
      | _ => (-((2 ^ 47 : Nat) : Int), FL.nan)
    let cs := x.vs.map one
    let add := cs.foldl (fun a c => a ||| c.2) 0
    ⟨bxaBlock (cs.map fun c => c.1) et (x.fl ||| add),
      (if add &&& FL.ovf = 0 then 0 else Flag.ovf) ||| (if add &&& FL.ren = 0 then 0 else Flag.ren)
        ||| malfFlag x, 0⟩
  else
    let p := packAt f mode x.fl et true x.vs
    ⟨p.img, p.flags ||| malfFlag x, p.mask⟩

/-- A sum fitted into BXA at a start exponent, or packed into a narrow format (R228). -/
def fitOrPack (fd : BFmt) (mode : Mode) (vs : List EVal) (e0 : Int) (fl : Nat) : Packed :=
  if fd = .bxa then bxaFit vs e0 fl else pack fd mode fl vs

/-- BADD, and BERR with `sub` (R228, Table 13.2). -/
def badd (fd : BFmt) (mode : Mode) (sub : Bool) (fa : BFmt) (a : Nat) (fb : BFmt) (b : Nat) : Packed :=
  let x := dec fa a
  let y := dec fb b
  let vs := List.zipWith addE x.vs (if sub then y.vs.map negE else y.vs)
  let p := fitOrPack fd mode vs (min (entryExp fa a) (entryExp fb b)) (x.fl ||| y.fl)
  ⟨p.img, p.flags ||| malfFlag x ||| malfFlag y, p.mask⟩

/-- BMAC (R228, Table 13.2). -/
def bmac (d : Nat) (fa : BFmt) (a : Nat) (fb : BFmt) (b : Nat) : Packed :=
  let z := dec .bxa d
  let x := dec fa a
  let y := dec fb b
  let p := bxaFit (List.zipWith addE z.vs (List.zipWith mulE x.vs y.vs))
    (min (expOf .bxa d) (logUnit fa a + logUnit fb b + 173)) (z.fl ||| x.fl ||| y.fl)
  ⟨p.img, p.flags ||| malfFlag x ||| malfFlag y, p.mask⟩

/-- BADDQ (R229). -/
def baddq (f : BFmt) (mode : Mode) (a b : Nat) : Packed :=
  let x := dec f a
  let y := dec f b
  let vs := List.zipWith addE x.vs y.vs
  let E0 := max (expOf f a) (expOf f b)
  let E := if f = .bx4 then E0 else raiseE f mode (finNonzero vs) 256 E0
  let p := packAt f mode (x.fl ||| y.fl) E true vs
  ⟨p.img, p.flags ||| malfFlag x ||| malfFlag y, p.mask⟩

/-- A block with its exponent field replaced. -/
def withExp (f : BFmt) (img : Nat) (E : Int) : Nat :=
  match f with
  | .bxa => setBits img (hdrAt f) 16 (truncI E 16)
  | _ => setBits img (hdrAt f) 8 (truncI E 8)

/-- BSCALE (R230). Above the BXA range the fit of the rule is taken, so a small mantissa may still fit. -/
def bscale (f : BFmt) (mode : Mode) (img : Nat) (k : Int) : Packed :=
  let e' := expOf f img + k
  let lo : Int := if f = .bxa then -32768 else 0
  let hi : Int := if f = .bxa then 32767 else 255
  if lo ≤ e' ∧ e' ≤ hi then ⟨clean f (withExp f img e'), 0, 0⟩
  else
    let x := dec f img
    let vs := x.vs.map (scaleE k)
    let p := if f = .bxa then bxaFit vs (if hi < e' then hi else lo) x.fl else pack f mode x.fl vs
    ⟨p.img, p.flags ||| malfFlag x, p.mask⟩

/-- BNORM (R231). -/
def bnorm (f : BFmt) (mode : Mode) (img : Nat) : Packed :=
  let x := dec f img
  if f = .bxa then
    let E := expOf f img
    let fin := finNonzero x.vs
    let z : Int := match fin with
      | [] => 0
      | p :: ps =>
        min (ps.foldl (fun a q => min a (46 - (Nat.log2 q.1.natAbs : Int))) (46 - (Nat.log2 p.1.natAbs : Int)))
          (E + 32768)
    let ms := x.vs.map fun v => match v with
      | .num m _ => m * ((2 ^ z.toNat : Nat) : Int)
      | _ => -((2 ^ 47 : Nat) : Int)
    ⟨bxaBlock ms (E - z) x.fl, 0, 0⟩
  else
    let p := pack f mode x.fl x.vs
    ⟨p.img, p.flags ||| malfFlag x, p.mask⟩

/-- The exact sum of the elements (R232). -/
def sumE (vs : List EVal) : EVal := vs.foldl addE (.num 0 0)

/-- BMAXE's value before truncation (R233). -/
def bmaxe (vs : List EVal) : Int :=
  match finNonzero vs with
  | [] => -32768
  | p :: ps => (ps.foldl (fun a q => max a (logMag q.1 q.2)) (logMag p.1 p.2)) + 127

/-- BCMPZ's mask (R234): zero elements, or NaN elements with `wantNan`. -/
def bcmpz (vs : List EVal) (wantNan : Bool) : Nat :=
  joinLanes 1 (vs.map fun v => b2n (match v with
    | .num m _ => !wantNan && m == 0
    | .nan => wantNan
    | .inf _ => false))

/-- A block with its header replaced, the reserved header bits and the bits above it zero (R235). -/
def withHeader (f : BFmt) (img h : Nat) : Nat :=
  bits img 0 (hdrAt f) + cleanHdr f h <<< hdrAt f

end Blk

end Sys2Proof.Machine
end

