-- ==== Sys2Proof/Machine/BlockGroup.lean ====
section
/-! DEFINITION. The block group (chapter 13, R221 to R235). -/

namespace Sys2Proof.Machine

open Sys2Proof

/-! ## Block operands (R221) -/

/-- Width of an operand in a block role: a slice's own, `dflt` for ZERO or a port, 0 for any other. -/
def blockWidth (o : Option Opnd) (dflt : Nat) : Nat :=
  match o with
  | some (.slice wc _) => 4 * 2 ^ wc.toNat
  | some .zero => dflt
  | some (.port _) => dflt
  | _ => 0

/-- The format of an operand in a block role; none traps ILLEGAL_OPERAND. -/
def blockFmt (o : Option Opnd) (dflt : Nat) : Option BFmt := Blk.fmtOf (blockWidth o dflt)

/-- A narrow format. -/
def isNarrow (f : Option BFmt) : Bool := f.isSome && f != some .bxa

/-- The format, for an operand already admitted. -/
def fmtAt (o : Option Opnd) (dflt : Nat) : BFmt := (blockFmt o dflt).getD .bxa

/-- The block image in a source of `w` bits. -/
def Ctx.blockA (c : Ctx) (w : Nat) : Nat := c.a w true
/-- B's block. -/
def Ctx.blockB (c : Ctx) (w : Nat) : Nat := c.b w true
/-- D's block, for an instruction that reads it. -/
def Ctx.blockD (c : Ctx) (w : Nat) : Nat := c.d w true

/-- The rounding mode of the instruction. -/
def Ctx.mode (c : Ctx) : Mode := roundingOf c.v.h.rnd c.th

/-- The result of a packing written to D at `w` bits. -/
def Ctx.packed (c : Ctx) (w : Nat) (p : Packed) : Res := c.write w p.img p.flags

/-- The width of a port or ZERO beside a block of the same width (R221, R224): D's, or where D has none A's (R59). -/
def sameWidth (v : View) : Nat := if isSlice v.d then sliceWidth v.d else if isSlice v.a then sliceWidth v.a else opWidth v

/-- The spec of an instruction with blocks A and D of one width (R224: "As A"). -/
def sameSpec (v : View) : Spec :=
  let w := sameWidth v
  let wa := blockWidth v.a w
  let wd := blockWidth v.d w
  { v := v, ra := some wa, wd := some wd, wide := Nat.max wa wd,
    legal := (blockFmt v.a w).isSome && wa == wd }

/-- Width of D as a block (R224). -/
def blockD (v : View) : Nat := blockWidth v.d (opWidth v)

/-- Width at which BPACK reads A: 32 F32 lanes under X, else a block (R225). -/
def bpackA (v : View) : Nat := if v.h.x then 1024 else blockWidth v.a (blockD v)

/-- The operands of BPACK (R225): D a block, A a block or 32 F32 lanes, B a flag, port or ZERO that is written. -/
def bpackSpec (v : View) : Spec :=
  { v := v, ra := some (bpackA v), wd := some (blockD v),
    wb := if isPort v.b then some 64 else if isFlag v.b then some 1 else none, wide := Nat.max (bpackA v) (blockD v),
    legal := (Blk.fmtOf (blockD v)).isSome && (v.h.x || (Blk.fmtOf (bpackA v)).isSome) &&
      (isPort v.b || isFlag v.b || v.b == some .zero) }

/-- The operands of BUNPK (R226): a block and 1,024 bits. -/
def bunpkSpec (v : View) : Spec :=
  let wa := blockWidth v.a 1024
  { v := v, ra := some wa, wd := some 1024, wide := Nat.max wa 1024,
    legal := (Blk.fmtOf wa).isSome && blockWidth v.d 1024 == 1024 }

/-- The operands of BADD (R228): three blocks. -/
def baddSpec (v : View) : Spec :=
  let wa := blockWidth v.a (blockD v)
  let wb := blockWidth v.b (blockD v)
  { v := v, ra := some wa, rb := some wb, wd := some (blockD v), wide := Nat.max (Nat.max wa wb) (blockD v),
    legal := (Blk.fmtOf wa).isSome && (Blk.fmtOf wb).isSome && (Blk.fmtOf (blockD v)).isSome }

/-- The operands of BADDQ (R229): three blocks of one narrow format. -/
def baddqSpec (v : View) : Spec :=
  let w := blockD v
  { v := v, ra := some w, rb := some w, wd := some w, wide := w,
    legal := isNarrow (Blk.fmtOf w) && blockWidth v.a w == w && blockWidth v.b w == w }

/-- The operands of BMAXE (R233): a block, and a slice of 16 to 64 bits. -/
def bmaxeSpec (v : View) : Spec :=
  let w := opWidth v
  let wa := blockWidth v.a w
  { v := v, ra := some wa, wd := some w, wide := Nat.max wa w,
    legal := (Blk.fmtOf wa).isSome && isSlice v.d && decide (16 ≤ w ∧ w ≤ 64) }

/-- The operands of BMAC (R228): D a BXA block that is read, A and B narrow. -/
def bmacSpec (v : View) : Spec :=
  let wa := blockWidth v.a 2048
  let wb := blockWidth v.b 2048
  { v := v, ra := some wa, rb := some wb, rd := some 2048, wd := some 2048, wide := 2048,
    legal := isNarrow (Blk.fmtOf wa) && isNarrow (Blk.fmtOf wb) && blockWidth v.d 2048 == 2048 && !isPort v.d }

/-- Width BHSUM writes: 2,048 for a BXA slice, else 32 (R232). -/
def hsumWidth (v : View) : Nat := if isSlice v.d then sliceWidth v.d else 32

/-- The operands of BHSUM (R232). -/
def bhsumSpec (v : View) : Spec :=
  let w := hsumWidth v
  let wa := blockWidth v.a w
  { v := v, ra := some wa, wd := some w, wide := Nat.max wa w,
    legal := (Blk.fmtOf wa).isSome && (w == 2048 || w == 32) && !isFlag v.d }

/-- The operands of BERR (R228): A and D BXA. -/
def berrSpec (v : View) : Spec :=
  let wb := blockWidth v.b 2048
  { v := v, ra := some 2048, rb := some wb, wd := some 2048, wide := 2048,
    legal := blockWidth v.d 2048 == 2048 && blockWidth v.a 2048 == 2048 && (Blk.fmtOf wb).isSome }

/-- The operands of BCMPZ (R234): a block, and a flag or at least 32 bits. -/
def bcmpzSpec (v : View) : Spec :=
  let w := opWidth v
  let wa := blockWidth v.a w
  { v := v, ra := some wa, wd := some w, wide := Nat.max wa w,
    legal := (Blk.fmtOf wa).isSome && (isFlag v.d || ((isSlice v.d || isPort v.d) && decide (32 ≤ w))) }

/-- Width of BHDR's D: a block where its header is replaced, else an operand (R235). -/
def bhdrD (v : View) : Nat := if v.h.x then blockD v else opWidth v

/-- Width of the header BHDR replaces (R235). -/
def bhdrH (v : View) : Nat := Blk.hdrW ((Blk.fmtOf (bhdrD v)).getD .bxa)

/-- Width at which BHDR reads A (R235). -/
def bhdrA (v : View) : Nat := if v.h.x then bhdrH v else blockWidth v.a (bhdrD v)

/-- The operands of BHDR (R235). -/
def bhdrSpec (v : View) : Spec :=
  { v := v, ra := some (bhdrA v), rd := if v.h.x then some (bhdrD v) else none, wd := some (bhdrD v),
    wide := Nat.max (bhdrA v) (bhdrD v),
    legal := if v.h.x then (Blk.fmtOf (bhdrD v)).isSome && !isPort v.d else (Blk.fmtOf (bhdrA v)).isSome && isSlice v.d }

/-! ## The instructions -/

/-- BPACK (R225): D's block, then the overflow record to a flag or port in B (R100). -/
def execBpack (h : Hdr) (d a b : Opnd) (s : State) : Host.Outcome State Fault Refusal :=
  run (.bpack h d a b) bpackSpec (fun c =>
    let f := (Blk.fmtOf (blockD c.v)).getD .bxa
    let fa := (Blk.fmtOf (bpackA c.v)).getD .bxa
    let lanesA := (lanes (c.a 1024 false) 32 32).map (Fp.decode Fp.f32 c.th.ftz)
    let nv := if c.x && lanesA.any Fp.isSig then Flag.nv else 0
    let src : Elems := if c.x then ⟨lanesA.map Blk.ofFVal, 0, false⟩ else Blk.dec fa (c.blockA (bpackA c.v))
    let e0 : Int := if c.x then -32768 else Blk.entryExp fa (c.blockA (bpackA c.v))
    let r := Blk.bpack f c.mode src e0
    let rec_ := match c.lb with
      | .flag k => [Write.win k 1 (if r.1.mask = 0 then 0 else 1)]
      | .port q => [Write.push q 64 (Blk.overflowRecord r.1.mask r.2)]
      | _ => []
    .ok { writes := writeLoc c.ld (blockD c.v) r.1.img ++ rec_, flags := r.1.flags ||| nv }) s

/-- BUNPK (R226): 32 F32 lanes. -/
def execBunpk (h : Hdr) (d a : Opnd) (s : State) : Host.Outcome State Fault Refusal :=
  run (.bunpk h d a) bunpkSpec (fun c =>
    let x := Blk.dec (fmtAt c.v.a 1024) (c.blockA (blockWidth c.v.a 1024))
    let rs := x.vs.map fun v => Fp.encode Fp.f32 c.mode c.th.ftz (Blk.toFVal v)
    .ok (c.write 1024 (joinLanes 32 (rs.map Prod.fst)) (rs.foldl (fun m r => m ||| r.2) (Blk.malfFlag x)))) s

/-- BALIGN (R227): the exponent is natural for a narrow format, signed for BXA. -/
def execBalign (h : Hdr) (d a b : Opnd) (s : State) : Host.Outcome State Fault Refusal :=
  run (.balign h d a b) (fun v => { sameSpec v with rb := some 16 }) (fun c =>
    let f := fmtAt c.v.a c.w
    let w := Blk.width f
    let et : Int := if f = .bxa then val (c.b 16 false) 16 true else val (c.b 16 true) 16 false
    if f ≠ .bxa ∧ 255 < et then .error (.trap Cause.illegalOperand et.toNat)
    else .ok (c.packed w (Blk.balign f c.mode (c.blockA w) et))) s

/-- BADD (R228). -/
def execBadd (h : Hdr) (d a b : Opnd) (s : State) : Host.Outcome State Fault Refusal :=
  run (.badd h d a b) baddSpec (fun c =>
    let w := blockD c.v
    .ok (c.packed w (Blk.badd ((Blk.fmtOf w).getD .bxa) c.mode false (fmtAt c.v.a w) (c.blockA (blockWidth c.v.a w))
      (fmtAt c.v.b w) (c.blockB (blockWidth c.v.b w))))) s

/-- BADDQ (R229): three blocks of one narrow format. -/
def execBaddq (h : Hdr) (d a b : Opnd) (s : State) : Host.Outcome State Fault Refusal :=
  run (.baddq h d a b) baddqSpec (fun c =>
    let w := blockD c.v
    .ok (c.packed w (Blk.baddq ((Blk.fmtOf w).getD .bxa) c.mode (c.blockA w) (c.blockB w)))) s

/-- BSCALE (R230). -/
def execBscale (h : Hdr) (d a b : Opnd) (s : State) : Host.Outcome State Fault Refusal :=
  run (.bscale h d a b) (fun v => { sameSpec v with rb := some 16 }) (fun c =>
    let f := fmtAt c.v.a c.w
    let w := Blk.width f
    .ok (c.packed w (Blk.bscale f c.mode (c.blockA w) (val (c.b 16 false) 16 true)))) s

/-- BNORM (R231). -/
def execBnorm (h : Hdr) (d a : Opnd) (s : State) : Host.Outcome State Fault Refusal :=
  run (.bnorm h d a) sameSpec (fun c =>
    let f := fmtAt c.v.a c.w
    let w := Blk.width f
    .ok (c.packed w (Blk.bnorm f c.mode (c.blockA w)))) s

/-- BMAXE (R233): D a slice of 16 to 64 bits. -/
def execBmaxe (h : Hdr) (d a : Opnd) (s : State) : Host.Outcome State Fault Refusal :=
  run (.bmaxe h d a) bmaxeSpec (fun c =>
    let x := Blk.dec (fmtAt c.v.a c.w) (c.blockA (blockWidth c.v.a c.w))
    .ok (c.write c.w (truncI (Blk.bmaxe x.vs) c.w) (Blk.malfFlag x))) s

/-- BMAC (R228): D a BXA block that is read; A and B narrow. -/
def execBmac (h : Hdr) (d a b : Opnd) (s : State) : Host.Outcome State Fault Refusal :=
  run (.bmac h d a b) bmacSpec (fun c =>
    .ok (c.packed 2048 (Blk.bmac (c.blockD 2048) (fmtAt c.v.a 2048) (c.blockA (blockWidth c.v.a 2048))
      (fmtAt c.v.b 2048) (c.blockB (blockWidth c.v.b 2048))))) s

/-- BHSUM (R232): the exact sum, fitted into BXA or rounded once to F32. -/
def execBhsum (h : Hdr) (d a : Opnd) (s : State) : Host.Outcome State Fault Refusal :=
  run (.bhsum h d a) bhsumSpec (fun c =>
    let w := hsumWidth c.v
    let f := fmtAt c.v.a w
    let img := c.blockA (blockWidth c.v.a w)
    let x := Blk.dec f img
    let sum := Blk.sumE x.vs
    if w = 2048 then
      let p := Blk.bxaFit (sum :: List.replicate 31 (.num 0 0)) (Blk.entryExp f img) x.fl
      .ok (c.write w p.img (p.flags ||| Blk.malfFlag x))
    else
      let r := Fp.encode Fp.f32 c.mode c.th.ftz (Blk.toFVal sum)
      .ok (c.write 32 r.1 (r.2 ||| Blk.malfFlag x))) s

/-- BERR (R228): A − B, with A and D BXA. -/
def execBerr (h : Hdr) (d a b : Opnd) (s : State) : Host.Outcome State Fault Refusal :=
  run (.berr h d a b) berrSpec (fun c =>
    .ok (c.packed 2048 (Blk.badd .bxa .rne true .bxa (c.blockA 2048) (fmtAt c.v.b 2048)
      (c.blockB (blockWidth c.v.b 2048))))) s

/-- BCMPZ (R234): a mask of zero or NaN elements, or the or of its bits into a flag. -/
def execBcmpz (h : Hdr) (d a : Opnd) (s : State) : Host.Outcome State Fault Refusal :=
  run (.bcmpz h d a) bcmpzSpec (fun c =>
    let x := Blk.dec (fmtAt c.v.a c.w) (c.blockA (blockWidth c.v.a c.w))
    let m := Blk.bcmpz x.vs c.x
    .ok (c.write c.w (if isFlag c.v.d then (if m = 0 then 0 else 1) else m) (Blk.malfFlag x))) s

/-- BHDR (R235): reads A's header, its reserved bits as stored (log entry 83), or replaces D's. -/
def execBhdr (h : Hdr) (d a : Opnd) (s : State) : Host.Outcome State Fault Refusal :=
  run (.bhdr h d a) bhdrSpec (fun c =>
    let w := bhdrD c.v
    if c.x then
      let f := (Blk.fmtOf w).getD .bxa
      .ok (c.write w (Blk.withHeader f (c.blockD w) (c.a (bhdrH c.v) true)))
    else
      let f := fmtAt c.v.a w
      .ok (c.write w (trunc (Blk.header f (c.blockA (bhdrA c.v))) w))) s

end Sys2Proof.Machine
end

