-- ==== Sys2Proof/Machine/Registers.lean ====
section
/-! DEFINITION. The MMIO space (R361 to R363): blocks, what each register reads, the event a write is, and who may. -/

namespace Sys2Proof.Machine

open Sys2Proof

/-! ## Blocks (Table 23.1) -/

/-- The target number of the block that holds an MMIO offset (R361, R362); none where no block does. -/
def mmioBlock (off : Nat) : Option Nat :=
  if off < 0x10000 then some 96
  else if off < 0x20000 then some 97
  else if off < 0x23000 then some 98
  else if 0x30000 ≤ off ∧ off < 0x40000 then some 99
  else if 0x40000 ≤ off ∧ off < 0x40400 then some 100
  else if 0x50000 ≤ off ∧ off < 0x60000 then some 101
  else if 0x70000 ≤ off ∧ off < 0x80000 then some 103
  else if 0x80000 ≤ off ∧ off < 0xC0000 then some 104
  else if 0x100000 ≤ off ∧ off < 0x110000 then some 105
  else if 0x200000 ≤ off ∧ off < 0x214000 then some 102
  else none

/-- The launch block's pre-emption and trap-notice registers are kept from the U level (R329). -/
def levelAdmits (m : Master) (off : Nat) : Bool :=
  match m with
  | .thread _ lvl => lvl ≠ 0 || !(0x10800 ≤ off && off < 0x10860)
  | _ => true

/-- The security unit lets an access through (R372): before SEC only `ready` and the security block answer. -/
def State.bringUpAdmits (s : State) (t : Nat) : Bool := s.ready.sec || t == 96 || t == 101

/-- What the debug mailbox and the test access port may reach at the level in force (Table 23.4): in standby the security
state alone is read; at off the debug block, `ready` and the security block answer; below invasive nothing else is
written. -/
def State.debugAdmits (s : State) (t off : Nat) (wr : Bool) : Bool :=
  if s.standby then !wr && off / 8 * 8 = 0x30020
  else t = 99 || t = 101 || (t = 96 && !wr) || (if wr then 2 else 1) ≤ s.dbg.level

/-- The debugger's limits; they bind no other master. -/
def State.reaches (s : State) (m : Master) (t off : Nat) (wr : Bool) : Bool :=
  match m with
  | .debugger => s.debugAdmits t off wr
  | _ => true

/-- A register of a vendor command: the command's bytes, or its go bit (R369). -/
def isVendor (off : Nat) : Bool := (0x50100 ≤ off && off < 0x5020C) || (0x50300 ≤ off && off < 0x50308)

/-- Who may request an attestation report (a host or an S-level thread, R365) or send a vendor command (a host or the debug
mailbox, R369); the debug mailbox reaches both (Table 23.4, log entry 59). -/
def requestAdmits (m : Master) (off : Nat) : Bool :=
  let report : Bool := 0x50000 ≤ off && off < 0x50050
  match m with
  | .thread _ lvl => !(report && lvl = 0) && !isVendor off
  | .engine _ _ => !report && !isVendor off
  | _ => true

/-- A master may read the MMIO register at an offset (R361, R363, R372). -/
def State.mmioMayRead (s : State) (m : Master) (off : Nat) : Bool :=
  match mmioBlock off with
  | some t => s.bringUpAdmits t && levelAdmits m off && s.reaches m t off false && s.mayRead t m
  | none => false

/-- A master may write the MMIO register at an offset: WR and AD (R363); only F writes access tables. -/
def State.mmioMayWrite (s : State) (m : Master) (off : Nat) : Bool :=
  match mmioBlock off with
  | some t => s.bringUpAdmits t && levelAdmits m off && requestAdmits m off && s.reaches m t off true && s.mayControl t m &&
      (t ≠ 102 || (match m with
        | .firmware => true
        | .thread _ lvl => lvl == 2
        | _ => false))
  | none => false

/-- A master may read every byte of [off, off + n): one in no block denies the access (R361). -/
def State.mmioReads (s : State) (m : Master) (off n : Nat) : Bool := (List.range n).all fun j => s.mmioMayRead m (off + j)

/-- A master may write every byte of [off, off + n). -/
def State.mmioWrites (s : State) (m : Master) (off n : Nat) : Bool := (List.range n).all fun j => s.mmioMayWrite m (off + j)

/-! ## What registers read -/

/-- A 64-bit word of a byte list, at a byte offset. -/
def bytesWord (bs : List Byte) (o : Nat) : Nat := ofBytes ((bs.drop o).take 8)

/-- Words of `ready` (Table 23.7). -/
def readyWord (s : State) (o : Nat) : Nat :=
  if o = 0 then (if s.standby then 0 else s.ready.field.toNat)
  else if o = 0x10 then (if s.standby then 0 else s.ready.edge.toNat)
  else if o = 0x18 then
    ((List.range 16).map fun e => b2n (s.cellarReady e) * 2 ^ e + b2n (s.linkReady e) * 2 ^ (16 + e)).sum +
      s.ready.host.toNat * 2 ^ 32 + b2n s.ready.sec * 2 ^ 36
  else 0

/-- Registers of a launch queue (Table 1.2). -/
def lqWord (q : LQueue) (o : Nat) : Nat :=
  match o with
  | 0x00 => q.head.toNat
  | 0x08 => q.tail.toNat
  | 0x10 => b2n q.en + 2 * b2n q.msix
  | 0x18 => b2n q.halt + 2 * b2n q.cons + q.err % 256 * 2 ^ 8
  | 0x20 => q.cbase.toNat
  | 0x28 => q.cmask.toNat
  | 0x30 => q.cwr.toNat
  | 0x38 => q.crd.toNat
  | _ => 0

/-- Pre-emption, trap-notice and collective log registers (Tables 19.4 and 21.10). -/
def preWord (s : State) (o : Nat) : Nat :=
  match o with
  | 0x800 => s.pre.lid.toNat
  | 0x808 => s.pre.ctl.toNat
  | 0x810 => s.pre.arg.toNat
  | 0x818 => b2n s.pre.busy + 2 * b2n s.pre.done + s.pre.err % 256 * 2 ^ 8 + s.pre.count % 2 ^ 32 * 2 ^ 32
  | 0x820 => s.pre.thalt.toNat
  | 0x840 => s.pre.tnBase.toNat
  | 0x848 => s.pre.tnMask.toNat
  | 0x850 => s.pre.tnWr.toNat
  | 0x858 => s.pre.tnRd.toNat
  | 0x900 => s.clog.base.toNat
  | 0x908 => s.clog.mask.toNat
  | 0x910 => s.clog.wr.toNat
  | 0x918 => s.clog.rd.toNat
  | 0x920 => b2n s.clog.lost
  | _ => 0

/-- Registers of a trace block (Table 23.9). -/
def traceWord (b : TraceBlk) (o : Nat) : Nat :=
  match o with
  | 0x00 => b.base.toNat
  | 0x08 => b.mask.toNat
  | 0x10 => b.wr.toNat
  | 0x18 => b.rd.toNat
  | 0x20 => b2n b.en + 2 * b2n b.stall + b.types % 256 * 2 ^ 8 + b.sample % 2 ^ 32 * 2 ^ 32
  | 0x28 => b.lost
  | _ => 0

/-- The fields of `dbg_cmd` (Table 23.5). -/
def dbgCmdMask : W64 := 0xFF000000000FFFFF

/-- `dbg_stat` (Table 23.5). -/
def Debug.stat (d : Debug) : Nat :=
  b2n d.busy + 2 * b2n d.done + 4 * b2n d.gated + 8 * b2n d.cancel + 16 * b2n d.precise + d.err % 256 * 2 ^ 8

/-- Registers of the debug block (Tables 23.5 and 23.12). -/
def debugWord (d : Debug) (o : Nat) : Nat :=
  if 0x40 ≤ o ∧ o < 0x80 then bytesWord d.chal (o - 0x40)
  else if 0x100 ≤ o ∧ o < 0x200 then bytesWord d.data (o - 0x100)
  else if 0x200 ≤ o ∧ o < 0x288 then bytesWord d.resp (o - 0x200)
  else match o with
    | 0x00 => d.cmd.toNat
    | 0x08 => d.arg0.toNat
    | 0x10 => d.arg1.toNat
    | 0x18 => d.stat
    | 0x20 => d.secState
    | 0x28 => d.level
    | 0x30 => 4 * b2n d.authOk + 8 * b2n d.authFail
    | _ => 0

/-- Registers of the security block (R365, R369). -/
def securityWord (x : Security) (o : Nat) : Nat :=
  if o < 0x40 then bytesWord x.nonce o
  else if 0x100 ≤ o ∧ o < 0x210 then bytesWord x.rtvCmd (o - 0x100)
  else match o with
    | 0x40 => x.dest.toNat
    | 0x50 => b2n x.busy + 2 * b2n x.done + x.err % 256 * 2 ^ 8
    | 0x308 => b2n x.rtvBusy + 2 * b2n x.rtvDone + x.rtvErr % 256 * 2 ^ 8
    | _ => 0

/-- Registers of an edge port (Table 23.13). -/
def edgeWord (e : EdgePort) (o : Nat) : Nat :=
  match o with
  | 0x00 => e.rtab.toNat
  | 0x08 => e.cache.length % 2 ^ 14 + e.walks % 2 ^ 32 * 2 ^ 32
  | _ => 0

/-- Registers of a Cellar engine (Tables 7.4 and 23.15). -/
def cellarWord (e : Cellar) (o : Nat) : Nat :=
  if o < 0x200 then
    let m := o / 0x20
    match o % 0x20 / 8 with
    | 0 => (e.smbase.getD m 0).toNat
    | 1 => (e.smlim.getD m 0).toNat
    | 2 => (e.smlba.getD m 0).toNat
    | _ => (e.smasid.getD m 0).toNat
  else if o < 0x230 then
    if o % 0x10 = 0 then (e.fbase.getD ((o - 0x200) / 0x10) 0).toNat else (e.fcount.getD ((o - 0x200) / 0x10) 0).toNat
  else match o with
    | 0x300 => b2n e.fillerr + 2 * b2n e.wberr + e.op % 256 * 2 ^ 8 + e.sc % 2 ^ 16 * 2 ^ 16 + e.nerr % 2 ^ 32 * 2 ^ 32
    | 0x308 => e.erraddr.toNat
    | 0x310 => e.errlba.toNat
    | 0x318 => e.erasid
    | _ => 0

/-- Press staging registers of a link port (Table 23.1). -/
def pressWord (s : State) (o : Nat) : Nat :=
  let st := s.press.getD (4 * (o / 0x40) + o % 0x20 / 8) ⟨0, 0, 0, 0⟩
  if o % 0x40 < 0x20 then st.area.toNat else st.stride.toNat

/-- The 64 bits at an 8-byte-aligned MMIO offset; 0 where no register is (R361). -/
def mmioWord (s : State) (off : Nat) : Nat :=
  match mmioBlock off with
  | some 96 => readyWord s off
  | some 97 => let o := off - 0x10000
    if o < 0x400 then lqWord (s.lqs.getD (o / 0x40) .reset) (o % 0x40) else preWord s o
  | some 98 => traceWord (s.traceBlk ((off - 0x20000) / 0x100)) (off % 0x100)
  | some 99 => debugWord s.dbg (off - 0x30000)
  | some 100 => pressWord s (off - 0x40000)
  | some 101 => securityWord s.security (off - 0x50000)
  | some 102 => (Tbl.get s.tables ((off - 0x200000) / 8) 0).toNat
  | some 103 => let o := off - 0x70000
    if o = 0 then b2n s.standby else if o = 8 then b2n s.standby + 2 ^ 8 * b2n s.pwRefused else 0
  | some 104 => edgeWord (s.edges.getD ((off - 0x80000) / 0x1000) .reset) (off % 0x1000)
  | some 105 => cellarWord (s.cellars.getD ((off - 0x100000) / 0x1000) .reset) (off % 0x1000)
  | _ => 0

/-- The byte at an MMIO offset. -/
def mmioByte (s : State) (off : Nat) : Byte := BitVec.ofNat 8 (mmioWord s (off / 8 * 8) >>> (8 * (off % 8)))

/-- The n bytes from an MMIO offset. -/
def mmioBytes (s : State) (off n : Nat) : List Byte := (List.range n).map fun j => mmioByte s (off + j)

/-! ## What a write is -/

/-- The debug command of a CMD code (Table 23.6). -/
def debugCommand (cmd : Nat) : Instr :=
  match cmd with
  | 1 => .rslice
  | 2 => .wslice
  | 3 => .rcsr
  | 4 => .wcsr
  | 5 => .rmem
  | 6 => .wmem
  | 7 => .halt
  | 8 => .haltb
  | 9 => .resume
  | 10 => .step
  | 11 => .setbp
  | 12 => .rsave
  | 13 => .wsave
  | 14 => .brkmode
  | _ => .registerWrite

/-- A register whose lowest bit turns something on or off, so that a write of other bytes alone is no event: `lq_ctl` and
`pw_ctl`. -/
def switches (off : Nat) : Bool :=
  off = 0x70000 || (0x10000 ≤ off && off < 0x10400 && (off - 0x10000) % 0x40 = 0x10)

/-- The event a write that leaves `v` in the word at offset `off` is, by the register written. -/
def writeEvent (off v : Nat) : Instr :=
  match mmioBlock off with
  | some 97 =>
    let o := off - 0x10000
    if o < 0x400 then
      match o % 0x40 with
      | 0x00 => .lqHeadWrite
      | 0x08 => .lqTailWrite
      | 0x10 => if v % 2 = 1 then .lqEnable else .lqDisable
      | 0x38 => .lqCrdWrite
      | _ => .registerWrite
    else match o with
      | 0x808 =>
        match bits v 32 3 with
        | 0 => .preCtlPreempt
        | 1 => .preCtlRelease
        | 2 => .preCtlAbort
        | 3 => .preCtlArmWatchdog
        | _ => .registerWrite
      | 0x840 => .tnBaseWrite
      | 0x858 => .tnRdWrite
      | _ => .registerWrite
  | some 98 =>
    match off % 0x100 with
    | 0x18 => .trRdWrite
    | 0x20 => .trCtlWrite
    | _ => .registerWrite
  | some 99 =>
    match off - 0x30000 with
    | 0x00 => debugCommand (bits v 56 8)
    | 0x20 => .dbgSecWrite
    | 0x28 => .dbgLvlWrite
    | 0x30 => if v.testBit 0 then .dbgAuthNewchal else if v.testBit 1 then .dbgAuthVerify else .registerWrite
    | _ => .registerWrite
  | some 101 =>
    match off - 0x50000 with
    | 0x48 => if v % 2 = 1 then .attestationGo else .registerWrite
    | 0x300 => if v % 2 = 1 then .rtvgo else .registerWrite
    | _ => .registerWrite
  | some 102 => .accessTableWrite
  | some 103 => if off = 0x70000 then (if v % 2 = 1 then .standbyRequest else .standbyExit) else .registerWrite
  | _ => .registerWrite

/-- The word a transaction leaves at its register: the bytes it writes over `old`. -/
def Bus.word (b : Bus) (old : Nat) : Nat := setBits old (8 * (b.off % 8)) (8 * b.len) b.value

/-- The word a transaction leaves, bytes it does not write as 0. -/
def Bus.fresh (b : Bus) : Nat := b.word 0

/-- Offset of the word a transaction writes. -/
def Bus.reg (b : Bus) : Nat := b.off / 8 * 8

/-- The transactions of a write of bytes, one for each 8-byte word it touches. -/
def busWrites (m : Master) : Nat → Nat → List Byte → List Bus
  | 0, _, _ => []
  | _ + 1, _, [] => []
  | n + 1, off, bs =>
    let k := Nat.min (8 - off % 8) bs.length
    ⟨m, off, k, ofBytes (bs.take k)⟩ :: busWrites m n (off + k) (bs.drop k)

/-- The event that a transaction is: bytes it does not write keep their values (log entry 40). -/
def State.busEvent (s : State) (b : Bus) : Instr :=
  if switches b.reg && b.off % 8 ≠ 0 then .registerWrite else writeEvent b.reg (b.word (mmioWord s b.reg))

/-- The state in which a master's write of bytes at an MMIO offset happens next. -/
def State.mmioWrite (s : State) (m : Master) (off : Nat) (bs : List Byte) : State :=
  { s with agenda := s.agenda ++ (busWrites m bs.length off bs).map fun b => (b, s.busEvent b) }

/-- The transaction at hand is a write that its master may make, to a register among those an event is for. -/
def State.busOk (s : State) (i : Instr) : Bool :=
  s.mmioMayWrite s.bus.who s.bus.off && decide (s.busEvent s.bus = i)

/-- Performs a write event when the transaction at hand is one. -/
def onBus (i : Instr) (f : State → State) (s : State) : Host.Outcome State Fault Refusal :=
  .next (if s.busOk i then f s else s)

end Sys2Proof.Machine
end

