-- ==== Sys2Proof/Machine/Address.lean ====
section
/-! DEFINITION. Where an address goes: the range table, the checks before an access, pieces, and the page-table walk
(R111 to R119, R134, R137). -/

namespace Sys2Proof.Machine

open Sys2Proof

/-! ## The range table (R111, R113) -/

/-- The type of a range entry (Table 7.1). -/
inductive RType where
  | local_ | remote | edge | host | mmio
deriving DecidableEq, Repr

/-- A byte's entry and its distance from the entry's base. -/
structure Spot where
  typ  : RType
  ent  : Nat
  off  : Nat
  lim  : W64
deriving DecidableEq, Repr

/-- TYPE of an entry. -/
def rtypeOf (n : Nat) : RType :=
  match n with
  | 0 => .local_
  | 1 => .remote
  | 2 => .edge
  | 3 => .host
  | _ => .mmio

/-- Entry `n` is valid and holds an address. -/
def rangeHolds (k : Core) (a n : Nat) : Bool :=
  let b := k.rtbase.getD n 0
  let l := k.rtlim.getD n 0
  l.getLsbD 15 && fieldOf b 16 48 ≤ a / 2 ^ 16 && a / 2 ^ 16 ≤ fieldOf l 16 48

/-- The first valid entry that holds an address (R113). -/
def placeOf (k : Core) (a : Nat) : Option Spot :=
  ((List.range 32).find? (rangeHolds k a)).map fun n =>
    { typ := rtypeOf (fieldOf (k.rtlim.getD n 0) 12 3), ent := n,
      off := a - fieldOf (k.rtbase.getD n 0) 16 48 * 2 ^ 16, lim := k.rtlim.getD n 0 }

/-- An offset of a store lies in the code region (R108). -/
def inCode (k : Core) (o : Nat) : Bool := codeBase ≤ o && o < codeBase + k.codelen

/-- The cause a byte of an access raises at issue (R108, R113, R115), if any. -/
def byteFault (k : Core) (rd wr : Bool) (a : Nat) : Option Nat :=
  match placeOf k a with
  | none => some Cause.rangeMiss
  | some p =>
    if (rd && !p.lim.getLsbD 9) || (wr && !p.lim.getLsbD 8) then some Cause.accessPerm
    else match p.typ with
      | .local_ => if localSize ≤ p.off then some Cause.rangeMiss
          else if wr && inCode k p.off then some Cause.codeWrite else none
      | .remote =>
          if 86015 < p.off / 2 ^ 20 || localSize ≤ p.off % 2 ^ 20 then some Cause.rangeMiss
          else if wr && inCode k (p.off % 2 ^ 20) then some Cause.codeWrite else none
      | _ => none

/-- Address `j` bytes on, modulo 2^64. -/
def addrPlus (ea j : Nat) : Nat := (ea + j) % 2 ^ 64

/-- The first byte of [ea, ea + n) that fails, with its cause (R113). -/
def firstFault (k : Core) (rd wr : Bool) (ea n : Nat) : Option (Nat × Nat) :=
  (List.range n).findSome? fun j => (byteFault k rd wr (addrPlus ea j)).map fun c => (c, addrPlus ea j)

/-- The cause a byte of an access raises in the range table alone (R113), if any. -/
def rangeFault (k : Core) (rd wr : Bool) (a : Nat) : Option Nat :=
  match placeOf k a with
  | none => some Cause.rangeMiss
  | some p =>
    if (rd && !p.lim.getLsbD 9) || (wr && !p.lim.getLsbD 8) then some Cause.accessPerm
    else if p.typ = .local_ ∧ localSize ≤ p.off then some Cause.rangeMiss else none

/-- The first byte of [ea, ea + n) that fails R113, with its cause. -/
def firstRangeFault (k : Core) (rd wr : Bool) (ea n : Nat) : Option (Nat × Nat) :=
  (List.range n).findSome? fun j => (rangeFault k rd wr (addrPlus ea j)).map fun c => (c, addrPlus ea j)

/-- The first byte of [ea, ea + n) that is not LOCAL. -/
def firstNotLocal (k : Core) (ea n : Nat) : Option Nat :=
  (List.range n).findSome? fun j =>
    match placeOf k (addrPlus ea j) with
    | some p => if p.typ = .local_ then none else some (addrPlus ea j)
    | none => some (addrPlus ea j)

/-- The offset in the local store of a byte under a LOCAL entry. -/
def localOff (k : Core) (a : Nat) : Nat := ((placeOf k a).map Spot.off).getD 0

/-- Offsets of the bytes of [ea, ea + n), all LOCAL. -/
def localBytes (s : State) (c ea n : Nat) : List Byte :=
  (List.range n).map fun j => Mem.read s.mem (localKey c (localOff (s.core c) (addrPlus ea j)))

/-- The state with bytes stored at LOCAL addresses; words they cover whole are sound again (R131). -/
def putLocal (c : Nat) : Nat → List Byte → State → State
  | _, [], s => s
  | ea, b :: bs, s =>
    let k := localKey c (localOff (s.core c) (trunc ea 64))
    putLocal c (addrPlus ea 1) bs { s with mem := Mem.write s.mem k b, badMem := s.badMem.filter fun a => a ≠ k }

/-! ## The walk (R117 to R119) -/

/-- A leaf that a walk found: its PTE, where that PTE lies in the port's DRAM, and its page size. -/
structure Leaf where
  pte  : W64
  at_  : Nat
  size : Nat
deriving DecidableEq, Repr

/-- Reserved bits of an entry that are not 0, or ORD 3 in a leaf (R118, R119); RES = 0 off storage counts so (log entry
71). -/
def pteBad (e : W64) (leaf : Bool) : Bool :=
  fieldOf e 58 2 ≠ 0 || fieldOf e 8 8 ≠ 0 || fieldOf e 4 1 ≠ 0 ||
  (leaf && (fieldOf e 62 2 == 3 || (fieldOf e 60 2 == 1 && 3 < fieldOf e 52 6) ||
    (fieldOf e 60 2 == 2 && 15 < fieldOf e 52 6) || (fieldOf e 60 2 ≠ 2 && fieldOf e 6 1 == 0)))

/-- A 64-bit word of a port's tables, as the edge walker reads it (R363): a denial or an error is the cause. -/
def walkRead (s : State) (p a : Nat) : Except Nat W64 :=
  if !s.mayRead p (.engine 1 0) || (s.edges.getD p .reset).size < a + 8 then .error Cause.accessDenied
  else if anyBad s (edgeKey p a) 8 then .error Cause.memEcc
  else .ok (BitVec.ofNat 64 (loadN s (edgeKey p a) 8))

/-- The lowest address bit that a level indexes: pages of 1 GiB, 2 MiB and 64 KiB end levels 2 to 4. -/
def levelShift (n : Nat) : Nat := if n = 1 then 39 else if n = 2 then 30 else if n = 3 then 21 else 16

/-- Index of an address at a level (R117). -/
def levelIndex (n va : Nat) : Nat := if n = 4 then bits va 16 5 else bits va (levelShift n) 9

/-- The walk from a table over the levels left. -/
def walkFrom (s : State) (p va : Nat) : List Nat → Nat → Except Nat Leaf
  | [], _ => .error Cause.edgePage
  | n :: rest, tab =>
    let at_ := tab + 8 * levelIndex n va
    match walkRead s p at_ with
    | .error c => .error c
    | .ok e =>
      let leaf := e.getLsbD 0
      if !e.getLsbD 7 || pteBad e leaf then .error Cause.edgePage
      else if leaf then
        if n = 1 || fieldOf e 16 36 * 2 ^ 16 % 2 ^ levelShift n ≠ 0 then .error Cause.edgePage
        else .ok ⟨e, at_, 2 ^ levelShift n⟩
      else walkFrom s p va rest (fieldOf e 16 36 * 2 ^ 16)

/-- The root entry of an ASID at a port (R385): the cached one, or the one in the root table. -/
def rootEntry (s : State) (p asid : Nat) : Except Nat W64 :=
  let e := s.edges.getD p .reset
  match Tbl.find? e.roots asid with
  | some r => .ok r
  | none => walkRead s p (fieldOf e.rtab 17 35 * 2 ^ 17 + 8 * asid)

/-- The walk of an ASID's address at a port (R117 to R119, R385). -/
def walk (s : State) (p asid va : Nat) : Except Nat Leaf :=
  let rtab := (s.edges.getD p .reset).rtab
  if va / 2 ^ 48 ≠ 0 || !rtab.getLsbD 0 || !s.edgeReady p then .error Cause.edgePage
  else match rootEntry s p asid with
    | .error c => .error c
    | .ok r =>
      if !r.getLsbD 0 || fieldOf r 52 12 ≠ 0 || fieldOf r 1 15 ≠ 0 then .error Cause.edgePage
      else walkFrom s p va [1, 2, 3, 4] (fieldOf r 16 36 * 2 ^ 16)

/-- FRAME and the offset in the page: the address in the home port's or the host's space. -/
def Leaf.phys (l : Leaf) (va : Nat) : Nat := fieldOf l.pte 16 36 * 2 ^ 16 + va % l.size
/-- TT of a leaf. -/
def Leaf.tt (l : Leaf) : Nat := fieldOf l.pte 60 2
/-- PORT of a leaf. -/
def Leaf.port (l : Leaf) : Nat := fieldOf l.pte 52 6
/-- RES of a leaf. -/
def Leaf.res (l : Leaf) : Bool := l.pte.getLsbD 6
/-- The first address of the leaf's page. -/
def Leaf.base (l : Leaf) (va : Nat) : Nat := va / l.size * l.size
/-- Size code of R128. -/
def Leaf.code (l : Leaf) : Nat := if l.size = 2 ^ 16 then 0 else if l.size = 2 ^ 21 then 1 else 2

/-- The attribute of an ORD code. -/
def attrOf (n : Nat) : Attr := if n = 0 then .so else if n = 2 then .uo else .rc

/-- The edge port that an address of an EDGE entry goes to (R117). -/
def edgePortOf (lim : W64) (a : Nat) : Nat := if lim.getLsbD 1 then bits a 21 6 else fieldOf lim 2 6

/-! ## Pieces (R134, R137) -/

/-- [ea, ea + n) cut at aligned 32-byte units: address, first byte within the access, length. -/
def units : Nat → Nat → Nat → Nat → List (Nat × Nat × Nat)
  | 0, _, _, _ => []
  | fuel + 1, ea, off, n =>
    if n = 0 then [] else
    let k := Nat.min (32 - ea % 32) n
    (ea, off, k) :: units fuel (addrPlus ea k) (off + k) (n - k)

/-- What stands for a memory form when its pieces are made. -/
structure Access where
  agent : Agent
  asid  : Nat
  lvl   : Nat
  ord   : Nat
  scope : Nat
  reads : Bool
  rel   : Bool
  op    : MemOp
  data  : Nat
  low   : Bool               -- the first byte's low nibble is left alone (R266)
  high  : Bool               -- the last byte's high nibble is left alone
  tag   : Nat
  pc    : W32
  hdl   : Bool               -- of a handler under DET, logged at issue (R343)
  det   : Option DetKey
  after : List Nat

/-- The byte that a leaf gives an address to, if its page is resident. -/
def Leaf.key (l : Leaf) (va : Nat) : Option Nat :=
  match l.tt with
  | 1 => some (hostKey l.port (l.phys va))
  | 2 => if l.res then some (edgeKey (4 * l.port) (l.phys va)) else none
  | _ => some (edgeKey l.port (l.phys va))

/-- The attribute of an access to an address of a core's program (R135). -/
def attrAt (s : State) (c asid a : Nat) : Attr :=
  match placeOf (s.core c) a with
  | none => .rc
  | some p =>
    if p.typ = .edge then
      match walk s (edgePortOf p.lim a) asid a with
      | .ok l => attrOf (fieldOf l.pte 62 2)
      | .error _ => .rc
    else attrOf (fieldOf p.lim 10 2)

/-- A piece of an access: its target and attribute from its byte's entry (R114, R115, R117, R135). -/
def pieceOf (s : State) (c : Nat) (x : Access) (order : Nat) (n : Nat) (u : Nat × Nat × Nat) : Option Piece :=
  let (a, off, len) := u
  (placeOf (s.core c) a).map fun p =>
    let base := attrAt s c x.asid a
    let (tgt, loc, addr, key) : Tgt × Bool × Nat × Option Nat := match p.typ with
      | .local_ => (.core (s.homeOf c), true, p.off, some (localKey (s.homeOf c) p.off))
      | .remote => (.core (p.off / 2 ^ 20), false, p.off % 2 ^ 20, some (localKey (p.off / 2 ^ 20) (p.off % 2 ^ 20)))
      | .edge =>
        let q := edgePortOf p.lim a
        (.edge q, false, a, match walk s q x.asid a with
          | .ok l => l.key a
          | .error _ => none)
      | .host => (.host (fieldOf p.lim 2 6), false, p.off, some (hostKey (fieldOf p.lim 2 6) p.off))
      | .mmio =>
        let o := (a + 2 ^ 64 - 0xF00000000000) % 2 ^ 64
        (.mmio ((mmioBlock o).getD 0), false, o, none)
    { id := 0, src := x.agent, tgt := tgt, loc := loc, addr := addr, va := a, len := len, op := x.op,
      data := match x.op with
        | .write | .redi _ _ | .redf => bits x.data (8 * off) (8 * len)
        | _ => x.data,
      lowNib := x.low && off == 0, highNib := x.high && off + len == n,
      attr := if x.ord = 2 then .rc else if x.ord = 3 then .so else base, strm := x.ord == 2,
      acq := if x.ord = 1 && x.reads then some x.scope else none,
      rel := if x.ord = 1 && x.rel then some x.scope else none,
      land := none, off := off, tag := x.tag, pc := x.pc, order := order, after := x.after, pred := 0, own := 0,
      succ := 0, phase := .unsent, ticket := false, acked := false, resends := 0, sentAt := 0, asid := x.asid,
      lvl := x.lvl, det := x.det, handler := x.hdl, resp := 0, err := none, told := false, key := key,
      orphan := false, tries := 0 }

/-- The pieces of an access to [ea, ea + n) (R134); REDB and an atomic are one piece (R260, R263). -/
def piecesOf (s : State) (c : Nat) (x : Access) (order ea n : Nat) : List Piece :=
  let us := match x.op with
    | .redb _ | .atomic _ _ => [(ea, 0, n)]
    | _ => units (n + 1) ea 0 n
  us.filterMap (pieceOf s c x order n)

end Sys2Proof.Machine
end

