-- ==== Sys2Proof/Machine/MemOps.lean ====
section
/-! DEFINITION. What an access does to the bytes it reaches: reads, writes by nibbles, atomics and reductions (R131,
R260, R262, R266). -/

namespace Sys2Proof.Machine

open Sys2Proof

/-- F32 sum with RNE, subnormals kept, NaN 0x7FC0_0000 (R260, R262). -/
def f32Sum (m x : Nat) : Nat :=
  (Fp.encode Fp.f32 .rne false (Fp.add .rne (Fp.decode Fp.f32 false m) (Fp.decode Fp.f32 false x))).1

/-- Table 15.2: the new value of atomic `op` (OP − 0x262) with memory value `m` and operand `x` of `n` bits; for ACAS
`x` holds the expected value and above it the replacement. None where no write takes place. -/
def atomicNew (op n m x : Nat) : Option Nat :=
  match op with
  | 0 => some (trunc (m + x) n)
  | 1 => some (if val x n true < val m n true then x else m)
  | 2 => some (if val m n true < val x n true then x else m)
  | 3 => some (Nat.min m x)
  | 4 => some (Nat.max m x)
  | 5 => some (m &&& x)
  | 6 => some (m ||| x)
  | 7 => some (m ^^^ x)
  | 8 => some x
  | 9 => if m = trunc x n then some (bits x n n) else none
  | _ => some (f32Sum m x)

/-- REDI on one lane (R262): `natural` is X. -/
def rediLane (natural sat : Bool) (m x : Nat) : Nat := (intResult (val m 32 (!natural) + val x 32 (!natural)) 32 sat (!natural)).1

/-- A reduction on the lanes of `n` bytes. -/
def redLanes (f : Nat → Nat → Nat) (n m x : Nat) : Nat :=
  joinLanes 32 ((List.range (n / 4)).map fun j => f (bits m (32 * j) 32) (bits x (32 * j) 32))

/-- REDB (R262): `x` is the fitted block, `m` the block in memory. -/
def redbBlock (m x : Nat) : Nat := (Blk.bxaAdd (Blk.clean .bxa m) x).img

/-- The fit of an operation on the bytes it finds sets REN (R98, R343). -/
def fitRounds (op : MemOp) (data old : Nat) : Bool :=
  match op with
  | .redb _ => (Blk.bxaAdd (Blk.clean .bxa old) data).flags.testBit 8
  | _ => false

/-- What an operation leaves on `len` bytes that hold `old`; none where it writes nothing. `low` and `high` keep the
first low nibble and the last high nibble (R266). -/
def opResult (op : MemOp) (len data old : Nat) (low high : Bool) : Option Nat :=
  match op with
  | .write =>
    let v1 := if low then setBits data 0 4 (bits old 0 4) else data
    some (if high then setBits v1 (8 * len - 4) 4 (bits old (8 * len - 4) 4) else v1)
  | .atomic op n => atomicNew op n old data
  | .redi natural sat => some (redLanes (rediLane natural sat) len old data)
  | .redf => some (redLanes f32Sum len old data)
  | .redb _ => some (redbBlock old data)
  | _ => none

/-- What a piece leaves where it found `old`. -/
def Piece.result (p : Piece) (old : Nat) : Option Nat := opResult p.op p.len p.data old p.lowNib p.highNib

/-- A write of [k, k + n), which may leave out its first nibble or its last, covers the aligned 8-byte word at `w` whole. -/
def coversWord (k n : Nat) (low high : Bool) (w : Nat) : Bool :=
  k ≤ w && w + 8 ≤ k + n && !(low && k == w) && !(high && k + n == w + 8)

/-- An aligned 8-byte word with a byte in [k, k + n) holds an uncorrectable error, and a write does not cover it whole. -/
def partlyBad (s : State) (k n : Nat) (low high : Bool) : Bool :=
  s.badMem.any fun a => k ≤ a / 8 * 8 + 7 && a / 8 * 8 < k + n && !coversWord k n low high (a / 8 * 8)

/-- A piece meets an uncorrectable error (R131): a read of one, or a write that covers an affected word in part. -/
def Piece.meetsError (s : State) (k : Nat) (p : Piece) : Bool :=
  match p.op with
  | .read => anyBad s k p.len
  | .write => partlyBad s k p.len p.lowNib p.highNib
  | _ => anyBad s k p.len || partlyBad s k p.len false false

/-- The state with bytes stored; words they cover are whole again (R131). -/
def storeBytes (s : State) (k : Nat) (bs : List Byte) : State :=
  { s with mem := Mem.writeN s.mem k bs, badMem := s.badMem.filter fun a => !(k ≤ a && a < k + bs.length) }

/-- A piece performed on the bytes from key `k` on: the state and the value it found. -/
def Piece.apply (s : State) (k : Nat) (p : Piece) : State × Nat :=
  let old := loadN s k p.len
  match p.result old with
  | some v => (storeBytes s k (toBytes v p.len), old)
  | none => (s, old)

/-- A piece writes at its target. -/
def MemOp.writes : MemOp → Bool
  | .read => false
  | .clearance _ | .cancel _ => false
  | _ => true

/-- A piece reads at its target: loads and atomics, and reductions, which combine with what they find (R262). -/
def MemOp.reads : MemOp → Bool
  | .write => false
  | .clearance _ | .cancel _ => false
  | _ => true

/-- A piece is an atomic or a reduction. -/
def MemOp.combines (o : MemOp) : Bool := o.reads && o.writes

/-- A piece is an atomic. -/
def MemOp.isAtomic : MemOp → Bool
  | .atomic _ _ => true
  | _ => false

end Sys2Proof.Machine
end

