-- ==== Sys2Proof/Machine/Storage.lean ====
section
/-! DEFINITION. Storage-backed pages: mappings, frames, fills, evictions and write-backs of the Cellar engines (R122 to
R127, R386). -/

namespace Sys2Proof.Machine

open Sys2Proof

/-- Cellar engine `e`. -/
def State.cellar (s : State) (e : Nat) : Cellar := s.cellars.getD e .reset

/-- The state with a Cellar engine changed. -/
def State.modCellar (s : State) (e : Nat) (f : Cellar → Cellar) : State :=
  { s with cellars := s.cellars.set e (f (s.cellar e)) }

/-- Edge port `p`. -/
def State.edgePort (s : State) (p : Nat) : EdgePort := s.edges.getD p .reset

/-- The state with an edge port changed. -/
def State.modEdge (s : State) (p : Nat) (f : EdgePort → EdgePort) : State :=
  { s with edges := s.edges.set p (f (s.edgePort p)) }

/-- The pool of a leaf. -/
def Leaf.pool (l : Leaf) : Nat := if l.size = 2 ^ 16 then 0 else if l.size = 2 ^ 21 then 1 else 2

/-- Mapping `m` serves an address of an ASID (R122). -/
def Cellar.serves (x : Cellar) (asid va m : Nat) : Bool :=
  let b := x.smbase.getD m 0
  let l := x.smlim.getD m 0
  l.getLsbD 15 && fieldOf b 16 48 ≤ va / 2 ^ 16 && va / 2 ^ 16 ≤ fieldOf l 16 48 && fieldOf (x.smasid.getD m 0) 0 14 == asid

/-- The first mapping that serves an address. -/
def Cellar.mapping (x : Cellar) (asid va : Nat) : Option Nat := (List.range 16).find? (x.serves asid va)

/-- DRIVE of a mapping. -/
def Cellar.drive (x : Cellar) (m : Nat) : Nat := fieldOf (x.smlim.getD m 0) 2 6

/-- LBA size of a drive that is attached and ready. -/
def Cellar.lbaSize (x : Cellar) (d : Nat) : Option Nat := Tbl.find? x.drives d

/-- The LBA of an address under a mapping. -/
def Cellar.lba (x : Cellar) (m va size : Nat) : Nat :=
  (x.smlba.getD m 0).toNat + (va - fieldOf (x.smbase.getD m 0) 16 48 * 2 ^ 16) / size

/-- Addresses of a pool's frames. -/
def Cellar.poolFrames (x : Cellar) (pool : Nat) : List Nat :=
  (List.range (x.fcount.getD pool 0).toNat).map fun k => (x.fbase.getD pool 0).toNat + k * poolSize pool

/-- A frame of a pool that holds no page and that no fill has taken. -/
def Cellar.freeFrame (x : Cellar) (pool : Nat) : Option Nat :=
  (x.poolFrames pool).find? fun a => !(x.frames.any fun f => f.addr == a) && !(x.fills.any fun f => f.frame == some a)

/-- An access in flight to a frame's page (R124). -/
def frameInFlight (s : State) (f : Frame) : Bool :=
  s.net.any fun p => p.tgt = .edge f.port && p.asid == f.asid && p.va / poolSize f.pool * poolSize f.pool == f.va &&
    p.phase ≠ .unsent && !(p.phase = .done)

/-- The frame of a pool filled first that may be evicted (R124). -/
def Cellar.victim (s : State) (x : Cellar) (pool : Nat) : Option Frame :=
  x.frames.find? fun f => f.pool == pool && !f.evicting && !frameInFlight s f

/-- A translation with a change that the device has made of the PTE it comes from. -/
def Xlat.changed (at_ : Nat) (f : W64 → W64) (x : Xlat) : Xlat := if x.at_ = at_ then { x with pte := f x.pte } else x

/-- The device changes RES, D or FRAME of a leaf at a port: of the PTE by `f`, and by `g` of the translations of it that
the port has cached, so that the change takes effect there at once (R120). -/
def devicePte (port : Nat) (l : Leaf) (f g : W64 → W64) (s : State) : State :=
  (storeN s (edgeKey port l.at_) 8 (f l.pte).toNat).modEdge port fun e =>
    { e with cache := e.cache.map (Xlat.changed l.at_ g) }

/-- A change of the PTE of a storage-backed page; a translation cached of another kind of page keeps its fields. -/
def onBacked (f : W64 → W64) (w : W64) : W64 := if fieldOf w 60 2 = 2 then f w else w

/-- A Cellar engine rewrites the PTE of a page at its port. -/
def modPte (port asid va : Nat) (f : W64 → W64) (s : State) : State :=
  match walk s port asid va with
  | .ok l => devicePte port l f (onBacked f) s
  | .error _ => s

/-- The engine records a failure (Table 23.15): `op` 1 Read, 2 Write, 3 Flush; a fill failure or a write-back's. -/
def Cellar.failed (x : Cellar) (fill : Bool) (op sc va lba asid : Nat) (count : Bool) : Cellar :=
  { x with nerr := if count then Nat.min (x.nerr + 1) (2 ^ 32 - 1) else x.nerr, sc := sc % 2 ^ 16, op := op,
           fillerr := x.fillerr || fill, wberr := x.wberr || !fill, erraddr := BitVec.ofNat 64 va,
           errlba := BitVec.ofNat 64 lba, erasid := asid }

/-- A bunch has nothing left to await before it may return. -/
def Bunch.ready (y : Bunch) : Bool := y.state = .saved && !y.preempt && y.paging.isEmpty && y.trapped.isEmpty

/-- What a launch does again once a fill it waits for has ended (R388). -/
def sequencerEvent (l what : Nat) : Instr :=
  match what with
  | 1 | 2 => .bunchPlace l
  | 3 => .roundEnd l
  | 4 => .deadlockReport l
  | n => if n % 2 = 1 then .bunchSave l ((n - 5) / 2) else .bunchSwapIn l ((n - 6) / 2)

/-- Every launch there is: those started, and those that wait at the heads of the queues. -/
def State.allLaunches (s : State) : List Launch :=
  s.launches ++ s.devq.flatMap id ++ s.waitq.filterMap id

/-- The state with every launch changed, those that wait included. -/
def State.mapLaunches (s : State) (f : Launch → Launch) : State :=
  { s with launches := s.launches.map f, devq := s.devq.map (·.map f), waitq := s.waitq.map (·.map f) }

/-- A fill has ended: bunches that awaited it may return, and sequencer accesses go on. -/
def endFill (id : Nat) (s : State) : State :=
  let again := s.allLaunches.flatMap fun x => (x.fills.filter fun p => p.1 = id).map fun p => sequencerEvent x.id p.2
  let s1 := s.mapLaunches fun x =>
    { x with fills := x.fills.filter fun p => p.1 ≠ id
             bunches := x.bunches.map fun (y : Bunch) => { y with paging := y.paging.filter (· ≠ id) } }
  let s2 := again.foldl (fun s i => s.soon i) s1
  s2.launches.foldl (fun s x => x.bunches.foldl (fun s y =>
    if y.ready then s.soon (.bunchSwapIn x.id y.idx) else s) s) s2

/-- The engine commands of a core that wait for a fill that fails (R126), and its threads that read a block of the page
(R125). -/
def Core.fillFailed (k : Core) (id : Nat) : Core :=
  { k with
    eng := k.eng.map fun (q : EngQueue) =>
      { q with cmds := q.cmds.map fun (x : EngCmd) => if x.fill = some id then { x with ioErr := true } else x }
    threads := k.threads.map fun (th : Thread) => if th.blockFill = some id then { th with blockErr := true } else th }

/-- The state with every saved context changed (R332). -/
def State.mapSaved (s : State) (f : Core → Core) : State :=
  { s with launches := s.launches.map fun (x : Launch) =>
      { x with bunches := x.bunches.map fun (y : Bunch) =>
          { y with saved := y.saved.map fun (v : SavedCore) => { v with ctx := f v.ctx } } } }

/-- A fill fails (R125): the accesses that wait at the page end with STORAGE_IO. -/
def failFill (e : Nat) (f : Fill) (s : State) : State :=
  let s1 := s.modCellar e fun x => { x with fills := x.fills.filter fun g => g.id ≠ f.id }
  let s2 : State := { s1 with net := s1.net.map fun (p : Piece) =>
    if p.asid == f.asid && p.tgt = .edge f.port && p.va / poolSize f.pool * poolSize f.pool == f.va && p.phase = .paged then
      { p with phase := .done, err := some Cause.storageIo } else p }
  let s3 : State := { s2 with cores := s2.cores.map fun (p : Nat × Core) => (p.1, p.2.fillFailed f.id) }
  let s4 : State := { s3 with colls := s3.colls.map fun (x : Coll) => if x.fill = some f.id then { x with ioErr := true } else x }
  let s5 := s4.mapLaunches fun x =>
    { x with badFills := x.badFills ++ (x.fills.filter fun p => p.1 = f.id).map Prod.snd }
  endFill f.id (s5.mapSaved fun k => k.fillFailed f.id)

/-- The reads of a fill with its frame are on their way. -/
def launchFill (e id addr : Nat) (s : State) : State :=
  (s.modCellar e fun x => { x with fills := x.fills.map fun f => if f.id == id then { f with frame := some addr } else f }).later
    (.pageFillComplete e id)

/-- A frame of an evicted page that is being written back. -/
def Cellar.leaving (x : Cellar) (f : Fill) : Bool := x.frames.any fun g => g.evicting && g.asid == f.asid && g.va == f.va && g.port == f.port

/-- A fill waits for a frame, and may have one: the page is not being written back to the drive it is read from (R124). -/
def Cellar.wants (x : Cellar) (f : Fill) : Bool := f.frame.isNone && f.map.isSome && !x.leaving f

/-- A fill without a frame takes a free one, or asks for an eviction (R123 step 3). -/
def placeFill (e : Nat) (f : Fill) (s : State) : State :=
  if !(s.cellar e).wants f then s else
  match (s.cellar e).freeFrame f.pool with
  | some a => launchFill e f.id a s
  | none => s.soon (.frameEviction e f.pool)

/-- A mapping serves a page, and its drive is attached and ready (R122). -/
def fillServed (s : State) (e asid va : Nat) : Bool :=
  let x := s.cellar e
  s.cellarReady e && (x.mapping asid va).any fun m => (x.lbaSize (x.drive m)).isSome

/-- The fill of a page under way at engine `e`. -/
def fillOf (s : State) (e port asid base : Nat) : Option Fill :=
  (s.cellar e).fills.find? fun f => f.asid == asid && f.va == base && f.port == port

/-- Begins the fill of a page at engine `e`, or joins the one under way (R123): its name. -/
def beginFill (e port asid : Nat) (l : Leaf) (va : Nat) (s : State) : State × Nat :=
  let base := l.base va
  match fillOf s e port asid base with
  | some f => (s, f.id)
  | none =>
    let (id, s1) := s.newId
    let f : Fill := { id := id, asid := asid, va := base, pool := l.pool, port := port,
                      map := (s.cellar e).mapping asid va, frame := none, fails := [] }
    let s2 := s1.modCellar e fun x => { x with fills := x.fills ++ [f] }
    (if fillServed s e asid va then placeFill e f s2 else s2, id)

/-- A fill that nothing serves fails at once, with no NVMe command (R122). -/
def dropUnserved (e asid va id : Nat) (s : State) : State :=
  if fillServed s e asid va then s
  else match (s.cellar e).fills.find? fun f => f.id == id with
    | some f => failFill e f (s.modCellar e fun x => x.failed true 1 0 f.va 0 asid false)
    | none => s

/-- The drive number that stands for none: no mapping serves the page. -/
def noDrive : Nat := 64

/-- The drive that a page is written back to. -/
def Cellar.driveOf (x : Cellar) (f : Frame) : Nat := ((x.mapping f.asid f.va).map x.drive).getD noDrive

/-- Begins a write-back of a frame; `keep` for a PERSIST FENCE. Of a page that no mapping serves the engine records the
failure, and one for a FENCE is tried again (R125, R127). -/
def beginWriteBack (e : Nat) (f : Frame) (keep : Bool) (s : State) : State :=
  let x := s.cellar e
  let m := x.mapping f.asid f.va
  let s0 := if m.isSome then s else s.modCellar e fun x => x.failed false 2 0 f.va 0 f.asid false
  if m.isNone && !keep then s0 else
  let (id, s1) := s0.newId
  let d := x.driveOf f
  let w : WriteBack := { id := id, addr := f.addr, asid := f.asid, va := f.va, port := f.port, drive := d,
                         lba := (m.map fun m => x.lba m f.va ((x.lbaSize d).getD 512)).getD 0,
                         flush := false, keep := keep, await := false, fails := [] }
  (s1.modCellar e fun x => { x with wbs := x.wbs ++ [w] }).later (.pageWriteBackComplete e id true)

/-- Begins a Flush of a drive; the drive counts as unflushed until it has completed (R127). -/
def beginFlush (e d : Nat) (s : State) : State :=
  let (id, s1) := s.newId
  let w : WriteBack := { id := id, addr := 0, asid := 0, va := 0, port := 0, drive := d, lba := 0, flush := true, keep := true,
                         await := false, fails := [] }
  (s1.modCellar e fun x => { x with wbs := x.wbs ++ [w] }).later (.pageWriteBackComplete e id true)

/-- What a PERSIST FENCE awaits, by engine and drive: drives with written pages of the ASID, or unflushed (R127). -/
def persistKeys (s : State) (asid : Nat) : List Nat :=
  (List.range 16).flatMap fun e =>
    let x := s.cellar e
    let ds := (x.frames.filter fun f => f.written && f.asid == asid).map x.driveOf
    ((ds ++ x.unflushed).foldl (fun r d => if d ∈ r then r else r ++ [d]) []).map fun d => 128 * e + d

/-- Begins the write-backs that a PERSIST FENCE awaits, and the flushes of drives that only need one. A page that is
being evicted is written back already: a Flush will follow that write-back. -/
def beginPersist (asid : Nat) (s : State) : State :=
  (List.range 16).foldl (fun s e =>
    let x := s.cellar e
    let fs := x.frames.filter fun f => f.written && f.asid == asid
    let out (w : WriteBack) : Bool := !w.flush && !w.keep && fs.any fun f => f.evicting && f.addr == w.addr
    let s0 := s.modCellar e fun x => { x with wbs := x.wbs.map fun (w : WriteBack) => if out w then { w with await := true } else w }
    let s1 := (fs.filter fun f => !f.evicting).foldl (fun s f => beginWriteBack e f true s) s0
    let busy := fs.map x.driveOf
    (x.unflushed.filter (· ∉ busy)).foldl (fun s d => beginFlush e d s) s1) s

end Sys2Proof.Machine
end

