-- ==== Sys2Proof/Machine/Network.lean ====
section
/-! DEFINITION. Accesses on their way: when a piece leaves its core, what its target does with it, acknowledgements,
held releases and fences (R114 to R116, R121, R135 to R146, R326, R340, R342). -/

namespace Sys2Proof.Machine

open Sys2Proof

/-! ## Pieces -/

/-- A piece by its name. -/
def State.piece? (s : State) (id : Nat) : Option Piece := s.net.find? fun p => p.id == id

/-- The state with a piece changed. -/
def State.modPiece (s : State) (id : Nat) (f : Piece → Piece) : State :=
  { s with net := s.net.map fun p => if p.id == id then f p else p }

/-- The state without a piece. -/
def State.dropPiece (s : State) (id : Nat) : State := { s with net := s.net.filter fun p => p.id ≠ id }

/-- A target as a key of `Thread.own`. -/
def Tgt.key : Tgt → Nat
  | .core c => c
  | .edge p => 2 ^ 20 + p
  | .host p => 2 ^ 20 + 2 ^ 8 + p
  | .mmio b => 2 ^ 20 + 2 ^ 9 + b

/-- A fault response has come and its handler has not returned (R326). -/
def Piece.faulted (p : Piece) : Bool := p.phase = .done && p.acked && p.err.isSome

/-- A response is still to come. -/
def Piece.pending (p : Piece) : Bool := p.unacked && !p.faulted

/-- A piece has not left its core. -/
def Piece.atCore (p : Piece) : Bool := p.phase = .unsent || p.phase = .held1

/-- One piece comes before another in their thread's program: by its access, then by its address in it. -/
def Piece.earlier (q p : Piece) : Bool := q.order < p.order || (q.order == p.order && q.off < p.off)

/-- Two pieces of a thread touch one byte: by the address at their target, by the program's address, or by the byte that
their addresses translate to (R139). -/
def Piece.overlaps (e p : Piece) : Bool :=
  (e.tgt == p.tgt && meets e.addr e.len p.addr p.len) || meets e.va e.len p.va p.len ||
  (match e.key, p.key with
   | some a, some b => meets a e.len b p.len
   | _, _ => false)

/-- A release that may leave under a ticket (R143); an atomic, and a reduction that DET may hold, waits at its core instead. -/
def Piece.ticketable (p : Piece) : Bool := !p.loc && !p.op.isAtomic && p.det.isNone

/-- An earlier access of the thread keeps a piece from leaving (R136, R139), or a lower piece of the same access does
(R137). One held under DET keeps none (R342). Scopes are not compared (log entry 73). -/
def Piece.blocks (e p : Piece) : Bool :=
  e.isAccess && e.unacked && e.src == p.src &&
  ((e.order == p.order && e.off < p.off && e.atCore) ||
   (e.order < p.order &&
    ((e.pending && e.acq.isSome && p.attr ≠ .uo) ||
     (e.pending && e.overlaps p && !(e.attr = .uo && p.attr = .uo)) ||
     (e.pending && e.attr = .so && p.attr = .so && (e.tgt ≠ p.tgt || e.loc ≠ p.loc || e.atCore)) ||
     (p.rel.isSome && e.attr ≠ .uo && !p.ticketable))))

/-- An earlier access that a release follows is not acknowledged (R139, R143). -/
def releaseWaits (s : State) (p : Piece) : Bool :=
  s.net.any fun e => e.isAccess && e.unacked && e.src == p.src && e.order < p.order && e.attr ≠ .uo

/-- Ticketed releases at a target, or on their way to it (R143). -/
def ticketsAt (s : State) (t : Tgt) : Nat := s.net.countP fun p => p.ticket && p.tgt == t && p.phase ≠ .done

/-- A piece may leave its core now. Whether DET will hold a reduction is known at its target alone, so it leaves as any other
(R139, R342, R343; log entry 81). -/
def sendable (s : State) (p : Piece) : Bool :=
  !(s.net.any fun e => e.blocks p) &&
  !(p.attr ≠ .uo && p.after.any fun i => s.net.any fun e => e.id == i && e.unacked) &&
  !(p.rel.isSome && releaseWaits s p && 64 ≤ ticketsAt s p.tgt)

/-- The bunch of a thread is on its cores and issues and accepts traffic. -/
def agentActive (s : State) (a : Agent) : Bool :=
  match s.whereIs a with
  | some (c, _) => !(s.core c).stopped
  | none => false

/-! ## Remote targets (R115, R116) -/

/-- The outcome of R116. -/
inductive RemoteTest where
  | go (c : Nat)
  | later
  | absent
deriving DecidableEq, Repr

/-- A core holds a bunch of a launch that accepts traffic. -/
def accepts (s : State) (l c : Nat) : Bool :=
  match (s.core c).owner with
  | some o => o.launch == l && !(s.core c).stopped
  | none => false

/-- R116 for launch `l` and the core index of the access. -/
def remoteTest (s : State) (l c : Nat) : RemoteTest :=
  match s.resolve l c with
  | .member b i =>
    match s.coreNow l b i with
    | some d => if accepts s l d then .go d else .later
    | none => if (s.bunch? l b).any Bunch.out then .later else .absent
  | .physical d =>
    if accepts s l d then .go d
    else if (s.desc l).inRegion d && s.coreReady d && (s.launch? l).any Launch.hasUnplaced then .later
    else .absent

/-! ## Faults found after issue (R326) -/

/-- The accesses of a thread that wait for their turn at a target try again (R142). -/
def wakeTurns (a : Agent) (s : State) : State :=
  (s.net.filter fun q => q.src == a && q.phase = .turn).foldl (fun s q => s.soon (.accessArrival q.id)) s

/-- A piece is gone without having been performed, and those that waited for their turn behind it go on. -/
def leaveNet (p : Piece) (s : State) : State := wakeTurns p.src (s.dropPiece p.id)

/-- The fault of a piece is raised in its thread: its access's, once (R326). -/
def tellFault (p : Piece) (s : State) : State :=
  raiseDeferred p.src ⟨p.order, p.err.getD 0, p.va, p.tag, p.pc, p.land.getD p.order⟩
    { s with net := s.net.map fun q => if q.src == p.src && q.order == p.order then { q with told := true } else q }

/-- The fault of an access awaits its handler's ERET, or the end of the thread. -/
def faultOpen (s : State) (a : Agent) (order : Nat) : Bool :=
  match s.whereIs a with
  | some (c, t) =>
    let th := s.thread c t
    th.running && th.since ≤ order && ((th.deferred.any fun d => d.order == order) || th.deferOn == some order)
  | none => true

/-- A fault that was found after its thread's end, or of which the handler has returned, is acknowledged at once (R326). -/
def dropAnswered (a : Agent) (order : Nat) (s : State) : State :=
  if faultOpen s a order then s
  else { s with net := s.net.filter fun q => !(q.src == a && q.order == order && q.faulted) }

/-- Once every piece of an access is acknowledged or has failed, the failure of its lowest byte is raised, unless it has
been. One found while the bunch is out waits for its return. -/
def settleAccess (a : Agent) (order : Nat) (s : State) : State :=
  let ps := s.net.filter fun p => p.src == a && p.order == order
  if (s.launch? a.launch).all Launch.ended then wakeTurns a (ps.foldl (fun s q => s.dropPiece q.id) s)
  else if (s.whereIs a).isSome && ps.all Piece.faulted then
    match sortBy Piece.off ps with
    | p :: rest =>
      let s1 := rest.foldl (fun s q => s.dropPiece q.id) s
      dropAnswered a order (if p.told then s1 else tellFault p s1)
    | [] => s
  else s

/-- A piece fails before any response of a target: it and the pieces after it perform nothing (R116). -/
def failAtCore (p : Piece) (cause : Nat) (s : State) : State :=
  let s1 := { s with net := s.net.map fun q =>
    if q.src == p.src && q.order == p.order && p.off ≤ q.off && (q.id == p.id || q.atCore || q.phase = .flying) then
      { q with phase := .done, acked := true, err := some cause } else q }
  (wakeTurns p.src (settleAccess p.src p.order s1)).soon (.remoteRetest p.id)

/-! ## Stream windows (R145, R146) -/

/-- The window of a stream at its target. -/
def State.win? (s : State) (a : Agent) (t : Tgt) : Option StreamWin := s.wins.find? fun w => w.src == a && w.tgt == t

/-- Distance from own number `x` up to `y`, modulo 2^24. -/
def ownDist (x y : Nat) : Nat := (y + 2 ^ 24 - x % 2 ^ 24) % 2 ^ 24

/-- An own number is in a window or below it (R145). -/
def StreamWin.has (w : StreamWin) (own : Nat) : Bool :=
  w.seen.any (fun p => p.1 == own) || (64 ≤ ownDist own w.high && ownDist own w.high < 2 ^ 23)

/-- The window with a performed access and its response: the highest own number, and the 64 below it. -/
def StreamWin.note (w : StreamWin) (own resp : Nat) : StreamWin :=
  let high := if ownDist w.high own < 2 ^ 23 then own else w.high
  { w with high := high, seen := ((own, resp) :: w.seen).filter fun p => ownDist p.1 high ≤ 64 }

/-- Notes an access performed, in its stream's window. -/
def noteWindow (p : Piece) (resp : Nat) (s : State) : State :=
  { s with wins := s.wins.map fun w => if w.src == p.src && w.tgt == p.tgt then w.note p.own resp else w }

/-- A piece's stream has a window at the target, or gets one: at most 4,096, the oldest refusal first (R146). -/
def admitPiece (p : Piece) (s : State) : Option State :=
  match s.win? p.src p.tgt with
  | some _ => some (({ s with wins := s.wins.map fun w =>
      if w.src == p.src && w.tgt == p.tgt then { w with last := s.now } else w } : State).after 1000000 .streamWindowRetire)
  | none =>
    let older := s.net.any fun q => q.tgt == p.tgt && q.tries ≠ 0 && q.src ≠ p.src &&
      (p.tries = 0 || q.tries < p.tries)
    if (s.wins.countP fun w => w.tgt == p.tgt) < 4096 && !older then
      let w : StreamWin := ⟨p.src, p.tgt, p.pred, [], s.now⟩
      some (({ s with wins := s.wins ++ [w] } : State).after 1000000 .streamWindowRetire)
    else none

/-! ## Leaving the core -/

/-- The least cycles between a piece's thread and its target, each way: the hops to another core (R11). -/
def pathOf (s : State) (p : Piece) : Nat :=
  match p.tgt with
  | .core c => hopsBetween ((s.whereIs p.src).map Prod.fst) (s.placeNow p.src.launch c)
  | _ => 0

/-- A piece leaves its core: SUCC, its ticket, its flight and the resend timer (R11, R141, R143, R145). -/
def fly (p : Piece) (s : State) : State :=
  let more := s.net.any fun q => q.src == p.src && q.tgt == p.tgt && !q.loc && p.earlier q
  let ticket := p.rel.isSome && p.det.isNone && releaseWaits s p
  let s1 := s.modPiece p.id fun q =>
    { q with phase := .flying, ticket := ticket, sentAt := s.now, succ := if more then (q.own + 1) % 2 ^ 24 else q.own }
  (s1.laterBy (pathOf s p) (.accessArrival p.id)).after 50000 (.accessResend p.id)

/-- Another stream of the launch has touched a 32-byte unit. -/
def Touch.races (t : Touch) (u : Nat) (a : Agent) : Bool := t.lo ≤ u && u ≤ t.hi && t.src ≠ a && t.src.launch == a.launch

/-- An access has been performed on [k, k + n), and its units are kept for a microsecond; each unit of a UO write, of which
`log` tells its thread, that another stream of the launch has touched in it is a race (R340). -/
def touchAt (k n : Nat) (a : Agent) (order : Nat) (log : Option (State → State)) (s : State) : State :=
  let us := (List.range ((k + n - 1) / 32 + 1 - k / 32)).map (k / 32 + ·)
  let recent := s.touches.filter fun t => s.now < t.at_ + 1000
  let s1 : State := { s with touches := recent ++ [⟨k / 32, (k + n - 1) / 32, a, order, s.now⟩] }
  match log with
  | some f => Nat.repeat f (us.countP fun u => recent.any fun t => t.races u a) s1
  | none => s1

/-- An event of Table 21.2 found as a piece is performed: a LOCAL one is found at its thread's core (R339). -/
def Piece.notes (p : Piece) (code : Nat) (s : State) : State :=
  if p.loc then logNd p.src code p.pc s else noteNd (pathOf s p) p.src code p.pc s

/-- A piece has been performed at key `k` (R340). -/
def touch (k : Nat) (p : Piece) (s : State) : State :=
  touchAt k p.len p.src p.order (if p.attr = .uo && p.op.writes then some (p.notes 6) else none) s

/-- A piece is answered: its response is on its way, and pieces that waited for it at the target go on (R11, R142). -/
def answer (p : Piece) (resp : Nat) (err : Option Nat) (s : State) : State :=
  let s1 := noteWindow p resp (s.modPiece p.id fun q => { q with phase := .done, resp := resp, err := err })
  let s2 := wakeTurns p.src s1
  if p.loc then s2.after (if p.op.reads then 7 else 1) (.ackArrival p.id) else s2.laterBy (pathOf s p) (.ackArrival p.id)

/-- A piece fails at its target: it changes nothing there, and pieces after it that have not been performed perform
nothing. -/
def failPiece (p : Piece) (cause : Nat) (s : State) : State :=
  let s1 := { s with net := s.net.map fun q =>
    if q.src == p.src && q.order == p.order && p.off < q.off && q.atCore then
      { q with phase := .done, acked := true, err := some cause } else q }
  answer p 0 (some cause) s1

/-- A reduction outside DET, whose target logs a fit that rounds (R343). -/
def Piece.open_ (p : Piece) : Bool := p.det.isNone && !p.handler

/-- A write at an edge port is seen by the frame it falls in, if there is one (R124). -/
def Piece.marks (p : Piece) (k : Nat) (s : State) : State :=
  match p.tgt with
  | .edge _ => if p.op.writes then markFrames k p.len s else s
  | _ => s

/-- Accesses held under DET at a target (R343). -/
def detHeldAt (s : State) (t : Tgt) : Nat := s.net.countP fun p => p.phase = .detHeld && p.tgt == t

/-- A piece performs on the bytes at key `k`, or is held there under DET (R131, R342, R343). -/
def performAt (k : Nat) (p : Piece) (s : State) : State :=
  if p.meetsError s k then failPiece p Cause.memEcc s
  else if p.det.isSome && detHeldAt s p.tgt < 256 then
    let s1 := noteWindow p 0 (s.modPiece p.id fun q => { q with phase := .detHeld, resp := k })
    ((wakeTurns p.src s1).laterBy (pathOf s p) (.ackArrival p.id)).soon (.detWindowClose p.src.launch)
  else
    let s0 := if p.det.isSome || (p.open_ && fitRounds p.op p.data (loadN s k p.len)) then p.notes 5 s else s
    let (s1, old) := p.apply s0 k
    answer p old none (touch k p (p.marks k s1))

/-! ## Edge ports (R117 to R121) -/

/-- A cached translation that covers an address. -/
def EdgePort.cached (e : EdgePort) (asid va : Nat) : Option Xlat :=
  e.cache.find? fun x => x.asid == asid && x.va == va / x.size * x.size

/-- A cached translation as a leaf: what the device itself has changed of it since stands in it (`devicePte`). -/
def Xlat.leaf (x : Xlat) : Leaf := ⟨x.pte, x.at_, x.size⟩

/-- A port with a translation cached, at most 8,192 (R120). -/
def EdgePort.enter (e : EdgePort) (x : Xlat) : EdgePort :=
  { e with cache := ((x :: e.cache.filter fun y => !(y.asid == x.asid && y.va == x.va && y.size == x.size)).take 8192) }

/-- The thread that made an access, as a master (R363). -/
def Piece.master (p : Piece) : Master := .thread p.asid p.lvl

/-- The rights of a master at a target that an access needs (R363). -/
def mayDo (s : State) (t : Nat) (m : Master) (o : MemOp) : Bool :=
  if o.combines then s.mayAtomic t m else if o.writes then s.mayWrite t m else s.mayRead t m

/-- The replicas of a page at its home (R121). -/
def replicaPorts (s : State) (home frame : Nat) : List Nat :=
  ((s.replicas.find? fun r => r.home == home && r.frame == frame).map Replica.ports).getD []

/-- The directory with the replicas of a page set. -/
def setReplicas (home frame : Nat) (ports : List Nat) (s : State) : State :=
  let rest := s.replicas.filter fun r => !(r.home == home && r.frame == frame)
  { s with replicas := if ports.isEmpty then rest else rest ++ [⟨home, frame, ports⟩] }

/-- An access at the home of a REPLICATED page (R121): a plain read may leave a copy at the translating port; a write
waits for the invalidates of every replica. -/
def replicated (q home k frame : Nat) (p : Piece) (s : State) : State :=
  let ports := replicaPorts s home frame
  if p.op.writes then
    if ports.isEmpty then performAt k p s
    else
      let s0 := s.modPiece p.id fun x => { x with phase := .waiting }
      let s1 : State := { s0 with invWaits := s.invWaits ++ [⟨p.id, ports, k, home, frame⟩] }
      ports.foldl (fun s r => s.later (.replicaInvalidateAck p.id r)) s1
  else
    let s1 := performAt k p s
    if p.acq.isNone && q ≠ home && q ∉ ports && ports.length < 8 then setReplicas home frame (ports ++ [q]) s1 else s1

/-- An access of master `p` reaches edge DRAM at a port: rights, extent, bytes (R114; log entry 42). -/
def edgeBytes (port a : Nat) (p : Piece) (s : State) (f : Nat → State) : State :=
  if !mayDo s port p.master p.op || !s.edgeReady port || (s.edgePort port).size < a + p.len then
    failPiece p Cause.accessDenied s
  else f (edgeKey port a)

/-- An access with its leaf at port `q` (R118 to R123): rights, then the memory the leaf names. -/
def performEdge (q : Nat) (l : Leaf) (p : Piece) (s : State) : State :=
  if (p.op.reads && !l.pte.getLsbD 1) || (p.op.writes && !l.pte.getLsbD 2) then failPiece p Cause.edgePerm s
  else
    let a := l.phys p.va
    match l.tt with
    | 0 => edgeBytes l.port a p s fun k => performAt k p s
    | 1 => if s.ready.host.getLsbD l.port then performAt (hostKey l.port a) p s else failPiece p Cause.accessDenied s
    | 2 =>
      if l.res then edgeBytes (4 * l.port) a p s fun k => performAt k p s
      else (s.modPiece p.id fun x => { x with phase := .paged }).soon (.storageFault p.id)
    | _ => edgeBytes l.port a p s fun k => replicated q l.port k (fieldOf l.pte 16 36) p s

/-- An access at its edge port: a cached translation, which a port that translates (R385) may use or pass over (R120),
or a walk; with no free walker it waits. -/
def edgeAccess (q : Nat) (p : Piece) (s : State) : State :=
  let e := s.edgePort q
  let (hit, s0) := match e.cached p.asid p.va with
    | some x => let (b, s1) := s.choose; (if b && e.rtab.getLsbD 0 && s.edgeReady q then some x else none, s1)
    | none => (none, s)
  match hit with
  | some x => performEdge q x.leaf p s0
  | none =>
    let s1 := s0.modPiece p.id fun x => { x with phase := .waiting }
    if e.walks < 96 then (s1.modEdge q fun e => { e with walks := e.walks + 1 }).later (.edgeTranslationWalk p.id)
    else (s0.modPiece p.id fun x => { x with phase := .flying }).after 1 (.accessArrival p.id)

/-- The end of a walk (R119, R120): a fault, or the translation, cached, and the access performed. -/
def finishWalk (q : Nat) (p : Piece) (s : State) : State :=
  let s1 := s.modEdge q fun e => { e with walks := e.walks - 1 }
  match walk s q p.asid p.va with
  | .error c => failPiece p c s1
  | .ok l =>
    let s2 := s1.modEdge q fun e => e.enter ⟨p.asid, l.base p.va, l.size, l.pte, l.at_⟩
    let s3 := match rootEntry s q p.asid with
      | .ok r => s2.modEdge q fun e => { e with roots := Tbl.set e.roots p.asid r }
      | .error _ => s2
    performEdge q l p s3

/-! ## At the target -/

/-- An access at the MMIO space (R114, R361): a read answers the bytes, a write happens next as its events. -/
def performMmio (p : Piece) (s : State) : State :=
  if p.op.writes then
    if s.mmioWrites p.master p.addr p.len then answer p 0 none (s.mmioWrite p.master p.addr (toBytes p.data p.len))
    else failPiece p Cause.accessDenied s
  else if s.mmioReads p.master p.addr p.len then answer p (ofBytes (mmioBytes s p.addr p.len)) none s
  else failPiece p Cause.accessDenied s

/-- A piece performs at its target, its order there settled. Host memory has no access table (log entry 70). -/
def perform (p : Piece) (s : State) : State :=
  match p.tgt with
  | .core c =>
    if p.loc then
      match s.whereIs p.src with
      | some (d, _) => performAt (localKey d p.addr) p s
      | none => s
    else
      match remoteTest s p.src.launch c with
      | .go d =>
        if mayDo s (112 + fieldOfCore d) p.master p.op then performAt (localKey d p.addr) p s
        else failPiece p Cause.accessDenied s
      | .later => (s.modPiece p.id fun q => { q with phase := .held1 }).after 1000 (.remoteRetest p.id)
      | .absent => failAtCore p Cause.remoteAbsent s
  | .edge q => edgeAccess q p s
  | .host h =>
    if h < 4 && s.ready.host.getLsbD h then performAt (hostKey h p.addr) p s else failPiece p Cause.accessDenied s
  | .mmio _ => performMmio p s

/-- The access before an SO access in its stream, or an earlier SO access of it, has not been performed at the target
(R142). -/
def predWaits (s : State) (p : Piece) : Bool :=
  s.net.any fun q => q.src == p.src && q.tgt == p.tgt && !q.loc && q.earlier p && q.phase ≠ .done && q.phase ≠ .detHeld &&
    (q.own == p.pred || q.attr = .so)

/-- A piece reaches its target (R142 to R146): its window, its place among SO accesses, a ticket, then its effect. A
refused one is held at its sender, where the resend timer does not run, and tries again every 1 µs. -/
def arrive (p : Piece) (s : State) : State :=
  match admitPiece p s with
  | none =>
    let t := if p.tries = 0 then s.now + 1 else p.tries
    (s.modPiece p.id fun q => { q with tries := t }).after 1000 (.streamAdmitRetry p.id)
  | some s1 =>
    let s2 := if p.tries = 0 then s1 else
      (s1.modPiece p.id fun q => { q with tries := 0, sentAt := s.now }).after 50000 (.accessResend p.id)
    if p.attr = .so && predWaits s2 p then s2.modPiece p.id fun q => { q with phase := .turn }
    else if p.ticket then
      let s3 := s2.modPiece p.id fun q => { q with phase := .held }
      s3.laterBy (pathOf s p) (.ackArrival p.id)
    else perform p s2

/-- A piece leaves its core if it may: a LOCAL one performs at once, a remote one is tested per R116. -/
def trySend (p : Piece) (s : State) : State :=
  if p.phase = .unsent && !p.orphan && agentActive s p.src && sendable s p then
    if p.loc then perform p s
    else match p.tgt with
      | .core c =>
        match remoteTest s p.src.launch c with
        | .go _ => fly p s
        | .later => (s.modPiece p.id fun q => { q with phase := .held1 }).after 1000 (.remoteRetest p.id)
        | .absent => failAtCore p Cause.remoteAbsent s
      | _ => fly p s
  else s

/-- The next own number of a stream of a thread. -/
def nextOwn (th : Thread) (t : Tgt) : Nat := (Tbl.get th.own t.key 0 + 1) % 2 ^ 24

/-- A thread's stream numbers with one more access in a stream. -/
def bumpOwn (t : Tgt) (th : Thread) : Thread := { th with own := Tbl.set th.own t.key (nextOwn th t) }

/-- A piece enters the network at slot `t` of core `c`: a name, and its stream's numbers (R141). -/
def addPiece (c t : Nat) (s : State) (p : Piece) : State :=
  let (id, s1) := s.newId
  let th := s1.thread c t
  if p.loc then { s1 with net := s1.net ++ [{ p with id := id }] }
  else
    let s2 := s1.setThread c t (bumpOwn p.tgt th)
    { s2 with net := s2.net ++ [{ p with id := id, pred := Tbl.get th.own p.tgt.key 0, own := nextOwn th p.tgt }] }

/-- The clearance or cancel of a held release, as a numbered access of its stream (R143). -/
def addControl (c t : Nat) (r : Piece) (o : MemOp) (s : State) : State × Nat :=
  let id := s.nextId
  let s1 := addPiece c t s { r with op := o, len := 0, rel := none, acq := none, land := none, attr := .rc,
                                    order := id, phase := .flying, ticket := false, acked := false, after := [] }
  (s1, id)

/-- A held release whose earlier accesses are all acknowledged gets its clearance (R143). -/
def tryClear (p : Piece) (s : State) : State :=
  if p.phase = .held && p.acked && !p.orphan && agentActive s p.src && !releaseWaits s p &&
      !(s.net.any fun q => q.op = .clearance p.id) then
    match s.whereIs p.src with
    | some (c, t) =>
      let (s1, id) := addControl c t p (.clearance p.id) s
      (s1.laterBy (pathOf s p) (.releaseClearance id)).after 50000 (.accessResend id)
    | none => s
  else s

/-- Every piece that may now leave its core leaves it, and every release that may be cleared is. -/
def pump (s : State) : State :=
  (s.net.map Piece.id).foldl (fun s id =>
    match s.piece? id with
    | some p => tryClear p (trySend p s)
    | none => s) s

/-! ## Fences (R265, R293) -/

/-- A fence's awaited accesses are acknowledged, and its awaited commands gone. -/
def Fence.reached (s : State) (k : Core) (f : Fence) : Bool :=
  !(f.pieces.any fun i => s.net.any fun p => p.id == i && p.unacked) &&
  !(f.cmds.any fun i => k.eng.any fun q => q.cmds.any fun x => x.id == i)

/-- A fence completes: its landing lands and its tag frees. -/
def completeFence (c t id : Nat) (s : State) : State :=
  landResult c t id (s.modThread c t fun th =>
    ({ th with fences := th.fences.filter fun f => f.id ≠ id }).modLanding id fun l => { l with missing := 0 })

/-- A fence that has reached its end: a PERSIST one begins the write-backs it awaits (R127), any other completes. -/
def stepFence (c t : Nat) (s : State) (f : Fence) : State :=
  if !f.reached s (s.core c) then s
  else if f.persist then
    let keys := persistKeys s (s.asidOf c)
    if keys.isEmpty then completeFence c t f.id s
    else beginPersist (s.asidOf c) (s.modThread c t fun th => { th with fences := th.fences.map fun (g : Fence) =>
      if g.id = f.id then { g with persist := false, pages := keys } else g })
  else if f.pages.isEmpty then completeFence c t f.id s
  else s

/-- Completes the fences of a slot that have nothing left to await. -/
def checkFences (c t : Nat) (s : State) : State := (s.thread c t).fences.foldl (stepFence c t) s

/-! ## Acknowledgements (R141, R143, R326) -/

/-- The value of a load whose last byte has come: FILL shifts out its phase and keeps its width (R266). -/
def finishValue (l : Landing) : Nat :=
  match l.kind with
  | .load phase n => trunc (l.value >>> (if phase then 4 else 0)) n
  | _ => l.value

/-- A response puts its bytes into the landing it belongs to, which lands with its last response (R258). -/
def giveLanding (c t id : Nat) (p : Piece) (s : State) : State :=
  let s1 := s.modThread c t fun th => th.modLanding id fun l =>
    let l1 := { l with value := l.value ||| p.resp <<< (8 * p.off), missing := l.missing - 1 }
    if l1.missing = 0 then { l1 with value := finishValue l1 } else l1
  landResult c t id s1

/-- An ACAS that found another value than it expected is logged (R260). -/
def logAcas (p : Piece) (s : State) : State :=
  match p.op with
  | .atomic 9 n => if p.resp = trunc p.data n then s else logNd p.src 1 p.pc s
  | _ => s

/-- A performed piece is acknowledged: it leaves, and what waited for it goes on. -/
def ackPerformed (p : Piece) (s : State) : State :=
  let s1 := logAcas p (s.dropPiece p.id)
  let s2 := match p.land, s1.whereIs p.src with
    | some id, some (c, t) => giveLanding c t id p s1
    | _, _ => s1
  let s3 := settleAccess p.src p.order s2
  let s4 := match s3.whereIs p.src with
    | some (c, t) => checkFences c t s3
    | none => s3
  ((pump s4).soon (.bunchRetire p.src.launch p.src.bunch)).soon (.orphanTimeout p.src.launch p.src.bunch)

/-- An acknowledgement reaches the issuing stream. One of a piece recorded at a halt is discarded (R331). -/
def acknowledge (p : Piece) (s : State) : State :=
  if p.orphan then (if (s.launch? p.src.launch).all Launch.ended then leaveNet p s else s)
  else match p.phase with
    | .held => pump (s.modPiece p.id fun q => { q with acked := true })
    | .detHeld =>
      let s1 := s.modPiece p.id fun q => { q with acked := true }
      match s1.whereIs p.src with
      | some (c, t) => pump (checkFences c t s1)
      | none => pump s1
    | .done =>
      if p.err.isSome then
        pump (settleAccess p.src p.order (s.modPiece p.id fun q => { q with acked := true }))
      else ackPerformed p s
    | _ => s

/-- ERET from a deferred fault, or the end of its thread, acknowledges the faulted access (R326). -/
def acknowledgeFault (a : Agent) (order : Nat) (s : State) : State :=
  let s1 := { s with net := s.net.filter fun p => !(p.src == a && p.order == order && p.faulted) }
  match s1.whereIs a with
  | some (c, t) => pump (checkFences c t s1)
  | none => pump s1

end Sys2Proof.Machine
end

