-- ==== Sys2Proof/Machine/DirtyLog.lean ====
section
/-! DEFINITION. The dirty log of a core and its merge into page tables (R128 to R130). -/

namespace Sys2Proof.Machine

open Sys2Proof

/-- The page a write logs: its base address and, in the two lowest bits, its size code (R128). -/
def Leaf.page (l : Leaf) (va : Nat) : Nat := l.base va + l.code

/-- The pages that the EDGE pieces of a write log, each once. -/
def pagesOf (s : State) (asid : Nat) (ps : List Piece) : List Nat :=
  ps.foldl (fun r p => match p.tgt with
    | .edge q =>
      match walk s q asid p.va with
      | .ok l => if l.page p.va ∈ r then r else r ++ [l.page p.va]
      | .error _ => r
    | _ => r) []

/-- The index in bits [8:0] of `dlogidx`. -/
def Core.logIdx (k : Core) : Nat := fieldOf k.dlogidx 0 9

/-- Pages of a list that would take a new entry. -/
def Core.newPages (k : Core) (pages : List Nat) : List Nat := pages.filter fun p => p ∉ k.filter

/-- A write finds the log full (R129). -/
def Core.logFull (k : Core) (pages : List Nat) : Bool := 256 < k.logIdx + (k.newPages pages).length

/-- A merge of a core's log ends within 2 µs (R129). -/
def mergeSoon (c : Nat) (s : State) : State :=
  let (i, s1) := s.fresh
  s1.after (Config.delay i % 2000) (.dlogMerge c)

/-- A merge begins when the log holds 128 entries (R129); it takes at most 2 µs. -/
def startMerge (c : Nat) (s : State) : State :=
  let k := s.core c
  if 128 ≤ k.logIdx && !k.merging then
    mergeSoon c (s.setCore c { k with merging := true })
  else s

/-- An entry enters the log at the next index, its word sound again (R131). -/
def putLogEntry (c e : Nat) (s : State) : State :=
  let k := s.core c
  let s1 := storeBytes s (localKey c (k.dlogbase.toNat + 8 * k.logIdx)) (toBytes e 8)
  s1.setCore c { k with dlogidx := putBits k.dlogidx 0 9 (k.logIdx + 1) }

/-- A page is logged, unless the filter of the 8 last logged holds it (R128). -/
def logPage (c : Nat) (s : State) (page : Nat) : State :=
  let k := s.core c
  if page ∈ k.filter then s.setCore c { k with filter := page :: k.filter.erase page }
  else
    let s1 := putLogEntry c page s
    startMerge c (s1.modCore c fun k => { k with filter := (page :: k.filter).take 8 })

/-- The pages of a write are logged. -/
def logPages (c : Nat) (pages : List Nat) (s : State) : State := pages.foldl (logPage c) s

/-- The edge ports whose tables hold a page that a core's program reaches at an address. -/
def portsFor (k : Core) (va size : Nat) : List Nat :=
  match placeOf k va with
  | some p =>
    if p.typ = .edge then
      if p.lim.getLsbD 1 && 2 ^ 21 < size then List.range 64 else [edgePortOf p.lim va]
    else []
  | none => []

/-- Sets D in the PTE that covers an address at a port, if there is one. -/
def setDirty (asid va q : Nat) (s : State) : State :=
  match walk s q asid va with
  | .ok l => devicePte q l (· ||| 0x20) (· ||| 0x20) s
  | .error _ => s

/-- Sets D in the page of a log entry. -/
def setLogged (c asid e : Nat) (s : State) : State :=
  let va := e / 2 ^ 16 * 2 ^ 16
  let size := if e % 4 = 0 then 2 ^ 16 else if e % 4 = 1 then 2 ^ 21 else 2 ^ 30
  (portsFor (s.core c) va size).foldl (fun s q => setDirty asid va q s) s

/-- Sets D in every page with a 64 KiB unit of [lo, hi] (R130). -/
def setRange (c asid lo hi : Nat) (s : State) : State :=
  (List.range (hi + 1 - lo)).foldl (fun s j =>
    let va := (lo + j) * 2 ^ 16
    (portsFor (s.core c) va (2 ^ 16)).foldl (fun s q => setDirty asid va q s) s) s

/-- Merges log entries, range records being two (R129, R130). -/
def mergeEntries (c asid : Nat) : List Nat → State → State
  | [], s => s
  | [e], s => if e % 4 = 3 then s else setLogged c asid e s
  | e :: f :: r, s =>
    if e % 4 = 3 ∧ f % 4 = 3 then mergeEntries c asid r (setRange c asid (e / 2 ^ 16) (f / 2 ^ 16) s)
    else mergeEntries c asid (f :: r) (if e % 4 = 3 then s else setLogged c asid e s)

/-- The cluster agent merges a core's log: D bits, index 0, filter empty (R129). -/
def mergeLog (c : Nat) (s : State) : State :=
  let k := s.core c
  let es := (List.range k.logIdx).map fun j => loadN s (localKey c (k.dlogbase.toNat + 8 * j)) 8
  let s1 := mergeEntries c (s.asidOf c) es s
  s1.modCore c fun k => { k with dlogidx := putBits k.dlogidx 0 9 0, filter := [], merging := false }

/-- Landings of DLOGH that wait for the merge land (R314). -/
def landMerges (c : Nat) (s : State) : State :=
  (List.range 8).foldl (fun s t =>
    ((s.thread c t).landings.filter fun l => l.kind = .merge && !l.landed).foldl (fun s l =>
      landResult c t l.id (s.modThread c t fun th => th.modLanding l.id fun l => { l with missing := 0 })) s) s

/-- DLOG_MERGE (R129). -/
def execDlogMerge (c : Nat) (s : State) : Host.Outcome State Fault Refusal :=
  .next (if (s.core c).merging then landMerges c (mergeLog c s) else s)

end Sys2Proof.Machine
end

