-- ==== Sys2Proof/Machine/AccessEvents.lean ====
section
/-! DEFINITION. Events of the memory system: arrivals, acknowledgements, resends, walks, replicas, DET windows, errors
(R65, R116, R119, R121, R131, R142 to R146, R342). -/

namespace Sys2Proof.Machine

open Sys2Proof

/-- Does something with a piece, if it is still in the network. -/
def withPiece (id : Nat) (s : State) (f : Piece → State) : Host.Outcome State Fault Refusal :=
  .next (match s.piece? id with
    | some p => f p
    | none => s)

/-- ACCESS_ARRIVAL (R142): a piece on its way, or waiting for its turn, reaches its target; a copy of one already
performed is answered from the window (R145). -/
def execAccessArrival (id : Nat) (s : State) : Host.Outcome State Fault Refusal :=
  withPiece id s fun p =>
    match p.phase with
    | .flying => arrive p s
    | .turn => if predWaits s p then s else arrive p s
    | .done => s.later (.ackArrival id)
    | _ => s

/-- ACK_ARRIVAL (R141). -/
def execAckArrival (id : Nat) (s : State) : Host.Outcome State Fault Refusal := withPiece id s fun p => acknowledge p s

/-- ACCESS_RESEND (R145): an access with no acknowledgement 50 µs after it was sent is sent again; after 8 resends a
machine check. A held release that was acknowledged as held is not resent (R143). -/
def execAccessResend (id : Nat) (s : State) : Host.Outcome State Fault Refusal :=
  withPiece id s fun p =>
    if p.acked || p.orphan || p.atCore || p.tries ≠ 0 || s.now < p.sentAt + 50000 then s
    else if 8 ≤ p.resends then
      raiseFatal p.src.launch p.src.bunch p.src.slot (s.homeCore p.src.launch p.src.bunch p.src.i)
        ⟨Cause.mchkResend, p.va, p.pc, p.pc, true, false, 0⟩ s
    else
      let s1 := s.modPiece id fun q => { q with resends := q.resends + 1, sentAt := s.now }
      let s2 := s1.after 50000 (.accessResend id)
      match p.phase with
      | .done => s2.laterBy (pathOf s p) (.accessArrival id)
      | .held => s2.laterBy (pathOf s p) (.ackArrival id)
      | _ => s2

/-- STREAM_WINDOW_RETIRE (R146): windows with no arrival for 1 ms are gone. -/
def execStreamWindowRetire (s : State) : Host.Outcome State Fault Refusal :=
  .next { s with wins := s.wins.filter fun w => s.now < w.last + 1000000 }

/-- STREAM_ADMIT_RETRY (R146): a refused access tries its target again. -/
def execStreamAdmitRetry (id : Nat) (s : State) : Host.Outcome State Fault Refusal :=
  withPiece id s fun p => if p.phase = .flying && p.tries ≠ 0 then arrive p s else s

/-- RELEASE_CLEARANCE (R143): the target performs the held release that a clearance names. -/
def execReleaseClearance (id : Nat) (s : State) : Host.Outcome State Fault Refusal :=
  withPiece id s fun q =>
    match q.op with
    | .clearance rel =>
      if q.phase = .flying then
        let s1 := answer q 0 none s
        match s1.piece? rel with
        | some p => if p.phase = .held then perform p (s1.modPiece rel fun p => { p with acked := false }) else s1
        | none => s1
      else s
    | _ => s

/-- RELEASE_CANCEL (R143): the target discards the held release that a cancel names. -/
def execReleaseCancel (id : Nat) (s : State) : Host.Outcome State Fault Refusal :=
  withPiece id s fun q =>
    match q.op with
    | .cancel rel => leaveNet q (s.dropPiece rel)
    | _ => s

/-- REMOTE_RETEST (R116): a held remote access is tested again; what waited for one that has failed goes on. -/
def execRemoteRetest (id : Nat) (s : State) : Host.Outcome State Fault Refusal :=
  .next (match s.piece? id with
    | some p =>
      if p.phase = .held1 then
        let s1 := s.modPiece id fun q => { q with phase := .unsent }
        if agentActive s p.src then pump s1 else s1
      else pump s
    | none => pump s)

/-- REPLICA_INVALIDATE_ACK (R121): on the last acknowledgement home performs the write, and no replica is left. -/
def execReplicaInvalidateAck (id p : Nat) (s : State) : Host.Outcome State Fault Refusal :=
  .next (match s.invWaits.find? fun w => w.piece == id with
    | none => s
    | some w =>
      let left := w.left.filter (· ≠ p)
      if left.isEmpty then
        let s1 := setReplicas w.home w.frame [] { s with invWaits := s.invWaits.filter fun w => w.piece ≠ id }
        match s1.piece? id with
        | some q => if q.phase = .waiting then performAt w.key q s1 else s1
        | none => s1
      else { s with invWaits := s.invWaits.map fun x => if x.piece == id then { x with left := left } else x })

/-- EDGE_TRANSLATION_WALK (R119): the walk for an access ends. -/
def execEdgeTranslationWalk (id : Nat) (s : State) : Host.Outcome State Fault Refusal :=
  withPiece id s fun p =>
    match p.tgt with
    | .edge q => if p.phase = .waiting then finishWalk q p s else s.modEdge q fun e => { e with walks := e.walks - 1 }
    | _ => s

/-! ## Windows under DET (R342) -/

/-- All root threads of a context have exited. -/
def Core.rootsExited (k : Core) : Bool := k.threads.all fun th => th.kind ≠ .root || !th.running

/-- All root threads of a bunch have exited, wherever it stands. -/
def rootsExited (s : State) (l : Launch) (y : Bunch) : Bool :=
  if y.state = .saved then y.saved.all fun x => x.ctx.rootsExited
  else (List.range (l.desc.w * l.desc.h)).all fun i => (s.core (coreOfIndex y.x y.y l.desc.w i)).rootsExited

/-- A bunch no longer holds generation `g` of barrier 0 open. -/
def passed (s : State) (l : Launch) (g : Nat) (y : Bunch) : Bool :=
  y.state = .retired || (y.barriers.head?.any fun b => g < b.g.toNat) || rootsExited s l y

/-- The held reductions of a window. -/
def heldOf (s : State) (l round g : Nat) : List Piece :=
  s.net.filter fun p => p.src.launch == l && p.phase = .detHeld && p.det.any fun k => k.round == round && k.g == g

/-- Where a held reduction is performed: the byte its target has for it now, none where that core's store is gone. The
outer answer is none while the store's bunch is out (R331). -/
def heldKey (s : State) (p : Piece) : Option (Option Nat) :=
  match p.tgt with
  | .core c =>
    match remoteTest s p.src.launch c with
    | .go d => some (some (localKey d p.addr))
    | .later => none
    | .absent => some none
  | _ => some (some p.resp)

/-- The window (round, g) of a launch closes (R342). Reductions held for a store that is out wait for it (log entry 55). -/
def closable (s : State) (l : Launch) (round g : Nat) : Bool :=
  (round < l.round || (!l.hasUnplaced && l.bunches.all (passed s l g))) &&
  !(s.net.any fun p => p.src.launch == l.id && p.phase ≠ .detHeld && p.phase ≠ .done &&
    p.det.any fun k => k.round == round && k.g == g) &&
  (heldOf s l.id round g).all fun p => (heldKey s p).isSome

/-- The order of held reductions: the key, then the order within an access. -/
def detRank (p : Piece) : Nat :=
  match p.det with
  | some k => (((k.digest * 2 ^ 64 + k.n) * 2 ^ 20 + k.core) * 8 + k.slot) * 2 ^ 16 + p.off
  | none => 0

/-- A held reduction is performed, and leaves (R342). -/
def performHeld (p : Piece) (s : State) : State :=
  (match heldKey s p with
    | some (some k) => touch k p (p.marks k (p.apply s k).1)
    | _ => s).dropPiece p.id

/-- A window closes: its held reductions are performed in key order. -/
def closeWindow (l round g : Nat) (s : State) : State :=
  (sortBy detRank (heldOf s l round g)).foldl (fun s p => performHeld p s) s

/-- The windows of a launch with held reductions, as round × 2^32 + g, in order. -/
def openWindows (s : State) (l : Nat) : List Nat :=
  sortBy id ((s.net.filter fun p => p.src.launch == l && p.phase = .detHeld).foldl (fun r p =>
    match p.det with
    | some k => let w := k.round * 2 ^ 32 + k.g; if w ∈ r then r else r ++ [w]
    | none => r) [])

/-- DET_WINDOW_CLOSE (R342): the windows of a launch that may close do, in order. -/
def execDetWindowClose (l : Nat) (s : State) : Host.Outcome State Fault Refusal :=
  .next (match s.launch? l with
    | none => s
    | some x => (openWindows s l).foldl (fun s w =>
        if closable s x (w / 2 ^ 32) (w % 2 ^ 32) then (closeWindow l (w / 2 ^ 32) (w % 2 ^ 32) s).soon (.roundEnd l) else s) s)

/-! ## Windows of waiting threads and soft errors -/

/-- WINDOW_DROWSY (R65): the window of a thread that has waited 8,192 cycles becomes drowsy. -/
def execWindowDrowsy (c t : Nat) (s : State) : Host.Outcome State Fault Refusal :=
  .next (s.modThread c t fun th =>
    match th.wait with
    | some w => if w.since + 8192 ≤ s.now then { th with drowsy := true } else th
    | none => th)

/-- SOFT_ERROR (R67, R131): kind 0 a single-bit error, corrected on read; 1 an uncorrectable error in group `a % 256` of
the window of slot `a / 256 % 8` of core `a / 2048`; 2 an uncorrectable error or poison in the memory word at key `a`. -/
def execSoftError (kind a : Nat) (s : State) : Host.Outcome State Fault Refusal :=
  .next (if kind = 1 then
      s.modThread (a / 2048) (a / 256 % 8) fun th =>
        { th with badGroups := if a % 256 ∈ th.badGroups then th.badGroups else th.badGroups ++ [a % 256] }
    else if kind = 2 then
      { s with badMem := s.badMem ++ ((List.range 8).map fun j => a / 8 * 8 + j).filter (· ∉ s.badMem) }
    else s)

end Sys2Proof.Machine
end

