-- ==== Sys2Proof/Machine/Loads.lean ====
section
/-! DEFINITION. Memory instructions: loads, stores, atomics, reductions, SPILL, FILL and FENCE (chapter 15, R254 to
R266). -/

namespace Sys2Proof.Machine

open Sys2Proof

/-! ## One access of a thread -/

/-- What a memory form asks for: operation, bytes, alignment, data, nibbles left alone, result to land. -/
structure Form where
  op    : MemOp
  n     : Nat
  align : Nat := 1
  data  : Nat := 0
  low   : Bool := false
  high  : Bool := false
  land  : Option (Loc × Nat × LandKind × Nat) := none
  logs  : Nat := 0

/-- The effective address (R151, R256): a 12-bit offset under ORD 01. -/
def Ctx.ea (c : Ctx) : Nat :=
  trunc (c.a 64 false + sext (c.immNat % 2 ^ (if c.v.h.rnd = 1 then 12 else 15)) (if c.v.h.rnd = 1 then 12 else 15) 64) 64

/-- The access reads into its thread: loads, FILLs and atomics. -/
def Form.loads (f : Form) : Bool := !f.op.writes || f.op.isAtomic

/-- An atomic or a reduction on a HOST or MMIO byte (R261, R263). -/
def badTarget (k : Core) (f : Form) (ea : Nat) : Bool :=
  f.op.combines && (List.range f.n).any fun j =>
    match placeOf k (addrPlus ea j) with
    | some p => p.typ = .host || p.typ = .mmio
    | none => false

/-- A REDB stays in one range entry, and on EDGE in one page (R263) and behind one port; where the walk faults the page is the
64 KiB unit (log entry 85). -/
def onePage (s : State) (c : Nat) (f : Form) (ea : Nat) : Bool :=
  let k := s.core c
  match f.op, placeOf k ea, placeOf k (addrPlus ea (f.n - 1)) with
  | .redb _, some p, some q =>
    p.ent == q.ent && (p.typ ≠ .edge ||
      (match walk s (edgePortOf p.lim ea) (s.asidOf c) ea with
       | .ok l => l.base ea == l.base (addrPlus ea (f.n - 1)) && edgePortOf p.lim ea == edgePortOf q.lim (addrPlus ea (f.n - 1))
       | .error _ => ea / 2 ^ 16 == addrPlus ea (f.n - 1) / 2 ^ 16))
  | _, _, _ => true

/-- The checks at issue that trap (R108, R113, R115, R257, R261, R263). -/
def formTrap (c : Ctx) (f : Form) (ea : Nat) : Option Stop :=
  if ea % f.align ≠ 0 then some (.trap Cause.atomicAlign ea)
  else match firstFault (c.s.core c.c) (!f.op.writes) f.op.writes ea f.n with
    | some (cause, a) => some (.trap cause a)
    | none =>
      if badTarget (c.s.core c.c) f ea then some (.trap Cause.atomicTarget ea)
      else if onePage c.s c.c f ea then none else some (.trap Cause.atomicAlign ea)

/-- The DET key of a reduction (R342); none outside DET and in handler class. -/
def Ctx.detKey (c : Ctx) (op : MemOp) : Option DetKey :=
  let red := match op with
    | .redf | .redb _ => true
    | _ => false
  if red && c.th.det && c.th.cls ≠ .handler then
    let o := c.s.occ c.c
    some { round := ((c.s.launch? o.launch).map Launch.round).getD 0,
           g := (((c.s.bunch? o.launch o.bunch).bind fun y => y.barriers.head?).map fun b => b.g.toNat).getD 0,
           digest := c.th.digest.toNat, n := c.th.detCount, core := c.s.homeOf c.c, slot := c.t }
  else none

/-- The access of a memory form. -/
def Ctx.access (c : Ctx) (f : Form) : Access :=
  { agent := c.s.agent c.c c.t, asid := c.s.asidOf c.c, lvl := c.th.level, ord := c.v.h.rnd.toNat,
    scope := bits c.immNat 12 3, reads := f.loads, rel := f.op.writes, op := f.op, data := f.data, low := f.low,
    high := f.high, tag := c.v.h.atag.toNat, pc := c.th.pc, hdl := c.th.det && c.th.cls = .handler, det := c.detKey f.op,
    after := c.th.sync.filter fun i => c.s.net.any fun p => p.id == i }

/-- The tag of a FENCE or QFENCE that an access of given classes waits for (R265, R293), if one is incomplete. -/
def fenceStop (th : Thread) (loads writes uo : Bool) : Option Stop :=
  (th.fences.find? fun f => ((f.succR && loads) || (f.succW && writes)) && (f.uo || !uo)).map fun f =>
    .wait 1 (2 ^ f.tag)

/-- A piece's stream holds 64 unacknowledged accesses with the pieces before it (R141). -/
def streamFull (s : State) (ps : List Piece) : Bool :=
  ps.any fun p => !p.loc &&
    64 < (s.net.countP fun q => q.src == p.src && q.tgt == p.tgt && !q.loc && q.unacked) +
      ps.countP fun q => q.tgt == p.tgt && !q.loc

/-- What holds a memory form at issue, or fails its first remote piece (R116, R129, R141, R265). A thread
held here by R129 or R141 has no wait reason and counts as READY (log entry 65). -/
def accessStop (c : Ctx) (f : Form) (ps : List Piece) : Option Stop :=
  let uo := ps.all fun p => p.attr = .uo
  match fenceStop c.th f.loads f.op.writes uo with
  | some e => some e
  | none =>
    if streamFull c.s ps then some (.hold false)
    else if f.op.writes && (c.s.core c.c).logFull (pagesOf c.s (c.s.asidOf c.c) ps) then some (.hold false)
    else match ps.head? with
      | some p =>
        match p.loc, p.tgt with
        | false, .core d =>
          if sendable c.s p && remoteTest c.s p.src.launch d = .absent then some (.trap Cause.remoteAbsent p.va) else none
        | _, _ => none
      | none => none

/-- Every piece is LOCAL, may be performed at once and meets no error: the access is done at issue. -/
def allDirect (s : State) (c : Nat) (ps : List Piece) : Bool :=
  ps.all fun p => p.loc && p.det.isNone && sendable s p && !p.meetsError s (localKey c p.addr)

/-- The earlier accesses of this cycle that use a bank of the core's store which [ea, ea + n) uses too (R108, R258). -/
def bankHits (c : Ctx) (ea n : Nat) : Nat :=
  let mine := (units (n + 1) ea 0 n).map fun u => localOff (c.s.core c.c) u.1 / 32 % 48
  let hits := c.s.touches.filter fun t => t.at_ == c.s.now && t.lo / 2 ^ 15 == c.c &&
    (List.range (t.hi + 1 - t.lo)).any fun j => mine.contains ((t.lo + j) % 2 ^ 15 % 48)
  ((hits.map fun t => (t.src, t.order)).eraseDups).length

/-- A LOCAL access done at issue: the old value of its bytes. -/
def directOld (c : Ctx) (f : Form) (ea : Nat) : Nat := ofBytes (localBytes c.s c.c ea f.n)

/-- The memory after a LOCAL access done at issue. -/
def directPost (c : Ctx) (f : Form) (ea : Nat) (s : State) : State :=
  match opResult f.op f.n f.data (directOld c f ea) f.low f.high with
  | some v => putLocal c.c ea (toBytes v f.n) s
  | none => s

/-- The value that lands for an access done at issue. -/
def directValue (c : Ctx) (f : Form) (ea : Nat) (kind : LandKind) (v0 : Nat) : Nat :=
  let m := directOld c f ea
  match kind with
  | .load phase n => trunc (m >>> (if phase then 4 else 0)) n
  | _ => v0 + m

/-- Events of Table 21.2 that a memory form logs at its issue. -/
def formLogs (f : Form) (c : Ctx) (s : State) : State := Nat.repeat (logNd (c.s.agent c.c c.t) 5 c.th.pc) f.logs s

/-- An ACAS done at issue that found another value is logged (R260). -/
def directAcas (c : Ctx) (f : Form) (ea : Nat) (s : State) : State :=
  match f.op with
  | .atomic 9 n => if directOld c f ea = trunc f.data n then s else logNd (c.s.agent c.c c.t) 1 c.th.pc s
  | _ => s

/-- A reduction done at issue outside DET whose fit rounds is logged (R343). -/
def directRound (c : Ctx) (f : Form) (ea : Nat) (s : State) : State :=
  if !c.th.det && fitRounds f.op f.data (directOld c f ea) then logNd (c.s.agent c.c c.t) 5 c.th.pc s else s

/-- The pieces of an access done at issue have been performed (R340). -/
def directTouch (c : Nat) (ps : List Piece) (s : State) : State :=
  ps.foldl (fun s p => touch (localKey c p.addr) p s) s

/-- A LOCAL access done at issue: its bytes, and what is logged of it. -/
def direct (c : Ctx) (f : Form) (ea : Nat) (ps : List Piece) (s : State) : State :=
  directAcas c f ea (directRound c f ea (directTouch c.c ps (directPost c f ea s)))

/-- Pieces enter the network with the landing they belong to, and those that may leave do. -/
def sendPieces (c t : Nat) (land : Option Nat) (ps : List Piece) (s : State) : State :=
  let (order, s1) := s.newId
  let s2 := (ps.map fun p => { p with order := order, land := land }).foldl (addPiece c t) s1
  pump s2

/-- A memory form (R254 to R266): traps, holds, then its effect: done at issue when all LOCAL and free to go, else by
pieces in the network. -/
def memForm (c : Ctx) (f : Form) : Except Stop Res :=
  let ea := c.ea
  match formTrap c f ea with
  | some e => .error e
  | none =>
    let ps := piecesOf c.s c.c (c.access f) c.s.nextId ea f.n
    match accessStop c f ps with
    | some e => .error e
    | none =>
      let here := allDirect c.s c.c ps
      let id := c.s.nextId
      .ok { land := f.land.map fun (l, w, kind, v0) =>
              { dest := l, w := w, kind := kind, missing := if here then 0 else ps.length,
                cycles := if here then some (7 + bankHits c ea f.n) else none,
                value := if here then directValue c f ea kind v0 else v0 },
            pre := fun th => if ps.any fun p => p.det.isSome then { th with detCount := th.detCount + 1 } else th,
            post := fun s =>
              let s1 := formLogs f c s
              let s2 := if here then direct c f ea ps s1
                else sendPieces c.c c.t (if f.land.isSome then some id else none) ps
                  (if f.op.writes then logPages c.c (pagesOf c.s (c.s.asidOf c.c) ps) s1 else s1)
              fireData ea f.n f.op.writes c.th.pc s2 }

/-- The spec of a memory form with data width `n` admitted by `ok`; D is read, written or both. -/
def memSpec (v : View) (reads writes : Bool) (ok : Nat → Bool) : Spec :=
  let n := sliceWidth v.d
  { v := v, ra := some 64, rd := if reads then some n else none, wd := if writes then some n else none, wide := n,
    legal := isSlice v.d && ok n }

/-- D's width. -/
def Ctx.n (c : Ctx) : Nat := sliceWidth c.v.d

/-- D as the source of a store. -/
def Ctx.src (c : Ctx) : Nat := c.d c.n true

/-! ## Loads and stores -/

/-- LD (R258). -/
def execLd (h : Hdr) (d a : Opnd) (imm : BitVec 15) (s : State) : Host.Outcome State Fault Refusal :=
  run (.ld h d a imm) (fun v => memSpec v false true fun n => 8 ≤ n) (fun c =>
    memForm c { op := .read, n := c.n / 8, land := some (c.ld, c.n, .load false c.n, 0) }) s

/-- ST (R259). -/
def execSt (h : Hdr) (d a : Opnd) (imm : BitVec 15) (s : State) : Host.Outcome State Fault Refusal :=
  run (.st h d a imm) (fun v => memSpec v true false fun n => 8 ≤ n) (fun c =>
    memForm c { op := .write, n := c.n / 8, data := c.src }) s

/-- Bytes of a nibble run of `n` bits from phase `x` (R266). -/
def nibbleBytes (n : Nat) (x : Bool) : Nat := (n / 4 - 1 + b2n x) / 2 + 1

/-- SPILL (R266): the nibbles D does not cover keep their values. -/
def execSpill (h : Hdr) (d a : Opnd) (imm : BitVec 15) (s : State) : Host.Outcome State Fault Refusal :=
  run (.spill h d a imm) (fun v => memSpec v true false fun _ => true) (fun c =>
    memForm c { op := .write, n := nibbleBytes c.n c.x, data := c.src <<< (4 * b2n c.x), low := c.x,
                high := (c.n / 4 + b2n c.x) % 2 == 1 }) s

/-- FILL (R266). -/
def execFill (h : Hdr) (d a : Opnd) (imm : BitVec 15) (s : State) : Host.Outcome State Fault Refusal :=
  run (.fill h d a imm) (fun v => memSpec v false true fun _ => true) (fun c =>
    memForm c { op := .read, n := nibbleBytes c.n c.x, land := some (c.ld, c.n, .load c.x c.n, 0) }) s

/-! ## Atomics (R260, R261) -/

/-- An atomic with operation code `op`; ACAS works on half of D and keeps its upper half. -/
def atomic (i : Instr) (op : Nat) (ok : Nat → Bool) (logs : Nat) (s : State) : Host.Outcome State Fault Refusal :=
  run i (fun v => memSpec v true true ok) (fun c =>
    let n := if op = 9 then c.n / 2 else c.n
    let keep := if op = 9 then c.src >>> n <<< n else 0
    memForm c { op := .atomic op n, n := n / 8, align := n / 8, data := c.src,
                land := some (c.ld, c.n, if op = 9 then .acas n else .plain, keep), logs := logs }) s

/-- Widths of an atomic but ACAS and AFADD. -/
def atomicWidth (n : Nat) : Bool := n == 32 || n == 64

/-- AADD (R260). -/
def execAadd (h : Hdr) (d a : Opnd) (imm : BitVec 15) (s : State) : Host.Outcome State Fault Refusal :=
  atomic (.aadd h d a imm) 0 atomicWidth 0 s
/-- AMIN (R260). -/
def execAmin (h : Hdr) (d a : Opnd) (imm : BitVec 15) (s : State) : Host.Outcome State Fault Refusal :=
  atomic (.amin h d a imm) 1 atomicWidth 0 s
/-- AMAX (R260). -/
def execAmax (h : Hdr) (d a : Opnd) (imm : BitVec 15) (s : State) : Host.Outcome State Fault Refusal :=
  atomic (.amax h d a imm) 2 atomicWidth 0 s
/-- AMINN (R260). -/
def execAminn (h : Hdr) (d a : Opnd) (imm : BitVec 15) (s : State) : Host.Outcome State Fault Refusal :=
  atomic (.aminn h d a imm) 3 atomicWidth 0 s
/-- AMAXN (R260). -/
def execAmaxn (h : Hdr) (d a : Opnd) (imm : BitVec 15) (s : State) : Host.Outcome State Fault Refusal :=
  atomic (.amaxn h d a imm) 4 atomicWidth 0 s
/-- AAND (R260). -/
def execAand (h : Hdr) (d a : Opnd) (imm : BitVec 15) (s : State) : Host.Outcome State Fault Refusal :=
  atomic (.aand h d a imm) 5 atomicWidth 0 s
/-- AOR (R260). -/
def execAor (h : Hdr) (d a : Opnd) (imm : BitVec 15) (s : State) : Host.Outcome State Fault Refusal :=
  atomic (.aor h d a imm) 6 atomicWidth 0 s
/-- AXOR (R260). -/
def execAxor (h : Hdr) (d a : Opnd) (imm : BitVec 15) (s : State) : Host.Outcome State Fault Refusal :=
  atomic (.axor h d a imm) 7 atomicWidth 0 s
/-- ASWAP (R260). -/
def execAswap (h : Hdr) (d a : Opnd) (imm : BitVec 15) (s : State) : Host.Outcome State Fault Refusal :=
  atomic (.aswap h d a imm) 8 atomicWidth 0 s
/-- ACAS (R260). -/
def execAcas (h : Hdr) (d a : Opnd) (imm : BitVec 15) (s : State) : Host.Outcome State Fault Refusal :=
  atomic (.acas h d a imm) 9 (fun n => n == 64 || n == 128) 0 s
/-- AFADD (R260), logged in either mode (R343). -/
def execAfadd (h : Hdr) (d a : Opnd) (imm : BitVec 15) (s : State) : Host.Outcome State Fault Refusal :=
  atomic (.afadd h d a imm) 10 (fun n => n == 32) 1 s

/-! ## Reductions (R262, R263) -/

/-- Whether a floating-point reduction logs CODE 5 at issue (R343): outside DET, or in a handler. -/
def Ctx.untracked (c : Ctx) : Bool := !c.th.det || c.th.cls = .handler

/-- REDI (R262). -/
def execRedi (h : Hdr) (d a : Opnd) (imm : BitVec 15) (s : State) : Host.Outcome State Fault Refusal :=
  run (.redi h d a imm) (fun v => memSpec v true false fun n => 32 ≤ n) (fun c =>
    memForm c { op := .redi c.x c.sat, n := c.n / 8, align := 4, data := c.src }) s

/-- REDF (R262). -/
def execRedf (h : Hdr) (d a : Opnd) (imm : BitVec 15) (s : State) : Host.Outcome State Fault Refusal :=
  run (.redf h d a imm) (fun v => memSpec v true false fun n => 32 ≤ n) (fun c =>
    memForm c { op := .redf, n := c.n / 8, align := 4, data := c.src, logs := b2n c.untracked }) s

/-- REDB (R262): D is fitted at the sender, and the target adds it, where outside DET a fit that sets REN is logged (R343). -/
def execRedb (h : Hdr) (d a : Opnd) (imm : BitVec 15) (s : State) : Host.Outcome State Fault Refusal :=
  run (.redb h d a imm) (fun v => memSpec v true false fun n => (Blk.fmtOf n).isSome) (fun c =>
    let fit := Blk.toBxa ((Blk.fmtOf c.n).getD .bxa) c.src
    memForm c { op := .redb c.n, n := 200, align := 8, data := fit.img,
                logs := b2n (c.th.det && c.th.cls = .handler) }) s

/-! ## FENCE (R264, R265) -/

/-- An earlier access is of a FENCE's predecessor classes (R265). -/
def fencePred (pr pw uo : Bool) (p : Piece) : Bool :=
  p.isAccess && p.unacked && ((pr && (!p.op.writes || p.op.isAtomic)) || (pw && p.op.writes)) && (uo || p.attr ≠ .uo)

/-- A piece goes to an edge port. -/
def Piece.toEdge (p : Piece) : Bool :=
  match p.tgt with
  | .edge _ => true
  | _ => false

/-- FENCE (R265): at PERSIST it awaits every earlier store and reduction to an edge page too (R127), UO ones under the UO kind
alone (log entry 86). It is complete at once when nothing is awaited, else a result to land when the last awaited one is
gone. -/
def execFence (h : Hdr) (imm : BitVec 15) (s : State) : Host.Outcome State Fault Refusal :=
  run (.fence h imm) (fun v => { v := v }) (fun c =>
    let m := c.immNat
    let uo := c.v.h.rnd = 1
    let persist := decide (m % 8 = 7)
    let ids := (c.s.net.filter fun p => p.src == c.s.agent c.c c.t &&
      (fencePred (m.testBit 3) (m.testBit 4) uo p || (persist && p.toEdge && fencePred false true uo p))).map Piece.id
    let f : Fence := { id := c.s.nextId, tag := c.v.h.atag.toNat, pieces := ids, cmds := [], pages := [],
                       succR := m.testBit 5, succW := m.testBit 6, uo := uo, persist := persist, queues := false }
    if ids.isEmpty && !persist then .ok { land := some { dest := .zero, w := 0, kind := .fence, cycles := some 1 } }
    else .ok { land := some { dest := .zero, w := 0, kind := .fence, missing := 1 },
               pre := fun th => { th with fences := th.fences ++ [f] },
               post := checkFences c.c c.t }) s

end Sys2Proof.Machine
end

