-- ==== Sys2Proof/Machine/Matrix.lean ====
section
/-! DEFINITION. The matrix unit (chapter 13, R236 to R253). -/

namespace Sys2Proof.Machine

open Sys2Proof

/-! ## Slots, formats and blocks -/

/-- Block format of a code: 0 BX4, 1 BX8, 2 BX16, 3 BXA (R242, R250). -/
def mfmt (n : Nat) : BFmt := if n = 0 then .bx4 else if n = 1 then .bx8 else if n = 2 then .bx16 else .bxa

/-- Matrix slot `m`. -/
def Matrix.slot (x : Matrix) (m : Nat) : MSlot := x.slots.getD m .empty

/-- The unit with slot `m` changed. -/
def Matrix.modSlot (x : Matrix) (m : Nat) (f : MSlot → MSlot) : Matrix := { x with slots := x.slots.set m (f (x.slot m)) }

/-- The unit of a core changed. -/
def State.modMatrix (s : State) (c : Nat) (f : Matrix → Matrix) : State := s.modCore c fun k => { k with mat := f k.mat }

/-- Slots of a mask that a thread owns. -/
def Matrix.owned (x : Matrix) (t : Nat) : Nat :=
  ((List.range 4).map fun m => if (x.slot m).owner = some t then 2 ^ m else 0).sum

/-- Commands of a thread that are accepted and not complete; those of a task that has ended are nobody's. -/
def Matrix.pendingOf (x : Matrix) (t : Nat) : List MCmd := x.cmds.filter fun k => k.slot == t && k.mslot < 4

/-- DETAIL of reason 5 (R240): the holder, or 15. -/
def Matrix.holderCode (x : Matrix) : Nat := x.holder.getD 15

/-! ## The arithmetic of MMAC and MSTC (R249, R250) -/

/-- One row block of a k-step (R249): row block `a`, column blocks `bs`, C block `c`. -/
def macBlock (fa fb : BFmt) (k : Nat) (a : BitVec 2048) (bs : List (BitVec 2048)) (c : BitVec 2048) : Packed :=
  let da := Blk.dec fa a.toNat
  let dc := Blk.dec .bxa c.toNat
  let dbs := bs.map fun b => Blk.dec fb b.toNat
  let x := da.vs.getD k (.num 0 0)
  let vs := dc.vs.zipWith Blk.addE (dbs.map fun d => Blk.mulE x (d.vs.getD k (.num 0 0)))
  let lus := bs.map fun b => Blk.logUnit fb b.toNat
  let ep := Blk.logUnit fa a.toNat + lus.foldl min (lus.headD 0) + 173
  let fl := dbs.foldl (fun m d => m ||| d.fl) (dc.fl ||| da.fl)
  let r := Blk.bxaFit vs (min (Blk.expOf .bxa c.toNat) ep) fl
  { r with flags := dbs.foldl (fun m d => m ||| Blk.malfFlag d) (r.flags ||| Blk.malfFlag da ||| Blk.malfFlag dc) }

/-- One k-step over a tile: its new blocks and the flags. -/
def macStep (k : Nat) (la lb : Latch) (tile : List (BitVec 2048)) : List (BitVec 2048) × Nat :=
  let rs := (List.range 64).map fun j =>
    macBlock (mfmt la.fmt) (mfmt lb.fmt) k (la.blocks.getD (j / 2) 0) ((lb.blocks.drop (32 * (j % 2))).take 32) (tile.getD j 0)
  (rs.map fun r => BitVec.ofNat 2048 r.img, rs.foldl (fun m r => m ||| r.flags) 0)

/-- `n` k-steps from `k` on. -/
def macSteps (la lb : Latch) : Nat → Nat → List (BitVec 2048) → List (BitVec 2048) × Nat
  | 0, _, tile => (tile, 0)
  | n + 1, k, tile =>
    let (t1, f1) := macStep k la lb tile
    let (t2, f2) := macSteps la lb n (k + 1) t1
    (t2, f1 ||| f2)

/-- A tile's blocks converted for MSTC (R250). -/
def convertTile (fmt : Nat) (mode : Mode) (tile : List (BitVec 2048)) : List Nat × Nat :=
  let rs := tile.map fun b =>
    if fmt = 3 then (Blk.clean .bxa b.toNat, 0)
    else
      let d := Blk.dec .bxa b.toNat
      let p := Blk.pack (mfmt fmt) mode d.fl d.vs
      (p.img, p.flags ||| Blk.malfFlag d)
  (rs.map Prod.fst, rs.foldl (fun m r => m ||| r.2) 0)

/-- A tile of zeros (R244). -/
def zeroTile : List (BitVec 2048) := List.replicate 64 zeroBxa

/-- A matrix slot after a command, whatever its liveness. -/
def MSlot.after (x : MSlot) (k : MCmd) : MSlot :=
  match k.op with
  | .zero => { x with tile := zeroTile }
  | .loadA f bs => { x with la := if k.err.isSome then .empty else ⟨true, f, bs⟩ }
  | .loadB f bs => { x with lb := if k.err.isSome then .empty else ⟨true, f, bs⟩ }
  | .mac => { x with tile := (macSteps x.la x.lb (32 - k.k) k.k x.tile).1 }
  | .restore bs => if k.err.isSome then x else { x with tile := bs }
  | _ => x

/-- A matrix slot as it will stand once its accepted commands are complete. -/
def Matrix.projected (x : Matrix) (m : Nat) : MSlot :=
  (x.cmds.filter fun k => k.mslot == m).foldl MSlot.after (x.slot m)

/-! ## The array (R243) -/

/-- A thread's accepted MMACs. -/
def Matrix.macsOf (x : Matrix) (t : Nat) : Nat := x.cmds.countP fun k => k.slot == t && k.op == .mac

/-- The next instruction of a slot asks for the array: it waits with reason 5 at an MLEASE or an MMAC. -/
def asksArray (s : State) (c t : Nat) : Bool :=
  let th := s.thread c t
  (th.wait.any fun w => w.reason == 5) &&
    (let op := loadN s (localKey c (codeBase + 10 * th.pc.toNat)) 2 % 2 ^ 10
     op == 0x240 || op == 0x247)

/-- A slot waits for the array: an instruction asks for it, or an MMAC accepted before a swap has still to go on (R253). -/
def waitsArray (s : State) (c t : Nat) : Bool :=
  let x := (s.core c).mat
  (x.holder ≠ some t || x.release) && (asksArray s c t || (x.holder ≠ some t && x.cmds.any fun k => k.slot == t && k.op == .mac && k.k < 32))

/-- Another slot than `t` waits for the array. -/
def otherWaits (s : State) (c t : Nat) : Bool := (List.range 8).any fun u => u ≠ t && waitsArray s c u

/-- The budget of the holder is spent (R243): a fresh one, or the array goes once its MMACs are complete. -/
def budgetSpent (c : Nat) (s : State) : State :=
  match (s.core c).mat.holder with
  | none => s
  | some t =>
    if otherWaits s c t then s.modMatrix c fun x => { x with release := true }
    else (s.modMatrix c fun x => { x with left := 64, granted := s.now }).after 4096 (.leaseBudgetExpiry c)

/-- The holder gives the array up once none of its MMACs is left. -/
def dropArray (c : Nat) (s : State) : State :=
  s.modMatrix c fun x =>
    match x.holder with
    | some t => if x.release && x.macsOf t = 0 then { x with holder := none, release := false } else x
    | none => x

/-- A slot gives the array up (MRELS, EXIT, HEXIT, a task's exit). -/
def releaseArray (c t : Nat) (s : State) : State :=
  if (s.core c).mat.holder = some t then dropArray c (s.modMatrix c fun x => { x with release := true }) else s

/-- A command is the first of its slot. -/
def Matrix.isHead (x : Matrix) (k : MCmd) : Bool := ((x.cmds.find? fun j => j.mslot == k.mslot).map MCmd.id) = some k.id

/-- The state with a command marked as started. -/
def startCmd (c id : Nat) (s : State) : State :=
  s.modMatrix c fun x => { x with cmds := x.cmds.map fun (k : MCmd) => if k.id = id then { k with started := true } else k }

/-- Cycles between k-step events, and k-steps an event makes (R237). -/
def macRate (la lb : Latch) : Nat × Nat :=
  if la.fmt = 2 ∨ lb.fmt = 2 then (4, 1) else if la.fmt = 0 ∧ lb.fmt = 0 then (1, 2) else (1, 1)

/-- Commands that are first of their slots start (R239): an MMAC when its thread holds the array and the array is idle. -/
def kickMatrix (c : Nat) (s : State) : State :=
  if (s.core c).stopped then s else
  (s.core c).mat.cmds.foldl (fun s k =>
    let x := (s.core c).mat
    if k.started || !x.isHead k then s
    else if k.op = .mac && k.k < 32 then
      if x.holder = some k.slot && !x.running then
        let r := macRate (x.slot k.mslot).la (x.slot k.mslot).lb
        ((startCmd c k.id s).modMatrix c fun x => { x with running := true }).after r.1 (.mmacKstep c)
      else s
    else (startCmd c k.id s).later (.matrixCommandComplete c k.id)) s

/-! ## Accepting a command -/

/-- The trap of a slot the thread does not own (R239). -/
def slotStop (c : Ctx) (m : Nat) : Option Stop :=
  if ((c.s.core c.c).mat.slot m).owner = some c.t then none else some (.trap Cause.matrixSlot m)

/-- A thread has at most 4 commands pending (R239). -/
def roomStop (c : Ctx) : Option Stop :=
  let x := (c.s.core c.c).mat
  if 4 ≤ (x.pendingOf c.t).length then some (.wait 5 x.holderCode) else none

/-- A command is accepted. -/
def acceptCmd (c : Ctx) (m : Nat) (op : MOp) (flags : Nat) (err : Option Nat) (s : State) : State :=
  let (id, s1) := s.newId
  let k : MCmd := { id := id, slot := c.t, mslot := m, op := op, flags := flags, k := 0, pc := c.th.pc, err := err,
                    started := false }
  kickMatrix c.c (s1.modMatrix c.c fun x => { x with cmds := x.cmds ++ [k] })

/-- The traps of the blocks a command reads or writes (R248): address and length of each, in order. R113 is tested for every
byte first; MATRIX_ADDR comes before CODE_WRITE (log entry 80). -/
def blocksTrap (c : Ctx) (wr : Bool) (rs : List (Nat × Nat)) : Option Stop :=
  let k := c.s.core c.c
  match rs.findSome? fun r => firstRangeFault k (!wr) wr r.1 r.2 with
  | some (cause, a) => some (.trap cause a)
  | none =>
    match rs.findSome? fun r => firstNotLocal k r.1 r.2 with
    | some a => some (.trap Cause.matrixAddr a)
    | none => (rs.findSome? fun r => firstFault k (!wr) wr r.1 r.2).map fun f => .trap f.1 f.2

/-- The accesses of a command wait for the thread's earlier ones that come before them (R252). -/
def blocksWait (c : Ctx) (wr : Bool) (rs : List (Nat × Nat)) : Option Stop :=
  let x : Access :=
    { agent := c.s.agent c.c c.t, asid := 0, lvl := 0, ord := 0, scope := 0, reads := !wr, rel := wr,
      op := if wr then .write else .read, data := 0, low := false, high := false, tag := 0, pc := c.th.pc, hdl := false,
      det := none, after := c.th.sync }
  if (rs.flatMap fun r => piecesOf c.s c.c x c.s.nextId r.1 r.2).all (sendable c.s) then
    fenceStop c.th (!wr) wr false
  else some (.wait 1 0)

/-- The first byte of a block in a word with an uncorrectable error; a store replaces a word that it covers whole (R131). -/
def blockError (c : Ctx) (wr : Bool) (s : State) (r : Nat × Nat) : Option Nat :=
  (List.range r.2).findSome? fun j =>
    let a := addrPlus r.1 j
    let k := localKey c.c (localOff (c.s.core c.c) a)
    let whole : Bool := k % 8 ≤ j && j + 8 ≤ r.2 + k % 8
    if (if wr then anyBad s (k / 8 * 8) 8 && !whole else anyBad s k 1) then some a else none

/-- The accesses of a command to blocks have been performed (R252, R340). -/
def touchBlocks (c : Ctx) (wr : Bool) (rs : List (Nat × Nat)) (s : State) : State :=
  rs.foldl (fun s r => (units (r.2 + 1) r.1 0 r.2).foldl (fun s u =>
    touchAt (localKey c.c (localOff (c.s.core c.c) u.1)) u.2.2 (c.s.agent c.c c.t) c.s.nextId
      (if wr && attrAt c.s c.c (c.s.asidOf c.c) u.1 = .uo then some (logNd (c.s.agent c.c c.t) 6 c.th.pc) else none) s) s) s

/-- The first check that stops an instruction, or its effect. -/
def orStop (es : List (Option Stop)) (r : Res) : Except Stop Res :=
  match firstStop es with
  | .error e => .error e
  | .ok () => .ok r

/-! ## Descriptors (Table 13.6) -/

/-- BASE of a descriptor. -/
def descBase (d : Nat) : Nat := bits d 0 64
/-- STRIDE of a descriptor. -/
def descStride (d : Nat) : Nat := bits d 64 32
/-- A reserved field that is not 0 traps ILLEGAL_OPERAND (R246). -/
def descStop (d : Nat) : Option Stop := if bits d 96 32 ≠ 0 then some (.trap Cause.illegalOperand (bits d 64 64)) else none

/-- The spec of a matrix instruction whose A holds a descriptor of `n` bits: a narrower A is refused (R246). -/
def descSpec (n : Nat) (v : View) : Spec := { v := v, ra := some n, wide := n, legal := n ≤ ownWidth v.a n }

/-- The slot a matrix instruction names. -/
def Ctx.mslot (c : Ctx) : Nat := c.immNat % 4

/-- A latch load (R247, R248): block addresses, none for a zero block. -/
def latchLoad (c : Ctx) (isA : Bool) (d : Nat) (addrs : List (Option Nat)) : Except Stop Res :=
  let fmt := if isA then c.th.fmta else c.th.fmtb
  let n := Blk.memBytes (mfmt fmt)
  let rs := (addrs.filterMap id).map fun a => (a, n)
  let blocks := addrs.map fun a => match a with
    | some a => BitVec.ofNat 2048 (Blk.clean (mfmt fmt) (Blk.ofMem (mfmt fmt) (localBytes c.s c.c a n)))
    | none => 0#2048
  orStop [slotStop c c.mslot, descStop d, blocksTrap c false rs, roomStop c, blocksWait c false rs]
    { post := fun s => acceptCmd c c.mslot (if isA then .loadA fmt blocks else .loadB fmt blocks) 0
        (rs.findSome? (blockError c false c.s)) (touchBlocks c false rs s) }

/-! ## The instructions -/

/-- MLEASE (R243). The array's holder is a slot of the core, whichever task is in it (log entry 84). -/
def execMlease (h : Hdr) (s : State) : Host.Outcome State Fault Refusal :=
  run (.mlease h) (fun v => { v := v }) (fun c =>
    let x := (c.s.core c.c).mat
    if x.holder = some c.t then .ok {} else .error (.wait 5 x.holderCode)) s

/-- MRELS (R243). -/
def execMrels (h : Hdr) (s : State) : Host.Outcome State Fault Refusal :=
  run (.mrels h) (fun v => { v := v }) (fun c => .ok { post := releaseArray c.c c.t }) s

/-- The first slot of a mask that another thread owns. -/
def busySlot (x : Matrix) (t mask : Nat) : Option Nat :=
  (List.range 4).find? fun m => mask.testBit m && (x.slot m).owner.any fun u => u ≠ t

/-- The unit after MCFG (R242): slots dropped and claimed. -/
def configure (x : Matrix) (t mask : Nat) : Matrix :=
  { x with slots := x.slots.mapIdx fun m y =>
      if 4 ≤ m then y
      else if y.owner = some t then (if mask.testBit m then y else .empty)
      else if mask.testBit m then { MSlot.empty with owner := some t } else y }

/-- The MCFG at hand has passed its tests and waits (R242). -/
def Ctx.mcfgWaits (c : Ctx) : Bool :=
  c.th.wait.any fun w => w.reason == 5 && w.pc == c.th.pc && (c.s.core c.c).mat.asked.contains (c.t, w.since)

/-- An MCFG has passed its tests and waits: no other thread may claim the slots it wants (R238, R242; log entry 58). -/
def reserveSlots (c t mask : Nat) (s : State) : State :=
  s.modMatrix c fun x =>
    { x with
      slots := x.slots.mapIdx fun m y => if m < 4 && mask.testBit m && y.owner.isNone then { y with owner := some t } else y
      asked := (x.asked.filter fun p => p.1 ≠ t) ++ (((s.thread c t).wait.map fun w => (t, w.since)).toList) }

/-- MCFG (R242): its tests are made once, before it waits. -/
def execMcfg (h : Hdr) (a : Opnd) (s : State) : Host.Outcome State Fault Refusal :=
  run (.mcfg h a) (fun v => { v := v, ra := some 32 }) (fun c =>
    let cfg := c.a 32 true
    let x := (c.s.core c.c).mat
    let mask := cfg % 16
    let drop := ((List.range 4).map fun m =>
      if (x.owned c.t).testBit m && !mask.testBit m && (x.slot m).live then 2 ^ m else 0).sum
    let tests : List (Option Stop) := [
      if cfg / 256 ≠ 0 || bits cfg 4 2 == 3 || bits cfg 6 2 == 3 then some (.trap Cause.illegalOperand cfg) else none,
      (busySlot x c.t mask).map fun m => .trap Cause.matrixBusy m,
      if !c.x && drop ≠ 0 then some (.trap Cause.matrixLive drop) else none]
    orStop ((if c.mcfgWaits then [] else tests) ++
      [if (x.pendingOf c.t).isEmpty then none else some (.waitDo 5 x.holderCode (reserveSlots c.c c.t mask))])
      { pre := fun th => { th with fmta := bits cfg 4 2, fmtb := bits cfg 6 2 },
        post := fun s => s.modMatrix c.c fun x => configure x c.t mask }) s

/-- MZERO (R244). -/
def execMzero (h : Hdr) (imm : BitVec 15) (s : State) : Host.Outcome State Fault Refusal :=
  run (.mzero h imm) (fun v => { v := v }) (fun c =>
    orStop [slotStop c c.mslot, roomStop c] { post := acceptCmd c c.mslot .zero 0 none }) s

/-- MLDA (R247). -/
def execMlda (h : Hdr) (a : Opnd) (imm : BitVec 15) (s : State) : Host.Outcome State Fault Refusal :=
  run (.mlda h a imm) (descSpec 128) (fun c =>
    let d := c.a 128 false
    latchLoad c true d ((List.range 32).map fun j => some (addrPlus (descBase d) (j * descStride d)))) s

/-- MLDB (R247). -/
def execMldb (h : Hdr) (a : Opnd) (imm : BitVec 15) (s : State) : Host.Outcome State Fault Refusal :=
  run (.mldb h a imm) (descSpec 128) (fun c =>
    let d := c.a 128 false
    latchLoad c false d ((List.range 64).map fun j => some (addrPlus (descBase d) (j * descStride d)))) s

/-- MGATHA (R247): index 0xFFFF gives a zero block. -/
def execMgatha (h : Hdr) (a : Opnd) (imm : BitVec 15) (s : State) : Host.Outcome State Fault Refusal :=
  run (.mgatha h a imm) (descSpec 1024) (fun c =>
    let d := c.a 1024 false
    latchLoad c true d ((List.range 32).map fun j =>
      let i := bits d (128 + 16 * j) 16
      if i = 0xFFFF then none else some (addrPlus (descBase d) (i * descStride d)))) s

/-- MMAC (R249): both latches loaded, the array held, then accepted; the 64th MMAC spends the budget. -/
def execMmac (h : Hdr) (imm : BitVec 15) (s : State) : Host.Outcome State Fault Refusal :=
  run (.mmac h imm) (fun v => { v := v }) (fun c =>
    let x := (c.s.core c.c).mat
    let y := x.projected c.mslot
    orStop [slotStop c c.mslot,
      if y.la.loaded && y.lb.loaded then none else some (.trap Cause.matrixEmpty c.mslot),
      if x.holder = some c.t && !x.release then none else some (.wait 5 x.holderCode),
      roomStop c]
      { post := fun s =>
          let s1 := acceptCmd c c.mslot .mac 0 none (s.modMatrix c.c fun x => { x with left := x.left - 1 })
          if x.left ≤ 1 then budgetSpent c.c s1 else s1 }) s

/-- Writes blocks in memory form until one meets a word it covers only in part that holds an error: the state, and the byte
that met it (R248). -/
def storeBlocks (c : Ctx) (fmt : BFmt) : List (Nat × Nat) → State → State × Option Nat
  | [], s => (s, none)
  | (a, img) :: rest, s =>
    match blockError c true s (a, Blk.memBytes fmt) with
    | some b => (s, some b)
    | none => storeBlocks c fmt rest (putLocal c.c a (Blk.toMem fmt img) s)

/-- A store of converted blocks at addresses (R248, R250 to R252): written at acceptance, in program order. -/
def tileStore (c : Ctx) (fmt : BFmt) (op : MOp) (flags : Nat) (pre : List (Option Stop)) (bs : List (Nat × Nat)) : Except Stop Res :=
  let rs := bs.map fun b => (b.1, Blk.memBytes fmt)
  orStop (pre ++ [blocksTrap c true rs, roomStop c, blocksWait c true rs])
    { post := fun s =>
        let (s1, err) := storeBlocks c fmt bs s
        acceptCmd c c.mslot op flags err (touchBlocks c true rs s1) }

/-- MSTC (R250): the slot's tile as its earlier commands leave it, converted and stored. -/
def execMstc (h : Hdr) (a : Opnd) (imm : BitVec 15) (s : State) : Host.Outcome State Fault Refusal :=
  run (.mstc h a imm) (descSpec 128) (fun c =>
    let d := c.a 128 false
    let fmt := bits c.immNat 2 2
    let m := Blk.memBytes (mfmt fmt)
    let (imgs, flags) := convertTile fmt (roundingOf c.v.h.rnd c.th) ((c.s.core c.c).mat.projected c.mslot).tile
    tileStore c (mfmt fmt) .store flags [slotStop c c.mslot, descStop d]
      (imgs.mapIdx fun j img => (addrPlus (descBase d) (j / 2 * descStride d + j % 2 * m), img))) s

/-- Rounding mode as a number, for a command that converts later. -/
def modeCode (m : Mode) : Nat :=
  match m with
  | .rne => 0
  | .rtz => 1
  | .rup => 2
  | .rdn => 3

/-- The mode of a code. -/
def modeOf (n : Nat) : Mode := if n = 0 then .rne else if n = 1 then .rtz else if n = 2 then .rup else .rdn

/-- A command is a store to the outbound queue. -/
def MCmd.queues (k : MCmd) : Bool :=
  match k.op with
  | .storeQ _ _ _ => true
  | _ => false

/-- MSTC.Q (R250): the converted tile and a sequence word enter the outbound queue, which must have room. -/
def execMstcQ (h : Hdr) (a : Opnd) (imm : BitVec 15) (s : State) : Host.Outcome State Fault Refusal :=
  run (.mstcQ h a imm) (fun v => { v := v, ra := some 64, wide := 64 }) (fun c =>
    let x := (c.s.core c.c).mat
    let queued := x.outq.length + x.cmds.countP MCmd.queues
    orStop [slotStop c c.mslot, if 8 ≤ queued then some (.wait 5 8) else none, roomStop c]
      { post := acceptCmd c c.mslot (.storeQ (bits c.immNat 2 2) (modeCode (roundingOf c.v.h.rnd c.th))
          (BitVec.ofNat 64 (c.a 64 true))) 0 none }) s

/-- Addresses of a saved tile (R251). -/
def saveAddrs (base : Nat) : List Nat := (List.range 64).map fun j => addrPlus base (200 * j)

/-- MSAVE (R251). -/
def execMsave (h : Hdr) (a : Opnd) (imm : BitVec 15) (s : State) : Host.Outcome State Fault Refusal :=
  run (.msave h a imm) (fun v => { v := v, ra := some 64, wide := 64 }) (fun c =>
    let tile := ((c.s.core c.c).mat.projected c.mslot).tile
    tileStore c .bxa .save 0 [slotStop c c.mslot] ((saveAddrs (c.a 64 false)).zip (tile.map BitVec.toNat))) s

/-- MRSTR (R251). -/
def execMrstr (h : Hdr) (a : Opnd) (imm : BitVec 15) (s : State) : Host.Outcome State Fault Refusal :=
  run (.mrstr h a imm) (fun v => { v := v, ra := some 64, wide := 64 }) (fun c =>
    let rs := (saveAddrs (c.a 64 false)).map fun a => (a, 200)
    let blocks := rs.map fun r => BitVec.ofNat 2048 (Blk.clean .bxa (Blk.ofMem .bxa (localBytes c.s c.c r.1 200)))
    orStop [slotStop c c.mslot, blocksTrap c false rs, roomStop c, blocksWait c false rs]
      { post := fun s => acceptCmd c c.mslot (.restore blocks) 0 (rs.findSome? (blockError c false c.s))
          (touchBlocks c false rs s) }) s

/-- The MSTAT word (Table 13.5). -/
def mstatWord (s : State) (c t : Nat) : Nat :=
  let x := (s.core c).mat
  let th := s.thread c t
  let hold : Bool := x.holder = some t
  let mask (f : Nat → Bool) : Nat := ((List.range 4).map fun m => if f m then 2 ^ m else 0).sum
  x.owned t + mask (fun m => (x.slot m).live) * 2 ^ 4 + mask (fun m => (x.slot m).la.loaded) * 2 ^ 8 +
    mask (fun m => (x.slot m).lb.loaded) * 2 ^ 12 + b2n hold * 2 ^ 16 + x.holder.getD 0 % 8 * 2 ^ 17 +
    b2n x.holder.isSome * 2 ^ 20 + (if hold then x.left % 128 * 2 ^ 21 + (4096 - (s.now - x.granted)) % 2 ^ 13 * 2 ^ 28 else 0) +
    x.outq.length % 16 * 2 ^ 41 + th.fmta % 4 * 2 ^ 45 + th.fmtb % 4 * 2 ^ 47 +
    mask (fun m => x.cmds.any fun k => k.slot == t && k.mslot == m) * 2 ^ 49

/-- MSTAT (R245). -/
def execMstat (h : Hdr) (d : Opnd) (s : State) : Host.Outcome State Fault Refusal :=
  run (.mstat h d) (fun v => { v := v, wd := some (opWidth v), wide := opWidth v }) (fun c =>
    .ok (c.write c.w (mstatWord c.s c.c c.t))) s

/-! ## Events -/

/-- A matrix slot once a command is complete (R238, R244, R249 to R251). An MMAC has made its k-steps already. An MSTC or
MSAVE that an error has ended leaves the slot not live all the same (log entry 84). -/
def MSlot.completed (x : MSlot) (k : MCmd) : MSlot :=
  match k.op with
  | .mac => { x with live := true }
  | .zero => { x.after k with live := false }
  | .restore _ => if k.err.isSome then x else { x.after k with live := true }
  | .store | .storeQ _ _ _ | .save => { x with live := false }
  | _ => x.after k

/-- The contents of slots that ended tasks have left leave the unit once no command is on them. -/
def Matrix.trim (x : Matrix) : Matrix := if x.cmds.any fun k => 4 ≤ k.mslot then x else { x with slots := x.slots.take 4 }

/-- A slot is free: what commands are still on it go on with what it held. -/
def Matrix.leave (x : Matrix) (m : Nat) : Matrix :=
  let n := x.slots.length
  { x with slots := x.slots.set m .empty ++ [{ x.slot m with owner := none }]
           cmds := x.cmds.map fun (k : MCmd) => if k.mslot = m then { k with mslot := n } else k }

/-- The matrix slots of a task that ends are free, whatever their state (R238). -/
def leaveSlots (c t : Nat) (s : State) : State :=
  s.modMatrix c fun x => (((List.range 4).filter fun m => (x.slot m).owner = some t).foldl Matrix.leave x).trim

/-- A command of a thread that still is: not of a task that has ended. -/
def MCmd.live (k : MCmd) : Bool := k.mslot < 4

/-- A command is complete: its slot, its flags, its queue entry, its fault (R239, R248, R250). -/
def completeCmd (c : Nat) (k : MCmd) (s : State) : State :=
  let y := (s.core c).mat.slot k.mslot
  let (entry, fl) : List OutEntry × Nat := match k.op with
    | .storeQ f m seq =>
      let r := convertTile f (modeOf m) y.tile
      ([⟨f, r.1.map (BitVec.ofNat 2048), seq⟩], r.2)
    | _ => ([], 0)
  let s1 := s.modMatrix c fun x =>
    { (x.modSlot k.mslot fun y => y.completed k) with
      cmds := x.cmds.filter fun j => j.id ≠ k.id, outq := x.outq ++ entry }
  let s2 := if k.live then s1.modThread c k.slot fun th => th.raise (k.flags ||| fl) else s1
  let s3 := match k.err with
    | some a => raiseDeferred (s.agent c k.slot) ⟨k.id, Cause.memEcc, a, 0, k.pc, k.id⟩ s2
    | none => s2
  kickMatrix c (dropArray c (s3.modMatrix c Matrix.trim))

/-- An MSTC.Q accepted earlier has still to enter the outbound queue, which takes them in acceptance order (R250). -/
def Matrix.queueWaits (x : Matrix) (k : MCmd) : Bool :=
  k.queues && ((x.cmds.find? MCmd.queues).map MCmd.id) ≠ some k.id

/-- MATRIX_COMMAND_COMPLETE (R239): commands on one slot in acceptance order; a halted core completes none. -/
def execMatrixCommandComplete (c id : Nat) (s : State) : Host.Outcome State Fault Refusal :=
  .next (match (s.core c).mat.cmds.find? fun k => k.id == id with
    | some k =>
      if (s.core c).stopped || !(s.core c).mat.isHead k || (k.op = .mac && k.k < 32) then s
      else if (s.core c).mat.queueWaits k then s.after 1 (.matrixCommandComplete c id)
      else completeCmd c k s
    | none => s)

/-- MMAC_KSTEP (R249): the array makes k-steps of the MMAC in progress. A halt leaves it between two of them (R253). -/
def execMmacKstep (c : Nat) (s : State) : Host.Outcome State Fault Refusal :=
  .next (
    let x := (s.core c).mat
    match x.cmds.find? fun k => k.op == .mac && k.started && k.k < 32 with
    | none => s
    | some k =>
      if (s.core c).stopped || !x.running then s
      else
        let y := x.slot k.mslot
        let (gap, n) := macRate y.la y.lb
        let m := Nat.min n (32 - k.k)
        let (tile, fl) := macSteps y.la y.lb m k.k y.tile
        let done : Bool := 32 ≤ k.k + m
        let s1 := s.modMatrix c fun x =>
          { (x.modSlot k.mslot fun y => { y with tile := tile }) with
            running := !done
            cmds := x.cmds.map fun (j : MCmd) => if j.id = k.id then { j with k := k.k + m, flags := j.flags ||| fl } else j }
        if done then s1.soon (.matrixCommandComplete c k.id) else s1.after gap (.mmacKstep c))

/-- MATRIX_LEASE_GRANT (R243): an array without a holder goes to the first waiting slot after the last holder. -/
def execMatrixLeaseGrant (c : Nat) (s : State) : Host.Outcome State Fault Refusal :=
  .next (
    let x := (s.core c).mat
    if x.holder.isSome || (s.core c).stopped then s
    else match ((List.range 8).map fun j => (x.last + 1 + j) % 8).find? (waitsArray s c) with
      | none => s
      | some t =>
        let s1 := s.modMatrix c fun x =>
          { x with holder := some t, last := t, left := 64, granted := s.now, release := false }
        (kickMatrix c s1).after 4096 (.leaseBudgetExpiry c))

/-- LEASE_BUDGET_EXPIRY (R243): 4,096 cycles after a grant or a fresh budget. -/
def execLeaseBudgetExpiry (c : Nat) (s : State) : Host.Outcome State Fault Refusal :=
  .next (
    let x := (s.core c).mat
    if x.holder.isSome && x.granted + 4096 ≤ s.now && !x.release then dropArray c (budgetSpent c s) else s)

end Sys2Proof.Machine
end

