-- ==== Sys2Proof/Machine/Ports.lean ====
section
/-! DEFINITION. Port instructions and the events of port queues (R70, R74, R267 to R270). -/

namespace Sys2Proof.Machine

open Sys2Proof

/-- A destination that is a slice or a flag. -/
def sliceOrFlag (o : Option Opnd) : Bool := isSlice o || isFlag o

/-- A destination that is a slice or ZERO. -/
def sliceOrZero (o : Option Opnd) : Bool := isSlice o || o == some .zero

/-- The input queue that port operand A names. -/
def Ctx.queueA (c : Ctx) : Nat :=
  match c.la with
  | .port q => q
  | _ => 0

/-- PUSH (R268): A at its own width, 32 for a port or ZERO, to port D. -/
def execPush (h : Hdr) (d a : Opnd) (s : State) : Host.Outcome State Fault Refusal :=
  let w (v : View) : Nat := ownWidth v.a 32
  run (.push h d a) (fun v => { v := v, ra := some (w v), wd := some (w v), wide := w v, legal := isPort v.d })
    (fun c => .ok (c.write (w c.v) (c.a (w c.v) true))) s

/-- POP (R268): the head group of queue A at D's width. -/
def execPop (h : Hdr) (d a : Opnd) (s : State) : Host.Outcome State Fault Refusal :=
  run (.pop h d a) (fun v =>
    { v := v, ra := some (opWidth v), wd := some (opWidth v), wide := opWidth v,
      legal := sliceOrFlag v.d && isPort v.a })
    (fun c => .ok (c.write c.w (c.a c.w true))) s

/-- PEEK (R268): as POP, but the group stays. -/
def execPeek (h : Hdr) (d a : Opnd) (s : State) : Host.Outcome State Fault Refusal :=
  run (.peek h d a) (fun v =>
    { v := v, ra := some (opWidth v), wd := some (opWidth v), wide := opWidth v, keep := true,
      legal := sliceOrFlag v.d && isPort v.a })
    (fun c => .ok (c.write c.w (c.a c.w true))) s

/-- Complete groups of an input queue. -/
def InQueue.completeGroups (iq : InQueue) : Nat := iq.groups.countP Group.complete

/-- PDRAIN (R269): every complete group leaves queue A; D takes their number. -/
def execPdrain (h : Hdr) (d a : Opnd) (s : State) : Host.Outcome State Fault Refusal :=
  run (.pdrain h d a) (fun v => { v := v, wd := some (opWidth v), wide := opWidth v, legal := sliceOrZero v.d && isPort v.a })
    (fun c =>
      let n := (c.th.queue c.queueA).completeGroups
      .ok { writes := writeLoc c.ld c.w n, post := Nat.repeat (popHead c.c c.t c.queueA) n }) s

/-- The PCNT word of an input queue (Table 15.5). -/
def InQueue.word (iq : InQueue) : Nat :=
  let head := match iq.ready? 0 with
    | some g => g.width
    | none => 0
  head * 2 ^ 8 + iq.completeGroups * 2 ^ 4 + iq.completeEntries

/-- PCNT (R269): the state word of queue A. -/
def execPcnt (h : Hdr) (d a : Opnd) (s : State) : Host.Outcome State Fault Refusal :=
  run (.pcnt h d a) (fun v => { v := v, wd := some (opWidth v), wide := opWidth v, legal := isSlice v.d && isPort v.a })
    (fun c => .ok (c.write c.w (c.th.queue c.queueA).word)) s

/-- `portcfg` after PCFG operation `op` with bits `b` (R270). -/
def pcfgWord (r : W64) (op b : Nat) : W64 :=
  let dis := fieldOf r 0 10
  let dropped := fieldOf r 16 10
  if op = 0 then putBits r 0 10 b
  else if op = 1 then putBits r 0 10 (dis ||| b)
  else if op = 2 then putBits r 0 10 (dis - (dis &&& b))
  else putBits r 16 10 (dropped - (dropped &&& b))

/-- PCFG (R270). -/
def execPcfg (h : Hdr) (d a : Opnd) (imm : BitVec 15) (s : State) : Host.Outcome State Fault Refusal :=
  run (.pcfg h d a imm) (fun v => { v := v, ra := some 16, wd := some (opWidth v), wide := opWidth v, legal := sliceOrZero v.d })
    (fun c =>
      let r := pcfgWord c.th.portcfg (c.immNat % 4) (bits (c.a 16 true) 0 10)
      .ok { writes := writeLoc c.ld c.w c.th.portcfg.toNat, pre := fun th => { th with portcfg := r } }) s

/-- PORT_PUSH_RETEST (R74 step 2): a push that waits with reason 3 is tested again. -/
def execPortPushRetest (c t : Nat) (s : State) : Host.Outcome State Fault Refusal :=
  .next (s.modThread c t fun th =>
    match th.wait with
    | some w => if w.reason = 3 then { th with tried := false } else th
    | none => th)

/-- PORT_GROUP_COMPLETE (R70): the groups of an input queue whose time has come are complete. -/
def execPortGroupComplete (c t q : Nat) (s : State) : Host.Outcome State Fault Refusal :=
  .next (s.modThread c t fun th =>
    let iq := th.queue q
    th.setQueue q { iq with groups := completeGroups s.now iq.groups })

/-- PORT_ROOM_RETURN (R70): the room of groups removed reaches the pushing slot. -/
def execPortRoomReturn (c t q : Nat) (s : State) : Host.Outcome State Fault Refusal :=
  .next (s.modThread c t fun th =>
    let iq := th.queue q
    th.setQueue q { iq with returning := iq.returning.filter fun p => s.now < p.2 })

end Sys2Proof.Machine
end

