-- ==== Sys2Proof/Machine/Messages.lean ====
section
/-! DEFINITION. Messages, mailboxes, handlers and event queues (chapter 15, R271 to R282). -/

namespace Sys2Proof.Machine

open Sys2Proof

/-! ## Event records (R274, R280) -/

/-- An event record (Table 15.8). -/
def eventWord (kind reason seq route data : Nat) : BitVec 512 :=
  BitVec.ofNat 512 (kind % 2 ^ 8 + reason % 2 ^ 8 * 2 ^ 8 + seq % 2 ^ 32 * 2 ^ 32 + route % 2 ^ 64 * 2 ^ 64 +
    data % 2 ^ 256 * 2 ^ 128)

/-- A record enters a thread's queue in its credit's place; a record of KIND 0 is the return of a credit (R274). -/
def Thread.deliver (th : Thread) (r : BitVec 512) : Thread :=
  if bits r.toNat 0 8 = 0 then { th with credits := Nat.min 32 (th.credits + 1) }
  else if th.evq.length < 32 then { th with evq := th.evq ++ [r] } else th

/-- An event record leaves a core for a thread (R11); it arrives once the accesses `after` are acknowledged (R140). -/
def postEvent (src : Option Nat) (dst : Agent) (r : BitVec 512) (after : List Nat) (s : State) : State :=
  let (id, s1) := s.newId
  let e : EvMsg := { id := id, src := src, dst := dst, home := s.homeCore dst.launch dst.bunch dst.i, rec_ := r, after := after }
  ({ s1 with evs := s1.evs ++ [e] } : State).laterBy (hopsBetween src ((s.whereIs dst).map Prod.fst)) (.eventDelivery id)

/-- An event of an operation on the thread's own core is in its queue at once. -/
def postHere (c t : Nat) (r : BitVec 512) (s : State) : State := s.modThread c t (·.deliver r)

/-- A thread takes an event credit; without one the instruction traps EVQ_FULL (R274). -/
def creditStop (th : Thread) : Option Stop := if th.credits = 0 then some (.trap Cause.evqFull 0) else none

/-- The thread with a credit taken. -/
def Thread.takeCredit (th : Thread) : Thread := { th with credits := th.credits - 1 }

/-- Accesses of a list are still in the network. -/
def stillOut (s : State) (l : List Nat) : Bool := l.any fun i => s.net.any fun p => p.id == i

/-- EVENT_DELIVERY (R280): delivered to its live slot, held for a bunch that is out or not yet placed and tried again
in 1 µs, or discarded. -/
def execEventDelivery (id : Nat) (s : State) : Host.Outcome State Fault Refusal :=
  .next (match s.evs.find? fun e => e.id == id with
    | none => s
    | some e =>
      if stillOut s e.after then s.after 1 (.eventDelivery id)
      else
        let gone := { s with evs := s.evs.filter fun x => x.id ≠ id }
        match remoteTest s e.dst.launch e.home with
        | .go c => if slotLive s c e.dst.slot then postHere c e.dst.slot e.rec_ gone else gone
        | .later => s.after 1000 (.eventDelivery id)
        | .absent => gone)

/-! ## Sending (R271 to R275) -/

/-- LEN of a route word. -/
def routeLen (r : Nat) : Nat := bits r 55 9
/-- TAG of a route word. -/
def routeTag (r : Nat) : Nat := bits r 49 6
/-- CORE of a route word. -/
def routeCore (r : Nat) : Nat := bits r 32 17

/-- The header of a message (Table 15.7). -/
def messageHeader (s : State) (c t : Nat) (ask : Bool) (route : Nat) : BitVec 256 :=
  BitVec.ofNat 256 (bits route 0 32 + s.homeOf c % 2 ^ 17 * 2 ^ 32 + bits route 49 15 * 2 ^ 49 + t % 8 * 2 ^ 64 +
    b2n ask * 2 ^ 67 + (s.thread c t).msgSeq.toNat * 2 ^ 96 + (s.occ c).bunch % 2 ^ 32 * 2 ^ 128 +
    tidOf s c t % 2 ^ 32 * 2 ^ 160)

/-- Traps of a send after its operands (R272), with the first fault of its payload. -/
def sendStop (c : Ctx) (route maxLen : Nat) (payload : Option Stop) : Option Stop :=
  if 86015 < routeCore route then some (.trap Cause.msgTarget route)
  else if maxLen < routeLen route then some (.trap Cause.msgLen route)
  else match payload with
    | some e => some e
    | none =>
      if c.x && c.th.cls = .handler then some (.trap Cause.handlerWait (viewLow64 c.v)) else creditStop c.th

/-- A message leaves: a credit, a sequence number, and the accesses the SEND follows (R140, R272). -/
def sendMessage (c : Ctx) (route : Nat) (payload : List Byte) (s : State) : State :=
  let (id, s1) := s.newId
  let m : Msg := { id := id, src := s.agent c.c c.t, core := routeCore route,
                   header := messageHeader c.s c.c c.t c.x route, payload := payload,
                   route := BitVec.ofNat 64 route, pc := c.th.pc, after := outstanding s c.c c.t }
  let s2 := s1.modThread c.c c.t fun th => { th.takeCredit with msgSeq := th.msgSeq + 1 }
  let s3 : State := { s2 with msgs := s2.msgs ++ [m] }
  trace c.c c.t 7 route (s3.laterBy (hopsBetween (some c.c) (s.placeNow (s.occ c.c).launch (routeCore route))) (.messageArrival id))

/-- SEND (R272): route word and payload in A. -/
def execSend (h : Hdr) (d a : Opnd) (s : State) : Host.Outcome State Fault Refusal :=
  run (.send h d a) (fun v =>
    { v := v, ra := some (sliceWidth v.a), wd := some (opWidth v), wide := Nat.max (sliceWidth v.a) (opWidth v),
      legal := isSlice v.a && 64 ≤ sliceWidth v.a && sliceWidth v.a ≤ 2048 }) (fun c =>
    let w := sliceWidth c.v.a
    let m := c.a w true
    let route := bits m 0 64
    orStop [sendStop c route (Nat.min 256 ((w - 64) / 8)) none]
      { writes := writeLoc c.ld c.w c.th.msgSeq.toNat,
        post := sendMessage c route (toBytes (m >>> 64) (routeLen route)) }) s

/-- The fault of a LOCAL read of an instruction that names its own cause for a byte elsewhere: R113 is tested for every byte
first (log entry 80). -/
def localReadStop (c : Ctx) (cause ea n : Nat) : Option Stop :=
  let k := c.s.core c.c
  match firstRangeFault k true false ea n with
  | some (e, a) => some (.trap e a)
  | none => (firstNotLocal k ea n).map fun a => .trap cause a

/-- A LOCAL read of an instruction at issue: it has been performed (R340), and `r` is what the instruction does with it. At a
word with an uncorrectable error it does nothing, and the fault is deferred (R131, R326). -/
def readingLocal (c : Ctx) (ea n : Nat) (r : Res) : Res :=
  match blockError c false c.s (ea, n) with
  | some a => { post := fun s => raiseDeferred (s.agent c.c c.t) ⟨s.nextId, Cause.memEcc, a, 0, c.th.pc, s.nextId⟩ s }
  | none => { r with post := fun s => r.post (touchBlocks c false [(ea, n)] s) }

/-- SENDM (R272): the payload is read from local store at issue. -/
def execSendm (h : Hdr) (d a : Opnd) (s : State) : Host.Outcome State Fault Refusal :=
  run (.sendm h d a) (fun v =>
    { v := v, ra := some 128, wd := some (opWidth v), wide := Nat.max 128 (opWidth v),
      legal := isSlice v.a && sliceWidth v.a == 128 }) (fun c =>
    let m := c.a 128 false
    let route := bits m 0 64
    let ea := bits m 64 64
    let n := routeLen route
    orStop [sendStop c route 256 (localReadStop c Cause.msgAddr ea n), blocksWait c false [(ea, n)]]
      (readingLocal c ea n
        { writes := writeLoc c.ld c.w c.th.msgSeq.toNat, post := sendMessage c route (localBytes c.s c.c ea n) })) s

/-! ## The mailbox (R275 to R278) -/

/-- Entries of a mailbox configuration; 0 where it is not configured. -/
def mbxCount (cfg : W64) : Nat := if cfg = 0 then 0 else fieldOf cfg 20 8 + 1

/-- The lowest free entry of a core's mailbox (log entry 88). -/
def Core.freeEntry (k : Core) : Option Nat :=
  (List.range (mbxCount k.mbxcfg)).find? fun j => !(k.mbx.any fun e => e.entry == j)

/-- The reason of R275 for which a core refuses a message, if any. -/
def refusal (s : State) (m : Msg) : Option Nat :=
  match remoteTest s m.src.launch m.core with
  | .go c =>
    let k := s.core c
    if (s.desc m.src.launch).hslots = 0 then some 2
    else if k.mbxcfg = 0 then some 3
    else if k.freeEntry.isNone then some 4
    else if !k.hset || k.htable.getD (routeTag m.route.toNat) 0xFFFFFFFF = 0xFFFFFFFF then some 5
    else none
  | _ => some 1

/-- A refusal (R275): the REFUSED event, and the sender's log. -/
def refuseMessage (m : Msg) (reason : Nat) (s : State) : State :=
  noteNd (hopsBetween (s.placeNow m.src.launch m.core) ((s.whereIs m.src).map Prod.fst)) m.src 2 m.pc
    (postEvent (s.placeNow m.src.launch m.core) m.src (eventWord 1 reason (bits m.header.toNat 96 32) m.route.toNat 0) [] s)

/-- A message takes an entry: header and payload in local store (R276). -/
def acceptMessage (c j : Nat) (m : Msg) (s : State) : State :=
  let k := s.core c
  let at_ := localKey c (fieldOf k.mbxcfg 0 20 + 288 * j)
  let pad := m.payload ++ List.replicate (256 - m.payload.length) 0#8
  let s1 := storeBytes s at_ (toBytes m.header.toNat 32 ++ pad)
  (s1.modCore c fun k => { k with mbx := k.mbx ++ [⟨j, m.header, m.src, m.route⟩] }).soon (.handlerStart c)

/-- A message is tested at its target (R275). -/
def testMessage (m : Msg) (s : State) : State :=
  match refusal s m with
  | some reason => refuseMessage m reason s
  | none =>
    match remoteTest s m.src.launch m.core with
    | .go c =>
      match (s.core c).freeEntry with
      | some j => acceptMessage c j m s
      | none => s
    | _ => s

/-- MESSAGE_ARRIVAL (R275): the first message sent of its sender and target arrives (R278), once the accesses its SEND
follows are acknowledged (R140). -/
def execMessageArrival (id : Nat) (s : State) : Host.Outcome State Fault Refusal :=
  .next (match s.msgs.find? fun m => m.id == id with
    | none => s
    | some m0 =>
      match s.msgs.find? fun m => m.src == m0.src && m.core == m0.core with
      | none => s
      | some m =>
        if stillOut s m.after then s.after 1 (.messageArrival id)
        else
          let s1 := testMessage m { s with msgs := s.msgs.filter fun x => x.id ≠ m.id }
          if m.id = id then s1 else s1.soon (.messageArrival id))

/-- MBXCFG checks (R276). -/
def mbxStop (c : Ctx) (cfg : Nat) : Option Stop :=
  let k := c.s.core c.c
  if cfg ≠ 0 && (bits cfg 20 8 == 0 || bits cfg 0 20 % 32 ≠ 0 || codeBase < bits cfg 0 20 + 288 * (bits cfg 20 8 + 1) ||
      cfg / 2 ^ 28 ≠ 0) then some (.trap Cause.illegalOperand cfg)
  else if !k.mbx.isEmpty || k.threads.any fun th => th.kind = .handler && th.running then some (.trap Cause.mbxBusy cfg)
  else none

/-- MBXCFG (R276). -/
def execMbxcfg (h : Hdr) (d a : Opnd) (s : State) : Host.Outcome State Fault Refusal :=
  run (.mbxcfg h d a) (fun v => { v := v, ra := some 64, wd := some 64, wide := 64 }) (fun c =>
    let cfg := c.a 64 true
    orStop [mbxStop c cfg]
      { writes := writeLoc c.ld 64 (c.s.core c.c).mbxcfg.toNat,
        post := fun s => s.modCore c.c fun k => { k with mbxcfg := BitVec.ofNat 64 cfg } }) s

/-- HSET (R277). -/
def execHset (h : Hdr) (a : Opnd) (s : State) : Host.Outcome State Fault Refusal :=
  run (.hset h a) (fun v => { v := v, ra := some 64, wide := 64 }) (fun c =>
    let ea := c.a 64 false
    let v := ofBytes (localBytes c.s c.c ea 256)
    orStop [localReadStop c Cause.msgAddr ea 256, blocksWait c false [(ea, 256)]]
      (readingLocal c ea 256
        { post := fun s => s.modCore c.c fun k => { k with hset := true, htable := (lanes v 32 64).map (BitVec.ofNat 32) } })) s

/-- The lowest handler slot that runs no handler. -/
def Core.idleHandler (k : Core) : Option Nat :=
  (List.range 8).find? fun t => (k.thread t).kind = .handler && !(k.thread t).running

/-- A handler starts in a slot (R278): its window's first 576 slices, PC, class and budget. A drowsy window wakes
(R65). The spec states no trellis digest for a handler: each start reads a free one (log entry 33). -/
def Thread.startHandler (th : Thread) (now name free : Nat) (pc : W32) (m : MbxEntry) (payload : Nat) : Thread :=
  let v := m.header.toNat + payload <<< 256
  let th1 := th.landBits (BitVec.ofNat 8192 (2 ^ 2304 - 1)) (BitVec.ofNat 8192 v)
  { th1 with pc := pc, cls := .handler, running := true, budget := 0, wait := none, drowsy := false,
             since := name, digest := Config.freeWord free, spawns := 0, joins := [],
             hmsg := some ⟨m.header, false, m.src, m.route⟩, busyTo := if th.drowsy then now + 20 else now,
             badGroups := th.badGroups.filter fun g => 36 ≤ g }

/-- HANDLER_START (R278): the oldest entry starts in the lowest free handler slot. A bunch halted for the debugger
starts none (R375). -/
def execHandlerStart (c : Nat) (s : State) : Host.Outcome State Fault Refusal :=
  .next (
    let k := s.core c
    if k.owner.isNone || k.stopped || k.dbgHalt || k.failed then s
    else match k.mbx, k.idleHandler with
      | m :: rest, some t =>
        let at_ := localKey c (fieldOf k.mbxcfg 0 20 + 288 * m.entry + 32)
        let pc := k.htable.getD (routeTag m.route.toNat) 0xFFFFFFFF
        let th := (k.thread t).startHandler s.now s.nextId s.freeCount pc m (loadN s at_ 256)
        let s1 := ({ s with freeCount := s.freeCount + 1 } : State).setCore c { (k.setThread t th) with mbx := rest }
        if rest.isEmpty then s1 else s1.soon (.handlerStart c)
      | _, _ => s)

/-! ## Answering (R279, R281) -/

/-- ASK of a header. -/
def headerAsk (h : BitVec 256) : Bool := h.getLsbD 67

/-- A REPLY or REFUSE that R279 does not admit. -/
def replyStop (c : Ctx) (reply : Bool) : Option Stop :=
  let bad : Bool := match c.th.hmsg with
    | some m => c.th.cls ≠ .handler || m.answered || (reply && !headerAsk m.header)
    | none => true
  if bad then some (.trap Cause.msgReply 0) else none

/-- The event that answers a message. -/
def answerEvent (c : Nat) (m : HandlerMsg) (kind reason data : Nat) (after : List Nat) (s : State) : State :=
  postEvent (some c) m.src (eventWord kind reason (bits m.header.toNat 96 32) m.route.toNat data) after s

/-- The thread's message is answered. -/
def Thread.answered (th : Thread) : Thread :=
  { th with hmsg := th.hmsg.map fun m => { m with answered := true } }

/-- Posts the answer of the running handler. -/
def sendAnswer (c : Ctx) (kind reason data : Nat) (after : State → List Nat) (s : State) : State :=
  match c.th.hmsg with
  | some m => answerEvent c.c m kind reason data (after s) (s.modThread c.c c.t (·.answered))
  | none => s

/-- REPLY (R279): A at its own width, 32 for a port or ZERO. -/
def execReply (h : Hdr) (a : Opnd) (s : State) : Host.Outcome State Fault Refusal :=
  let w (v : View) : Nat := ownWidth v.a 32
  run (.reply h a) (fun v => { v := v, ra := some (w v), wide := w v, legal := w v ≤ 256 }) (fun c =>
    orStop [replyStop c true] { post := sendAnswer c 2 0 (c.a (w c.v) true) fun s => outstanding s c.c c.t }) s

/-- REFUSE (R279). -/
def execRefuse (h : Hdr) (s : State) : Host.Outcome State Fault Refusal :=
  run (.refuse h) (fun v => { v := v }) (fun c =>
    orStop [replyStop c false] { post := sendAnswer c 1 6 0 fun _ => [] }) s

/-- What HEXIT posts: REPLY_EMPTY, or the return of the credit of a message that asked for no reply (R274, R281). -/
def hexitEvent (c : Nat) (th : Thread) (s : State) : State :=
  match th.hmsg with
  | some m =>
    if m.answered then s
    else if headerAsk m.header then answerEvent c m 3 0 0 [] s
    else answerEvent c m 0 0 0 [] s
  | none => s

/-- The end of a thread acknowledges its faulted accesses (R326). -/
def endFaults (a : Agent) (s : State) : State :=
  ((s.net.filter fun p => p.src == a && p.faulted).map Piece.order).foldl (fun s o => acknowledgeFault a o s) s

/-- A slot stops running its program: array, faulted accesses, and the state between programs. -/
def endProgram (c t : Nat) (s : State) : State :=
  endFaults (s.agent c t) (releaseArray c t (s.modThread c t fun th =>
    { th with running := false, hmsg := none, deferOn := none, loops := .empty, bankN := .empty, bankU := .empty, bankS := .empty }))

/-- HEXIT (R281). -/
def execHexit (h : Hdr) (s : State) : Host.Outcome State Fault Refusal :=
  run (.hexit h) (fun v => { v := v }) (fun c =>
    if c.th.cls ≠ .handler then .error (.trap Cause.handlerExit 0)
    else if c.th.busyOf 0x7F ≠ 0 then .error (.wait 1 (c.th.busyOf 0x7F))
    else .ok { post := fun s =>
      ((endProgram c.c c.t (hexitEvent c.c c.th s)).soon (.handlerStart c.c)).soon (.roundEnd (c.s.occ c.c).launch) }) s

/-! ## Receiving events (R282) -/

/-- The spec of WAITEV and POLLEV. -/
def eventSpec (v : View) : Spec :=
  { v := v, wd := some (sliceWidth v.d), wide := sliceWidth v.d,
    legal := isSlice v.d && 64 ≤ sliceWidth v.d && sliceWidth v.d ≤ 512 }

/-- The oldest event leaves the queue, and its credit returns (R274). -/
def Thread.takeEvent (th : Thread) : Thread :=
  { th with evq := th.evq.tail, credits := Nat.min 32 (th.credits + 1) }

/-- WAITEV (R282). -/
def execWaitev (h : Hdr) (d : Opnd) (s : State) : Host.Outcome State Fault Refusal :=
  run (.waitev h d) eventSpec (fun c =>
    if c.th.cls = .handler then .error (.trap Cause.handlerWait (viewLow64 c.v))
    else match c.th.evq with
      | r :: _ => .ok { writes := writeLoc c.ld (sliceWidth c.v.d) r.toNat, pre := Thread.takeEvent }
      | [] => .error (.wait 7 0)) s

/-- POLLEV (R282). -/
def execPollev (h : Hdr) (d : Opnd) (s : State) : Host.Outcome State Fault Refusal :=
  run (.pollev h d) eventSpec (fun c =>
    match c.th.evq with
    | r :: _ => .ok { writes := writeLoc c.ld (sliceWidth c.v.d) r.toNat, pre := Thread.takeEvent }
    | [] => .ok (c.write (sliceWidth c.v.d) 0)) s

end Sys2Proof.Machine
end

