-- ==== Sys2Proof/Machine/StorageEvents.lean ====
section
/-! DEFINITION. Events of storage: faults, fills, failures, evictions and write-backs (R123 to R127). -/

namespace Sys2Proof.Machine

open Sys2Proof

/-- A bunch awaits a fill. -/
def awaitFill (l b id : Nat) (s : State) : State :=
  s.modBunch l b fun y => if id ∈ y.paging then y else { y with paging := y.paging ++ [id] }

/-- STORAGE_FAULT (R123): the engine gets the fault, and the thread's bunch is swapped out. -/
def execStorageFault (id : Nat) (s : State) : Host.Outcome State Fault Refusal :=
  .next (match s.piece? id with
    | some p =>
      match p.tgt with
      | .edge q =>
        if p.phase ≠ .paged then s
        else if (s.launch? p.src.launch).all Launch.ended then leaveNet p s
        else match walk s q p.asid p.va with
          | .error c => failPiece p c s
          | .ok l =>
            if l.tt = 2 ∧ l.res = false then
              let (s1, fid) := beginFill l.port q p.asid l p.va s
              let s2 := requestHalt p.src.launch p.src.bunch Cause.pageSwap p.va (awaitFill p.src.launch p.src.bunch fid s1)
              dropUnserved l.port p.asid p.va fid s2
            else performEdge q l p s
      | _ => s
    | none => s)

/-- The PTE of a filled page: FRAME, RES 1, D 0 (R123). -/
def filledPte (frame : Nat) (e : W64) : W64 := putBits (putBits e 16 36 (frame / 2 ^ 16)) 5 2 2

/-- PAGE_FILL_COMPLETE (R123): the page is in its frame; FRAME and RES are written; bunches that await it may return. -/
def execPageFillComplete (e id : Nat) (s : State) : Host.Outcome State Fault Refusal :=
  .next (
    let x := s.cellar e
    match x.fills.find? fun f => f.id == id with
    | none => s
    | some f =>
      match f.frame, f.map with
      | some a, some m =>
        let d := x.drive m
        let bs := (x.lbaSize d).getD 512
        let n := poolSize f.pool
        if !s.mayWrite (4 * e) (.engine 0 f.asid) || (s.edgePort (4 * e)).size < a + n then
          failFill e f (s.modCellar e fun x => x.failed true 1 0 f.va 0 f.asid false)
        else
          let s1 : State := { s with
            mem := Mem.copy s.mem (driveKey e d (x.lba m f.va bs * bs)) (edgeKey (4 * e) a) n,
            badMem := s.badMem.filter fun k => !(edgeKey (4 * e) a ≤ k && k < edgeKey (4 * e) a + n) }
          let s2 := modPte f.port f.asid f.va (filledPte a) s1
          let s3 := s2.modCellar e fun x => { x with
            fills := x.fills.filter fun g => g.id ≠ id
            frames := x.frames ++ [⟨f.pool, a, f.asid, f.va, f.port, false, false⟩] }
          endFill id s3
      | _, _ => s)

/-- A frame stays after a failed write-back (R125): resident again, and last in line for eviction. Who waited for its
page to be filled has it. -/
def keepVictim (e addr : Nat) (s : State) : State :=
  match (s.cellar e).frames.find? fun f => f.addr == addr with
  | none => s
  | some f =>
    let s1 := modPte f.port f.asid f.va (fun w => putBits w 6 1 1) s
    let moot := (s.cellar e).fills.filter fun g => g.frame.isNone && g.asid == f.asid && g.va == f.va && g.port == f.port
    let s2 := s1.modCellar e fun x => { x with
      fills := x.fills.filter fun g => !(moot.any fun h => h.id == g.id)
      frames := (x.frames.filter fun g => g.addr ≠ addr) ++ [{ f with evicting := false }] }
    moot.foldl (fun s g => endFill g.id s) s2

/-- Fills that wait for a frame of a pool try again. -/
def retryFills (e : Nat) (s : State) : State :=
  ((s.cellar e).fills.filter (s.cellar e).wants).foldl (fun s f => placeFill e f s) s

/-- FRAME_EVICTION (R124): a fill without a frame takes a free one; else the frame filled first is evicted. -/
def execFrameEviction (e pool : Nat) (s : State) : Host.Outcome State Fault Refusal :=
  .next (
    let x := s.cellar e
    match x.fills.find? fun f => f.pool == pool && x.wants f with
    | none => s
    | some f =>
      match x.freeFrame pool with
      | some a => launchFill e f.id a s
      | none =>
        match Cellar.victim s x pool with
        | none => s.after 1000 (.frameEviction e pool)
        | some v =>
          let s1 := modPte v.port v.asid v.va (fun w => putBits w 6 1 0) s
          if v.written then
            let s2 := s1.modCellar e fun x => { x with frames := x.frames.map fun (g : Frame) =>
              if g.addr = v.addr then { g with evicting := true } else g }
            if ((s2.cellar e).mapping v.asid v.va).isSome then beginWriteBack e v false s2
            else (keepVictim e v.addr (beginWriteBack e v false s2)).after 1000 (.frameEviction e pool)
          else
            let s2 := s1.modCellar e fun x => { x with frames := x.frames.filter fun g => g.addr ≠ v.addr }
            launchFill e f.id v.addr s2)

/-- The FENCEs of a saved core no longer await a drive. -/
def Core.freeDrive (key : Nat) (k : Core) : Core :=
  { k with threads := k.threads.map fun (th : Thread) => { th with fences := th.fences.map fun (f : Fence) =>
      { f with pages := f.pages.filter (· ≠ key) } } }

/-- A FENCE no longer awaits a drive (R127). -/
def releaseFences (key : Nat) (s0 : State) : State :=
  let s := s0.mapSaved (·.freeDrive key)
  (Tbl.keys s.cores).foldl (fun s c => (List.range 8).foldl (fun s t =>
    if (s.thread c t).fences.any fun f => key ∈ f.pages then
      checkFences c t (s.modThread c t fun th => { th with fences := th.fences.map fun (f : Fence) =>
        { f with pages := f.pages.filter (· ≠ key) } })
    else s) s) s

/-- A frame holds the page that a write-back writes. -/
def WriteBack.of (w : WriteBack) (f : Frame) : Bool := f.addr == w.addr && f.asid == w.asid && f.va == w.va && f.port == w.port

/-- A write-back or Flush has failed for good (R125). -/
def writeBackFailed (e : Nat) (w : WriteBack) (sc : Nat) (s : State) : State :=
  let f := (s.cellar e).frames.find? w.of
  let va := (f.map Frame.va).getD 0
  let asid := (f.map Frame.asid).getD 0
  let s1 := s.modCellar e fun x =>
    { x.failed false (if w.flush then 3 else 2) sc va w.lba asid true with wbs := x.wbs.filter fun v => v.id ≠ w.id }
  if w.flush then beginFlush e w.drive s1
  else match f with
    | none => s1
    | some f =>
      if w.keep then beginWriteBack e f true s1
      else
        let s2 := keepVictim e w.addr s1
        retryFills e (if w.await then beginWriteBack e { f with evicting := false } true s2 else s2)

/-- A drive that FENCEs await is flushed, once no write-back for them is left to make on it (R127). -/
def flushWhenDone (e d : Nat) (s : State) : State :=
  if (s.cellar e).wbs.any fun v => v.drive == d && (v.keep || v.await) && !v.flush then s else beginFlush e d s

/-- A drive has been written: a Flush of it that runs does not cover that write (R127). -/
def Cellar.wrote (x : Cellar) (d : Nat) : Cellar :=
  { x with unflushed := if d ∈ x.unflushed then x.unflushed else x.unflushed ++ [d]
           wbs := x.wbs.map fun (v : WriteBack) => if v.flush && v.drive == d then { v with await := true } else v }

/-- A write-back has been made (R124, R127): the page is on its drive. One whose page an eviction has written back in the
meantime, so that its frame is free or another page's, has nothing left to do. -/
def writeBackDone (e : Nat) (w : WriteBack) (s : State) : State :=
  let x := s.cellar e
  let s0 := s.modCellar e fun x => { x with wbs := x.wbs.filter fun v => v.id ≠ w.id }
  let s1 := match x.frames.find? w.of with
    | none => s0
    | some f =>
      let bs := (x.lbaSize w.drive).getD 512
      let s1 : State := { s0 with
        mem := Mem.copy s.mem (edgeKey (4 * e) f.addr) (driveKey e w.drive (w.lba * bs)) (poolSize f.pool) }
      let s2 := s1.modCellar e fun x => { x.wrote w.drive with
        frames := if w.keep then x.frames.map fun (g : Frame) => if g.addr = f.addr then { g with written := false } else g
          else x.frames.filter fun g => g.addr ≠ f.addr }
      if w.keep then s2 else retryFills e s2
  if w.keep || w.await then flushWhenDone e w.drive s1 else s1

/-- A write-back for a FENCE, or a Flush, is left to make at an engine. -/
def Cellar.awaits (x : Cellar) : Bool := x.wbs.any fun v => v.keep || v.await

/-- A Flush has completed (R127): FENCEs that await its drive go on, unless a later write-back or Flush of it runs. The drive
is flushed unless it has been written since the Flush was issued. FENCEs that awaited a page without a mapping go on once
no write-back for a FENCE is left at the engine. -/
def flushDone (e : Nat) (w : WriteBack) (s : State) : State :=
  let s1 := s.modCellar e fun x => { x with
    wbs := x.wbs.filter fun v => v.id ≠ w.id
    unflushed := if w.await then x.unflushed else x.unflushed.filter (· ≠ w.drive) }
  let s2 := if (s1.cellar e).wbs.any fun v => v.drive == w.drive && (v.keep || v.await) then s1
    else releaseFences (128 * e + w.drive) s1
  if (s2.cellar e).awaits then s2 else releaseFences (128 * e + noDrive) s2

/-- A page that no mapping served is tried again (R127). One whose eviction has written it back since then still needs its
Flush. -/
def retryUnmapped (e : Nat) (w : WriteBack) (s : State) : State :=
  let s1 := s.modCellar e fun x => { x with wbs := x.wbs.filter fun v => v.id ≠ w.id }
  match (s1.cellar e).frames.find? w.of with
  | some f => beginWriteBack e f true s1
  | none =>
    let s2 := (s1.cellar e).unflushed.foldl (fun s d => beginFlush e d s) s1
    if (s2.cellar e).awaits then s2 else releaseFences (128 * e + noDrive) s2

/-- PAGE_WRITE_BACK_COMPLETE (R127). -/
def execPageWriteBackComplete (e id : Nat) (ok : Bool) (s : State) : Host.Outcome State Fault Refusal :=
  .next (match (s.cellar e).wbs.find? fun w => w.id == id with
    | none => s
    | some w => if w.drive = noDrive then retryUnmapped e w s else if !ok then writeBackFailed e w 0 s else if w.flush then flushDone e w s else writeBackDone e w s)

/-- NVME_COMMAND_FAIL (R125): command `code / 2^16` of a fill, write-back or Flush fails with status `code % 2^16`;
after its fourth failure the fill or write-back fails. -/
def execNvmeCommandFail (e id code : Nat) (s : State) : Host.Outcome State Fault Refusal :=
  .next (
    let x := s.cellar e
    let cmd := code / 2 ^ 16
    match x.fills.find? fun f => f.id == id, x.wbs.find? fun w => w.id == id with
    | some f, _ =>
      let n := Tbl.get f.fails cmd 0 + 1
      if 4 ≤ n then
        let lba := match f.map with
          | some m => x.lba m (f.va + cmd * 2 ^ 21) ((x.lbaSize (x.drive m)).getD 512)
          | none => 0
        failFill e f (s.modCellar e fun x => x.failed true 1 (code % 2 ^ 16) f.va lba f.asid true)
      else s.modCellar e fun x => { x with fills := x.fills.map fun (g : Fill) =>
        if g.id = id then { g with fails := Tbl.set g.fails cmd n } else g }
    | none, some w =>
      let n := Tbl.get w.fails cmd 0 + 1
      if 4 ≤ n then writeBackFailed e w (code % 2 ^ 16) s
      else s.modCellar e fun x => { x with wbs := x.wbs.map fun (v : WriteBack) =>
        if v.id = id then { v with fails := Tbl.set v.fails cmd n } else v }
    | none, none => s)

end Sys2Proof.Machine
end

