-- ==== Sys2Proof/Machine/Reach.lean ====
section
/-! DEFINITION. Bytes that an engine, or an instruction that reads a block of memory, reaches in one step: the checks at
the core, then those of the target (R113 to R119, R288). -/

namespace Sys2Proof.Machine

open Sys2Proof

/-- Where a run of at most 32 bytes of one aligned unit is reached: bytes, which may be of a REPLICATED page at its home
port, or registers; or what bars it. -/
inductive Reach where
  | bytes (key : Nat) (home : Option (Nat × Nat))
  | regs (off : Nat)
  | own (cause a : Nat)
  | fails (cause : Nat)
  | page (e q : Nat) (l : Leaf)
  | later
deriving DecidableEq, Repr

/-- Bytes at a key, unless an uncorrectable error or poison stands in the way (R131). -/
def reachKey (s : State) (k n : Nat) (wr : Bool) (home : Option (Nat × Nat)) : Reach :=
  if (if wr then partlyBad s k n false false else anyBad s k n) then .fails Cause.memEcc else .bytes k home

/-- Bytes of a port's DRAM. -/
def reachDram (s : State) (port a n : Nat) (m : Master) (wr : Bool) (home : Option (Nat × Nat)) : Reach :=
  if !(if wr then s.mayWrite port m else s.mayRead port m) || !s.edgeReady port || (s.edgePort port).size < a + n then
    .fails Cause.accessDenied
  else reachKey s (edgeKey port a) n wr home

/-- Bytes under a leaf at port `q` that grants the access (R118, R121, R123). -/
def reachGranted (s : State) (q : Nat) (l : Leaf) (m : Master) (va n : Nat) (wr : Bool) : Reach :=
  match l.tt with
    | 1 => if s.ready.host.getLsbD l.port then reachKey s (hostKey l.port (l.phys va)) n wr none else .fails Cause.accessDenied
    | 2 =>
      if l.res then reachDram s (4 * l.port) (l.phys va) n m wr none
      else .page l.port q l
    | 3 => reachDram s l.port (l.phys va) n m wr (some (l.port, fieldOf l.pte 16 36))
    | _ => reachDram s l.port (l.phys va) n m wr none

/-- Bytes under a leaf at port `q`. -/
def reachLeaf (s : State) (q : Nat) (l : Leaf) (m : Master) (va n : Nat) (wr : Bool) : Reach :=
  if !(if wr then l.pte.getLsbD 2 else l.pte.getLsbD 1) then .fails Cause.edgePerm else reachGranted s q l m va n wr

/-- Where [a, a + n) of one unit is reached from core `c` by a master of an ASID. -/
def reach (s : State) (c : Nat) (m : Master) (asid : Nat) (wr : Bool) (a n : Nat) : Reach :=
  let k := s.core c
  match firstFault k (!wr) wr a n with
  | some (cause, b) => .own cause b
  | none =>
    match placeOf k a with
    | none => .own Cause.rangeMiss a
    | some p =>
      match p.typ with
      | .local_ => reachKey s (localKey c p.off) n wr none
      | .remote =>
        match remoteTest s (s.occ c).launch (p.off / 2 ^ 20) with
        | .go d =>
          if (if wr then s.mayWrite (112 + fieldOfCore d) m else s.mayRead (112 + fieldOfCore d) m) then
            reachKey s (localKey d (p.off % 2 ^ 20)) n wr none
          else .fails Cause.accessDenied
        | .later => .later
        | .absent => .fails Cause.remoteAbsent
      | .edge =>
        let q := edgePortOf p.lim a
        match walk s q asid a with
        | .error e => .fails e
        | .ok l => reachLeaf s q l m a n wr
      | .host =>
        let h := fieldOf p.lim 2 6
        if h < 4 && s.ready.host.getLsbD h then reachKey s (hostKey h p.off) n wr none else .fails Cause.accessDenied
      | .mmio =>
        let o := (a + 2 ^ 64 - 0xF00000000000) % 2 ^ 64
        if (if wr then s.mmioWrites m o n else s.mmioReads m o n) then .regs o else .fails Cause.accessDenied

/-- The run may be used now. -/
def Reach.ok : Reach → Bool
  | .bytes _ _ | .regs _ => true
  | _ => false

/-- The bytes of a run. -/
def Reach.read (s : State) (n : Nat) : Reach → List Byte
  | .bytes k _ => Mem.readN s.mem k n
  | .regs o => mmioBytes s o n
  | _ => []

/-- The replicas of a written page at its home port go (R121). -/
def dropReplicas (home : Option (Nat × Nat)) (s : State) : State := home.elim s fun h => setReplicas h.1 h.2 [] s

/-- The state with a run written. A written frame of a Cellar engine is marked (R124), and replicas of its page go (R121). -/
def Reach.write (m : Master) (bs : List Byte) (s : State) : Reach → State
  | .bytes k home => dropReplicas home (markFrames k bs.length (storeBytes s k bs))
  | .regs o => s.mmioWrite m o bs
  | _ => s

/-- The runs of [ea, ea + n): address, length, and where each is reached. -/
def reachAll (s : State) (c : Nat) (m : Master) (asid : Nat) (wr : Bool) (ea n : Nat) : List (Nat × Nat × Reach) :=
  (units (n + 1) ea 0 n).map fun u => (u.1, u.2.2, reach s c m asid wr u.1 u.2.2)

/-- The first run of [ea, ea + n) that may not be used now: its address and why. -/
def firstBarred (s : State) (c : Nat) (m : Master) (asid : Nat) (wr : Bool) (ea n : Nat) : Option (Nat × Reach) :=
  ((reachAll s c m asid wr ea n).find? fun r => !r.2.2.ok).map fun r => (r.1, r.2.2)

/-- The bytes of [ea, ea + n), all of which may be used. -/
def readVia (s : State) (c : Nat) (m : Master) (asid ea n : Nat) : List Byte :=
  (reachAll s c m asid false ea n).flatMap fun r => r.2.2.read s r.2.1

/-- The state with bytes written from `ea` on, all of which may be used. -/
def writeVia (c : Nat) (m : Master) (asid ea : Nat) (bs : List Byte) (s : State) : State :=
  (units (bs.length + 1) ea 0 bs.length).foldl (fun s u =>
    (reach s c m asid true u.1 u.2.2).write m ((bs.drop u.2.1).take u.2.2) s) s

/-- The accesses to [ea, ea + n) of the instruction at `pc`, by its unit's name, have been performed, unit by unit (R340). -/
def touchVia (c : Nat) (m : Master) (a : Agent) (id : Nat) (pc : W32) (wr : Bool) (ea n : Nat) (s : State) : State :=
  let asid := s.asidOf c
  (units (n + 1) ea 0 n).foldl (fun s u =>
    match reach s c m asid wr u.1 u.2.2 with
    | .bytes k _ =>
      let log := if k / 2 ^ 20 = c then logNd a 6 pc else noteNd (keyHops c k) a 6 pc
      touchAt k u.2.2 a id (if wr && attrAt s c asid u.1 = .uo then some log else none) s
    | _ => s) s

/-- [a, a + n) cut at aligned 64 KiB units, of which every page is made: address, first byte within the run, length. -/
def runs64k : Nat → Nat → Nat → Nat → List (Nat × Nat × Nat)
  | 0, _, _, _ => []
  | fuel + 1, a, off, n =>
    if n = 0 then [] else
    let k := Nat.min (2 ^ 16 - a % 2 ^ 16) n
    (a, off, k) :: runs64k fuel (addrPlus a k) (off + k) (n - k)

/-- The 64 KiB runs of [a, a + n). -/
def pageRuns (a n : Nat) : List (Nat × Nat × Nat) := runs64k (n / 2 ^ 16 + 2) a 0 n

/-! ## Blocks an instruction reads -/

/-- The thread of a context as a master. -/
def Ctx.master (c : Ctx) : Master := .thread (c.s.asidOf c.c) c.th.level

/-- What bars the read of a block by an instruction, after the traps of R113. -/
def Ctx.barred (c : Ctx) (ea n : Nat) : Option (Nat × Reach) :=
  firstBarred c.s c.c c.master (c.s.asidOf c.c) false ea n

/-- Traps and waits of an instruction that reads the block [ea, ea + n): a byte that fails at the core traps; earlier
accesses of the thread, a bunch that is out or a page not resident make it wait. -/
def blockStop (c : Ctx) (ea n : Nat) : Option Stop :=
  match firstFault (c.s.core c.c) true false ea n with
  | some (cause, a) => some (.trap cause a)
  | none =>
    match c.barred ea n with
    | some (_, .page _ _ _) => if c.th.blockErr then blocksWait c false [(ea, n)] else some (.wait 1 0)
    | some (_, .later) => some (.wait 1 0)
    | some (a, .fails 0x25) => some (.trap Cause.remoteAbsent a)
    | _ => blocksWait c false [(ea, n)]

/-- The fault that a target answers a block's read with, if any: cause and address. A page whose fill has failed is
STORAGE_IO (R125). -/
def blockFault (c : Ctx) (ea n : Nat) : Option (Nat × Nat) :=
  match c.barred ea n with
  | some (a, .fails cause) => some (cause, a)
  | some (a, .page _ _ _) => some (Cause.storageIo, a)
  | _ => none

/-- The bytes of a block. -/
def Ctx.block (c : Ctx) (ea n : Nat) : List Byte := readVia c.s c.c c.master (c.s.asidOf c.c) ea n

/-- The reads of blocks by an instruction have been performed (R340). -/
def Ctx.touched (c : Ctx) (rs : List (Nat × Nat)) (s : State) : State :=
  rs.foldl (fun s r => touchVia c.c c.master (c.s.agent c.c c.t) c.s.nextId c.th.pc false r.1 r.2 s) s

/-- A fault of a block's read is deferred, as a load's is (R257, R326). -/
def deferRead (c : Ctx) (cause a : Nat) (s : State) : State :=
  raiseDeferred (s.agent c.c c.t) ⟨s.nextId, cause, a, c.v.h.atag.toNat, c.th.pc, s.nextId⟩ s

/-- A page that a block's read waits for swaps the bunch (R123); the thread keeps the name of its fill (R125). -/
def swapForPage (c : Ctx) (a : Nat) (e q : Nat) (l : Leaf) (s : State) : State :=
  let o := c.s.occ c.c
  let asid := c.s.asidOf c.c
  let (s1, id) := beginFill e q asid l a s
  let s2 := requestHalt o.launch o.bunch Cause.pageSwap a (awaitFill o.launch o.bunch id s1)
  dropUnserved e asid a id (s2.modThread c.c c.t fun th => { th with blockFill := some id, blockErr := false })

/-- The first page not resident that bars the read of some block. -/
def Ctx.pageBar (c : Ctx) (rs : List (Nat × Nat)) : Option (Nat × Reach) :=
  rs.findSome? fun r => match c.barred r.1 r.2 with
    | some (a, .page e q l) => some (a, .page e q l)
    | _ => none

/-- Issues an instruction that reads the blocks its `ranges` name; where it waits for a page, its bunch is swapped. -/
def runReading (i : Instr) (f : View → Spec) (ranges : Ctx → List (Nat × Nat)) (body : Ctx → Except Stop Res) (s : State) :
    Host.Outcome State Fault Refusal :=
  match i.view with
  | none => .next s
  | some v =>
    match issue (f v) s body with
    | .next s1 =>
      let x := mkCtx (f v) s
      if s1.me.wait.any fun w => w.reason = 1 ∧ w.detail = 0 ∧ w.pc = s.me.pc then
        match x.pageBar (ranges x) with
        | some (a, .page e q l) => .next (swapForPage x a e q l s1)
        | _ => .next s1
      else .next s1
    | .fault e => .fault e
    | .refused r => .refused r

/-! ## Operands of a named width (R283) -/

/-- A source of a named width: a slice at least that wide, or a special operand. -/
def namedA (o : Option Opnd) (w : Nat) : Bool :=
  match o with
  | some (.slice wc _) => w ≤ 4 * 2 ^ wc.toNat
  | some (.flag _) | some (.port _) => false
  | _ => true

/-- A destination of a named width, or ZERO. -/
def namedD (o : Option Opnd) (w : Nat) : Bool := o == some .zero || (isSlice o && sliceWidth o == w)

end Sys2Proof.Machine
end

