-- ==== Sys2Proof/Machine/Engine.lean ====
section
/-! DEFINITION. The copy engine (chapter 17, R285 to R294). -/

namespace Sys2Proof.Machine

open Sys2Proof

/-! ## Descriptors (Tables 17.3 and 17.4) -/

/-- The control word of a descriptor. -/
def engCtl (d : Nat) : Nat := bits d 384 64
/-- NX, or N of SORTK. -/
def engNx (d : Nat) : Nat := bits d 128 32
/-- NY. -/
def engNy (d : Nat) : Nat := bits d 160 32
/-- NZ. -/
def engNz (d : Nat) : Nat := bits d 192 32
/-- OPK. -/
def engOpk (d : Nat) : Nat := bits (engCtl d) 4 2
/-- Bytes of a SORTK record. -/
def sortRec (d : Nat) : Nat := 4 * (bits (engCtl d) 8 6 + 1)
/-- SORTK key width in bits. -/
def sortKbits (d : Nat) : Nat := bits (engCtl d) 22 4 + 1
/-- SORTK key offset. -/
def sortKoff (d : Nat) : Nat := bits (engCtl d) 14 8
/-- SRC. -/
def engSrc (d : Nat) : Nat := bits d 0 64
/-- DST. -/
def engDst (d : Nat) : Nat := bits d 64 64
/-- OFFS. -/
def sortOffs (d : Nat) : Nat := bits d 160 64
/-- SCR. -/
def sortScr (d : Nat) : Nat := bits d 224 64

/-- An address moved by a signed number of bytes, modulo 2^64. -/
def addrMove (a : Nat) (j : Int) : Nat := truncI (a + j) 64

/-- Two runs of bytes, modulo 2^64, share one. -/
def runsMeet (a n b m : Nat) : Bool :=
  0 < n && 0 < m && (addrPlus b (2 ^ 64 - a % 2 ^ 64) < n || addrPlus a (2 ^ 64 - b % 2 ^ 64) < m)

/-- Element bytes of CPYR. -/
def cpyrSize (opk : Nat) : Nat := if opk = 0 then 4 else if opk = 1 then 200 else 36

/-- The ranges of a SORTK (R287). -/
def sortRanges (d : Nat) : List (Nat × Nat) :=
  let n := engNx d * sortRec d
  [(engSrc d, n), (engDst d, n)] ++ (if 8 < sortKbits d then [(sortScr d, n)] else []) ++
    [(sortOffs d, 4 * (2 ^ sortKbits d + 1))]

/-- Two ranges of a list overlap. -/
def anyMeet : List (Nat × Nat) → Bool
  | [] => false
  | r :: rs => rs.any (fun q => runsMeet r.1 r.2 q.1 q.2) || anyMeet rs

/-- A descriptor that R287 refuses; `kind` is 0 CPY, 1 CPYR, 2 SORTK. -/
def badDescr (kind d : Nat) : Bool :=
  let w := engCtl d
  bits d 448 64 ≠ 0 || bits d 352 32 ≠ 0 || bits w 26 38 ≠ 0 || bits w 6 2 ≠ 0 ||
  (if kind = 2 then
     bits d 288 64 ≠ 0 || engOpk d ≠ 0 || sortRec d < sortKoff d + 2 || anyMeet (sortRanges d)
   else
     bits w 8 18 ≠ 0 || (if kind = 0 then engOpk d ≠ 0 else engOpk d == 3 || engNx d % cpyrSize (engOpk d) ≠ 0))

/-! ## Accepting a command (R285) -/

/-- Queue `q` of a core's engine. -/
def Core.engQueue (k : Core) (q : Nat) : EngQueue := k.eng.getD q .empty

/-- The state with an engine queue changed. -/
def State.modEng (s : State) (c q : Nat) (f : EngQueue → EngQueue) : State :=
  s.modCore c fun k => { k with eng := k.eng.set q (f (k.engQueue q)) }

/-- EV of a descriptor. -/
def engEv (d : Nat) : Bool := (engCtl d).testBit 3

/-- LOCAL accesses of a thread still in the network (R144). -/
def localOut (s : State) (c t : Nat) : List Nat :=
  (s.net.filter fun p => p.src == s.agent c t && p.loc && p.unacked).map Piece.id

/-- A command enters its queue; the first of a queue is under way at once. -/
def acceptEng (c : Ctx) (kind q d : Nat) (land : Option Nat) (s : State) : State :=
  let (id, s1) := s.newId
  let x : EngCmd := { id := id, slot := c.t, kind := kind, descr := BitVec.ofNat 512 d, seq := ((c.s.core c.c).engQueue q).next,
                      land := land, ev := engEv d, pc := c.th.pc, lvl := c.th.level, after := localOut s c.c c.t,
                      fill := none, ioErr := false, done := 0, buf := [], up := s.choose.1 }
  let s2 := s1.choose.2.modEng c.c q fun e => { e with cmds := e.cmds ++ [x], next := e.next + 1 }
  if ((c.s.core c.c).engQueue q).cmds.isEmpty then s2.later (.engineCommandComplete c.c q) else s2

/-- A copy-engine instruction (R285, R287). Without an event credit it traps before it waits for room (log entry 80). -/
def engIssue (i : Instr) (kind : Nat) (s : State) : Host.Outcome State Fault Refusal :=
  run i (fun v => { v := v, ra := some 512, wd := some 64, wide := 512, legal := namedA v.a 512 && namedD v.d 64 }) (fun c =>
    let d := c.a 512 false
    let q := c.immNat % 4
    let lands := isSlice c.v.d || c.v.h.atag ≠ 0
    let full : Option Stop := if 16 ≤ ((c.s.core c.c).engQueue q).cmds.length then some (.wait 1 0) else none
    orStop [if badDescr kind d then some (.trap Cause.illegalOperand (engCtl d)) else none,
      if engEv d then creditStop c.th else none, fenceStop c.th true true false, full]
      { land := if lands then some { dest := c.ld, w := 64, missing := 1 } else none,
        pre := fun th => if engEv d then th.takeCredit else th,
        post := acceptEng c kind q d (if lands then some c.s.nextId else none) }) s

/-- CPY (R289). -/
def execCpy (h : Hdr) (d a : Opnd) (imm : BitVec 15) (s : State) : Host.Outcome State Fault Refusal :=
  engIssue (.cpy h d a imm) 0 s

/-- CPYR (R290). -/
def execCpyr (h : Hdr) (d a : Opnd) (imm : BitVec 15) (s : State) : Host.Outcome State Fault Refusal :=
  engIssue (.cpyr h d a imm) 1 s

/-- SORTK (R291). -/
def execSortk (h : Hdr) (d a : Opnd) (imm : BitVec 15) (s : State) : Host.Outcome State Fault Refusal :=
  engIssue (.sortk h d a imm) 2 s

/-! ## What a command does -/

/-- A part of a command: the runs it touches (write, address, bytes), each in one 64 KiB unit, the run that must be LOCAL if
one must, and what it does with what the command has read so far. -/
structure EngStep where
  touches : List (Bool × Nat × Nat)
  loc     : Option (Nat × Nat) := none
  act     : List Byte → State → State × List Byte

/-- Who a command's accesses are made by (R363). -/
def EngCmd.master (s : State) (c : Nat) (x : EngCmd) : Master := .thread (s.asidOf c) x.lvl

/-- Rows of CPY and CPYR in walk order: source and destination of each. -/
def engRows (d : Nat) : List (Nat × Nat) :=
  let sx (lo : Nat) : Int := val (bits d lo 32) 32 true
  (List.range (engNz d)).flatMap fun (z : Nat) => (List.range (engNy d)).map fun (y : Nat) =>
    (addrMove (engSrc d) ((z : Int) * sx 256 + (y : Int) * sx 224), addrMove (engDst d) ((z : Int) * sx 320 + (y : Int) * sx 288))

/-- A row of the destination meets a row of the source (R289). -/
def rowsMeet (d : Nat) : Bool :=
  (engRows d).any fun r => (engRows d).any fun q => runsMeet r.1 (engNx d) q.2 (engNx d)

/-- A command's accesses to [a, a + n) have been performed (R340). -/
def EngCmd.touched (c : Nat) (x : EngCmd) (wr : Bool) (a n : Nat) (s : State) : State :=
  touchVia c (x.master s c) (s.agent c x.slot) x.id x.pc wr a n s

/-- The bytes of [a, a + n), as a command reads them. -/
def engRead (c : Nat) (x : EngCmd) (a n : Nat) (s : State) : State × List Byte :=
  (x.touched c false a n s, readVia s c (x.master s c) (s.asidOf c) a n)

/-- The state with bytes written by a command. -/
def engWrite (c : Nat) (x : EngCmd) (a : Nat) (bs : List Byte) (s : State) : State :=
  x.touched c true a bs.length (writeVia c (x.master s c) (s.asidOf c) a bs s)

/-- The parts that read [a, a + n) into a command's buffer, the first of them emptying it where `new` says so. -/
def readRuns (c : Nat) (x : EngCmd) (new : Bool) (a n : Nat) : List EngStep :=
  (pageRuns a n).map fun (b, off, k) =>
    { touches := [(false, b, k)],
      act := fun buf s =>
        let (s1, bs) := engRead c x b k s
        (s1, (if new && off == 0 then [] else buf) ++ bs) }

/-- The parts that write to [a, a + n) what `f` makes of a command's buffer. -/
def writeRuns (c : Nat) (x : EngCmd) (f : List Byte → List Byte) (a n : Nat) : List EngStep :=
  (pageRuns a n).map fun (b, off, k) =>
    { touches := [(true, b, k)], act := fun buf s => (engWrite c x b (((f buf).drop off).take k) s, buf) }

/-- The source byte `a` as it stands now, if it can be reached. -/
def byteNow (c : Nat) (x : EngCmd) (a : Nat) (s : State) : Option (List Byte) :=
  if (reach s c (x.master s c) (s.asidOf c) false a 1).ok then some (engRead c x a 1 s).2 else none

/-- The steps of a CPY whose destination meets its source: all of the source is read, and each byte is then written as it
stood at that time or as the command has written it since, up or down the walk; both choices are free (R289; log entry 21). -/
def meetingSteps (c : Nat) (x : EngCmd) : List EngStep :=
  let d := x.descr.toNat
  let rows := engRows d
  let reads := ((List.range rows.length).zip rows).flatMap fun (i, r) => readRuns c x (i == 0) r.1 (engNx d)
  let writes : List EngStep := ((List.range rows.length).zip rows).flatMap fun (i, r) => (List.range (engNx d)).map fun j =>
    { touches := [(true, addrPlus r.2 j, 1)],
      act := fun buf s =>
        let old := (buf.drop (i * engNx d + j)).take 1
        let (b, s1) := s.choose
        let v := if b then old else (byteNow c x (addrPlus r.1 j) s1).getD old
        (engWrite c x (addrPlus r.2 j) v s1, buf) }
  reads ++ (if x.up then writes else writes.reverse)

/-- CPY (R289), row by row where no destination byte is a source byte. -/
def cpySteps (c : Nat) (x : EngCmd) : List EngStep :=
  let d := x.descr.toNat
  if rowsMeet d then meetingSteps c x
  else (engRows d).flatMap fun r => readRuns c x true r.1 (engNx d) ++ writeRuns c x id r.2 (engNx d)

/-- CPYR's combination of an element (R290). -/
def cpyrElem (opk : Nat) (dst src : List Byte) : List Byte :=
  match opk with
  | 0 => toBytes (f32Sum (ofBytes dst) (ofBytes src)) 4
  | 1 => Blk.toMem .bxa (Blk.bxaAdd (Blk.clean .bxa (Blk.ofMem .bxa dst)) (Blk.clean .bxa (Blk.ofMem .bxa src))).img
  | _ =>
    let a := Blk.dec .bx8 (Blk.ofMem .bx8 dst)
    let b := Blk.dec .bx8 (Blk.ofMem .bx8 src)
    Blk.toMem .bx8 (Blk.pack .bx8 .rne (a.fl ||| b.fl) (a.vs.zipWith Blk.addE b.vs)).img

/-- CPYR (R290), element by element. -/
def cpyrSteps (c : Nat) (x : EngCmd) : List EngStep :=
  let d := x.descr.toNat
  let n := cpyrSize (engOpk d)
  (engRows d).flatMap fun r => (List.range (engNx d / n)).flatMap fun j =>
    let dst := addrPlus r.2 (n * j)
    readRuns c x true (addrPlus r.1 (n * j)) n ++
    [{ touches := [(false, dst, n), (true, dst, n)], loc := some (dst, n),
       act := fun buf s =>
         let (s1, old) := engRead c x dst n s
         (engWrite c x dst (cpyrElem (engOpk d) old buf) s1, buf) }]

/-- Records of `n` bytes of a byte string. -/
def records (n : Nat) (bs : List Byte) : List (List Byte) :=
  (List.range (bs.length / n)).map fun r => (bs.drop (n * r)).take n

/-- SORTK (R291). -/
def sortSteps (c : Nat) (x : EngCmd) : List EngStep :=
  let d := x.descr.toNat
  let n := engNx d * sortRec d
  let kb := sortKbits d
  let key (r : List Byte) : Nat := ofBytes ((r.drop (sortKoff d)).take 2) % 2 ^ kb
  let recs := records (sortRec d)
  let offs (bs : List Byte) : List Byte :=
    (List.range (2 ^ kb + 1)).flatMap fun k => toBytes ((recs bs).countP fun r => key r < k) 4
  readRuns c x true (engSrc d) n ++ writeRuns c x (fun bs => (sortBy key (recs bs)).flatten) (engDst d) n ++
    writeRuns c x offs (sortOffs d) (4 * (2 ^ kb + 1)) ++
    (if 8 < kb then writeRuns c x (fun bs => (sortBy (fun r => key r % 256) (recs bs)).flatten) (sortScr d) n else [])

/-- The parts of a command, in the order it does them. -/
def engSteps (c : Nat) (x : EngCmd) : List EngStep :=
  if x.kind = 0 then cpySteps c x else if x.kind = 1 then cpyrSteps c x else sortSteps c x

/-- ERR of a cause (Table 17.5). -/
def engErr (cause : Nat) : Nat :=
  match cause with
  | 0x20 | 0x21 => 1
  | 0x23 | 0x24 => 2
  | 0x22 => 3
  | 0x25 => 4
  | 0x27 => 5
  | 0x28 => 6
  | _ => 7

/-- What bars a part of a command: an address and why. CPYR's destination must be LOCAL (R290). -/
def EngStep.barred (s : State) (c : Nat) (x : EngCmd) (p : EngStep) : Option (Nat × Reach) :=
  match p.loc.bind fun r => firstNotLocal (s.core c) r.1 r.2 with
  | some b => some (b, .own Cause.rangeMiss b)
  | none => p.touches.findSome? fun (wr, a, n) => firstBarred s c (x.master s c) (s.asidOf c) wr a n

/-- Parts done one after another from part `j` on, up to the first that is barred: the state, the number of parts done, what
the command holds read, and that bar: an address and why. -/
def runSteps (c : Nat) (x : EngCmd) : List EngStep → Nat → List Byte → State → State × Nat × List Byte × Option (Nat × Reach)
  | [], j, buf, s => (s, j, buf, none)
  | p :: ps, j, buf, s =>
    match p.barred s c x with
    | some b => (s, j, buf, some b)
    | none =>
      let (s1, buf1) := p.act buf s
      runSteps c x ps (j + 1) buf1 s1

/-- Lowest and highest EDGE address that parts of a command write, as 64 KiB units (R130). -/
def edgeSpan (k : Core) (ps : List EngStep) : Option (Nat × Nat) :=
  let us := ps.flatMap fun p => (p.touches.filter fun t => t.1).flatMap fun t => units (t.2.2 + 1) t.2.1 0 t.2.2
  us.foldl (fun r u =>
    if (placeOf k u.1).any fun p => p.typ = .edge then
      match r with
      | none => some (u.1 / 2 ^ 16, u.1 / 2 ^ 16)
      | some (lo, hi) => some (Nat.min lo (u.1 / 2 ^ 16), Nat.max hi (u.1 / 2 ^ 16))
    else r) none

/-- The range record of a store stream that closes (R130). -/
def appendRange (c : Nat) (span : Option (Nat × Nat)) (s : State) : State :=
  match span with
  | some (lo, hi) => startMerge c (putLogEntry c (hi % 2 ^ 48 * 2 ^ 16 + 3) (putLogEntry c (lo % 2 ^ 48 * 2 ^ 16 + 3) s))
  | none => s

/-! ## Completion -/

/-- The status word of a command (Table 17.5). -/
def engStatus (x : EngCmd) (err : Nat) : Nat := err % 256 * 2 ^ 16 + x.seq.toNat * 2 ^ 32

/-- The completion of a command on the thread's side: its landing and its event (R285). -/
def reportEng (c q : Nat) (x : EngCmd) (err a : Nat) (s : State) : State :=
  let st := engStatus x err
  let s1 := match x.land with
    | some id => landResult c x.slot id (s.modThread c x.slot fun th =>
        th.modLanding id fun l => { l with missing := 0, value := st })
    | none => s
  if x.ev then postHere c x.slot (eventWord 4 0 x.seq.toNat q (st + a % 2 ^ 64 * 2 ^ 64)) s1 else s1

/-- A command leaves its queue with an error code and an address; a failure halts the queue (R288). Fences of the
core's threads may complete, and its bunch may retire. -/
def finishEng (c q : Nat) (x : EngCmd) (err a : Nat) (s : State) : State :=
  let o := s.occ c
  let s1 := s.modEng c q fun e =>
    { e with cmds := e.cmds.filter fun y => y.id ≠ x.id, halt := e.halt || (err ≠ 0 && err ≠ 9), last := x.seq, errLast := err }
  let s2 := reportEng c q x err a s1
  let s3 := (List.range 8).foldl (fun s t => checkFences c t s) s2
  s3.soon (.bunchRetire o.launch o.bunch)

/-- The state with a command of an engine queue changed. -/
def State.modCmd (s : State) (c q id : Nat) (f : EngCmd → EngCmd) : State :=
  s.modEng c q fun g => { g with cmds := g.cmds.map fun (y : EngCmd) => if y.id = id then f y else y }

/-- A command waits for a page's fill (R126). -/
def waitFill (c q : Nat) (x : EngCmd) (a e p : Nat) (l : Leaf) (s : State) : State :=
  let asid := s.asidOf c
  let (s1, id) := beginFill e p asid l a s
  let s2 := s1.modCmd c q x.id fun y => { y with fill := some id }
  (dropUnserved e asid a id s2).after 100 (.engineCommandComplete c q)

/-- A command runs on from the parts it has done: it does what it can reach, in order, and waits for a page or a bunch that
is out with the rest (R126, R292); the first part that fails ends it (R288). -/
def runEng (c q : Nat) (x : EngCmd) (s : State) : State :=
  let ps := engSteps c x
  let (s1, j, buf, bar) := runSteps c x (ps.drop x.done) x.done x.buf s
  let stop (err a : Nat) : State := finishEng c q x err a (appendRange c (edgeSpan (s1.core c) (ps.take j)) s1)
  let keep : State := s1.modCmd c q x.id fun y => { y with done := j, buf := buf }
  match bar with
  | none => stop 0 0
  | some (a, r) =>
    match r with
    | .own cause b => stop (engErr cause) b
    | .fails cause => stop (engErr cause) a
    | .page e p l => if x.ioErr then stop 6 a else waitFill c q x a e p l keep
    | _ => keep.after 1000 (.engineCommandComplete c q)

/-- ENGINE_COMMAND_COMPLETE (R285): the first command of a queue finishes or fails, and the next one starts. A halted
core runs none (R292); a log without room for a range record makes it wait for the merge. -/
def execEngineCommandComplete (c q : Nat) (s : State) : Host.Outcome State Fault Refusal :=
  .next (
    let k := s.core c
    match (k.engQueue q).cmds with
    | [] => s
    | x :: _ =>
      if k.stopped || k.owner.isNone then s
      else if stillOut s x.after then s.after 1 (.engineCommandComplete c q)
      else if 254 < k.logIdx then (startMerge c s).after 100 (.engineCommandComplete c q)
      else
        let s1 := if (k.engQueue q).halt then finishEng c q x 8 0 s else runEng c q x s
        match ((s1.core c).engQueue q).cmds with
        | y :: _ => if y.id = x.id then s1 else s1.later (.engineCommandComplete c q)
        | [] => s1)

/-- QFENCE (R293): complete when every command issued to the named queues before it has completed. -/
def execQfence (h : Hdr) (imm : BitVec 15) (s : State) : Host.Outcome State Fault Refusal :=
  run (.qfence h imm) (fun v => { v := v }) (fun c =>
    let ids := (List.range 4).flatMap fun q =>
      if c.immNat.testBit q then ((c.s.core c.c).engQueue q).cmds.map EngCmd.id else []
    let f : Fence := { id := c.s.nextId, tag := c.v.h.atag.toNat, pieces := [], cmds := ids, pages := [],
                       succR := true, succW := true, uo := true, persist := false, queues := true }
    if ids.isEmpty then .ok { land := some { dest := .zero, w := 0, kind := .fence, cycles := some 1 } }
    else .ok { land := some { dest := .zero, w := 0, kind := .fence, missing := 1 },
               pre := fun th => { th with fences := th.fences ++ [f] } }) s

/-- The queue status word (Table 17.6). -/
def EngQueue.word (e : EngQueue) (q : Nat) : Nat :=
  q % 4 + b2n e.halt * 2 ^ 2 + e.cmds.length % 32 * 2 ^ 3 + e.errLast % 256 * 2 ^ 24 + e.last.toNat * 2 ^ 32

/-- The stream of a command that ends before its end closes: what its parts done so far have written is recorded (R130), in
a log merged at once if it has no room (R129). -/
def closeStream (c : Nat) (x : EngCmd) (s : State) : State :=
  match edgeSpan (s.core c) ((engSteps c x).take x.done) with
  | none => s
  | some r => appendRange c (some r) (if 254 < (s.core c).logIdx then landMerges c (mergeLog c s) else s)

/-- ENGST.CLR (R294): the commands still accepted complete with ERR 9, and HALT is cleared. -/
def clearEng (c q : Nat) (s : State) : State :=
  let s1 := ((s.core c).engQueue q).cmds.foldl (fun s x => finishEng c q x 9 0 (closeStream c x s)) s
  s1.modEng c q fun e => { e with halt := false }

/-- ENGST (R294). -/
def execEngst (h : Hdr) (d : Opnd) (imm : BitVec 15) (s : State) : Host.Outcome State Fault Refusal :=
  run (.engst h d imm) (fun v => { v := v, wd := some (opWidth v), wide := opWidth v, legal := isSlice v.d }) (fun c =>
    let q := c.immNat % 4
    .ok { writes := writeLoc c.ld c.w (((c.s.core c.c).engQueue q).word q),
          post := fun s => if c.immNat.testBit 2 then clearEng c.c q s else s }) s

end Sys2Proof.Machine
end

