-- ==== Sys2Proof/Machine/Trees.lean ====
section
/-! DEFINITION. Reduction trees (chapter 17, R295 to R304). -/

namespace Sys2Proof.Machine

open Sys2Proof

/-! ## Nodes (R296) -/

/-- The parent entry of the root. -/
def noParent : Nat := 0xFFFFFFFF

/-- Entries of a table that name an entry as parent, in increasing order. -/
def childrenOf (tab : List (Nat × Nat)) (e : Nat) : List Nat :=
  (List.range tab.length).filter fun j => (tab.getD j (0, noParent)).2 == e

/-- Edges from an entry to the root, in at most `fuel` steps; none where no root is reached. -/
def depthOf (tab : List (Nat × Nat)) : Nat → Nat → Option Nat
  | 0, _ => none
  | n + 1, e =>
    match tab[e]? with
    | none => none
    | some p => if p.2 = noParent then some 0 else (depthOf tab n p.2).map (· + 1)

/-- Entry `e` lies at or below entry `top`. -/
def under (tab : List (Nat × Nat)) (top : Nat) : Nat → Nat → Bool
  | 0, _ => false
  | n + 1, e => e == top || (match tab[e]? with
    | none => false
    | some p => p.2 ≠ noParent && under tab top n p.2)

/-- The members of an entry's subtree. -/
def subtree (tab : List (Nat × Nat)) (top : Nat) : List Nat :=
  (List.range tab.length).filter (under tab top tab.length)

/-- Children of a node. -/
def TreeNode.children (n : TreeNode) : List Nat := childrenOf n.table n.me

/-- The entry of a node's parent. -/
def TreeNode.parent (n : TreeNode) : Nat := (n.table.getD n.me (0, noParent)).2

/-- The node is the root. -/
def TreeNode.isRoot (n : TreeNode) : Bool := n.parent == noParent

/-- The core of an entry. -/
def TreeNode.coreOf (n : TreeNode) (e : Nat) : Nat := (n.table.getD e (0, 0)).1

/-- Results are queued at this node (R302). -/
def TreeNode.receives (n : TreeNode) : Bool := n.deliv || n.isRoot

/-- The node of a tree on a core, if it is installed. -/
def Core.node (k : Core) (tree : Nat) : Option TreeNode :=
  match Tbl.find? k.trees tree with
  | some (.installed n) => some n
  | _ => none

/-- WIRE of a tree that is aborted on a core (R303). -/
def Core.abortedWire (k : Core) (tree : Nat) : Option Nat :=
  match Tbl.find? k.trees tree with
  | some (.aborted w) => some w
  | _ => none

/-- The tree is aborted on a core. -/
def Core.treeAborted (k : Core) (tree : Nat) : Bool := (k.abortedWire tree).isSome

/-- The state with a tree's state on a core set. -/
def setTree (c tree : Nat) (x : TreeState) (s : State) : State :=
  s.modCore c fun k => { k with trees := Tbl.set k.trees tree x }

/-! ## RTREE (R295, R296) -/

/-- WIRE: 0 BXA, 1 BX16, 2 F32. -/
def rtWire (d : Nat) : Nat := bits d 100 2
/-- TREE. -/
def rtTree (d : Nat) : Nat := bits d 96 4
/-- N. -/
def rtCount (d : Nat) : Nat := bits d 64 32
/-- TABLE. -/
def rtTable (d : Nat) : Nat := bits d 0 64

/-- A descriptor that RTREE refuses (R295). -/
def badTree (d : Nat) : Bool :=
  bits d 180 76 ≠ 0 || bits d 144 16 ≠ 0 || bits d 120 8 ≠ 0 || bits d 110 2 ≠ 0 || rtWire d == 3 || 8 ≤ rtTree d ||
  rtCount d == 0 || 86016 < rtCount d

/-- Entries of a node table's bytes. -/
def treeTable (bs : List Byte) : List (Nat × Nat) :=
  (List.range (bs.length / 8)).map fun e => (ofBytes ((bs.drop (8 * e)).take 4), ofBytes ((bs.drop (8 * e + 4)).take 4))

/-- A list sorted by increasing value holds a repeated one. -/
def repeats : List Nat → Bool
  | a :: b :: r => a == b || repeats (b :: r)
  | _ => false

/-- The core index under which a table of a launch has core `c`: that of the first entry that names it, its home where there
is none (R49; log entry 90). -/
def indexOf (s : State) (l c : Nat) (tab : List (Nat × Nat)) : Nat :=
  ((tab.find? fun p => s.names l p.1 c).map Prod.fst).getD (s.homeOf c)

/-- ERR of R296 for a readable table that has the issuing core under index `home`, where it has it; the tree id is installed
or not; 0 for none. -/
def treeErr (tab : List (Nat × Nat)) (home : Nat) (busy : Bool) : Nat :=
  let depths := (List.range tab.length).map (depthOf tab tab.length)
  if (tab.countP fun p => p.2 == noParent) ≠ 1 || depths.any Option.isNone then 2
  else if !(tab.any fun p => p.1 == home) then 3
  else if (tab.any fun p => 86015 < p.1) || repeats (sortBy id (tab.map Prod.fst)) then 4
  else if 16 < (childrenOf tab (tab.findIdx fun p => p.1 == home)).length then 5
  else if busy then 6 else 0

/-- The depth of a table. -/
def treeDepth (tab : List (Nat × Nat)) : Nat :=
  ((List.range tab.length).map fun e => (depthOf tab tab.length e).getD 0).foldl Nat.max 0

/-- The node that RTREE installs. -/
def newNode (d : Nat) (tab : List (Nat × Nat)) (home : Nat) : TreeNode :=
  let depth := treeDepth tab
  let rd := bits d 104 6
  { rpt := bits d 160 20, timeout := bits d 128 16, e0 := bits d 112 8,
    dist := if rd = 0 then Nat.max 1 depth else rd, trapInc := bits d 103 1 == 1, deliv := bits d 102 1 == 1,
    wire := rtWire d, table := tab, me := tab.findIdx fun p => p.1 == home, depth := depth, nextSend := 0,
    contribs := [], parts := [], nextFold := 0, ecur := bits d 112 8, racks := [], queue := [], timers := [], pausedAt := none }

/-- The node table's place. -/
def tableRange (c : Ctx) : Nat × Nat :=
  let d := c.a 256 false
  (rtTable d, 8 * rtCount d)

/-- The status word of RTREE (R296). Of a table it does not read, or whose depth or issuing core's node the rule does not
define, DEPTH or the child count is free (log entry 56). -/
def treeStatus (err : Nat) (tab : List (Nat × Nat)) (home free : Nat) : Nat :=
  let once := (tab.countP fun p => p.1 == home) = 1
  let kids := if once then (childrenOf tab (tab.findIdx fun p => p.1 == home)).length else bits free 24 8
  let depth := if err = 1 || err = 2 then bits free 32 32 else treeDepth tab
  err + kids % 256 * 2 ^ 24 + depth % 2 ^ 32 * 2 ^ 32

/-- The bunch of some member of a tree is out: its timeouts are suspended (R297). -/
def memberOut (s : State) (l : Nat) (n : TreeNode) : Bool :=
  n.table.any fun p => match s.resolve l p.1 with
    | .member b _ => (s.bunch? l b).any Bunch.out
    | .physical _ => false

/-- A node with its timeouts suspended while a member is out. -/
def TreeNode.onInstall (s : State) (l : Nat) (n : TreeNode) : TreeNode :=
  { n with pausedAt := if memberOut s l n then some s.now else none }

/-- RTREE (R295, R296). -/
def execRtree (h : Hdr) (d a : Opnd) (s : State) : Host.Outcome State Fault Refusal :=
  runReading (.rtree h d a) (fun v =>
    { v := v, ra := some 256, wd := some 64, wide := 256, legal := namedA v.a 256 && namedD v.d 64 }) (fun c => [tableRange c]) (fun c =>
    let d := c.a 256 false
    let (ea, n) := tableRange c
    let readable := match c.barred ea n with
      | none => true
      | some _ => false
    let wait : Option Stop := match c.barred ea n with
      | some (_, .page _ _ _) => if c.th.blockErr then none else some (.wait 1 0)
      | some (_, .later) => some (.wait 1 0)
      | some _ => none
      | none => blocksWait c false [(ea, n)]
    let tab := if readable then treeTable (c.block ea n) else []
    let home := indexOf c.s (c.s.occ c.c).launch c.c tab
    let err := if readable then treeErr tab home ((c.s.core c.c).node (rtTree d)).isSome else 1
    let node := (newNode d tab home).onInstall c.s (c.s.occ c.c).launch
    let id := c.s.nextId
    orStop [if badTree d then some (.trap Cause.illegalOperand (bits d 64 64)) else none, wait]
      { land := some { dest := c.ld, w := 64, value := treeStatus err tab home (Config.freeWord c.s.freeCount).toNat },
        post := fun s =>
          let s1 := (if readable then c.touched [(ea, n)] s else s).fresh.2
          (if err = 0 then setTree c.c (rtTree d) (.installed node) s1 else s1).later (.resultLanding c.c c.t id) }) s

/-! ## Results and their landing (R302, R303) -/

/-- `rstat` (Table 17.13). -/
def rstatWord (tree blk missing : Nat) (abort rack inc : Bool) : Nat :=
  1 + b2n inc * 2 ^ 2 + b2n rack * 2 ^ 3 + b2n abort * 2 ^ 4 + tree % 8 * 2 ^ 5 + Nat.min missing 0xFFFF * 2 ^ 16 + blk % 2 ^ 32 * 2 ^ 32

/-- A landing is an RWAIT of a tree that still waits. -/
def Landing.awaits (l : Landing) (tree : Nat) : Bool := l.kind == .rwait tree && l.missing ≠ 0 && !l.landed

/-- The RWAITs of a core that wait for a tree: slot and landing, the first issued first. -/
def treeWaiters (k : Core) (tree : Nat) : List (Nat × Landing) :=
  sortBy (fun p => p.2.id) ((List.range 8).flatMap fun t =>
    ((k.thread t).landings.filter fun l => l.awaits tree).map fun l => (t, l))

/-- A waiting RWAIT lands a value and its `rstat`. -/
def landTree (c t id v word : Nat) (s : State) : State :=
  landResult c t id (s.modThread c t fun th =>
    th.modLanding id fun l => { l with missing := 0, value := v, kind := .rwait word })

/-- The missing-member report (R302): block index and count, then up to 62 entry indices. -/
def writeReport (c rpt : Nat) (r : TreeResult) (s : State) : State :=
  if rpt = 0xFFFFF then s
  else
    let bs := toBytes r.blk 4 ++ toBytes r.missing.length 4 ++ (r.missing.take 62).flatMap fun e => toBytes e 4
    storeBytes s (localKey c rpt) (bs.take (localSize - rpt))

/-- What the delivery of an incomplete result does (R302). -/
def incomplete (c t : Nat) (n : TreeNode) (r : TreeResult) (pc : W32) (s : State) : State :=
  let s1 := logNd (s.agent c t) 8 pc (writeReport c n.rpt r s)
  if n.trapInc then
    s1.modThread c t fun th => { th with async := th.async ++ [⟨Cause.reduceTimeout, r.blk, 0, pc, false, false, 0⟩] }
  else s1

/-- Gives the queued results of a tree to the RWAITs that wait, oldest to first (R302). -/
def serveTree (c tree : Nat) : Nat → State → State
  | 0, s => s
  | fuel + 1, s =>
    match (s.core c).node tree, treeWaiters (s.core c) tree with
    | some n, (t, l) :: _ =>
      match n.queue with
      | r :: rest =>
        let s1 := setTree c tree (.installed { n with queue := rest }) s
        let s2 := if r.inc then incomplete c t n r l.pc s1 else s1
        serveTree c tree fuel
          (landTree c t l.id r.img.toNat (rstatWord tree r.blk r.missing.length false r.rack r.inc) s2)
      | [] => s
    | _, _ => s

/-- Every waiting RWAIT of an aborted tree lands a zero block (R303). -/
def landAborted (c tree : Nat) (s : State) : State :=
  (treeWaiters (s.core c) tree).foldl (fun s p => landTree c p.1 p.2.id 0 (rstatWord tree 0 0 true false true) s) s

/-! ## Messages of a tree -/

/-- The event at which a message of a tree arrives. -/
def TreeWhat.event (w : TreeWhat) (id : Nat) : Instr :=
  match w with
  | .part _ => .treePartialArrival id
  | .rack _ _ => .treeRackWordArrival id
  | .result _ => .treeResultDelivery id
  | .abort _ => .treeAbortArrival id

/-- A message leaves core `c` for the node of entry `e`. Its path takes its hops at least (R11), and between neighbours, with
nothing else on the RED network, no more (R304). -/
def sendTree (c l tree : Nat) (n : TreeNode) (w : TreeWhat) (s : State) (e : Nat) : State :=
  let (id, s1) := s.newId
  let dst := n.coreOf e
  let s2 : State := { s1 with treeMsgs := s1.treeMsgs ++ [⟨id, l, c, dst, tree, n.coreOf n.me, w⟩] }
  let hops := hopsBetween (some c) (s.placeNow l dst)
  if hops ≤ 3 && s.treeMsgs.all (fun m => m.launch == l && m.tree == tree) then s2.after hops (w.event id)
  else s2.laterBy hops (w.event id)

/-- A message to every child of a node. -/
def sendDown (c l tree : Nat) (n : TreeNode) (w : TreeWhat) (s : State) : State :=
  n.children.foldl (sendTree c l tree n w) s

/-! ## Folding (R299 to R301) -/

/-- The own contribution a node holds for a block. -/
def TreeNode.ownPart (s : State) (n : TreeNode) (b : Nat) : Option TreePart :=
  n.contribs.find? fun p => p.blk == b && !stillOut s p.after

/-- A child's partial for a block. -/
def TreeNode.childPart (n : TreeNode) (b e : Nat) : Option TreePart := n.parts.find? fun p => p.blk == b && p.src == e

/-- The node may fold its next block now. -/
def mayFold (s : State) (n : TreeNode) : Bool :=
  let b := n.nextFold
  let whole := (n.ownPart s b).isSome && n.children.all fun e => (n.childPart b e).isSome
  let expired := n.pausedAt.isNone && n.timers.any (fun t => t.1 == b && t.2 ≤ s.now)
  (whole || expired) && (n.wire ≠ 1 || b < n.dist || (Tbl.find? n.racks (b - n.dist)).isSome) &&
    (!n.receives || n.queue.length < 8)

/-- The block image of a part as a BXA block. -/
def bxaOf (wire : Nat) (own : Bool) (p : TreePart) : Nat :=
  if wire = 1 && !own then (Blk.toBxa .bx16 (p.img.toNat)).img else p.img.toNat

/-- The fold of images in order (R104). -/
def foldImages (wire : Nat) : List Nat → Nat
  | [] => 0
  | x :: xs => xs.foldl (fun m y => if wire = 2 then redLanes f32Sum 128 m y else (Blk.bxaAdd m y).img) x

/-- Numbers without repeats, in increasing order. -/
def sortedSet (l : List Nat) : List Nat := (sortBy id l).foldr (fun x r => if r.head? = some x then r else x :: r) []

/-- Ecur of a node's next block (R300). -/
def TreeNode.nextEcur (n : TreeNode) : Nat :=
  if n.nextFold < n.dist then n.e0 else Nat.max n.ecur (Tbl.get n.racks (n.nextFold - n.dist) 0)

/-- The largest RQ among the children's partials of a block (R300). -/
def TreeNode.kidRq (n : TreeNode) (b : Nat) : Nat :=
  ((n.children.filterMap (n.childPart b)).map TreePart.rq).foldl Nat.max 0

/-- The partial a node forms of its next block from what it holds (R299 to R301). -/
def TreeNode.fold (s : State) (n : TreeNode) : TreePart :=
  let b := n.nextFold
  let own := n.ownPart s b
  let kids := n.children.map fun e => (e, n.childPart b e)
  let ins := (own.toList.map fun p => (true, p)) ++ (kids.filterMap Prod.snd).map fun p => (false, p)
  let miss := (if own.isSome then [] else [n.me]) ++
    (kids.filter fun p => p.2.isNone).flatMap (fun p => subtree n.table p.1) ++ ins.flatMap fun p => p.2.missing
  let sum := foldImages n.wire (ins.map fun p => bxaOf n.wire p.1 p.2)
  let e := n.nextEcur
  let d := Blk.dec .bxa sum
  let top := (Blk.raiseE .bx16 .rne (Blk.finNonzero d.vs) 256 e).toNat
  let inc := !miss.isEmpty || ins.any fun p => p.2.inc
  let fl := if inc then FL.inc else 0
  { blk := b, src := n.me,
    img := BitVec.ofNat 2048 (if n.wire = 1 then (Blk.packAt .bx16 .rne (d.fl ||| fl) top true d.vs).img
      else if n.wire = 0 then Blk.addFl .bxa sum fl else sum),
    inc := inc, missing := sortedSet miss,
    rq := if n.wire = 1 then (if e < top then top else n.kidRq b) else 0, after := [] }

/-- A node after the fold of its next block. -/
def TreeNode.folded (n : TreeNode) : TreeNode :=
  let b := n.nextFold
  { n with contribs := n.contribs.filter fun p => p.blk ≠ b, parts := n.parts.filter fun p => p.blk ≠ b,
           timers := n.timers.filter fun t => t.1 ≠ b, ecur := n.nextEcur, nextFold := b + 1,
           racks := n.racks.filter fun p => b < p.1 + n.dist }

/-- The result of a partial at the root, and its rack word (R300, R302). -/
def TreeNode.result (n : TreeNode) (p : TreePart) : TreeResult × Nat :=
  let w := Nat.max n.nextEcur (Nat.max p.rq (n.kidRq p.blk))
  ({ blk := p.blk, img := p.img, inc := p.inc, missing := p.missing, rack := n.wire = 1 && n.nextEcur < w }, w)

/-- The root hands out a result and, under BX16, its rack word. -/
def rootResult (c l tree : Nat) (n : TreeNode) (p : TreePart) (s : State) : State :=
  let (r, w) := n.result p
  let n1 := n.folded
  let n2 := { n1 with queue := n1.queue ++ [r], racks := if n.wire = 1 then Tbl.set n1.racks p.blk w else n1.racks }
  let s1 := setTree c tree (.installed n2) s
  let s2 := if n.wire = 1 then sendDown c l tree n (.rack p.blk w) s1 else s1
  if n.deliv then sendDown c l tree n (.result r) s2 else s2

/-- The node of a tree on a core folds what it can and hands its results out. -/
def foldTree (c tree : Nat) : Nat → State → State
  | 0, s => s
  | fuel + 1, s =>
    match (s.core c).node tree with
    | none => s
    | some n =>
      let l := (s.occ c).launch
      if (s.core c).stopped || !mayFold s n then serveTree c tree 64 s
      else
        let p := n.fold s
        let s1 :=
          if n.isRoot then rootResult c l tree n p s
          else sendTree c l tree n (.part p) (setTree c tree (.installed n.folded) s) n.parent
        foldTree c tree fuel (serveTree c tree 64 s1)

/-- A node folds and delivers as far as it can. -/
def kickTree (c tree : Nat) (s : State) : State := foldTree c tree 64 s

/-- The node of a tree on a core goes on with its timeouts, if its launch's members are all back (R297). -/
def resumeTree (c : Nat) (s : State) (tree : Nat) : State :=
  match (s.core c).node tree with
  | none => s
  | some n =>
    match n.pausedAt with
    | none => s
    | some t =>
      if memberOut s (s.occ c).launch n then s
      else
        let n1 := { n with pausedAt := none, timers := n.timers.map fun (p : Nat × Nat) => (p.1, p.2 + (s.now - t)) }
        n1.timers.foldl (fun s p => s.atTime p.2 (.treeTimeout c tree p.1)) (setTree c tree (.installed n1) s)

/-- The trees of a launch go on with their timeouts where their members are all back (R297). -/
def resumeTrees (l : Nat) (s : State) : State :=
  (s.cores.filter fun p => p.2.owner.any fun o => o.launch == l).foldl (fun s p =>
    (Tbl.keys p.2.trees).foldl (resumeTree p.1) s) s

/-- The timer of a block starts with its first input (R301). -/
def startTimer (c tree blk : Nat) (s : State) : State :=
  match (s.core c).node tree with
  | some n =>
    if n.timeout = 0 || n.timers.any (fun t => t.1 == blk) then s
    else
      let due := n.pausedAt.getD s.now + 1000 * n.timeout
      (setTree c tree (.installed { n with timers := n.timers ++ [(blk, due)] }) s).atTime due (.treeTimeout c tree blk)
  | none => s

/-! ## Instructions -/

/-- The trap of a tree id in a state an instruction does not admit. -/
def treeTrap (tree : Nat) : Option Stop := some (.trap Cause.treeState tree)

/-- The image a contribution enters with (R298), and the flags of reading it. -/
def contribution (wire : Nat) (w v : Nat) : Nat × Nat :=
  if wire = 2 then (v, 0)
  else
    let p := Blk.toBxa ((Blk.fmtOf w).getD .bxa) v
    (p.img, p.flags)

/-- The contribution's width suits the tree (R298). -/
def contribWidth (wire w : Nat) : Bool := if wire = 2 then w == 1024 else (Blk.fmtOf w).isSome

/-- A contribution enters its node. -/
def contribute (c tree w v : Nat) (n : TreeNode) (after : List Nat) (s : State) : State :=
  let p : TreePart := { blk := n.nextSend, src := n.me, img := BitVec.ofNat 2048 (contribution n.wire w v).1, inc := false,
                        missing := [], rq := 0, after := after }
  let late := n.nextSend < n.nextFold
  let n1 := { n with nextSend := n.nextSend + 1, contribs := if late then n.contribs else n.contribs ++ [p] }
  let s1 := setTree c tree (.installed n1) s
  if late then s1
  else
    let s2 := kickTree c tree (startTimer c tree p.blk s1)
    if after.isEmpty then s2 else s2.after 1 (.treeTimeout c tree p.blk)

/-- The operands of RSEND (R298): a block operand, or 1,024 bits for a tree of F32 lanes. -/
def rsendSpec (wire : Option Nat) (v : View) : Spec :=
  let w := blockWidth v.a (if wire = some 2 then 1024 else opWidth v)
  { v := v, ra := some w, wd := some (opWidth v), wide := w, legal := w ≠ 0 }

/-- RSEND (R298). -/
def execRsend (h : Hdr) (d a : Opnd) (imm : BitVec 15) (s : State) : Host.Outcome State Fault Refusal :=
  let wire := (s.myCore.node (imm.toNat % 8)).map TreeNode.wire
  run (.rsend h d a imm) (rsendSpec wire) (fun c =>
    let tree := c.immNat % 8
    let w := blockWidth c.v.a (if wire = some 2 then 1024 else opWidth c.v)
    match (c.s.core c.c).node tree with
    | none => .error (.trap Cause.treeState tree)
    | some n =>
      orStop [if contribWidth n.wire w then none else some (.trap Cause.illegalOperand (viewLow64 c.v)),
        if 8 ≤ n.contribs.length then some (.wait 1 0) else none]
        { writes := writeLoc c.ld c.w n.nextSend, flags := (contribution n.wire w (c.a w true)).2,
          post := fun s => contribute c.c tree w (c.a w true) n (outstanding s c.c c.t) s }) s

/-- Width of a tree's results (R302). -/
def resultWidth (wire : Nat) : Nat := if wire = 0 then 2048 else 1024

/-- RWAIT's trap (R302, R303) and the width of the result it takes. -/
def rwaitStop (c : Ctx) (tree : Nat) : Option Stop :=
  let k := c.s.core c.c
  match k.node tree with
  | some n =>
    if !n.receives then treeTrap tree
    else if sliceWidth c.v.d = resultWidth n.wire then none
    else some (.trap Cause.illegalOperand (viewLow64 c.v))
  | none =>
    match k.abortedWire tree with
    | some w => if sliceWidth c.v.d = resultWidth w then none else some (.trap Cause.illegalOperand (viewLow64 c.v))
    | none => treeTrap tree

/-- RWAIT (R302): the oldest queued result of its tree; of an aborted tree, zero (R303). -/
def execRwait (h : Hdr) (d : Opnd) (imm : BitVec 15) (s : State) : Host.Outcome State Fault Refusal :=
  run (.rwait h d imm) (fun v =>
    { v := v, wd := some (sliceWidth v.d), wide := sliceWidth v.d, legal := isSlice v.d }) (fun c =>
    let tree := c.immNat % 8
    orStop [rwaitStop c tree]
      { land := some { dest := c.ld, w := sliceWidth c.v.d, kind := .rwait tree, missing := 1 },
        post := fun s => if (s.core c.c).treeAborted tree then landAborted c.c tree s else kickTree c.c tree s }) s

/-- A core's node of a tree is gone, its tree aborted (R303). -/
def abortHere (c tree wire : Nat) (s : State) : State := landAborted c tree (setTree c tree (.aborted wire) s)

/-- The tree leaves a core, and an abort goes to every other member. -/
def abortAll (c l tree : Nat) (n : TreeNode) (s : State) : State :=
  ((List.range n.table.length).filter (· ≠ n.me)).foldl (sendTree c l tree n (.abort n.wire)) (abortHere c tree n.wire s)

/-- RABORT (R303): the tree leaves this core, and an abort goes to every other member. -/
def execRabort (h : Hdr) (imm : BitVec 15) (s : State) : Host.Outcome State Fault Refusal :=
  run (.rabort h imm) (fun v => { v := v }) (fun c =>
    let tree := c.immNat % 8
    let k := c.s.core c.c
    match k.node tree with
    | some n =>
      .ok { post := fun s => abortAll c.c (c.s.occ c.c).launch tree n s }
    | none => if k.treeAborted tree then .ok {} else .error (.trap Cause.treeState tree)) s

/-! ## Events -/

/-- Two messages travel one way of one tree, and keep their order. -/
def TreeMsg.sameWay (x y : TreeMsg) : Bool :=
  x.launch == y.launch && x.core == y.core && x.tree == y.tree && x.src == y.src && x.what.event 0 == y.what.event 0

/-- The first message of a way arrives: dropped where its core is gone, held while its bunch is out or it is not
taken. -/
def treeArrival (id : Nat) (f : Nat → TreeMsg → State → Option State) (s : State) : Host.Outcome State Fault Refusal :=
  .next (match s.treeMsgs.find? fun m => m.id == id with
    | none => s
    | some m0 =>
      match s.treeMsgs.find? fun m => m.sameWay m0 with
      | none => s
      | some m =>
        let gone : State := { s with treeMsgs := s.treeMsgs.filter fun x => x.id ≠ m.id }
        let again (s : State) : State := if m.id = id then s else s.soon (m.what.event id)
        match remoteTest s m.launch m.core with
        | .go c =>
          match f c m gone with
          | some s1 => again s1
          | none => s.after 1000 (m.what.event id)
        | .later => s.after 1000 (m.what.event id)
        | .absent => again gone)

/-- The child of a node that its own table has on a core (R49, R296). -/
def TreeNode.childAt (s : State) (l : Nat) (n : TreeNode) (core : Nat) : Option Nat :=
  n.children.find? fun e => s.names l (n.coreOf e) core

/-- A child's partial enters its parent's node; one for a block already folded, or from a core that is no child, is discarded. -/
def takePartial (c : Nat) (m : TreeMsg) (p : TreePart) (s : State) : Option State :=
  match (s.core c).node m.tree with
  | some n =>
    match n.childAt s m.launch m.at_ with
    | none => some s
    | some e =>
      if p.blk < n.nextFold then some s
      else
        let s1 := setTree c m.tree (.installed { n with parts := n.parts ++ [{ p with src := e }] }) s
        some (kickTree c m.tree (startTimer c m.tree p.blk s1))
  | none => if (s.core c).treeAborted m.tree then some s else none

/-- TREE_PARTIAL_ARRIVAL (R299): a partial reaches its parent's node, or waits until it is installed (R296). -/
def execTreePartialArrival (id : Nat) (s : State) : Host.Outcome State Fault Refusal :=
  treeArrival id (fun c m s => match m.what with
    | .part p => takePartial c m p s
    | _ => some s) s

/-- TREE_RACK_WORD_ARRIVAL (R300): a node takes a rack word and passes it on; it waits until the node is installed. -/
def execTreeRackWordArrival (id : Nat) (s : State) : Host.Outcome State Fault Refusal :=
  treeArrival id (fun c m s => match m.what, (s.core c).node m.tree with
    | .rack b w, some n =>
      let s1 := setTree c m.tree (.installed { n with racks := Tbl.set n.racks b w }) s
      some (kickTree c m.tree (sendDown c m.launch m.tree n (.rack b w) s1))
    | .rack _ _, none => if (s.core c).treeAborted m.tree then some s else none
    | _, _ => some s) s

/-- TREE_RESULT_DELIVERY (R302): a result enters a member's queue, which has room for 8, and goes on down; it waits until the
node is installed. -/
def execTreeResultDelivery (id : Nat) (s : State) : Host.Outcome State Fault Refusal :=
  treeArrival id (fun c m s => match m.what, (s.core c).node m.tree with
    | .result r, some n =>
      if 8 ≤ n.queue.length then none
      else
        let s1 := setTree c m.tree (.installed { n with queue := n.queue ++ [r] }) s
        some (kickTree c m.tree (sendDown c m.launch m.tree n (.result r) s1))
    | .result _, none => if (s.core c).treeAborted m.tree then some s else none
    | _, _ => some s) s

/-- TREE_ABORT_ARRIVAL (R303): the tree leaves a member's core. -/
def execTreeAbortArrival (id : Nat) (s : State) : Host.Outcome State Fault Refusal :=
  treeArrival id (fun c m s => match m.what with
    | .abort w => some (abortHere c m.tree w s)
    | _ => some s) s

/-- TREE_TIMEOUT (R301): a block's timer ends, or a contribution's accesses may be acknowledged: the node folds what it
may, and asks again for a contribution it still cannot use. -/
def execTreeTimeout (c k blk : Nat) (s : State) : Host.Outcome State Fault Refusal :=
  .next (
    let s1 := kickTree c k s
    match (s1.core c).node k with
    | none => s1
    | some n => if n.contribs.any fun p => p.blk == blk && stillOut s1 p.after then s1.after 1 (.treeTimeout c k blk) else s1)

end Sys2Proof.Machine
end

