-- ==== Sys2Proof/Machine/Exchange.lean ====
section
/-! DEFINITION. What a collective delivers: request blocks, layouts, exchanges, tree reductions and compression (R344 to
R350, R355). -/

namespace Sys2Proof.Machine.Exch

open Sys2Proof

/-! ## The request block (Table 21.5) -/

/-- `n` bytes of a block at an offset, as a number. -/
def field (b : List Byte) (off n : Nat) : Nat := ofBytes ((b.drop off).take n)

/-- MEMB. -/
def memb (b : List Byte) : Nat := field b 0x00 8
/-- NMEMB + 1. -/
def count (b : List Byte) : Nat := bits (field b 0x08 8) 0 17 + 1
/-- Size of mesh axis `k`. -/
def mesh (b : List Byte) (k : Nat) : Nat := bits (field b 0x10 8) (16 * k) 16 + 1
/-- SRCQ. -/
def srcq (b : List Byte) : Bool := bits (field b 0x18 8) 27 1 == 1
/-- NAX. -/
def nax (b : List Byte) : Nat := field b 0x1A 1
/-- FMT. -/
def fmt (b : List Byte) : Nat := field b 0x19 1
/-- OP. -/
def op (b : List Byte) : Nat := field b 0x18 1
/-- Global size of tensor axis `a`. -/
def size (b : List Byte) (a : Nat) : Nat := field b (0x20 + 4 * a) 4
/-- SRC. -/
def src (b : List Byte) : Nat := field b 0x38 8
/-- DST. -/
def dst (b : List Byte) : Nat := field b 0x40 8
/-- TREE. -/
def tree (b : List Byte) : Nat := field b 0x48 8
/-- RES. -/
def res (b : List Byte) : Nat := field b 0x50 8
/-- Wire form of a level. -/
def wire (b : List Byte) (level : Nat) : Nat := bits (field b 0x58 8) (4 * level) 4
/-- TSBASE. -/
def tsbase (b : List Byte) : Nat := field b 0x60 8
/-- TSWIDTH. -/
def tswidth (b : List Byte) : Nat := field b 0x68 4
/-- TO. -/
def timeout (b : List Byte) : Nat := field b 0x6C 4

/-- State of a tensor axis (R346). -/
inductive Lay where
  | rep
  | split (k : Nat)
  | part (k : Nat)
deriving DecidableEq, Repr

/-- A state byte. -/
def layOf (n : Nat) : Option Lay :=
  if n = 0 then some .rep
  else if 0x10 ≤ n ∧ n ≤ 0x12 then some (.split (n - 0x10))
  else if 0x20 ≤ n ∧ n ≤ 0x22 then some (.part (n - 0x20))
  else none

/-- Source states of the tensor axes. -/
def slay (b : List Byte) : List (Option Lay) := (List.range (nax b)).map fun a => layOf (field b (0x30 + a) 1)
/-- Destination states. -/
def dlay (b : List Byte) : List (Option Lay) := (List.range (nax b)).map fun a => layOf (field b (0x34 + a) 1)

/-- The states of a layout, all valid. -/
def lays (l : List (Option Lay)) : List Lay := l.map fun x => x.getD .rep

/-- The mesh axis a state names. -/
def Lay.axis : Lay → Option Nat
  | .rep => none
  | .split k => some k
  | .part k => some k

/-! ## Members (Table 21.6) -/

/-- Entry of member `r`. -/
def entry (ms : List Byte) (r : Nat) : Nat := field ms (8 * r) 8
/-- CORE of a member. -/
def coreOf (ms : List Byte) (r : Nat) : Nat := bits (entry ms r) 0 17
/-- WAFER of a member. -/
def waferOf (ms : List Byte) (r : Nat) : Nat := bits (entry ms r) 32 16
/-- CAMPUS of a member. -/
def campusOf (ms : List Byte) (r : Nat) : Nat := bits (entry ms r) 48 8

/-- Hop level between two members (R345). -/
def level (ms : List Byte) (r q : Nat) : Nat :=
  if waferOf ms r = waferOf ms q then 0 else if campusOf ms r = campusOf ms q then 1 else 2

/-- Coordinate of member `r` on mesh axis `k` (R345). -/
def coord (b : List Byte) (r k : Nat) : Nat :=
  if k = 0 then r % mesh b 0 else if k = 1 then r / mesh b 0 % mesh b 1 else r / (mesh b 0 * mesh b 1)

/-- The member with one coordinate replaced. -/
def withCoord (b : List Byte) (r k x : Nat) : Nat :=
  let c (j : Nat) : Nat := if j = k then x else coord b r j
  c 0 + mesh b 0 * (c 1 + mesh b 1 * c 2)

/-- The group of a reduction over mesh axis `k` (R350). -/
def group (b : List Byte) (r k : Nat) : List Nat := (List.range (mesh b k)).map fun x => withCoord b r k x

/-! ## Shards (R346) -/

/-- FMT is a block format. -/
def blocky (b : List Byte) : Bool := 2 ≤ fmt b

/-- The block format of FMT. -/
def bfmt (b : List Byte) : BFmt :=
  match fmt b with
  | 2 => .bxa
  | 3 => .bx16
  | 4 => .bx8
  | _ => .bx4

/-- The lane format of FMT; a block format's is that of the F32 wire form (R104). -/
def lfmt (b : List Byte) : Fmt := if fmt b = 1 then Fp.bf16 else Fp.f32

/-- Bytes of a unit: an element of a lane format, a block of a block format. -/
def unitBytes (b : List Byte) : Nat := if fmt b = 0 then 4 else if fmt b = 1 then 2 else Blk.memBytes (bfmt b)

/-- Units of the whole tensor along axis `a`. -/
def whole (b : List Byte) (a : Nat) : Nat := if blocky b && a == 0 then size b 0 / 32 else size b a

/-- Units of a shard along each axis, in a layout. -/
def extents (b : List Byte) (l : List Lay) : List Nat :=
  l.mapIdx fun a x => match x with
    | .split k => whole b a / mesh b k
    | _ => whole b a

/-- The product of a list. -/
def prod (l : List Nat) : Nat := l.foldl (· * ·) 1

/-- Indices of a unit's number, axis 0 innermost. -/
def unlin : List Nat → Nat → List Nat
  | [], _ => []
  | e :: es, j => j % e :: unlin es (j / e)

/-- The number of the unit with given indices. -/
def lin : List Nat → List Nat → Nat
  | e :: es, i :: is => i + e * lin es is
  | _, _ => 0

/-- Units of the source shard. -/
def shardUnits (b : List Byte) : Nat := prod (extents b (lays (slay b)))

/-- Units of bytes. -/
def ofShard (b bs : List Byte) : List Nat :=
  (List.range (bs.length / unitBytes b)).map fun j => ofBytes ((bs.drop (unitBytes b * j)).take (unitBytes b))

/-- Bytes of units. -/
def toShard (b : List Byte) (us : List Nat) : List Byte := us.flatMap fun u => toBytes u (unitBytes b)

/-! ## Moves (R348, R349) -/

/-- The shards of all members, by rank. -/
abbrev Shards := List (List Nat)

/-- The layout after one axis changes. -/
def setLay (l : List Lay) (a : Nat) (x : Lay) : List Lay := l.set a x

/-- The first unit of a member's shard on an axis. -/
def base (b : List Byte) (r a : Nat) : Lay → Nat
  | .split k => coord b r k * (whole b a / mesh b k)
  | _ => 0

/-- Units of a shard along an axis in a state. -/
def extent (b : List Byte) (a : Nat) : Lay → Nat
  | .split k => whole b a / mesh b k
  | _ => whole b a

/-- A unit of member `r`'s shard in layout `d`, taken from the shards of layout `l`: every axis at once. It is the unit with the
same indices in the whole tensor, of the member that holds it; zero where Table 21.7 has zero. -/
def movedUnit (b : List Byte) (l d : List Lay) (t : Shards) (r : Nat) (idx : List Nat) : Nat :=
  let axes := List.range l.length
  let src (a : Nat) : Lay := l.getD a .rep
  let g (a : Nat) : Nat := idx.getD a 0 + base b r a (d.getD a .rep)
  let owner (a : Nat) : Nat := g a / extent b a (src a)
  let q := axes.foldl (fun q a => match src a with
    | .split k => withCoord b q k (owner a)
    | _ => q) r
  let zero := axes.any fun a => match src a, d.getD a .rep with
    | .rep, .part k => coord b r k ≠ 0
    | .split k, .part _ => owner a ≠ coord b r k
    | _, _ => false
  if zero then 0 else (t.getD q []).getD (lin (extents b l) (axes.map fun a => g a % extent b a (src a))) 0

/-- All shards brought from layout `l` to layout `d` without a reduction. -/
def move (b : List Byte) (l d : List Lay) (t : Shards) : Shards :=
  let ext := extents b d
  (List.range t.length).map fun r => (List.range (prod ext)).map fun j => movedUnit b l d t r (unlin ext j)

/-! ## Reductions (R350, R355) -/

/-- Up to 32 elements, exactly, with the exponent and the flags with which they enter BXA (R97). -/
structure Exact where
  vs : List FVal
  e0 : Int
  fl : Nat
deriving DecidableEq, Repr

/-- What a node of a reduction has folded: lanes, BXA blocks of 32 elements, or, under a maximum or minimum, the elements. -/
inductive Acc where
  | lanes (vs : List Nat)
  | blocks (bs : List Nat)
  | exact (xs : List Exact)
deriving DecidableEq, Repr

/-- The elements of a fold, in groups of 32. -/
def Acc.elems (b : List Byte) : Acc → List Exact
  | .lanes us => (List.range (ceilDiv us.length 32)).map fun j =>
      ⟨((us.drop (32 * j)).take 32).map (Fp.decode (lfmt b) false), -32768, 0⟩
  | .blocks bs => bs.map fun m => ⟨(Blk.dec .bxa m).vs.map Blk.toFVal, Blk.expOf .bxa m, (Blk.dec .bxa m).fl⟩
  | .exact xs => xs

/-- Elements as a BXA block (R97). -/
def Exact.block (x : Exact) : Nat :=
  (Blk.bxaFit (x.vs.map Blk.ofFVal ++ List.replicate (32 - x.vs.length) (.num 0 0)) x.e0 x.fl).img

/-- The BXA blocks of a fold. -/
def Acc.toBlocks (b : List Byte) : Acc → List Nat
  | .blocks bs => bs
  | x => (x.elems b).map Exact.block

/-- The `n` lanes of a fold, rounded once. -/
def Acc.toLanes (b : List Byte) (n : Nat) : Acc → List Nat
  | .lanes vs => vs
  | x => ((x.elems b).flatMap fun e => e.vs.map fun v => (Fp.encode (lfmt b) .rne false v).1).take n

/-- What a member enters a fold with: its lanes, or its blocks as BXA blocks (R97). -/
def enter (b : List Byte) (us : List Nat) : Acc :=
  if blocky b then .blocks (us.map fun u => (Blk.toBxa (bfmt b) (Blk.clean (bfmt b) u)).img) else .lanes us

/-- The `n` units that a fold leaves as. -/
def leave (b : List Byte) (n : Nat) (x : Acc) : List Nat :=
  if fmt b = 2 then x.toBlocks b
  else if blocky b then (x.elems b).map fun e => (Blk.pack (bfmt b) .rne e.fl (e.vs.map Blk.ofFVal)).img
  else x.toLanes b n

/-- The larger (or smaller) of two elements, exactly; NaN where one is (R350). -/
def pick (big : Bool) (x y : FVal) : FVal :=
  if Fp.isNaN x || Fp.isNaN y then .nan false else if decide (Fp.cmp x y < 0) == big then y else x

/-- The combination of two lanes. -/
def combineLane (b : List Byte) (x y : Nat) : Nat :=
  let f := lfmt b
  let u := Fp.decode f false x
  let v := Fp.decode f false y
  if op b = 0 then (Fp.encode f .rne false (Fp.add .rne u v)).1
  else if Fp.isNaN u || Fp.isNaN v then Fp.canonNaN f
  else if (decide (Fp.cmp u v < 0)) == (op b == 1) then y else x

/-- The fold of what a node has with what arrives. A sum is made in the wire form in which that arrives: lane by lane, where the
flags of blocks are lost (log entry 89), or in BXA blocks (R104). A maximum or minimum is exact, element by element (R350). -/
def combine (b : List Byte) (x y : Acc) : Acc :=
  if op b = 0 then
    match y with
    | .lanes v => .lanes ((x.toLanes b v.length).zipWith (combineLane b) v)
    | _ => .blocks ((x.toBlocks b).zipWith (fun u v => (Blk.bxaAdd u v).img) (y.toBlocks b))
  else
    match x, y with
    | .lanes u, .lanes v => .lanes (u.zipWith (combineLane b) v)
    | _, _ => .exact ((x.elems b).zipWith
        (fun u v => ⟨u.vs.zipWith (pick (op b == 1)) v.vs, min u.e0 v.e0, u.fl ||| v.fl⟩) (y.elems b))

/-- The block format of a narrow wire form. -/
def narrow (w : Nat) : Option BFmt :=
  match w with
  | 1 => some .bx16
  | 2 => some .bx8
  | 3 => some .bx4
  | _ => none

/-- A child's block as its parent decodes it, and the child's new residual (R355): wire form `w`, with a residual or not. -/
def sendBlock (w : Nat) (withRes : Bool) (r v : Nat) : Nat × Nat :=
  match narrow w with
  | some f =>
    let u := if withRes then (Blk.bxaAdd v r).img else v
    let d := Blk.dec .bxa u
    let sn := (Blk.pack f .rne d.fl d.vs).img
    let rest := d.vs.zipWith Blk.addE ((Blk.dec f sn).vs.map Blk.negE)
    ((Blk.toBxa f sn).img,
     if withRes then (Blk.bxaFit rest (min (Blk.expOf .bxa u) (Blk.entryExp f sn)) (Blk.flOf .bxa u)).img else r)
  | none => (v, r)

/-- What the members of a reduction work from: block, members, tree, group, shards, residual blocks by rank. -/
structure Job where
  b   : List Byte
  ms  : List Byte
  tab : List (Nat × Nat)
  g   : List Nat
  t   : Shards
  rs  : Shards

/-- The entry of a rank in the tree. -/
def Job.entryOf (j : Job) (r : Nat) : Nat := j.tab.findIdx fun p => p.1 == r

/-- The nearest ancestor of an entry that is in the group. -/
def Job.ancestor (j : Job) : Nat → Nat → Option Nat
  | 0, _ => none
  | n + 1, e =>
    match j.tab[e]? with
    | none => none
    | some p =>
      match j.tab[p.2]? with
      | none => none
      | some q => if q.1 ∈ j.g then some q.1 else j.ancestor n p.2

/-- The group's root: the member nearest the tree's root. -/
def Job.root (j : Job) : Nat :=
  let depth (r : Nat) : Nat := (depthOf j.tab j.tab.length (j.entryOf r)).getD 0
  j.g.foldl (fun m r => if depth r < depth m then r else m) (j.g.headD 0)

/-- The parent of a member in its group; none for the root. -/
def Job.parent (j : Job) (r : Nat) : Option Nat :=
  if r = j.root then none else some ((j.ancestor j.tab.length (j.entryOf r)).getD j.root)

/-- The children of a member in its group, in increasing rank. -/
def Job.children (j : Job) (r : Nat) : List Nat := sortBy id (j.g.filter fun q => j.parent q == some r)

/-- Residual block `i` of a member; zero where there is none. -/
def Job.residual (j : Job) (r i : Nat) : Nat := (j.rs.getD r []).getD i zeroBxa.toNat

/-- The wire form of the edge between two members (R350). -/
def Job.edge (j : Job) (r q : Nat) : Nat := wire j.b (level j.ms r q)

/-- What a member's fold is at its parent, and its new residuals: over an edge of F32 lanes the lanes, else blocks in the
edge's wire form. -/
def Job.sent (j : Job) (r q : Nat) (v : Acc) : Acc × List Nat :=
  if j.edge r q = 4 then (.lanes (v.toLanes j.b ((if blocky j.b then 32 else 1) * (j.t.getD r []).length)), [])
  else
    let xs := (v.toBlocks j.b).mapIdx fun i x => sendBlock (j.edge r q) (decide (0 < level j.ms r q)) (j.residual r i) x
    (.blocks (xs.map Prod.fst), xs.map Prod.snd)

/-- The fold at a member: its own part, then its children's in order (R104, R350). -/
def Job.fold (j : Job) : Nat → Nat → Acc
  | 0, r => enter j.b (j.t.getD r [])
  | n + 1, r => (j.children r).foldl (fun acc q => combine j.b acc (j.sent q r (j.fold n q)).1) (enter j.b (j.t.getD r []))

/-- A member sends over an edge with a residual (R355). -/
def Job.keepsRest (j : Job) (r : Nat) : Bool :=
  (j.parent r).any fun q => 0 < level j.ms r q && (narrow (j.edge r q)).isSome

/-- The residuals of a member after the reduction. -/
def Job.newResidual (j : Job) (r : Nat) : List Nat :=
  match j.parent r with
  | some q => if j.keepsRest r then (j.sent r q (j.fold j.g.length r)).2 else j.rs.getD r []
  | none => j.rs.getD r []

/-- The reduction of member `r`'s group over mesh axis `k`. -/
def jobOf (b ms : List Byte) (tab : List (Nat × Nat)) (k : Nat) (t rs : Shards) (r : Nat) : Job :=
  { b := b, ms := ms, tab := tab, g := group b r k, t := t, rs := rs }

/-- All shards and residuals after an all-reduce over mesh axis `k`. -/
def allReduce (b ms : List Byte) (tab : List (Nat × Nat)) (k : Nat) (t rs : Shards) : Shards × Shards :=
  let job := jobOf b ms tab k t rs
  ((List.range t.length).map fun r =>
      leave b (t.getD r []).length ((job r).fold (mesh b k) (job r).root),
   (List.range t.length).map fun r => (job r).newResidual r)

/-! ## The whole exchange -/

/-- Shards and residuals as the reductions, the moves and the selections leave them (R349). -/
structure Stage where
  l  : List Lay
  t  : Shards
  rs : Shards

/-- The axis pairs of a block. -/
def pairs (b : List Byte) : List (Nat × Lay × Lay) :=
  (List.range (nax b)).map fun a => (a, (lays (slay b)).getD a .rep, (lays (dlay b)).getD a .rep)

/-- A pair that reduces, and over which axis. -/
def reduces : Lay × Lay → Option Nat
  | (.part _, .part _) => none
  | (.part k, _) => some k
  | _ => none

/-- A pair that exchanges shards: all-to-all. -/
def swaps : Lay × Lay → Bool
  | (.split k, .split j) => k ≠ j
  | _ => false

/-- A pair that gathers. -/
def gathers : Lay × Lay → Bool
  | (.split _, .rep) => true
  | _ => false

/-- The reductions (R349 step 1). -/
def stage1 (b ms : List Byte) (tab : List (Nat × Nat)) (x : Stage) : Stage :=
  (pairs b).foldl (fun x p => match reduces p.2 with
    | some k =>
      let r := allReduce b ms tab k x.t x.rs
      { l := setLay x.l p.1 .rep, t := r.1, rs := r.2 }
    | none => x) x

/-- What every member ends with: its destination shard and its residuals. After the reductions elements only move, every axis
from the layout they have left to its destination, so the order of those exchanges affects no value. -/
def run (b ms : List Byte) (tab : List (Nat × Nat)) (t rs : Shards) : Shards × Shards :=
  let x := stage1 b ms tab { l := lays (slay b), t := t, rs := rs }
  (move b x.l (lays (dlay b)) x.t, x.rs)

/-- Steps of a collective: its exchanges, and at least the one that compares hashes (R351, R358). -/
def steps (b : List Byte) : Nat :=
  Nat.max 1 ((pairs b).countP fun p => (reduces p.2).isSome || swaps p.2 || gathers p.2)

/-- The residual area of member `r` takes part (R355): it sends over an edge with a residual in some reduction. -/
def usesRes (b ms : List Byte) (tab : List (Nat × Nat)) (r : Nat) : Bool :=
  res b ≠ 0 && (pairs b).any fun p => (reduces p.2).any fun k => (jobOf b ms tab k [] [] r).keepsRest r

/-- Residual blocks of a member. -/
def resBlocks (b ms : List Byte) (tab : List (Nat × Nat)) (r : Nat) : Nat :=
  if usesRes b ms tab r then (if blocky b then shardUnits b else ceilDiv (shardUnits b) 32) else 0

/-! ## Rejected blocks (R345 to R347) -/

/-- Reserved fields that are not 0, and fields out of range. -/
def badFields (b : List Byte) : Bool :=
  bits (field b 0x08 8) 17 47 ≠ 0 || bits (field b 0x10 8) 48 16 ≠ 0 || bits (field b 0x18 8) 28 36 ≠ 0 ||
  bits (field b 0x58 8) 12 52 ≠ 0 || (b.drop 0x70).any (· ≠ 0#8) ||
  2 < op b || 5 < fmt b || nax b = 0 || 4 < nax b || (List.range 3).any (fun l => 4 < wire b l) ||
  mesh b 0 * mesh b 1 * mesh b 2 ≠ count b

/-- State bytes that are not valid, name a mesh axis of size 1 other than 0, or name one twice in a layout. -/
def badLayout (b : List Byte) (l : List (Option Lay)) : Bool :=
  let ks := l.filterMap fun x => x.bind Lay.axis
  l.any Option.isNone || ks.any (fun k => k ≠ 0 && mesh b k == 1) || repeats (sortBy id ks)

/-- Sizes that do not split (R346, R347). -/
def badSizes (b : List Byte) (l : List Lay) : Bool :=
  (List.range (nax b)).any fun a =>
    let n := size b a
    match l.getD a .rep with
    | .split k => n % mesh b k ≠ 0 || (blocky b && a == 0 && n / mesh b k % 32 ≠ 0)
    | _ => blocky b && a == 0 && n % 32 ≠ 0

/-- Pairs that Table 21.7 rejects. -/
def badPair : Lay × Lay → Bool
  | (.split k, .part j) => k ≠ j
  | (.part k, .part j) => k ≠ j
  | _ => false

/-- A block that R347 rejects on its own. -/
def badBlock (b : List Byte) : Bool :=
  badFields b || badLayout b (slay b) || badLayout b (dlay b) || badSizes b (lays (slay b)) || badSizes b (lays (dlay b)) ||
  (pairs b).any (fun p => badPair p.2) ||
  (op b ≠ 0 && 3 ≤ fmt b && (lays (slay b) ++ lays (dlay b)).any fun x => match x with
    | .part _ => true
    | _ => false)

/-- Two members of one wafer with different campus ids, or reserved bits set (R345). -/
def badMembers (b ms : List Byte) : Bool :=
  (List.range (count b)).any fun r => bits (entry ms r) 56 8 ≠ 0 || bits (entry ms r) 17 15 ≠ 0 ||
    (List.range (count b)).any fun q => waferOf ms r = waferOf ms q && campusOf ms r ≠ campusOf ms q

/-- The ranks of a wafer's core in a member array. -/
def ranksOf (b ms : List Byte) (wafer core : Nat) : List Nat :=
  (List.range (count b)).filter fun r => waferOf ms r == wafer && coreOf ms r == core

/-- A tree over ranks that fails the checks of R296, at member `r`. -/
def badTree (b : List Byte) (tab : List (Nat × Nat)) (r : Nat) : Bool :=
  treeErr tab r false ≠ 0 || tab.any fun p => count b ≤ p.1

end Sys2Proof.Machine.Exch
end

