-- ==== Sys2Proof/Machine/Collectives.lean ====
section
/-! DEFINITION. Collectives, press dispatch and TWAIT (R305 to R307, R344 to R360). -/

namespace Sys2Proof.Machine

open Sys2Proof

/-! ## The collectives in flight -/

/-- A collective by its name. -/
def State.coll? (s : State) (id : Nat) : Option Coll := s.colls.find? fun x => x.id == id

/-- The state with a collective changed. -/
def State.modColl (s : State) (id : Nat) (f : Coll → Coll) : State :=
  { s with colls := s.colls.map fun x => if x.id == id then f x else x }

/-- A core index of a launch names the core where a thread is: by its home, wherever its bunch runs, or physically (R49). -/
def namesThread (s : State) (l core : Nat) (a : Agent) : Bool :=
  match s.resolve l core with
  | .member b i => a.launch == l && a.bunch == b && a.i == i
  | .physical d => (s.whereIs a).any fun p => p.1 == d

/-- The ranks of a thread's core in a member array of its launch or another (R345). -/
def ranksOf (s : State) (l : Nat) (b ms : List Byte) (a : Agent) : List Nat :=
  (List.range (Exch.count b)).filter fun r => Exch.waferOf ms r == s.wafer && namesThread s l (Exch.coreOf ms r) a

/-- The ranks of a thread's core in a collective's member array. -/
def Coll.ranks (s : State) (x : Coll) (a : Agent) : List Nat := ranksOf s x.src.launch x.block x.memb a

/-- Two threads are on one core. -/
def Agent.sameCore (a b : Agent) : Bool := a.launch == b.launch && a.bunch == b.bunch && a.i == b.i

/-- The other members. -/
def Coll.peers (x : Coll) : List Nat := (List.range (Exch.count x.block)).filter (· ≠ x.rank)

/-- A member is on this wafer. -/
def Coll.here (s : State) (x : Coll) (r : Nat) : Bool := Exch.waferOf x.memb r == s.wafer

/-- The collective that member `q` of this wafer takes part with: the n-th of its core that names this core, for the
n-th of this core that names its. -/
def mate (s : State) (x : Coll) (q : Nat) : Option Coll :=
  let it := Exch.coreOf x.memb q
  let theirs := s.colls.filter fun y => namesThread s x.src.launch it y.src && !(y.ranks s x.src).isEmpty
  match theirs.head? with
  | none => none
  | some z =>
    let mine := s.colls.filter fun y => y.src.sameCore x.src && !(y.ranks s z.src).isEmpty
    theirs[mine.findIdx fun y => y.id == x.id]?

/-- The link ports that a collective's steps cross. -/
def Coll.ports (s : State) (x : Coll) : List Nat :=
  (x.peers.filter fun r => !x.here s r).map fun r => Config.linkPortOf (Exch.campusOf x.memb r) (Exch.waferOf x.memb r) % 16

/-! ## Press cores (R306, R354) -/

/-- A core is one of port `p`'s press cores (R354). -/
def pressCore (p c : Nat) : Bool :=
  let x0 := 48 * (p % 8) + 20
  let y0 := if p < 8 then 0 else 220
  p < 16 && x0 ≤ coreX c && coreX c < x0 + 8 && y0 ≤ coreY c && coreY c < y0 + 4

/-- One launch holds every press core of a port. -/
def pressReady (s : State) (p : Nat) : Bool :=
  let cs := (List.range 32).map fun j => coreAt (48 * (p % 8) + 20 + j % 8) ((if p < 8 then 0 else 220) + j / 8)
  match cs.map fun c => (s.core c).owner.map Occ.launch with
  | some l :: rest => rest.all (· == some l)
  | _ => false

/-- BDISP's check of the dispatch word (R306). -/
def bdispStop (c : Ctx) (w : Nat) : Option Stop :=
  if w / 2 ^ 8 ≠ 0 then some (.trap Cause.illegalOperand (viewLow64 c.v))
  else if pressCore (w % 64) c.c then none else some (.trap Cause.accessPerm w)

/-- A dispatch stream. -/
def State.stream (s : State) (j : Nat) : PressStream := s.press.getD j ⟨0, 0, 0, 0⟩

/-- BDISP (R306): the stream's next index, or all ones when it is exhausted. -/
def execBdisp (h : Hdr) (d a : Opnd) (s : State) : Host.Outcome State Fault Refusal :=
  run (.bdisp h d a) (fun v =>
    { v := v, ra := some 64, wd := some 32, wide := 64, legal := namedA v.a 64 && isSlice v.d && sliceWidth v.d == 32 }) (fun c =>
    let w := c.a 64 false
    let j := 4 * (w % 64) + bits w 6 2
    let x := c.s.stream j
    let id := c.s.nextId
    orStop [bdispStop c w]
      { land := some { dest := c.ld, w := 32, value := if x.next < x.stop then x.next else 0xFFFFFFFF },
        post := fun s =>
          ({ s with press := s.press.set j { x with next := if x.next < x.stop then x.next + 1 else x.next } } : State).later
            (.resultLanding c.c c.t id) }) s

/-- The streams of a step's ports are configured (R354): staging area and stride are the device's own. -/
def configureStreams (n blocks : Nat) (ports : List Nat) (s : State) : State :=
  ports.foldl (fun s p =>
    let (i, s1) := s.fresh
    let (j, s2) := s1.fresh
    { s2 with press := s2.press.set (4 * p + n % 4) ⟨Config.freeWord i, Config.freeWord j, 0, blocks⟩ }) s

/-! ## COLL (R305, R347, R353) -/

/-- The three ranges that COLL reads: block, member array, tree. -/
def collRanges (c : Ctx) : List (Nat × Nat) :=
  let ea := c.a 64 false
  let b := c.block ea 256
  if ea % 64 ≠ 0 || (c.barred ea 256).isSome || Exch.badBlock b then [(ea, 256)]
  else [(ea, 256), (Exch.memb b, 8 * Exch.count b), (Exch.tree b, 8 * Exch.count b)]

/-- The trap of a rejected block. -/
def collTrap (bad : Bool) (ea : Nat) : Option Stop := if bad then some (.trap Cause.collReq ea) else none

/-- FMT of the outbound queue's entries is not the block's (R347). -/
def badQueue (k : Core) (b : List Byte) : Bool :=
  Exch.srcq b && (k.mat.outq.any fun e => mfmt e.fmt ≠ Exch.bfmt b || !Exch.blocky b)

/-- The tree's table is unreadable, as one of a page whose fill failed is (R125), or fails R296. -/
def badCollTree (c : Ctx) (b : List Byte) (rank : Nat) : Bool :=
  match c.barred (Exch.tree b) (8 * Exch.count b) with
  | none => Exch.badTree b (treeTable (c.block (Exch.tree b) (8 * Exch.count b))) rank
  | some (_, .page _ _ _) => c.th.blockErr
  | some (_, .later) => false
  | some _ => true

/-- The wait of a tree read. -/
def treeWait (c : Ctx) (b : List Byte) : Option Stop :=
  match c.barred (Exch.tree b) (8 * Exch.count b) with
  | some (_, .page _ _ _) => if c.th.blockErr then blocksWait c false [(Exch.tree b, 8 * Exch.count b)] else some (.wait 1 0)
  | some (_, .later) => some (.wait 1 0)
  | _ => blocksWait c false [(Exch.tree b, 8 * Exch.count b)]

/-- The checks of COLL, once block and member array are read (R347). Without an event credit it traps before it waits for one
of its four to complete (log entry 80). -/
def collStops (c : Ctx) (ea : Nat) (b ms : List Byte) : List (Option Stop) :=
  let rs := ranksOf c.s (c.s.occ c.c).launch b ms (c.s.agent c.c c.t)
  [collTrap (Exch.badMembers b ms || rs.length ≠ 1) ea, treeWait c b, collTrap (badCollTree c b (rs.headD 0)) ea,
   collTrap (badQueue (c.s.core c.c) b) ea, creditStop c.th,
   if 4 ≤ c.th.colls.countP (fun x => x.status.isNone) then some (.wait 1 0) else none]

/-- The entry of the wafer collective log (Table 21.9), or LOST where the ring has no room or the write fails. -/
def logColl (lid num tid blk : Nat) (hash : List Byte) (s : State) : State :=
  let g := s.clog
  let bytes := toBytes lid 8 ++ toBytes tid 4 ++ toBytes num 4 ++ toBytes s.now 8 ++ toBytes blk 8 ++ hash
  let full : Bool := g.mask.toNat < (g.wr - g.rd).toNat
  match (if full then none else s.physWrite (.engine 2 0) (g.base.toNat + 64 * (g.wr &&& g.mask).toNat) bytes) with
  | some s1 => { s1 with clog := { g with wr := g.wr + 1 } }
  | none => { s with clog := { g with lost := true } }

/-- Packets that members of this wafer have already sent reach a collective that is submitted. -/
def pullPackets (id : Nat) (s : State) : State :=
  match s.coll? id with
  | none => s
  | some x => (x.peers.filter (x.here s)).foldl (fun s q =>
      match mate s x q with
      | some y => y.sent.foldl (fun s p => s.later (.collStepArrival id q p)) s
      | none => s) s

/-- COLL submits (R305): log entry, credit, number, and its first step is under way. -/
def submitColl (c : Ctx) (ea : Nat) (b ms tr : List Byte) (s : State) : State :=
  let (id, s1) := s.newId
  let hash := (Sha.sha512 (b ++ ms ++ tr)).take 32
  let x : Coll :=
    { id := id, src := s.agent c.c c.t, num := c.th.collNum, blkAddr := ea, block := b, memb := ms, tree := tr,
      rank := (ranksOf s (s.occ c.c).launch b ms (s.agent c.c c.t)).headD 0, hash := hash, pc := c.th.pc, lvl := c.th.level,
      after := localOut s c.c c.t, step := 0, sent := [], got := [], nlate := 0, nskew := 0, skewed := [], drawn := [], heard := s.now, fill := none,
      ioErr := false, err := none, done := false }
  let s2 := s1.modThread c.c c.t fun th =>
    { th.takeCredit with collNum := th.collNum + 1, colls := th.colls ++ [⟨th.collNum, id, none⟩] }
  let s3 := logColl (s.desc (s.occ c.c).launch).lid c.th.collNum.toNat (tidOf s c.c c.t) ea hash s2
  let s4 : State := { s3 with colls := s3.colls ++ [x] }
  pullPackets id (s4.later (.collStepStart id))

/-- COLL (R305, R347). A fault that a target answers is deferred, and nothing is submitted. -/
def execColl (h : Hdr) (d a : Opnd) (s : State) : Host.Outcome State Fault Refusal :=
  runReading (.coll h d a) (fun v =>
    { v := v, ra := some 64, wd := some (opWidth v), wide := Nat.max 64 (opWidth v), legal := namedA v.a 64 }) collRanges (fun c =>
    let ea := c.a 64 false
    match firstStop [collTrap (ea % 64 ≠ 0) ea, blockStop c ea 256] with
    | .error e => .error e
    | .ok () =>
      match blockFault c ea 256 with
      | some (cause, x) => .ok { post := deferRead c cause x }
      | none =>
        let b := c.block ea 256
        let mr := (Exch.memb b, 8 * Exch.count b)
        match firstStop [collTrap (Exch.badBlock b) ea, blockStop c mr.1 mr.2] with
        | .error e => .error e
        | .ok () =>
          match blockFault c mr.1 mr.2 with
          | some (cause, x) => .ok { post := deferRead c cause x }
          | none =>
            let ms := c.block mr.1 mr.2
            orStop (collStops c ea b ms)
              { writes := writeLoc c.ld c.w c.th.collNum.toNat,
                post := fun s => submitColl c ea b ms (c.block (Exch.tree b) (8 * Exch.count b))
                  (c.touched [(ea, 256), mr, (Exch.tree b, 8 * Exch.count b)] s) }) s

/-! ## COLLW (R305) -/

/-- The thread's collective of a number, submitted within the last 2^31. -/
def Thread.coll? (th : Thread) (n : W32) : Option ThreadColl :=
  if (th.collNum - 1 - n).toNat < 2 ^ 31 then th.colls.find? fun x => x.num == n else none

/-- COLLW (R305): waits until the collective completes, then lands its status word. -/
def execCollw (h : Hdr) (d a : Opnd) (s : State) : Host.Outcome State Fault Refusal :=
  run (.collw h d a) (fun v =>
    { v := v, ra := some 32, wd := some 64, wide := 64, legal := namedA v.a 32 && namedD v.d 64 }) (fun c =>
    if c.th.cls = .handler then .error (.trap Cause.handlerWait (viewLow64 c.v))
    else
      let n := c.a 32 false
      match c.th.coll? (BitVec.ofNat 32 n) with
      | none => .error (.trap Cause.illegalOperand n)
      | some x =>
        match x.status with
        | none => .error (.wait 1 0)
        | some w => .ok { land := some { dest := c.ld, w := 64, value := w.toNat, cycles := some 1 } }) s

/-! ## Steps (R351, R358 to R360) -/

/-- A packet: step, sender's TIME, hash, and at step 0 the sender's shard and residuals. -/
def packet (n now : Nat) (hash data : List Byte) : List Byte := toBytes n 4 ++ toBytes now 8 ++ hash ++ data

/-- Step of a packet. -/
def packetStep (p : List Byte) : Nat := ofBytes (p.take 4)
/-- Stamp of a packet. -/
def packetStamp (p : List Byte) : Nat := ofBytes ((p.drop 4).take 8)
/-- Hash of a packet. -/
def packetHash (p : List Byte) : List Byte := (p.drop 12).take 32
/-- Data of a packet. -/
def packetData (p : List Byte) : List Byte := p.drop 44

/-- A collective ends with an error, at its completion. -/
def failColl (id err : Nat) (s : State) : State :=
  (s.modColl id fun x => { x with err := x.err.orElse fun _ => some err }).soon (.collComplete id)

/-- Every peer's packet of the present step has come. -/
def Coll.allGot (x : Coll) : Bool := x.peers.all fun r => x.got.any fun g => g.1 == x.step && g.2.1 == r

/-- A collective whose step is sent and answered by all goes on to its next step, or completes. -/
def advanceColl (id : Nat) (s : State) : State :=
  match s.coll? id with
  | none => s
  | some x =>
    if x.done || x.err.isSome || x.sent.length ≤ x.step || !x.allGot then s
    else if x.step + 1 < Exch.steps x.block then (s.modColl id fun x => { x with step := x.step + 1 }).later (.collStepStart id)
    else s.later (.collComplete id)

/-- A step is sent to the members of this wafer; those elsewhere get it over the links. -/
def sendStep (x : Coll) (p : List Byte) (s : State) : State :=
  let s1 := (x.peers.filter (x.here s)).foldl (fun s q =>
    match mate s x q with
    | some y => s.later (.collStepArrival y.id ((y.ranks s x.src).headD 0) p)
    | none => s) s
  let s2 := s1.modColl x.id fun x => { x with sent := x.sent ++ [p], heard := s.now }
  let tmo := Exch.timeout x.block
  advanceColl x.id (if tmo = 0 then s2 else s2.after (1000 * tmo) (.collMemberTimeout x.id))

/-- Who a collective's transfers are made by (R363): the collective hardware, for the launch's ASID. -/
def Coll.master (s : State) (x : Coll) : Master := .engine 2 (s.desc x.src.launch).asid

/-- What bars the accesses of a collective to a run: an end with ERR 4, a wait, or nothing. -/
inductive CollBar where
  | none
  | fail
  | page (a e q : Nat) (l : Leaf)
  | later
deriving DecidableEq, Repr

/-- What bars a collective's access to [a, a + n). -/
def collBar (s : State) (c : Nat) (x : Coll) (wr : Bool) (a n : Nat) : CollBar :=
  match firstBarred s c (x.master s) (s.desc x.src.launch).asid wr a n with
  | .none => .none
  | some (b, .page e q l) => if x.ioErr then .fail else .page b e q l
  | some (_, .later) => .later
  | some _ => .fail

/-- Goes on where nothing bars a list of runs; waits, or fails with ERR 4, where something does. -/
def whenFree (s : State) (c : Nat) (x : Coll) (again : Instr) (rs : List (Bool × Nat × Nat)) (f : State → State) : State :=
  match (rs.map fun r => collBar s c x r.1 r.2.1 r.2.2).find? (· ≠ .none) with
  | some (.page a e q l) =>
    let asid := (s.desc x.src.launch).asid
    let (s1, fid) := beginFill e q asid l a s
    (dropUnserved e asid a fid (s1.modColl x.id fun x => { x with fill := some fid })).after 100 again
  | some .later => s.after 1000 again
  | some _ => failColl x.id 4 s
  | .none => f s

/-- Bytes of the source shard. -/
def srcBytes (x : Coll) : Nat := Exch.unitBytes x.block * Exch.shardUnits x.block

/-- Outbound-queue entries a collective takes (R305): 64 blocks each. -/
def queueEntries (x : Coll) : Nat := ceilDiv (Exch.shardUnits x.block) 64

/-- Residual bytes of this member. -/
def Coll.restBytes (x : Coll) : Nat := 200 * Exch.resBlocks x.block x.memb (treeTable x.tree) x.rank

/-- A collective draws from the outbound queue and has not drawn all it takes. -/
def Coll.draws (x : Coll) : Bool :=
  Exch.srcq x.block && !x.done && x.err.isNone && x.sent.isEmpty && x.drawn.length < 64 * queueEntries x

/-- The first collective of a core that draws takes what the queue holds, entry by entry in order, as far as it needs
(R305); each entry it takes frees one. -/
def drawQueue (c : Nat) (x : Coll) (s : State) : State :=
  if ((s.colls.find? fun y => y.src.sameCore x.src && y.draws).map Coll.id) ≠ some x.id then s
  else
    let n := queueEntries x - x.drawn.length / 64
    let es := (s.core c).mat.outq.take n
    (s.modMatrix c fun m => { m with outq := m.outq.drop n }).modColl x.id fun y =>
      { y with drawn := y.drawn ++ es.flatMap OutEntry.blocks }

/-- The source shard that came by the outbound queue. -/
def Coll.queueBytes (x : Coll) : List Byte :=
  (x.drawn.take (Exch.shardUnits x.block)).flatMap fun m => Blk.toMem (Exch.bfmt x.block) m.toNat

/-- A step that starts after its slot is counted and logged (R359). -/
def noteLate (x : Coll) (s : State) : State :=
  let w := Exch.tswidth x.block
  if w ≠ 0 && Exch.tsbase x.block + (x.step + 1) * w < s.now then
    logNd x.src 4 x.pc (s.modColl x.id fun x => { x with nlate := Nat.min 0xFFFF (x.nlate + 1) })
  else s

/-- Blocks of a shard, of which a stream hands out the indices (R354). -/
def streamBlocks (b : List Byte) : Nat := if Exch.blocky b then Exch.shardUnits b else ceilDiv (Exch.shardUnits b) 32

/-- A step begins: its lateness is noted, the streams of its ports are configured, and it is sent (R354, R358, R359). -/
def beginStep (x : Coll) (data : List Byte) (s : State) : State :=
  sendStep x (packet x.step s.now x.hash data) (configureStreams x.step (streamBlocks x.block) (x.ports s) (noteLate x s))

/-- A collective's accesses have been performed (R340). -/
def Coll.touched (c : Nat) (x : Coll) (wr : Bool) (rs : List (Nat × Nat)) (s : State) : State :=
  rs.foldl (fun s r => touchVia c (x.master s) x.src x.id x.pc wr r.1 r.2 s) s

/-- Step 0 reads source and residuals and is sent. -/
def firstStep (c : Nat) (x : Coll) (s : State) : State :=
  let q := Exch.srcq x.block
  let rn := x.restBytes
  if x.draws then (drawQueue c x s).after 1 (.collStepStart x.id)
  else whenFree s c x (.collStepStart x.id)
    ((if q then [] else [(false, Exch.src x.block, srcBytes x)]) ++ [(false, Exch.res x.block, rn)]) fun s =>
    let asid := (s.desc x.src.launch).asid
    let shard := if q then x.queueBytes else readVia s c (x.master s) asid (Exch.src x.block) (srcBytes x)
    beginStep x (shard ++ readVia s c (x.master s) asid (Exch.res x.block) rn)
      (x.touched c false ((if q then [] else [(Exch.src x.block, srcBytes x)]) ++ [(Exch.res x.block, rn)]) s)

/-- A member that has seen another hash before its own step 0 still sends its hash, so that every member learns of the
difference, and then completes (R351). -/
def owesHash (x : Coll) : Bool := !x.done && x.err == some 1 && x.sent.isEmpty

/-- COLL_STEP_START (R358): a step is sent once its slot time has come, its links are up and their press cores hold a
launch. -/
def execCollStepStart (id : Nat) (s : State) : Host.Outcome State Fault Refusal :=
  .next (match s.coll? id with
    | none => s
    | some x =>
      let ports := x.ports s
      let slot := Exch.tsbase x.block + x.step * Exch.tswidth x.block
      if !owesHash x && (x.done || x.err.isSome || x.step < x.sent.length) then s
      else match s.whereIs x.src with
        | none => s.after 1000 (.collStepStart id)
        | some (c, _) =>
          if (s.core c).stopped then s.after 1000 (.collStepStart id)
          else if stillOut s x.after then s.after 1 (.collStepStart id)
          else if Exch.tswidth x.block ≠ 0 && s.now < slot then s.atTime slot (.collStepStart id)
          else if owesHash x then (sendStep x (packet 0 s.now x.hash []) s).soon (.collComplete id)
          else if ports.any fun p => !s.linkReady p then failColl id 2 s
          else if ports.any fun p => !pressReady s p then s.after 1000 (.collStepStart id)
          else if x.step = 0 then firstStep c x s
          else beginStep x [] s)

/-- A signed number clamped to 32 bits. -/
def clamp32 (d : Int) : Int := max (-(2 ^ 31 : Nat)) (min ((2 ^ 31 : Nat) - 1) d)

/-- A packet's skew (R360), against a path delay that 1588 measured (a free value): a step is counted once, and the first one
raises TIME_SKEW in the submitting thread, wherever its bunch stands. -/
def noteSkew (x : Coll) (p : List Byte) (s : State) : State :=
  let (k, s1) := s.fresh
  let d : Int := (s.now : Int) - packetStamp p - Config.delay k
  let n := packetStep p
  if d.natAbs ≤ Exch.tswidth x.block || n ∈ x.skewed then s1
  else
    let s2 := s1.modColl x.id fun x => { x with nskew := Nat.min 0xFFFF (x.nskew + 1), skewed := x.skewed ++ [n] }
    if x.skewed.isEmpty then
      let r : Raised := ⟨Cause.timeSkew, n % 2 ^ 32 + truncI (clamp32 d) 32 * 2 ^ 32, 0, 0, true, false, 0⟩
      s2.modAgent x.src fun th =>
        if th.running && th.colls.any (fun y => y.cid == x.id) then { th with async := th.async ++ [r] } else th
    else s2

/-- COLL_STEP_ARRIVAL (R360): a packet of a peer arrives, its skew is checked and its hash compared (R351). -/
def execCollStepArrival (id src : Nat) (packet : List Byte) (s : State) : Host.Outcome State Fault Refusal :=
  .next (match s.coll? id with
    | none => s
    | some x =>
      let n := packetStep packet
      if x.done || x.err.isSome || src ∉ x.peers || packet.length < 44 || x.got.any fun g => g.1 == n && g.2.1 == src then s
      else
        let s1 := noteSkew x packet s
        if packetHash packet ≠ x.hash then failColl id 1 s1
        else advanceColl id (s1.modColl id fun x => { x with got := x.got ++ [(n, src, packetData packet)] }))

/-- COLL_MEMBER_TIMEOUT (R352): nothing from a peer it awaits for TO µs. -/
def execCollMemberTimeout (id : Nat) (s : State) : Host.Outcome State Fault Refusal :=
  .next (match s.coll? id with
    | none => s
    | some x =>
      let tmo := Exch.timeout x.block
      if tmo ≠ 0 && !x.done && x.err.isNone && x.step < x.sent.length && !x.allGot && x.heard + 1000 * tmo ≤ s.now then
        failColl id 3 s
      else s)

/-! ## Completion (R352) -/

/-- The status word (Table 21.8). -/
def collStatus (x : Coll) (err : Nat) : Nat := err % 256 + x.nskew % 2 ^ 16 * 2 ^ 16 + x.nlate % 2 ^ 16 * 2 ^ 32

/-- The data of member `r` at step 0. -/
def Coll.dataOf (x : Coll) (r : Nat) : List Byte :=
  if r = x.rank then packetData (x.sent.headD [])
  else ((x.got.find? fun g => g.1 == 0 && g.2.1 == r).map fun g => g.2.2).getD []

/-- Destination and residual bytes of this member (R349, R355). -/
def Coll.outcome (x : Coll) : List Byte × List Byte :=
  let b := x.block
  let ds := (List.range (Exch.count b)).map x.dataOf
  let n := srcBytes x
  let rs := ds.map fun d => (List.range ((d.length - n) / 200)).map fun j =>
    Blk.clean .bxa (Blk.ofMem .bxa ((d.drop (n + 200 * j)).take 200))
  let r := Exch.run b x.memb (treeTable x.tree) (ds.map fun d => Exch.ofShard b (d.take n)) rs
  (Exch.toShard b (r.1.getD x.rank []), (r.2.getD x.rank []).flatMap (Blk.toMem .bxa))

/-- The record of a collective in its thread is complete, and its event is posted (R305, R352). -/
def finishColl (c t : Nat) (x : Coll) (err : Nat) (s : State) : State :=
  let st := collStatus x err
  let s1 := s.modColl x.id fun x => { x with done := true, sent := if err = 1 then x.sent else [], got := [] }
  let s2 := s1.modThread c t fun th => { th with colls := th.colls.map fun (y : ThreadColl) =>
    if y.cid = x.id then { y with status := some (BitVec.ofNat 64 st) } else y }
  (postHere c t (eventWord 5 0 x.num.toNat x.blkAddr st) s2).soon (.bunchRetire x.src.launch x.src.bunch)

/-- COLL_COMPLETE (R352): a member whose steps are all complete writes DST and RES; with an error it writes neither. -/
def execCollComplete (id : Nat) (s : State) : Host.Outcome State Fault Refusal :=
  .next (match s.coll? id with
    | none => s
    | some x =>
      if x.done || owesHash x || (x.err.isNone && (x.step + 1 < Exch.steps x.block || x.sent.length ≤ x.step || !x.allGot)) then s
      else match s.whereIs x.src with
        | none => s.after 1000 (.collComplete id)
        | some (c, t) =>
          if (s.core c).stopped then s.after 1000 (.collComplete id)
          else match x.err with
            | some e => finishColl c t x e s
            | none =>
              let (ds, rs) := x.outcome
              let asid := (s.desc x.src.launch).asid
              let rn := rs.take x.restBytes
              whenFree s c x (.collComplete id)
                [(true, Exch.dst x.block, ds.length), (true, Exch.res x.block, rn.length)] fun s =>
                finishColl c t x 0 (x.touched c true [(Exch.dst x.block, ds.length), (Exch.res x.block, rn.length)]
                  (writeVia c (x.master s) asid (Exch.res x.block) rn (writeVia c (x.master s) asid (Exch.dst x.block) ds s))))

/-! ## TWAIT (R307) -/

/-- The instruction at the thread's PC has waited with a reason. -/
def Ctx.waited (c : Ctx) (reason : Nat) : Bool := c.th.wait.any fun w => w.reason == reason && w.pc == c.th.pc

/-- TWAIT (R307). -/
def execTwait (h : Hdr) (d a : Opnd) (s : State) : Host.Outcome State Fault Refusal :=
  run (.twait h d a) (fun v =>
    { v := v, ra := some 64, wd := some (opWidth v), wide := Nat.max 64 (opWidth v), legal := namedA v.a 64 }) (fun c =>
    let t := c.a 64 false
    if c.th.cls = .handler then .error (.trap Cause.handlerWait (viewLow64 c.v))
    else if c.s.now < t then .error (.wait 10 0)
    else .ok { writes := writeLoc c.ld c.w c.s.now,
               post := fun s => if t < c.s.now && !c.waited 10 then logNd (s.agent c.c c.t) 4 c.th.pc s else s }) s

/-- WAFER_TIME_REACHES_TARGET (R307): a thread that waits for wafer time is considered again. -/
def execWaferTimeReachesTarget (c t : Nat) (s : State) : Host.Outcome State Fault Refusal :=
  .next (s.modThread c t fun th =>
    if th.wait.any fun w => w.reason == 10 then { th with tried := false } else th)

end Sys2Proof.Machine
end

