-- ==== Sys2Proof/Machine/Tasks.lean ====
section
/-! DEFINITION. Tasks, joins, barriers and the end of a thread (R30 to R33, R202, R308 to R312). -/

namespace Sys2Proof.Machine

open Sys2Proof

/-! ## Naming and placing (R30, R31) -/

/-- The trellis step with child value `c` (R30). -/
def trellisStep (d c : Nat) : Nat := trunc (rotl64 (trunc (d ^^^ (c + 1)) 64) 23 * 0x9E3779B97F4A7C15) 64

/-- The digest of the root thread with path (b, i, s) (R30). -/
def rootDigest (lid b i t : Nat) : Nat := trellisStep (trellisStep (trellisStep lid b) i) t

/-- The trellis core of a digest, as a core index of the launch (R31). -/
def trellisCore (d : Desc) (digest : Nat) : Nat :=
  let t := ((digest >>> 32) * (d.rw * d.rh)) >>> 32
  coreAt (d.x0 + t % d.rw) (d.y0 + t / d.rw)

/-- The core a child of a thread on core `c` is placed on, and whether it is away from its trellis core (R31). -/
def taskCore (s : State) (c digest : Nat) : Nat × Bool :=
  let l := (s.occ c).launch
  match remoteTest s l (trellisCore (s.desc l) digest) with
  | .go e => (e, false)
  | _ => (c, true)

/-- The lowest free slot of a core with slice room for a task's window (R31). -/
def taskSlot (k : Core) (d : Desc) : Option Nat :=
  if (k.threads.map Thread.granules).sum + d.win ≤ 256 then
    (List.range 8).find? fun t => d.roots + d.hslots ≤ t && decide ((k.thread t).kind = .free)
  else none

/-- The thread of a task at its start (R308): its window, the fields its spawner gives it, its identity. What the slot
keeps is the sequence numbers of its streams (R141), its counters, and its place in the cycle. -/
def taskThread (old : Thread) (now name win : Nat) (x : TaskDesc) : Thread :=
  { Thread.reset with
    kind := .task, running := true, granules := win, window := BitVec.ofNat 8192 (trunc x.arg x.argW <<< 256),
    pc := x.entry, status := x.status, digest := x.digest, depth := x.depth, childIx := x.childIx,
    spawner := x.spawner, parent := some x.parent, since := name,
    own := old.own, counters := old.counters, cclass := old.cclass, issuedIn := old.issuedIn, tried := old.tried,
    busyTo := Nat.max now old.busyTo }

/-- The slot in which a core may start a task now: none while its bunch is halted by HALTB (R375). -/
def openSlot (k : Core) (d : Desc) : Option Nat := if k.dbgHalt then none else taskSlot k d

/-- A task starts in a slot of a core. -/
def startTask (c t : Nat) (x : TaskDesc) (s : State) : State :=
  s.setThread c t (taskThread (s.thread c t) s.now s.nextId (s.desc (s.occ c).launch).win x)

/-- TASK_QUEUE_START (R32): the oldest task of a core starts in the lowest free slot that has room. -/
def execTaskQueueStart (c : Nat) (s : State) : Host.Outcome State Fault Refusal :=
  .next (
    let k := s.core c
    if k.owner.isNone || k.stopped then s
    else match k.taskq, openSlot k (s.desc (s.occ c).launch) with
      | x :: rest, some t =>
        let s1 := startTask c t x (s.modCore c fun k => { k with taskq := rest })
        if rest.isEmpty then s1 else s1.soon (.taskQueueStart c)
      | _, _ => s)

/-- A stalled spawner still waits for its queue (R31). -/
def stillStalled (s : State) (a : Agent) : Bool :=
  match s.whereIs a with
  | some (c, t) => (s.thread c t).running && (s.thread c t).wait.any fun w => w.reason = 8
  | none => false

/-- The spawners that stalled on a core before `a` and still wait. -/
def stalledAhead (s : State) (c : Nat) (a : Agent) : List Agent :=
  (((s.core c).stalled.filter (stillStalled s)).takeWhile (· ≠ a))

/-- The spawner joins those stalled on a core, in the order in which they stalled. -/
def stall (c : Nat) (a : Agent) (s : State) : State :=
  let keep := (s.core c).stalled.filter (stillStalled s)
  s.modCore c fun k => { k with stalled := if a ∈ keep then keep else keep ++ [a] }

/-- The child of a SPAWN (R308). -/
def childOf (c : Ctx) (entry arg argW : Nat) : TaskDesc where
  entry := BitVec.ofNat 32 entry
  arg := arg
  argW := argW
  status := BitVec.ofNat 64 (trunc c.th.status.toNat 5)
  digest := BitVec.ofNat 64 (trellisStep c.th.digest.toNat c.th.spawns)
  depth := c.th.depth + 1
  childIx := c.th.spawns
  spawner := BitVec.ofNat 32 (tidOf c.s c.c c.t)
  parent := (c.s.agent c.c c.t, c.th.since)

/-- A child enters its core (R31): its slot or its task queue. -/
def placeTask (c : Nat) (x : TaskDesc) (s : State) : State :=
  match (s.core c).taskq, openSlot (s.core c) (s.desc (s.occ c).launch) with
  | [], some t => startTask c t x s
  | q, _ => s.modCore c fun k => { k with taskq := q ++ [x] }

/-- The spawner's record of a child (R309). -/
def Thread.spawned (th : Thread) : Thread :=
  { th with joins := th.joins ++ [⟨th.spawns, none, []⟩], spawns := th.spawns + 1 }

/-- SPAWN limits (R30, R308), then the stall on a full queue (R31). -/
def spawnStop (c : Ctx) (target : Nat) : Option Stop :=
  let a := c.s.agent c.c c.t
  let k := c.s.core target
  if 255 ≤ c.th.depth ∨ 2 ^ 24 ≤ c.th.spawns ∨ 256 ≤ c.th.joins.length then some (.trap Cause.taskLimit 0)
  else if !(stalledAhead c.s target a).isEmpty ∨
      (64 ≤ k.taskq.length ∧ (openSlot k (c.s.desc (c.s.occ target).launch)).isNone) then
    some (.waitDo 8 (c.s.homeOf target) (stall target a))
  else none

/-- SPAWN (R308). -/
def execSpawn (h : Hdr) (d a b : Opnd) (s : State) : Host.Outcome State Fault Refusal :=
  run (.spawn h d a b) (fun v =>
    { v := v, ra := some 32, rb := some (ownWidth v.b 0), wd := some (opWidth v), wide := Nat.max (ownWidth v.b 0) (opWidth v),
      legal := namedA v.a 32 && !isFlag v.b && !isPort v.b && sliceWidth v.b ≤ 512 }) (fun c =>
    let w := ownWidth c.v.b 0
    let x := childOf c (c.a 32 false) (c.b w true) w
    let place := taskCore c.s c.c x.digest.toNat
    orStop [spawnStop c place.1]
      { writes := writeLoc c.ld c.w c.th.spawns, pre := Thread.spawned,
        post := fun s =>
          let s1 := if place.2 then logNd (s.agent c.c c.t) 7 c.th.pc s else s
          placeTask place.1 x (s1.modCore place.1 fun k => { k with stalled := k.stalled.filter (· ≠ s.agent c.c c.t) }) }) s

/-! ## Joins (R309, R310) -/

/-- A child's result reaches its spawner's join record (R309). The result of a spawner that has exited is discarded:
the record then holds a free value (log entry 34). -/
def Thread.childExits (th : Thread) (since child free : Nat) (result : W64) (after : List Nat) : Thread :=
  if th.since ≠ since then th else
  { th with joins := th.joins.map fun (j : JoinRec) =>
      if j.child = child then
        { j with result := some (if th.running then result else Config.freeWord free), after := if th.running then after else [] }
      else j }

/-- The record of a child a thread has spawned and not joined. -/
def Thread.join? (th : Thread) (c : Nat) : Option JoinRec := th.joins.find? fun j => j.child == c

/-- The merge operations of R310 on 64-bit results, with their flags. -/
def mergeOp (m : Nat) (ftz : Bool) (x y : Nat) : Nat × Nat :=
  match m with
  | 0 => (trunc (x + y) 64, 0)
  | 1 => Fp.encode Fp.f32 .rne ftz (Fp.add .rne (Fp.decode Fp.f32 ftz (trunc x 32)) (Fp.decode Fp.f32 ftz (trunc y 32)))
  | 2 => (if val x 64 true < val y 64 true then y else x, 0)
  | 3 => (if val y 64 true < val x 64 true then y else x, 0)
  | 4 => (x ||| y, 0)
  | _ => (x &&& y, 0)

/-- Results merged in spawn order (R310). -/
def mergeAll (m : Nat) (ftz : Bool) : List Nat → Nat × Nat
  | [] => (0, 0)
  | x :: rest => rest.foldl (fun acc y => let r := mergeOp m ftz acc.1 y; (r.1, acc.2 ||| r.2)) (x, 0)

/-- Children a JOIN names that have not exited. -/
def liveJoins (rs : List JoinRec) : Nat := rs.countP fun j => j.result.isNone

/-- JOIN's traps and its wait (R284, R310). -/
def joinStop (c : Ctx) (c0 n : Nat) : Option Stop :=
  let rs := (List.range n).map fun j => c.th.join? (c0 + j)
  if c.th.cls = .handler then some (.trap Cause.handlerWait (viewLow64 c.v))
  else if 6 ≤ bits c.immNat 8 3 then some (.trap Cause.illegalRsvd (viewLow64 c.v))
  else if rs.any Option.isNone then some (.trap Cause.taskJoin c0)
  else if 0 < liveJoins (rs.filterMap id) then some (.wait 9 (liveJoins (rs.filterMap id)))
  else none

/-- JOIN (R310). -/
def execJoin (h : Hdr) (d a : Opnd) (imm : BitVec 15) (s : State) : Host.Outcome State Fault Refusal :=
  run (.join h d a imm) (fun v =>
    { v := v, ra := some 32, wd := some (opWidth v), wide := opWidth v, legal := namedA v.a 32 }) (fun c =>
    let c0 := c.a 32 false
    let n := bits c.immNat 0 8 + 1
    let rs := (List.range n).filterMap fun j => c.th.join? (c0 + j)
    let r := mergeAll (bits c.immNat 8 3) c.th.ftz (rs.map fun j => (j.result.getD 0).toNat)
    orStop [joinStop c c0 n]
      { c.write c.w r.1 r.2 with
        pre := fun th => { th with joins := th.joins.filter fun j => j.child < c0 || c0 + n ≤ j.child }.synced
                 (rs.flatMap JoinRec.after) }) s

/-- The value of TASKID's selector (R311). -/
def taskidValue (th : Thread) (sel : Nat) : Option Nat :=
  match sel with
  | 0 => some th.digest.toNat
  | 1 => some th.childIx
  | 2 => some th.depth
  | 3 => some th.spawner.toNat
  | 4 => some th.spawns
  | _ => none

/-- TASKID (R311). -/
def execTaskid (h : Hdr) (d : Opnd) (imm : BitVec 15) (s : State) : Host.Outcome State Fault Refusal :=
  run (.taskid h d imm) (fun v => { v := v, wd := some (opWidth v), wide := opWidth v }) (fun c =>
    match taskidValue c.th c.immNat with
    | some n => .ok (c.write c.w n)
    | none => .error (.trap Cause.illegalRsvd (viewLow64 c.v))) s

/-! ## Barriers (R312) -/

/-- Barrier `id` of the bunch on a core. -/
def barrierOf (s : State) (c id : Nat) : Barrier :=
  (((s.bunch? (s.occ c).launch (s.occ c).bunch).map fun y => y.barriers.getD id ⟨0, 0, 0, [], [], []⟩)).getD ⟨0, 0, 0, [], [], []⟩

/-- The bunch of a core with barrier `id` changed. -/
def modBarrier (c id : Nat) (f : Barrier → Barrier) (s : State) : State :=
  s.modBunch (s.occ c).launch (s.occ c).bunch fun y =>
    { y with barriers := y.barriers.set id (f (y.barriers.getD id ⟨0, 0, 0, [], [], []⟩)) }

/-- A generation completes (R312): the next one begins with no arrivals. -/
def Barrier.complete (b : Barrier) : Barrier :=
  { b with g := b.g + 1, count := 0, arrivals := 0, who := [], after := [],
           last := b.last ++ b.after.filter (· ∉ b.last) }

/-- Generation `a` of a barrier at generation `g` has completed. -/
def generationDone (g : W32) (a : Nat) : Bool := (g - BitVec.ofNat 32 a - 1).toNat < 2 ^ 31

/-- The slots of a core whose root threads have not exited. -/
def Core.liveRoots (k : Core) : List Nat :=
  (List.range 8).filter fun t => decide ((k.thread t).kind = .root) && (k.thread t).running

/-- The root threads of a core's bunch that have not exited, by in-bunch index and slot. -/
def bunchRoots (s : State) (c : Nat) : List (Nat × Nat) :=
  (bunchCores s (s.occ c).launch (s.occ c).bunch).flatMap fun d => (s.core d).liveRoots.map fun t => ((s.occ d).i, t)

/-- The arrivals of barrier 0 and the root threads that have exited make up all members, and some member is left. -/
def rootsArrived (s : State) (c : Nat) (who : List (Nat × Nat)) : Bool :=
  !who.isEmpty && (bunchRoots s c).all (· ∈ who)

/-- A barrier completes if its arrivals have reached the count; a round's open windows may then close (R342). -/
def settleBarrier (c id : Nat) (s : State) : State :=
  let b := barrierOf s c id
  if (if id = 0 then rootsArrived s c b.who else b.count ≠ 0 && b.arrivals == b.count) then
    (modBarrier c id Barrier.complete s).soon (.detWindowClose (s.occ c).launch)
  else s

/-- One arrival (R312). -/
def arriveAt (c t id count : Nat) (s : State) : State :=
  let out := outstanding s c t
  settleBarrier c id (modBarrier c id (fun b =>
    { b with count := count, arrivals := b.arrivals + 1, after := b.after ++ out.filter (· ∉ b.after),
             who := if id = 0 then b.who ++ [((s.occ c).i, t)] else b.who }) s)

/-- BAR and WAITB trap HANDLER_WAIT in a handler-class thread (R284), but on barrier 0, where R312 has BAR trap BAR_COUNT
and lets the thread WAITB (log entry 25). -/
def handlerBarred (c : Ctx) (id : Nat) : Bool := c.th.cls = .handler && id ≠ 0

/-- The traps of an arrival, and the wait of a member of barrier 0 that has arrived (R312). -/
def arriveStop (c : Ctx) (id count : Nat) : Option Stop :=
  let b := barrierOf c.s c.c id
  if id = 0 then
    if c.th.kind ≠ .root then some (.trap Cause.barCount 0)
    else if ((c.s.occ c.c).i, c.t) ∈ b.who then some (.wait 6 0) else none
  else if count = 0 ∨ 4096 < count ∨ (b.count ≠ 0 ∧ b.count ≠ count) then some (.trap Cause.barCount count)
  else none

/-- The spec of BAR and ARRIVE. -/
def barSpec (v : View) : Spec :=
  { v := v, ra := some 32, wd := some (opWidth v), wide := opWidth v,
    legal := namedA v.a 32 && ((v.imm.getD 0).toNat % 16 ≠ 0 || v.a == some .zero) }

/-- ARRIVE (R312). -/
def execArrive (h : Hdr) (d a : Opnd) (imm : BitVec 15) (s : State) : Host.Outcome State Fault Refusal :=
  run (.arrive h d a imm) barSpec (fun c =>
    let id := c.immNat % 16
    let count := c.a 32 false
    orStop [arriveStop c id count]
      { writes := writeLoc c.ld c.w (barrierOf c.s c.c id).g.toNat, post := arriveAt c.c c.t id count }) s

/-- BAR arrives and waits: the mark it leaves is the generation it has arrived in (R312). The mark is that BAR's alone. -/
def barMark (c : Ctx) (id count g : Nat) (s : State) : State :=
  arriveAt c.c c.t id count (s.modMe fun th => { th with loops := { th.loops with bar := some (id, g, th.pc) } })

/-- A thread takes what a barrier's arrivals released (R140, R312). -/
def barrierSync (c : Ctx) (id : Nat) (s : State) : State :=
  s.modMe fun th => th.synced (barrierOf s c.c id).last

/-- An arrival now would complete the barrier's generation. -/
def completesNow (c : Ctx) (id count : Nat) : Bool :=
  let b := barrierOf c.s c.c id
  if id = 0 then rootsArrived c.s c.c (b.who ++ [((c.s.occ c.c).i, c.t)]) else b.arrivals + 1 == count

/-- The generation of barrier `id` in which the BAR at hand has arrived, while it waits. -/
def Ctx.arrivedIn (c : Ctx) (id : Nat) : Option Nat :=
  (c.th.loops.bar.filter fun m => m.1 == id && m.2.2 == c.th.pc).map fun m => m.2.1

/-- BAR (R312): an arrival, then a wait for its generation; a handler's at barrier 0 follows R312 (log entry 25). -/
def execBar (h : Hdr) (d a : Opnd) (imm : BitVec 15) (s : State) : Host.Outcome State Fault Refusal :=
  run (.bar h d a imm) barSpec (fun c =>
    let id := c.immNat % 16
    let count := c.a 32 false
    let b := barrierOf c.s c.c id
    if handlerBarred c id then .error (.trap Cause.handlerWait (viewLow64 c.v)) else
    match c.arrivedIn id with
    | some g =>
      if generationDone b.g g then .ok { writes := writeLoc c.ld c.w g, post := barrierSync c id }
      else .error (.wait 6 id)
    | none =>
      orStop [arriveStop c id count,
          if completesNow c id count then none else some (.waitDo 6 id (barMark c id count b.g.toNat))]
        { writes := writeLoc c.ld c.w b.g.toNat, post := fun s => barrierSync c id (arriveAt c.c c.t id count s) }) s

/-- WAITB (R312). No generation of barrier 0 is still to complete once every root thread has exited. -/
def execWaitb (h : Hdr) (a : Opnd) (imm : BitVec 15) (s : State) : Host.Outcome State Fault Refusal :=
  run (.waitb h a imm) (fun v => { v := v, ra := some 32, wide := 32, legal := namedA v.a 32 }) (fun c =>
    let id := c.immNat % 16
    let b := barrierOf c.s c.c id
    if handlerBarred c id then .error (.trap Cause.handlerWait (viewLow64 c.v))
    else if generationDone b.g (c.a 32 false) || (id == 0 && (bunchRoots c.s c.c).isEmpty) then .ok { post := barrierSync c id }
    else .error (.wait 6 id)) s

/-! ## The end of a thread (R202) -/

/-- A root thread ends: its slot stays live, and it counts as arrived at barrier 0. -/
def exitRoot (c t : Nat) (s : State) : State :=
  (settleBarrier c 0 (endProgram c t s)).soon (.detWindowClose (s.occ c).launch)

/-- A task ends: its result goes to its spawner, and its slot, window, queues and matrix slots are free (R238, R309). -/
def exitTask (c t : Nat) (th : Thread) (s : State) : State :=
  let out := outstanding s c t
  let s1 := leaveSlots c t (endProgram c t s)
  let old := s1.thread c t
  let s2 := s1.setThread c t { Thread.reset with
    own := old.own, counters := old.counters, cclass := old.cclass, issuedIn := old.issuedIn, tried := old.tried, busyTo := old.busyTo }
  let s3 := match th.parent with
    | some (a, since) =>
      ({ s2 with freeCount := s2.freeCount + 1 } : State).modAgent a fun p =>
        p.childExits since th.childIx s2.freeCount (BitVec.ofNat 64 (bits th.allWritten.toNat 256 64)) out
    | none => s2
  s3.soon (.taskQueueStart c)

/-- EXIT (R202). -/
def execExit (h : Hdr) (s : State) : Host.Outcome State Fault Refusal :=
  run (.exit h) (fun v => { v := v }) (fun c =>
    if c.th.kind = .handler then .error (.trap Cause.handlerExit 0)
    else if c.th.busyOf 0x7F ≠ 0 then .error (.wait 1 (c.th.busyOf 0x7F))
    else .ok { post := fun s =>
      (if c.th.kind = .task then exitTask c.c c.t c.th s else exitRoot c.c c.t s).soon (.roundEnd (s.occ c.c).launch) }) s

end Sys2Proof.Machine
end

