-- ==== Sys2Proof/Machine/System.lean ====
section
/-! DEFINITION. System instructions: maintenance, traps, CSRs and IDLE (R314 to R319). -/

namespace Sys2Proof.Machine

open Sys2Proof

/-! ## Dirty log and translations (R314, R315) -/

/-- A merge of a core's log begins, whatever it holds (R129). -/
def beginMerge (c : Nat) (s : State) : State :=
  if (s.core c).merging then s
  else
    let (i, s1) := s.fresh
    (s1.modCore c fun k => { k with merging := true }).after (Config.delay i % 2000) (.dlogMerge c)

/-- DLOGH (R314). -/
def execDlogh (h : Hdr) (s : State) : Host.Outcome State Fault Refusal :=
  run (.dlogh h) (fun v => { v := v }) (fun c =>
    .ok { land := some { dest := .zero, w := 0, kind := .merge, missing := 1 }, post := beginMerge c.c }) s

/-- TINV (R315). -/
def execTinv (h : Hdr) (a : Opnd) (imm : BitVec 15) (s : State) : Host.Outcome State Fault Refusal :=
  run (.tinv h a imm) (fun v => { v := v, ra := some 64, wide := 64, legal := namedA v.a 64 }) (fun c =>
    let kind := c.immNat % 4
    if c.th.level = 0 then .error (.trap Cause.privOp (viewLow64 c.v))
    else if kind = 3 then .error (.trap Cause.illegalRsvd (viewLow64 c.v))
    else
      let id := c.s.nextId
      .ok { land := some { dest := .zero, w := 0, kind := .tinv kind (c.s.asidOf c.c) (c.a 64 false) },
            post := fun s => s.later (.resultLanding c.c c.t id) }) s

/-! ## Traps by instruction (R316, R325) -/

/-- TRAP and SYSC: a synchronous cause that returns to PC + 1; no frame counts down (log entry 35). -/
def softTrap (i : Instr) (cause : Nat) (s : State) : Host.Outcome State Fault Refusal :=
  run i (fun v => { v := v }) (fun c =>
    .ok { jump := some (c.th.pc + 1, false),
          post := takeCause c.c c.t ⟨cause, c.immNat, c.th.pc + 1, c.th.pc, false, false, 0⟩ }) s

/-- TRAP (R316). -/
def execTrap (h : Hdr) (imm : BitVec 15) (s : State) : Host.Outcome State Fault Refusal :=
  softTrap (.trap h imm) Cause.softTrap s

/-- SYSC (R316). -/
def execSysc (h : Hdr) (imm : BitVec 15) (s : State) : Host.Outcome State Fault Refusal :=
  softTrap (.sysc h imm) Cause.syscall s

/-- BRK halts its thread instead of trapping: breakpoint halting is enabled at invasive level (R316, R374). -/
def State.brkHalts (s : State) : Bool := s.dbg.brk && s.dbg.level == 2

/-- BRK (R316). -/
def execBrk (h : Hdr) (imm : BitVec 15) (s : State) : Host.Outcome State Fault Refusal :=
  run (.brk h imm) (fun v => { v := v }) (fun c =>
    .ok { jump := some (c.th.pc + 1, false),
          post := fun s =>
            if s.brkHalts then haltThread c.c c.t s
            else takeCause c.c c.t ⟨Cause.breakpoint, c.immNat, c.th.pc + 1, c.th.pc, false, false, 0⟩ s }) s

/-- The return of the executing thread (R325), 8 positions in all; the fault it has handled counts as acknowledged (R326). -/
def returnFromTrap (s : State) : State :=
  let th := s.me
  let s1 := s.modMe fun th => { th.returned with pos := th.pos + 7 }
  match th.deferOn, s1.me.deferOn with
  | some o, none => acknowledgeFault s.myAgent o s1
  | _, _ => s1

/-- ERET (R316, R325). -/
def execEret (h : Hdr) (s : State) : Host.Outcome State Fault Refusal :=
  run (.eret h) (fun v => { v := v }) (fun c =>
    if c.th.cls ≠ .trap || !c.th.mayReturn then .error (.trap Cause.privOp (viewLow64 c.v))
    else .ok { jump := some (c.th.pc, false), post := returnFromTrap }) s

/-- IDLE (R316). -/
def execIdle (h : Hdr) (s : State) : Host.Outcome State Fault Refusal :=
  run (.idle h) (fun v => { v := v }) (fun c =>
    if c.th.cls = .handler then .error (.trap Cause.handlerWait (viewLow64 c.v))
    else if c.th.evq.isEmpty then .error (.wait 7 0)
    else .ok {}) s

/-! ## CSRs (R317, R318) -/

/-- Which levels read a CSR and which write it (Table 17.11): U reads, U writes, S writes. None outside the table. -/
def csrMode (n : Nat) : Option (Bool × Bool × Bool) :=
  if n ≤ 0x002 then some (true, true, true)
  else if n ≤ 0x005 then some (true, false, false)
  else if n ≤ 0x00A then some (true, false, true)
  else if 0x010 ≤ n ∧ n ≤ 0x01F then some (true, false, false)
  else if n = 0x020 then some (true, false, true)
  else if 0x030 ≤ n ∧ n ≤ 0x036 then some (true, true, true)
  else if 0x080 ≤ n ∧ n ≤ 0x08F then some (true, false, true)
  else if 0x100 ≤ n ∧ n ≤ 0x13F then some (true, false, true)
  else if 0x200 ≤ n ∧ n ≤ 0x204 then some (false, false, true)
  else none

/-- `ndcctl` (Table 21.4). -/
def ndcctlWord (y : Bunch) : W64 :=
  BitVec.ofNat 64 (b2n y.ndOvf * 2 ^ 8 + y.ndc.countP fun e => fieldOf e 0 8 ≠ 0)

/-- The bunch on a core. -/
def bunchOn (s : State) (c : Nat) : Option Bunch := s.bunch? (s.occ c).launch (s.occ c).bunch

/-- CSRs of a thread, numbered below 0x100 and from 0x200. -/
def Thread.csr (th : Thread) (n : Nat) : W64 :=
  match n with
  | 0x000 => th.status
  | 0x001 => th.fflags
  | 0x002 => th.portcfg
  | 0x004 => th.rstat
  | 0x006 => th.loops.repstate
  | 0x007 => th.loops.loopst0
  | 0x008 => th.loops.loopst1
  | 0x030 => th.tvec
  | 0x031 => th.temask0
  | 0x032 => th.temask1
  | 0x033 => th.cause
  | 0x034 => th.tval
  | 0x035 => th.epc
  | 0x036 => th.estat
  | 0x200 => th.stvec
  | 0x201 => th.scause
  | 0x202 => th.stval
  | 0x203 => th.sepc
  | 0x204 => th.sestat
  | _ => if 0x080 ≤ n ∧ n ≤ 0x08F then th.counters.getD (n - 0x080) 0 else 0

/-- The value of a CSR as slot `t` of core `c` reads it (Table 17.11). -/
def csrRead (s : State) (c t n : Nat) : W64 :=
  let k := s.core c
  match n with
  | 0x003 => k.round
  | 0x005 => k.mbxcfg
  | 0x009 => k.dlogbase
  | 0x00A => k.dlogidx
  | 0x020 => ((bunchOn s c).map ndcctlWord).getD 0
  | _ =>
    if 0x010 ≤ n ∧ n ≤ 0x01F then ((bunchOn s c).map fun y => y.ndc.getD (n - 0x010) 0).getD 0
    else if 0x100 ≤ n ∧ n ≤ 0x11F then k.rtbase.getD (n - 0x100) 0
    else if 0x120 ≤ n ∧ n ≤ 0x13F then k.rtlim.getD (n - 0x120) 0
    else (s.thread c t).csr n

/-- A write that R111 refuses: an entry made valid with a reserved TYPE, or ORD 3 outside EDGE. -/
def badRange (n : Nat) (v : W64) : Bool :=
  0x120 ≤ n && n ≤ 0x13F && v.getLsbD 15 &&
    (5 ≤ fieldOf v 12 3 || (fieldOf v 10 2 == 3 && fieldOf v 12 3 ≠ 2))

/-- `status` after a write at a level (Table 17.12). -/
def statusWrite (old v : W64) (lvl : Nat) : W64 :=
  let low := if lvl = 0 then putBits v 4 1 (fieldOf old 4 1) else v
  putBits old 0 5 (fieldOf low 0 5)

/-- `portcfg` after a write (Table 3.4). -/
def portcfgWrite (old v : W64) : W64 :=
  BitVec.ofNat 64 (fieldOf v 0 10 + fieldOf (old &&& ~~~v) 16 10 * 2 ^ 16)

/-- The bits of `estat` and `sestat` that hold fields (Table 19.1). -/
def estatMask : W64 := 0xFFFFFFFF00F80F00

/-- A CSR of a thread written at a level; reserved and read-only fields ignore the write (R317). -/
def Thread.csrWrite (th : Thread) (n : Nat) (v : W64) (lvl : Nat) : Thread :=
  match n with
  | 0x000 => { th with status := statusWrite th.status v lvl }
  | 0x001 => { th with fflags := v &&& 0x1FF }
  | 0x002 => { th with portcfg := portcfgWrite th.portcfg v }
  | 0x006 => { th with loops := { th.loops with repstate := v &&& 0x3FFFFFFFFFFFFF, beats := none } }
  | 0x007 => { th with loops := { th.loops with loopst0 := v &&& 0x8FFFFFFFFFFFFFFF } }
  | 0x008 => { th with loops := { th.loops with loopst1 := v &&& 0x8FFFFFFFFFFFFFFF } }
  | 0x030 => { th with tvec := v &&& 0xFFFFFFFF }
  | 0x031 => { th with temask0 := v }
  | 0x032 => { th with temask1 := v }
  | 0x033 => { th with cause := v }
  | 0x034 => { th with tval := v }
  | 0x035 => { th with epc := v }
  | 0x036 => { th with estat := v &&& estatMask }
  | 0x200 => { th with stvec := v &&& 0xFFFFFFFF }
  | 0x201 => { th with scause := v }
  | 0x202 => { th with stval := v }
  | 0x203 => { th with sepc := v }
  | 0x204 => { th with sestat := v &&& estatMask }
  | _ => if 0x080 ≤ n ∧ n ≤ 0x08F then { th with counters := th.counters.set (n - 0x080) v } else th

/-- `dlogbase` after a write (R128): an offset that is no multiple of 8, or whose 2 KiB reach the code region, leaves it. -/
def dlogbaseWrite (old v : W64) : W64 := if v.toNat % 8 = 0 ∧ v.toNat + 2048 ≤ codeBase then v else old

/-- A CSR of the core or the bunch written. -/
def csrWriteShared (c n : Nat) (v : W64) (s : State) : State :=
  match n with
  | 0x009 => s.modCore c fun k => { k with dlogbase := dlogbaseWrite k.dlogbase v }
  | 0x00A => startMerge c (s.modCore c fun k => { k with dlogidx := BitVec.ofNat 64 (Nat.min (fieldOf v 0 9) 256) })
  | 0x020 => if v.getLsbD 9 then
      s.modBunch (s.occ c).launch (s.occ c).bunch fun y => { y with ndc := List.replicate 16 0, ndOvf := false } else s
  | _ =>
    if 0x100 ≤ n ∧ n ≤ 0x11F then
      s.modCore c fun k => { k with rtbase := k.rtbase.set (n - 0x100) (v &&& 0xFFFFFFFFFFFF0000) }
    else if 0x120 ≤ n ∧ n ≤ 0x13F then
      s.modCore c fun k => { k with rtlim := k.rtlim.set (n - 0x120) (v &&& 0xFFFFFFFFFFFFFFFE) }
    else s

/-- A CSR as slot `t` of core `c` leaves it after a write at a level (Table 17.11). -/
def csrWrite (c t n : Nat) (v : W64) (lvl : Nat) (s : State) : State :=
  csrWriteShared c n v (s.modThread c t fun th => th.csrWrite n v lvl)

/-- The CSR number of an instruction. -/
def Ctx.csrNum (c : Ctx) : Nat := c.immNat % 2 ^ 12

/-- The traps of a CSR access (R317); `w` for one that writes. -/
def csrStop (c : Ctx) (w : Bool) (v : W64) : Option Stop :=
  let n := c.csrNum
  match csrMode n with
  | none => some (.trap Cause.illegalCsr n)
  | some (ru, wu, ws) =>
    let u : Bool := c.th.level = 0
    if (u && !ru) || (w && !(if u then wu else ws)) then some (.trap Cause.csrPriv n)
    else if w && badRange n v then some (.trap Cause.illegalRsvd (viewLow64 c.v))
    else none

/-- The old value of the CSR at hand. -/
def Ctx.csrOld (c : Ctx) : W64 := csrRead c.s c.c c.t c.csrNum

/-- CSRR (R317). -/
def execCsrr (h : Hdr) (d : Opnd) (imm : BitVec 15) (s : State) : Host.Outcome State Fault Refusal :=
  run (.csrr h d imm) (fun v => { v := v, wd := some (opWidth v), wide := opWidth v }) (fun c =>
    orStop [csrStop c false 0] (c.write c.w c.csrOld.toNat)) s

/-- CSRW, CSRS and CSRC: the new value from the old one and A; it stands from the next instruction on (R317). Table 17.1 names
A's width for CSRW alone, which extends it with zeros; CSRS and CSRC read A as R60 has it for X = 0 (log entry 76). -/
def csrChange (i : Instr) (named : Bool) (f : W64 → W64 → W64) (s : State) : Host.Outcome State Fault Refusal :=
  run i (fun v => { v := v, ra := some 64, wd := some (opWidth v), wide := Nat.max 64 (opWidth v), legal := !named || namedA v.a 64 }) (fun c =>
    let v := f c.csrOld (BitVec.ofNat 64 (c.a 64 named))
    orStop [csrStop c true v]
      { c.write c.w c.csrOld.toNat with post := csrWrite c.c c.t c.csrNum v c.th.level }) s

/-- CSRW (R317). -/
def execCsrw (h : Hdr) (d a : Opnd) (imm : BitVec 15) (s : State) : Host.Outcome State Fault Refusal :=
  csrChange (.csrw h d a imm) true (fun _ a => a) s

/-- CSRS (R317). -/
def execCsrs (h : Hdr) (d a : Opnd) (imm : BitVec 15) (s : State) : Host.Outcome State Fault Refusal :=
  csrChange (.csrs h d a imm) false (fun old a => old ||| a) s

/-- CSRC (R317). -/
def execCsrc (h : Hdr) (d a : Opnd) (imm : BitVec 15) (s : State) : Host.Outcome State Fault Refusal :=
  csrChange (.csrc h d a imm) false (fun old a => old &&& ~~~a) s

end Sys2Proof.Machine
end

