-- ==== Sys2Proof/Machine/Sequencer.lean ====
section
/-! DEFINITION. The launch sequencer: queues, descriptor checks, completion records and the end of a launch
(R16 to R23, R43, R50, R313, R334, R335, R388). -/

namespace Sys2Proof.Machine

open Sys2Proof

/-! ## Launch queues -/

/-- Launch queue `q`. -/
def State.lq (s : State) (q : Nat) : LQueue := s.lqs.getD q .reset

/-- The state with a launch queue changed. -/
def State.modLq (s : State) (q : Nat) (f : LQueue → LQueue) : State := { s with lqs := s.lqs.set q (f (s.lq q)) }

/-- The launch sequencer as a master (R363). -/
def sequencer : Master := .engine 5 0

/-- A queue halts with an error code (Table 1.2). -/
def LQueue.stop (x : LQueue) (err : Nat) : LQueue := { x with halt := true, err := err }

/-- A completion ring is full (R23). -/
def LQueue.full (x : LQueue) : Bool := (x.cwr - x.crd).toNat > x.cmask.toNat

/-- The queue reads descriptors and starts launches: enabled, not halted, and no record held (R17, R23). -/
def LQueue.runs (x : LQueue) : Bool := x.en && !x.halt && x.heldRecs.isEmpty

/-- Writes one record of a queue, at a slot of its ring (R23). -/
def writeRecord (q : Nat) (r : Record) (s : State) : State :=
  let x := s.lq q
  if x.full || x.stuck then s.modLq q fun x => { x with heldRecs := x.heldRecs ++ [r] }
  else
    match s.physWrite sequencer (x.cbase.toNat + 32 * (x.cwr &&& x.cmask).toNat) (wordBytes r.words) with
    | some s1 =>
      let s2 := s1.modLq q fun x => { x with cwr := x.cwr + 1 }
      if x.msix then s2.signal q else s2
    | none => s.modLq q fun x => { x.stop 3 with heldRecs := x.heldRecs ++ [r], stuck := true }

/-- Writes the held records of a queue in order, as far as they go (R23); the queue then reads on. -/
def flushRecords (q : Nat) (s : State) : State :=
  let rs := (s.lq q).heldRecs
  (rs.foldl (fun s r => writeRecord q r s) (s.modLq q fun x => { x with heldRecs := [] })).soon (.descriptorRead q)

/-- A completion record (Table 1.5). -/
def recordWords (lid status reason rounds tend entries : Nat) (ndlog : Bool) : List W64 :=
  [BitVec.ofNat 64 lid, BitVec.ofNat 64 (status % 2 ^ 16 + reason % 2 ^ 16 * 2 ^ 16 + rounds % 2 ^ 32 * 2 ^ 32),
   BitVec.ofNat 64 tend, BitVec.ofNat 64 (entries % 2 ^ 32 + b2n ndlog * 2 ^ 32)]

/-- A bunch's cause log holds an entry or has overflowed (R341). -/
def Bunch.logged (y : Bunch) : Bool := y.ndOvf || y.ndc.any fun e => fieldOf e 0 8 ≠ 0

/-- The record of a launch. -/
def Launch.record (x : Launch) (now status reason entries : Nat) : List W64 :=
  recordWords x.desc.lid status reason x.roundsDone now entries (x.ndlog || x.bunches.any Bunch.logged)

/-- A launch's record goes to its queue's ring, or as an event to the thread that launched it, which gets no
DEADLOCK record (R22, R23, R313). -/
def postRecord (x : Launch) (status reason entries : Nat) (s : State) : State :=
  let ws := x.record s.now status reason entries
  match x.source with
  | .queue q _ => flushRecords q (s.modLq q fun y => { y with heldRecs := y.heldRecs ++ [⟨ws, none⟩] })
  | .device who _ num addr _ =>
    if status = 2 then s
    else postEvent none who (eventWord 6 0 num.toNat addr (ofBytes (wordBytes ws))) [] s

/-! ## Descriptors (R19, R20) -/

/-- The descriptor in 192 bytes. -/
def descOf (addr : Nat) (bs : List Byte) : Desc :=
  ⟨addr, (lanes (ofBytes bs) 64 24).map (BitVec.ofNat 64)⟩

/-- An ASID has a valid root entry at a ready edge port (R385). -/
def rootAt (s : State) (asid p : Nat) : Bool :=
  let rtab := (s.edgePort p).rtab
  s.edgeReady p && rtab.getLsbD 0 &&
  match walkRead s p (fieldOf rtab 17 35 * 2 ^ 17 + 8 * asid) with
  | .ok r => r.getLsbD 0 && fieldOf r 52 12 == 0 && fieldOf r 1 15 == 0
  | .error _ => false

/-- A reserved bit of the descriptor is set (Table 1.3). -/
def Desc.reserved (d : Desc) : Bool :=
  d.field 4 39 25 ≠ 0 || d.field 4 35 1 ≠ 0 || d.field 4 28 4 ≠ 0 || d.field 6 52 12 ≠ 0 ||
  [11, 12, 13, 14, 15].any fun k => d.field k 0 64 ≠ 0

/-- Fields within a descriptor's region. -/
def Desc.fields (d : Desc) : List Nat :=
  (List.range 48).filter fun f =>
    let x := f % 12 * 32
    let y := f / 12 * 56
    d.x0 < x + 32 && x < d.x0 + d.rw && d.y0 < y + 56 && y < d.y0 + d.rh

/-- The first check of Table 1.4 that a descriptor fails; 0 for none. `issuer` is the master matched for reason 9. -/
def rejection (s : State) (d : Desc) (issuer : Option Master) : Nat :=
  if !((List.range 64).any (rootAt s d.asid)) then 1
  else if d.reserved || 5 ≤ d.stagemode then 2
  else if 32 < d.w || 32 < d.h || 64 < d.w * d.h then 3
  else if 8 < d.roots + d.hslots || d.win < 4 || d.hwin < 10 then 4
  else if 256 < d.roots * d.win + d.hslots * d.hwin then 5
  else if d.codelen = 0 || d.codelen % 10 ≠ 0 || 98304 < d.codelen || d.codelen / 10 ≤ d.entry then 6
  else if meshW < d.x0 + d.rw || meshH < d.y0 + d.rh || d.rw < d.w || d.rh < d.h then 7
  else if d.rounds = 0 || d.bcount = 0 then 8
  else if !(issuer.any s.mayLaunch && s.mayLaunch (.thread d.asid 0)) then 9
  else if !(d.fields.any s.fieldReady) then 10
  else 0

/-- A launch read from a descriptor, not yet started. -/
def newLaunch (id : Nat) (d : Desc) (src : Source) (prio : Nat) : Launch where
  id := id
  desc := d
  source := src
  prio := prio
  started := false
  round := 1
  roundsDone := 0
  bunches := []
  ndlog := false
  quiet := 0
  armed := true
  ended := false
  fatal := none
  final := none
  fills := []
  badFills := []
  report := none

/-- Grafting of a field is due. -/
def graftDue (s : State) (f : Nat) : Bool := s.timers.any fun p => match p.2 with
  | .grafting g _ => f == g
  | _ => false

/-- A draining field that no bunch occupies is grafted again within 200 µs (R13); whether it becomes ready is free. -/
def graftDrained (s : State) (f : Nat) : State :=
  if graftDue s f || s.cores.any (fun p => p.2.owner.isSome && fieldOfCore p.1 == f) then s
  else
    let (k, s1) := s.fresh
    let (ok, s2) := s1.choose
    s2.after (Config.delay k % 200000) (.grafting f ok)

/-- Placement is tried again (R18): bunches that may return, launches that have started, then the heads of the queues
by rank, the device queue of a priority before its launch queue (R22). -/
def kickPlacing (s : State) : State :=
  let back := s.launches.flatMap fun x => (x.bunches.filter Bunch.ready).map fun y => Instr.bunchSwapIn x.id y.idx
  let more := (s.launches.filter fun x => x.hasUnplaced && !x.ended).map fun x => Instr.bunchPlace x.id
  let heads := (List.range 16).reverse.flatMap fun p =>
    (((s.devq.getD p []).take 1) ++ (s.waitq.getD p none).toList).map fun x => Instr.bunchPlace x.id
  (back ++ more ++ heads).foldl (fun s i => s.soon i) (s.draining.foldl graftDrained s)

/-- A descriptor that was read is checked (R20): it waits at the head of its queue, or its REJECTED record is written and
it counts as consumed. -/
def takeDescriptor (q : Nat) (d : Desc) (s : State) : State :=
  let x := s.lq q
  let l := newLaunch s.nextLaunch d (.queue q x.issuer) q
  let s1 : State := { s with nextLaunch := s.nextLaunch + 1 }
  match rejection s d (x.issuer.map Master.host) with
  | 0 => kickPlacing { s1 with waitq := s1.waitq.set q (some l) }
  | why => postRecord l 1 why 0 (s1.modLq q fun x => { x with cons := true })

/-- The sequencer reads the descriptor at HEAD (R17). -/
def readDescriptor (q : Nat) (s : State) : State :=
  let a := (s.lq q).head.toNat
  match (if a % 64 = 0 then s.physRead sequencer a 192 else none) with
  | some bs => takeDescriptor q (descOf a bs) s
  | none => s.modLq q (·.stop 2)

/-- DESCRIPTOR_READ (R17): what the sequencer does next at a queue. A consumed descriptor at TAIL waits; else its NEXT is
taken, and the descriptor there is read. -/
def execDescriptorRead (q : Nat) (s : State) : Host.Outcome State Fault Refusal :=
  .next (
    let x := s.lq q
    if !x.runs || (s.waitq.getD q none).isSome then s
    else if !x.cons then readDescriptor q s
    else if x.head = x.tail then s
    else match s.physRead sequencer x.head.toNat 8 with
      | none => s.modLq q (·.stop 2)
      | some bs =>
        if ofBytes bs = 0 then s.modLq q (·.stop 1)
        else readDescriptor q (s.modLq q fun x => { x with head := BitVec.ofNat 64 (ofBytes bs), cons := false }))

/-- The value a transaction leaves in its register: bytes it does not write keep theirs. -/
def State.busValue (s : State) : Nat := s.bus.word (mmioWord s s.bus.reg)

/-- The launch queue whose register the transaction at hand writes. -/
def State.busQueue (s : State) : Nat := (s.bus.reg - 0x10000) / 0x40

/-- LQ_TAIL_WRITE (R17, R20): a write that changes TAIL records the host port it came from. -/
def execLqTailWrite (s : State) : Host.Outcome State Fault Refusal :=
  onBus .lqTailWrite (fun s =>
    let q := s.busQueue
    let v := BitVec.ofNat 64 s.busValue
    let s1 := s.modLq q fun x =>
      { x with tail := v
               issuer := match s.bus.who with
                 | .host p => if v ≠ x.tail then some p else x.issuer
                 | _ => x.issuer }
    s1.soon (.descriptorRead q)) s

/-- LQ_HEAD_WRITE (Table 1.2): only while EN = 0; it clears CONS. -/
def execLqHeadWrite (s : State) : Host.Outcome State Fault Refusal :=
  onBus .lqHeadWrite (fun s =>
    let v := BitVec.ofNat 64 s.busValue
    s.modLq s.busQueue fun x => if x.en then x else { x with head := v, cons := false }) s

/-- LQ_ENABLE (R17, R23): held records are written first. -/
def execLqEnable (s : State) : Host.Outcome State Fault Refusal :=
  onBus .lqEnable (fun s =>
    let q := s.busQueue
    let msix := s.busValue.testBit 1
    flushRecords q (s.modLq q fun x => { x with en := true, msix := msix, stuck := x.stuck && x.en })) s

/-- LQ_DISABLE (Table 1.2): HALT is cleared; a head not yet started is read again when EN is set. -/
def execLqDisable (s : State) : Host.Outcome State Fault Refusal :=
  onBus .lqDisable (fun s =>
    let q := s.busQueue
    let msix := s.busValue.testBit 1
    kickPlacing { s.modLq q (fun x => { x with en := false, msix := msix, halt := false }) with
      waitq := s.waitq.set q none }) s

/-- LQ_CRD_WRITE (R23): held records are written as room allows. -/
def execLqCrdWrite (s : State) : Host.Outcome State Fault Refusal :=
  onBus .lqCrdWrite (fun s =>
    let q := s.busQueue
    let v := BitVec.ofNat 32 s.busValue
    kickPlacing (flushRecords q (s.modLq q fun x => { x with crd := v }))) s

/-! ## Sequencer accesses under an ASID (R388) -/

/-- Where a run is reached under an ASID, through the port of address bits [26:21]; `need` is the leaf's bit that grants it. -/
def seqRun (s : State) (m : Master) (asid need : Nat) (wr : Bool) (va n : Nat) : Reach :=
  let q := bits va 21 6
  match walk s q asid va with
  | .error e => .fails e
  | .ok l => if !l.pte.getLsbD need then .fails Cause.edgePerm else reachGranted s q l m va n wr

/-- The runs of an access and where each is reached. -/
def seqRuns (s : State) (m : Master) (asid need : Nat) (wr : Bool) (va n : Nat) : List (Nat × Nat × Nat × Reach) :=
  (pageRuns va n).map fun r => (r.1, r.2.1, r.2.2, seqRun s m asid need wr r.1 r.2.2)

/-- What becomes of a sequencer access: it may go on, it waits for a page, or it fails. -/
inductive SeqTest where
  | ready
  | page (a e q : Nat) (l : Leaf)
  | fails

/-- R388: an access of a launch to [va, va + n); `what` is its number among the launch's fills. -/
def seqTest (s : State) (x : Launch) (what : Nat) (m : Master) (need : Nat) (wr : Bool) (va n : Nat) : SeqTest :=
  if what ∈ x.badFills then .fails
  else match (seqRuns s m x.desc.asid need wr va n).find? fun r => !r.2.2.2.ok with
    | none => .ready
    | some (a, _, _, .page e q l) => .page a e q l
    | some _ => .fails

/-- A launch waits for the fill of a page (R388). -/
def seqWait (l what a e q : Nat) (lf : Leaf) (s : State) : State :=
  let asid := (s.desc l).asid
  let (s1, id) := beginFill e q asid lf a s
  dropUnserved e asid a id (s1.modLaunch l fun x => { x with fills := (x.fills.filter fun p => p.2 ≠ what) ++ [(id, what)] })

/-- The bytes of a sequencer read that may go on. -/
def seqBytes (s : State) (m : Master) (asid need va n : Nat) : List Byte :=
  (seqRuns s m asid need false va n).flatMap fun r => r.2.2.2.read s r.2.2.1

/-- A sequencer write that may go on. -/
def seqPut (m : Master) (asid need va : Nat) (bs : List Byte) (s : State) : State :=
  (seqRuns s m asid need true va bs.length).foldl (fun s r => r.2.2.2.write m ((bs.drop r.2.1).take r.2.2.1) s) s

/-! ## The end of a launch (R23, R50, R334, R335) -/

/-- A trap-notice ring is full (R334). -/
def PreRegs.noticesFull (p : PreRegs) : Bool := (p.tnWr - p.tnRd).toNat > p.tnMask.toNat

/-- Writes one trap notice (R334), or holds it: a ring that is full or not configured. A write that the target refuses
leaves memory as it was and counts as written (log entry 36). -/
def writeNotice (r : Record) (s : State) : State :=
  let p := s.pre
  if p.noticesFull || p.tnBase = 0 || !p.heldNotices.isEmpty then { s with pre := { p with heldNotices := p.heldNotices ++ [r] } }
  else
    let s1 := (s.physWrite sequencer (p.tnBase.toNat + 32 * (p.tnWr &&& p.tnMask).toNat) (wordBytes r.words)).getD s
    let s2 := ({ s1 with pre := { p with tnWr := p.tnWr + 1 } } : State).signal 16
    match r.owner with
    | some (l, none) => s2.soon (.launchComplete l)
    | some (l, some b) => s2.soon (.bunchSwapIn l b)
    | none => s2

/-- Writes the held notices in order, as far as they go. -/
def flushNotices (s : State) : State :=
  s.pre.heldNotices.foldl (fun s r => writeNotice r s) { s with pre := { s.pre with heldNotices := [] } }

/-- A trap notice (R334). -/
def noticeWords (lid b cause slot core tval tsave : Nat) : List W64 :=
  [BitVec.ofNat 64 lid,
   BitVec.ofNat 64 (b % 2 ^ 32 + cause % 2 ^ 8 * 2 ^ 32 + slot % 8 * 2 ^ 40 + core % 2 ^ 17 * 2 ^ 47),
   BitVec.ofNat 64 tval, BitVec.ofNat 64 tsave]

/-- A held release that a cancel may reach over its stream. -/
def cancellable (s : State) (p : Piece) : Bool := p.phase = .held && p.ticket && (s.whereIs p.src).isSome

/-- The cancel of a held release sets out (R143). -/
def sendCancel (s : State) (p : Piece) : State :=
  match s.whereIs p.src with
  | some (c, t) =>
    let (s1, id) := addControl c t p (.cancel p.id) s
    s1.laterBy (pathOf s p) (.releaseCancel id)
  | none => leaveNet p s

/-- An access that waits, at its core or at its target, for something that a stopped launch never brings, or a clearance:
its release is never performed (R143). -/
def Piece.stranded (p : Piece) : Bool :=
  p.atCore || p.phase = .detHeld || p.phase = .done || p.phase = .paged ||
  (match p.op with
   | .clearance _ => true
   | _ => false)

/-- The accesses of a launch that stops: those still at their cores and those held are gone, held releases are cancelled,
and the responses of those in flight are discarded; those that wait for their turn behind one that is gone try again (R50,
R142, R143). -/
def dropAccesses (l : Nat) (s : State) : State :=
  let mine := s.net.filter fun p => p.src.launch == l
  let s1 := (mine.filter (cancellable s)).foldl sendCancel s
  let gone (p : Piece) : Bool := p.src.launch == l &&
    (p.stranded || (p.phase = .held && p.ticket && !cancellable s p))
  let s2 : State := { s1 with net := (s1.net.filter fun p => !gone p).map fun p =>
    if p.src.launch == l then { p with orphan := true } else p }
  (s2.net.filter fun p => p.src.launch == l && p.phase = .turn).foldl (fun s p => s.soon (.accessArrival p.id)) s2

/-- Everything of a launch in flight between cores is discarded. -/
def dropTraffic (l : Nat) (s : State) : State :=
  { s with msgs := s.msgs.filter fun m => m.src.launch ≠ l
           evs := s.evs.filter fun e => e.dst.launch ≠ l
           treeMsgs := s.treeMsgs.filter fun m => m.launch ≠ l
           colls := s.colls.filter fun x => x.src.launch ≠ l
           ndNotes := s.ndNotes.filter fun x => x.who.launch ≠ l }

/-- A core with no bunch on it. Its comparators stay until a placement (R378). -/
def Core.vacated (k : Core) : Core := { Core.reset with failed := k.failed, comps := k.comps }

/-- The cores of a launch, or of one of its bunches, become unoccupied. -/
def freeCores (l : Nat) (b : Option Nat) (s : State) : State :=
  { s with cores := s.cores.map fun (p : Nat × Core) =>
      if p.2.owner.any fun o => o.launch == l && (b.isNone || b == some o.bunch) then (p.1, p.2.vacated) else p }

/-- A request of OP 0 whose last matched bunch has halted, or is gone, is done (Table 19.4). -/
def PreRegs.halted (p : PreRegs) (now : Nat) (gone : Nat × Nat → Bool) : PreRegs :=
  let left := p.await.filter fun x => !gone x
  if p.busy && left.isEmpty then { p with await := [], busy := false, done := true, thalt := BitVec.ofNat 64 now }
  else { p with await := left }

/-- All bunches of a launch stop at once, without saving (R21, R50, R335). -/
def stopLaunch (l : Nat) (s : State) : State :=
  let s1 := freeCores l none (dropTraffic l (dropAccesses l s))
  ({ s1 with wins := s.wins.filter (fun w => w.src.launch ≠ l), pre := s.pre.halted s.now fun x => x.1 == l } : State).modLaunch l fun x =>
    { x with ended := true, fills := [], ndlog := x.ndlog || x.bunches.any Bunch.logged
             bunches := x.bunches.map fun (y : Bunch) => { y with state := .retired, saved := [] } }

/-- A launch that has stopped leaves with its final record. -/
def leave (l : Nat) (s : State) : State :=
  match s.launch? l with
  | none => s
  | some x =>
    let f := x.final.getD (0, 0)
    kickPlacing (postRecord x f.1 f.2 0 { s with launches := s.launches.filter fun y => y.id ≠ l })

/-- A launch ends with a STATUS and a REASON, at once. -/
def endLaunch (l status reason : Nat) (s : State) : State :=
  leave l ((stopLaunch l s).modLaunch l fun x => { x with final := some (status, reason) })

/-- REASON of a Fatal cause (R335). -/
def fatalReason (cause : Nat) : Nat := if cause = Cause.saveFail then 5 else 4

/-- A Fatal cause ends its launch: with the notice ring configured, one notice precedes the record (R335). -/
def endFatal (l : Nat) (x : Launch) (r : Raised) (b slot core : Nat) (s : State) : State :=
  let s1 := (stopLaunch l s).modLaunch l fun x => { x with final := some (4, fatalReason r.cause) }
  if s.pre.tnBase = 0 then leave l s1
  else writeNotice ⟨noticeWords x.desc.lid b r.cause slot core r.tval s.now, some (l, none)⟩ s1

/-- Every window of a launch has been performed (R342). -/
def windowsDone (s : State) (l : Nat) : Bool := !(s.net.any fun p => p.src.launch == l && p.det.isSome && p.phase ≠ .done)

/-- LAUNCH_COMPLETE (R43, R335): a launch whose bunches have all retired writes its record; a Fatal cause ends it; one
that has stopped leaves once its notice is written. -/
def execLaunchComplete (l : Nat) (s : State) : Host.Outcome State Fault Refusal :=
  .next (match s.launch? l with
    | none => s
    | some x =>
      if x.ended then (if s.pre.heldNotices.any fun r => r.owner = some (l, none) then s else leave l s)
      else match x.fatal with
        | some (r, b, slot, core) => endFatal l x r b slot core s
        | none =>
          if x.started && !x.hasUnplaced && x.roundsDone = x.desc.rounds && x.bunches.all (·.state = .retired) &&
              windowsDone s l then endLaunch l 0 0 s
          else s)

/-! ## LAUNCH (R22, R313) -/

/-- A device launch reaches the sequencer: checked, and queued at its priority. -/
def submit (c : Nat) (who : Agent) (num : W32) (addr : Nat) (d : Desc) (s : State) : State :=
  let prio := Nat.min d.prio (((s.launch? who.launch).map Launch.prio).getD 0)
  let l := newLaunch s.nextLaunch d (.device who (s.asidOf c) num addr (s.homeOf c)) prio
  let s1 : State := { s with nextLaunch := s.nextLaunch + 1 }
  match rejection s d (some (.thread (s.asidOf c) 0)) with
  | 0 => kickPlacing { s1 with devq := s1.devq.set prio (s1.devq.getD prio [] ++ [l]) }
  | why => postRecord l 1 why 0 s1

/-- LAUNCH (R313). A descriptor that is not aligned (R19) is read as it lies (log entry 87). -/
def execLaunch (h : Hdr) (d a : Opnd) (s : State) : Host.Outcome State Fault Refusal :=
  runReading (.launch h d a) (fun v =>
    { v := v, ra := some 64, wd := some (opWidth v), wide := Nat.max 64 (opWidth v), legal := namedA v.a 64 })
    (fun c => [(c.a 64 false, 192)]) (fun c =>
    let ea := c.a 64 false
    orStop [creditStop c.th, blockStop c ea 192] (
      match blockFault c ea 192 with
      | some (cause, a) => { post := deferRead c cause a }
      | none =>
        { writes := writeLoc c.ld c.w c.th.launchNum.toNat
          pre := fun th => { th.takeCredit with launchNum := th.launchNum + 1 }
          post := fun s => submit c.c (c.s.agent c.c c.t) c.th.launchNum ea (descOf ea (c.block ea 192)) (c.touched [(ea, 192)] s) })) s

end Sys2Proof.Machine
end

