-- ==== Sys2Proof/Machine/Rounds.lean ====
section
/-! DEFINITION. Placing bunches, rounds, retirement and the quiescence detector (R24 to R29, R40 to R47, R112). -/

namespace Sys2Proof.Machine

open Sys2Proof

/-! ## Finding room (R25) -/

/-- The cores of the rectangle of a launch's bunch at an origin. -/
def rectCores (d : Desc) (x y : Nat) : List Nat := (List.range (d.w * d.h)).map fun i => coreOfIndex x y d.w i

/-- The cores a launch's bunches have as homes. -/
def Launch.homes (x : Launch) : List Nat := x.bunches.flatMap fun y => rectCores x.desc y.hx y.hy

/-- A bunch may be put on the rectangle at an origin: inside one field that is ready and not draining, every core
unoccupied and outside `taken` (R13, R25). -/
def fitsAt (s : State) (d : Desc) (taken : List Nat) (x y : Nat) : Bool :=
  let f := fieldOfCore (coreAt x y)
  d.x0 ≤ x && d.y0 ≤ y && x + d.w ≤ d.x0 + d.rw && y + d.h ≤ d.y0 + d.rh &&
  fieldOfCore (coreAt (x + d.w - 1) (y + d.h - 1)) == f && s.fieldReady f && !(s.draining.any (· == f)) &&
  (rectCores d x y).all fun c => (s.core c).owner.isNone && !(taken.any (· == c))

/-- The first origin of a launch's region, in row-major order, at which a bunch fits (R25). -/
def findRoom (s : State) (d : Desc) (taken : List Nat) : Option (Nat × Nat) :=
  let nx := d.rw + 1 - d.w
  ((List.range (nx * (d.rh + 1 - d.h))).find? fun j => fitsAt s d taken (d.x0 + j % nx) (d.y0 + j / nx)).map fun j =>
    (d.x0 + j % nx, d.y0 + j / nx)

/-- Origins for `n` bunches placed together (R26). -/
def findRooms (s : State) (d : Desc) : Nat → List Nat → Option (List (Nat × Nat))
  | 0, _ => some []
  | n + 1, taken =>
    match findRoom s d taken with
    | none => none
    | some o => (findRooms s d n (taken ++ rectCores d o.1 o.2)).map (o :: ·)

/-! ## Placing a bunch (R27 to R29) -/

/-- A stage number of R29 from the table entry read, if any. -/
def stageOf (d : Desc) (b i : Nat) (table : List Byte) : Nat :=
  let x := i % d.w
  let y := i / d.w
  trunc (match d.stagemode with
    | 0 => b * d.w + x
    | 1 => b * d.w + (d.w - 1 - x)
    | 2 => b * d.h + y
    | 3 => b * d.h + (d.h - 1 - y)
    | _ => ofBytes ((table.drop (4 * i)).take 4)) 32

/-- `status` of a slot at placement (R27, Table 17.12). -/
def startStatus (d : Desc) : W64 := BitVec.ofNat 64 (b2n d.det * 16 + b2n d.stalechk * 8)

/-- Slot `t` of core `i` at placement (R27, R28, R30). -/
def startSlot (d : Desc) (b i t : Nat) : Thread :=
  if t < d.roots then
    { Thread.reset with kind := .root, running := true, granules := d.win, pc := BitVec.ofNat 32 d.entry,
                        status := startStatus d, digest := BitVec.ofNat 64 (rootDigest d.lid b i t) }
  else if t < d.roots + d.hslots then
    { Thread.reset with kind := .handler, granules := d.hwin, status := startStatus d }
  else .reset

/-- A core with a bunch newly placed on it; `codever` is the CRC-32C of its launch's code image (R381). -/
def startCore (l b i : Nat) (d : Desc) (table : List Byte) (codever : Nat) (failed : Bool) : Core :=
  { Core.reset with
    owner := some ⟨l, b, i⟩, codelen := d.codelen, codever := codever, kbank := d.kbank, stage := BitVec.ofNat 32 (stageOf d b i table),
    round := 1, rtbase := defaultRanges.1, rtlim := defaultRanges.2, dlogbase := 0xA7800, failed := failed,
    threads := (List.range 8).map (startSlot d b i) }

/-- A bunch placed for the first time at an origin, which becomes its home (R25). -/
def startBunch (b x y : Nat) : Bunch := { loadBunch with idx := b, hx := x, hy := y, x := x, y := y }

/-- The code image, or the stage table entries of a bunch, as a sequencer access. -/
def codeTest (s : State) (x : Launch) : SeqTest := seqTest s x 1 sequencer 3 false x.desc.code x.desc.codelen

/-- Address of a bunch's entries in the stage table (R29). -/
def stageAddr (d : Desc) (b : Nat) : Nat := trunc (d.stagetab + 4 * b * (d.w * d.h)) 64

/-- The test of a bunch's stage table entries, where the launch uses one. -/
def stageTest (s : State) (x : Launch) (b : Nat) : SeqTest :=
  if x.desc.stagemode = 4 then seqTest s x 2 sequencer 1 false (stageAddr x.desc b) (4 * (x.desc.w * x.desc.h)) else .ready

/-- Places bunch `b` of a launch at an origin: store zero but for the code image (R109), slots, registers (R27). -/
def placeBunch (x : Launch) (b ox oy : Nat) (s : State) : State :=
  let d := x.desc
  let code := seqBytes s sequencer d.asid 3 d.code d.codelen
  let table := if d.stagemode = 4 then seqBytes s sequencer d.asid 1 (stageAddr d b) (4 * (d.w * d.h)) else []
  let s1 := s.modLaunch x.id fun x => { x with started := true, bunches := x.bunches ++ [startBunch b ox oy] }
  let version := crc32c code
  (List.range (d.w * d.h)).foldl (fun s i =>
    let c := coreOfIndex ox oy d.w i
    let s2 : State := { s with mem := Mem.clear s.mem (localKey c 0) localSize
                               badMem := s.badMem.filter fun a => !(localKey c 0 ≤ a && a < localKey c localSize) }
    (storeBytes s2 (localKey c codeBase) code).setCore c (startCore x.id b i d table version (s.core c).failed)) s1

/-- A head leaves the front of its queue when its launch starts; the launch queue's descriptor is then consumed (R17). -/
def leaveQueue (x : Launch) (s : State) : State :=
  let s1 : State := { s with launches := s.launches ++ [{ x with started := true }] }
  match x.source with
  | .queue q _ =>
    ({ s1 with waitq := s1.waitq.set q none } : State).modLq q (fun y => { y with cons := true }) |>.soon (.descriptorRead q)
  | .device _ _ _ _ _ => { s1 with devq := s1.devq.set x.prio ((s1.devq.getD x.prio []).filter fun y => y.id ≠ x.id) }

/-- The heads of the queues by rank (R18, R22): a queue that holds a record, or is off, starts nothing. -/
def heads (s : State) : List Launch :=
  (List.range 16).reverse.flatMap fun p =>
    (s.devq.getD p []).take 1 ++ (if (s.lq p).runs then (s.waitq.getD p none).toList else [])

/-- A launch ends FAULTED because a read of its code, stage table or arguments failed (R21). -/
def readFailed (l reason : Nat) (s : State) : State := endLaunch l 4 reason s

/-- Places bunches at the origins found, in increasing index from `b`, as far as their reads go. -/
def placeAll (l b : Nat) : List (Nat × Nat) → State → State
  | [], s => kickPlacing s
  | o :: rest, s =>
    match s.launch? l with
    | none => s
    | some x =>
      match codeTest s x, stageTest s x b with
      | .ready, .ready => placeAll l (b + 1) rest (placeBunch x b o.1 o.2 s)
      | .page a e q lf, _ => seqWait l 1 a e q lf s
      | .fails, _ => readFailed l 1 s
      | .ready, .page a e q lf => seqWait l 2 a e q lf s
      | .ready, .fails => readFailed l 2 s

/-- The first sequencer read of a launch about to place all its bunches that may not go on: its number and why. -/
def firstBar (s : State) (x : Launch) (n : Nat) : Option (Nat × SeqTest) :=
  match codeTest s x with
  | .ready => (List.range n).findSome? fun b => match stageTest s x b with
    | .ready => none
    | t => some (2, t)
  | t => some (1, t)

/-- A head starts (R26): with one round when bunch 0 fits, with more when all bunches fit together. While a page it
reads is being filled it stays at the head. -/
def startHead (x : Launch) (s : State) : State :=
  let n := if x.desc.rounds = 1 then 1 else x.desc.bcount
  match findRooms s x.desc n [] with
  | none => s
  | some os =>
    let s1 := leaveQueue x s
    match firstBar s x n with
    | some (1, .fails) => readFailed x.id 1 s1
    | some (_, .fails) => readFailed x.id 2 s1
    | some (what, .page a e q lf) => headWait x what a e q lf s
    | _ => placeAll x.id 0 os s1
where
  /-- A head waits for a page: the fill is named in its queue's entry. -/
  headWait (x : Launch) (what a e q : Nat) (lf : Leaf) (s : State) : State :=
    let (s1, id) := beginFill e q x.desc.asid lf a s
    let mark (y : Launch) : Launch := if y.id = x.id then { y with fills := [(id, what)] } else y
    let s2 : State := { s1 with waitq := s1.waitq.map (·.map mark), devq := s1.devq.map (·.map mark) }
    dropUnserved e x.desc.asid a id s2

/-- BUNCH_PLACE (R18, R25, R26): a started launch places its next bunch; a head that no higher one blocks starts. -/
def execBunchPlace (l : Nat) (s : State) : Host.Outcome State Fault Refusal :=
  .next (match s.launch? l with
    | some x =>
      if x.ended || !x.hasUnplaced || x.fills.any (fun p => p.2 ≤ 2) then s
      else
        let n := if x.desc.rounds = 1 then 1 else x.desc.bcount - x.bunches.length
        match findRooms s x.desc n x.homes with
        | some os => placeAll l x.bunches.length os s
        | none => s
    | none =>
      match (heads s).find? fun x => x.id == l with
      | some x => if !x.fills.isEmpty || (heads s).any fun y => x.prio < y.prio then s else startHead x s
      | none => s)

/-! ## Rounds (R40 to R42) -/

/-- A core runs no root thread or task, holds no message and runs no handler. -/
def Core.roundDone (k : Core) : Bool :=
  k.mbx.isEmpty && k.taskq.isEmpty && k.threads.all fun th => !th.running

/-- A bunch is on its cores, and no halt is requested. -/
def Bunch.present (y : Bunch) : Bool := y.state = .placed && !y.haltAsk

/-- The round of a launch has ended (R40): every bunch is placed and present, nothing runs, and every window of the round
has been performed (R342). -/
def roundOver (s : State) (x : Launch) : Bool :=
  !x.hasUnplaced && x.roundsDone < x.desc.rounds &&
  x.bunches.all (fun y => y.present && (rectCores x.desc y.x y.y).all fun c => (s.core c).roundDone && !(s.core c).stopped) &&
  windowsDone s x.id

/-- A root slot restarts (R40). Nothing else of it is reset but its counters (R379) and its count of DET reductions (R342). -/
def Thread.restart (th : Thread) (entry : W32) (now : Nat) : Thread :=
  if th.kind ≠ .root then { th with counters := List.replicate 16 0 }
  else { th with running := true, pc := entry, cls := .normal, status := putBits th.status 9 2 0, loops := .empty,
                 bankN := .empty, bankU := .empty, bankS := .empty, detCount := 0, wait := none, held := none, bpSkip := [],
                 counters := List.replicate 16 0, busyTo := Nat.max now th.busyTo }

/-- k0 to k15 with an argument record applied (R41). -/
def applyArgs (kb : List W32) (rec_ : List Byte) : List W32 :=
  let mask := ofBytes (rec_.take 2)
  (List.range 16).map fun j =>
    if mask.testBit j then BitVec.ofNat 32 (ofBytes ((rec_.drop (16 + 4 * j)).take 4)) else kb.getD j 0

/-- A barrier at the start of a round (R312). -/
def Barrier.restart (b : Barrier) : Barrier := ⟨0, 0, 0, [], [], b.last ++ b.after⟩

/-- The next round starts on every core at once: the record applied, barriers at generation 0, root threads at ENTRY. -/
def startRound (x : Launch) (rec_ : List Byte) (s : State) : State :=
  let entry := BitVec.ofNat 32 x.desc.entry
  let cs := x.bunches.flatMap fun y => rectCores x.desc y.x y.y
  let s1 := cs.foldl (fun s c => s.modCore c fun k =>
    { k with kbank := applyArgs k.kbank rec_, round := BitVec.ofNat 64 (x.round + 1)
             threads := k.threads.map fun th => th.restart entry s.now }) s
  s1.modLaunch x.id fun x =>
    { x with round := x.round + 1, bunches := x.bunches.map fun (y : Bunch) => { y with barriers := y.barriers.map Barrier.restart } }

/-- The end of a round counts, and is traced once a core (R381; log entry 30). -/
def countRound (x : Launch) (s : State) : State :=
  let cs := x.bunches.flatMap fun y => rectCores x.desc y.x y.y
  cs.foldl (fun s c => trace c 0 5 x.round s) (s.modLaunch x.id fun x => { x with roundsDone := x.roundsDone + 1 })

/-- The argument record of the next round is read, and the round starts (R41). -/
def nextRound (x : Launch) (s : State) : State :=
  let a := trunc (x.desc.args + 80 * (x.round - 1)) 64
  match seqTest s x 3 sequencer 1 false a 80 with
  | .ready => startRound x (seqBytes s sequencer x.desc.asid 1 a 80) (countRound x s)
  | .page a e q lf => seqWait x.id 3 a e q lf s
  | .fails => readFailed x.id 3 (countRound x s)

/-- ROUND_END (R40, R43): if the round has ended, the next one starts, or the bunches of the last one retire. -/
def execRoundEnd (l : Nat) (s : State) : Host.Outcome State Fault Refusal :=
  .next (match s.launch? l with
    | none => s
    | some x =>
      if x.ended || !roundOver s x || x.fills.any (fun p => p.2 = 3) then s
      else if x.roundsDone + 1 < x.desc.rounds then nextRound x s
      else
        let s1 := countRound x s
        x.bunches.foldl (fun s y => s.soon (.bunchRetire l y.idx)) s1)

/-- A bunch has nothing left to complete (R43): engine commands, stores and reductions. -/
def drained (s : State) (x : Launch) (y : Bunch) : Bool :=
  ((rectCores x.desc y.x y.y).all fun c => (s.core c).eng.all (·.cmds.isEmpty)) &&
  !(s.net.any fun p => p.src.launch == x.id && p.src.bunch == y.idx && p.op.writes && !p.faulted && p.phase ≠ .detHeld) &&
  !(s.ndNotes.any fun n => n.who.launch == x.id && n.who.bunch == y.idx)

/-- BUNCH_RETIRE (R43): the bunch's cores become unoccupied. A bunch that may not retire yet is tried again at an interval
of the model's own (log entry 66). -/
def execBunchRetire (l b : Nat) (s : State) : Host.Outcome State Fault Refusal :=
  .next (match s.launch? l with
    | none => s
    | some x =>
      match x.bunch? b with
      | none => s
      | some y =>
        if x.ended || x.roundsDone ≠ x.desc.rounds || !y.present then s
        else if !drained s x y then s.after 100 (.bunchRetire l b)
        else
          let s1 := (freeCores l (some b) s).modBunch l b fun y => { y with state := .retired }
          kickPlacing ((s1.soon (.launchComplete l)).soon (.detWindowClose l)))

/-! ## Quiescence (R45 to R47) -/

/-- The wait a thread reports: that of Table 1.7, or reason 1 for an untagged class T result (R47, R158). -/
def Thread.reports (th : Thread) : Option Wait :=
  match th.held with
  | some id => (th.landing? id).map fun l => ⟨1, 0, l.pc, 0⟩
  | none => th.wait

/-- A thread is blocked (R46). -/
def Thread.blocked (th : Thread) : Bool :=
  !(th.halted && !th.stepping) && !th.hasCause && th.reports.any fun w => 1 ≤ w.reason && w.reason ≤ 9

/-- The cores of a launch's bunches that are on the mesh, in the order b, i. -/
def launchCores (x : Launch) : List Nat :=
  (x.bunches.filter fun y => y.state = .placed || y.state = .halting).flatMap fun y => rectCores x.desc y.x y.y

/-- What a core has in flight (R45): engine commands, port groups not complete, tree timers. -/
def Core.inFlight (k : Core) : Bool :=
  k.eng.any (fun q => !q.cmds.isEmpty) ||
  k.threads.any (fun th => th.qin.any fun q => q.groups.any fun g => !g.complete) ||
  k.trees.any fun p => match p.2 with
    | .installed n => !n.timers.isEmpty
    | .aborted _ => false

/-- Items in flight of a launch (R45). -/
def inFlight (s : State) (x : Launch) : Bool :=
  !x.fills.isEmpty || s.msgs.any (fun m => m.src.launch == x.id) || s.evs.any (fun e => e.dst.launch == x.id) ||
  s.net.any (fun p => p.src.launch == x.id && p.pending && p.phase ≠ .detHeld) ||
  s.treeMsgs.any (fun m => m.launch == x.id) || s.colls.any (fun k => k.src.launch == x.id && !k.done) ||
  (launchCores x).any fun c => (s.core c).inFlight

/-- The state that the detector waits for (R46): live threads, all blocked; nothing in flight; no handler running; no
bunch out. -/
def quiescent (s : State) (x : Launch) : Bool :=
  let cs := (launchCores x).map s.core
  x.started && !x.ended && x.bunches.all (fun y => y.present || y.state = .retired) &&
  cs.any (fun k => k.threads.any (·.running)) &&
  cs.all (fun k => k.threads.all fun th => !th.running || (th.kind ≠ .handler && th.blocked)) && !inFlight s x

/-- A report entry (Table 1.8). -/
def reportEntry (b core slot : Nat) (w : Wait) : List Byte :=
  toBytes (b % 2 ^ 32 + (coreX core % 2 ^ 8 + coreY core % 2 ^ 8 * 2 ^ 8 + slot % 2 ^ 8 * 2 ^ 16) * 2 ^ 32 +
    (w.pc.toNat % 2 ^ 16 + w.reason % 2 ^ 8 * 2 ^ 16 + coreX core / 2 ^ 8 % 2 * 2 ^ 24) * 2 ^ 64 + w.detail % 2 ^ 32 * 2 ^ 96) 16

/-- The report of a launch: one entry a blocked thread, ordered by b, i, slot (R47). -/
def reportEntries (s : State) (x : Launch) : List (List Byte) :=
  (launchCores x).flatMap fun c => (List.range 8).filterMap fun t =>
    let th := s.thread c t
    if th.running && th.blocked then th.reports.map (reportEntry (s.occ c).bunch (s.homeOf c) t) else none

/-- Writes the entries from `j` on (R46): one that fails is lost, and so is the first where `bad` says that its page's fill has
failed. Answers whether any was lost, or how far it came and the page it waits for. -/
def putEntries (x : Launch) : Nat → List (List Byte) → Bool → Bool → State →
    Except ((Nat × List (List Byte) × Bool) × (Nat × Nat × Nat × Leaf) × State) (Bool × State)
  | _, [], lost, _, s => .ok (lost, s)
  | j, e :: rest, lost, bad, s =>
    let a := trunc (x.desc.report + 16 * j) 64
    match seqTest s { x with badFills := [] } 4 sequencer 2 true a 16 with
    | .ready => putEntries x (j + 1) rest lost false (seqPut sequencer x.desc.asid 2 a e s)
    | .page p q r lf => if bad then putEntries x (j + 1) rest true false s else .error ((j, e :: rest, lost), (p, q, r, lf), s)
    | .fails => putEntries x (j + 1) rest true false s

/-- A report goes on to its end, and then the interim record follows; or it waits for a page (R46, R388). -/
def putReport (x : Launch) (r : Report) (s : State) : State :=
  let clear (s : State) (r : Option Report) : State :=
    s.modLaunch x.id fun x => { x with armed := x.armed && x.report.isSome, badFills := x.badFills.filter (· ≠ 4), report := r }
  match putEntries x r.next r.rest r.lost (decide (4 ∈ x.badFills)) s with
  | .error ((j, rest, lost), (a, e, q, lf), s1) => seqWait x.id 4 a e q lf (clear s1 (some ⟨j, rest, lost, r.total⟩))
  | .ok (lost, s1) => postRecord x 2 (b2n lost) r.total (clear s1 none)

/-- DEADLOCK_REPORT (R46): after 2^16 quiet cycles a report of at most 2^20 entries; or one that waited for a page goes on.
The detector re-arms once a thread issues. -/
def execDeadlockReport (l : Nat) (s : State) : Host.Outcome State Fault Refusal :=
  .next (match s.launch? l with
    | none => s
    | some x =>
      match x.report with
      | some r => if x.ended || x.fills.any (fun p => p.2 = 4) then s else putReport x r s
      | none =>
        if x.ended || !x.armed || x.quiet < 2 ^ 16 then s
        else
          let es := (reportEntries s x).take (2 ^ 20)
          putReport x ⟨0, es, false, es.length⟩ s)

end Sys2Proof.Machine
end

