-- ==== Sys2Proof/Machine/Cycle.lean ====
section
/-! DEFINITION. The end of a cycle: cycle classes and counters, the quiescence detector, the matrix lease, drowsy
windows; then time advances and every core may issue again (R10, R46, R65, R243, R379). -/

namespace Sys2Proof.Machine

open Sys2Proof

/-! ## Cycle classes (Table 23.10) -/

/-- The lowest tag of a mask in bits [7:1]; 0 where none. -/
def lowTag (mask : Nat) : Nat := ((List.range 7).find? fun j => mask.testBit (j + 1)).elim 0 (· + 1)

/-- The port index that a DETAIL of reasons 2 to 4 names (R47). -/
def detailPort (d : Nat) : Nat := 2 * (d % 8) + d / 8 % 2

/-- The class code of a wait. -/
def Wait.code (w : Wait) : Nat :=
  match w.reason with
  | 1 => 0x10 + lowTag w.detail
  | 2 => 0x20 + detailPort w.detail
  | 3 => 0x30 + detailPort w.detail
  | 4 => 0x40 + detailPort w.detail
  | 5 => 0x05
  | 6 => 0x06
  | 7 => 0x07
  | 10 => 0x0A
  | _ => 0x08

/-- The class code of a thread in a cycle; `out` is that of a core halted for its bunch. A thread whose instruction has
beats under way counts as issuing. -/
def Thread.classCode (th : Thread) (now : Nat) (out : Option Nat) : Nat :=
  match out with
  | some code => code
  | none =>
    if th.issuedIn = now + 1 || (th.running && now < th.busyTo) then 0x00
    else if th.halted && !th.stepping then 0x0D
    else if !th.running then 0x0E
    else match th.reports with
      | some w => w.code
      | none => 0x01

/-- The counter of a class code, from 0x080. -/
def counterOf (code : Nat) : Nat := if code < 0x10 then (if code = 1 ∨ code = 0 then code else if code = 8 then 9 else if code = 5 then 6
  else if code = 6 then 7 else if code = 7 then 8 else code) else code / 0x10 + 1

/-- A counter one higher. -/
def bump (cs : List W64) (j : Nat) : List W64 := cs.set j (cs.getD j 0 + 1)

/-- A slot at the end of a cycle: its class is counted, and it may be considered again. -/
def Thread.nextCycle (th : Thread) (now : Nat) (out : Option Nat) : Thread :=
  if th.kind = .free then { th with tried := false }
  else
    let code := th.classCode now out
    { th with tried := false, cclass := code, counters := bump (bump th.counters (counterOf code)) 0xF }

/-- The class code of the threads of a core halted for its bunch (R379). -/
def outCode (s : State) (k : Core) : Option Nat :=
  if k.stopped then
    match k.owner with
    | some o => some (if ((s.bunch? o.launch o.bunch).map Bunch.haltCause) = some Cause.pageSwap then 0x0C else 0x0B)
    | none => none
  else none

/-- A core at the end of a cycle. -/
def Core.nextCycle (k : Core) (now : Nat) (out : Option Nat) : Core :=
  { k with issued := false, preempted := false
           threads := k.threads.map fun (th : Thread) => th.nextCycle now out }

/-- Class changes are traced (R381). -/
def traceClasses (before s : State) : State :=
  if s.trace.any fun b => b.en && b.types.testBit 1 then
    (Tbl.keys s.cores).foldl (fun s c => (List.range 8).foldl (fun s t =>
      let now := (s.thread c t).cclass
      if (before.thread c t).cclass ≠ now then trace c t 2 now s else s) s) s
  else s

/-! ## What hardware does each cycle -/

/-- A thread of a launch has issued in this cycle. -/
def launchIssued (s : State) (l : Nat) : Bool :=
  s.cores.any fun p => p.2.owner.any (fun o => o.launch == l) && p.2.threads.any fun th => th.issuedIn = s.now + 1

/-- The quiescence detector of a launch in a cycle (R46): quiet cycles are counted; it re-arms once a thread issues. -/
def detect (s : State) (x : Launch) : Launch :=
  { x with quiet := if quiescent s x then x.quiet + 1 else 0, armed := x.armed || launchIssued s x.id }

/-- Every detector advances; one that has counted 2^16 quiet cycles reports. -/
def detectAll (s : State) : State :=
  let s1 : State := { s with launches := s.launches.map (detect s) }
  (s1.launches.filter fun x => x.armed && x.quiet = 2 ^ 16).foldl (fun s x => s.soon (.deadlockReport x.id)) s1

/-- An array without a holder is granted (R243). -/
def grantArray (s : State) (c : Nat) : State :=
  let k := s.core c
  if k.owner.isSome && !k.stopped && k.mat.holder.isNone && (List.range 8).any (waitsArray s c) then s.soon (.matrixLeaseGrant c) else s

/-- A window whose thread has waited 8,192 cycles may become drowsy (R65). -/
def drowse (s : State) (c : Nat) : State :=
  (List.range 8).foldl (fun s t =>
    let th := s.thread c t
    if !th.drowsy && th.wait.any fun w => w.since + 8192 = s.now then
      let (b, s1) := s.choose
      if b then s1.soon (.windowDrowsy c t) else s1
    else s) s

/-- Time advances by a cycle, every core may issue again (R10), and news comes in (R339). -/
def advance (s : State) : State :=
  deliverNotes { s with now := s.now + 1, cores := s.cores.map fun p => (p.1, p.2.nextCycle s.now (outCode s p.2)) }

/-- One cycle passes. -/
def tick (s : State) : State :=
  let s1 := detectAll s
  let s2 := (Tbl.keys s1.cores).foldl (fun s c => drowse (grantArray s c) c) s1
  traceClasses s (advance s2)

end Sys2Proof.Machine
end

