-- ==== Sys2Proof/Machine/Ecdsa.lean ====
section
/-! DEFINITION. ECDSA on NIST P-521 over SHA-512 (FIPS 186, SEC 1), which R364 to R369 name for the firmware image, the debug
challenge, the attestation report and the vendor command. -/

namespace Sys2Proof.Machine.P521

open Sys2Proof

/-- The field prime. -/
def prime : Nat := 2 ^ 521 - 1

/-- The order of the base point. -/
def order : Nat :=
  6864797660130609714981900799081393217269435300143305409394463459185543183397655394245057746333217197532963996371363321113864768612440380340372808892707005449

/-- The coefficient b of the curve y² = x³ − 3x + b. -/
def coefB : Nat :=
  0x0051953EB9618E1C9A1F929A21A0B68540EEA2DA725B99B315F3B8B489918EF109E156193951EC7E937B1652C0BD3BB1BF073573DF883D2C34F1EF451FD46B503F00

/-- A point of the curve; none is the point at infinity. -/
abbrev Point := Option (Nat × Nat)

/-- The base point. -/
def base : Point := some (
  0x00C6858E06B70404E9CD9E3ECB662395B4429C648139053FB521F828AF606B4D3DBAA14B5E77EFE75928FE1DC127A2FFA8DE3348B3C1856A429BF97E7E31C2E5BD66,
  0x011839296A789A3BC0045C8A5FB42C7D1BD998F54449579B446817AFBD17273E662C97EE72995EF42640C550B9013FAD0761353C7086A272C24088BE94769FD16650)

/-- a to the power e modulo m, for an e below 2^k. -/
def powMod (m : Nat) : Nat → Nat → Nat → Nat
  | 0, _, _ => 1 % m
  | k + 1, a, e =>
    let h := powMod m k (a * a % m) (e / 2)
    if e % 2 = 1 then a * h % m else h

/-- The inverse of a modulo the prime m. -/
def inv (m a : Nat) : Nat := powMod m 521 (a % m) (m - 2)

/-- The difference of two field elements. -/
def sub (a b : Nat) : Nat := (a + prime - b % prime) % prime

/-- The point on the line of slope `l` through two points of the curve. -/
def chord (l : Nat) (p q : Nat × Nat) : Nat × Nat :=
  let x := sub (sub (l * l % prime) p.1) q.1
  (x, sub (l * sub p.1 x % prime) p.2)

/-- The sum of two points. -/
def add (p q : Point) : Point :=
  match p, q with
  | none, _ => q
  | _, none => p
  | some a, some b =>
    if a.1 ≠ b.1 then some (chord (sub b.2 a.2 * inv prime (sub b.1 a.1) % prime) a b)
    else if (a.2 + b.2) % prime = 0 then none
    else some (chord (sub (3 * a.1 * a.1) 3 * inv prime (2 * a.2) % prime) a b)

/-- n times a point, for an n below 2^k. -/
def mulFrom : Nat → Nat → Point → Point
  | 0, _, _ => none
  | k + 1, n, p =>
    let h := mulFrom k (n / 2) (add p p)
    if n % 2 = 1 then add p h else h

/-- n times a point. -/
def mul (n : Nat) (p : Point) : Point := mulFrom 521 n p

/-- A point of the curve given by its coordinates. -/
def onCurve (x y : Nat) : Bool :=
  x < prime && y < prime && y * y % prime == sub (x * x * x + coefB) (3 * x)

/-- A number as a 66-byte big-endian octet string. -/
def octets (n : Nat) : List Byte := (toBytes n 66).reverse

/-- The number of a big-endian octet string. -/
def number (bs : List Byte) : Nat := ofBytes bs.reverse

/-- The message as a number: its SHA-512 digest, shorter than the order. -/
def digest (msg : List Byte) : Nat := number (Sha.sha512 msg)

/-- A signature, r then s, verifies a message under a public key, X then Y. -/
def verifies (key msg sig : List Byte) : Bool :=
  let (x, y) := (number (key.take 66), number (key.drop 66))
  let (r, s) := (number (sig.take 66), number (sig.drop 66))
  let w := inv order s
  onCurve x y && 0 < r && r < order && 0 < s && s < order &&
  match add (mul (digest msg * w % order) base) (mul (r * w % order) (some (x, y))) with
  | some p => p.1 % order == r
  | none => false

/-- The coordinates of a point, each as an octet string. -/
def pointBytes (p : Point) : List Byte := p.elim (List.replicate 132 0) fun p => octets p.1 ++ octets p.2

/-- The public key of a private key. -/
def publicKey (d : Nat) : List Byte := pointBytes (mul d base)

/-- The signature of a message with private key `d` and the signer's secret number `k`. -/
def sign (d k : Nat) (msg : List Byte) : List Byte :=
  let r := ((mul k base).elim 0 Prod.fst) % order
  octets r ++ octets (inv order k * (digest msg + r * d) % order)

/-- A number made a scalar between 1 and the order less 1. -/
def scalar (n : Nat) : Nat := 1 + n % (order - 1)

end Sys2Proof.Machine.P521
end

