-- ==== Sys2Proof/Machine/Halt.lean ====
section
/-! DEFINITION. Requests on running bunches, halts and save areas (R329 to R332, R334). -/

namespace Sys2Proof.Machine

open Sys2Proof

/-! ## Requests of the host (R329) -/

/-- A bunch is matched by a request's BUNCH field. -/
def matchesBunch (n : Nat) (y : Bunch) : Bool := y.state ≠ .retired && (n = 0xFFFFFFFF || y.idx = n)

/-- The launches that a write of `pre_ctl` acts on. -/
def matchedLaunches (s : State) : List Launch := s.launches.filter fun x => x.started && !x.ended && x.desc.lid = s.pre.lid.toNat

/-- The bunches matched, each with its launch. -/
def matchedBunches (s : State) (n : Nat) : List (Nat × Nat) :=
  (matchedLaunches s).flatMap fun x => (x.bunches.filter (matchesBunch n)).map fun y => (x.id, y.idx)

/-- A write of `pre_ctl` (Table 19.4): ignored with ERR 3 while BUSY; ERR 1 with no launch; else the request acts on the
bunches matched, given with their launches. -/
def preRequest (i : Instr) (act : List (Nat × Nat) → State → State) (s : State) : Host.Outcome State Fault Refusal :=
  onBus i (fun s =>
    if s.pre.busy then { s with pre := { s.pre with err := 3 } }
    else
      let v := BitVec.ofNat 64 s.busValue
      let ms := matchedBunches s (fieldOf v 0 32)
      let s1 : State := { s with pre := { s.pre with ctl := v &&& 0x7FFFFFFFF, err := 0, done := false, count := ms.length } }
      if (matchedLaunches s).isEmpty then { s1 with pre := { s1.pre with err := 1 } } else act ms s1) s

/-- The request took effect. -/
def preDone (s : State) : State := { s with pre := { s.pre with done := true } }

/-- A bunch has threads on its cores that are not yet halted. -/
def Bunch.toHalt (y : Bunch) : Bool := y.state = .placed || (y.state = .halting && y.haltAsk)

/-- PRE_CTL_PREEMPT (R329): the matched bunches stay out until released; DONE once all have halted. -/
def execPreCtlPreempt (s : State) : Host.Outcome State Fault Refusal :=
  preRequest .preCtlPreempt (fun ms s =>
    let s1 := ms.foldl (fun s m => requestHalt m.1 m.2 Cause.preempt 0
      (s.modBunch m.1 m.2 fun y => { y with preempt := true })) s
    let left := ms.filter fun m => (s1.bunch? m.1 m.2).any Bunch.toHalt
    { s1 with pre := ({ s1.pre with busy := true, await := left }).halted s.now fun _ => false }) s

/-- PRE_CTL_RELEASE (R329, R334): the matched bunches may return. A bunch that is still being saved keeps its notice. -/
def execPreCtlRelease (s : State) : Host.Outcome State Fault Refusal :=
  preRequest .preCtlRelease (fun ms s =>
    let free (y : Bunch) : Bunch := { y with preempt := false, trapped := if y.state = .saved then [] else y.trapped }
    preDone (ms.foldl (fun s m => (s.modBunch m.1 m.2 free).soon (.bunchSwapIn m.1 m.2)) s)) s

/-- PRE_CTL_ABORT (R50, R329): the launches matched end ABORTED at once. -/
def execPreCtlAbort (s : State) : Host.Outcome State Fault Refusal :=
  preRequest .preCtlAbort (fun _ s =>
    preDone ((matchedLaunches s).foldl (fun s x => endLaunch x.id 3 0 s) s)) s

/-- PRE_CTL_ARM_WATCHDOG (R329): WATCHDOG is raised in the matched bunches at time TW. -/
def execPreCtlArmWatchdog (s : State) : Host.Outcome State Fault Refusal :=
  preRequest .preCtlArmWatchdog (fun ms s =>
    let tw := s.pre.arg.toNat
    preDone (ms.foldl (fun s m => (s.modBunch m.1 m.2 fun y => { y with watch := some tw }).atTime tw
      (.watchdogExpiry m.1 m.2 tw)) s)) s

/-- A thread with WATCHDOG raised, if it runs a program (Table 19.3). -/
def Thread.watched (tw : Nat) (th : Thread) : Thread :=
  if th.running then { th with async := th.async ++ [⟨Cause.watchdog, tw, 0, 0, true, false, 0⟩] } else th

/-- A core with WATCHDOG raised in its threads. -/
def Core.watched (tw : Nat) (k : Core) : Core := { k with threads := k.threads.map (·.watched tw) }

/-- WATCHDOG_EXPIRY (R329): at the armed time, every thread of the bunch that runs a program gets WATCHDOG. -/
def execWatchdogExpiry (l b tw : Nat) (s : State) : Host.Outcome State Fault Refusal :=
  .next (match s.bunch? l b with
    | none => s
    | some y =>
      if y.watch ≠ some tw || s.now < tw || y.state = .retired then s
      else
        let s1 := s.modBunch l b fun y => { y with watch := none, saved := y.saved.map fun (v : SavedCore) => { v with ctx := v.ctx.watched tw } }
        if y.state = .placed ∨ y.state = .halting then s1.modCores (rectCores (s.desc l) y.x y.y) (·.watched tw) else s1)

/-! ## Halting (R330) -/

/-- A piece of a bunch whose response a halt waits for: that of a load, a FILL or a value-returning atomic. -/
def Piece.awaited (l b : Nat) (p : Piece) : Bool :=
  p.src.launch == l && p.src.bunch == b && p.land.isSome && p.op.reads && !p.faulted

/-- A response that a halt waits for is missing. -/
def missingReads (s : State) (l b : Nat) : Bool := s.net.any (·.awaited l b)

/-- The orphan point of a bunch (R330, R331): each response still missing is discarded from now on. -/
def orphanReads (l b : Nat) (s : State) : State :=
  { s with net := s.net.map fun p => if p.awaited l b then { p with orphan := true } else p }

/-- Every instruction in issue on a core has ended its beat. -/
def Core.still (k : Core) (now : Nat) : Bool := k.threads.all fun th => !th.running || th.busyTo ≤ now

/-- BUNCH_HALT (R330): the halt reaches a core, which issues and accepts nothing further for its bunch. -/
def execBunchHalt (c : Nat) (s : State) : Host.Outcome State Fault Refusal :=
  .next (match (s.core c).owner with
    | none => s
    | some o =>
      match s.bunch? o.launch o.bunch with
      | none => s
      | some y =>
        if !y.haltAsk || (s.core c).stopped then s
        else
          let s1 := (s.modCore c fun k => { k with stopped := true }).modBunch o.launch o.bunch fun y => { y with state := .halting }
          if (bunchCores s1 o.launch o.bunch).all fun d => (s1.core d).stopped then
            ((s1.modBunch o.launch o.bunch fun y => { y with haltAt := s.now }).soon (.orphanTimeout o.launch o.bunch)).after 2000
              (.orphanTimeout o.launch o.bunch)
          else s1)

/-- ORPHAN_TIMEOUT (R330, R331): once every awaited response is there, or 2 µs after the halt, the bunch has halted. -/
def execOrphanTimeout (l b : Nat) (s : State) : Host.Outcome State Fault Refusal :=
  .next (match s.bunch? l b with
    | none => s
    | some y =>
      let cs := bunchCores s l b
      if !(y.state = .halting && y.haltAsk && cs.all fun c => (s.core c).stopped) then s
      else if missingReads s l b && s.now < y.haltAt + 2000 then s
      else if !(cs.all fun c => (s.core c).still s.now) then s.after 1 (.orphanTimeout l b)
      else
        let s1 := orphanReads l b (s.modBunch l b fun y => { y with haltAsk := false, tsave := s.now })
        ({ s1 with pre := s1.pre.halted s.now (· == (l, b)) } : State).later (.bunchSave l b))

/-! ## Save areas (Table 19.5) -/

/-- The save and restore hardware as a master (R388). -/
def saver : Master := .engine 4 0

/-- Address of the save area of core `i` of bunch `b` (R332). -/
def saveAddr (d : Desc) (b i : Nat) : Nat := trunc (d.save + (b * 64 + i) * 2 ^ 20) 64

/-- Bytes of a save area. -/
def areaSize : Nat := 2 ^ 20

/-- The access to a save area: as the sequencer's, under a leaf with W (R388). -/
def areaTest (s : State) (x : Launch) (what b : Nat) (wr : Bool) : Option (Nat × SeqTest) :=
  (List.range (x.desc.w * x.desc.h)).findSome? fun i =>
    match seqTest s x what saver 2 wr (saveAddr x.desc b i) areaSize with
    | .ready => none
    | t => some (i, t)

/-- Bytes from an offset, as cells. -/
def cellsAt (o : Nat) (bs : List Byte) : List Host.Cell :=
  ((List.range bs.length).zip bs).filterMap fun p => if p.2 = unlisted then none else some (o + p.1, p.2)

/-- Bytes in the device's own form, which the spec does not state, at an offset of an area. -/
def deviceBytes (free o n : Nat) : List Byte := (List.range n).map fun j => Config.freeByte (free + o + j)

/-- The thirteen fields of a thread record, and the four at 0x80 (R332). -/
def Thread.record (th : Thread) : List W64 × List W64 :=
  let pend := (th.pendCause.map Raised.cause).getD 0xFF
  ([th.pc.setWidth 64, th.status, th.fflags, th.portcfg, th.tvec, th.temask0, th.temask1, th.cause, th.tval, th.epc,
    th.estat, th.stvec, BitVec.ofNat 64 (th.cls.code + pend * 2 ^ 8)],
   [th.scause, th.stval, th.sepc, th.sestat, BitVec.ofNat 64 ((th.pendCause.map Raised.tval).getD 0)])

/-- Offset of a slot's thread record. -/
def recordAt (t : Nat) : Nat := 0x200 + 0x100 * t

/-- The 256 bytes of a thread record. -/
def recordBytes (free t : Nat) (th : Thread) : List Byte :=
  wordBytes th.record.1 ++ deviceBytes free (recordAt t + 0x68) 24 ++ wordBytes th.record.2 ++ deviceBytes free (recordAt t + 0xA8) 88

/-- The slice file of a core: the windows in slot order, results in flight written, gated granules zero (log entry 50). -/
def Core.sliceBytes (k : Core) : List Byte :=
  (k.threads.flatMap fun th => toBytes (trunc th.allWritten.toNat (256 * th.granules)) (32 * th.granules)).take 0x2000

/-- The function tables of a core in bytes (R105). -/
def Core.tableBytes (k : Core) : List Byte := (List.range 1024).flatMap fun j => toBytes (Tbl.get k.ft j 0).toNat 8

/-- The regions of Table 19.5 after the header: offset and size. -/
def areaRegions : List (Nat × Nat) :=
  [(0x200, 0x800), (0xA00, 0x600), (0x1000, 0x2000), (0x3000, 0x6000), (0x9000, 0x2000), (0xB000, 0x2C000),
   (0x37000, 0x9000), (0x40000, 0xC0000)]

/-- The CRC of a region of an area. -/
def regionCrc (a : List Host.Cell) (r : Nat × Nat) : Nat := crc32c (Mem.readN a r.1 r.2)

/-- The CRCs of an area's regions. -/
def areaCrcs (a : List Host.Cell) : List Nat := areaRegions.map (regionCrc a)

/-- Offset of the CRCs in the core header, 4 bytes for each region (log entry 51). -/
def crcsAt : Nat := 0x20

/-- The first 32 bytes of a core header (R332), in the places of log entry 51: LID; b, i and the halt cause; the
coordinates at the halt; TSAVE. -/
def headerWords (x : Launch) (y : Bunch) (i c : Nat) : List W64 :=
  [x.desc.lid, BitVec.ofNat 64 (y.idx % 2 ^ 32 + i * 2 ^ 32 + y.haltCause * 2 ^ 48),
   BitVec.ofNat 64 (coreX c + coreY c * 2 ^ 32), BitVec.ofNat 64 y.tsave]

/-- The area of a core with its header (R332): the values of its core, the CRCs of its regions, and the stream, ticket
and lease state in the device's own form. -/
def withHeader (words : List W64) (free : Nat) (body : List Host.Cell) : List Host.Cell :=
  cellsAt 0 (wordBytes words) ++ cellsAt crcsAt ((areaCrcs body).flatMap fun n => toBytes n 4) ++
  cellsAt 0x40 (deviceBytes free 0x40 0x1C0) ++ body

/-- The regions of the area of a core (Table 19.5); `free` is where its device-form bytes are read. -/
def areaBody (mem : List Host.Cell) (c : Nat) (k : Core) (free : Nat) : List Host.Cell :=
  ((List.range 8).flatMap fun t => cellsAt (recordAt t) (recordBytes free t (k.thread t))) ++
  cellsAt 0x1000 k.sliceBytes ++ cellsAt 0x3000 (deviceBytes free 0x3000 0x6000) ++ cellsAt 0x9000 k.tableBytes ++
  cellsAt 0xB000 (deviceBytes free 0xB000 0x35000) ++
  (Mem.slice mem (localKey c 0) localSize).map fun x => (x.1 + 0x40000, x.2)

/-- One run of an area written from its cells. -/
def writeRun (image : List Host.Cell) (s : State) (r : Nat × Nat × Nat × Reach) : State :=
  match r.2.2.2 with
  | .bytes k home =>
    let n := r.2.2.1
    dropReplicas home (markFrames k n { s with mem := Mem.splice s.mem k n (Mem.slice image r.2.1 n)
                                               badMem := s.badMem.filter fun a => !(k ≤ a && a < k + n) })
  | _ => s

/-- The runs of the save area of core `i` of a bunch. -/
def areaRuns (s : State) (x : Launch) (b i : Nat) (wr : Bool) : List (Nat × Nat × Nat × Reach) :=
  seqRuns s saver x.desc.asid 2 wr (saveAddr x.desc b i) areaSize

/-- Writes the area of core `i` of a bunch. -/
def writeArea (x : Launch) (b i : Nat) (image : List Host.Cell) (s : State) : State :=
  (areaRuns s x b i true).foldl (writeRun image) s

/-- The cells of the area of core `i` of a bunch, as they stand. -/
def readArea (s : State) (x : Launch) (b i : Nat) : List Host.Cell :=
  (areaRuns s x b i false).flatMap fun r =>
    match r.2.2.2 with
    | .bytes k _ => (Mem.slice s.mem k r.2.2.1).map fun c => (c.1 + r.2.1, c.2)
    | _ => []

/-- A thread as its record keeps it: nothing of it in issue, and its first raised cause pending. -/
def Thread.parked (th : Thread) : Thread :=
  { th.pended with qin := th.qin.map fun q => { groups := q.groups.map fun g => { g with complete := true }, returning := [] } }

/-- The matrix unit as it is saved (R253): the array released, a halted MMAC at its next k, no grant. -/
def Matrix.parked (m : Matrix) : Matrix :=
  { m with cmds := m.cmds.map fun (k : MCmd) => { k with started := false }, holder := none, left := 0, release := false, running := false }

/-- A context as it is saved (R78, R253). -/
def Core.parked (k : Core) : Core := { k with threads := k.threads.map Thread.parked, mat := k.mat.parked }

/-- Saves one core: its area is written, and its context kept. -/
def saveCore (x : Launch) (y : Bunch) (i : Nat) (s : State) : State :=
  let c := coreOfIndex y.x y.y x.desc.w i
  let k := (s.core c).parked
  let image := withHeader (headerWords x y i c) s.freeCount (areaBody s.mem c k s.freeCount)
  let bad := (s.badMem.filter fun a => localKey c 0 ≤ a && a < localKey c localSize).map (· - localKey c 0)
  let s1 := writeArea x y.idx i image { s with freeCount := s.freeCount + 0x40000 }
  trace c 0 4 (y.haltCause * 2 ^ 8) (s1.modBunch x.id y.idx fun y => { y with saved := y.saved ++ [⟨k, c, image, bad⟩] })

/-- A piece as it is recorded when its stream's state is saved (R331): acknowledgements that arrive from now on are
discarded. A reduction that is held and acknowledged needs none. -/
def Piece.recorded (l b : Nat) (p : Piece) : Piece :=
  if p.src.launch = l ∧ p.src.bunch = b ∧ ¬(p.phase = .detHeld ∧ p.acked) then { p with orphan := true } else p

/-- The trap notice of an unhandled cause (R334). -/
def noticeOf (s : State) (x : Launch) (y : Bunch) (t : Raised × Nat × Nat) : Record :=
  ⟨noticeWords x.desc.lid y.idx t.1.cause t.2.2 (s.homeCore x.id y.idx t.2.1) t.1.tval y.tsave, some (x.id, some y.idx)⟩

/-- A save or a restore fails at core `i` (R332, R335). -/
def saveFails (x : Launch) (b i : Nat) (s : State) : State :=
  raiseFatal x.id b 0 (s.homeCore x.id b i) ⟨Cause.saveFail, saveAddr x.desc b i, 0, 0, true, false, 0⟩ s

/-- Saves a bunch that has halted: areas, contexts, accesses; its cores become unoccupied, and its notices are written. -/
def saveBunch (x : Launch) (y : Bunch) (s : State) : State :=
  let s1 := (List.range (x.desc.w * x.desc.h)).foldl (fun s i => saveCore x y i s)
    (s.modBunch x.id y.idx fun y => { y with saved := [] })
  let s2 := freeCores x.id (some y.idx) { s1 with net := s1.net.map (·.recorded x.id y.idx) }
  let s3 := s2.modBunch x.id y.idx fun y => { y with state := .saved, outSince := s.now }
  (kickPlacing ((y.trapped.map (noticeOf s x y)).foldl (fun s r => writeNotice r s) s3)).soon (.bunchSwapIn x.id y.idx)

/-- BUNCH_SAVE (R332): a halted bunch's state goes to its save areas. -/
def execBunchSave (l b : Nat) (s : State) : Host.Outcome State Fault Refusal :=
  .next (match s.launch? l with
    | none => s
    | some x =>
      match x.bunch? b with
      | none => s
      | some y =>
        if x.ended || y.state ≠ .halting || y.haltAsk then s
        else if x.desc.save % areaSize ≠ 0 then saveFails x b 0 s
        else match areaTest s x (5 + 2 * b) b true with
          | some (_, .page a e q lf) => seqWait l (5 + 2 * b) a e q lf s
          | some (i, _) => saveFails x b i s
          | none => saveBunch x y s)

/-! ## The trap-notice ring (R334) -/

/-- TN_RD_WRITE (R334): held notices are written as room allows. -/
def execTnRdWrite (s : State) : Host.Outcome State Fault Refusal :=
  onBus .tnRdWrite (fun s => flushNotices { s with pre := { s.pre with tnRd := BitVec.ofNat 32 s.busValue } }) s

/-- TN_BASE_WRITE (R334): a nonzero base configures the ring. -/
def execTnBaseWrite (s : State) : Host.Outcome State Fault Refusal :=
  onBus .tnBaseWrite (fun s => flushNotices { s with pre := { s.pre with tnBase := BitVec.ofNat 64 s.busValue } }) s

end Sys2Proof.Machine
end

