-- ==== Sys2Proof/Machine/Resume.lean ====
section
/-! DEFINITION. Swap-in: room, restored regions, recorded accesses, causes and threads (R48, R79, R253, R331, R333). -/

namespace Sys2Proof.Machine

open Sys2Proof

/-! ## Where a bunch returns (R48, R297) -/

/-- A reduction tree is installed on a core. -/
def Core.hasTree (k : Core) : Bool := k.trees.any fun p => match p.2 with
  | .installed _ => true
  | .aborted _ => false

/-- Where a ready bunch may return now (R48, R297). -/
def returnRoom (s : State) (x : Launch) (y : Bunch) : Option (Nat × Nat) :=
  if x.desc.pinned || y.saved.any fun v => v.ctx.hasTree then
    (if fitsAt s x.desc [] y.x y.y then some (y.x, y.y) else none)
  else findRoom s x.desc []

/-! ## Checking the areas (R332) -/

/-- A region of an area is as the device wrote it. -/
def sameRegion (a b : List Host.Cell) (r : Nat × Nat) : Bool := Mem.slice a r.1 r.2 == Mem.slice b r.1 r.2

/-- Every CRC that the header of an area holds matches its region (R332, log entry 51). -/
def crcsMatch (cells : List Host.Cell) : Bool :=
  areaCrcs cells == (List.range areaRegions.length).map fun j => ofBytes (Mem.readN cells (crcsAt + 4 * j) 4)

/-! ## Restoring a context (R333) -/

/-- A 64-bit word of an area. -/
def areaWord (cells : List Host.Cell) (o : Nat) : W64 := BitVec.ofNat 64 (ofBytes (Mem.readN cells o 8))

/-- The class a record's code gives a thread. -/
def recordClass (n : Nat) : TClass := if n = 3 then .ended else classOfCode n

/-- A code of Table 19.3 whose kind is Async. -/
def Cause.isAsync (code : Nat) : Bool := code = Cause.watchdog || code = Cause.timeSkew

/-- The pending cause a record gives (R332): its code, its tval, and the record's PC as the resume PC, which is also
FPC for an asynchronous cause (Table 19.1). -/
def recordCause (old : Option Raised) (code : Nat) (tval : W64) (pc : W32) : Option Raised :=
  if code = 0xFF then none
  else match old.filter fun r => r.cause = code with
    | some r => some { r with tval := tval.toNat, resume := pc, fpc := if r.async then pc else r.fpc }
    | none => some ⟨code, tval.toNat, pc, pc, Cause.isAsync code, false, 0⟩

/-- A thread with the fields of its record (R332). The record of an ended thread never resumes into one (R326). With a
pending deferred fault taken out of the record, the thread's next one may be raised. -/
def Thread.fromRecord (th : Thread) (w : Nat → W64) : Thread :=
  let pc := (w 0).setWidth 32
  let cause := recordCause th.pendCause (fieldOf (w 0x60) 8 8) (w 0xA0) pc
  let th1 := { th with
    pc := pc, status := w 0x08 &&& 0x61F, fflags := w 0x10 &&& 0x1FF, portcfg := w 0x18 &&& 0x3FF03FF,
    tvec := w 0x20 &&& 0xFFFFFFFF, temask0 := w 0x28, temask1 := w 0x30, cause := w 0x38, tval := w 0x40, epc := w 0x48,
    estat := w 0x50 &&& estatMask, stvec := w 0x58 &&& 0xFFFFFFFF, scause := w 0x80, stval := w 0x88, sepc := w 0x90,
    sestat := w 0x98 &&& estatMask, pendCause := cause
    deferOn := if (th.pendCause.any Raised.defer) && cause.all (fun (r : Raised) => !r.defer) then none else th.deferOn }
  if th.cls = .ended then { th1 with cls := if cause.isSome then .ended else .normal }
  else { th1 with cls := recordClass (fieldOf (w 0x60) 0 2), running := th.running && fieldOf (w 0x60) 0 2 ≠ 3 }

/-- The first granule of each slot's window in the slice file of an area (log entry 50). -/
def windowStarts : Nat → List Thread → List Nat
  | _, [] => []
  | g, th :: rest => g :: windowStarts (g + th.granules) rest

/-- A thread with the window of its area: slices rewritten there stand over every result in flight. -/
def Thread.fromSlices (th : Thread) (cells : List Host.Cell) (g : Nat) : Thread :=
  let w := BitVec.ofNat 8192 (ofBytes (Mem.readN cells (0x1000 + 32 * g) (32 * th.granules)))
  th.landBits (w ^^^ th.allWritten) w

/-- A context with what its area holds: regions as the device wrote them stand as they are. -/
def Core.fromArea (v : SavedCore) (cells : List Host.Cell) : Core :=
  let k := v.ctx
  let ts := if sameRegion cells v.image (0x200, 0x800) then k.threads
    else ((List.range 8).zip k.threads).map fun p => p.2.fromRecord fun o => areaWord cells (recordAt p.1 + o)
  let ts1 := if sameRegion cells v.image (0x1000, 0x2000) then ts
    else ((windowStarts 0 ts).zip ts).map fun p => p.2.fromSlices cells p.1
  let ft := if sameRegion cells v.image (0x9000, 0x2000) then k.ft
    else (List.range 1024).filterMap fun j =>
      let e := areaWord cells (0x9000 + 8 * j)
      if e = 0 then none else some (j, e)
  { k with threads := ts1, ft := ft }

/-- The pending cause of a record goes back among those of its kind, to be taken in the order of R327: a deferred fault in
issue order, ahead of asynchronous ones. A synchronous one stays ahead of both (log entry 79). -/
def Thread.unpend (th : Thread) : Thread :=
  match th.pendCause with
  | none => th
  | some r =>
    if th.cls = .ended then th
    else if r.async then { th with async := th.async ++ [r], pendCause := none }
    else match (if r.defer then th.deferOn else none) with
      | some o => { th with deferred := th.deferred ++ [⟨o, r.cause, r.tval, r.tag, r.fpc, o⟩], deferOn := none, pendCause := none }
      | none => th

/-- A thread about to issue again: a pending cause may be taken (R333), and the cycles spent out are counted (R379). -/
def Thread.back (th0 : Thread) (cycles ctr : Nat) : Thread :=
  let th := th0.unpend
  let more (cs : List W64) (j : Nat) : List W64 := cs.set j (cs.getD j 0 + BitVec.ofNat 64 cycles)
  { th with resumed := th.pendCause.isSome && th.cls ≠ .ended, tried := false
            counters := more (more th.counters ctr) 0xF }

/-- A core's context on the core it returns to, whose comparators it keeps (R378). -/
def Core.back (k : Core) (here : Core) (cycles ctr : Nat) : Core :=
  { k with threads := k.threads.map fun th => th.back cycles ctr
           stopped := false, issued := false, failed := here.failed, comps := here.comps
           vecFree := 0 }

/-- Events that a restored core awaits: landings whose responses are all there, engine commands, group completions, tasks and
handlers. -/
def coreEvents (c : Nat) (k : Core) : List Instr :=
  ((List.range 8).flatMap fun t =>
    ((k.thread t).landings.filter fun l => l.missing = 0 && !l.landed && l.kind ≠ .fence).map fun l => Instr.resultLanding c t l.id) ++
  ((List.range 4).filter fun q => !(k.engQueue q).cmds.isEmpty).map (Instr.engineCommandComplete c) ++
  [.taskQueueStart c, .handlerStart c]

/-- Puts core `i` of a bunch back at an origin: store, context, errors. -/
def putBack (x : Launch) (y : Bunch) (ox oy i : Nat) (v : SavedCore) (cells : List Host.Cell) (s : State) : State :=
  let c := coreOfIndex ox oy x.desc.w i
  let cycles := s.now - y.outSince
  let k := (Core.fromArea v cells).back (s.core c) cycles (if y.haltCause = Cause.pageSwap then 0xC else 0xB)
  let s1 : State := { s with mem := Mem.splice s.mem (localKey c 0) localSize (Mem.slice cells 0x40000 localSize)
                             badMem := (s.badMem.filter fun a => !(localKey c 0 ≤ a && a < localKey c localSize)) ++
                               v.bad.map (· + localKey c 0) }
  s1.setCore c k

/-- The events of a restored core begin, and its trees, matrix unit and fences go on. -/
def wake (c : Nat) (s : State) : State :=
  let k := s.core c
  let s0 := if k.merging then mergeSoon c s else s
  let s1 := (coreEvents c k).foldl (fun s i => s.later i) s0
  let s3 := k.trees.foldl (fun s p => kickTree c p.1 s) (kickMatrix c s1)
  let s4 := (List.range 8).foldl (fun s t => checkFences c t s) s3
  trace c 0 4 (1 + (((s.bunch? (s.occ c).launch (s.occ c).bunch).map Bunch.haltCause).getD 0) * 2 ^ 8) s4

/-- A recorded access that is sent again (R331): its response is taken from now on. One that waits at home for
invalidates (R121) is performed by their last acknowledgement. One whose fill has failed is not sent: its fault is found
(R125). -/
def resend (s : State) (p : Piece) : State :=
  let s1 := s.modPiece p.id fun q => { q with orphan := false, resends := 0, sentAt := s.now }
  if s.invWaits.any fun w => w.piece == p.id then s1.after 50000 (.accessResend p.id)
  else match p.phase with
  | .flying | .turn | .waiting | .paged =>
    let s2 := s1.modPiece p.id fun q => { q with phase := .flying }
    match p.op with
    | .clearance _ => (s2.laterBy (pathOf s p) (.releaseClearance p.id)).after 50000 (.accessResend p.id)
    | .cancel _ => s2.laterBy (pathOf s p) (.releaseCancel p.id)
    | _ => (s2.laterBy (pathOf s p) (.accessArrival p.id)).after 50000 (.accessResend p.id)
  | .done =>
    if p.err = some Cause.storageIo then (if p.told then s1 else tellFault p (s1.modPiece p.id fun q => { q with acked := true }))
    else if p.faulted then settleAccess p.src p.order s1 else (s1.laterBy (pathOf s p) (.ackArrival p.id)).after 50000 (.accessResend p.id)
  | .held | .detHeld => if p.acked then s1 else (s1.laterBy (pathOf s p) (.ackArrival p.id)).after 50000 (.accessResend p.id)
  | .held1 => s1.later (.remoteRetest p.id)
  | .unsent => s1

/-- The accesses recorded of a bunch are sent again, in the order of their own numbers within each stream. -/
def resendAll (l b : Nat) (s : State) : State :=
  (s.net.filter fun p => p.src.launch == l && p.src.bunch == b && p.orphan).foldl resend s

/-- A bunch returns at an origin (R333). -/
def swapIn (x : Launch) (y : Bunch) (ox oy : Nat) (areas : List (SavedCore × List Host.Cell)) (s : State) : State :=
  let cs := rectCores x.desc ox oy
  let s1 := ((List.range areas.length).zip areas).foldl (fun s p => putBack x y ox oy p.1 p.2.1 p.2.2 s) s
  let s2 := s1.modLaunch x.id fun x => { x with quiet := 0 }
  let s3 := s2.modBunch x.id y.idx fun y => { y with state := .placed, x := ox, y := oy, haltAsk := false, saved := [] }
  let s4 := cs.foldl (fun s c => wake c s) (resendAll x.id y.idx (resumeTrees x.id s3))
  ((pump s4).soon (.roundEnd x.id)).soon (.bunchRetire x.id y.idx)

/-- BUNCH_SWAP_IN (R333): a ready bunch whose notices are written, and for which there is room, is restored and resumes. -/
def execBunchSwapIn (l b : Nat) (s : State) : Host.Outcome State Fault Refusal :=
  .next (match s.launch? l with
    | none => s
    | some x =>
      match x.bunch? b with
      | none => s
      | some y =>
        if x.ended || !y.ready || s.pre.heldNotices.any (fun r => r.owner = some (l, some b)) then s
        else match returnRoom s x y with
          | none => s
          | some o =>
            match areaTest s x (6 + 2 * b) b false with
            | some (_, .page a e q lf) => seqWait l (6 + 2 * b) a e q lf s
            | some (i, _) => saveFails x b i s
            | none =>
              let areas := ((List.range y.saved.length).zip y.saved).map fun p => (p.2, readArea s x b p.1)
              match areas.findIdx? fun p => !crcsMatch p.2 with
              | some i => saveFails x b i s
              | none => swapIn x y o.1 o.2 areas s)

end Sys2Proof.Machine
end

