-- ==== Sys2Proof/Machine/TraceEvents.lean ====
section
/-! DEFINITION. Events of tracing: samples, frames that close, the ring's indices (R380 to R384, R387). -/

namespace Sys2Proof.Machine

open Sys2Proof

/-- The trace block whose register the transaction at hand writes. -/
def State.busField (s : State) : Nat := (s.bus.reg - 0x20000) / 0x100

/-- TRACE_FRAME_CLOSE (R383): the open frame of field `f` closes; it is written, dropped or kept (R384). -/
def execTraceFrameClose (f : Nat) (s : State) : Host.Outcome State Fault Refusal := .next (closeFrame f s)

/-- TRACE_FRAME_TIMEOUT (R383): the frame that follows `n` closed ones of field `f` closes 100 µs after its first record. -/
def execTraceFrameTimeout (f n : Nat) (s : State) : Host.Outcome State Fault Refusal :=
  .next (if (s.traceBlk f).closed = n then closeFrame f s else s)

/-- TR_RD_WRITE (R384, R387): room for a LEES frame and the frame kept; threads held by a full ring issue again. -/
def execTrRdWrite (s : State) : Host.Outcome State Fault Refusal :=
  onBus .trRdWrite (fun s =>
    let f := s.busField
    drainTrace f (putTrace f { s.traceBlk f with rd := BitVec.ofNat 32 s.busValue } s)) s

/-- TR_CTL_WRITE (R370, R380, R383): with the debug level off EN stays 0; clearing EN closes the open frame. -/
def execTrCtlWrite (s : State) : Host.Outcome State Fault Refusal :=
  onBus .trCtlWrite (fun s =>
    let f := s.busField
    let v := s.busValue
    let b := s.traceBlk f
    let en : Bool := v.testBit 0 && s.dbg.level ≠ 0
    let n := bits v 32 32
    let b1 := { b with en := en, stall := v.testBit 1, types := bits v 8 8, sample := n, nextSample := s.now + n }
    let s1 := if b.en && !en then closeFrame f s else s
    let s2 := s1.setTrace f { s1.traceBlk f with en := en, stall := b1.stall, types := b1.types, sample := n, nextSample := s.now + n }
    if en && n ≠ 0 then s2.after n .tracePcSample else s2) s

/-- The cores of a field that a bunch holds. -/
def fieldCores (s : State) (f : Nat) : List Nat :=
  (s.cores.filter fun p => p.2.owner.isSome && fieldOfCore p.1 == f).map Prod.fst

/-- Samples of the running threads of a field (R381). -/
def sampleField (f : Nat) (s : State) : State :=
  (fieldCores s f).foldl (fun s c => (List.range 8).foldl (fun s t =>
    let th := s.thread c t
    if th.running then trace c t 1 (th.pc.toNat + th.cclass % 2 ^ 8 * 2 ^ 32) s else s) s) s

/-- A field's sample, if its interval has elapsed. -/
def sampleDue (s : State) (f : Nat) : State :=
  let b := s.traceBlk f
  if b.en && b.sample ≠ 0 && b.nextSample ≤ s.now then
    let s1 := s.setTrace f { b with nextSample := s.now + b.sample }
    (sampleField f s1).after b.sample .tracePcSample
  else s

/-- TRACE_PC_SAMPLE (R381): the fields whose sample interval has elapsed. -/
def execTracePcSample (s : State) : Host.Outcome State Fault Refusal := .next ((List.range 48).foldl sampleDue s)

/-- Tracing stops everywhere (R370): EN reads 0, and open frames close. -/
def stopTracing (s : State) : State :=
  (List.range 48).foldl (fun s f =>
    if (s.traceBlk f).en then
      let s1 := closeFrame f s
      s1.setTrace f { s1.traceBlk f with en := false }
    else s) s

end Sys2Proof.Machine
end

