-- ==== Sys2Proof/Machine/Bringup.lean ====
section
/-! DEFINITION. Readiness, failures in service, power-up, reset, standby, links and wafer time (R12, R13, R132, R356,
R357, R364, R367, R370 to R373). -/

namespace Sys2Proof.Machine

open Sys2Proof

/-! ## `ready` (R371) -/

/-- `ready` changes; a change of any bit signals vector 17, and placement is tried again. -/
def setReady (f : Ready → Ready) (s : State) : State :=
  let r := f s.ready
  if r = s.ready then s else kickPlacing (({ s with ready := r } : State).signal 17)

/-- Bit `k` of a bit vector set to a value. -/
def setBit {n : Nat} (v : BitVec n) (k : Nat) (b : Bool) : BitVec n :=
  BitVec.ofNat n (setBits v.toNat k 1 (b2n b))

/-- Bring-up may go on past the host ports: the firmware is verified, a host port is ready, and the module is not in
standby (R370, R372, log entry 45). -/
def State.bringsUp (s : State) : Bool := s.ready.sec && s.ready.host ≠ 0 && !s.standby

/-- Bring-up may go on past the edge ports: one is ready (R372, log entry 45). -/
def State.bringsUpFields (s : State) : Bool := s.bringsUp && s.ready.edge ≠ 0

/-- Bring-up may go on past the fields: one is ready or drains (R372, log entry 45). -/
def State.bringsUpRest (s : State) : Bool := s.bringsUpFields && (s.ready.field ≠ 0 || !s.draining.isEmpty)

/-- Bring-up may go on past the Cellar engines: one is ready (R372, log entry 45). -/
def State.bringsUpLinks (s : State) : Bool := s.bringsUpRest && s.ready.cellar ≠ 0

/-- HOST_LINK_TRAINED (R372). -/
def execHostLinkTrained (p : Nat) (s : State) : Host.Outcome State Fault Refusal :=
  .next (if s.ready.sec && p < 4 then setReady (fun r => { r with host := setBit r.host p true }) s else s)

/-- EDGE_MEMORY_TRAINED (R372): port `p` has `size` bytes of DRAM behind it. -/
def execEdgeMemoryTrained (p size : Nat) (s : State) : Host.Outcome State Fault Refusal :=
  .next (if s.bringsUp && p < 64 then
      setReady (fun r => { r with edge := setBit r.edge p true }) (s.modEdge p fun e => { e with size := Nat.min size (2 ^ 39) })
    else s)

/-- CELLAR_DRIVES_READY (R372): bit d of `drives` says that drive d's controller is ready, bit 4 + d that its logical
blocks have 4,096 bytes rather than 512. -/
def execCellarDrivesReady (e drives : Nat) (s : State) : Host.Outcome State Fault Refusal :=
  .next (if s.bringsUpRest && e < 16 && s.edgeReady (4 * e) then
      let ds := ((List.range 4).filter fun d => drives.testBit d).map fun d => (d, if drives.testBit (4 + d) then 4096 else 512)
      setReady (fun r => { r with cellar := setBit r.cellar e true }) (s.modCellar e fun x => { x with drives := ds })
    else s)

/-- LINK_PORT_LOCKED (R356, R372): PHY lock, an agreed key, and 1588 lock. -/
def execLinkPortLocked (p : Nat) (s : State) : Host.Outcome State Fault Refusal :=
  .next (if s.bringsUpLinks && p < 16 && s.edgeReady (4 * p + 2) then
      setReady (fun r => { r with link := setBit r.link p true }) { s with links := s.links.set p ⟨true, 0, s.now⟩ }
    else s)

/-- LINK_PORT_DOWN (R356): a link that delivers nothing for 10 ms is not ready, and collectives with a step on it
complete with ERR 2. -/
def execLinkPortDown (p : Nat) (s : State) : Host.Outcome State Fault Refusal :=
  .next (if s.ready.link.getLsbD p then
      let s1 := setReady (fun r => { r with link := setBit r.link p false })
        { s with links := s.links.set p ⟨false, 0, s.now⟩ }
      (s.colls.filter fun x => !x.done && x.err.isNone && (x.ports s).any (· == p)).foldl (fun s x => failColl x.id 2 s) s1
    else s)

/-- LINK_FLIT_RETRY (R356): a flit is sent again; retry changes latency only. -/
def execLinkFlitRetry (s : State) : Host.Outcome State Fault Refusal := .next s

/-- LINK_REKEY (R356): a new key, with its nonce counter at 0; it changes latency only. -/
def execLinkRekey (p : Nat) (s : State) : Host.Outcome State Fault Refusal :=
  .next { s with links := s.links.set p { s.links.getD p ⟨false, 0, 0⟩ with nonce := 0 } }

/-- TIME_SYNC (R357): before the first launch TIME may step forward; after it TIME is slewed by at most 100 ppm (log entry 60). -/
def execTimeSync (s : State) : Host.Outcome State Fault Refusal :=
  .next (
    let (k, s1) := s.fresh
    if s.nextLaunch = 0 then { s1 with now := s.now + (Config.freeWord k).toNat, syncAt := s.now + (Config.freeWord k).toNat }
    else if s.syncAt + 10000 ≤ s.now && Config.freeBool k then { s1 with now := s.now + 1, syncAt := s.now + 1 }
    else s1)

/-! ## Failures in service (R13, R132, R335) -/

/-- A core fails: a machine check in its bunch, and its field drains (R13). -/
def failCore (c : Nat) (s : State) : State :=
  let f := fieldOfCore c
  let s1 := match (s.core c).owner with
    | some o => raiseFatal o.launch o.bunch 0 (s.homeOf c) ⟨Cause.mchkCore, s.homeOf c, 0, 0, true, false, 0⟩ s
    | none => s
  let s2 := s1.modCore c fun k => { k with failed := true }
  kickPlacing { s2 with draining := if f ∈ s2.draining then s2.draining else s2.draining ++ [f] }

/-- CORE_FAILURE (R13). -/
def execCoreFailure (c : Nat) (s : State) : Host.Outcome State Fault Refusal :=
  .next (if c < meshW * meshH then failCore c s else s)

/-- The path of a transfer between two cores in dimension order, X first (R11), crosses the link between two neighbours. -/
def crosses (src dst a b : Nat) : Bool :=
  let between (p q x : Nat) : Bool := Nat.min p q ≤ x && x < Nat.max p q
  if coreY a = coreY b then
    coreY a == coreY src && between (coreX src) (coreX dst) (Nat.min (coreX a) (coreX b))
  else coreX a == coreX dst && between (coreY src) (coreY dst) (Nat.min (coreY a) (coreY b))

/-- A core holds part of a bunch. -/
def holdsBunch (s : State) (l b c : Nat) : Bool := (s.core c).owner.any fun o => o.launch == l && o.bunch == b

/-- A transfer between two places crosses a link, if both are on the mesh. -/
def crossing (a d : Nat) (src dst : Option Nat) : Bool :=
  match src, dst with
  | some c, some e => crosses c e a d
  | _, _ => false

/-- Requests, responses and acknowledgements of a bunch's accesses to other cores on a link. -/
def carriesAccess (s : State) (l b a d : Nat) : Bool :=
  s.net.any fun p => p.src.launch == l && p.src.bunch == b && !p.loc && !p.atCore && match p.tgt with
    | .core c =>
      let here := (s.whereIs p.src).map Prod.fst
      let there := s.placeNow l c
      if p.phase = .flying then crossing a d here there else !p.acked && crossing a d there here
    | _ => false

/-- Messages, events and partials of a bunch on a link: those it sends and those that come to it. -/
def carriesMessage (s : State) (l b a d : Nat) : Bool :=
  let mine (c : Option Nat) : Bool := c.any (holdsBunch s l b)
  s.msgs.any (fun m => m.src.launch == l && m.src.bunch == b &&
    crossing a d ((s.whereIs m.src).map Prod.fst) (s.placeNow l m.core)) ||
  s.evs.any (fun e =>
    let dst := (s.whereIs e.dst).map Prod.fst
    (mine e.src || mine dst) && crossing a d e.src dst) ||
  s.treeMsgs.any fun m =>
    let dst := s.placeNow m.launch m.core
    (mine (some m.at_) || mine dst) && crossing a d (some m.at_) dst

/-- A link carries traffic of a bunch: it holds a core at one end, or something of it is on its way across. -/
def carries (s : State) (l b a d : Nat) : Bool :=
  holdsBunch s l b a || holdsBunch s l b d || carriesAccess s l b a d || carriesMessage s l b a d

/-- A bunch has accesses under way to or from a port: the spec does not place the ports on the mesh, so which links carry them
is free (log entry 57). -/
def portTraffic (s : State) (l b : Nat) : Bool :=
  s.net.any fun p => p.src.launch == l && p.src.bunch == b && !p.loc && !p.atCore && !p.acked && match p.tgt with
    | .core _ => false
    | _ => true

/-- The machine check of a failed link in a bunch (R335): the core of the bunch at one end, if it has one there. -/
def linkCheck (l b a d : Nat) (s : State) : State :=
  let e := if holdsBunch s l b a || !holdsBunch s l b d then a else d
  raiseFatal l b 0 (s.homeOf e) ⟨Cause.mchkLink, s.homeOf e, 0, 0, true, false, 0⟩ s

/-- What a failed link does to a bunch (R132). -/
def linkHits (a d : Nat) (s : State) (m : Nat × Nat) : State :=
  if carries s m.1 m.2 a d then linkCheck m.1 m.2 a d s
  else if portTraffic s m.1 m.2 then
    let (b, s1) := s.choose
    if b then linkCheck m.1 m.2 a d s1 else s1
  else s

/-- MESH_LINK_FAILURE (R132): the link of core `c` in a direction fails; R13 applies to the cores at its ends. -/
def execMeshLinkFailure (c dir : Nat) (s : State) : Host.Outcome State Fault Refusal :=
  .next (match (if c < meshW * meshH then neighbour c dir else none) with
    | none => s
    | some d =>
      let all := s.launches.flatMap fun x => x.bunches.map fun y => (x.id, y.idx)
      failCore d (failCore c (all.foldl (linkHits c d) s)))

/-- GRAFTING (R12, R13): at power-up for a field not ready, or once a draining field is empty; `ok` says whether its
spares cover its defects. -/
def execGrafting (f : Nat) (ok : Bool) (s : State) : Host.Outcome State Fault Refusal :=
  .next (
    let drains : Bool := s.draining.any (· == f)
    if !s.bringsUpFields || 48 ≤ f || (s.ready.field.getLsbD f && !drains) || (drains && !(fieldCores s f).isEmpty) then s
    else
      let s1 : State := { s with
        draining := s.draining.filter (· ≠ f)
        cores := s.cores.map fun (p : Nat × Core) => if fieldOfCore p.1 = f then (p.1, { p.2 with failed := false }) else p }
      kickPlacing (setReady (fun r => { r with field := setBit r.field f ok }) s1))

/-! ## Power-up, reset and standby (R364, R367, R370) -/

/-- Nothing is ready but what an argument keeps. -/
def Ready.only (sec : Bool) (host : BitVec 4) : Ready := ⟨0, 0, sec, host, 0, 0⟩

/-- A machine with every register at its reset value: time, names, drives' contents, what is fused and assigned stay. -/
def rebooted (s : State) (mem : List Host.Cell) : State :=
  { State.reset with
    now := s.now, syncAt := s.syncAt, freeCount := s.freeCount, nextId := s.nextId, nextLaunch := s.nextLaunch, mem := mem
    wafer := s.wafer, campus := s.campus, msix := s.msix, asked := s.asked, answers := s.answers
    dbg := { State.reset.dbg with secState := if s.security.fused then 2 else 0 }
    security := { State.reset.security with fused := s.security.fused, identity := s.security.identity,
                                            lastNonce := s.security.lastNonce } }

/-- Bytes of a constant of the configuration. -/
def constBytes (f : Nat → Byte) (n : Nat) : List Byte := (List.range n).map f

/-- The firmware image in module flash. -/
def firmwareImage : List Byte := constBytes Config.firmwareByte Config.firmwareSize

/-- The vendor's signature of a message, under the key whose SHA-512 digest is fused (R364, R369). -/
def vendorVerifies (msg sig : List Byte) : Bool :=
  let key := constBytes Config.vendorKey 132
  Sha.sha512 key == constBytes Config.vendorDigest 64 && P521.verifies key msg sig

/-- The security unit verifies the firmware image (R364); one that fails is not run, and no bit of `ready` is set. -/
def verifyFirmware (s : State) : State :=
  if vendorVerifies firmwareImage (constBytes Config.firmwareSig 132) then setReady (fun r => { r with sec := true }) s else s

/-- The module starts again: the bits of `ready` that were set clear, which is signalled (R371), and the firmware is
verified. -/
def restart (s : State) (mem : List Host.Cell) : State :=
  let s1 := rebooted s mem
  verifyFirmware (if s.ready = s1.ready then s1 else s1.signal 17)

/-- The memories that power does not keep are empty (log entry 4). -/
def drivesOnly (m : List Host.Cell) : List Host.Cell := m.filter fun c => hostKey 0 0 ≤ c.1

/-- POWER_UP (R364): stores and registers as at reset, and the firmware is verified. -/
def execPowerUp (s : State) : Host.Outcome State Fault Refusal :=
  .next (restart s (drivesOnly s.mem))

/-- RESET (R367): every register at its reset value, the security state locked, and bring-up begins again. -/
def execReset (s : State) : Host.Outcome State Fault Refusal :=
  .next (restart s s.mem)

/-- A launch holds a core or is swapped out (R370). -/
def standbyBarred (s : State) : Bool :=
  s.cores.any (fun p => p.2.owner.isSome) || s.launches.any fun x => x.bunches.any fun y => y.state = .saved

/-- STANDBY_REQUEST (R370): refused while a launch holds a core or is swapped out; else only SEC and the host ports stay
ready. -/
def execStandbyRequest (s : State) : Host.Outcome State Fault Refusal :=
  onBus .standbyRequest (fun s =>
    if standbyBarred s then { s with pwRefused := true }
    else setReady (fun r => .only r.sec r.host) { s with standby := true, pwRefused := false }) s

/-- STANDBY_EXIT (R370): bring-up is repeated from the edge ports. -/
def execStandbyExit (s : State) : Host.Outcome State Fault Refusal :=
  onBus .standbyExit (fun s => { s with standby := false, pwRefused := false }) s

end Sys2Proof.Machine
end

