-- ==== Sys2Proof/Machine/Control.lean ====
section
/-! DEFINITION. Control instructions: branches, calls, loops, repetition and YIELD (R193 to R201). -/

namespace Sys2Proof.Machine

open Sys2Proof

/-- The target of a J-form transfer (R152). -/
def jumpTarget (c : Ctx) : W32 := c.th.pc + c.v.off.getD 0

/-- BR (R193): PC plus offset; a taken BR clears the frames it leaves (R198). -/
def execBr (h : Hdr) (off : BitVec 32) (s : State) : Host.Outcome State Fault Refusal :=
  run (.br h off) (fun v => { v := v }) (fun c => .ok { jump := some (jumpTarget c, true) }) s

/-- JMP (R194): PC is A at 32 bits with zero extension. -/
def execJmp (h : Hdr) (a : Opnd) (s : State) : Host.Outcome State Fault Refusal :=
  run (.jmp h a) (fun v => { v := v, ra := some 32 }) (fun c => .ok { jump := some (BitVec.ofNat 32 (c.a 32 true), true) }) s

/-- CALL (R195): PC + 1 to s16:32, then PC plus offset. -/
def execCall (h : Hdr) (off : BitVec 32) (s : State) : Host.Outcome State Fault Refusal :=
  run (.call h off) (fun v => { v := v, moreW := [.slices 16 8] }) (fun c =>
    .ok { writes := [.win 64 32 (c.th.pc + 1).toNat], jump := some (jumpTarget c, false) }) s

/-- CALLR (R195): PC + 1 to D at D's width, then PC is A. -/
def execCallr (h : Hdr) (d a : Opnd) (s : State) : Host.Outcome State Fault Refusal :=
  run (.callr h d a) (fun v => { v := v, ra := some 32, wd := some (opWidth v), wide := Nat.max 32 (opWidth v) }) (fun c =>
    .ok { writes := writeLoc c.ld c.w (c.th.pc + 1).toNat, jump := some (BitVec.ofNat 32 (c.a 32 true), false) }) s

/-- A frame of LOOP (Table 11.6). -/
def loopFrame (start last count : Nat) : W64 :=
  BitVec.ofNat 64 (2 ^ 63 + last % 2 ^ 14 * 2 ^ 46 + start % 2 ^ 14 * 2 ^ 32 + count % 2 ^ 32)

/-- The bank with a frame in its first free place (R197). -/
def LoopBank.open_ (b : LoopBank) (f : W64) : LoopBank :=
  if frameV b.loopst0 then { b with loopst1 := f } else { b with loopst0 := f }

/-- LOOP (R197): the body beyond the image traps, a count of 0 passes over it, else a frame opens. -/
def execLoop (h : Hdr) (a : Opnd) (imm : BitVec 15) (s : State) : Host.Outcome State Fault Refusal :=
  run (.loop h a imm) (fun v => { v := v, ra := some 32 }) (fun c =>
    let n := c.a 32 false
    let pc := c.th.pc.toNat
    let len := c.immNat
    if ¬ inImage c.s c.c (pc + len) then .error (.trap Cause.fetchRange (pc + len))
    else if n = 0 then .ok { jump := some (c.th.pc + BitVec.ofNat 32 (len + 1), false) }
    else if frameV c.th.loops.loopst0 && frameV c.th.loops.loopst1 then .error (.trap Cause.loopDepth 0)
    else .ok { pre := fun th => { th with loops := th.loops.open_ (loopFrame (pc + 1) (pc + len) n) } }) s

/-- Opcodes REP repeats (R199). -/
def repeatable (n : Nat) : Bool :=
  (0x001 ≤ n && n ≤ 0x030) || (0x080 ≤ n && n ≤ 0x18F) || (0x200 ≤ n && n ≤ 0x20C) || (0x280 ≤ n && n ≤ 0x285)

/-- `repstate` of a REP that starts (Table 11.7). -/
def repWord (n ena : Nat) : W64 := BitVec.ofNat 64 (2 ^ 53 + ena % 8 * 2 ^ 48 + n % 2 ^ 24 * 2 ^ 24)

/-- A frame's last body instruction is at a PC. -/
def endsAt (f : W64) (pc : Nat) : Bool := frameV f && fieldOf f 46 14 == pc

/-- REP (R199): checks in order; N = 0 completes with I at once, the loop test being made at I. -/
def execRep (h : Hdr) (a : Opnd) (imm : BitVec 15) (s : State) : Host.Outcome State Fault Refusal :=
  run (.rep h a imm) (fun v => { v := v, ra := some 32 }) (fun c =>
    let n := c.a 32 false
    let pc := c.th.pc.toNat
    let next := c.th.pc + 1
    let word := ofBytes (codeBytes c.s c.c next)
    if 2 ^ 24 ≤ n then .error (.trap Cause.illegalOperand n)
    else if ¬ inImage c.s c.c (pc + 1) then .error (.trap Cause.fetchRange (pc + 1))
    else if ¬ repeatable (word % 2 ^ 10) ∨ endsAt c.th.loops.loopst0 pc ∨ endsAt c.th.loops.loopst1 pc then
      .error (.trap Cause.repTarget (trunc word 64))
    else .ok { jump := some (next, false), post := fun s => s.modMe fun th =>
      if n = 0 then
        let r := loopTest th.loops th.pc (th.pc + 1)
        { th with loops := r.1, pc := r.2, pos := th.pos + 1 }
      else { th with loops := { th.loops with repstate := repWord n c.immNat } } }) s

/-- The other normal threads of the core that may still be considered in this cycle (R201): those whose instruction
turns out to wait or to be held are taken out at its end (`settleSlot`). -/
def yieldsTo (s : State) : List Nat :=
  (List.range 8).filter fun t =>
    let th := s.thread s.curCore t
    t ≠ s.curSlot && th.running && th.cls = .normal && th.pendCause.isNone && th.held.isNone &&
    th.busyTo ≤ s.now && !th.tried && !(th.halted && !th.stepping) && !th.yields s.now

/-- YIELD (R201): passed over until those threads have issued once, or for 8 cycles. -/
def execYield (h : Hdr) (s : State) : Host.Outcome State Fault Refusal :=
  run (.yield h) (fun v => { v := v }) (fun c =>
    let l := yieldsTo c.s
    .ok { post := fun s => s.modMe fun th => { th with yieldTo := s.now + 9, yieldFor := l } }) s

end Sys2Proof.Machine
end

