-- ==== Sys2Proof/Machine/Security.lean ====
section
/-! DEFINITION. Security state, debug level, authorisation, attestation and return to vendor (R365 to R370). -/

namespace Sys2Proof.Machine

open Sys2Proof

/-- Fresh bytes that the spec does not state, and the state in which they are used up. -/
def freshBytes (n : Nat) (s : State) : List Byte × State :=
  ((List.range n).map fun j => Config.freeByte (s.freeCount + j), { s with freeCount := s.freeCount + n })

/-! ## Security state and debug level (R367, R370) -/

/-- The debug block changed. -/
def State.modDebug (s : State) (f : Debug → Debug) : State := { s with dbg := f s.dbg }

/-- The debug level set; at off no record is formed, and open trace frames close. -/
def setLevel (n : Nat) (s : State) : State :=
  let s1 := if n = 0 then stopTracing s else s
  s1.modDebug fun d => { d with level := n }

/-- A core when the module becomes locked: comparators off, threads halted by the debugger go on. -/
def Core.unlocked (k : Core) : Core :=
  { k with comps := k.comps.map fun x => { x with v := false }, dbgHalt := false
           threads := k.threads.map fun th => { th with halted := false, stepping := false } }

/-- What the cores of a bunch that is no longer halted do next. -/
def kickCores (cs : List Nat) (s : State) : State :=
  cs.foldl (fun s c => (s.soon (.handlerStart c)).soon (.taskQueueStart c)) s

/-- Entry to locked (R367). -/
def lockModule (s : State) : State :=
  let s1 := setLevel 0 (s.modDebug fun d => { d with secState := 0 })
  let s2 : State := { s1 with
    cores := s1.cores.map fun p => (p.1, p.2.unlocked)
    launches := s1.launches.map fun (x : Launch) => { x with bunches := x.bunches.map fun (y : Bunch) => { y with halted := false } } }
  kickCores (Tbl.keys s2.cores) (s2.mapSaved Core.unlocked)

/-- DBG_SEC_WRITE (R367, Table 23.12): 0 locks, unless the module has returned to the vendor; other writes are ignored. -/
def execDbgSecWrite (s : State) : Host.Outcome State Fault Refusal :=
  onBus .dbgSecWrite (fun s => if s.busValue % 4 = 0 && s.dbg.secState ≠ 2 then lockModule s else s) s

/-- DBG_LVL_WRITE (R367, R368): 3 is ignored; a level the state does not admit sets ERR 1. -/
def execDbgLvlWrite (s : State) : Host.Outcome State Fault Refusal :=
  onBus .dbgLvlWrite (fun s =>
    let n := s.busValue % 4
    if n = 3 then s
    else if n ≠ 0 && s.dbg.secState = 0 then s.modDebug fun d => { d with err := 1 }
    else setLevel n s) s

/-! ## Authorisation (R368) -/

/-- A new challenge, unless three failures in a row have locked it out. -/
def newChallenge (s : State) : State :=
  if s.dbg.lockout ≠ 0 then s
  else
    let (bs, s1) := freshBytes 64 s
    s1.modDebug fun d => { d with chal := bs, chalOk := true, authOk := false, authFail := false }

/-- The owner's signature of a challenge, under the key whose SHA-512 digest is fused (R367, R368). -/
def ownerVerifies (chal resp : List Byte) : Bool :=
  let key := constBytes Config.ownerKey 132
  Sha.sha512 key == constBytes Config.ownerDigest 64 && P521.verifies key chal resp

/-- A response is checked: one challenge serves one check. -/
def verifyResponse (s : State) : State :=
  let d := s.dbg
  if d.chalOk && ownerVerifies d.chal d.resp then
    s.modDebug fun d => { d with chalOk := false, authOk := true, authFail := false, fails := 0,
                                 secState := if d.secState = 0 then 1 else d.secState }
  else
    let s1 := s.modDebug fun d => { d with chalOk := false, authOk := false, authFail := true, fails := d.fails + 1 }
    if 3 ≤ s1.dbg.fails then
      (s1.modDebug fun d => { d with lockout := s.now + 10000000000 }).after 10000000000 .authLockoutExpiry
    else s1

/-- DBG_AUTH_NEWCHAL (R368). A write that sets both bits then checks the response. -/
def execDbgAuthNewchal (s : State) : Host.Outcome State Fault Refusal :=
  onBus .dbgAuthNewchal (fun s => if s.bus.fresh.testBit 1 then verifyResponse (newChallenge s) else newChallenge s) s

/-- DBG_AUTH_VERIFY (R368). -/
def execDbgAuthVerify (s : State) : Host.Outcome State Fault Refusal := onBus .dbgAuthVerify verifyResponse s

/-- AUTH_LOCKOUT_EXPIRY (R368): 10 s after the third failure. -/
def execAuthLockoutExpiry (s : State) : Host.Outcome State Fault Refusal :=
  .next (if s.dbg.lockout ≠ 0 && s.dbg.lockout ≤ s.now then s.modDebug fun d => { d with lockout := 0, fails := 0 } else s)

/-! ## Attestation (R365, R366) -/

/-- The security block changed. -/
def State.modSecurity (s : State) (f : Security → Security) : State := { s with security := f s.security }

/-- ATTESTATION_GO (R365): ignored with ERR 1 while BUSY. -/
def execAttestationGo (s : State) : Host.Outcome State Fault Refusal :=
  onBus .attestationGo (fun s =>
    if s.security.busy then s.modSecurity fun x => { x with err := 1 }
    else (s.modSecurity fun x => { x with busy := true, done := false, err := 0 }).later .attestationReportDone) s

/-- The identity private key as a scalar. -/
def identityScalar : Nat := P521.scalar Config.identityPrivate

/-- The identity public key, X then Y. -/
def identityKey : List Byte := P521.publicKey identityScalar

/-- The part of the report that is signed, bytes 0x000 to 0x15F (Table 23.3). -/
def reportBody (s : State) : List Byte :=
  toBytes 1 4 ++ toBytes s.dbg.secState 1 ++ toBytes s.dbg.level 1 ++ toBytes 0 2 ++ toBytes s.now 8 ++
  s.security.nonce ++ Sha.sha512 firmwareImage ++ Sha.sha512 (constBytes (Config.fuseByte s.security.fused) Config.fuseSize) ++
  identityKey ++ toBytes 0 12

/-- The report (Table 23.3), with a signature. -/
def report (s : State) (sig : List Byte) : List Byte := reportBody s ++ sig ++ toBytes 0 28

/-- The signature of the report with the identity key, whose secret number is free; zero once the module has returned to the
vendor, which erased the key (R366, R367). -/
def signReport (s : State) : List Byte × State :=
  if s.security.fused then (toBytes 0 132, s)
  else
    let (bs, s1) := freshBytes 66 s
    (P521.sign identityScalar (P521.scalar (ofBytes bs)) (reportBody s), s1)

/-- ATTESTATION_REPORT_DONE (R366): the report is written and vector 19 signalled. -/
def execAttestationReportDone (s : State) : Host.Outcome State Fault Refusal :=
  .next (if !s.security.busy then s
    else
      let (sig, s1) := signReport s
      let a := s.security.dest.toNat
      let (ok, s2) : Bool × State := match (if a % 512 = 0 then s1.physWrite .firmware a (report s sig) else none) with
        | some s2 => (true, s2)
        | none => (false, s1)
      (s2.modSecurity fun x => { x with busy := false, done := true, err := if ok then x.err else 2, lastNonce := s.security.nonce }).signal 19)

/-! ## Return to vendor (R369) -/

/-- ERR of a vendor command; 0 where it is accepted. -/
def vendorError (s : State) : Nat :=
  let c := s.security.rtvCmd
  if s.security.fused then 4
  else if (c.drop 8).take 64 ≠ Sha.sha512 identityKey then 1
  else if (c.drop 0x48).take 64 ≠ s.security.lastNonce then 2
  else if !vendorVerifies (c.take 0x88) ((c.drop 0x88).take 132) then 3
  else 0

/-- RTVGO (R369). -/
def execRtvgo (s : State) : Host.Outcome State Fault Refusal :=
  onBus .rtvgo (fun s =>
    if s.security.rtvBusy then s
    else
      let e := vendorError s
      let s1 := s.modSecurity fun x => { x with rtvDone := true, rtvErr := e }
      if e = 0 then
        (s1.modSecurity fun x => { x with fused := true, identity := false }).modDebug fun d => { d with secState := 2 }
      else s1) s

end Sys2Proof.Machine
end

