-- ==== Sys2Proof/Machine/Debugger.lean ====
section
/-! DEFINITION. The commands of the debug mailbox (R68, R163, R336, R374 to R378). -/

namespace Sys2Proof.Machine

open Sys2Proof

/-! ## The mailbox (Tables 23.5 and 23.6) -/

/-- CORE of the command at hand. -/
def Debug.core (d : Debug) : Nat := fieldOf d.cmd 0 17

/-- SLOT of the command at hand. -/
def Debug.slot (d : Debug) : Nat := fieldOf d.cmd 17 3

/-- A core that the mailbox may name: on the mesh, in a ready field. -/
def State.coreThere (s : State) (c : Nat) : Bool := c < meshW * meshH && s.coreReady c

/-- A command ends with an error. -/
def debugErr (n : Nat) (s : State) : State := s.modDebug fun d => { d with err := n }

/-- A write of `dbg_cmd` (R374): ignored with ERR 5 while BUSY. A command runs at one instant; it ends with ERR 1 below its
level, and with ERR 2 where its core is not there. -/
def debugCmd (i : Instr) (lvl : Nat) (named : Bool) (act : Nat → Nat → State → State) (s : State) :
    Host.Outcome State Fault Refusal :=
  onBus i (fun s =>
    if s.dbg.busy then debugErr 5 s
    else
      let v := BitVec.ofNat 64 s.busValue &&& dbgCmdMask
      let s1 := s.modDebug fun d => { d with cmd := v, err := 0, precise := false, cancel := false, gated := false, done := true }
      let d := s1.dbg
      if s1.debugLevel < lvl then debugErr 1 s1
      else if named && !s1.coreThere d.core then debugErr 2 s1
      else act d.core d.slot s1) s

/-- ARG0 and ARG1. -/
def State.arg0 (s : State) : Nat := s.dbg.arg0.toNat

/-- ARG1. -/
def State.arg1 (s : State) : Nat := s.dbg.arg1.toNat

/-- DATA with its low bits replaced. -/
def putData (len v : Nat) (s : State) : State :=
  s.modDebug fun d => { d with data := toBytes (setBits (ofBytes d.data) 0 len v) 256 }

/-! ## Slices (R68, R163) -/

/-- A range of slices that a command may name. -/
def slicesOk (first n : Nat) : Bool := 1 ≤ n && n ≤ 512 && first + n ≤ 2048

/-- Slices of a thread as a debugger reads them: results in flight written, gated slices 0. -/
def Thread.debugSlices (th : Thread) (first n : Nat) : Nat := bits (trunc th.allWritten.toNat (4 * th.slices)) (4 * first) (4 * n)

/-- RSLICE (R374): a drowsy window wakes. -/
def execRslice (s : State) : Host.Outcome State Fault Refusal :=
  debugCmd .rslice 1 true (fun c t s =>
    let first := s.arg0
    let n := s.arg1
    let th := s.thread c t
    if !slicesOk first n then debugErr 4 s
    else (putData (4 * n) (th.debugSlices first n) (s.modThread c t fun th => { th with drowsy := false })).modDebug fun d =>
      { d with gated := th.slices < first + n }) s

/-- A result whose tag covers some window bits no more (R163); without a tag it covers them still. -/
def Landing.uncover (mask : BitVec 8192) (l : Landing) : Landing :=
  if l.tag = 0 then l else { l with cover := l.cover &&& ~~~mask }

/-- A thread with window bits written by a debugger: they leave the covers of busy tags (R163), and a group written whole
is sound again (R67). -/
def Thread.debugWrite (th : Thread) (mask value : BitVec 8192) : Thread :=
  { th.landBits mask value with landings := th.landings.map (·.uncover mask), drowsy := false }

/-- The busy tags' results that are to land on window bits. -/
def Thread.covers (th : Thread) (mask : BitVec 8192) : List Landing :=
  th.landings.filter fun l => l.tag ≠ 0 && !l.landed && l.cover &&& mask ≠ 0

/-- Each removal from a tag's cover sets CANCEL and is logged as a stale read, at the PC of the tag's producer (R163,
R339). -/
def noteCancel (a : Agent) (ls : List Landing) (s : State) : State :=
  ls.foldl (fun s l => logNd a 3 l.pc (s.modDebug fun d => { d with cancel := true })) s

/-- WSLICE (R374): writes to gated slices are discarded. -/
def execWslice (s : State) : Host.Outcome State Fault Refusal :=
  debugCmd .wslice 2 true (fun c t s =>
    let first := s.arg0
    let n := s.arg1
    let th := s.thread c t
    if !slicesOk first n then debugErr 4 s
    else
      let k := Nat.min n (th.slices - first)
      let mask := BitVec.ofNat 8192 ((2 ^ (4 * k) - 1) <<< (4 * first))
      let value := BitVec.ofNat 8192 (ofBytes s.dbg.data <<< (4 * first))
      let s1 := (s.setThread c t (th.debugWrite mask value)).modDebug fun d => { d with gated := th.slices < first + n }
      noteCancel (s.agent c t) (th.covers mask) s1) s

/-! ## CSRs and local store -/

/-- RCSR (R374). -/
def execRcsr (s : State) : Host.Outcome State Fault Refusal :=
  debugCmd .rcsr 1 true (fun c t s =>
    if (csrMode s.arg0).isNone then debugErr 4 s else putData 64 (csrRead s c t s.arg0).toNat s) s

/-- WCSR (R317, R374): at F level; a register that S may not write, or a value R317 refuses, is a bad argument. -/
def execWcsr (s : State) : Host.Outcome State Fault Refusal :=
  debugCmd .wcsr 2 true (fun c t s =>
    match csrMode s.arg0 with
    | some (_, _, true) => if badRange s.arg0 s.dbg.arg1 then debugErr 4 s else csrWrite c t s.arg0 s.dbg.arg1 2 s
    | _ => debugErr 4 s) s

/-- A range of local store that a command may name. -/
def localOk (o n : Nat) : Bool := 1 ≤ n && n ≤ 256 && o + n ≤ localSize

/-- RMEM (R374). -/
def execRmem (s : State) : Host.Outcome State Fault Refusal :=
  debugCmd .rmem 1 true (fun c _ s =>
    if localOk s.arg0 s.arg1 then putData (8 * s.arg1) (loadN s (localKey c s.arg0) s.arg1) s else debugErr 4 s) s

/-- WMEM (R374): the code region may be written. -/
def execWmem (s : State) : Host.Outcome State Fault Refusal :=
  debugCmd .wmem 2 true (fun c _ s =>
    if localOk s.arg0 s.arg1 then storeBytes s (localKey c s.arg0) (s.dbg.data.take s.arg1) else debugErr 4 s) s

/-! ## Halts, steps and comparators -/

/-- HALT (R375). -/
def execHalt (s : State) : Host.Outcome State Fault Refusal := debugCmd .halt 2 true (fun c t s => haltThread c t s) s

/-- No message of a bunch is undelivered, and none to it is in flight (R376). -/
def precise (s : State) (l b : Nat) : Bool :=
  !(s.msgs.any fun m => (m.src.launch == l && m.src.bunch == b) ||
    (m.src.launch == l && match s.resolve l m.core with
      | .member d _ => d == b
      | .physical _ => false))

/-- HALTB (R375, R376): the bunch that holds the core. -/
def execHaltb (s : State) : Host.Outcome State Fault Refusal :=
  debugCmd .haltb 2 true (fun c _ s =>
    match (s.core c).owner with
    | some o => (haltBunchDebug o.launch o.bunch s).modDebug fun d => { d with precise := precise s o.launch o.bunch }
    | none => debugErr 2 s) s

/-- A core whose bunch the debugger resumes. -/
def Core.resumed (k : Core) : Core :=
  { k with dbgHalt := false, threads := k.threads.map fun th => { th with halted := false, stepping := false } }

/-- RESUME (R374): a thread, or every thread of a bunch halted by HALTB. -/
def execResume (s : State) : Host.Outcome State Fault Refusal :=
  debugCmd .resume 2 true (fun c t s =>
    if s.arg0 % 2 = 0 then
      if (s.thread c t).halted then s.modThread c t fun th => { th with halted := false, stepping := false } else debugErr 3 s
    else match (s.core c).owner with
      | none => debugErr 2 s
      | some o =>
        if !(s.bunch? o.launch o.bunch).any Bunch.halted then debugErr 3 s
        else
          let cs := bunchCores s o.launch o.bunch
          kickCores cs (cs.foldl (fun s c => s.modCore c Core.resumed)
            (s.modBunch o.launch o.bunch fun y => { y with halted := false }))) s

/-- STEP (R377). -/
def execStep (s : State) : Host.Outcome State Fault Refusal :=
  debugCmd .step 2 true (fun c t s =>
    if (s.thread c t).halted then s.modThread c t fun th => { th with stepping := true } else debugErr 3 s) s

/-- SETBP (R378, Table 23.8). -/
def execSetbp (s : State) : Host.Outcome State Fault Refusal :=
  debugCmd .setbp 2 true (fun c _ s =>
    let v := s.dbg.arg0
    if fieldOf v 15 49 ≠ 0 || fieldOf v 4 2 = 3 || fieldOf v 2 2 = 3 then debugErr 4 s
    else
      let x : Comparator := ⟨v.getLsbD 14, BitVec.ofNat 8 (fieldOf v 6 8), fieldOf v 4 2, fieldOf v 2 2, s.dbg.arg1⟩
      s.modCore c fun k => { k with comps := k.comps.set (fieldOf v 0 2) x }) s

/-- BRKMODE (R316, R374). -/
def execBrkmode (s : State) : Host.Outcome State Fault Refusal :=
  debugCmd .brkmode 2 false (fun _ _ s => s.modDebug fun d => { d with brk := d.arg0.getLsbD 0 }) s

/-! ## Save areas (R336) -/

/-- The saved core whose area holds [a, a + n): launch, bunch, in-bunch index and offset. -/
def findArea (s : State) (a n : Nat) : Option (Launch × Bunch × Nat × Nat) :=
  s.launches.findSome? fun x => (x.bunches.filter fun y => y.state = .saved).findSome? fun y =>
    ((List.range (x.desc.w * x.desc.h)).find? fun i =>
      saveAddr x.desc y.idx i ≤ a && a + n ≤ saveAddr x.desc y.idx i + areaSize).map fun i =>
        (x, y, i, a - saveAddr x.desc y.idx i)

/-- The runs of a debugger's access to a save area, under the ASID of its launch. -/
def debugRuns (s : State) (x : Launch) (wr : Bool) (a n : Nat) : List (Nat × Nat × Nat × Reach) :=
  seqRuns s .debugger x.desc.asid 2 wr a n

/-- A length that a command may name. -/
def lengthOk (n : Nat) : Bool := 1 ≤ n && n ≤ 256

/-- RSAVE (R374). -/
def execRsave (s : State) : Host.Outcome State Fault Refusal :=
  debugCmd .rsave 1 false (fun _ _ s =>
    let n := s.arg1
    match (if lengthOk n then findArea s s.arg0 n else none) with
    | none => debugErr 4 s
    | some (x, _, _, _) =>
      let rs := debugRuns s x false s.arg0 n
      if rs.all fun r => r.2.2.2.ok then putData (8 * n) (ofBytes (rs.flatMap fun r => r.2.2.2.read s r.2.2.1)) s
      else debugErr 4 s) s

/-- The window bits of a thread whose slices an area's bytes [o, o + n) hold; its window begins at granule `g`. -/
def Thread.areaMask (th : Thread) (g o n : Nat) : BitVec 8192 :=
  let lo := Nat.max o (0x1000 + 32 * g)
  let hi := Nat.min (o + n) (0x1000 + 32 * (g + th.granules))
  if lo < hi then BitVec.ofNat 8192 ((2 ^ (8 * (hi - lo)) - 1) <<< (8 * (lo - (0x1000 + 32 * g)))) else 0

/-- Slices written in an area leave the covers of the slots' busy tags (R336). -/
def uncover (x : Launch) (y : Bunch) (i o n : Nat) (v : SavedCore) (s : State) : SavedCore × State :=
  let gs := windowStarts 0 v.ctx.threads
  (List.range 8).foldl (fun (p : SavedCore × State) t =>
    let th := p.1.ctx.thread t
    let m := th.areaMask (gs.getD t 0) o n
    let th1 := { th with landings := th.landings.map (·.uncover m) }
    ({ p.1 with ctx := p.1.ctx.setThread t th1 }, noteCancel ⟨x.id, y.idx, i, t⟩ (th.covers m) p.2)) (v, s)

/-- The regions of an area that [o, o + n) meets: index, offset and size. -/
def regionsHit (o n : Nat) : List (Nat × Nat × Nat) := (areaRegions.mapIdx fun j r => (j, r)).filter fun r => meets r.2.1 r.2.2 o n

/-- The save area as a debugger leaves it (R336): covers cut, and the CRC of each region written updated; another region keeps
the CRC it has. -/
def resaved (x : Launch) (y : Bunch) (i o n : Nat) (s : State) : State :=
  match y.saved[i]? with
  | none => s
  | some v =>
    let (v1, s1) := uncover x y i o n v s
    let area := readArea s1 x y.idx i
    let s2 := (regionsHit o n).foldl (fun s r =>
      seqPut saver x.desc.asid 2 (saveAddr x.desc y.idx i + crcsAt + 4 * r.1) (toBytes (regionCrc area r.2) 4) s) s1
    let cells := readArea s2 x y.idx i
    s2.modBunch x.id y.idx fun y => { y with saved := y.saved.set i { v1 with ctx := Core.fromArea v1 cells, image := cells } }

/-- WSAVE (R336, R374). -/
def execWsave (s : State) : Host.Outcome State Fault Refusal :=
  debugCmd .wsave 2 false (fun _ _ s =>
    let n := s.arg1
    match (if lengthOk n then findArea s s.arg0 n else none) with
    | none => debugErr 4 s
    | some (x, y, i, o) =>
      let rs := debugRuns s x true s.arg0 n
      let bs := s.dbg.data.take n
      if rs.all fun r => r.2.2.2.ok then
        resaved x y i o n (rs.foldl (fun s r => r.2.2.2.write .debugger ((bs.drop r.2.1).take r.2.2.1) s) s)
      else debugErr 4 s) s

end Sys2Proof.Machine
end

