-- ==== Sys2Proof/Machine/Integer.lean ====
section
/-! DEFINITION. The integer group (chapter 11, R174 to R191): arithmetic, logic, shifts, moves, bit fields, compares. -/

namespace Sys2Proof.Machine

open Sys2Proof

/-! ## Shared forms -/

/-- R form: A and B read at w, D written at w; `lo` ≤ w ≤ `hi` (R175). -/
def binSpec (lo hi : Nat) (lane : Bool) (v : View) : Spec :=
  let w := opWidth v
  { v := v, ra := some w, rb := some w, wd := some w, wide := w, lane := lane, legal := decide (lo ≤ w ∧ w ≤ hi) }

/-- R form with B unused, and I form: A read at w, D written at w. -/
def unSpec (lo hi : Nat) (lane : Bool) (v : View) : Spec :=
  let w := opWidth v
  { v := v, ra := some w, wd := some w, wide := w, lane := lane, legal := decide (lo ≤ w ∧ w ≤ hi) }

/-- An exact result of A and B under SAT (R181). -/
def arith (i : Instr) (f : Int → Int → Int) (s : State) : Host.Outcome State Fault Refusal :=
  run i (binSpec 1 64 false) (fun c =>
    let w := c.w
    let sg := !c.x
    let r := intResult (f (val (c.a w c.x) w sg) (val (c.b w c.x) w sg)) w c.sat sg
    .ok (c.write w r.1 r.2)) s

/-- An exact result of A alone under SAT (R181). -/
def arith1 (i : Instr) (f : Int → Int) (s : State) : Host.Outcome State Fault Refusal :=
  run i (unSpec 1 64 false) (fun c =>
    let w := c.w
    let sg := !c.x
    let r := intResult (f (val (c.a w c.x) w sg)) w c.sat sg
    .ok (c.write w r.1 r.2)) s

/-- A result of A and B under a fixed reading, without SAT (R181): high products, minima and maxima. -/
def arithAs (i : Instr) (signed : Bool) (f : Nat → Int → Int → Int) (s : State) : Host.Outcome State Fault Refusal :=
  run i (binSpec 1 64 false) (fun c =>
    let w := c.w
    .ok (c.write w (truncI (f w (val (c.a w c.x) w signed) (val (c.b w c.x) w signed)) w))) s

/-- Quotient towards zero and remainder with the dividend's sign; all ones and the dividend for a zero divisor,
with DZ (R182). -/
def divRem (w : Nat) (signed sat : Bool) (x y : Int) : Nat × Nat × Nat :=
  if y = 0 then (2 ^ w - 1, truncI x w, Flag.dz)
  else if signed ∧ sat ∧ y = -1 ∧ x = loVal w true then (truncI (hiVal w true) w, 0, Flag.sat)
  else (truncI (Int.tdiv x y) w, truncI (Int.tmod x y) w, 0)

/-- DIV, DIVN, REM, REMN: class T, landing 4 + ceil(w / 2) cycles after issue (R180, R182). -/
def divide (i : Instr) (signed remainder : Bool) (s : State) : Host.Outcome State Fault Refusal :=
  run i (binSpec 1 64 false) (fun c =>
    let w := c.w
    let r := divRem w signed c.sat (val (c.a w c.x) w signed) (val (c.b w c.x) w signed)
    .ok { land := some { dest := c.ld, w := w, cycles := some (4 + ceilDiv w 2),
                         value := if remainder then r.2.1 else r.1, flags := r.2.2 } }) s

/-- Bitwise, lane-parallel, on A and B (R183). -/
def logic (i : Instr) (f : Nat → Nat → Nat → Nat) (s : State) : Host.Outcome State Fault Refusal :=
  run i (binSpec 1 2048 true) (fun c =>
    let w := c.w
    .ok (c.lanewise w
      (fun img => (readLoc c.s c.c c.t img c.pa c.la w c.x, readLoc c.s c.c c.t img c.pb c.lb w c.x, 0))
      (fun n a b _ => (f n a b, 0)))) s

/-- Bitwise, lane-parallel, on A and imm15 (R183). -/
def logicI (i : Instr) (f : Nat → Nat → Nat → Nat) (s : State) : Host.Outcome State Fault Refusal :=
  run i (unSpec 1 2048 true) (fun c =>
    let w := c.w
    .ok (c.lanewise w (fun img => (readLoc c.s c.c c.t img c.pa c.la w c.x, c.immExt w c.x, 0))
      (fun n a b _ => (f n a b, 0)))) s

/-- Bits of a and not b, in `n` bits. -/
def andNot (n a b : Nat) : Nat := a &&& (2 ^ n - 1 - trunc b n)

/-- R form of a shift: the count is B at its own width (R184). -/
def shiftSpec (v : View) : Spec := { binSpec 1 2048 false v with rb := some (ownWidth v.b (opWidth v)) }

/-- SHL: the exact product by 2^c under SAT; a count of w or more shifts everything out (R184). -/
def shiftLeft (w n : Nat) (sat zx : Bool) (a : Nat) : Nat × Nat :=
  intResult (val a w (!zx) * (2 ^ Nat.min n w : Nat)) w sat (!zx)

/-- SHR (R184). -/
def shiftRight (w n a : Nat) : Nat := a / 2 ^ Nat.min n w

/-- SAR (R184). -/
def shiftArith (w n a : Nat) : Nat := truncI (Int.fdiv (val a w true) (2 ^ Nat.min n w : Nat)) w

/-- ROL (R184). -/
def rotLeft (w n a : Nat) : Nat := trunc (a <<< (n % w)) w ||| (a >>> (w - n % w))

/-- A shift or rotate by B. -/
def shift (i : Instr) (f : Nat → Nat → Bool → Bool → Nat → Nat × Nat) (s : State) : Host.Outcome State Fault Refusal :=
  run i shiftSpec (fun c =>
    let w := c.w
    let r := f w (c.b (ownWidth c.v.b w) true) c.sat c.x (c.a w c.x)
    .ok (c.write w r.1 r.2)) s

/-- A shift or rotate by imm15, read naturally. -/
def shiftI (i : Instr) (f : Nat → Nat → Bool → Bool → Nat → Nat × Nat) (s : State) : Host.Outcome State Fault Refusal :=
  run i (unSpec 1 2048 false) (fun c =>
    let w := c.w
    let r := f w c.immNat c.sat c.x (c.a w c.x)
    .ok (c.write w r.1 r.2)) s

/-- Leading zero bits of an n-bit image (R185). -/
def clzOf (n v : Nat) : Nat := n - bitLen v

/-- Trailing zero bits of an n-bit image (R185). -/
def ctzOf (n v : Nat) : Nat := ((List.range n).find? fun k => v.testBit k).getD n

/-- A count over A's image at its own width (R185). -/
def countBits (i : Instr) (f : Nat → Nat → Nat) (s : State) : Host.Outcome State Fault Refusal :=
  run i (fun v => { unSpec 1 2048 false v with ra := some (ownWidth v.a (opWidth v)) }) (fun c =>
    let n := ownWidth c.v.a c.w
    .ok (c.write c.w (trunc (f n (c.a n true)) c.w))) s

/-- Bit k of the result is bit w − 1 − k (R186). -/
def bitReverse (w v : Nat) : Nat := joinLanes 1 ((lanes v 1 w).reverse)

/-- Byte j of the result is byte w/8 − 1 − j (R186). -/
def byteReverse (w v : Nat) : Nat := joinLanes 8 ((lanes v 8 (w / 8)).reverse)

/-- A rearrangement of A (R186). -/
def rearrange (i : Instr) (lo : Nat) (f : Nat → Nat → Nat) (s : State) : Host.Outcome State Fault Refusal :=
  run i (unSpec lo 2048 false) (fun c => .ok (c.write c.w (f c.w (c.a c.w c.x)))) s

/-- LW, LEN and POS of a control word (Table 11.5), and the lane width at operation width w. -/
def bfLane (w ctl : Nat) : Nat := if bits ctl 20 3 = 0 then w else 8 <<< (bits ctl 20 3 - 1)
/-- LEN. -/
def bfLen (ctl : Nat) : Nat := bits ctl 12 7
/-- POS. -/
def bfPos (ctl : Nat) : Nat := bits ctl 0 12

/-- BFX (R189): one field a lane; none where the control word is not admitted. -/
def bfExtract (w ctl a : Nat) (zx : Bool) : Option Nat :=
  let lw := bfLane w ctl
  let len := bfLen ctl
  if 5 ≤ bits ctl 20 3 ∨ 64 < len ∨ w < lw ∨ lw < len then none
  else some (joinLanes lw ((List.range (w / lw)).map fun j =>
    let f := bits a (bfPos ctl + j * len) len
    if zx then f else sext f len lw))

/-- BFI (R190): LEN bits of A put into D at POS; none where the control word is not admitted. -/
def bfInsert (w ctl d a : Nat) : Option Nat :=
  let len := bfLen ctl
  let pos := bfPos ctl
  if bits ctl 20 3 ≠ 0 ∨ 64 < len then none
  else
    let n := Nat.min len (w - pos)
    some (if w ≤ pos then d else setBits d pos n (trunc a n))

/-- Width of a compare: the largest of A and B, or 32 (R191). -/
def cmpWidth (v : View) : Nat := (widerOf (v.a.bind opndWidth) (v.b.bind opndWidth)).getD 32

/-- The operands of a compare (R191). -/
def cmpSpec (hi : Nat) (v : View) : Spec :=
  let w := cmpWidth v
  { v := v, ra := some w, rb := some w, wd := some w, wide := w, legal := decide (w ≤ hi) }

/-- A compare of A and B under a reading (R191). -/
def compare (i : Instr) (hi : Nat) (signed : Bool) (f : Int → Int → Bool) (s : State) :
    Host.Outcome State Fault Refusal :=
  run i (cmpSpec hi) (fun c =>
    let w := cmpWidth c.v
    .ok (c.write w (b2n (f (val (c.a w c.x) w signed) (val (c.b w c.x) w signed))))) s

/-! ## The instructions -/

/-- NOP (R164): one stream position. -/
def execNop (s : State) : Host.Outcome State Fault Refusal :=
  run .nop (fun v => { v := v }) (fun _ => .ok {}) s

/-- ADD (R181). -/
def execAdd (h : Hdr) (d a b : Opnd) (s : State) : Host.Outcome State Fault Refusal :=
  arith (.add h d a b) (· + ·) s

/-- ADDI (R181): B is imm15 extended. -/
def execAddi (h : Hdr) (d a : Opnd) (imm : BitVec 15) (s : State) : Host.Outcome State Fault Refusal :=
  run (.addi h d a imm) (unSpec 1 64 false) (fun c =>
    let w := c.w
    let sg := !c.x
    let r := intResult (val (c.a w c.x) w sg + val (c.immExt w c.x) w sg) w c.sat sg
    .ok (c.write w r.1 r.2)) s

/-- SUB (R181). -/
def execSub (h : Hdr) (d a b : Opnd) (s : State) : Host.Outcome State Fault Refusal :=
  arith (.sub h d a b) (· - ·) s

/-- MUL (R181). -/
def execMul (h : Hdr) (d a b : Opnd) (s : State) : Host.Outcome State Fault Refusal :=
  arith (.mul h d a b) (· * ·) s

/-- MULH (R181). -/
def execMulh (h : Hdr) (d a b : Opnd) (s : State) : Host.Outcome State Fault Refusal :=
  arithAs (.mulh h d a b) true (fun w a b => Int.fdiv (a * b) (2 ^ w : Nat)) s

/-- MULHN (R181). -/
def execMulhn (h : Hdr) (d a b : Opnd) (s : State) : Host.Outcome State Fault Refusal :=
  arithAs (.mulhn h d a b) false (fun w a b => Int.fdiv (a * b) (2 ^ w : Nat)) s

/-- DIV (R182). -/
def execDiv (h : Hdr) (d a b : Opnd) (s : State) : Host.Outcome State Fault Refusal :=
  divide (.div h d a b) true false s

/-- DIVN (R182). -/
def execDivn (h : Hdr) (d a b : Opnd) (s : State) : Host.Outcome State Fault Refusal :=
  divide (.divn h d a b) false false s

/-- REM (R182). -/
def execRem (h : Hdr) (d a b : Opnd) (s : State) : Host.Outcome State Fault Refusal :=
  divide (.rem h d a b) true true s

/-- REMN (R182). -/
def execRemn (h : Hdr) (d a b : Opnd) (s : State) : Host.Outcome State Fault Refusal :=
  divide (.remn h d a b) false true s

/-- AND (R183). -/
def execAnd (h : Hdr) (d a b : Opnd) (s : State) : Host.Outcome State Fault Refusal :=
  logic (.and h d a b) (fun _ a b => a &&& b) s

/-- ANDI (R183). -/
def execAndi (h : Hdr) (d a : Opnd) (imm : BitVec 15) (s : State) : Host.Outcome State Fault Refusal :=
  logicI (.andi h d a imm) (fun _ a b => a &&& b) s

/-- OR (R183). -/
def execOr (h : Hdr) (d a b : Opnd) (s : State) : Host.Outcome State Fault Refusal :=
  logic (.or h d a b) (fun _ a b => a ||| b) s

/-- ORI (R183). -/
def execOri (h : Hdr) (d a : Opnd) (imm : BitVec 15) (s : State) : Host.Outcome State Fault Refusal :=
  logicI (.ori h d a imm) (fun _ a b => a ||| b) s

/-- XOR (R183). -/
def execXor (h : Hdr) (d a b : Opnd) (s : State) : Host.Outcome State Fault Refusal :=
  logic (.xor h d a b) (fun _ a b => a ^^^ b) s

/-- XORI (R183). -/
def execXori (h : Hdr) (d a : Opnd) (imm : BitVec 15) (s : State) : Host.Outcome State Fault Refusal :=
  logicI (.xori h d a imm) (fun _ a b => a ^^^ b) s

/-- ANDN (R183). -/
def execAndn (h : Hdr) (d a b : Opnd) (s : State) : Host.Outcome State Fault Refusal :=
  logic (.andn h d a b) andNot s

/-- SHL (R184). -/
def execShl (h : Hdr) (d a b : Opnd) (s : State) : Host.Outcome State Fault Refusal :=
  shift (.shl h d a b) (fun w n sat zx a => shiftLeft w n sat zx a) s

/-- SHLI (R184). -/
def execShli (h : Hdr) (d a : Opnd) (imm : BitVec 15) (s : State) : Host.Outcome State Fault Refusal :=
  shiftI (.shli h d a imm) (fun w n sat zx a => shiftLeft w n sat zx a) s

/-- SHR (R184). -/
def execShr (h : Hdr) (d a b : Opnd) (s : State) : Host.Outcome State Fault Refusal :=
  shift (.shr h d a b) (fun w n _ _ a => (shiftRight w n a, 0)) s

/-- SHRI (R184). -/
def execShri (h : Hdr) (d a : Opnd) (imm : BitVec 15) (s : State) : Host.Outcome State Fault Refusal :=
  shiftI (.shri h d a imm) (fun w n _ _ a => (shiftRight w n a, 0)) s

/-- SAR (R184). -/
def execSar (h : Hdr) (d a b : Opnd) (s : State) : Host.Outcome State Fault Refusal :=
  shift (.sar h d a b) (fun w n _ _ a => (shiftArith w n a, 0)) s

/-- SARI (R184). -/
def execSari (h : Hdr) (d a : Opnd) (imm : BitVec 15) (s : State) : Host.Outcome State Fault Refusal :=
  shiftI (.sari h d a imm) (fun w n _ _ a => (shiftArith w n a, 0)) s

/-- ROL (R184). -/
def execRol (h : Hdr) (d a b : Opnd) (s : State) : Host.Outcome State Fault Refusal :=
  shift (.rol h d a b) (fun w n _ _ a => (rotLeft w n a, 0)) s

/-- ROLI (R184). -/
def execRoli (h : Hdr) (d a : Opnd) (imm : BitVec 15) (s : State) : Host.Outcome State Fault Refusal :=
  shiftI (.roli h d a imm) (fun w n _ _ a => (rotLeft w n a, 0)) s

/-- CLZ (R185). -/
def execClz (h : Hdr) (d a : Opnd) (s : State) : Host.Outcome State Fault Refusal := countBits (.clz h d a) clzOf s

/-- CTZ (R185). -/
def execCtz (h : Hdr) (d a : Opnd) (s : State) : Host.Outcome State Fault Refusal := countBits (.ctz h d a) ctzOf s

/-- POPC (R185). -/
def execPopc (h : Hdr) (d a : Opnd) (s : State) : Host.Outcome State Fault Refusal :=
  countBits (.popc h d a) (fun n v => popCount v n) s

/-- MIN (R181). -/
def execMin (h : Hdr) (d a b : Opnd) (s : State) : Host.Outcome State Fault Refusal :=
  arithAs (.min h d a b) true (fun _ a b => if a ≤ b then a else b) s

/-- MAX (R181). -/
def execMax (h : Hdr) (d a b : Opnd) (s : State) : Host.Outcome State Fault Refusal :=
  arithAs (.max h d a b) true (fun _ a b => if a ≤ b then b else a) s

/-- MINN (R181). -/
def execMinn (h : Hdr) (d a b : Opnd) (s : State) : Host.Outcome State Fault Refusal :=
  arithAs (.minn h d a b) false (fun _ a b => if a ≤ b then a else b) s

/-- MAXN (R181). -/
def execMaxn (h : Hdr) (d a b : Opnd) (s : State) : Host.Outcome State Fault Refusal :=
  arithAs (.maxn h d a b) false (fun _ a b => if a ≤ b then b else a) s

/-- ABS (R181). -/
def execAbs (h : Hdr) (d a : Opnd) (s : State) : Host.Outcome State Fault Refusal :=
  arith1 (.abs h d a) (fun x => (x.natAbs : Int)) s

/-- NEG (R181). -/
def execNeg (h : Hdr) (d a : Opnd) (s : State) : Host.Outcome State Fault Refusal := arith1 (.neg h d a) (fun x => -x) s

/-- SEL (R188): reads D, A and B; a port in D traps ILLEGAL_OPERAND (R177). -/
def execSel (h : Hdr) (d a b : Opnd) (s : State) : Host.Outcome State Fault Refusal :=
  run (.sel h d a b) (fun v =>
    let sp := binSpec 1 2048 false v
    { sp with rd := some (opWidth v), legal := sp.legal && !isPort v.d }) (fun c =>
    let w := c.w
    .ok (c.write w (if c.d w c.x ≠ 0 then c.a w c.x else c.b w c.x))) s

/-- MOV (R187): lane-parallel. -/
def execMov (h : Hdr) (d a : Opnd) (s : State) : Host.Outcome State Fault Refusal :=
  run (.mov h d a) (unSpec 1 2048 true) (fun c =>
    let w := c.w
    .ok (c.lanewise w (fun img => (readLoc c.s c.c c.t img c.pa c.la w c.x, 0, 0)) (fun _ a _ _ => (a, 0)))) s

/-- MOVI (R187). -/
def execMovi (h : Hdr) (d : Opnd) (imm : BitVec 15) (s : State) : Host.Outcome State Fault Refusal :=
  run (.movi h d imm) (fun v =>
    let w := opWidth v
    { v := v, wd := some w, wide := w, legal := decide (1 ≤ w ∧ w ≤ 2048) }) (fun c =>
    .ok (c.write c.w (c.immExt c.w c.x))) s

/-- MOVH (R187). -/
def execMovh (h : Hdr) (d a : Opnd) (imm : BitVec 15) (s : State) : Host.Outcome State Fault Refusal :=
  run (.movh h d a imm) (unSpec 1 2048 false) (fun c =>
    .ok (c.write c.w (trunc ((c.a c.w c.x) <<< 15 ||| c.immNat) c.w))) s

/-- BFX (R189): the control word is B as a 32-bit natural; A is read at its own width. -/
def execBfx (h : Hdr) (d a b : Opnd) (s : State) : Host.Outcome State Fault Refusal :=
  run (.bfx h d a b) (fun v => { binSpec 1 2048 false v with ra := some (ownWidth v.a (opWidth v)), rb := some 32 })
    (fun c =>
      let ctl := c.b 32 c.x
      match bfExtract c.w ctl (c.a (ownWidth c.v.a c.w) true) c.x with
      | some r => .ok (c.write c.w r)
      | none => .error (.trap Cause.illegalOperand ctl)) s

/-- BFI (R190): D is read at w; a port in D traps ILLEGAL_OPERAND (R177). -/
def execBfi (h : Hdr) (d a b : Opnd) (s : State) : Host.Outcome State Fault Refusal :=
  run (.bfi h d a b) (fun v =>
    let sp := binSpec 1 2048 false v
    { sp with ra := some (ownWidth v.a (opWidth v)), rb := some 32, rd := some (opWidth v),
              legal := sp.legal && !isPort v.d })
    (fun c =>
      let ctl := c.b 32 c.x
      match bfInsert c.w ctl (c.d c.w c.x) (c.a (ownWidth c.v.a c.w) true) with
      | some r => .ok (c.write c.w r)
      | none => .error (.trap Cause.illegalOperand ctl)) s

/-- BREV (R186). -/
def execBrev (h : Hdr) (d a : Opnd) (s : State) : Host.Outcome State Fault Refusal := rearrange (.brev h d a) 1 bitReverse s

/-- BSWAP (R186). -/
def execBswap (h : Hdr) (d a : Opnd) (s : State) : Host.Outcome State Fault Refusal := rearrange (.bswap h d a) 8 byteReverse s

/-- CMPEQ (R191). -/
def execCmpeq (h : Hdr) (d a b : Opnd) (s : State) : Host.Outcome State Fault Refusal :=
  compare (.cmpeq h d a b) 2048 false (fun a b => decide (a = b)) s

/-- CMPNE (R191). -/
def execCmpne (h : Hdr) (d a b : Opnd) (s : State) : Host.Outcome State Fault Refusal :=
  compare (.cmpne h d a b) 2048 false (fun a b => decide (a ≠ b)) s

/-- CMPLT (R191). -/
def execCmplt (h : Hdr) (d a b : Opnd) (s : State) : Host.Outcome State Fault Refusal :=
  compare (.cmplt h d a b) 64 true (fun a b => decide (a < b)) s

/-- CMPLTN (R191). -/
def execCmpltn (h : Hdr) (d a b : Opnd) (s : State) : Host.Outcome State Fault Refusal :=
  compare (.cmpltn h d a b) 64 false (fun a b => decide (a < b)) s

/-- CMPLE (R191). -/
def execCmple (h : Hdr) (d a b : Opnd) (s : State) : Host.Outcome State Fault Refusal :=
  compare (.cmple h d a b) 64 true (fun a b => decide (a ≤ b)) s

/-- CMPLEN (R191). -/
def execCmplen (h : Hdr) (d a b : Opnd) (s : State) : Host.Outcome State Fault Refusal :=
  compare (.cmplen h d a b) 64 false (fun a b => decide (a ≤ b)) s

end Sys2Proof.Machine
end

