-- ==== Sys2Proof/Machine/RegisterWrites.lean ====
section
/-! DEFINITION. Writes of access tables, and of MMIO registers without a behaviour of their own (R361 to R363). -/

namespace Sys2Proof.Machine

open Sys2Proof

/-! ## Access tables (R362, R363) -/

/-- The bits of an access table entry that hold fields (Table 23.2). -/
def entryMask : W64 := 0xF000FFFFFFF0001F

/-- An entry that a write may leave: its KIND not reserved, LO not above HI. -/
def entryOk (e : W64) : Bool := fieldOf e 60 3 ≤ 3 && fieldOf e 20 14 ≤ fieldOf e 34 14

/-- ACCESS_TABLE_WRITE (R363). -/
def execAccessTableWrite (s : State) : Host.Outcome State Fault Refusal :=
  onBus .accessTableWrite (fun s =>
    let e := BitVec.ofNat 64 s.busValue &&& entryMask
    let n := (s.bus.reg - 0x200000) / 8
    if entryOk e then
      { s with tables := if e = 0 then s.tables.filter fun p => p.1 ≠ n else Tbl.set s.tables n e }
    else s) s

/-! ## Plain registers -/

/-- A launch queue with a ring register written (Table 1.2). -/
def LQueue.write (q : LQueue) (o : Nat) (v : W64) : LQueue :=
  match o with
  | 0x20 => { q with cbase := v }
  | 0x28 => { q with cmask := v.setWidth 32 }
  | _ => q

/-- The pre-emption block with a register written (Table 19.4): a reserved OP sets ERR 2, or ERR 3 while BUSY. -/
def PreRegs.write (p : PreRegs) (o : Nat) (v : W64) : PreRegs :=
  match o with
  | 0x800 => { p with lid := v }
  | 0x808 => if p.busy then { p with err := 3 } else { p with ctl := v &&& 0x7FFFFFFFF, err := 2, done := false, count := 0 }
  | 0x810 => { p with arg := v }
  | 0x848 => { p with tnMask := v.setWidth 32 }
  | _ => p

/-- The collective log with a register written (Table 21.10); LOST is cleared by a 1 among the bits written. -/
def CollLog.write (g : CollLog) (o : Nat) (v fresh : W64) : CollLog :=
  match o with
  | 0x900 => { g with base := v }
  | 0x908 => { g with mask := v.setWidth 32 }
  | 0x918 => { g with rd := v.setWidth 32 }
  | 0x920 => { g with lost := g.lost && !fresh.getLsbD 0 }
  | _ => g

/-- A trace block with a register written (Table 23.9). -/
def TraceBlk.write (b : TraceBlk) (o : Nat) (v : W64) : TraceBlk :=
  match o with
  | 0x00 => { b with base := v }
  | 0x08 => { b with mask := v.setWidth 32 }
  | _ => b

/-- Bytes with a 64-bit word written at an offset; bytes past the end are not there. -/
def putWordAt (bs : List Byte) (o : Nat) (v : W64) : List Byte :=
  (bs.take o ++ toBytes v.toNat 8 ++ bs.drop (o + 8)).take bs.length

/-- The debug block with a register written (Tables 23.5 and 23.12); a CMD that names no command is a bad argument. -/
def Debug.write (d : Debug) (o : Nat) (v : W64) : Debug :=
  if o = 0x00 then
    (if d.busy then { d with err := 5 }
     else { d with cmd := v &&& dbgCmdMask, err := 4, precise := false, cancel := false, gated := false, done := true })
  else if o = 0x08 then { d with arg0 := v }
  else if o = 0x10 then { d with arg1 := v }
  else if 0x100 ≤ o ∧ o < 0x200 then { d with data := putWordAt d.data (o - 0x100) v }
  else if 0x200 ≤ o ∧ o < 0x288 then { d with resp := putWordAt d.resp (o - 0x200) v }
  else d

/-- The security block with a register written (R365, R369). -/
def Security.write (x : Security) (o : Nat) (v : W64) : Security :=
  if o < 0x40 then { x with nonce := putWordAt x.nonce o v }
  else if o = 0x40 then { x with dest := v }
  else if 0x100 ≤ o ∧ o < 0x210 then { x with rtvCmd := putWordAt x.rtvCmd (o - 0x100) v }
  else x

/-- An edge port with a register written (Table 23.13). -/
def EdgePort.write (e : EdgePort) (o : Nat) (v : W64) : EdgePort :=
  if o = 0 then { e with rtab := v &&& 0x000FFFFFFFFE0001 } else e

/-- A storage mapping's register written (Table 7.4). -/
def Cellar.writeMap (x : Cellar) (m r : Nat) (v : W64) : Cellar :=
  match r with
  | 0 => { x with smbase := x.smbase.set m (v &&& 0xFFFFFFFFFFFF0000) }
  | 1 => { x with smlim := x.smlim.set m (v &&& 0xFFFFFFFFFFFF80FC) }
  | 2 => { x with smlba := x.smlba.set m v }
  | _ => { x with smasid := x.smasid.set m (v &&& 0x3FFF) }

/-- A Cellar engine with a register written (Tables 7.4 and 23.15): a pool register only while no fill runs. -/
def Cellar.write (x : Cellar) (o : Nat) (v fresh : W64) : Cellar :=
  if o < 0x200 then x.writeMap (o / 0x20) (o % 0x20 / 8) v
  else if o < 0x230 then
    (if !x.fills.isEmpty then x
     else if o % 0x10 = 0 then { x with fbase := x.fbase.set ((o - 0x200) / 0x10) (v &&& 0x000FFFFFFFFFFFFF) }
     else { x with fcount := x.fcount.set ((o - 0x200) / 0x10) (v &&& 0xFFFFFFFF) })
  else if o = 0x300 then
    { x with wberr := x.wberr && !fresh.getLsbD 1, fillerr := x.fillerr && !fresh.getLsbD 0 }
  else x

/-- The state with a register written: `v` is the word the transaction leaves, `fresh` the bits it writes. Read-only
registers and reserved bits ignore the write (R361). -/
def writeRegister (off : Nat) (v fresh : W64) (s : State) : State :=
  match mmioBlock off with
  | some 97 =>
    let o := off - 0x10000
    if o < 0x400 then s.modLq (o / 0x40) fun q => q.write (o % 0x40) v
    else { s with pre := s.pre.write o v, clog := s.clog.write o v fresh }
  | some 98 =>
    let f := (off - 0x20000) / 0x100
    drainTrace f (putTrace f ((s.traceBlk f).write (off % 0x100) v) s)
  | some 99 => s.modDebug fun d => d.write (off - 0x30000) v
  | some 101 => s.modSecurity fun x => x.write (off - 0x50000) v
  | some 104 => s.modEdge ((off - 0x80000) / 0x1000) fun e => e.write (off % 0x1000) v
  | some 105 => s.modCellar ((off - 0x100000) / 0x1000) fun x => x.write (off % 0x1000) v fresh
  | _ => s

/-- REGISTER_WRITE (R361). -/
def execRegisterWrite (s : State) : Host.Outcome State Fault Refusal :=
  onBus .registerWrite (fun s =>
    writeRegister s.bus.reg (BitVec.ofNat 64 s.busValue) (BitVec.ofNat 64 s.bus.fresh) s) s

end Sys2Proof.Machine
end

