-- ==== Sys2Proof/Machine/Vector.lean ====
section
/-! DEFINITION. The vector and floating-point families (chapter 11, R203 to R220). -/

namespace Sys2Proof.Machine

open Sys2Proof

/-! ## Lanes -/

/-- Lane width of an element type (R204). -/
def eltWidth : Elt → Nat
  | .i8 => 8
  | .i16 | .f16 | .bf16 => 16
  | .i32 | .f32 => 32
  | .i64 => 64

/-- The format of a floating-point element type. -/
def eltFmt : Elt → Option Fmt
  | .f16 => some Fp.f16
  | .bf16 => some Fp.bf16
  | .f32 => some Fp.f32
  | _ => none

/-- A function applied lane by lane to `n` lanes of width `lw`; the flags of every lane. -/
def laneMap (lw : Nat) (f : Nat → Nat → Nat → Nat × Nat) : Nat → Nat → Nat → Nat → Nat × Nat
  | 0, _, _, _ => (0, 0)
  | n + 1, a, b, d =>
    let r := f (trunc a lw) (trunc b lw) (trunc d lw)
    let rest := laneMap lw f n (a >>> lw) (b >>> lw) (d >>> lw)
    (trunc r.1 lw + rest.1 <<< lw, r.2 ||| rest.2)

/-- What a lane computation depends on beside the lanes: type, X, SAT, rounding mode and FTZ. -/
structure LaneCtl where
  t    : Elt
  zx   : Bool
  sat  : Bool
  mode : Mode
  ftz  : Bool

/-- The lane controls of an instruction of element type `t`. -/
def Ctx.ctl (c : Ctx) (t : Elt) : LaneCtl := ⟨t, c.x, c.sat, roundingOf c.v.h.rnd c.th, c.th.ftz⟩

/-- A lane by type: integer lanes exact under SAT (R204), floating-point lanes decoded and rounded once. -/
def lane2 (k : LaneCtl) (fi : Int → Int → Int) (ff : FVal → FVal → FVal × Nat) (a b : Nat) : Nat × Nat :=
  match eltFmt k.t with
  | none =>
    let lw := eltWidth k.t
    intResult (fi (val a lw (!k.zx)) (val b lw (!k.zx))) lw k.sat (!k.zx)
  | some f =>
    let r := ff (Fp.decode f k.ftz a) (Fp.decode f k.ftz b)
    let e := Fp.encode f k.mode k.ftz r.1
    (e.1, e.2 ||| r.2)

/-- The spec of a family instruction: R59, no flag operand, w at least the lane width (R204). -/
def vecSpec (lw : Nat) (lane useB : Bool) (v : View) : Spec :=
  let w := opWidth v
  { v := v, ra := some w, rb := if useB then some w else none, wd := some w, wide := w, lane := lane,
    legal := decide (lw ≤ w) && !isFlag v.d && !isFlag v.a && !isFlag v.b }

/-- The lanes an instruction reads from A, B and, where it reads D, from D. -/
def Ctx.lanesOf (c : Ctx) (w lw : Nat) (img : Nat) : Nat × Nat × Nat :=
  (readLanes c.s c.c c.t img c.pa c.la w lw, readLanes c.s c.c c.t img c.pb c.lb w lw,
   readLanes c.s c.c c.t img c.pd c.ld w lw)

/-- A lane computation over the beats at hand of sources already read, its result at their place in D (R62). -/
def Ctx.beatsOf (c : Ctx) (w lw : Nat) (f : Nat → Nat → Nat → Nat × Nat) (src : Nat × Nat × Nat) : Nat × Nat :=
  let lo := 512 * c.beat
  let n := Nat.min w (512 * (c.beat + c.beats)) - lo
  let r := laneMap lw f (n / lw) (src.1 >>> lo) (src.2.1 >>> lo) (src.2.2 >>> lo)
  (r.1 <<< lo, r.2)

/-- A lane-parallel family instruction over A and B, or A alone. -/
def lanewise (i : Instr) (t : Elt) (useB : Bool) (f : LaneCtl → Nat → Nat → Nat → Nat × Nat) (s : State) :
    Host.Outcome State Fault Refusal :=
  run i (vecSpec (eltWidth t) true useB) (fun c =>
    let lw := eltWidth t
    .ok (c.lanewise c.w (c.lanesOf c.w lw) (fun n a b d => laneMap lw (f (c.ctl t)) (n / lw) a b d))) s

/-- A lane-parallel family instruction that reads D as well (R177). -/
def lanewise3 (i : Instr) (t : Elt) (f : LaneCtl → Nat → Nat → Nat → Nat × Nat) (s : State) :
    Host.Outcome State Fault Refusal :=
  run i (fun v =>
    let sp := vecSpec (eltWidth t) true true v
    { sp with rd := some (opWidth v), legal := sp.legal && !isPort v.d }) (fun c =>
    let lw := eltWidth t
    .ok (c.lanewise c.w (c.lanesOf c.w lw) (fun n a b d => laneMap lw (f (c.ctl t)) (n / lw) a b d))) s

/-- A family instruction that reads all its sources before its write: `f` gives the image from A's and B's. -/
def whole (i : Instr) (t : Elt) (useB : Bool) (f : LaneCtl → Nat → Nat → Nat → Nat × Nat) (s : State) :
    Host.Outcome State Fault Refusal :=
  run i (vecSpec (eltWidth t) false useB) (fun c =>
    let r := f (c.ctl t) c.w (c.lanesOf c.w (eltWidth t) c.img).1 (c.lanesOf c.w (eltWidth t) c.img).2.1
    .ok (c.write c.w r.1 r.2)) s

/-! ## Lane functions -/

/-- VADD (R205). -/
def laneAdd (k : LaneCtl) (a b _ : Nat) : Nat × Nat := lane2 k (· + ·) (fun x y => (Fp.add k.mode x y, 0)) a b
/-- VSUB (R205). -/
def laneSub (k : LaneCtl) (a b _ : Nat) : Nat × Nat := lane2 k (· - ·) (fun x y => (Fp.add k.mode x (Fp.neg y), 0)) a b
/-- VMUL (R205). -/
def laneMul (k : LaneCtl) (a b _ : Nat) : Nat × Nat := lane2 k (· * ·) (fun x y => (Fp.mul x y, 0)) a b
/-- VMIN (R205). -/
def laneMin (k : LaneCtl) (a b _ : Nat) : Nat × Nat :=
  lane2 k (fun x y => if x ≤ y then x else y) (fun x y => (Fp.minMax false x y, 0)) a b
/-- VMAX (R205). -/
def laneMax (k : LaneCtl) (a b _ : Nat) : Nat × Nat :=
  lane2 k (fun x y => if x ≤ y then y else x) (fun x y => (Fp.minMax true x y, 0)) a b

/-- A floating-point lane with its sign bit alone changed by `g` (R205), a subnormal one too; a NaN becomes the
canonical NaN. -/
def laneSign (f : Fmt) (g : Bool → Bool) (a : Nat) : Nat × Nat :=
  match Fp.decode f false a with
  | .nan sig => (Fp.canonNaN f, if sig then Flag.nv else 0)
  | _ => (trunc a (f.ew + f.fw) + Fp.signBit f (g (bit a (f.ew + f.fw))), 0)

/-- VABS (R205). -/
def laneAbs (k : LaneCtl) (a _ _ : Nat) : Nat × Nat :=
  match eltFmt k.t with
  | none => intResult ((val a (eltWidth k.t) (!k.zx)).natAbs : Int) (eltWidth k.t) k.sat (!k.zx)
  | some f => laneSign f (fun _ => false) a

/-- VNEG (R205). -/
def laneNeg (k : LaneCtl) (a _ _ : Nat) : Nat × Nat :=
  match eltFmt k.t with
  | none => intResult (-(val a (eltWidth k.t) (!k.zx))) (eltWidth k.t) k.sat (!k.zx)
  | some f => laneSign f (fun n => !n) a

/-- a × b + d with signs, rounded once (R206). -/
def laneFma (negP negD : Bool) (k : LaneCtl) (a b d : Nat) : Nat × Nat :=
  match eltFmt k.t with
  | none => (0, 0)
  | some f =>
    let x := Fp.decode f k.ftz a
    let x' := if negP then Fp.neg x else x
    let z := Fp.decode f k.ftz d
    let z' := if negD then Fp.neg z else z
    Fp.encode f k.mode k.ftz (Fp.fma k.mode x' (Fp.decode f k.ftz b) z')

/-- VSHL (R207). -/
def laneShl (k : LaneCtl) (a b _ : Nat) : Nat × Nat :=
  let lw := eltWidth k.t
  intResult (val a lw (!k.zx) * (2 ^ Nat.min b lw : Nat)) lw k.sat (!k.zx)
/-- VSHR (R207). -/
def laneShr (k : LaneCtl) (a b _ : Nat) : Nat × Nat := (a / 2 ^ Nat.min b (eltWidth k.t), 0)
/-- VSAR (R207). -/
def laneSar (k : LaneCtl) (a b _ : Nat) : Nat × Nat :=
  let lw := eltWidth k.t
  (truncI (Int.fdiv (val a lw true) (2 ^ Nat.min b lw : Nat)) lw, 0)

/-- The compares of R208. -/
inductive Cmp where
  | eq | ne | lt | le
deriving DecidableEq, Repr

/-- A compare of an order: negative, zero or positive. -/
def Cmp.holds (r : Cmp) (o : Int) : Bool :=
  match r with
  | .eq => o == 0
  | .ne => o != 0
  | .lt => decide (o < 0)
  | .le => decide (o ≤ 0)

/-- t of one lane, with its flags (R208). -/
def laneTest (r : Cmp) (k : LaneCtl) (a b : Nat) : Bool × Nat :=
  match eltFmt k.t with
  | none =>
    let lw := eltWidth k.t
    (r.holds (val a lw (!k.zx) - val b lw (!k.zx)), 0)
  | some f =>
    let x := Fp.decode f k.ftz a
    let y := Fp.decode f k.ftz b
    let ordered := decide (r = .lt) || decide (r = .le)
    if Fp.isNaN x || Fp.isNaN y then
      (decide (r = .ne), if Fp.isSig x || Fp.isSig y || ordered then Flag.nv else 0)
    else (r.holds (Fp.cmp x y), 0)

/-- A lane of a compare: all ones or zero. -/
def laneCmp (r : Cmp) (k : LaneCtl) (a b _ : Nat) : Nat × Nat :=
  let t := laneTest r k a b
  (if t.1 then 2 ^ eltWidth k.t - 1 else 0, t.2)

/-- The width of a lane compare (R208). -/
def vcmpWidth (v : View) : Nat :=
  if isSlice v.a || isSlice v.b then Nat.max (sliceWidth v.a) (sliceWidth v.b) else opWidth v

/-- VCMPEQ, VCMPNE, VCMPLT, VCMPLE (R208): a mask, or the or of all lanes into a flag. -/
def vcompare (i : Instr) (t : Elt) (r : Cmp) (s : State) : Host.Outcome State Fault Refusal :=
  run i (fun v =>
    let w := vcmpWidth v
    { v := v, ra := some w, rb := some w, wd := some w, wide := w, lane := true,
      legal := decide (eltWidth t ≤ w) && !isFlag v.a && !isFlag v.b }) (fun c =>
    let lw := eltWidth t
    let w := vcmpWidth c.v
    match c.ld with
    | .flag _ =>
      let m := c.beatsOf w lw (laneCmp r (c.ctl t)) (c.lanesOf w lw c.img)
      .ok (c.gather w (if m.1 = 0 then 0 else 1) m.2)
    | _ => .ok (c.lanewise w (c.lanesOf w lw) (fun n a b d => laneMap lw (laneCmp r (c.ctl t)) (n / lw) a b d))) s

/-- VSEL (R209). -/
def laneSel (_ : LaneCtl) (a b d : Nat) : Nat × Nat := (if d ≠ 0 then a else b, 0)

/-- VCLASS (R210): one bit; FTZ does not matter. -/
def laneClass (k : LaneCtl) (a _ _ : Nat) : Nat × Nat :=
  match eltFmt k.t with
  | none => (0, 0)
  | some f =>
    let n := bit a (f.ew + f.fw)
    let sub := bits a f.fw f.ew = 0
    (2 ^ (match Fp.decode f false a with
      | .nan sig => if sig then 8 else 9
      | .inf n => if n then 0 else 7
      | .fin _ m _ => if m = 0 then (if n then 3 else 4) else if sub then (if n then 2 else 5) else (if n then 1 else 6)), 0)

/-- VSHUF (R211). -/
def shuffle (lw w a b : Nat) : Nat :=
  joinLanes lw ((lanes b lw (w / lw)).map fun x => if x < w / lw then bits a (lw * x) lw else 0)

/-- VBCAST (R212). -/
def broadcast (lw w a : Nat) : Nat := joinLanes lw (List.replicate (w / lw) (trunc a lw))

/-- VSLIDE (R213). -/
def slide (lw w a : Nat) (n : Int) : Nat :=
  joinLanes lw ((List.range (w / lw)).map fun (j : Nat) =>
    let k : Int := (j : Int) + n
    if 0 ≤ k ∧ k < (w / lw : Nat) then bits a (lw * k.toNat) lw else 0)

/-- One level of the tree of R101: neighbours combined. -/
def pairUp (op : Nat → Nat → Nat × Nat) : List Nat → List Nat × Nat
  | x :: y :: r =>
    let p := op x y
    let rest := pairUp op r
    (p.1 :: rest.1, p.2 ||| rest.2)
  | l => (l, 0)

/-- The tree of R101 over at most 2^fuel lanes. -/
def reduceTree (op : Nat → Nat → Nat × Nat) : Nat → List Nat → Nat × Nat
  | 0, l => (l.headD 0, 0)
  | k + 1, l =>
    if l.length ≤ 1 then (l.headD 0, 0) else
    let p := pairUp op l
    let r := reduceTree op k p.1
    (r.1, p.2 ||| r.2)

/-- VHSUM, VHMAX, VHMIN (R214): lanes counted from A, the result in D's lane 0 and zeros above. -/
def horizontal (i : Instr) (t : Elt) (f : LaneCtl → Nat → Nat → Nat → Nat × Nat) (s : State) :
    Host.Outcome State Fault Refusal :=
  let lw := eltWidth t
  let src (v : View) : Nat := if isSlice v.a then sliceWidth v.a else opWidth v
  run i (fun v =>
    { v := v, ra := some (src v), wd := some (opWidth v), wide := opWidth v,
      legal := decide (lw ≤ src v) && !isFlag v.d && !isFlag v.a && !(isSlice v.d && sliceWidth v.d < lw) }) (fun c =>
    let a := readLanes c.s c.c c.t c.img c.pa c.la (src c.v) lw
    let r := reduceTree (fun x y => f (c.ctl t) x y 0) 12 (lanes a lw (src c.v / lw))
    .ok (c.write c.w r.1 r.2)) s

/-! ## Conversions (R215) -/

/-- A type of a conversion: integers by width and sign, formats, F8. -/
inductive CvtType where
  | int (w : Nat) (signed : Bool)
  | fp (f : Fmt)
deriving DecidableEq, Repr

/-- Table 11.9. -/
def cvtSource (n : Nat) : CvtType :=
  match n with
  | 0 => .int 8 true | 1 => .int 16 true | 2 => .int 32 true | 3 => .int 64 true
  | 4 => .fp Fp.f16 | 5 => .fp Fp.bf16 | 6 => .fp Fp.f32 | 7 => .fp Fp.f8
  | 8 => .int 8 false | 9 => .int 16 false | 10 => .int 32 false | _ => .int 64 false

/-- The destination type: OP[2:0] with X, or F8. -/
def cvtDest (t : Elt) (zx f8 : Bool) : CvtType :=
  if f8 then .fp Fp.f8 else
  match eltFmt t with
  | some f => .fp f
  | none => .int (eltWidth t) (!zx)

/-- Lane width of a conversion type. -/
def CvtType.width : CvtType → Nat
  | .int w _ => w
  | .fp f => Fp.width f

/-- One lane of a conversion (Table 11.10). -/
def convert (mode : Mode) (ftz sat : Bool) (src dst : CvtType) (a : Nat) : Nat × Nat :=
  match src, dst with
  | .int w sg, .int w' sg' => intResult (val a w sg) w' sat sg'
  | .int w sg, .fp f => Fp.encode f mode ftz (Fp.ofInt (val a w sg))
  | .fp f, .int w' sg' => Fp.toInt mode w' sg' (Fp.decode f ftz a)
  | .fp f, .fp g => Fp.encode g mode ftz (Fp.decode f ftz a)

/-- Width at which VCVT reads A (R215). -/
def cvtReadWidth (v : View) (n sw : Nat) : Nat := ownWidth v.a (n * sw)

/-! ## Tables and exponents -/

/-- FLUT on one lane (R106, R218): entries of 8 bytes, slope below intercept. -/
def lutLane (entry : Nat → Nat) (ftz : Bool) (a : Nat) : Nat × Nat :=
  match Fp.decode Fp.f32 ftz a with
  | .nan sig => (Fp.canonNaN Fp.f32, if sig then Flag.nv else 0)
  | .inf _ => (Fp.canonNaN Fp.f32, Flag.nv)
  | .fin _ m _ =>
    let r := if m = 0 then 2 ^ 23 else m <<< (23 - Nat.log2 m)
    let e := entry (bits r 15 8)
    Fp.encode Fp.f32 .rne ftz (Fp.fma .rne (Fp.decode Fp.f32 ftz (bits e 0 32)) (.fin false (bits r 0 15) (-15))
      (Fp.decode Fp.f32 ftz (bits e 32 32)))

/-- FEXPS on one lane (R219). -/
def fracLane (ftz : Bool) (a : Nat) : Nat × Nat :=
  match Fp.decode Fp.f32 ftz a with
  | .nan sig => (Fp.canonNaN Fp.f32, if sig then Flag.nv else 0)
  | .inf _ => (0x3F800000, 0)
  | .fin n m e =>
    let fl := Fp.floorFin n m e
    Fp.encode Fp.f32 .rtz ftz (Fp.add .rtz (.fin n m e) (Fp.ofInt (1 - fl)))

/-- FLDX on one lane (R220). -/
def scaleLane (k : LaneCtl) (a b _ : Nat) : Nat × Nat :=
  match eltFmt k.t with
  | none => (0, 0)
  | some f =>
    let x := Fp.decode f k.ftz a
    let y := Fp.decode f k.ftz b
    if Fp.isNaN x || Fp.isNaN y then (Fp.canonNaN f, if Fp.isSig x || Fp.isSig y then Flag.nv else 0)
    else
      let e : Int := match y with
        | .nan _ => 0
        | .inf n => if n then -1000 else 1000
        | .fin n m e => max (-1000) (min 1000 (Fp.floorFin n m e))
      match x with
      | .fin n m e' => Fp.encode f k.mode k.ftz (.fin n m (e' + e))
      | x => Fp.encode f k.mode k.ftz x

/-- Quotients, roots and reciprocals by lane (R216). -/
def fpLane (k : LaneCtl) (g : FVal → FVal → FVal × Nat) (a b _ : Nat) : Nat × Nat := lane2 k (fun x _ => x) g a b

/-- FDIV and FSQRT (R203, R216): lane-parallel and of class T. The result lands `base` + (beats − 1) cycles after
issue (R180), as one with its flags: a repetition's last beat starts what its beats have made. -/
def fpSlow (i : Instr) (t : Elt) (useB : Bool) (base : Nat) (g : FVal → FVal → FVal × Nat) (s : State) :
    Host.Outcome State Fault Refusal :=
  run i (vecSpec (eltWidth t) true useB) (fun c =>
    let r := c.beatsOf c.w (eltWidth t) (fpLane (c.ctl t) g) (c.lanesOf c.w (eltWidth t) c.img)
    if c.last then
      .ok { land := some { dest := c.ld, w := c.w, cycles := some (base + (c.beats - 1)), value := c.acc ||| r.1,
                           flags := c.accFlags ||| r.2 } }
    else .ok { acc := c.acc ||| r.1, accFlags := c.accFlags ||| r.2 }) s

/-! ## The instructions -/

/-- VADD (R205). -/
def execVadd (h : Hdr) (t : Elt) (d a b : Opnd) (s : State) : Host.Outcome State Fault Refusal :=
  lanewise (.vadd h t d a b) t true laneAdd s
/-- VSUB (R205). -/
def execVsub (h : Hdr) (t : Elt) (d a b : Opnd) (s : State) : Host.Outcome State Fault Refusal :=
  lanewise (.vsub h t d a b) t true laneSub s
/-- VMUL (R205). -/
def execVmul (h : Hdr) (t : Elt) (d a b : Opnd) (s : State) : Host.Outcome State Fault Refusal :=
  lanewise (.vmul h t d a b) t true laneMul s
/-- VFMA (R206). -/
def execVfma (h : Hdr) (t : Elt) (d a b : Opnd) (s : State) : Host.Outcome State Fault Refusal :=
  lanewise3 (.vfma h t d a b) t (laneFma false false) s
/-- VFMS (R206). -/
def execVfms (h : Hdr) (t : Elt) (d a b : Opnd) (s : State) : Host.Outcome State Fault Refusal :=
  lanewise3 (.vfms h t d a b) t (laneFma false true) s
/-- VFNMA (R206). -/
def execVfnma (h : Hdr) (t : Elt) (d a b : Opnd) (s : State) : Host.Outcome State Fault Refusal :=
  lanewise3 (.vfnma h t d a b) t (laneFma true false) s
/-- VMIN (R205). -/
def execVmin (h : Hdr) (t : Elt) (d a b : Opnd) (s : State) : Host.Outcome State Fault Refusal :=
  lanewise (.vmin h t d a b) t true laneMin s
/-- VMAX (R205). -/
def execVmax (h : Hdr) (t : Elt) (d a b : Opnd) (s : State) : Host.Outcome State Fault Refusal :=
  lanewise (.vmax h t d a b) t true laneMax s
/-- VABS (R205). -/
def execVabs (h : Hdr) (t : Elt) (d a : Opnd) (s : State) : Host.Outcome State Fault Refusal :=
  lanewise (.vabs h t d a) t false laneAbs s
/-- VNEG (R205). -/
def execVneg (h : Hdr) (t : Elt) (d a : Opnd) (s : State) : Host.Outcome State Fault Refusal :=
  lanewise (.vneg h t d a) t false laneNeg s
/-- VSHL (R207). -/
def execVshl (h : Hdr) (t : Elt) (d a b : Opnd) (s : State) : Host.Outcome State Fault Refusal :=
  lanewise (.vshl h t d a b) t true laneShl s
/-- VSHR (R207). -/
def execVshr (h : Hdr) (t : Elt) (d a b : Opnd) (s : State) : Host.Outcome State Fault Refusal :=
  lanewise (.vshr h t d a b) t true laneShr s
/-- VSAR (R207). -/
def execVsar (h : Hdr) (t : Elt) (d a b : Opnd) (s : State) : Host.Outcome State Fault Refusal :=
  lanewise (.vsar h t d a b) t true laneSar s
/-- VCMPEQ (R208). -/
def execVcmpeq (h : Hdr) (t : Elt) (d a b : Opnd) (s : State) : Host.Outcome State Fault Refusal :=
  vcompare (.vcmpeq h t d a b) t .eq s
/-- VCMPNE (R208). -/
def execVcmpne (h : Hdr) (t : Elt) (d a b : Opnd) (s : State) : Host.Outcome State Fault Refusal :=
  vcompare (.vcmpne h t d a b) t .ne s
/-- VCMPLT (R208). -/
def execVcmplt (h : Hdr) (t : Elt) (d a b : Opnd) (s : State) : Host.Outcome State Fault Refusal :=
  vcompare (.vcmplt h t d a b) t .lt s
/-- VCMPLE (R208). -/
def execVcmple (h : Hdr) (t : Elt) (d a b : Opnd) (s : State) : Host.Outcome State Fault Refusal :=
  vcompare (.vcmple h t d a b) t .le s
/-- VSEL (R209). -/
def execVsel (h : Hdr) (t : Elt) (d a b : Opnd) (s : State) : Host.Outcome State Fault Refusal :=
  lanewise3 (.vsel h t d a b) t laneSel s
/-- VSHUF (R211). -/
def execVshuf (h : Hdr) (t : Elt) (d a b : Opnd) (s : State) : Host.Outcome State Fault Refusal :=
  whole (.vshuf h t d a b) t true (fun k w a b => (shuffle (eltWidth k.t) w a b, 0)) s
/-- VBCAST (R212). -/
def execVbcast (h : Hdr) (t : Elt) (d a : Opnd) (s : State) : Host.Outcome State Fault Refusal :=
  whole (.vbcast h t d a) t false (fun k w a _ => (broadcast (eltWidth k.t) w a, 0)) s
/-- VSLIDE (R213): B at a fixed width of 32, signed. -/
def execVslide (h : Hdr) (t : Elt) (d a b : Opnd) (s : State) : Host.Outcome State Fault Refusal :=
  run (.vslide h t d a b) (fun v => { vecSpec (eltWidth t) false true v with rb := some 32 }) (fun c =>
    let lw := eltWidth t
    .ok (c.write c.w (slide lw c.w (c.lanesOf c.w lw c.img).1 (val (c.b 32 false) 32 true)))) s
/-- VHSUM (R214). -/
def execVhsum (h : Hdr) (t : Elt) (d a : Opnd) (s : State) : Host.Outcome State Fault Refusal :=
  horizontal (.vhsum h t d a) t laneAdd s
/-- VHMAX (R214). -/
def execVhmax (h : Hdr) (t : Elt) (d a : Opnd) (s : State) : Host.Outcome State Fault Refusal :=
  horizontal (.vhmax h t d a) t laneMax s
/-- VHMIN (R214). -/
def execVhmin (h : Hdr) (t : Elt) (d a : Opnd) (s : State) : Host.Outcome State Fault Refusal :=
  horizontal (.vhmin h t d a) t laneMin s
/-- VCVT (R215). -/
def execVcvt (h : Hdr) (t : Elt) (d a : Opnd) (imm : BitVec 15) (s : State) : Host.Outcome State Fault Refusal :=
  let src := cvtSource (imm.toNat % 16)
  let dst := cvtDest t h.x (imm.getLsbD 4)
  run (.vcvt h t d a imm) (fun v =>
    let w := opWidth v
    { v := v, ra := some (cvtReadWidth v (w / dst.width) src.width), wd := some w, wide := w,
      legal := decide (dst.width ≤ w) && !isFlag v.d && !isFlag v.a }) (fun c =>
    let n := c.w / dst.width
    let img := c.a (cvtReadWidth c.v n src.width) true
    let rs := (lanes img src.width n).map fun x =>
      convert (roundingOf c.v.h.rnd c.th) c.th.ftz c.sat src dst x
    .ok (c.write c.w (joinLanes dst.width (rs.map Prod.fst)) (rs.foldl (fun m r => m ||| r.2) 0))) s
/-- VCLASS (R210). -/
def execVclass (h : Hdr) (t : Elt) (d a : Opnd) (s : State) : Host.Outcome State Fault Refusal :=
  lanewise (.vclass h t d a) t false laneClass s
/-- FDIV (R216). -/
def execFdiv (h : Hdr) (t : Elt) (d a b : Opnd) (s : State) : Host.Outcome State Fault Refusal :=
  fpSlow (.fdiv h t d a b) t true 18 Fp.div s
/-- FSQRT (R216). -/
def execFsqrt (h : Hdr) (t : Elt) (d a : Opnd) (s : State) : Host.Outcome State Fault Refusal :=
  fpSlow (.fsqrt h t d a) t false 22 (fun x _ => (Fp.sqrt x, 0)) s
/-- FRCP (R216). -/
def execFrcp (h : Hdr) (t : Elt) (d a : Opnd) (s : State) : Host.Outcome State Fault Refusal :=
  lanewise (.frcp h t d a) t false (fun k => fpLane k (fun x _ => Fp.div (.fin false 1 0) x)) s
/-- FRSQ (R216). -/
def execFrsq (h : Hdr) (t : Elt) (d a : Opnd) (s : State) : Host.Outcome State Fault Refusal :=
  lanewise (.frsq h t d a) t false (fun k => fpLane k (fun x _ => Fp.rsqrt x)) s
/-- FLUT (R218). -/
def execFlut (h : Hdr) (t : Elt) (d a : Opnd) (imm : BitVec 15) (s : State) : Host.Outcome State Fault Refusal :=
  run (.flut h t d a imm) (vecSpec (eltWidth t) true false) (fun c =>
    let ft := (c.s.core c.c).ft
    let entry (n : Nat) : Nat := (Tbl.get ft (256 * (imm.toNat % 4) + n) 0).toNat
    .ok (c.lanewise c.w (c.lanesOf c.w 32)
      (fun n a b d => laneMap 32 (fun x _ _ => lutLane entry c.th.ftz x) (n / 32) a b d))) s
/-- LUTLD (R217): entries in increasing index. -/
def execLutld (h : Hdr) (t : Elt) (a : Opnd) (imm : BitVec 15) (s : State) : Host.Outcome State Fault Refusal :=
  let e := sliceWidth (some a) / 64
  let x0 := imm.toNat / 4 % 256
  run (.lutld h t a imm) (fun v =>
    { v := v, ra := some (sliceWidth v.a), wide := Nat.max 1 (sliceWidth v.a),
      legal := isSlice v.a && sliceWidth v.a % 64 == 0 && decide (x0 + e ≤ 256) }) (fun c =>
    let img := c.a (64 * e) true
    .ok { post := fun s => s.modMyCore fun k =>
      { k with ft := (List.range e).foldl (fun ft m =>
        Tbl.set ft (256 * (imm.toNat % 4) + x0 + m) (BitVec.ofNat 64 (bits img (64 * m) 64))) k.ft } }) s
/-- FEXPS (R219). -/
def execFexps (h : Hdr) (t : Elt) (d a : Opnd) (s : State) : Host.Outcome State Fault Refusal :=
  lanewise (.fexps h t d a) t false (fun k a _ _ => fracLane k.ftz a) s
/-- FLDX (R220). -/
def execFldx (h : Hdr) (t : Elt) (d a b : Opnd) (s : State) : Host.Outcome State Fault Refusal :=
  lanewise (.fldx h t d a b) t true scaleLane s

end Sys2Proof.Machine
end

