-- ==== Sys2Proof/Machine/Dispatch.lean ====
section
/-! DEFINITION. What every instruction and event does: one arm a constructor, each one call of its meaning. -/

namespace Sys2Proof.Machine

open Sys2Proof

def exec (i : Instr) (s : State) : Host.Outcome State Fault Refusal :=
  match i with
  | .nop => Sys2Proof.Machine.execNop s
  | .add h d a b => Sys2Proof.Machine.execAdd h d a b s
  | .addi h d a imm => Sys2Proof.Machine.execAddi h d a imm s
  | .sub h d a b => Sys2Proof.Machine.execSub h d a b s
  | .mul h d a b => Sys2Proof.Machine.execMul h d a b s
  | .mulh h d a b => Sys2Proof.Machine.execMulh h d a b s
  | .mulhn h d a b => Sys2Proof.Machine.execMulhn h d a b s
  | .div h d a b => Sys2Proof.Machine.execDiv h d a b s
  | .divn h d a b => Sys2Proof.Machine.execDivn h d a b s
  | .rem h d a b => Sys2Proof.Machine.execRem h d a b s
  | .remn h d a b => Sys2Proof.Machine.execRemn h d a b s
  | .and h d a b => Sys2Proof.Machine.execAnd h d a b s
  | .andi h d a imm => Sys2Proof.Machine.execAndi h d a imm s
  | .or h d a b => Sys2Proof.Machine.execOr h d a b s
  | .ori h d a imm => Sys2Proof.Machine.execOri h d a imm s
  | .xor h d a b => Sys2Proof.Machine.execXor h d a b s
  | .xori h d a imm => Sys2Proof.Machine.execXori h d a imm s
  | .andn h d a b => Sys2Proof.Machine.execAndn h d a b s
  | .shl h d a b => Sys2Proof.Machine.execShl h d a b s
  | .shli h d a imm => Sys2Proof.Machine.execShli h d a imm s
  | .shr h d a b => Sys2Proof.Machine.execShr h d a b s
  | .shri h d a imm => Sys2Proof.Machine.execShri h d a imm s
  | .sar h d a b => Sys2Proof.Machine.execSar h d a b s
  | .sari h d a imm => Sys2Proof.Machine.execSari h d a imm s
  | .rol h d a b => Sys2Proof.Machine.execRol h d a b s
  | .roli h d a imm => Sys2Proof.Machine.execRoli h d a imm s
  | .clz h d a => Sys2Proof.Machine.execClz h d a s
  | .ctz h d a => Sys2Proof.Machine.execCtz h d a s
  | .popc h d a => Sys2Proof.Machine.execPopc h d a s
  | .min h d a b => Sys2Proof.Machine.execMin h d a b s
  | .max h d a b => Sys2Proof.Machine.execMax h d a b s
  | .minn h d a b => Sys2Proof.Machine.execMinn h d a b s
  | .maxn h d a b => Sys2Proof.Machine.execMaxn h d a b s
  | .abs h d a => Sys2Proof.Machine.execAbs h d a s
  | .neg h d a => Sys2Proof.Machine.execNeg h d a s
  | .sel h d a b => Sys2Proof.Machine.execSel h d a b s
  | .mov h d a => Sys2Proof.Machine.execMov h d a s
  | .movi h d imm => Sys2Proof.Machine.execMovi h d imm s
  | .movh h d a imm => Sys2Proof.Machine.execMovh h d a imm s
  | .bfx h d a b => Sys2Proof.Machine.execBfx h d a b s
  | .bfi h d a b => Sys2Proof.Machine.execBfi h d a b s
  | .brev h d a => Sys2Proof.Machine.execBrev h d a s
  | .bswap h d a => Sys2Proof.Machine.execBswap h d a s
  | .cmpeq h d a b => Sys2Proof.Machine.execCmpeq h d a b s
  | .cmpne h d a b => Sys2Proof.Machine.execCmpne h d a b s
  | .cmplt h d a b => Sys2Proof.Machine.execCmplt h d a b s
  | .cmpltn h d a b => Sys2Proof.Machine.execCmpltn h d a b s
  | .cmple h d a b => Sys2Proof.Machine.execCmple h d a b s
  | .cmplen h d a b => Sys2Proof.Machine.execCmplen h d a b s
  | .br h off => Sys2Proof.Machine.execBr h off s
  | .jmp h a => Sys2Proof.Machine.execJmp h a s
  | .call h off => Sys2Proof.Machine.execCall h off s
  | .callr h d a => Sys2Proof.Machine.execCallr h d a s
  | .loop h a imm => Sys2Proof.Machine.execLoop h a imm s
  | .rep h a imm => Sys2Proof.Machine.execRep h a imm s
  | .yield h => Sys2Proof.Machine.execYield h s
  | .exit h => Sys2Proof.Machine.execExit h s
  | .vadd h t d a b => Sys2Proof.Machine.execVadd h t d a b s
  | .vsub h t d a b => Sys2Proof.Machine.execVsub h t d a b s
  | .vmul h t d a b => Sys2Proof.Machine.execVmul h t d a b s
  | .vfma h t d a b => Sys2Proof.Machine.execVfma h t d a b s
  | .vfms h t d a b => Sys2Proof.Machine.execVfms h t d a b s
  | .vfnma h t d a b => Sys2Proof.Machine.execVfnma h t d a b s
  | .vmin h t d a b => Sys2Proof.Machine.execVmin h t d a b s
  | .vmax h t d a b => Sys2Proof.Machine.execVmax h t d a b s
  | .vabs h t d a => Sys2Proof.Machine.execVabs h t d a s
  | .vneg h t d a => Sys2Proof.Machine.execVneg h t d a s
  | .vshl h t d a b => Sys2Proof.Machine.execVshl h t d a b s
  | .vshr h t d a b => Sys2Proof.Machine.execVshr h t d a b s
  | .vsar h t d a b => Sys2Proof.Machine.execVsar h t d a b s
  | .vcmpeq h t d a b => Sys2Proof.Machine.execVcmpeq h t d a b s
  | .vcmpne h t d a b => Sys2Proof.Machine.execVcmpne h t d a b s
  | .vcmplt h t d a b => Sys2Proof.Machine.execVcmplt h t d a b s
  | .vcmple h t d a b => Sys2Proof.Machine.execVcmple h t d a b s
  | .vsel h t d a b => Sys2Proof.Machine.execVsel h t d a b s
  | .vshuf h t d a b => Sys2Proof.Machine.execVshuf h t d a b s
  | .vbcast h t d a => Sys2Proof.Machine.execVbcast h t d a s
  | .vslide h t d a b => Sys2Proof.Machine.execVslide h t d a b s
  | .vhsum h t d a => Sys2Proof.Machine.execVhsum h t d a s
  | .vhmax h t d a => Sys2Proof.Machine.execVhmax h t d a s
  | .vhmin h t d a => Sys2Proof.Machine.execVhmin h t d a s
  | .vcvt h t d a imm => Sys2Proof.Machine.execVcvt h t d a imm s
  | .vclass h t d a => Sys2Proof.Machine.execVclass h t d a s
  | .fdiv h t d a b => Sys2Proof.Machine.execFdiv h t d a b s
  | .fsqrt h t d a => Sys2Proof.Machine.execFsqrt h t d a s
  | .frcp h t d a => Sys2Proof.Machine.execFrcp h t d a s
  | .frsq h t d a => Sys2Proof.Machine.execFrsq h t d a s
  | .flut h t d a imm => Sys2Proof.Machine.execFlut h t d a imm s
  | .lutld h t a imm => Sys2Proof.Machine.execLutld h t a imm s
  | .fexps h t d a => Sys2Proof.Machine.execFexps h t d a s
  | .fldx h t d a b => Sys2Proof.Machine.execFldx h t d a b s
  | .bpack h d a b => Sys2Proof.Machine.execBpack h d a b s
  | .bunpk h d a => Sys2Proof.Machine.execBunpk h d a s
  | .balign h d a b => Sys2Proof.Machine.execBalign h d a b s
  | .badd h d a b => Sys2Proof.Machine.execBadd h d a b s
  | .baddq h d a b => Sys2Proof.Machine.execBaddq h d a b s
  | .bscale h d a b => Sys2Proof.Machine.execBscale h d a b s
  | .bnorm h d a => Sys2Proof.Machine.execBnorm h d a s
  | .bmaxe h d a => Sys2Proof.Machine.execBmaxe h d a s
  | .bmac h d a b => Sys2Proof.Machine.execBmac h d a b s
  | .bhsum h d a => Sys2Proof.Machine.execBhsum h d a s
  | .berr h d a b => Sys2Proof.Machine.execBerr h d a b s
  | .bcmpz h d a => Sys2Proof.Machine.execBcmpz h d a s
  | .bhdr h d a => Sys2Proof.Machine.execBhdr h d a s
  | .mlease h => Sys2Proof.Machine.execMlease h s
  | .mrels h => Sys2Proof.Machine.execMrels h s
  | .mcfg h a => Sys2Proof.Machine.execMcfg h a s
  | .mzero h imm => Sys2Proof.Machine.execMzero h imm s
  | .mlda h a imm => Sys2Proof.Machine.execMlda h a imm s
  | .mldb h a imm => Sys2Proof.Machine.execMldb h a imm s
  | .mgatha h a imm => Sys2Proof.Machine.execMgatha h a imm s
  | .mmac h imm => Sys2Proof.Machine.execMmac h imm s
  | .mstc h a imm => Sys2Proof.Machine.execMstc h a imm s
  | .mstcQ h a imm => Sys2Proof.Machine.execMstcQ h a imm s
  | .msave h a imm => Sys2Proof.Machine.execMsave h a imm s
  | .mrstr h a imm => Sys2Proof.Machine.execMrstr h a imm s
  | .mstat h d => Sys2Proof.Machine.execMstat h d s
  | .matrixCommandComplete c id => Sys2Proof.Machine.execMatrixCommandComplete c id s
  | .mmacKstep c => Sys2Proof.Machine.execMmacKstep c s
  | .matrixLeaseGrant c => Sys2Proof.Machine.execMatrixLeaseGrant c s
  | .leaseBudgetExpiry c => Sys2Proof.Machine.execLeaseBudgetExpiry c s
  | .ld h d a imm => Sys2Proof.Machine.execLd h d a imm s
  | .st h d a imm => Sys2Proof.Machine.execSt h d a imm s
  | .aadd h d a imm => Sys2Proof.Machine.execAadd h d a imm s
  | .amin h d a imm => Sys2Proof.Machine.execAmin h d a imm s
  | .amax h d a imm => Sys2Proof.Machine.execAmax h d a imm s
  | .aminn h d a imm => Sys2Proof.Machine.execAminn h d a imm s
  | .amaxn h d a imm => Sys2Proof.Machine.execAmaxn h d a imm s
  | .aand h d a imm => Sys2Proof.Machine.execAand h d a imm s
  | .aor h d a imm => Sys2Proof.Machine.execAor h d a imm s
  | .axor h d a imm => Sys2Proof.Machine.execAxor h d a imm s
  | .aswap h d a imm => Sys2Proof.Machine.execAswap h d a imm s
  | .acas h d a imm => Sys2Proof.Machine.execAcas h d a imm s
  | .afadd h d a imm => Sys2Proof.Machine.execAfadd h d a imm s
  | .redi h d a imm => Sys2Proof.Machine.execRedi h d a imm s
  | .redf h d a imm => Sys2Proof.Machine.execRedf h d a imm s
  | .redb h d a imm => Sys2Proof.Machine.execRedb h d a imm s
  | .fence h imm => Sys2Proof.Machine.execFence h imm s
  | .spill h d a imm => Sys2Proof.Machine.execSpill h d a imm s
  | .fill h d a imm => Sys2Proof.Machine.execFill h d a imm s
  | .push h d a => Sys2Proof.Machine.execPush h d a s
  | .pop h d a => Sys2Proof.Machine.execPop h d a s
  | .peek h d a => Sys2Proof.Machine.execPeek h d a s
  | .pdrain h d a => Sys2Proof.Machine.execPdrain h d a s
  | .pcnt h d a => Sys2Proof.Machine.execPcnt h d a s
  | .pcfg h d a imm => Sys2Proof.Machine.execPcfg h d a imm s
  | .portPushRetest c t => Sys2Proof.Machine.execPortPushRetest c t s
  | .portGroupComplete c t q => Sys2Proof.Machine.execPortGroupComplete c t q s
  | .portRoomReturn c t q => Sys2Proof.Machine.execPortRoomReturn c t q s
  | .send h d a => Sys2Proof.Machine.execSend h d a s
  | .sendm h d a => Sys2Proof.Machine.execSendm h d a s
  | .reply h a => Sys2Proof.Machine.execReply h a s
  | .refuse h => Sys2Proof.Machine.execRefuse h s
  | .hset h a => Sys2Proof.Machine.execHset h a s
  | .hexit h => Sys2Proof.Machine.execHexit h s
  | .mbxcfg h d a => Sys2Proof.Machine.execMbxcfg h d a s
  | .waitev h d => Sys2Proof.Machine.execWaitev h d s
  | .pollev h d => Sys2Proof.Machine.execPollev h d s
  | .messageArrival id => Sys2Proof.Machine.execMessageArrival id s
  | .handlerStart c => Sys2Proof.Machine.execHandlerStart c s
  | .eventDelivery id => Sys2Proof.Machine.execEventDelivery id s
  | .cpy h d a imm => Sys2Proof.Machine.execCpy h d a imm s
  | .cpyr h d a imm => Sys2Proof.Machine.execCpyr h d a imm s
  | .sortk h d a imm => Sys2Proof.Machine.execSortk h d a imm s
  | .qfence h imm => Sys2Proof.Machine.execQfence h imm s
  | .engst h d imm => Sys2Proof.Machine.execEngst h d imm s
  | .engineCommandComplete c q => Sys2Proof.Machine.execEngineCommandComplete c q s
  | .rtree h d a => Sys2Proof.Machine.execRtree h d a s
  | .rsend h d a imm => Sys2Proof.Machine.execRsend h d a imm s
  | .rwait h d imm => Sys2Proof.Machine.execRwait h d imm s
  | .rabort h imm => Sys2Proof.Machine.execRabort h imm s
  | .treePartialArrival id => Sys2Proof.Machine.execTreePartialArrival id s
  | .treeRackWordArrival id => Sys2Proof.Machine.execTreeRackWordArrival id s
  | .treeTimeout c k blk => Sys2Proof.Machine.execTreeTimeout c k blk s
  | .treeResultDelivery id => Sys2Proof.Machine.execTreeResultDelivery id s
  | .treeAbortArrival id => Sys2Proof.Machine.execTreeAbortArrival id s
  | .coll h d a => Sys2Proof.Machine.execColl h d a s
  | .collw h d a => Sys2Proof.Machine.execCollw h d a s
  | .collStepStart id => Sys2Proof.Machine.execCollStepStart id s
  | .collStepArrival id src packet => Sys2Proof.Machine.execCollStepArrival id src packet s
  | .collMemberTimeout id => Sys2Proof.Machine.execCollMemberTimeout id s
  | .collComplete id => Sys2Proof.Machine.execCollComplete id s
  | .bdisp h d a => Sys2Proof.Machine.execBdisp h d a s
  | .twait h d a => Sys2Proof.Machine.execTwait h d a s
  | .spawn h d a b => Sys2Proof.Machine.execSpawn h d a b s
  | .join h d a imm => Sys2Proof.Machine.execJoin h d a imm s
  | .taskid h d imm => Sys2Proof.Machine.execTaskid h d imm s
  | .bar h d a imm => Sys2Proof.Machine.execBar h d a imm s
  | .arrive h d a imm => Sys2Proof.Machine.execArrive h d a imm s
  | .waitb h a imm => Sys2Proof.Machine.execWaitb h a imm s
  | .launch h d a => Sys2Proof.Machine.execLaunch h d a s
  | .taskQueueStart c => Sys2Proof.Machine.execTaskQueueStart c s
  | .dlogh h => Sys2Proof.Machine.execDlogh h s
  | .tinv h a imm => Sys2Proof.Machine.execTinv h a imm s
  | .trap h imm => Sys2Proof.Machine.execTrap h imm s
  | .eret h => Sys2Proof.Machine.execEret h s
  | .csrr h d imm => Sys2Proof.Machine.execCsrr h d imm s
  | .csrw h d a imm => Sys2Proof.Machine.execCsrw h d a imm s
  | .csrs h d a imm => Sys2Proof.Machine.execCsrs h d a imm s
  | .csrc h d a imm => Sys2Proof.Machine.execCsrc h d a imm s
  | .brk h imm => Sys2Proof.Machine.execBrk h imm s
  | .sysc h imm => Sys2Proof.Machine.execSysc h imm s
  | .idle h => Sys2Proof.Machine.execIdle h s
  | .resultLanding c t id => Sys2Proof.Machine.execResultLanding c t id s
  | .trapEntry => Sys2Proof.Machine.execTrapEntry s
  | .accessArrival id => Sys2Proof.Machine.execAccessArrival id s
  | .ackArrival id => Sys2Proof.Machine.execAckArrival id s
  | .accessResend id => Sys2Proof.Machine.execAccessResend id s
  | .streamWindowRetire => Sys2Proof.Machine.execStreamWindowRetire s
  | .streamAdmitRetry id => Sys2Proof.Machine.execStreamAdmitRetry id s
  | .releaseClearance id => Sys2Proof.Machine.execReleaseClearance id s
  | .releaseCancel id => Sys2Proof.Machine.execReleaseCancel id s
  | .remoteRetest id => Sys2Proof.Machine.execRemoteRetest id s
  | .replicaInvalidateAck id p => Sys2Proof.Machine.execReplicaInvalidateAck id p s
  | .edgeTranslationWalk id => Sys2Proof.Machine.execEdgeTranslationWalk id s
  | .storageFault id => Sys2Proof.Machine.execStorageFault id s
  | .pageFillComplete e id => Sys2Proof.Machine.execPageFillComplete e id s
  | .nvmeCommandFail e id code => Sys2Proof.Machine.execNvmeCommandFail e id code s
  | .frameEviction e pool => Sys2Proof.Machine.execFrameEviction e pool s
  | .dlogMerge c => Sys2Proof.Machine.execDlogMerge c s
  | .detWindowClose l => Sys2Proof.Machine.execDetWindowClose l s
  | .windowDrowsy c t => Sys2Proof.Machine.execWindowDrowsy c t s
  | .lqTailWrite => Sys2Proof.Machine.execLqTailWrite s
  | .lqHeadWrite => Sys2Proof.Machine.execLqHeadWrite s
  | .lqEnable => Sys2Proof.Machine.execLqEnable s
  | .lqDisable => Sys2Proof.Machine.execLqDisable s
  | .lqCrdWrite => Sys2Proof.Machine.execLqCrdWrite s
  | .descriptorRead q => Sys2Proof.Machine.execDescriptorRead q s
  | .bunchPlace l => Sys2Proof.Machine.execBunchPlace l s
  | .roundEnd l => Sys2Proof.Machine.execRoundEnd l s
  | .bunchRetire l b => Sys2Proof.Machine.execBunchRetire l b s
  | .launchComplete l => Sys2Proof.Machine.execLaunchComplete l s
  | .deadlockReport l => Sys2Proof.Machine.execDeadlockReport l s
  | .preCtlPreempt => Sys2Proof.Machine.execPreCtlPreempt s
  | .preCtlRelease => Sys2Proof.Machine.execPreCtlRelease s
  | .preCtlAbort => Sys2Proof.Machine.execPreCtlAbort s
  | .preCtlArmWatchdog => Sys2Proof.Machine.execPreCtlArmWatchdog s
  | .watchdogExpiry l b tw => Sys2Proof.Machine.execWatchdogExpiry l b tw s
  | .bunchHalt c => Sys2Proof.Machine.execBunchHalt c s
  | .orphanTimeout l b => Sys2Proof.Machine.execOrphanTimeout l b s
  | .bunchSave l b => Sys2Proof.Machine.execBunchSave l b s
  | .tnRdWrite => Sys2Proof.Machine.execTnRdWrite s
  | .tnBaseWrite => Sys2Proof.Machine.execTnBaseWrite s
  | .bunchSwapIn l b => Sys2Proof.Machine.execBunchSwapIn l b s
  | .coreFailure c => Sys2Proof.Machine.execCoreFailure c s
  | .meshLinkFailure c dir => Sys2Proof.Machine.execMeshLinkFailure c dir s
  | .grafting f ok => Sys2Proof.Machine.execGrafting f ok s
  | .powerUp => Sys2Proof.Machine.execPowerUp s
  | .reset => Sys2Proof.Machine.execReset s
  | .hostLinkTrained p => Sys2Proof.Machine.execHostLinkTrained p s
  | .edgeMemoryTrained p size => Sys2Proof.Machine.execEdgeMemoryTrained p size s
  | .cellarDrivesReady e drives => Sys2Proof.Machine.execCellarDrivesReady e drives s
  | .linkPortLocked p => Sys2Proof.Machine.execLinkPortLocked p s
  | .linkPortDown p => Sys2Proof.Machine.execLinkPortDown p s
  | .linkFlitRetry => Sys2Proof.Machine.execLinkFlitRetry s
  | .linkRekey p => Sys2Proof.Machine.execLinkRekey p s
  | .timeSync => Sys2Proof.Machine.execTimeSync s
  | .rslice => Sys2Proof.Machine.execRslice s
  | .wslice => Sys2Proof.Machine.execWslice s
  | .rcsr => Sys2Proof.Machine.execRcsr s
  | .wcsr => Sys2Proof.Machine.execWcsr s
  | .rmem => Sys2Proof.Machine.execRmem s
  | .wmem => Sys2Proof.Machine.execWmem s
  | .halt => Sys2Proof.Machine.execHalt s
  | .haltb => Sys2Proof.Machine.execHaltb s
  | .resume => Sys2Proof.Machine.execResume s
  | .step => Sys2Proof.Machine.execStep s
  | .setbp => Sys2Proof.Machine.execSetbp s
  | .rsave => Sys2Proof.Machine.execRsave s
  | .wsave => Sys2Proof.Machine.execWsave s
  | .brkmode => Sys2Proof.Machine.execBrkmode s
  | .dbgAuthNewchal => Sys2Proof.Machine.execDbgAuthNewchal s
  | .dbgAuthVerify => Sys2Proof.Machine.execDbgAuthVerify s
  | .authLockoutExpiry => Sys2Proof.Machine.execAuthLockoutExpiry s
  | .dbgSecWrite => Sys2Proof.Machine.execDbgSecWrite s
  | .dbgLvlWrite => Sys2Proof.Machine.execDbgLvlWrite s
  | .attestationGo => Sys2Proof.Machine.execAttestationGo s
  | .attestationReportDone => Sys2Proof.Machine.execAttestationReportDone s
  | .rtvgo => Sys2Proof.Machine.execRtvgo s
  | .standbyRequest => Sys2Proof.Machine.execStandbyRequest s
  | .standbyExit => Sys2Proof.Machine.execStandbyExit s
  | .accessTableWrite => Sys2Proof.Machine.execAccessTableWrite s
  | .tracePcSample => Sys2Proof.Machine.execTracePcSample s
  | .traceFrameClose f => Sys2Proof.Machine.execTraceFrameClose f s
  | .traceFrameTimeout f n => Sys2Proof.Machine.execTraceFrameTimeout f n s
  | .trCtlWrite => Sys2Proof.Machine.execTrCtlWrite s
  | .trRdWrite => Sys2Proof.Machine.execTrRdWrite s
  | .registerWrite => Sys2Proof.Machine.execRegisterWrite s
  | .waferTimeReachesTarget c t => Sys2Proof.Machine.execWaferTimeReachesTarget c t s
  | .softError kind a => Sys2Proof.Machine.execSoftError kind a s
  | .pageWriteBackComplete e id ok => Sys2Proof.Machine.execPageWriteBackComplete e id ok s
  | .wordNotAnInstruction => Sys2Proof.Machine.execWordNotAnInstruction s

end Sys2Proof.Machine
end

