-- ==== Sys2Proof/Machine/Datapath.lean ====
section
/-! DEFINITION. What issue selection asks about instructions that have not issued: who waits for the vector datapath
when it frees, who has been passed over though ready, and whom a YIELD waits for (R35, R39, R178, R201). -/

namespace Sys2Proof.Machine

open Sys2Proof

/-- A slot after its instruction has been tried on a state, which itself does not change. -/
def tried (c t : Nat) (s : State) : Thread :=
  match exec (fetch (focus c t s)) (focus c t s) with
  | .next u => u.thread c t
  | _ => s.thread c t

/-- A slot's instruction would issue on a state. -/
def wouldIssue (s : State) (c t : Nat) : Bool := (s.thread c t).mayIssue s.now && decide ((tried c t s).issuedIn = s.now + 1)

/-- What happens next in this cycle. -/
def pick (s : State) : Pick := pickFrom s.now (decide (s.debugLevel = 2)) (wouldIssue s) s.cores

/-- The datapath of a core as a slot would find it: held by another's beats, or free. -/
def withDatapath (c : Nat) (busy : Bool) (s : State) : State :=
  s.modCore c fun k => { k with vecFree := if busy then s.now + 1 else s.now, vecLast := 8, vecGrant := none }

/-- A slot waits for the datapath: its instruction needs it, and nothing else holds it up (R39). -/
def waitsDatapath (s : State) (c t : Nat) : Bool :=
  (s.thread c t).mayIssue s.now && (tried c t (withDatapath c true s)).vecHeld && wouldIssue (withDatapath c false s) c t

/-- The datapath of a core goes to the first waiting slot after its last holder (R39). -/
def grantDatapath (c : Nat) (s : State) : State :=
  s.modCore c fun k => { k with vecAsk := false, vecGrant := (slotsAfter k.vecLast).find? (waitsDatapath s c) }

/-- Slot `t` of a core at the end of a cycle. The slots that a YIELD of this cycle waits for are those that could have issued
in it (R201). A normal slot that could have issued while another did has been passed over once more; a cycle in which a
handler or trap thread issues, or the slot waits or is held, ends the run (R35). A wait that has ended is no longer one. -/
def settleSlot (s : State) (c t : Nat) (th : Thread) : Thread :=
  { th with
    yieldFor := if th.yieldTo = s.now + 9 then th.yieldFor.filter (wouldIssue s c) else th.yieldFor
    passed := if !(s.core c).preempted && decide (th.cls = .normal) && wouldIssue s c t then th.passed + 1 else 0
    wait := if th.mayIssue s.now && (tried c t s).wait.isNone then none else th.wait }

/-- The slots of a core at the end of a cycle. -/
def settleCore (s : State) (c : Nat) (u : State) : State :=
  u.modCore c fun k => { k with threads := k.threads.mapIdx fun t th => settleSlot s c t th }

/-- The end of a cycle. -/
def endCycle (s : State) : State := tick ((Tbl.keys s.cores).foldl (fun u c => settleCore s c u) s)

/-! ## A loaded program for a single word: what `State.withFetchWord` sets (log entry 6) -/

/-- A word written where a slot fetches next. -/
def putWord (c : Nat) (pc : W32) (w : Nat) (s : State) : State :=
  storeN s (localKey c (codeBase + 10 * pc.toNat)) 10 w

/-- The state in which nothing waits ahead of the next issue. -/
def clearAhead (s : State) : State :=
  { s with agenda := [], asked := [], timers := s.timers.filter fun p => s.now < p.1 }

/-- A loaded program on core 0. -/
def loadProgram (s : State) : State :=
  let id := s.nextLaunch
  { s with nextLaunch := id + 1, launches := s.launches ++ [loadLaunch id], cores := [(0, loadCore id)] }

/-- The word of `w` stored where the next issue fetches; with no thread about to issue, a program is loaded first. -/
def loadWord (w : Nat) (s : State) : State :=
  let s1 := clearAhead s
  match pick s1 with
  | .issue c t => putWord c (s1.thread c t).pc w s1
  | _ => putWord 0 0 w (loadProgram s1)

end Sys2Proof.Machine
end

