-- ==== Sys2Proof/Machine/Outside.lean ====
section
/-! DEFINITION. What the host ports and the test access port ask of the machine (R361, R373, R374). -/

namespace Sys2Proof.Machine

open Sys2Proof

/-- A request is answered: with bytes, or denied. -/
def State.answered (s : State) (r : Option (List Byte)) : State := { s with answers := r :: s.answers }

/-- A host port is trained (R372). -/
def State.hostReady (s : State) (p : Nat) : Bool := p < 4 && s.ready.host.getLsbD p

/-- A master reads MMIO registers. -/
def mmioServe (m : Master) (off n : Nat) (s : State) : State :=
  s.answered (if s.mmioReads m off n then some (mmioBytes s off n) else none)

/-- A master writes MMIO registers: the events that the write is happen next. -/
def mmioTake (m : Master) (off : Nat) (bs : List Byte) (s : State) : State :=
  if s.mmioWrites m off bs.length then (s.mmioWrite m off bs).answered (some []) else s.answered none

/-- What the test access port reads: under IDCODE its 32 bits, under DBGACC registers of the debug block (R374). In standby
IDCODE and the security state answer (Table 23.4). -/
def tapServe (off n : Nat) (s : State) : State :=
  match s.tap with
  | .idcode => s.answered (some ((toBytes Config.idcode.toNat 4).take n))
  | .dbgacc => mmioServe .debugger (0x30000 + off % 0x10000) n s

/-- What the test access port writes: registers of the debug block, under DBGACC. -/
def tapTake (off : Nat) (bs : List Byte) (s : State) : State :=
  match s.tap with
  | .idcode => s.answered none
  | .dbgacc => mmioTake .debugger (0x30000 + off % 0x10000) bs s

/-- A request is served: through BAR0 the MMIO space; through CXL.mem edge memory, at once and for every observer, which is an
access at NODE scope (R140, R373); through the test access port the debug block (R374). -/
def serve (r : Outside) (s : State) : State :=
  match r with
  | .barRead p off n => if s.hostReady p then mmioServe (.host p) off n s else s.answered none
  | .barWrite p off bs => if s.hostReady p then mmioTake (.host p) off bs s else s.answered none
  | .memRead p a n => s.answered (if s.hostReady p then s.physRead (.host p) a n else none)
  | .memWrite p a bs =>
    match if s.hostReady p then s.physWrite (.host p) a bs else none with
    | some s1 => s1.answered (some [])
    | none => s.answered none
  | .tapSelect ir => { s with tap := ir }
  | .tapRead off n => tapServe off n s
  | .tapWrite off bs => tapTake off bs s

end Sys2Proof.Machine
end

