-- ==== Sys2Proof/Machine/Step.lean ====
section
/-! DEFINITION. One step of the machine: the event that happens next, else the slot that issues next, else the end
of the cycle. -/

namespace Sys2Proof.Machine

open Sys2Proof

/-- One step (log entry 2): an event of the agenda, a request from outside, a timed event that is due, a cause, the datapath given to the slot
that waits for it, an execute comparator or an instruction of the slot that issue selection picks, or one cycle of
waiting. -/
def step (s : State) : Host.Outcome State Fault Refusal :=
  match s.agenda with
  | (b, i) :: r => exec i { s with agenda := r, bus := b }
  | [] =>
    match s.asked with
    | r :: rest => .next (serve r { s with asked := rest })
    | [] =>
    match dueEvent s with
    | some (i, s1) => exec i s1
    | none =>
      match pick s with
      | .cause c t => exec .trapEntry (focus c t s)
      | .datapath c => .next (grantDatapath c s)
      | .comparator c t => .next (breakHere (focus c t s))
      | .issue c t => exec (fetch (focus c t s)) (focus c t s)
      | .none => .next (endCycle s)

/-- The state whose next step runs the instruction with bits `w` (log entry 6). -/
def State.withFetchWord (s : State) (nbits w : Nat) : State := loadWord (w % 2 ^ nbits) s

end Sys2Proof.Machine
end

