-- ==== Sys2Proof/Safety.lean ====
section
/-! DEFINITION. A safe run: no step of it is refused, and every state keeps the forms the model rests on. The terms
in which the statements say what an instruction does and what it leaves as it was. -/

namespace Sys2Proof

open Sys2Proof.Machine

/-- The state `n` steps on, if every step answers a next state. -/
def runN : Nat → State → Option State
  | 0, s => some s
  | n + 1, s =>
    match step s with
    | .next s' => runN n s'
    | _ => none

/-- The stored forms: memory canonical, tables with rising keys. -/
def wellKept (s : State) : Bool := Mem.wf s.mem && Tbl.rising s.cores && Tbl.rising s.tables

namespace Machine

/-! ## When an instruction performs (R154) -/

/-- The executing slot is one of its core's, none of the checks and waits of R154 stops the instruction, its guard
holds (that of a repetition under way has been evaluated, R199), and its field's trace block is not in stall mode (R384). -/
structure MayPerform (sp : Spec) (s : State) : Prop where
  slot  : s.curSlot < s.myCore.threads.length
  first : beforeGuard sp s = .ok ()
  guard : (s.me.midBeat || guardHolds s.me sp.v.h.dist.toNat sp.v.h.grd) = true
  after : afterGuard sp s = .ok ()
  stall : (s.traceBlk (fieldOfCore s.curCore)).stall = false

/-! ## What an instruction changes -/

/-- The window with writes in it, later ones standing (R61). -/
def overlay (w : BitVec 8192) (ws : List Write) : BitVec 8192 :=
  ws.foldl (fun w x => BitVec.ofNat 8192 (applyWin w.toNat x)) w

/-- None of the writes is a push. -/
def noPush (ws : List Write) : Bool := ws.all Write.isWin

/-- A thread without its window, flags, PC, loop state, queues, results on their way, the fill of a block it waits to read, and
the marks of issue. -/
def Thread.kept (th : Thread) : Thread :=
  { th with window := 0, pend := [], pos := 0, pc := 0, fflags := 0, portcfg := 0, loops := .empty, landings := [],
            held := none, budget := 0, qin := [], sync := [], busyTo := 0, issuedIn := 0, tried := false, wait := none,
            vecHeld := false, drowsy := false, stepping := false, bpSkip := [], yieldFor := [], badGroups := [],
            blockFill := none, blockErr := false }

/-- A thread without its input queues and the slots it yields to: what another thread's instruction leaves. -/
def Thread.aside (th : Thread) : Thread := { th with qin := [], yieldFor := [] }

/-- A core without its threads and the marks of issue. -/
def Core.kept (k : Core) : Core :=
  { k with threads := [], issued := false, preempted := false, lastH := 0, lastT := 0, lastN := 0, vecLast := 0, vecFree := 0
           vecAsk := false, vecGrant := none }

/-- The machine without its cores, its timers and the next name: memory and everything else beside them. -/
def State.beside (s : State) : State := { s with cores := [], timers := [], nextId := 0 }

/-- The loop bank and PC an instruction leaves (R152, R198): those of its transfer, or of the loop test. -/
def Thread.goes (th : Thread) (jump : Option (W32 × Bool)) : LoopBank × W32 :=
  match jump with
  | some (p, clears) =>
    (if clears then { th.loops with loopst0 := leaveFrame th.loops.loopst0 th.pc p, loopst1 := leaveFrame th.loops.loopst1 th.pc p }
      else th.loops, p)
  | none => loopTest th.loops th.pc (th.pc + 1)

/-- Results of a thread that have not landed. -/
def Thread.onWay (th : Thread) : List Landing := th.landings.filter fun l => !l.landed

/-- Cycles an instruction takes at issue beyond its beats: those of wide operands and of waking a drowsy window (R57, R65). -/
def Spec.extra (sp : Spec) (x : Ctx) : Nat := sp.cycles x - x.beats

/-- An instruction has done `r` to its thread, has moved on, and has left everything else: `t` is the state after it.
Clauses that hold only where no stale read is logged say so (R160 logs and traces it). That the flags of a fixed-class result
reach `fflags` at issue is the model's choice (log entry 68). -/
structure Completes (sp : Spec) (r : Res) (s t : State) : Prop where
  here     : t.curCore = s.curCore ∧ t.curSlot = s.curSlot ∧ t.now = s.now
  window   : t.me.allWritten = overlay s.me.allWritten r.writes
  flags    : t.me.fflags = s.me.fflags ||| BitVec.ofNat 64 r.flags
  position : (s.me.inRep = false ∨ r.jump.isSome = true) → t.me.pos = s.me.pos + 1
  goes     : (s.me.inRep = false ∨ r.jump.isSome = true) →
    (t.me.loops, t.me.pc) = ({ ((r.pre s.me).goes r.jump).1 with bar := none, beats := (mkCtx sp s).buf r }, ((r.pre s.me).goes r.jump).2)
  landing  : t.me.onWay = s.me.onWay ++ (r.land.map (landingOf sp s)).toList
  lands    : ∀ l n, r.land = some l → l.cycles = some n →
    (s.now + (n + sp.extra (mkCtx sp s)), Instr.resultLanding s.curCore s.curSlot s.nextId) ∈ t.timers
  kept     : t.me.kept = (r.pre s.me).kept
  portcfg  : noPush r.writes = true → t.me.portcfg = (r.pre s.me).portcfg
  queues   : (mkCtx sp s).stale = 0 → (r.land = none ∨ noPush r.writes = true) → ∀ c u q, (t.thread c u).queue q =
    ((doPushes s.curCore s.curSlot r.writes (takePops sp (mkCtx sp s) s)).thread c u).queue q
  others   : ∀ c u, (c = s.curCore ∧ u = s.curSlot) ∨ (t.thread c u).aside = (s.thread c u).aside
  cores    : ∀ c, (t.core c).kept = (s.core c).kept ∧ (t.core c).threads.length = (s.core c).threads.length
  beside   : (mkCtx sp s).stale = 0 → t.beside = s.beside

/-- Where it may perform and `ok` holds of its operands, the instruction answers a next state: it does `r`, then what
`r` says happens beside its thread. -/
def Does (i : Instr) (sp : View → Spec) (ok : Ctx → Prop) (r : Ctx → Res) : Prop :=
  ∀ s v, i.view = some v → MayPerform (sp v) s → ok (mkCtx (sp v) s) →
    ∃ t, exec i s = .next ((r (mkCtx (sp v) s)).post t) ∧ Completes (sp v) (r (mkCtx (sp v) s)) s t

/-- Where it may perform and `ok` holds of its operands, the instruction stops instead: it traps, waits or is held. -/
def Stops (i : Instr) (sp : View → Spec) (ok : Ctx → Prop) (e : Ctx → Stop) : Prop :=
  ∀ s v, i.view = some v → MayPerform (sp v) s → ok (mkCtx (sp v) s) → exec i s = .next (stopAt (e (mkCtx (sp v) s)) s)

/-- An instruction does something for any operands it may perform with. -/
def Always (i : Instr) (sp : View → Spec) (r : Ctx → Res) : Prop := Does i sp (fun _ => True) r

end Machine

end Sys2Proof
end

