-- ==== Sys2Proof/Certificates/Slice0/Obligations.lean ====
section
/-! DEFINITION. The statements for the provers, and the tables of formulas they name. -/

open Sys2Proof Sys2Proof.Machine

namespace Sys2Proof.Stated

/-! ## Integer formulas (chapter 11) -/

/-- A value brought into the range of a `w`-bit reading. -/
def clampTo (w : Nat) (sg : Bool) (v : Int) : Int := min (max v (loVal w sg)) (hiVal w sg)

/-- What an exact result writes and raises (R181): clamped under SAT, with `fflags.SAT` where that changes it. -/
def exactRes (x : Ctx) (v : Int) : Res :=
  let c := if x.sat then clampTo x.w (!x.x) v else v
  { writes := writeLoc x.ld x.w (truncI c x.w), flags := if c = v then 0 else Flag.sat }

/-- A read at the operation width, under a reading. -/
def aVal (x : Ctx) (sg : Bool) : Int := val (x.a x.w x.x) x.w sg
/-- B read at the operation width, under a reading. -/
def bVal (x : Ctx) (sg : Bool) : Int := val (x.b x.w x.x) x.w sg

/-- The exact value of A and B (Table 11.3). -/
def exact2 : Instr → Option (Int → Int → Int)
  | .add _ _ _ _ => some fun a b => a + b
  | .sub _ _ _ _ => some fun a b => a - b
  | .mul _ _ _ _ => some fun a b => a * b
  | _ => none

/-- The exact value of A and imm15 (Table 11.3). -/
def exact1 : Instr → Option (Int → Int → Int)
  | .addi _ _ _ _ => some fun a n => a + n
  | .abs _ _ _ => some fun a _ => (a.natAbs : Int)
  | .neg _ _ _ => some fun a _ => -a
  | _ => none

/-- The instructions of a fixed reading, which it names, and their value of w, A and B (Table 11.3). -/
def fixed2 : Instr → Option (Bool × (Nat → Int → Int → Int))
  | .mulh _ _ _ _ => some (true, fun w a b => a * b / (2 ^ w : Nat))
  | .mulhn _ _ _ _ => some (false, fun w a b => a * b / (2 ^ w : Nat))
  | .min _ _ _ _ => some (true, fun _ a b => min a b)
  | .max _ _ _ _ => some (true, fun _ a b => max a b)
  | .minn _ _ _ _ => some (false, fun _ a b => min a b)
  | .maxn _ _ _ _ => some (false, fun _ a b => max a b)
  | _ => none

/-- The divisions: their reading, and whether they write the remainder (R182). -/
def division : Instr → Option (Bool × Bool)
  | .div _ _ _ _ => some (true, false)
  | .divn _ _ _ _ => some (false, false)
  | .rem _ _ _ _ => some (true, true)
  | .remn _ _ _ _ => some (false, true)
  | _ => none

/-- The quotient of R182. -/
def quotient (w : Nat) (sg sat : Bool) (a b : Int) : Int :=
  if b = 0 then 2 ^ w - 1
  else if sg ∧ sat ∧ b = -1 ∧ a = -2 ^ (w - 1) then 2 ^ (w - 1) - 1
  else a.sign * b.sign * (a.natAbs / b.natAbs : Nat)

/-- The remainder of R182: A less the quotient, before the clamp of SAT, times B. -/
def remainder (a b : Int) : Int := if b = 0 then a else a - a.sign * b.sign * (a.natAbs / b.natAbs : Nat) * b

/-- The flags of R182. -/
def divFlags (w : Nat) (sg sat : Bool) (a b : Int) : Nat :=
  if b = 0 then Flag.dz else if sg ∧ sat ∧ b = -1 ∧ a = -2 ^ (w - 1) then Flag.sat else 0

/-- A division's result on its way (R158, R180). -/
def divRes (x : Ctx) (sg remd : Bool) : Res :=
  { land := some { dest := x.ld, w := x.w, cycles := some (4 + (x.w + 1) / 2), flags := divFlags x.w sg x.sat (aVal x sg) (bVal x sg),
                   value := truncI (if remd then remainder (aVal x sg) (bVal x sg)
                     else quotient x.w sg x.sat (aVal x sg) (bVal x sg)) x.w } }

/-- The second source of a bitwise instruction. -/
inductive Second where
  | b
  | imm
  | none
deriving DecidableEq, Repr

/-- The bitwise instructions: their second source, and bit k of the result (Table 11.4). MOV takes bit k of A (R187). -/
def bitwise : Instr → Option (Second × (Bool → Bool → Bool))
  | .and _ _ _ _ => some (.b, fun a b => a && b)
  | .andi _ _ _ _ => some (.imm, fun a b => a && b)
  | .or _ _ _ _ => some (.b, fun a b => a || b)
  | .ori _ _ _ _ => some (.imm, fun a b => a || b)
  | .xor _ _ _ _ => some (.b, fun a b => a ^^ b)
  | .xori _ _ _ _ => some (.imm, fun a b => a ^^ b)
  | .andn _ _ _ _ => some (.b, fun a b => a && !b)
  | .mov _ _ _ => some (.none, fun a _ => a)
  | _ => none

/-- The second source as an instruction reads it, in the window at hand. -/
def Second.read (k : Second) (x : Ctx) (img : Nat) : Nat :=
  match k with
  | .b => readLoc x.s x.c x.t img x.pb x.lb x.w x.x
  | .imm => x.immExt x.w x.x
  | .none => 0

/-- Bits `n` − 1 to 0 of an image whose bit k is `f k`. -/
def ofBits (f : Nat → Bool) : Nat → Nat
  | 0 => 0
  | n + 1 => ofBits f n ||| if f n then 2 ^ n else 0

/-- Beats `j` to `j + n` − 1 of an operation on sources read once. -/
def beatsOf (w : Nat) (src : Nat × Nat × Nat) (op : Nat → Nat → Nat → Nat → Nat × Nat) : Nat → Nat → Nat × Nat
  | 0, _ => (0, 0)
  | n + 1, j =>
    let len := min 512 (w - 512 * j)
    let r := op len (src.1 / 2 ^ (512 * j) % 2 ^ len) (src.2.1 / 2 ^ (512 * j) % 2 ^ len) (src.2.2 / 2 ^ (512 * j) % 2 ^ len)
    (r.1 % 2 ^ len * 2 ^ (512 * j) + (beatsOf w src op n (j + 1)).1, r.2 ||| (beatsOf w src op n (j + 1)).2)

/-- The shifts and rotates: whether the count is imm15, and the result of w, the count, SAT, X and A, before it is cut
to w bits, with whether SAT clamps it (R184). -/
def shifts : Instr → Option (Bool × (Nat → Nat → Bool → Nat → Int × Bool))
  | .shl _ _ _ _ => some (false, fun w n zx a => (val a w (!zx) * 2 ^ n, true))
  | .shli _ _ _ _ => some (true, fun w n zx a => (val a w (!zx) * 2 ^ n, true))
  | .shr _ _ _ _ => some (false, fun w n _ a => (val a w false / 2 ^ n, false))
  | .shri _ _ _ _ => some (true, fun w n _ a => (val a w false / 2 ^ n, false))
  | .sar _ _ _ _ => some (false, fun w n _ a => (val a w true / 2 ^ n, false))
  | .sari _ _ _ _ => some (true, fun w n _ a => (val a w true / 2 ^ n, false))
  | .rol _ _ _ _ => some (false, fun w n _ a => ((ofBits (fun k => a.testBit ((k + w - n % w) % w)) w : Nat), false))
  | .roli _ _ _ _ => some (true, fun w n _ a => ((ofBits (fun k => a.testBit ((k + w - n % w) % w)) w : Nat), false))
  | _ => none

/-- What a shift of R184 writes and raises. -/
def shiftRes (x : Ctx) (v : Int × Bool) : Res :=
  if v.2 then exactRes x v.1 else { writes := writeLoc x.ld x.w (truncI v.1 x.w) }

/-- The counts over A's image at its own width n (R185): leading zeros, trailing zeros, ones. -/
def counts : Instr → Option (Nat → Nat → Nat)
  | .clz _ _ _ => some fun n a => ((List.range n).find? fun k => a.testBit (n - 1 - k)).getD n
  | .ctz _ _ _ => some fun n a => ((List.range n).find? fun k => a.testBit k).getD n
  | .popc _ _ _ => some fun n a => (List.range n).countP fun k => a.testBit k
  | _ => none

/-- Which bit of A becomes bit k of the result (R186), and the least width. -/
def turned : Instr → Option (Nat × (Nat → Nat → Nat))
  | .brev _ _ _ => some (1, fun w k => w - 1 - k)
  | .bswap _ _ _ => some (8, fun w k => 8 * (w / 8 - 1 - k / 8) + k % 8)
  | _ => none

/-- The compares: the greatest width, the reading and the condition (R191). -/
def compares : Instr → Option (Nat × Bool × (Int → Int → Bool))
  | .cmpeq _ _ _ _ => some (2048, false, fun a b => a == b)
  | .cmpne _ _ _ _ => some (2048, false, fun a b => a != b)
  | .cmplt _ _ _ _ => some (64, true, fun a b => decide (a < b))
  | .cmpltn _ _ _ _ => some (64, false, fun a b => decide (a < b))
  | .cmple _ _ _ _ => some (64, true, fun a b => decide (a ≤ b))
  | .cmplen _ _ _ _ => some (64, false, fun a b => decide (a ≤ b))
  | _ => none

/-- The control word of a bit-field instruction: its LW, LEN and POS (Table 11.5). -/
def ctlLw (x : Ctx) : Nat := x.b 32 x.x / 2 ^ 20 % 8
/-- LEN. -/
def ctlLen (x : Ctx) : Nat := x.b 32 x.x / 2 ^ 12 % 128
/-- POS. -/
def ctlPos (x : Ctx) : Nat := x.b 32 x.x % 4096

/-- The lane width of BFX (R189). -/
def fieldLane (x : Ctx) : Nat := if ctlLw x = 0 then x.w else 8 * 2 ^ (ctlLw x - 1)

/-- Bit k of BFX's result (R189): lane k / lw holds LEN bits of A from POS + LEN × lane on, then their sign or zeros. -/
def fieldBit (x : Ctx) (k : Nat) : Bool :=
  let a := x.a (ownWidth x.v.a x.w) true
  let from_ := ctlPos x + k / fieldLane x * ctlLen x
  if k % fieldLane x < ctlLen x then a.testBit (from_ + k % fieldLane x)
  else !x.x && 0 < ctlLen x && a.testBit (from_ + ctlLen x - 1)

/-- Bit k of BFI's result (R190). -/
def insertBit (x : Ctx) (k : Nat) : Bool :=
  if ctlPos x ≤ k ∧ k < ctlPos x + ctlLen x then (x.a (ownWidth x.v.a x.w) true).testBit (k - ctlPos x)
  else (x.d x.w x.x).testBit k

/-- The operands of MOVI (R187): D alone. -/
def moviSpec (v : View) : Spec :=
  { v := v, wd := some (opWidth v), wide := opWidth v, legal := decide (1 ≤ opWidth v ∧ opWidth v ≤ 2048) }

/-- The operands of SEL (R188): D is read, and no port (R177). -/
def selSpec (v : View) : Spec :=
  { binSpec 1 2048 false v with rd := some (opWidth v), legal := decide (1 ≤ opWidth v ∧ opWidth v ≤ 2048) && !isPort v.d }

/-- The operands of BFX (R189). -/
def bfxSpec (v : View) : Spec := { binSpec 1 2048 false v with ra := some (ownWidth v.a (opWidth v)), rb := some 32 }

/-- The operands of BFI (R190). -/
def bfiSpec (v : View) : Spec :=
  { binSpec 1 2048 false v with ra := some (ownWidth v.a (opWidth v)), rb := some 32, rd := some (opWidth v),
                                legal := decide (1 ≤ opWidth v ∧ opWidth v ≤ 2048) && !isPort v.d }

/-- A control word BFX admits (R189). -/
def fieldOk (x : Ctx) : Prop := ctlLw x ≤ 4 ∧ ctlLen x ≤ 64 ∧ fieldLane x ≤ x.w ∧ ctlLen x ≤ fieldLane x

/-- A word with its bits from `lo` to `lo` + `len` − 1 replaced. -/
def withField (w : W64) (lo len v : Nat) : W64 :=
  BitVec.ofNat 64 (w.toNat - w.toNat / 2 ^ lo % 2 ^ len * 2 ^ lo + v % 2 ^ len * 2 ^ lo)

/-! ## Control formulas (R193 to R201) -/

/-- An instruction without operands. -/
def plainSpec (v : View) : Spec := { v := v }

/-- The operands of CALLR: A at 32 bits, D written at its width (R195). -/
def callrSpec (v : View) : Spec := { v := v, ra := some 32, wd := some (opWidth v), wide := max 32 (opWidth v) }

/-- The PC of the last body instruction of a LOOP (R197). -/
def loopLast (x : Ctx) : Nat := x.th.pc.toNat + x.immNat

/-- The first word after a REP, and whether it may be repeated there (R199): in the image, of an opcode of the integer,
vector, block or port groups, and no frame's last instruction being the REP itself. -/
def repWordOf (x : Ctx) : Nat := ofBytes (codeBytes x.s x.c (x.th.pc + 1))
/-- The opcode of the repeated instruction. -/
def repOp (x : Ctx) : Nat := repWordOf x % 2 ^ 10
/-- A frame ends at a PC. -/
def frameEndsAt (f : W64) (pc : W32) : Prop := f.getLsbD 63 = true ∧ f.toNat / 2 ^ 46 % 2 ^ 14 = pc.toNat
/-- REP may repeat what follows. -/
def repTargetOk (x : Ctx) : Prop :=
  ((0x001 ≤ repOp x ∧ repOp x ≤ 0x030) ∨ (0x080 ≤ repOp x ∧ repOp x ≤ 0x18F) ∨ (0x200 ≤ repOp x ∧ repOp x ≤ 0x20C) ∨
    (0x280 ≤ repOp x ∧ repOp x ≤ 0x285)) ∧
  ¬ frameEndsAt x.th.loops.loopst0 x.th.pc ∧ ¬ frameEndsAt x.th.loops.loopst1 x.th.pc

/-- A frame in the first free place of a thread (R197). -/
def openFrame (f : W64) (th : Thread) : Thread :=
  { th with loops := if th.loops.loopst0.getLsbD 63 then { th.loops with loopst1 := f } else { th.loops with loopst0 := f } }

/-- The thread at the instruction a REP repeats: `n` = 0 completes it at once, else repstate holds V, ENA and N (R199). -/
def startRep (n ena : Nat) (th : Thread) : Thread :=
  if n = 0 then
    { th with loops := (loopTest th.loops th.pc (th.pc + 1)).1, pc := (loopTest th.loops th.pc (th.pc + 1)).2, pos := th.pos + 1 }
  else { th with loops := { th.loops with repstate := BitVec.ofNat 64 (2 ^ 53 + ena * 2 ^ 48 + n * 2 ^ 24) } }

/-! ## Vector formulas (R203 to R220) -/

/-- Lane `j` of an image in lanes of `lw` bits (R4). -/
def laneAt (lw v j : Nat) : Nat := v / 2 ^ (lw * j) % 2 ^ lw

/-- An image of `n` lanes. -/
def lanesFrom (lw : Nat) (f : Nat → Nat) : Nat → Nat
  | 0 => 0
  | n + 1 => lanesFrom lw f n + f n % 2 ^ lw * 2 ^ (lw * n)

/-- The lane-parallel instructions over A, or A and B: element type, use of B, and one lane's result and flags. -/
def laneOp : Instr → Option (Elt × Bool × (LaneCtl → Nat → Nat → Nat → Nat × Nat))
  | .vadd _ t _ _ _ => some (t, true, laneAdd)
  | .vsub _ t _ _ _ => some (t, true, laneSub)
  | .vmul _ t _ _ _ => some (t, true, laneMul)
  | .vmin _ t _ _ _ => some (t, true, laneMin)
  | .vmax _ t _ _ _ => some (t, true, laneMax)
  | .vabs _ t _ _ => some (t, false, laneAbs)
  | .vneg _ t _ _ => some (t, false, laneNeg)
  | .vshl _ t _ _ _ => some (t, true, laneShl)
  | .vshr _ t _ _ _ => some (t, true, laneShr)
  | .vsar _ t _ _ _ => some (t, true, laneSar)
  | .vclass _ t _ _ => some (t, false, laneClass)
  | .frcp _ t _ _ => some (t, false, fun k a _ _ => lane2 k (fun x _ => x) (fun x _ => Fp.div (.fin false 1 0) x) a 0)
  | .frsq _ t _ _ => some (t, false, fun k a _ _ => lane2 k (fun x _ => x) (fun x _ => Fp.rsqrt x) a 0)
  | .fexps _ t _ _ => some (t, false, fun k a _ _ => fracLane k.ftz a)
  | .fldx _ t _ _ _ => some (t, true, scaleLane)
  | _ => none

/-- Those that read D as well (R177, R206, R209). -/
def laneOp3 : Instr → Option (Elt × (LaneCtl → Nat → Nat → Nat → Nat × Nat))
  | .vfma _ t _ _ _ => some (t, laneFma false false)
  | .vfms _ t _ _ _ => some (t, laneFma false true)
  | .vfnma _ t _ _ _ => some (t, laneFma true false)
  | .vsel _ t _ _ _ => some (t, fun _ a b d => (if d = 0 then b else a, 0))
  | _ => none

/-- The operands of a family instruction that reads D. -/
def laneSpec3 (t : Elt) (v : View) : Spec :=
  { vecSpec (eltWidth t) true true v with rd := some (opWidth v), legal := (vecSpec (eltWidth t) true true v).legal && !isPort v.d }

/-- A lane-parallel family instruction: each beat lane by lane. -/
def laneRes (x : Ctx) (t : Elt) (f : LaneCtl → Nat → Nat → Nat → Nat × Nat) : Res :=
  x.lanewise x.w (x.lanesOf x.w (eltWidth t)) fun n a b d => laneMap (eltWidth t) (f (x.ctl t)) (n / eltWidth t) a b d

/-- What an integer lane gives for an exact value (R81, R204). -/
def exactLane (k : LaneCtl) (v : Int) : Nat × Nat :=
  let c := if k.sat then clampTo (eltWidth k.t) (!k.zx) v else v
  (truncI c (eltWidth k.t), if c = v then 0 else Flag.sat)

/-- An integer lane's value. -/
def laneVal (k : LaneCtl) (a : Nat) : Int := val a (eltWidth k.t) (!k.zx)

/-- A's lanes, read before any write. -/
def lanesA (x : Ctx) (lw : Nat) : Nat := readLanes x.s x.c x.t x.img x.pa x.la x.w lw
/-- B's lanes. -/
def lanesB (x : Ctx) (lw : Nat) : Nat := readLanes x.s x.c x.t x.img x.pb x.lb x.w lw

/-- Node `j` at height `k` of the tree of R101 over lanes: its value, and the flags of the nodes under it. -/
def treeNode (op : Nat → Nat → Nat × Nat) (l : List Nat) : Nat → Nat → Nat × Nat
  | 0, j => (l.getD j 0, 0)
  | k + 1, j =>
    let a := treeNode op l k (2 * j)
    let b := treeNode op l k (2 * j + 1)
    ((op a.1 b.1).1, a.2 ||| b.2 ||| (op a.1 b.1).2)

/-- The width at which a horizontal reduction reads A (R214). -/
def foldWidth (v : View) : Nat := if isSlice v.a then sliceWidth v.a else opWidth v

/-- The operands of a horizontal reduction. -/
def foldSpec (t : Elt) (v : View) : Spec :=
  { v := v, ra := some (foldWidth v), wd := some (opWidth v), wide := opWidth v,
    legal := decide (eltWidth t ≤ foldWidth v) && !isFlag v.d && !isFlag v.a && !(isSlice v.d && sliceWidth v.d < eltWidth t) }

/-- The horizontal reductions. -/
def foldOp : Instr → Option (Elt × (LaneCtl → Nat → Nat → Nat → Nat × Nat))
  | .vhsum _ t _ _ => some (t, laneAdd)
  | .vhmax _ t _ _ => some (t, laneMax)
  | .vhmin _ t _ _ => some (t, laneMin)
  | _ => none

/-- The operands of VSLIDE: B at 32 bits. -/
def slideSpec (t : Elt) (v : View) : Spec := { vecSpec (eltWidth t) false true v with rb := some 32 }

/-- The lane compares. -/
def laneCompare : Instr → Option (Elt × Cmp)
  | .vcmpeq _ t _ _ _ => some (t, .eq)
  | .vcmpne _ t _ _ _ => some (t, .ne)
  | .vcmplt _ t _ _ _ => some (t, .lt)
  | .vcmple _ t _ _ _ => some (t, .le)
  | _ => none

/-- The operands of a lane compare (R208). -/
def vcmpSpec (t : Elt) (v : View) : Spec :=
  { v := v, ra := some (vcmpWidth v), rb := some (vcmpWidth v), wd := some (vcmpWidth v), wide := vcmpWidth v, lane := true,
    legal := decide (eltWidth t ≤ vcmpWidth v) && !isFlag v.a && !isFlag v.b }

/-- The smaller or, with `top`, the larger of two values (R83): a NaN where either is one, signalling if either is, and −0 below
+0. -/
def chosen (top : Bool) (x y : FVal) : FVal :=
  if Fp.isNaN x ∨ Fp.isNaN y then .nan (Fp.isSig x || Fp.isSig y)
  else if Fp.cmp x y < 0 then (if top then y else x)
  else if 0 < Fp.cmp x y then (if top then x else y)
  else if Fp.isNeg x = true ∧ Fp.isNeg y = false then (if top then y else x)
  else if Fp.isNeg x = false ∧ Fp.isNeg y = true then (if top then x else y)
  else x

/-- A floating-point lane with its sign bit changed by `g`, the bits below it as they are (R205); a NaN becomes the canonical
one. -/
def signed (f : Fmt) (g : Bool → Bool) (a : Nat) : Nat × Nat :=
  match Fp.decode f false a with
  | .nan sig => (Fp.canonNaN f, if sig then Flag.nv else 0)
  | _ => (a % 2 ^ (f.ew + f.fw) + (if g (a.testBit (f.ew + f.fw)) then 2 ^ (f.ew + f.fw) else 0), 0)

/-- A compare holds of two lanes (R208): −0 equals +0, and a NaN is unequal to all. -/
def compareHolds (r : Cmp) (k : LaneCtl) (a b : Nat) : Bool :=
  let by_ (n : Bool) (o : Int) : Bool := match r with
    | .eq => !n && o == 0
    | .ne => n || o != 0
    | .lt => !n && decide (o < 0)
    | .le => !n && decide (o ≤ 0)
  match eltFmt k.t with
  | none => by_ false (laneVal k a - laneVal k b)
  | some f => by_ (Fp.isNaN (Fp.decode f k.ftz a) || Fp.isNaN (Fp.decode f k.ftz b)) (Fp.cmp (Fp.decode f k.ftz a) (Fp.decode f k.ftz b))

/-- The flags of a compare (R208): NV for a signalling NaN, and for any NaN in LT and LE. -/
def compareFlags (r : Cmp) (k : LaneCtl) (a b : Nat) : Nat :=
  match eltFmt k.t with
  | none => 0
  | some f =>
    let x := Fp.decode f k.ftz a
    let y := Fp.decode f k.ftz b
    if Fp.isSig x ∨ Fp.isSig y ∨ (Fp.isNaN x ∨ Fp.isNaN y) ∧ (r = .lt ∨ r = .le) then Flag.nv else 0

/-- The operands of VCVT (R215). -/
def cvtSpec (src dst : CvtType) (v : View) : Spec :=
  { v := v, ra := some (cvtReadWidth v (opWidth v / dst.width) src.width), wd := some (opWidth v), wide := opWidth v,
    legal := decide (dst.width ≤ opWidth v) && !isFlag v.d && !isFlag v.a }

/-- Lane `j` of a conversion, and its flags. -/
def cvtLane (x : Ctx) (src dst : CvtType) (j : Nat) : Nat × Nat :=
  convert (roundingOf x.v.h.rnd x.th) x.th.ftz x.sat src dst
    (laneAt src.width (x.a (cvtReadWidth x.v (x.w / dst.width) src.width) true) j)

/-- FDIV and FSQRT: type, use of B, cycles to the first beat's result, and the lane's value. -/
def slowOp : Instr → Option (Elt × Bool × Nat × (FVal → FVal → FVal × Nat))
  | .fdiv _ t _ _ _ => some (t, true, 18, Fp.div)
  | .fsqrt _ t _ _ => some (t, false, 22, fun x _ => (Fp.sqrt x, 0))
  | _ => none

/-- The result of FDIV and FSQRT on its way (R180, R216), all beats issued at once. -/
def slowRes (x : Ctx) (t : Elt) (base : Nat) (g : FVal → FVal → FVal × Nat) : Res :=
  let src := x.lanesOf x.w (eltWidth t) x.img
  let r := laneMap (eltWidth t) (fun a b _ => lane2 (x.ctl t) (fun y _ => y) g a b) (x.w / eltWidth t) src.1 src.2.1 src.2.2
  { land := some { dest := x.ld, w := x.w, cycles := some (base + (max 1 ((x.w + 511) / 512) - 1)), value := r.1, flags := r.2 } }

/-- What the beats at hand make of a repeated FDIV or FSQRT: the last ones start the result that all have made (R200, R203). -/
def slowBeats (x : Ctx) (t : Elt) (base : Nat) (g : FVal → FVal → FVal × Nat) : Res :=
  let r := x.beatsOf x.w (eltWidth t) (fun a b _ => lane2 (x.ctl t) (fun y _ => y) g a b) (x.lanesOf x.w (eltWidth t) x.img)
  if x.last then
    { land := some { dest := x.ld, w := x.w, cycles := some (base + (x.beats - 1)), value := x.acc ||| r.1, flags := x.accFlags ||| r.2 } }
  else { acc := x.acc ||| r.1, accFlags := x.accFlags ||| r.2 }

/-- Entry `n` of the function table that a FLUT names (R217, R218). -/
def ftEntry (x : Ctx) (imm : BitVec 15) (n : Nat) : Nat := (Tbl.get (x.s.core x.c).ft (256 * (imm.toNat % 4) + n) 0).toNat

/-- The operand of LUTLD (R217). -/
def lutldSpec (imm : BitVec 15) (a : Opnd) (v : View) : Spec :=
  { v := v, ra := some (sliceWidth v.a), wide := max 1 (sliceWidth v.a),
    legal := isSlice v.a && sliceWidth v.a % 64 == 0 && decide (imm.toNat / 4 % 256 + sliceWidth (some a) / 64 ≤ 256) }

/-! ## Block formulas (R221 to R235) -/

/-- What a packed block writes to a D of `w` bits, and the flags it raises. -/
def packedRes (x : Ctx) (w : Nat) (p : Packed) : Res := { writes := writeLoc x.ld w p.img, flags := p.flags }

/-- The format of D, a block of `w` bits. -/
def dFmt (w : Nat) : BFmt := (Blk.fmtOf w).getD .bxa

/-- What BPACK packs: the 32 F32 lanes of A under X, else A's block (R225). -/
def packSource (x : Ctx) : Elems :=
  if x.x then ⟨(lanes (x.a 1024 false) 32 32).map fun l => Blk.ofFVal (Fp.decode Fp.f32 x.th.ftz l), 0, false⟩
  else Blk.dec (dFmt (bpackA x.v)) (x.a (bpackA x.v) true)

/-- BPACK's packed block, and whether it converted an infinity. -/
def packOf (x : Ctx) : Packed × Bool :=
  Blk.bpack (dFmt (blockD x.v)) x.mode (packSource x)
    (if x.x then -32768 else Blk.entryExp (dFmt (bpackA x.v)) (x.a (bpackA x.v) true))

/-- BPACK's record of B (R100): whether an element overflowed to a flag, the mask and count to a port. -/
def packRecord (x : Ctx) : List Write :=
  match x.lb with
  | .flag k => [.win k 1 (if (packOf x).1.mask = 0 then 0 else 1)]
  | .port q => [.push q 64 (Blk.overflowRecord (packOf x).1.mask (packOf x).2)]
  | _ => []

/-- NV of a BPACK: a signalling NaN among A's lanes. -/
def packNv (x : Ctx) : Nat :=
  if x.x && ((lanes (x.a 1024 false) 32 32).any fun l => Fp.isSig (Fp.decode Fp.f32 x.th.ftz l)) then Flag.nv else 0

/-- The target exponent of BALIGN (R227): natural for a narrow format, signed for BXA. -/
def alignTo (x : Ctx) : Int := if fmtAt x.v.a x.w = .bxa then val (x.b 16 false) 16 true else (x.b 16 true : Int)

/-- The exact elements of a block source. -/
def elemsIn (x : Ctx) (w : Nat) : Elems := Blk.dec (fmtAt x.v.a w) (x.a (blockWidth x.v.a w) true)

/-- Operands of BALIGN and BSCALE: one block width, and 16 bits of B. -/
def blockShiftSpec (v : View) : Spec := { sameSpec v with rb := some 16 }

/-- The whole number of units 2^`lo` in an element, where it is one; none for NaN and infinities. -/
def inUnits (lo : Int) : EVal → Option Int
  | .num m e => if lo ≤ e then some (m * 2 ^ (e - lo).toNat) else none
  | _ => none

/-- An element on the grid of R95: v × S × 2^(127 − E + x), rounded. -/
def onGrid (f : BFmt) (mode : Mode) (E : Int) (x : Nat) (m e : Int) : Int := Fp.roundGrid mode m (e + Blk.logS f + 127 - E + x)

/-- A finite element whose magnitude on the grid exceeds the limit. -/
def overGrid (f : BFmt) (mode : Mode) (E : Int) (x : Nat) : EVal → Bool
  | .num m e => decide (Blk.limit f < (onGrid f mode E x m e).natAbs)
  | _ => false

/-- E is the least exponent from `lo` to `top` at which no element is over the grid; `top` where there is none. -/
def LeastExp (past : Int → EVal → Bool) (lo top : Int) (vs : List EVal) (E : Int) : Prop :=
  lo ≤ E ∧ (E < top → ∀ v ∈ vs, past E v = false) ∧ (∀ E', lo ≤ E' → E' < E → E' < top ∧ ∃ v ∈ vs, past E' v = true)

/-- The exponent R95 starts from: of the greatest magnitude, 0 to 255. -/
def startExp (vs : List EVal) : Int :=
  match (vs.filterMap fun v => match v with
    | .num m e => if m = 0 then none else some ((Nat.log2 m.natAbs : Int) + e)
    | _ => none).max? with
  | some t => min (max (t + 127) 0) 255
  | none => 0

/-- An element is NaN, or an infinity, which is packed as one. -/
def notFinite : EVal → Bool
  | .num _ _ => false
  | _ => true

/-- SH of quad `q` (R95): the largest sub-shift at which its four elements are finite and on the grid; 0 where there is none. -/
def quadSh (f : BFmt) (mode : Mode) (E : Int) (vs : List EVal) (q : Nat) : Nat :=
  (((List.range 4).filter fun x => ((vs.drop (4 * q)).take 4).all fun v => !notFinite v && !overGrid f mode E x v).max?).getD 0

/-- The code of a packed element of BX8 or BX16 (R95). -/
def gridCode (f : BFmt) (mode : Mode) (E : Int) (x : Nat) : EVal → Int
  | .num m e => max (-(Blk.limit f : Int)) (min (onGrid f mode E x m e) (Blk.limit f))
  | _ => -2 ^ (Blk.codeW f - 1)

/-- An element saturates: an infinity, or one over the grid. -/
def saturates (past : EVal → Bool) (v : EVal) : Bool := past v || v == .inf false || v == .inf true

/-- The mantissa of an element at exponent E, rounded and clamped (R98, R227); NaN's code for any other. -/
def mantissa (mode : Mode) (E : Int) : EVal → Int
  | .num m e => max (-(2 ^ 47 - 1)) (min (Fp.roundGrid mode m (e + 173 - E)) (2 ^ 47 - 1))
  | _ => -2 ^ 47

/-- A finite element over the mantissa range at E. -/
def overMant (mode : Mode) (E : Int) : EVal → Bool
  | .num m e => decide (2 ^ 47 - 1 < (Fp.roundGrid mode m (e + 173 - E)).natAbs)
  | _ => false

/-- A finite element within the range that a mantissa at E does not hold exactly. -/
def inexactAt (mode : Mode) (E : Int) : EVal → Bool
  | .num m e =>
    let c := Fp.roundGrid mode m (e + 173 - E)
    decide (c.natAbs ≤ 2 ^ 47 - 1) && !Blk.sameValue c (E - 173) m e
  | _ => false

/-- An element times 2^k. -/
def shiftedBy (k : Int) : EVal → EVal
  | .num m e => .num m (e + k)
  | v => v

/-- The state of the outlier pass after a pair whose outlier takes an F8 code (R95). -/
def outlierTaken (st : Blk.OutState) (p f : Nat) (second : Bool) (flags : Nat) : Blk.OutState :=
  ⟨st.k + 1, st.onib + f / 16 * 2 ^ (4 * st.k), st.oside + (if second then 2 ^ p else 0), st.flags ||| flags⟩

/-! ## Port formulas (R69 to R74, R268 to R270) -/

/-- The operands of PUSH: A at its own width, 32 for a port or ZERO, to a port. -/
def pushSpec (v : View) : Spec :=
  { v := v, ra := some (ownWidth v.a 32), wd := some (ownWidth v.a 32), wide := ownWidth v.a 32, legal := isPort v.d }

/-- The operands of POP and, with `keep`, of PEEK. -/
def popSpec (keep : Bool) (v : View) : Spec :=
  { v := v, ra := some (opWidth v), wd := some (opWidth v), wide := opWidth v, keep := keep,
    legal := sliceOrFlag v.d && isPort v.a }

/-- The operands of PDRAIN and PCNT: a destination and a port. -/
def queueSpec (ok : Option Opnd → Bool) (v : View) : Spec :=
  { v := v, wd := some (opWidth v), wide := opWidth v, legal := ok v.d && isPort v.a }

/-- The operands of PCFG. -/
def pcfgSpec (v : View) : Spec := { v := v, ra := some 16, wd := some (opWidth v), wide := opWidth v, legal := sliceOrZero v.d }

/-- The queue that A names. -/
def queueOf (x : Ctx) : InQueue := x.th.queue x.queueA

/-- Complete groups of a queue, and the entries in them (R70, R269). -/
def fullGroups (iq : InQueue) : Nat := (iq.groups.filter Group.complete).length
/-- Their entries, of 256 bits. -/
def fullEntries (iq : InQueue) : Nat := ((iq.groups.filter Group.complete).map fun g => (g.width + 255) / 256).sum
/-- The width of a complete head group; 0 where there is none. -/
def headWidth (iq : InQueue) : Nat :=
  match iq.groups with
  | g :: _ => if g.complete then g.width else 0
  | [] => 0

/-- DIS and DROPPED after PCFG (R270). -/
def pcfgAfter (x : Ctx) (op b : Nat) : W64 :=
  let dis := x.th.portcfg.toNat % 2 ^ 10
  let dropped := x.th.portcfg.toNat / 2 ^ 16 % 2 ^ 10
  match op with
  | 0 => withField x.th.portcfg 0 10 b
  | 1 => withField x.th.portcfg 0 10 (dis ||| b)
  | 2 => withField x.th.portcfg 0 10 (dis - (dis &&& b))
  | _ => withField x.th.portcfg 16 10 (dropped - (dropped &&& b))

/-- Entries in use in a queue, those on their way back included (R70). -/
def usedEntries (iq : InQueue) : Nat :=
  (iq.groups.map fun g => (g.width + 255) / 256).sum + (iq.returning.map fun p => p.1).sum

/-! ## System formulas (R314 to R325) -/

/-- The mode a CSR access needs (Table 17.11): readable and writable here. -/
def csrOpen (x : Ctx) (writes : Bool) : Prop :=
  match csrMode (x.immNat % 4096) with
  | none => False
  | some (ur, uw, sw) => (x.th.level = 0 → ur = true) ∧ (writes = true → (if x.th.level = 0 then uw else sw) = true)

/-- The old value of the CSR at hand. -/
def csrWas (x : Ctx) : W64 := csrRead x.s x.c x.t (x.immNat % 4096)

/-- A as a CSR value: CSRW names its width, CSRS and CSRC extend a narrower A by its sign (Table 17.1; log entry 76). -/
def csrArg (named : Bool) (x : Ctx) : W64 := BitVec.ofNat 64 (x.a 64 named)

/-- The changes of a CSR: whether A's width is named, and the new value from the old one and A (R317). -/
def csrNew : Instr → Option (Bool × (W64 → W64 → W64))
  | .csrw _ _ _ _ => some (true, fun _ a => a)
  | .csrs _ _ _ _ => some (false, fun old a => old ||| a)
  | .csrc _ _ _ _ => some (false, fun old a => old &&& ~~~a)
  | _ => none

/-- The operands of CSRW, CSRS and CSRC. -/
def csrSpec (named : Bool) (v : View) : Spec :=
  { v := v, ra := some 64, wd := some (opWidth v), wide := Nat.max 64 (opWidth v), legal := !named || namedA v.a 64 }

end Sys2Proof.Stated

open Sys2Proof.Stated

/-! ## Integer instructions -/

/-- ADD, SUB, MUL, ADDI, ABS and NEG write the exact value of Table 11.3, clamped to the range of w bits under SAT and cut to w
bits, and raise `fflags.SAT` exactly where the clamp changes it; MULH, MULHN, MIN, MAX, MINN and MAXN read A and B as signed or
natural as their row says and raise no flag. They complete wherever R154 lets them perform, and change nothing else but what
every issue moves on. That a flag reaches `fflags` at issue is the model's choice (log entry 68). -/
def Obligations.IntegerArithmetic : Prop :=
  ((∀ i f, exact2 i = some f → Always i (binSpec 1 64 false) fun x => exactRes x (f (aVal x (!x.x)) (bVal x (!x.x)))) ∧
   (∀ i f, exact1 i = some f → Always i (unSpec 1 64 false) fun x =>
     exactRes x (f (aVal x (!x.x)) (val (x.immExt x.w x.x) x.w (!x.x))))) ∧
  (∀ i sg f, fixed2 i = some (sg, f) → Always i (binSpec 1 64 false) fun x =>
     { writes := writeLoc x.ld x.w (truncI (f x.w (aVal x sg) (bVal x sg)) x.w) })

/-- DIV, DIVN, REM and REMN never trap on a value: their result comes 4 + ceil(w / 2) cycles after issue, with the
quotient towards zero or the remainder of A's sign, all ones and A for a zero divisor with DZ, and the clamped
quotient with SAT for the most negative value over −1 under SAT. -/
def Obligations.Divisions : Prop :=
  ∀ i sg rem, division i = some (sg, rem) → Always i (binSpec 1 64 false) fun x => divRes x sg rem

/-- The instructions of Table 11.4, and MOV, compute each result bit from the bits of A and B (or of the extended
imm15) at the same index, beat by beat. -/
def Obligations.BitwiseLogic : Prop :=
  ∀ i k f, bitwise i = some (k, f) → Always i (if k = .b then binSpec 1 2048 true else unSpec 1 2048 true) fun x =>
    x.lanewise x.w (fun img => (readLoc x.s x.c x.t img x.pa x.la x.w x.x, k.read x img, 0))
      (fun n a b _ => (ofBits (fun j => f (a.testBit j) (b.testBit j)) n, 0))

/-- SHL and SHLI multiply by 2^c under SAT, SHR and SAR divide rounding down, ROL rotates by c mod w, with c B at its own width
or imm15; CLZ, CTZ and POPC count over A's image at its own width; BREV and BSWAP write the bits of A in the order of R186. The
flag of SAT reaches `fflags` at issue by the model's choice (log entry 68). -/
def Obligations.ShiftsAndCounts : Prop :=
  (∀ i imm f, shifts i = some (imm, f) → Always i (if imm then unSpec 1 2048 false else shiftSpec) fun x =>
     shiftRes x (f x.w (if imm then x.immNat else x.b (ownWidth x.v.b x.w) true) x.x (x.a x.w x.x))) ∧
  ((∀ i f, counts i = some f → Always i (fun v => { unSpec 1 2048 false v with ra := some (ownWidth v.a (opWidth v)) }) fun x =>
     { writes := writeLoc x.ld x.w (f (ownWidth x.v.a x.w) (x.a (ownWidth x.v.a x.w) true) % 2 ^ x.w) }) ∧
   (∀ i lo f, turned i = some (lo, f) → Always i (unSpec lo 2048 false) fun x =>
     { writes := writeLoc x.ld x.w (ofBits (fun k => (x.a x.w x.x).testBit (f x.w k)) x.w) }))

/-- MOVI writes imm15 extended, MOVH A moved up by 15 with imm15 below it, SEL A where D is not 0 and B where it is. -/
def Obligations.ConstantsAndSelection : Prop :=
  (∀ h d imm, Always (.movi h d imm) moviSpec fun x =>
    { writes := writeLoc x.ld x.w (truncI (if x.x then (imm.toNat : Int) else imm.toInt) x.w) }) ∧
  (∀ h d a imm, Always (.movh h d a imm) (unSpec 1 2048 false) fun x =>
    { writes := writeLoc x.ld x.w ((x.a x.w x.x * 2 ^ 15 + imm.toNat) % 2 ^ x.w) }) ∧
  (∀ h d a b, Always (.sel h d a b) selSpec fun x =>
    { writes := writeLoc x.ld x.w (if x.d x.w x.x = 0 then x.b x.w x.x else x.a x.w x.x) })

/-- BFX and BFI take their control word from B at 32 bits: admitted, BFX writes fields of LEN bits of A from POS on to
lanes of LW, with their sign unless X, and BFI writes D with LEN bits of A in it at POS; else ILLEGAL_OPERAND with the
control word as tval. R189 gives that tval for LW above w and for LEN above LW; for BFI, for LW 5 to 7 and for LEN 65 to 127 it is
the model's choice, and stands against the default of Table 19.3, the word's bits [63:0] (log entry 11). -/
def Obligations.BitFields : Prop :=
  (∀ h d a b, Does (.bfx h d a b) bfxSpec fieldOk fun x => { writes := writeLoc x.ld x.w (ofBits (fieldBit x) x.w) }) ∧
  (∀ h d a b, Stops (.bfx h d a b) bfxSpec (fun x => ¬ fieldOk x) fun x => .trap Cause.illegalOperand (x.b 32 x.x)) ∧
  (∀ h d a b, Does (.bfi h d a b) bfiSpec (fun x => ctlLw x = 0 ∧ ctlLen x ≤ 64) fun x =>
    { writes := writeLoc x.ld x.w (ofBits (insertBit x) x.w) }) ∧
  (∀ h d a b, Stops (.bfi h d a b) bfiSpec (fun x => ¬ (ctlLw x = 0 ∧ ctlLen x ≤ 64)) fun x =>
    .trap Cause.illegalOperand (x.b 32 x.x))

/-! ## Control -/

/-- BR and CALL go to PC plus offset, JMP and CALLR to A at 32 bits; CALL leaves PC + 1 in s16:32 and CALLR in D; a
taken BR or JMP clears V of each frame whose body, from STARTPC to ENDPC, it leaves, and changes nothing else of a frame
(R193 to R195, R198). -/
def Obligations.Transfers : Prop :=
  (∀ h off, Always (.br h off) plainSpec fun x => { jump := some (x.th.pc + off, true) }) ∧
  (∀ h a, Always (.jmp h a) (fun v => { v := v, ra := some 32 }) fun x => { jump := some (BitVec.ofNat 32 (x.a 32 true), true) }) ∧
  (∀ h off, Always (.call h off) (fun v => { v := v, moreW := [.slices 16 8] }) fun x =>
    { writes := [.win 64 32 (x.th.pc + 1).toNat], jump := some (x.th.pc + off, false) }) ∧
  (∀ h d a, Always (.callr h d a) callrSpec fun x =>
    { writes := writeLoc x.ld x.w (x.th.pc + 1).toNat, jump := some (BitVec.ofNat 32 (x.a 32 true), false) }) ∧
  (∀ (f : W64) (pc p : W32), let inBody (a : W32) := f.toNat / 2 ^ 32 % 2 ^ 14 ≤ a.toNat ∧ a.toNat ≤ f.toNat / 2 ^ 46 % 2 ^ 14
    (f.getLsbD 63 = true ∧ inBody pc ∧ ¬ inBody p → leaveFrame f pc p = withField f 63 1 0) ∧
    (¬ (f.getLsbD 63 = true ∧ inBody pc ∧ ¬ inBody p) → leaveFrame f pc p = f))

/-- LOOP with its body inside the image: a count of 0 passes over the body, else the first free frame takes V, ENDPC,
STARTPC and COUNT; with both frames valid it traps LOOP_DEPTH, and beyond the image FETCH_RANGE (R197). -/
def Obligations.LoopFrames : Prop :=
  ∀ h a imm,
    Does (.loop h a imm) (fun v => { v := v, ra := some 32 }) (fun x => inImage x.s x.c (loopLast x) = true ∧ x.a 32 false = 0)
      (fun x => { jump := some (x.th.pc + BitVec.ofNat 32 (imm.toNat + 1), false) }) ∧
    Does (.loop h a imm) (fun v => { v := v, ra := some 32 })
      (fun x => inImage x.s x.c (loopLast x) = true ∧ x.a 32 false ≠ 0 ∧
        ¬ (x.th.loops.loopst0.getLsbD 63 = true ∧ x.th.loops.loopst1.getLsbD 63 = true))
      (fun x => { pre := openFrame (BitVec.ofNat 64 (2 ^ 63 + loopLast x % 2 ^ 14 * 2 ^ 46 +
        (x.th.pc.toNat + 1) % 2 ^ 14 * 2 ^ 32 + x.a 32 false % 2 ^ 32)) }) ∧
    Stops (.loop h a imm) (fun v => { v := v, ra := some 32 })
      (fun x => inImage x.s x.c (loopLast x) = true ∧ x.a 32 false ≠ 0 ∧
        x.th.loops.loopst0.getLsbD 63 = true ∧ x.th.loops.loopst1.getLsbD 63 = true) (fun _ => .trap Cause.loopDepth 0) ∧
    Stops (.loop h a imm) (fun v => { v := v, ra := some 32 }) (fun x => inImage x.s x.c (loopLast x) = false)
      fun x => .trap Cause.fetchRange (loopLast x)

/-- The loop test (R198): the innermost valid frame whose ENDPC an instruction without a taken transfer completes at counts down
and returns to STARTPC while its COUNT exceeds 1; else it clears, and the outer frame is tested at once. R198 gives COUNT 1;
that a COUNT of 0 clears as well is the model's choice (log entry 74). -/
def Obligations.LoopEndTest : Prop :=
  ∀ (b : LoopBank) (pc : W32),
    (frameEndsAt b.loopst1 pc → 1 < b.loopst1.toNat % 2 ^ 32 → loopTest b pc (pc + 1) =
      ({ b with loopst1 := withField b.loopst1 0 32 (b.loopst1.toNat % 2 ^ 32 - 1) }, BitVec.ofNat 32 (b.loopst1.toNat / 2 ^ 32 % 2 ^ 14))) ∧
    (b.loopst1.getLsbD 63 = false → frameEndsAt b.loopst0 pc → 1 < b.loopst0.toNat % 2 ^ 32 → loopTest b pc (pc + 1) =
      ({ b with loopst0 := withField b.loopst0 0 32 (b.loopst0.toNat % 2 ^ 32 - 1) }, BitVec.ofNat 32 (b.loopst0.toNat / 2 ^ 32 % 2 ^ 14))) ∧
    (b.loopst1.getLsbD 63 = false → frameEndsAt b.loopst0 pc → b.loopst0.toNat % 2 ^ 32 ≤ 1 → loopTest b pc (pc + 1) =
      ({ b with loopst0 := withField b.loopst0 63 1 0 }, pc + 1)) ∧
    (frameEndsAt b.loopst1 pc → b.loopst1.toNat % 2 ^ 32 ≤ 1 → loopTest b pc (pc + 1) =
      ({ (loopTest { b with loopst1 := 0 } pc (pc + 1)).1 with loopst1 := withField b.loopst1 63 1 0 },
        (loopTest { b with loopst1 := 0 } pc (pc + 1)).2)) ∧
    (b.loopst1.getLsbD 63 = true → ¬ frameEndsAt b.loopst1 pc → loopTest b pc (pc + 1) = (b, pc + 1)) ∧
    (b.loopst1.getLsbD 63 = false → ¬ frameEndsAt b.loopst0 pc → loopTest b pc (pc + 1) = (b, pc + 1)) ∧
    (∀ next, next ≠ pc + 1 → loopTest b pc next = (b, next))

/-- REP: a count of 2^24 or more, a target outside the image and one that may not be repeated trap in that order; a count of 0
completes with the repeated instruction at once, and any other sets repstate V, ENA and N (R199). That a REP at a frame's ENDPC
(R198) is refused in the place of the last check is the model's choice (log entry 9). -/
def Obligations.Repetition : Prop :=
  ∀ h a imm,
    Does (.rep h a imm) (fun v => { v := v, ra := some 32 })
      (fun x => x.a 32 false < 2 ^ 24 ∧ inImage x.s x.c (x.th.pc.toNat + 1) = true ∧ repTargetOk x) (fun x =>
      { jump := some (x.th.pc + 1, false), post := fun s => s.modMe (startRep (x.a 32 false) (imm.toNat % 8)) }) ∧
    Stops (.rep h a imm) (fun v => { v := v, ra := some 32 }) (fun x => 2 ^ 24 ≤ x.a 32 false)
      (fun x => .trap Cause.illegalOperand (x.a 32 false)) ∧
    Stops (.rep h a imm) (fun v => { v := v, ra := some 32 })
      (fun x => x.a 32 false < 2 ^ 24 ∧ inImage x.s x.c (x.th.pc.toNat + 1) = false)
      (fun x => .trap Cause.fetchRange (x.th.pc.toNat + 1)) ∧
    Stops (.rep h a imm) (fun v => { v := v, ra := some 32 })
      (fun x => x.a 32 false < 2 ^ 24 ∧ inImage x.s x.c (x.th.pc.toNat + 1) = true ∧ ¬ repTargetOk x)
      (fun x => .trap Cause.repTarget (repWordOf x % 2 ^ 64))

/-- The compares read A and B at the larger of their widths (32 where neither is a slice or flag), signed or natural, and write
1 where the condition of R191 holds and 0 elsewhere. NOP does nothing but pass. YIELD passes and lets its thread be passed over
for 8 cycles, for the threads the model counts as able to issue (R201; which they are is the model's choice, log entry 32). -/
def Obligations.ComparesYieldAndNop : Prop :=
  ((∀ i hi sg f, compares i = some (hi, sg, f) → Always i (cmpSpec hi) fun x =>
     { writes := writeLoc x.ld (cmpWidth x.v) (if f (val (x.a (cmpWidth x.v) x.x) (cmpWidth x.v) sg)
         (val (x.b (cmpWidth x.v) x.x) (cmpWidth x.v) sg) then 1 else 0) }) ∧
   Always .nop (fun v => { v := v }) fun _ => {}) ∧
  (∀ h, Always (.yield h) plainSpec fun x =>
     { post := fun s => s.modMe fun th => { th with yieldTo := s.now + 9, yieldFor := yieldsTo x.s } })

/-- An instruction whose flag guard does not hold, once what R154 puts before the guard lets it, changes no window bit, flag,
queue or memory and starts no result: it takes one stream position, and a transfer goes on at PC + 1. What R154 puts before the
guard, and how it is timed, is as log entry 64 has it. -/
def Obligations.GuardsThatFail : Prop :=
  ∀ i v s, i.view = some v → s.curSlot < s.myCore.threads.length → (∀ sp : Spec, sp.v = v → beforeGuard sp s = .ok ()) →
    guardHolds s.me v.h.dist.toNat v.h.grd = false → (s.traceBlk (fieldOfCore s.curCore)).stall = false →
    ∃ t, exec i s = .next t ∧ Completes (guardSpec v) {} s t

/-! ## Vector instructions -/

/-- The lane-parallel family instructions perform their lane's computation on every lane of A, B and, where they read
it, D, 512 bits a beat, and raise the flags of all lanes, which reach `fflags` at issue by the model's choice (log entry 68). -/
def Obligations.VectorLanes : Prop :=
  (∀ i t useB f, laneOp i = some (t, useB, f) → Always i (vecSpec (eltWidth t) true useB) fun x => laneRes x t f) ∧
  (∀ i t f, laneOp3 i = some (t, f) → Always i (laneSpec3 t) fun x => laneRes x t f)

/-- A lane-parallel instruction none of whose sources meets D's bits (R62): its beats compute what one reading of the sources
gives, each from its own 512 bits. A lane computation over an image: lane j of the result is that of lane j of the sources, and
no other lane's. -/
def Obligations.BeatsAndLanes : Prop :=
  (∀ (l : Loc) (w : Nat) (rd : Nat → Nat × Nat × Nat) (op : Nat → Nat → Nat → Nat → Nat × Nat) (n j img : Nat),
     (∀ img', (∀ k, (∀ lo len, l.range = some (lo, len) → ¬ (lo ≤ k ∧ k < lo + len)) → img'.testBit k = img.testBit k) →
       rd img' = rd img) →
     laneBeats l w rd op n j img = beatsOf w (rd img) op n j) ∧
  (∀ (lw : Nat) (f : Nat → Nat → Nat → Nat × Nat) (n a b d : Nat),
     (laneMap lw f n a b d).1 = lanesFrom lw (fun j => (f (laneAt lw a j) (laneAt lw b j) (laneAt lw d j)).1) n ∧
     (∀ j, j < n → laneAt lw (laneMap lw f n a b d).1 j = (f (laneAt lw a j) (laneAt lw b j) (laneAt lw d j)).1 % 2 ^ lw) ∧
     (laneMap lw f n a b d).2 = (List.range n).foldl (fun m j => m ||| (f (laneAt lw a j) (laneAt lw b j) (laneAt lw d j)).2) 0)

/-- Integer lanes compute the exact value of R205 and R207 under SAT, shifts by a count above the lane width as by that width;
floating-point lanes round the exact sum, product or fused product once (R205, R206), give the smaller or larger of two numbers,
−0 below +0, and the canonical NaN where either is a NaN (R83); VABS and VNEG change a number's sign bit alone, under FTZ too,
which is the model's choice (log entry 12); a compare lane is all ones exactly where its order holds, NaN lanes being unequal
(R208). -/
def Obligations.LaneArithmetic : Prop :=
  ∀ (k : LaneCtl) (a b d : Nat),
    (eltFmt k.t = none →
      laneAdd k a b d = exactLane k (laneVal k a + laneVal k b) ∧ laneSub k a b d = exactLane k (laneVal k a - laneVal k b) ∧
      laneMul k a b d = exactLane k (laneVal k a * laneVal k b) ∧ laneMin k a b d = exactLane k (min (laneVal k a) (laneVal k b)) ∧
      laneMax k a b d = exactLane k (max (laneVal k a) (laneVal k b)) ∧ laneAbs k a b d = exactLane k ((laneVal k a).natAbs : Int) ∧
      laneNeg k a b d = exactLane k (-laneVal k a) ∧
      laneShl k a b d = exactLane k (laneVal k a * 2 ^ min b (eltWidth k.t)) ∧
      (a < 2 ^ eltWidth k.t → laneShr k a b d = (a / 2 ^ b, 0)) ∧
      laneSar k a b d = (truncI (val a (eltWidth k.t) true / 2 ^ min b (eltWidth k.t)) (eltWidth k.t), 0)) ∧
    (∀ f, eltFmt k.t = some f →
      laneAdd k a b d = Fp.encode f k.mode k.ftz (Fp.add k.mode (Fp.decode f k.ftz a) (Fp.decode f k.ftz b)) ∧
      laneSub k a b d = Fp.encode f k.mode k.ftz (Fp.add k.mode (Fp.decode f k.ftz a) (Fp.neg (Fp.decode f k.ftz b))) ∧
      laneMul k a b d = Fp.encode f k.mode k.ftz (Fp.mul (Fp.decode f k.ftz a) (Fp.decode f k.ftz b)) ∧
      laneFma false false k a b d =
        Fp.encode f k.mode k.ftz (Fp.fma k.mode (Fp.decode f k.ftz a) (Fp.decode f k.ftz b) (Fp.decode f k.ftz d)) ∧
      laneFma false true k a b d =
        Fp.encode f k.mode k.ftz (Fp.fma k.mode (Fp.decode f k.ftz a) (Fp.decode f k.ftz b) (Fp.neg (Fp.decode f k.ftz d))) ∧
      laneFma true false k a b d =
        Fp.encode f k.mode k.ftz (Fp.fma k.mode (Fp.neg (Fp.decode f k.ftz a)) (Fp.decode f k.ftz b) (Fp.decode f k.ftz d)) ∧
      laneMin k a b d = Fp.encode f k.mode k.ftz (chosen false (Fp.decode f k.ftz a) (Fp.decode f k.ftz b)) ∧
      laneMax k a b d = Fp.encode f k.mode k.ftz (chosen true (Fp.decode f k.ftz a) (Fp.decode f k.ftz b)) ∧
      laneAbs k a b d = signed f (fun _ => false) a ∧ laneNeg k a b d = signed f (fun n => !n) a) ∧
    (∀ r, laneCmp r k a b d = (if compareHolds r k a b then 2 ^ eltWidth k.t - 1 else 0, compareFlags r k a b))

/-- Rounding to the grid of R87 goes to an integer less than one away, towards zero, up or down by the sign, or to the nearest
with ties to even. Every code of F8, F16, BF16 and F32 that is no NaN is the encoding of its value, exactly and in every mode
(R82, R84). -/
def Obligations.NumberCodes : Prop :=
  (∀ (mode : Mode) (neg : Bool) (m d : Nat), let r := Fp.roundMag mode neg m (-(d : Int))
     m < (r + 1) * 2 ^ d ∧ r * 2 ^ d < m + 2 ^ d ∧
     (mode = .rtz ∨ mode = .rup ∧ neg = true ∨ mode = .rdn ∧ neg = false → r * 2 ^ d ≤ m) ∧
     (mode = .rup ∧ neg = false ∨ mode = .rdn ∧ neg = true → m ≤ r * 2 ^ d) ∧
     (mode = .rne → 2 * m ≤ (2 * r + 1) * 2 ^ d ∧ 2 * r * 2 ^ d ≤ 2 * m + 2 ^ d ∧
       (2 * m = (2 * r + 1) * 2 ^ d ∨ 2 * r * 2 ^ d = 2 * m + 2 ^ d → r % 2 = 0))) ∧
  (∀ (f : Fmt) (mode : Mode) (a : Nat), f ∈ [Fp.f8, Fp.f16, Fp.bf16, Fp.f32] → a < 2 ^ Fp.width f →
     Fp.isNaN (Fp.decode f false a) = false → Fp.encode f mode false (Fp.decode f false a) = (a, 0))

/-- VSHUF picks lanes of A by B, VBCAST repeats lane 0, VSLIDE moves lanes by B's signed count with zeros shifted in, and
VCVT converts lane by lane between the types of Table 11.9, with flags that reach `fflags` at issue by the model's choice (log
entry 68). -/
def Obligations.LaneMovesAndConversions : Prop :=
  (∀ h t d a b, Always (.vshuf h t d a b) (vecSpec (eltWidth t) false true) fun x =>
    { writes := writeLoc x.ld x.w (lanesFrom (eltWidth t) (fun j =>
        if laneAt (eltWidth t) (lanesB x (eltWidth t)) j < x.w / eltWidth t
        then laneAt (eltWidth t) (lanesA x (eltWidth t)) (laneAt (eltWidth t) (lanesB x (eltWidth t)) j) else 0) (x.w / eltWidth t)) }) ∧
  (∀ h t d a, Always (.vbcast h t d a) (vecSpec (eltWidth t) false false) fun x =>
    { writes := writeLoc x.ld x.w (lanesFrom (eltWidth t) (fun _ => laneAt (eltWidth t) (lanesA x (eltWidth t)) 0) (x.w / eltWidth t)) }) ∧
  (∀ h t d a b, Always (.vslide h t d a b) (slideSpec t) fun x =>
    { writes := writeLoc x.ld x.w (lanesFrom (eltWidth t) (fun (j : Nat) =>
        if 0 ≤ (j : Int) + val (x.b 32 false) 32 true ∧ (j : Int) + val (x.b 32 false) 32 true < (x.w / eltWidth t : Nat)
        then laneAt (eltWidth t) (lanesA x (eltWidth t)) ((j : Int) + val (x.b 32 false) 32 true).toNat else 0) (x.w / eltWidth t)) }) ∧
  (∀ h t d a imm, Always (.vcvt h t d a imm) (cvtSpec (cvtSource (imm.toNat % 16)) (cvtDest t h.x (imm.getLsbD 4))) fun x =>
    let src := cvtSource (imm.toNat % 16)
    let dst := cvtDest t h.x (imm.getLsbD 4)
    { writes := writeLoc x.ld x.w (lanesFrom dst.width (fun j => (cvtLane x src dst j).1) (x.w / dst.width)),
      flags := (List.range (x.w / dst.width)).foldl (fun m j => m ||| (cvtLane x src dst j).2) 0 })

/-- VHSUM, VHMAX and VHMIN combine A's lanes in the tree of R101, lanes 2j and 2j + 1 first, and write D's lane 0, with zeros
above it. FDIV and FSQRT are class T: outside a repetition their lanes come 18 or 22 cycles, and one more for each further beat,
after issue (R180, R216); in one, each beat computes its lanes and the last one starts the result, which is the model's choice
(R200, R203; log entry 31). The flags of the reductions reach `fflags` at issue (log entry 68). -/
def Obligations.HorizontalAndSlow : Prop :=
  (∀ i t f, foldOp i = some (t, f) → Always i (foldSpec t) fun x =>
    let r := reduceTree (fun a b => f (x.ctl t) a b 0) 12 (lanes (readLanes x.s x.c x.t x.img x.pa x.la (foldWidth x.v) (eltWidth t))
      (eltWidth t) (foldWidth x.v / eltWidth t))
    { writes := writeLoc x.ld x.w r.1, flags := r.2 }) ∧
  (∀ (op : Nat → Nat → Nat × Nat) (l : List Nat) (k : Nat), k ≤ 12 → l.length = 2 ^ k → reduceTree op 12 l = treeNode op l k 0) ∧
  (∀ i t useB base g, slowOp i = some (t, useB, base, g) →
    Does i (vecSpec (eltWidth t) true useB) (fun x => x.th.inRep = false) (fun x => slowRes x t base g) ∧
    Always i (vecSpec (eltWidth t) true useB) fun x => slowBeats x t base g)

/-- A lane compare at the larger of A's and B's widths: a slice D receives the mask of its lanes, a flag D whether any lane
holds (R208); that a repetition's beats keep and gather the flag is the model's choice (log entry 31), as is that flags reach
`fflags` at issue (log entry 68). FLUT interpolates each F32 lane in the function table imm15 names, and LUTLD writes
consecutive entries of a table from A (R217, R218). -/
def Obligations.TablesAndLaneCompares : Prop :=
  (∀ i t r, laneCompare i = some (t, r) →
     (∀ k, Does i (vcmpSpec t) (fun x => x.ld = .flag k ∧ x.th.inRep = false) fun x =>
       let src := x.lanesOf (vcmpWidth x.v) (eltWidth t) x.img
       let m := laneMap (eltWidth t) (laneCmp r (x.ctl t)) (vcmpWidth x.v / eltWidth t) src.1 src.2.1 src.2.2
       { writes := [.win k 1 (if m.1 = 0 then 0 else 1)], flags := m.2 }) ∧
     (∀ k, Does i (vcmpSpec t) (fun x => x.ld = .flag k) fun x =>
       let m := x.beatsOf (vcmpWidth x.v) (eltWidth t) (laneCmp r (x.ctl t)) (x.lanesOf (vcmpWidth x.v) (eltWidth t) x.img)
       if x.last then { writes := [.win k 1 ((x.acc ||| if m.1 = 0 then 0 else 1) % 2)], flags := m.2 }
       else { flags := m.2, acc := x.acc ||| if m.1 = 0 then 0 else 1 }) ∧
     Does i (vcmpSpec t) (fun x => ∀ k, x.ld ≠ .flag k) fun x =>
       x.lanewise (vcmpWidth x.v) (x.lanesOf (vcmpWidth x.v) (eltWidth t)) fun n a b d =>
         laneMap (eltWidth t) (laneCmp r (x.ctl t)) (n / eltWidth t) a b d) ∧
  ((∀ h t d a imm, Always (.flut h t d a imm) (vecSpec (eltWidth t) true false) fun x =>
     x.lanewise x.w (x.lanesOf x.w 32) fun n a b d => laneMap 32 (fun y _ _ => lutLane (ftEntry x imm) x.th.ftz y) (n / 32) a b d) ∧
   (∀ h t a imm, Always (.lutld h t a imm) (lutldSpec imm a) fun x =>
     { post := fun s => s.modMyCore fun k => { k with ft := (List.range (sliceWidth (some a) / 64)).foldl (fun ft m =>
         Tbl.set ft (256 * (imm.toNat % 4) + imm.toNat / 4 % 256 + m)
           (BitVec.ofNat 64 (laneAt 64 (x.a (64 * (sliceWidth (some a) / 64)) true) m))) k.ft } }))

/-! ## Block instructions -/

/-- The block group computes on the exact elements of its blocks: BPACK, BUNPK, BALIGN, BSCALE, BNORM, BADD, BADDQ,
BERR, BMAC and BHSUM pack or fit their exact results once, BMAXE, BCMPZ and BHDR read them, with the flags of R94 to R98, which
reach `fflags` at issue (log entry 68). BHDR without X delivers a header's reserved bits as they are stored (log entry 83). -/
def Obligations.BlockGroup : Prop :=
  (∀ h d a b, Always (.bpack h d a b) bpackSpec fun x =>
    { writes := writeLoc x.ld (blockD x.v) (packOf x).1.img ++ packRecord x, flags := (packOf x).1.flags ||| packNv x }) ∧
  (∀ h d a, Always (.bunpk h d a) bunpkSpec fun x =>
    let r (v : EVal) := Fp.encode Fp.f32 x.mode x.th.ftz (Blk.toFVal v)
    { writes := writeLoc x.ld 1024 (joinLanes 32 ((elemsIn x 1024).vs.map fun v => (r v).1)),
      flags := ((elemsIn x 1024).vs.map fun v => (r v).2).foldl (· ||| ·) (Blk.malfFlag (elemsIn x 1024)) }) ∧
  (∀ h d a b, Does (.balign h d a b) blockShiftSpec (fun x => fmtAt x.v.a x.w = .bxa ∨ x.b 16 true ≤ 255) fun x =>
    packedRes x (Blk.width (fmtAt x.v.a x.w)) (Blk.balign (fmtAt x.v.a x.w) x.mode (x.a (Blk.width (fmtAt x.v.a x.w)) true) (alignTo x))) ∧
  (∀ h d a b, Stops (.balign h d a b) blockShiftSpec (fun x => ¬ (fmtAt x.v.a x.w = .bxa ∨ x.b 16 true ≤ 255)) fun x =>
    .trap Cause.illegalOperand (x.b 16 true)) ∧
  (∀ h d a b, Always (.bscale h d a b) blockShiftSpec fun x => packedRes x (Blk.width (fmtAt x.v.a x.w))
    (Blk.bscale (fmtAt x.v.a x.w) x.mode (x.a (Blk.width (fmtAt x.v.a x.w)) true) (val (x.b 16 false) 16 true))) ∧
  (∀ h d a, Always (.bnorm h d a) sameSpec fun x => packedRes x (Blk.width (fmtAt x.v.a x.w))
    (Blk.bnorm (fmtAt x.v.a x.w) x.mode (x.a (Blk.width (fmtAt x.v.a x.w)) true))) ∧
  (∀ h d a b, Always (.badd h d a b) baddSpec fun x => let w := blockD x.v
    packedRes x w (Blk.badd (dFmt w) x.mode false (fmtAt x.v.a w) (x.a (blockWidth x.v.a w) true) (fmtAt x.v.b w)
      (x.b (blockWidth x.v.b w) true))) ∧
  (∀ h d a b, Always (.baddq h d a b) baddqSpec fun x => let w := blockD x.v
    packedRes x w (Blk.baddq (dFmt w) x.mode (x.a w true) (x.b w true))) ∧
  (∀ h d a b, Always (.berr h d a b) berrSpec fun x =>
    packedRes x 2048 (Blk.badd .bxa .rne true .bxa (x.a 2048 true) (fmtAt x.v.b 2048) (x.b (blockWidth x.v.b 2048) true))) ∧
  (∀ h d a b, Always (.bmac h d a b) bmacSpec fun x =>
    packedRes x 2048 (Blk.bmac (x.d 2048 true) (fmtAt x.v.a 2048) (x.a (blockWidth x.v.a 2048) true) (fmtAt x.v.b 2048)
      (x.b (blockWidth x.v.b 2048) true))) ∧
  (∀ h d a, Always (.bhsum h d a) bhsumSpec fun x =>
    let w := hsumWidth x.v
    let e := elemsIn x w
    if w = 2048 then
      let p := Blk.bxaFit (Blk.sumE e.vs :: List.replicate 31 (.num 0 0))
        (Blk.entryExp (fmtAt x.v.a w) (x.a (blockWidth x.v.a w) true)) e.fl
      { writes := writeLoc x.ld w p.img, flags := p.flags ||| Blk.malfFlag e }
    else
      let r := Fp.encode Fp.f32 x.mode x.th.ftz (Blk.toFVal (Blk.sumE e.vs))
      { writes := writeLoc x.ld 32 r.1, flags := r.2 ||| Blk.malfFlag e }) ∧
  (∀ h d a, Always (.bmaxe h d a) bmaxeSpec fun x =>
    { writes := writeLoc x.ld x.w (truncI (Blk.bmaxe (elemsIn x x.w).vs) x.w), flags := Blk.malfFlag (elemsIn x x.w) }) ∧
  (∀ h d a, Always (.bcmpz h d a) bcmpzSpec fun x =>
    let m := Blk.bcmpz (elemsIn x x.w).vs x.x
    { writes := writeLoc x.ld x.w (if isFlag x.v.d then (if m = 0 then 0 else 1) else m), flags := Blk.malfFlag (elemsIn x x.w) }) ∧
  (∀ h d a, Always (.bhdr h d a) bhdrSpec fun x =>
    let w := bhdrD x.v
    { writes := writeLoc x.ld w (if x.x then Blk.withHeader (dFmt w) (x.d w true) (x.a (bhdrH x.v) true)
        else Blk.header (fmtAt x.v.a w) (x.a (bhdrA x.v) true) % 2 ^ w) })

/-- Block images hold what they say (R91 to R94, R234): a BXA block of 32 mantissas decodes to their exact values and its flag
byte, and bit i of BCMPZ's mask is whether element i is zero, or NaN under X. Elements add, multiply and sum exactly (R228,
R232). The BXA fit takes the least exponent from e0 on at which no mantissa overflows, rounds once, and raises OVF and REN
(R98). BX8 and BX16 pack at the least exponent that R95 allows, with the largest sub-shift of each quad, and clamp; a BX4 pair
keeps its codes, gives its larger outlier an F8 code while fewer than four have one, or saturates (R95). BPACK, BALIGN, BADD,
BADDQ, BERR, BMAC, BSCALE, BNORM and BMAXE fit or pack these values once, at the exponents of R225 to R233. That an outlier
clamped to 448 does not count in MASK is the model's choice (log entry 69). -/
def Obligations.BlocksDecode : Prop :=
  (∀ (ms : List Int) (E : Int) (fl : Nat), ms.length = 32 → (∀ m ∈ ms, m.natAbs < 2 ^ 47) → -2 ^ 15 ≤ E → E < 2 ^ 15 → fl < 32 →
    Blk.dec .bxa (Blk.bxaBlock ms E fl) = ⟨ms.map fun m => .num m (E - 173), fl, false⟩) ∧
  (∀ (vs : List EVal) (nan : Bool) (i : Nat), (Blk.bcmpz vs nan).testBit i =
    match vs[i]? with
    | some (.num m _) => !nan && m == 0
    | some .nan => nan
    | _ => false) ∧
  ((∀ (x y : EVal) (lo lo' a b : Int), inUnits lo x = some a →
      (inUnits lo y = some b → inUnits lo (Blk.addE x y) = some (a + b)) ∧
      (inUnits lo' y = some b → inUnits (lo + lo') (Blk.mulE x y) = some (a * b))) ∧
   (∀ (vs : List EVal) (lo : Int) (as : List Int), lo ≤ 0 → vs.map (inUnits lo) = as.map some → inUnits lo (Blk.sumE vs) = some as.sum) ∧
   (∀ x, Blk.addE x .nan = .nan ∧ Blk.addE .nan x = .nan ∧ Blk.mulE x .nan = .nan ∧ Blk.mulE .nan x = .nan)) ∧
  (∀ (vs : List EVal) (e0 : Int) (fl : Nat), ∃ E, LeastExp (overMant .rne) e0 32767 vs E ∧
    (Blk.bxaFit vs e0 fl).img = Blk.bxaBlock (vs.map (mantissa .rne E)) E (fl ||| (if vs.any notFinite then FL.nan else 0) |||
      (if vs.any (saturates (overMant .rne E)) then FL.ovf else 0) ||| (if vs.any (inexactAt .rne E) then FL.ren else 0)) ∧
    (Blk.bxaFit vs e0 fl).flags = (if vs.any (saturates (overMant .rne E)) then Flag.ovf else 0) |||
      (if vs.any (inexactAt .rne E) then Flag.ren else 0)) ∧
  ((∀ (f : BFmt) (mode : Mode) (fl : Nat) (E : Int) (flat : Bool) (vs : List EVal), f = .bx8 ∨ f = .bx16 → vs.length = 32 → 0 ≤ E → E ≤ 255 →
      let p := Blk.packAt f mode fl E flat vs
      let sh (q : Nat) := if flat then 0 else quadSh f mode E vs q
      Blk.expOf f p.img = E ∧ (∀ q, q < 8 → Blk.shOf f p.img q = sh q) ∧
      (∀ i v, vs[i]? = some v → p.img / 2 ^ (Blk.codeW f * i) % 2 ^ Blk.codeW f = truncI (gridCode f mode E (sh (i / 4)) v) (Blk.codeW f) ∧
        p.mask.testBit i = saturates (overGrid f mode E (sh (i / 4))) v) ∧
      Blk.flOf f p.img = fl % 32 ||| (if vs.any notFinite then FL.nan else 0) ||| (if p.mask = 0 then 0 else FL.ovf) ∧
      p.flags = (if p.mask = 0 then 0 else Flag.ovf) |||
        (if (List.range 32).any (fun i => Blk.lost (vs.getD i .nan) ((Blk.dec f p.img).vs.getD i .nan)) then Flag.nx else 0)) ∧
   (∀ (f : BFmt) (mode : Mode) (fl : Nat) (vs : List EVal), f = .bx8 ∨ f = .bx16 →
      ∃ E, LeastExp (fun E => overGrid f mode E 0) (startExp vs) 255 vs E ∧ Blk.pack f mode fl vs = Blk.packAt f mode fl E false vs) ∧
   (∀ mode fl vs, Blk.pack .bx4 mode fl vs = Blk.packAt .bx4 mode fl (startExp vs) false vs)) ∧
  (∀ (mode : Mode) (E : Int) (p : Nat) (x y : EVal) (cx cy : Blk.Code) (st : Blk.OutState),
    let fit := Blk.elemFits .bx4 mode E 0
    (fit x = true → fit y = true → Blk.outlierPair mode E p x y cx cy st = (cx, cy, st)) ∧
    (∀ m e, x = .num m e → fit x = false → fit y = true → st.k < 4 →
      let f := Fp.encode Fp.f8 mode false (.fin (decide (m < 0)) m.natAbs (e + 127 - E))
      Blk.outlierPair mode E p x y cx cy st = (⟨8, cx.fl, false⟩, ⟨(f.1 % 16 : Nat), cy.fl, false⟩, outlierTaken st p f.1 false f.2)) ∧
    (∀ m e, y = .num m e → fit x = true → fit y = false → st.k < 4 →
      let f := Fp.encode Fp.f8 mode false (.fin (decide (m < 0)) m.natAbs (e + 127 - E))
      Blk.outlierPair mode E p x y cx cy st = (⟨(f.1 % 16 : Nat), cx.fl, false⟩, ⟨8, cy.fl, false⟩, outlierTaken st p f.1 true f.2)) ∧
    (∀ m e m' e' lo a b, x = .num m e → y = .num m' e' → fit x = false → fit y = false → st.k < 4 → inUnits lo x = some a → inUnits lo y = some b →
      let f := Fp.encode Fp.f8 mode false (.fin (decide (m < 0)) m.natAbs (e + 127 - E))
      let g := Fp.encode Fp.f8 mode false (.fin (decide (m' < 0)) m'.natAbs (e' + 127 - E))
      Blk.outlierPair mode E p x y cx cy st = if a.natAbs < b.natAbs
        then (⟨(g.1 % 16 : Nat), cx.fl ||| FL.ovf, true⟩, ⟨8, cy.fl, false⟩, outlierTaken st p g.1 true g.2)
        else (⟨8, cx.fl, false⟩, ⟨(f.1 % 16 : Nat), cy.fl ||| FL.ovf, true⟩, outlierTaken st p f.1 false f.2)) ∧
    (∀ m e m' e', x = .num m e → y = .num m' e' → fit x = false → fit y = false → 4 ≤ st.k →
      Blk.outlierPair mode E p x y cx cy st =
        (⟨if m < 0 then -7 else 7, cx.fl ||| FL.ovf, true⟩, ⟨if m' < 0 then -7 else 7, cy.fl ||| FL.ovf, true⟩, st))) ∧
  ((∀ fd mode sub fa a fb b,
      let x := Blk.dec fa a
      let y := Blk.dec fb b
      let vs := List.zipWith Blk.addE x.vs (if sub then y.vs.map Blk.negE else y.vs)
      let p := if fd = .bxa then Blk.bxaFit vs (min (Blk.entryExp fa a) (Blk.entryExp fb b)) (x.fl ||| y.fl) else Blk.pack fd mode (x.fl ||| y.fl) vs
      Blk.badd fd mode sub fa a fb b = ⟨p.img, p.flags ||| (if x.malf ∨ y.malf then Flag.malf else 0), p.mask⟩) ∧
   (∀ d fa a fb b,
      let x := Blk.dec fa a
      let y := Blk.dec fb b
      let p := Blk.bxaFit (List.zipWith Blk.addE (Blk.dec .bxa d).vs (List.zipWith Blk.mulE x.vs y.vs))
        (min (Blk.expOf .bxa d) (Blk.logUnit fa a + Blk.logUnit fb b + 173)) ((Blk.dec .bxa d).fl ||| x.fl ||| y.fl)
      Blk.bmac d fa a fb b = ⟨p.img, p.flags ||| (if x.malf ∨ y.malf then Flag.malf else 0), p.mask⟩) ∧
   (∀ f mode a b, f ≠ .bxa →
      let x := Blk.dec f a
      let y := Blk.dec f b
      let vs := List.zipWith Blk.addE x.vs y.vs
      ∃ E, (if f = .bx4 then E = max (Blk.expOf f a) (Blk.expOf f b)
          else LeastExp (fun E => overGrid f mode E 0) (max (Blk.expOf f a) (Blk.expOf f b)) 255 vs E) ∧
        let p := Blk.packAt f mode (x.fl ||| y.fl) E true vs
        Blk.baddq f mode a b = ⟨p.img, p.flags ||| (if x.malf ∨ y.malf then Flag.malf else 0), p.mask⟩)) ∧
  ((∀ (f : BFmt) (mode : Mode) (x : Elems) (e0 : Int),
      let p := if f = .bxa then Blk.bxaFit x.vs e0 x.fl else Blk.pack f mode x.fl x.vs
      Blk.bpack f mode x e0 = (⟨p.img, p.flags ||| (if x.malf then Flag.malf else 0), p.mask⟩, x.vs.any fun v => v == .inf false || v == .inf true)) ∧
   (∀ mode img et, let x := Blk.dec .bxa img
      (Blk.balign .bxa mode img et).img = Blk.bxaBlock (x.vs.map (mantissa mode et)) et (x.fl ||| (if x.vs.any notFinite then FL.nan else 0) |||
        (if x.vs.any (overMant mode et) then FL.ovf else 0) ||| (if x.vs.any (inexactAt mode et) then FL.ren else 0)) ∧
      (Blk.balign .bxa mode img et).flags = (if x.vs.any (overMant mode et) then Flag.ovf else 0) |||
        (if x.vs.any (inexactAt mode et) then Flag.ren else 0)) ∧
   (∀ f mode img et, f ≠ .bxa → let p := Blk.packAt f mode (Blk.dec f img).fl et true (Blk.dec f img).vs
      Blk.balign f mode img et = ⟨p.img, p.flags ||| (if (Blk.dec f img).malf then Flag.malf else 0), p.mask⟩) ∧
   (∀ (f : BFmt) mode img (k : Int), let lo : Int := if f = .bxa then -2 ^ 15 else 0
      let hi : Int := if f = .bxa then 2 ^ 15 - 1 else 255
      let vs := (Blk.dec f img).vs.map (shiftedBy k)
      (lo ≤ Blk.expOf f img + k ∧ Blk.expOf f img + k ≤ hi →
        Blk.expOf f (Blk.bscale f mode img k).img = Blk.expOf f img + k ∧ (Blk.bscale f mode img k).flags = 0 ∧
        (∀ i, i < 32 * Blk.codeW f → (Blk.bscale f mode img k).img.testBit i = img.testBit i) ∧
        Blk.flOf f (Blk.bscale f mode img k).img = Blk.flOf f img ∧
        (f ≠ .bxa → ∀ q, q < 8 → Blk.shOf f (Blk.bscale f mode img k).img q = Blk.shOf f img q) ∧
        (f = .bx4 → Blk.header f (Blk.bscale f mode img k).img / 2 ^ 32 = Blk.header f img / 2 ^ 32)) ∧
      (¬ (lo ≤ Blk.expOf f img + k ∧ Blk.expOf f img + k ≤ hi) →
        let p := if f = .bxa then Blk.bxaFit vs (if hi < Blk.expOf f img + k then hi else lo) (Blk.dec f img).fl else Blk.pack f mode (Blk.dec f img).fl vs
        Blk.bscale f mode img k = ⟨p.img, p.flags ||| (if (Blk.dec f img).malf then Flag.malf else 0), p.mask⟩)) ∧
   (∀ f mode img, f ≠ .bxa → let p := Blk.pack f mode (Blk.dec f img).fl (Blk.dec f img).vs
      Blk.bnorm f mode img = ⟨p.img, p.flags ||| (if (Blk.dec f img).malf then Flag.malf else 0), p.mask⟩) ∧
   (∀ mode img, ∃ z : Nat, (z : Int) ≤ Blk.expOf .bxa img + 2 ^ 15 ∧
      (Blk.bnorm .bxa mode img).img = Blk.bxaBlock ((Blk.dec .bxa img).vs.map fun v => match v with
        | .num m _ => m * 2 ^ z
        | _ => -2 ^ 47) (Blk.expOf .bxa img - z) (Blk.flOf .bxa img) ∧
      (∀ m e, EVal.num m e ∈ (Blk.dec .bxa img).vs → (m * 2 ^ z).natAbs < 2 ^ 47) ∧
      ((z : Int) < Blk.expOf .bxa img + 2 ^ 15 → (∃ m e, EVal.num m e ∈ (Blk.dec .bxa img).vs ∧ m ≠ 0) →
        ∃ m e, EVal.num m e ∈ (Blk.dec .bxa img).vs ∧ 2 ^ 47 ≤ (m * 2 ^ (z + 1)).natAbs)) ∧
   (∀ vs : List EVal, (∀ m e, EVal.num m e ∈ vs → m = 0) → Blk.bmaxe vs = -2 ^ 15) ∧
   (∀ (vs : List EVal) m e, EVal.num m e ∈ vs → m ≠ 0 → (Nat.log2 m.natAbs : Int) + e + 127 ≤ Blk.bmaxe vs ∧
      ∃ m' e', EVal.num m' e' ∈ vs ∧ m' ≠ 0 ∧ Blk.bmaxe vs = (Nat.log2 m'.natAbs : Int) + e' + 127))

/-! ## Ports -/

/-- PUSH sends A, POP and PEEK take the head group of a queue and PEEK leaves it, PDRAIN empties a queue of its complete
groups, PCNT writes their counts and the head's width, and PCFG changes DIS and DROPPED and writes the old word. -/
def Obligations.PortInstructions : Prop :=
  (∀ h d a, Always (.push h d a) pushSpec fun x =>
    { writes := writeLoc x.ld (ownWidth x.v.a 32) (x.a (ownWidth x.v.a 32) true) }) ∧
  (∀ h d a, Always (.pop h d a) (popSpec false) fun x => { writes := writeLoc x.ld x.w (x.a x.w true) }) ∧
  (∀ h d a, Always (.peek h d a) (popSpec true) fun x => { writes := writeLoc x.ld x.w (x.a x.w true) }) ∧
  (∀ h d a, Always (.pdrain h d a) (queueSpec sliceOrZero) fun x =>
    { writes := writeLoc x.ld x.w (fullGroups (queueOf x)),
      post := Nat.repeat (popHead x.c x.t x.queueA) (fullGroups (queueOf x)) }) ∧
  (∀ h d a, Always (.pcnt h d a) (queueSpec isSlice) fun x =>
    { writes := writeLoc x.ld x.w (fullEntries (queueOf x) + fullGroups (queueOf x) * 2 ^ 4 + headWidth (queueOf x) * 2 ^ 8) }) ∧
  (∀ h d a imm, Always (.pcfg h d a imm) pcfgSpec fun x =>
    { writes := writeLoc x.ld x.w x.th.portcfg.toNat,
      pre := fun th => { th with portcfg := pcfgAfter x (x.immNat % 4) (x.a 16 true % 2 ^ 10) } })

/-- A push whose target has room (R70, R74) enters that one queue at its tail, complete after the port's latency and not before
the groups ahead of it. A pop takes the head group of one queue (R70, R71): the groups behind it move up, and its room is on its
way back to the producer. Every other queue stays. -/
def Obligations.PushAndPop : Prop :=
  (∀ (s : State) (c t q w v d u r : Nat),
     portTarget c t q = some (d, u, r) → slotLive s d u = true → (s.occ d).launch = (s.occ c).launch → (s.core d).stopped = false →
     usedEntries ((s.thread d u).queue r) + (s.thread c t).reserved q + (w + 255) / 256 ≤ 8 →
     u < (s.core d).threads.length → r < (s.thread d u).qin.length →
     let s' := doPush c t q w v s
     ∃ g : Group, g.width = w ∧ g.value = v % 2 ^ w ∧ g.complete = false ∧
       s.now + (if fieldOfCore c = fieldOfCore d then 1 else 3) + (w + 255) / 256 - 1 ≤ g.due ∧
       (∀ o ∈ ((s.thread d u).queue r).groups, o.due ≤ g.due) ∧
       ((s'.thread d u).queue r).groups = ((s.thread d u).queue r).groups ++ [g] ∧
       (g.due, Instr.portGroupComplete d u r) ∈ s'.timers ∧
       (∀ c' t' q', ¬ (c' = d ∧ t' = u ∧ q' = r) → (s'.thread c' t').queue q' = (s.thread c' t').queue q') ∧
       s'.mem = s.mem) ∧
  (∀ (s : State) (c t q : Nat) (g : Group) (gs : List Group),
     ((s.thread c t).queue q).groups = g :: gs → t < (s.core c).threads.length → q < (s.thread c t).qin.length →
     let s' := popHead c t q s
     ((s'.thread c t).queue q).groups = gs ∧
     (∃ due, s.now + (g.width + 255) / 256 ≤ due ∧
       ((s'.thread c t).queue q).returning = ((s.thread c t).queue q).returning ++ [((g.width + 255) / 256, due)] ∧
       (due, Instr.portRoomReturn c t q) ∈ s'.timers) ∧
     (∀ c' t' q', ¬ (c' = c ∧ t' = t ∧ q' = q) → (s'.thread c' t').queue q' = (s.thread c' t').queue q') ∧ s'.mem = s.mem)

/-- PORT_GROUP_COMPLETE completes the groups of a queue whose time has come, PORT_ROOM_RETURN gives back the room whose
time has come, and PORT_PUSH_RETEST makes a thread that waits with reason 3 try again (R70, R74); each touches that one
slot alone. -/
def Obligations.PortEvents : Prop :=
  ∀ (s : State) (c t q : Nat), t < (s.core c).threads.length → q < (s.thread c t).qin.length →
    (∃ u, exec (.portGroupComplete c t q) s = .next u ∧
      (u.thread c t).queue q = { (s.thread c t).queue q with
        groups := ((s.thread c t).queue q).groups.map fun g => { g with complete := g.complete || decide (g.due ≤ s.now) } } ∧
      (∀ q', q' ≠ q → (u.thread c t).queue q' = (s.thread c t).queue q') ∧
      (∀ c' t', ¬ (c' = c ∧ t' = t) → u.thread c' t' = s.thread c' t') ∧ u.mem = s.mem) ∧
    (∃ u, exec (.portRoomReturn c t q) s = .next u ∧
      (u.thread c t).queue q = { (s.thread c t).queue q with
        returning := ((s.thread c t).queue q).returning.filter fun p => decide (s.now < p.2) } ∧
      (∀ q', q' ≠ q → (u.thread c t).queue q' = (s.thread c t).queue q') ∧
      (∀ c' t', ¬ (c' = c ∧ t' = t) → u.thread c' t' = s.thread c' t') ∧ u.mem = s.mem) ∧
    (∀ w, (s.thread c t).wait = some w → w.reason = 3 → ∃ u, exec (.portPushRetest c t) s = .next u ∧
      u.thread c t = { s.thread c t with tried := false } ∧
      (∀ c' t', ¬ (c' = c ∧ t' = t) → u.thread c' t' = s.thread c' t') ∧ u.mem = s.mem)

/-! ## Results on their way -/

/-- A class T result that waits for nothing lands (R158, R161): its covered bits take its value over whatever stands there, its
flags are raised, a thread that it held runs on, and it is no longer on its way. To a port destination it is pushed where the
target has room; otherwise it waits and is tested again, and beyond the launch its push faults, which is the model's choice (log
entry 54). A drowsy window that it reaches first wakes, and the result lands 20 cycles later (R65). -/
def Obligations.ResultsLand : Prop :=
  ∀ (s : State) (c t id : Nat) (l : Landing), t < (s.core c).threads.length → (s.thread c t).landing? id = some l →
    let meetsWindow := ∃ a b, l.dest = .slices a b ∨ l.dest = .flag a
    ((s.thread c t).drowsy = true → meetsWindow → l.missing = 0 → l.landed = false → (∀ k a b, l.kind ≠ .tinv k a b) →
      ∃ u, exec (.resultLanding c t id) s = .next u ∧
      u.thread c t = { s.thread c t with drowsy := false } ∧ (s.now + 20, Instr.resultLanding c t id) ∈ u.timers) ∧
    ((s.thread c t).drowsy = false ∨ ¬ meetsWindow → l.missing = 0 → l.landed = false → (∀ k a b, l.kind ≠ .tinv k a b) →
      ∃ v, exec (.resultLanding c t id) s = .next (match l.dest with | .port q w => landPush c t q w l v s | _ => v) ∧
        (∀ q w, l.dest = .port q w → (s.core c).stopped = false →
          (∀ d u r, pushTest v c t q w 0 = .room d u r → landPush c t q w l v s = enterGroup c t d u r w l.value v) ∧
          (pushTest v c t q w 0 = .discard → landPush c t q w l v s = v.modThread c t (·.dropped q)) ∧
          (pushTest v c t q w 0 = .edge →
            landPush c t q w l v s = raiseDeferred (s.agent c t) ⟨l.id, Cause.portEdge, q, l.tag, l.pc, l.id⟩ s) ∧
          (pushTest v c t q w 0 = .full ∨ pushTest v c t q w 0 = .later → landPush c t q w l v s = s.after 1 (.resultLanding c t id))) ∧
        (v.thread c t).allWritten = ((s.thread c t).allWritten &&& ~~~l.cover) ||| (l.image &&& l.cover) ∧
        (v.thread c t).fflags = (s.thread c t).fflags ||| BitVec.ofNat 64 l.flags ∧
        (v.thread c t).onWay = (s.thread c t).onWay.filter (fun m => m.id ≠ id) ∧
        ((s.thread c t).held = some id → (v.thread c t).held = none) ∧
        (v.thread c t).pc = (s.thread c t).pc ∧ (v.thread c t).loops = (s.thread c t).loops ∧
        (∀ c' t', ¬ (c' = c ∧ t' = t) → v.thread c' t' = s.thread c' t') ∧ v.mem = s.mem ∧ v.beside = s.beside)

/-! ## Causes and returns -/

/-- Trap entry (R322, R323): a cause that temask enables goes to U from normal class at U with a handler (but SYSCALL and
WATCHDOG), else to S with a handler. The level's cause, tval, epc and estat registers are written, level and class change,
the loop state goes to its bank and a fresh one starts, PC is the vector, and eight positions pass. The other level's
registers, the window and, where the entry is not traced, everything beside the slot stay. -/
def Obligations.TrapEntrySaves : Prop :=
  ∀ (s : State) (c t : Nat) (r : Raised), t < (s.core c).threads.length →
    let th := s.thread c t
    let u := (takeCause c t r s).thread c t
    let goesU := th.cls = .normal ∧ th.level = 0 ∧ th.masked r.cause = true ∧ th.tvec.toNat % 2 ^ 32 ≠ 0xFFFFFFFF ∧ r.cause ≠ 0x19 ∧ r.cause ≠ 0x52
    let word := BitVec.ofNat 64 (r.fpc.toNat * 2 ^ 32 + (if r.async then 2 ^ 23 else 0) + (if r.defer then 2 ^ 22 else 0) +
      r.tag % 8 * 2 ^ 19 + th.level * 2 ^ 10 + th.cls.code * 2 ^ 8)
    (goesU →
      u.cause = BitVec.ofNat 64 r.cause ∧ u.tval = BitVec.ofNat 64 r.tval ∧ u.epc = r.resume.setWidth 64 ∧ u.estat = word ∧
      u.level = 0 ∧ u.cls = .trap ∧ u.pc = th.tvec.setWidth 32 ∧ u.loops = .empty ∧ u.bankN = th.loops ∧ u.pos = th.pos + 8 ∧
      u.scause = th.scause ∧ u.stval = th.stval ∧ u.sepc = th.sepc ∧ u.sestat = th.sestat) ∧
    (¬ goesU → ¬ (th.cls = .trap ∧ th.level = 1) → th.stvec.toNat % 2 ^ 32 ≠ 0xFFFFFFFF →
      u.scause = BitVec.ofNat 64 r.cause ∧ u.stval = BitVec.ofNat 64 r.tval ∧ u.sepc = r.resume.setWidth 64 ∧ u.sestat = word ∧
      u.level = 1 ∧ u.cls = .trap ∧ u.pc = th.stvec.setWidth 32 ∧ u.loops = .empty ∧ u.pos = th.pos + 8 ∧
      u.bankN = (if th.cls = .trap then th.bankN else th.loops) ∧ u.bankU = (if th.cls = .trap ∧ th.level = 0 then th.loops else th.bankU) ∧
      u.cause = th.cause ∧ u.tval = th.tval ∧ u.epc = th.epc ∧ u.estat = th.estat) ∧
    (goesU ∨ (¬ (th.cls = .trap ∧ th.level = 1) ∧ th.stvec.toNat % 2 ^ 32 ≠ 0xFFFFFFFF) →
      u.window = th.window ∧ u.pend = th.pend ∧ u.fflags = th.fflags ∧ u.landings = th.landings ∧ u.qin = th.qin ∧
      u.tvec = th.tvec ∧ u.stvec = th.stvec ∧ u.temask0 = th.temask0 ∧ u.temask1 = th.temask1 ∧
      (tracing s c 3 = false → (takeCause c t r s).beside = s.beside ∧ (takeCause c t r s).mem = s.mem ∧
        ∀ c' t', ¬ (c' = c ∧ t' = t) → (takeCause c t r s).thread c' t' = s.thread c' t'))

/-- A synchronous cause of the executing thread is taken at its PC (R322): a trapping instruction leaves its window, flags and
queues; one that waits marks the reason alone. TRAP, SYSC and BRK take SOFT_TRAP, SYSCALL and BREAKPOINT with imm15 as tval and
PC + 1 as resume PC (log entry 35: no frame counts down); a BRK the debugger takes halts its thread. IDLE waits for an event; in
a handler it traps HANDLER_WAIT (R316, R374). -/
def Obligations.StopsAndSoftwareTraps : Prop :=
  (∀ (s : State), s.curSlot < s.myCore.threads.length → s.me.inRep = false →
     (∀ cause tval, ∃ u, stopAt (.trap cause tval) s = takeCause s.curCore s.curSlot ⟨cause, tval, s.me.pc, s.me.pc, false, false, 0⟩ u ∧
       u.me.kept = s.me.kept ∧ u.me.allWritten = s.me.allWritten ∧ u.me.pc = s.me.pc ∧ u.me.loops = s.me.loops ∧
       u.me.fflags = s.me.fflags ∧ u.me.qin = s.me.qin ∧ u.me.landings = s.me.landings ∧ u.beside = s.beside ∧
       u.curCore = s.curCore ∧ u.curSlot = s.curSlot) ∧
     (∀ reason detail, let u := stopAt (.wait reason detail) s
       u.me.kept = s.me.kept ∧ u.me.allWritten = s.me.allWritten ∧ u.me.pc = s.me.pc ∧ u.me.loops = s.me.loops ∧
       u.me.fflags = s.me.fflags ∧ u.me.qin = s.me.qin ∧ u.me.landings = s.me.landings ∧ u.beside = s.beside ∧
       ∃ w, u.me.wait = some w ∧ w.reason = reason ∧ w.detail = detail ∧ w.pc = s.me.pc)) ∧
  ((∀ h imm, Always (.trap h imm) plainSpec fun x =>
     { jump := some (x.th.pc + 1, false), post := takeCause x.c x.t ⟨0x18, imm.toNat, x.th.pc + 1, x.th.pc, false, false, 0⟩ }) ∧
   (∀ h imm, Always (.sysc h imm) plainSpec fun x =>
     { jump := some (x.th.pc + 1, false), post := takeCause x.c x.t ⟨0x19, imm.toNat, x.th.pc + 1, x.th.pc, false, false, 0⟩ }) ∧
   (∀ h imm, Always (.brk h imm) plainSpec fun x =>
     { jump := some (x.th.pc + 1, false), post := fun s => if s.dbg.brk = true ∧ s.dbg.level = 2
         then s.modThread x.c x.t fun th => { th with halted := true, stepping := false }
         else takeCause x.c x.t ⟨0x1A, imm.toNat, x.th.pc + 1, x.th.pc, false, false, 0⟩ s }) ∧
   (∀ h, Does (.idle h) plainSpec (fun x => x.th.cls ≠ .handler ∧ x.th.evq ≠ []) fun _ => {}) ∧
   (∀ h, Stops (.idle h) plainSpec (fun x => x.th.cls ≠ .handler ∧ x.th.evq = []) fun _ => .wait 7 0) ∧
   (∀ h, Stops (.idle h) plainSpec (fun x => x.th.cls = .handler) fun x => .trap Cause.handlerWait (viewLow64 x.v)))

/-- TRAP_ENTRY at a boundary takes a pending cause of a resumed thread first, then the deferred fault issued first, one at a
time, then the asynchronous cause of the lowest code (R322, R326, R327); with none it changes nothing. A result of a faulted
access is dropped, and no longer holds. A cause with no handler, and any cause raised in trap class at S (as TRAP_NEST, R323),
stays pending with its resume PC and asks the bunch to halt with a trap notice (R322, R334). Which saved causes a resumed thread
holds as pending is the model's choice (log entry 79). -/
def Obligations.CausesTaken : Prop :=
  (∀ (s : State) (c t : Nat) (r : Raised) (x : Launch) (y : Bunch), t < (s.core c).threads.length →
     (s.thread c t).place r.cause = .unhandled ∨ (s.thread c t).place r.cause = .nest →
     s.launch? (s.occ c).launch = some x → x.bunch? (s.occ c).bunch = some y → y.state = .placed → y.haltAsk = false →
     let u := takeCause c t r s
     (u.thread c t).pendCause = some r ∧ (u.thread c t).pc = r.resume ∧ (u.thread c t).status = (s.thread c t).status ∧
     (u.thread c t).cls = (s.thread c t).cls ∧ (u.thread c t).scause = (s.thread c t).scause ∧ (u.thread c t).cause = (s.thread c t).cause ∧
     ∃ y', u.bunch? (s.occ c).launch (s.occ c).bunch = some y' ∧ y'.haltAsk = true ∧
       ((s.thread c t).place r.cause = .unhandled → y'.trapped = y.trapped ++ [(r, (s.occ c).i, t)]) ∧
       ((s.thread c t).place r.cause = .nest →
         y'.trapped = y.trapped ++ [({ r with cause := 0x1C, tval := r.cause }, (s.occ c).i, t)])) ∧
  (∀ (s : State), s.curSlot < s.myCore.threads.length → s.me.atBoundary s.now = true → s.myCore.stopped = false →
     (s.traceBlk (fieldOfCore s.curCore)).stall = false →
     let s0 := s.modMyCore (·.leaveDatapath s.curSlot s.now)
     (∀ r, s.me.pendCause = some r → s.me.resumed = true → exec .trapEntry s =
       .next (takeCause s.curCore s.curSlot r (s0.setThread s.curCore s.curSlot { s.me.letGo with pendCause := none }))) ∧
     (∀ d, s.me.pendCause = none → s.me.firstDeferred = some d → exec .trapEntry s =
       .next (takeCause s.curCore s.curSlot ⟨d.cause, d.tval, s.me.pc, d.fpc, false, true, d.tag⟩
         (s0.setThread s.curCore s.curSlot
           (({ s.me.letGo with deferred := s.me.deferred.erase d, deferOn := some d.order } : Thread).dropLanding d.land)))) ∧
     (∀ r, s.me.pendCause = none → s.me.firstDeferred = none → s.me.held = none → s.me.blockErr = false → s.me.firstAsync = some r →
       exec .trapEntry s =
       .next (takeCause s.curCore s.curSlot { r with resume := s.me.pc, fpc := if r.async then s.me.pc else r.fpc }
         (s0.setThread s.curCore s.curSlot { s.me with async := s.me.async.erase r }))) ∧
     (s.me.hasCause = false → exec .trapEntry s = .next s)) ∧
  (∀ (th : Thread) (id : Nat), (th.dropLanding id).landings.all (fun l => l.id ≠ id) = true ∧ (th.dropLanding id).held ≠ some id ∧
     (th.dropLanding id).allWritten = th.allWritten ∧ (th.held = none → th.letGo = th) ∧ (th.held = some id → th.letGo = th.dropLanding id)) ∧
  (∀ (th : Thread),
     (∀ d, th.firstDeferred = some d → th.deferOn = none ∧ d ∈ th.deferred ∧ ∀ e ∈ th.deferred, d.order ≤ e.order) ∧
     (th.firstDeferred = none → th.deferOn ≠ none ∨ th.deferred = []) ∧
     (∀ r, th.firstAsync = some r → r ∈ th.async ∧ ∀ e ∈ th.async, r.cause ≤ e.cause) ∧
     (th.firstAsync = none → th.async = []))

/-- ERET in trap class with an admitted word restores level, class, loop bank and PC of its level's estat and epc, in eight
positions; outside trap class, to a higher level, to class 3, to handler class outside a handler, or to trap class from U it
traps PRIV_OP (R325). An ERET from the handler of a deferred fault, and to a class below trap from any handler, acknowledges the
faulted access: its pieces leave the network, and what waited for them may go on (R326). -/
def Obligations.TrapReturn : Prop :=
  (∀ h, Does (.eret h) plainSpec (fun x => x.th.cls = .trap ∧ x.th.mayReturn = true) fun x =>
    { jump := some (x.th.pc, false), post := returnFromTrap }) ∧
  (∀ h, Stops (.eret h) plainSpec (fun x => ¬ (x.th.cls = .trap ∧ x.th.mayReturn = true)) fun x =>
    .trap Cause.privOp (viewLow64 x.v)) ∧
  (∀ th : Thread, let word := if th.level = 0 then th.estat else th.sestat
    th.mayReturn = true ↔ word.toNat / 2 ^ 10 % 4 ≤ th.level ∧ word.toNat / 2 ^ 8 % 4 ≠ 3 ∧
      ¬ (word.toNat / 2 ^ 8 % 4 = 1 ∧ th.kind ≠ .handler) ∧ ¬ (word.toNat / 2 ^ 8 % 4 = 2 ∧ th.level = 0)) ∧
  (∀ s : State, s.curSlot < s.myCore.threads.length → s.me.deferOn = none → s.me.cls = .trap →
    let word := if s.me.level = 0 then s.me.estat else s.me.sestat
    let u := (returnFromTrap s).me
    u.level = word.toNat / 2 ^ 10 % 4 ∧ u.cls = (match word.toNat / 2 ^ 8 % 4 with | 0 => .normal | 1 => .handler | _ => .trap) ∧
    u.pc = (if s.me.level = 0 then s.me.epc else s.me.sepc).setWidth 32 ∧ u.pos = s.me.pos + 7 ∧
    (word.toNat / 2 ^ 8 % 4 < 2 → u.loops = s.me.bankN) ∧ u.window = s.me.window ∧ u.fflags = s.me.fflags ∧
    (returnFromTrap s).mem = s.mem) ∧
  (∀ (s : State) (o : Nat), s.curSlot < s.myCore.threads.length → s.me.deferOn = some o → s.me.cls = .trap →
    let word := if s.me.level = 0 then s.me.estat else s.me.sestat
    let u := s.modMe fun th => { th.returned with pos := th.pos + 7 }
    (word.getLsbD 22 = true ∨ word.toNat / 2 ^ 8 % 4 < 2 → u.me.deferOn = none ∧ returnFromTrap s = acknowledgeFault s.myAgent o u) ∧
    (word.getLsbD 22 = false → 2 ≤ word.toNat / 2 ^ 8 % 4 → u.me.deferOn = some o ∧ returnFromTrap s = u)) ∧
  (∀ (s : State) (a : Agent) (o : Nat),
    let u := { s with net := s.net.filter fun p => !(p.src == a && p.order == o && p.phase = .done && p.acked && p.err.isSome) }
    (∀ c t, s.whereIs a = some (c, t) → acknowledgeFault a o s = pump (checkFences c t u)) ∧
    (s.whereIs a = none → acknowledgeFault a o s = pump u))

/-! ## System registers -/

namespace Sys2Proof.Stated

/-- A CSR after a write of `v` over `old` at a level: reserved and read-only fields ignore the write (R317, Tables 17.11,
17.12). -/
def csrStored (n : Nat) (old v : W64) (lvl : Nat) : W64 :=
  if n = 0x000 then (old &&& ~~~(if lvl = 0 then 0xF#64 else 0x1F#64)) ||| (v &&& (if lvl = 0 then 0xF#64 else 0x1F#64))
  else if n = 0x001 then v &&& 0x1FF#64
  else if n = 0x006 then v &&& 0x3FFFFFFFFFFFFF#64
  else if n = 0x007 ∨ n = 0x008 then v &&& 0x8FFFFFFFFFFFFFFF#64
  else if n = 0x030 ∨ n = 0x200 then v &&& 0xFFFFFFFF#64
  else if n = 0x036 ∨ n = 0x204 then v &&& 0xFFFFFFFF00F80F00#64
  else if 0x100 ≤ n ∧ n ≤ 0x11F then v &&& 0xFFFFFFFFFFFF0000#64
  else if 0x120 ≤ n ∧ n ≤ 0x13F then v &&& 0xFFFFFFFFFFFFFFFE#64
  else v

/-- The CSRs that hold what is written to them, beside `portcfg`, `dlogbase` and the log of nondeterminism causes. -/
def csrHolds (n : Nat) : Prop :=
  n ≤ 0x001 ∨ (0x006 ≤ n ∧ n ≤ 0x008) ∨ (0x030 ≤ n ∧ n ≤ 0x036) ∨ (0x080 ≤ n ∧ n ≤ 0x08F) ∨ (0x100 ≤ n ∧ n ≤ 0x13F) ∨
    (0x200 ≤ n ∧ n ≤ 0x204)

end Sys2Proof.Stated

/-- CSRR writes the CSR to D; CSRW, CSRS and CSRC write the old value to D and change the CSR. A number outside Table 17.11
traps ILLEGAL_CSR, one the level may not read or write CSR_PRIV, a range entry made valid with a reserved TYPE or ORD
ILLEGAL_RSVD. A CSR reads as it was last written, less the bits its format reserves or its level may not write, and every other
one that holds its value stays (R111, R317). That CSRS and CSRC take an A of any width is the model's reading (log entry 76). -/
def Obligations.CsrAccess : Prop :=
  ((∀ h d imm, Does (.csrr h d imm) (fun v => { v := v, wd := some (opWidth v), wide := opWidth v }) (fun x => csrOpen x false) fun x =>
     { writes := writeLoc x.ld x.w (csrWas x).toNat }) ∧
   (∀ h d imm, Stops (.csrr h d imm) (fun v => { v := v, wd := some (opWidth v), wide := opWidth v })
     (fun x => csrMode (x.immNat % 4096) = none) fun x => .trap Cause.illegalCsr (x.immNat % 4096)) ∧
   (∀ h d imm, Stops (.csrr h d imm) (fun v => { v := v, wd := some (opWidth v), wide := opWidth v })
     (fun x => csrMode (x.immNat % 4096) ≠ none ∧ ¬ csrOpen x false) fun x => .trap Cause.csrPriv (x.immNat % 4096)) ∧
   (∀ i named f, csrNew i = some (named, f) →
     Does i (csrSpec named) (fun x => csrOpen x true ∧ badRange (x.immNat % 4096) (f (csrWas x) (csrArg named x)) = false) (fun x =>
       { writes := writeLoc x.ld x.w (csrWas x).toNat,
         post := csrWrite x.c x.t (x.immNat % 4096) (f (csrWas x) (csrArg named x)) x.th.level }) ∧
     Stops i (csrSpec named) (fun x => csrMode (x.immNat % 4096) = none) (fun x => .trap Cause.illegalCsr (x.immNat % 4096)) ∧
     Stops i (csrSpec named) (fun x => csrMode (x.immNat % 4096) ≠ none ∧ ¬ csrOpen x true)
       (fun x => .trap Cause.csrPriv (x.immNat % 4096)) ∧
     Stops i (csrSpec named) (fun x => csrOpen x true ∧ badRange (x.immNat % 4096) (f (csrWas x) (csrArg named x)) = true)
       fun x => .trap Cause.illegalRsvd (viewLow64 x.v))) ∧
  (∀ (s : State) (c t n : Nat) (v : W64) (lvl : Nat), csrHolds n → t < (s.core c).threads.length →
     (s.thread c t).counters.length = 16 → (s.core c).rtbase.length = 32 → (s.core c).rtlim.length = 32 →
     let u := csrWrite c t n v lvl s
     csrRead u c t n = csrStored n (csrRead s c t n) v lvl ∧
     (∀ m, csrHolds m → m ≠ n → csrRead u c t m = csrRead s c t m) ∧
     (u.thread c t).window = (s.thread c t).window ∧ (u.thread c t).pc = (s.thread c t).pc ∧ u.mem = s.mem ∧
     (∀ t', t' ≠ t → u.thread c t' = s.thread c t'))

/-- DLOGH starts a merge of its core's dirty log and completes with it; TINV at S drops the translations it names from every
edge port as its result lands, and traps PRIV_OP at U and ILLEGAL_RSVD for the reserved kind (R314, R315). -/
def Obligations.Maintenance : Prop :=
  (∀ h, Always (.dlogh h) plainSpec fun x =>
    { land := some { dest := .zero, w := 0, kind := .merge, missing := 1 }, post := beginMerge x.c }) ∧
  (∀ h a imm, Does (.tinv h a imm) (fun v => { v := v, ra := some 64, wide := 64, legal := namedA v.a 64 })
    (fun x => x.th.level ≠ 0 ∧ x.immNat % 4 ≠ 3) fun x =>
    { land := some { dest := .zero, w := 0, kind := .tinv (x.immNat % 4) (x.s.asidOf x.c) (x.a 64 false) },
      post := fun s => s.later (.resultLanding x.c x.t x.s.nextId) }) ∧
  (∀ h a imm, Stops (.tinv h a imm) (fun v => { v := v, ra := some 64, wide := 64, legal := namedA v.a 64 })
    (fun x => x.th.level = 0) fun x => .trap Cause.privOp (viewLow64 x.v)) ∧
  (∀ h a imm, Stops (.tinv h a imm) (fun v => { v := v, ra := some 64, wide := 64, legal := namedA v.a 64 })
    (fun x => x.th.level ≠ 0 ∧ x.immNat % 4 = 3) fun x => .trap Cause.illegalRsvd (viewLow64 x.v)) ∧
  (∀ (s : State) (c t id kind asid a : Nat) (l : Landing), t < (s.core c).threads.length →
    (s.thread c t).landing? id = some l → l.kind = .tinv kind asid a → l.dest = .nowhere → s.invWaits = [] →
    ∃ u, exec (.resultLanding c t id) s = .next u ∧
      (∀ e ∈ u.edges, ∀ x ∈ e.cache, ¬ (match kind with
        | 0 => x.asid = asid ∧ x.va ≤ a ∧ a < x.va + x.size
        | 1 => x.asid = a % 2 ^ 14
        | _ => True)) ∧ u.mem = s.mem)

/-! ## Messages and events -/

namespace Sys2Proof.Stated

/-- The operands of SEND: 64 to 2,048 bits in A. -/
def sendSpec (v : View) : Spec :=
  { v := v, ra := some (sliceWidth v.a), wd := some (opWidth v), wide := max (sliceWidth v.a) (opWidth v),
    legal := isSlice v.a && 64 ≤ sliceWidth v.a && sliceWidth v.a ≤ 2048 }

/-- The operands of SENDM: 128 bits in A. -/
def sendmSpec (v : View) : Spec :=
  { v := v, ra := some 128, wd := some (opWidth v), wide := max 128 (opWidth v), legal := isSlice v.a && sliceWidth v.a == 128 }

/-- The words of a send: its route, and for SENDM its payload's address. -/
def sendWords (x : Ctx) : Nat := x.a (sliceWidth x.v.a) true
/-- The route word. -/
def routeOf (v : Nat) : Nat := v % 2 ^ 64
/-- CORE, LEN and TAG of a route word (Table 15.6). -/
def toCore (r : Nat) : Nat := r / 2 ^ 32 % 2 ^ 17
/-- LEN. -/
def payloadLen (r : Nat) : Nat := r / 2 ^ 55 % 2 ^ 9

/-- A send that R272 lets through: a core of the wafer, a payload that fits, no ASK in a handler, and a credit. -/
def sendOk (x : Ctx) (route longest : Nat) : Prop :=
  toCore route ≤ 86015 ∧ payloadLen route ≤ longest ∧ ¬ (x.x = true ∧ x.th.cls = .handler) ∧ x.th.credits ≠ 0

/-- A mailbox configuration that R276 admits: none, or 2 to 256 entries below the code region at a multiple of 32. -/
def mbxGood (cfg : Nat) : Prop :=
  cfg = 0 ∨ (cfg / 2 ^ 20 % 2 ^ 8 ≠ 0 ∧ cfg % 2 ^ 20 % 32 = 0 ∧ cfg % 2 ^ 20 + 288 * (cfg / 2 ^ 20 % 2 ^ 8 + 1) ≤ codeBase ∧ cfg < 2 ^ 28)

/-- No message is held and no handler runs. -/
def mbxIdle (x : Ctx) : Prop := (x.s.core x.c).mbx = [] ∧ ∀ th ∈ (x.s.core x.c).threads, ¬ (th.kind = .handler ∧ th.running = true)

/-- The operands of MBXCFG: 64 bits in and out. -/
def mbxSpec (v : View) : Spec := { v := v, ra := some 64, wd := some 64, wide := 64 }

/-- The first byte of a LOCAL read with an uncorrectable error, if there is one (R131). -/
def errorIn (x : Ctx) (ea n : Nat) : Option Nat := blockError x false x.s (ea, n)

/-- A read at issue that met an error at `a`: nothing is done, and the fault is deferred (R131, R326). -/
def readFails (x : Ctx) (a : Nat) : Res :=
  { post := fun s => raiseDeferred (s.agent x.c x.t) ⟨s.nextId, Cause.memEcc, a, 0, x.th.pc, s.nextId⟩ s }

/-- The longest payload of a SEND: 256 bytes, or what A holds beside the route. -/
def sendMost (x : Ctx) : Nat := min 256 ((sliceWidth x.v.a - 64) / 8)

/-- The operands of REPLY: A at its own width, 32 for a port or ZERO (R279). -/
def replySpec (v : View) : Spec :=
  { v := v, ra := some (ownWidth v.a 32), wide := ownWidth v.a 32, legal := ownWidth v.a 32 ≤ 256 }

/-- A handler that may answer its message (R279). -/
def mayAnswer (x : Ctx) (reply : Bool) : Prop :=
  x.th.cls = .handler ∧ ∃ m, x.th.hmsg = some m ∧ m.answered = false ∧ (reply = true → m.header.getLsbD 67 = true)

end Sys2Proof.Stated

/-- SEND and SENDM with an admitted route, payload and credit send their message and write its sequence number to D; a core
beyond the wafer, too long a payload, a fault of its bytes, ASK in a handler and an empty credit count trap, in that order.
MBXCFG with an admitted configuration, no message held and no handler running writes the old configuration to D and sets the new
one, else ILLEGAL_OPERAND or MBX_BUSY. HSET takes 64 handler PCs from local store, and traps on a byte it cannot read; at bytes
with an uncorrectable error SENDM and HSET do nothing but raise MEM_ECC as a deferred fault (R131, R272 to R277). That R113 is
tested for every byte before MSG_ADDR is the model's choice (log entry 80), and so is that the bytes are read at issue (log
entry 15). -/
def Obligations.MessagesLeave : Prop :=
  ((∀ h d a, Does (.send h d a) sendSpec
     (fun x => sendOk x (routeOf (sendWords x)) (sendMost x)) fun x =>
     { writes := writeLoc x.ld x.w x.th.msgSeq.toNat,
       post := sendMessage x (routeOf (sendWords x)) (toBytes (sendWords x / 2 ^ 64) (payloadLen (routeOf (sendWords x)))) }) ∧
   (∀ h d a, Stops (.send h d a) sendSpec (fun x => 86015 < toCore (routeOf (sendWords x))) fun x =>
     .trap Cause.msgTarget (routeOf (sendWords x))) ∧
   (∀ h d a, Stops (.send h d a) sendSpec
     (fun x => toCore (routeOf (sendWords x)) ≤ 86015 ∧ sendMost x < payloadLen (routeOf (sendWords x))) fun x =>
     .trap Cause.msgLen (routeOf (sendWords x))) ∧
   (∀ h d a, Stops (.send h d a) sendSpec (fun x => toCore (routeOf (sendWords x)) ≤ 86015 ∧
     payloadLen (routeOf (sendWords x)) ≤ sendMost x ∧ x.x = true ∧ x.th.cls = .handler) fun x => .trap Cause.handlerWait (viewLow64 x.v)) ∧
   (∀ h d a, Stops (.send h d a) sendSpec (fun x => toCore (routeOf (sendWords x)) ≤ 86015 ∧
     payloadLen (routeOf (sendWords x)) ≤ sendMost x ∧ ¬ (x.x = true ∧ x.th.cls = .handler) ∧ x.th.credits = 0)
     fun _ => .trap Cause.evqFull 0) ∧
   (∀ h d a, Stops (.sendm h d a) sendmSpec (fun x => 86015 < toCore (routeOf (x.a 128 false))) fun x =>
     .trap Cause.msgTarget (routeOf (x.a 128 false))) ∧
   (∀ h d a, Stops (.sendm h d a) sendmSpec
     (fun x => toCore (routeOf (x.a 128 false)) ≤ 86015 ∧ 256 < payloadLen (routeOf (x.a 128 false))) fun x =>
     .trap Cause.msgLen (routeOf (x.a 128 false))) ∧
   (∀ h d a e, Stops (.sendm h d a) sendmSpec (fun x => let m := x.a 128 false
     toCore (routeOf m) ≤ 86015 ∧ payloadLen (routeOf m) ≤ 256 ∧
       localReadStop x Cause.msgAddr (m / 2 ^ 64) (payloadLen (routeOf m)) = some e) fun _ => e) ∧
   (∀ h d a, Stops (.sendm h d a) sendmSpec (fun x => let m := x.a 128 false
     toCore (routeOf m) ≤ 86015 ∧ payloadLen (routeOf m) ≤ 256 ∧
       localReadStop x Cause.msgAddr (m / 2 ^ 64) (payloadLen (routeOf m)) = none ∧ x.x = true ∧ x.th.cls = .handler) fun x =>
     .trap Cause.handlerWait (viewLow64 x.v)) ∧
   (∀ h d a, Stops (.sendm h d a) sendmSpec (fun x => let m := x.a 128 false
     toCore (routeOf m) ≤ 86015 ∧ payloadLen (routeOf m) ≤ 256 ∧
       localReadStop x Cause.msgAddr (m / 2 ^ 64) (payloadLen (routeOf m)) = none ∧ ¬ (x.x = true ∧ x.th.cls = .handler) ∧
       x.th.credits = 0) fun _ => .trap Cause.evqFull 0) ∧
   (∀ h d a, Does (.sendm h d a) sendmSpec
     (fun x => let m := x.a 128 false
       sendOk x (routeOf m) 256 ∧ localReadStop x Cause.msgAddr (m / 2 ^ 64) (payloadLen (routeOf m)) = none ∧
         blocksWait x false [(m / 2 ^ 64, payloadLen (routeOf m))] = none ∧ errorIn x (m / 2 ^ 64) (payloadLen (routeOf m)) = none) fun x =>
     let m := x.a 128 false
     { writes := writeLoc x.ld x.w x.th.msgSeq.toNat,
       post := fun s => sendMessage x (routeOf m) (localBytes x.s x.c (m / 2 ^ 64) (payloadLen (routeOf m)))
         (touchBlocks x false [(m / 2 ^ 64, payloadLen (routeOf m))] s) }) ∧
   (∀ h d a e, Does (.sendm h d a) sendmSpec
     (fun x => let m := x.a 128 false
       sendOk x (routeOf m) 256 ∧ localReadStop x Cause.msgAddr (m / 2 ^ 64) (payloadLen (routeOf m)) = none ∧
         blocksWait x false [(m / 2 ^ 64, payloadLen (routeOf m))] = none ∧ errorIn x (m / 2 ^ 64) (payloadLen (routeOf m)) = some e)
     fun x => readFails x e) ∧
   (∀ (x : Ctx) (route : Nat) (payload : List Byte) (s : State), x.t < (s.core x.c).threads.length →
     let u := sendMessage x route payload s
     (u.thread x.c x.t).credits = (s.thread x.c x.t).credits - 1 ∧ (u.thread x.c x.t).msgSeq = (s.thread x.c x.t).msgSeq + 1 ∧
     ∃ m : Msg, u.msgs = s.msgs ++ [m] ∧ m.payload = payload ∧ m.core = toCore route ∧ m.src = s.agent x.c x.t ∧
       m.header.toNat % 2 ^ 32 = route % 2 ^ 32 ∧ m.header.toNat / 2 ^ 96 % 2 ^ 32 = (x.s.thread x.c x.t).msgSeq.toNat ∧
       m.header.getLsbD 67 = x.x)) ∧
  ((∀ h d a, Does (.mbxcfg h d a) mbxSpec (fun x => mbxGood (x.a 64 true) ∧ mbxIdle x) fun x =>
     { writes := writeLoc x.ld 64 (x.s.core x.c).mbxcfg.toNat,
       post := fun s => s.modCore x.c fun k => { k with mbxcfg := BitVec.ofNat 64 (x.a 64 true) } }) ∧
   (∀ h d a, Stops (.mbxcfg h d a) mbxSpec (fun x => ¬ mbxGood (x.a 64 true)) fun x => .trap Cause.illegalOperand (x.a 64 true)) ∧
   (∀ h d a, Stops (.mbxcfg h d a) mbxSpec (fun x => mbxGood (x.a 64 true) ∧ ¬ mbxIdle x) fun x =>
     .trap Cause.mbxBusy (x.a 64 true)) ∧
   (∀ h a, Does (.hset h a) (fun v => { v := v, ra := some 64, wide := 64 })
     (fun x => localReadStop x Cause.msgAddr (x.a 64 false) 256 = none ∧ blocksWait x false [(x.a 64 false, 256)] = none ∧
       errorIn x (x.a 64 false) 256 = none) fun x =>
     { post := fun s => (touchBlocks x false [(x.a 64 false, 256)] s).modCore x.c fun k =>
         { k with hset := true, htable := (List.range 64).map fun j =>
             BitVec.ofNat 32 (laneAt 32 (ofBytes (localBytes x.s x.c (x.a 64 false) 256)) j) } }) ∧
   (∀ h a e, Does (.hset h a) (fun v => { v := v, ra := some 64, wide := 64 })
     (fun x => localReadStop x Cause.msgAddr (x.a 64 false) 256 = none ∧ blocksWait x false [(x.a 64 false, 256)] = none ∧
       errorIn x (x.a 64 false) 256 = some e) fun x => readFails x e) ∧
   (∀ h a e, Stops (.hset h a) (fun v => { v := v, ra := some 64, wide := 64 })
     (fun x => localReadStop x Cause.msgAddr (x.a 64 false) 256 = some e) fun _ => e))

/-- REPLY and REFUSE answer the message of the running handler once, with REPLY only where it asked for one, and trap MSG_REPLY
else; HEXIT posts REPLY_EMPTY or the credit of a message not answered and ends the handler; outside handler class it traps
HANDLER_EXIT, and busy tags hold it (R279, R281). WAITEV takes the oldest event record and its credit returns; it waits with
reason 7 for one; in a handler it traps HANDLER_WAIT. POLLEV writes zeros where there is none. -/
def Obligations.HandlersAndEvents : Prop :=
  ((∀ h a, Does (.reply h a) replySpec
     (fun x => mayAnswer x true) fun x => { post := sendAnswer x 2 0 (x.a (ownWidth x.v.a 32) true) fun s => outstanding s x.c x.t }) ∧
   (∀ h a, Stops (.reply h a) replySpec (fun x => ¬ mayAnswer x true) fun _ => .trap Cause.msgReply 0) ∧
   (∀ h, Does (.refuse h) plainSpec (fun x => mayAnswer x false) fun x => { post := sendAnswer x 1 6 0 fun _ => [] }) ∧
   (∀ h, Stops (.refuse h) plainSpec (fun x => ¬ mayAnswer x false) fun _ => .trap Cause.msgReply 0) ∧
   (∀ h, Does (.hexit h) plainSpec (fun x => x.th.cls = .handler ∧ x.th.busyOf 0x7F = 0) fun x =>
     { post := fun s => ((endProgram x.c x.t (hexitEvent x.c x.th s)).soon (.handlerStart x.c)).soon (.roundEnd (x.s.occ x.c).launch) }) ∧
   (∀ h, Stops (.hexit h) plainSpec (fun x => x.th.cls ≠ .handler) fun _ => .trap Cause.handlerExit 0) ∧
   (∀ h, Stops (.hexit h) plainSpec (fun x => x.th.cls = .handler ∧ x.th.busyOf 0x7F ≠ 0) fun x => .wait 1 (x.th.busyOf 0x7F)) ∧
   (∀ (x : Ctx) (m : HandlerMsg) (kind reason data : Nat) (after : State → List Nat) (s : State), x.th.hmsg = some m →
     x.t < (s.core x.c).threads.length →
     (∃ e : EvMsg, (sendAnswer x kind reason data after s).evs = s.evs ++ [e] ∧ e.dst = m.src ∧
       e.rec_ = eventWord kind reason (m.header.toNat / 2 ^ 96 % 2 ^ 32) m.route.toNat data) ∧
     ((sendAnswer x kind reason data after s).thread x.c x.t).hmsg = (s.thread x.c x.t).hmsg.map fun m => { m with answered := true }) ∧
   (∀ (c : Nat) (th : Thread) (m : HandlerMsg) (s : State), th.hmsg = some m →
     (m.answered = true → hexitEvent c th s = s) ∧
     (m.answered = false → ∃ e : EvMsg, (hexitEvent c th s).evs = s.evs ++ [e] ∧ e.dst = m.src ∧
       e.rec_ = eventWord (if m.header.getLsbD 67 then 3 else 0) 0 (m.header.toNat / 2 ^ 96 % 2 ^ 32) m.route.toNat 0)) ∧
   (∀ (c t : Nat) (s : State), t < (s.core c).threads.length → ((endProgram c t s).thread c t).running = false ∧
     ((endProgram c t s).thread c t).hmsg = none)) ∧
  ((∀ h d, (∀ r, Does (.waitev h d) eventSpec (fun x => x.th.cls ≠ .handler ∧ x.th.evq.head? = some r) fun x =>
       { writes := writeLoc x.ld (sliceWidth x.v.d) r.toNat,
         pre := fun th => { th with evq := th.evq.tail, credits := min 32 (th.credits + 1) } }) ∧
     Stops (.waitev h d) eventSpec (fun x => x.th.cls ≠ .handler ∧ x.th.evq = []) (fun _ => .wait 7 0) ∧
     Stops (.waitev h d) eventSpec (fun x => x.th.cls = .handler) fun x => .trap Cause.handlerWait (viewLow64 x.v)) ∧
   (∀ h d, (∀ r, Does (.pollev h d) eventSpec (fun x => x.th.evq.head? = some r) fun x =>
       { writes := writeLoc x.ld (sliceWidth x.v.d) r.toNat,
         pre := fun th => { th with evq := th.evq.tail, credits := min 32 (th.credits + 1) } }) ∧
     Does (.pollev h d) eventSpec (fun x => x.th.evq = []) fun x => { writes := writeLoc x.ld (sliceWidth x.v.d) 0 }))

/-- MESSAGE_ARRIVAL: the first message of its sender and target, once the accesses its SEND follows are done, takes a free
mailbox entry or is refused with the first reason that R275's table gives, and the news of a refusal for the sender's log is on
its way. That the entry is the lowest is the model's choice (log entry 88), as are the waits of 1 and 1,000 cycles (log entry
66). HANDLER_START starts the oldest entry in the lowest idle handler slot: PC from the table by tag, class handler, header and
payload in the window (R278). EVENT_DELIVERY queues a record or returns a credit (R274 to R280). -/
def Obligations.MessagesArrive : Prop :=
  (∀ (s : State) (m : Msg), s.msgs.find? (fun x => x.id == m.id) = some m →
     s.msgs.find? (fun x => x.src == m.src && x.core == m.core) = some m →
     (stillOut s m.after = true → exec (.messageArrival m.id) s = .next (s.after 1 (.messageArrival m.id))) ∧
     (stillOut s m.after = false → ∀ reason, refusal { s with msgs := s.msgs.filter fun x => x.id ≠ m.id } m = some reason →
       ∃ u, exec (.messageArrival m.id) s = .next u ∧ u.msgs = s.msgs.filter (fun x => x.id ≠ m.id) ∧
         (∃ e : EvMsg, u.evs = s.evs ++ [e] ∧ e.dst = m.src ∧
           e.rec_ = eventWord 1 reason (m.header.toNat / 2 ^ 96 % 2 ^ 32) m.route.toNat 0) ∧
         ∃ x, u.ndNotes = s.ndNotes ++ [x] ∧ x.who = m.src ∧ x.code = 2 ∧ x.pc = m.pc ∧ s.now ≤ x.due) ∧
     (stillOut s m.after = false → refusal { s with msgs := s.msgs.filter fun x => x.id ≠ m.id } m = none → ∀ c j,
       remoteTest s m.src.launch m.core = .go c → (s.core c).freeEntry = some j →
       ∃ u, exec (.messageArrival m.id) s = .next u ∧ u.msgs = s.msgs.filter (fun x => x.id ≠ m.id) ∧
         (u.core c).mbx = (s.core c).mbx ++ [⟨j, m.header, m.src, m.route⟩] ∧ u.evs = s.evs ∧
         (m.payload.length ≤ 256 → let at_ := localKey c ((s.core c).mbxcfg.toNat % 2 ^ 20 + 288 * j)
           loadN u at_ 32 = m.header.toNat ∧ loadN u (at_ + 32) 256 = ofBytes m.payload)) ∧
     (∀ (k : Core) (j : Nat), k.freeEntry = some j → j < mbxCount k.mbxcfg ∧ (∀ e ∈ k.mbx, e.entry ≠ j) ∧
       ∀ i, i < j → ∃ e ∈ k.mbx, e.entry = i)) ∧
  (∀ (s : State) (m : Msg),
     ((∀ c, remoteTest s m.src.launch m.core ≠ .go c) → refusal s m = some 1) ∧
     (∀ c, remoteTest s m.src.launch m.core = .go c →
       let k := s.core c
       let nohslot := (s.desc m.src.launch).hslots = 0
       let full := ∀ j, j < mbxCount k.mbxcfg → ∃ e ∈ k.mbx, e.entry = j
       let nohandler := k.hset = false ∨ k.htable.getD (m.route.toNat / 2 ^ 49 % 2 ^ 6) 0xFFFFFFFF = 0xFFFFFFFF
       (nohslot → refusal s m = some 2) ∧ (¬ nohslot → k.mbxcfg = 0 → refusal s m = some 3) ∧
       (¬ nohslot → k.mbxcfg ≠ 0 → full → refusal s m = some 4) ∧
       (¬ nohslot → k.mbxcfg ≠ 0 → ¬ full → nohandler → refusal s m = some 5) ∧
       (¬ nohslot → k.mbxcfg ≠ 0 → ¬ full → ¬ nohandler → refusal s m = none))) ∧
  ((∀ (s : State) (c t : Nat) (m : MbxEntry) (rest : List MbxEntry), (s.core c).mbx = m :: rest → (s.core c).owner.isSome = true →
     (s.core c).stopped = false → (s.core c).dbgHalt = false → (s.core c).failed = false → (s.core c).idleHandler = some t →
     t < (s.core c).threads.length →
     ∃ u, exec (.handlerStart c) s = .next u ∧ (u.core c).mbx = rest ∧ (u.thread c t).cls = .handler ∧ (u.thread c t).running = true ∧
       (u.thread c t).pc = (s.core c).htable.getD (m.route.toNat / 2 ^ 49 % 2 ^ 6) 0xFFFFFFFF ∧
       (u.thread c t).hmsg = some ⟨m.header, false, m.src, m.route⟩ ∧ (u.thread c t).budget = 0 ∧
       (u.thread c t).allWritten.toNat % 2 ^ 256 = m.header.toNat ∧
       (u.thread c t).allWritten.toNat / 2 ^ 256 % 2 ^ 2048 =
         loadN s (localKey c ((s.core c).mbxcfg.toNat % 2 ^ 20 + 288 * m.entry + 32)) 256 % 2 ^ 2048 ∧
       (∀ j, 2304 ≤ j → (u.thread c t).allWritten.getLsbD j = (s.thread c t).allWritten.getLsbD j) ∧ u.mem = s.mem ∧
       (∀ c' t', ¬ (c' = c ∧ t' = t) → u.thread c' t' = s.thread c' t')) ∧
   (∀ (s : State) (e : EvMsg) (c : Nat), s.evs.find? (fun x => x.id == e.id) = some e → stillOut s e.after = false →
     remoteTest s e.dst.launch e.home = .go c → slotLive s c e.dst.slot = true → e.dst.slot < (s.core c).threads.length →
     ∃ u, exec (.eventDelivery e.id) s = .next u ∧ u.evs = s.evs.filter (fun x => x.id ≠ e.id) ∧ u.mem = s.mem ∧
       (e.rec_.toNat % 2 ^ 8 = 0 → (u.thread c e.dst.slot).credits = min 32 ((s.thread c e.dst.slot).credits + 1)) ∧
       (e.rec_.toNat % 2 ^ 8 ≠ 0 → (s.thread c e.dst.slot).evq.length < 32 →
         (u.thread c e.dst.slot).evq = (s.thread c e.dst.slot).evq ++ [e.rec_])) ∧
   (∀ (s : State) (e : EvMsg), s.evs.find? (fun x => x.id == e.id) = some e →
     (stillOut s e.after = true → exec (.eventDelivery e.id) s = .next (s.after 1 (.eventDelivery e.id))) ∧
     (stillOut s e.after = false → remoteTest s e.dst.launch e.home = .later →
       exec (.eventDelivery e.id) s = .next (s.after 1000 (.eventDelivery e.id))) ∧
     (stillOut s e.after = false → remoteTest s e.dst.launch e.home = .absent →
       exec (.eventDelivery e.id) s = .next { s with evs := s.evs.filter fun x => x.id ≠ e.id })))

/-! ## The matrix unit -/

namespace Sys2Proof.Stated

/-- The unit of the executing core, before the instruction. -/
def unit (x : Ctx) : Matrix := (x.s.core x.c).mat
/-- The thread owns the slot its instruction names. -/
def ownsSlot (x : Ctx) : Prop := ((unit x).slot (x.immNat % 4)).owner = some x.t
/-- At most 3 commands of the thread are pending (R239). -/
def hasRoom (x : Ctx) : Prop := ((unit x).cmds.filter fun k => k.slot == x.t && decide (k.mslot < 4)).length < 4
/-- Blocks a command may read, or write, now (R248, R252). -/
def blocksOk (x : Ctx) (wr : Bool) (rs : List (Nat × Nat)) : Prop := blocksTrap x wr rs = none ∧ blocksWait x wr rs = none
/-- BASE + n × STRIDE of a descriptor (Table 13.6). -/
def descAt (d n : Nat) : Nat := addrPlus (d % 2 ^ 64) (n * (d / 2 ^ 64 % 2 ^ 32))
/-- Its reserved bits are zero (R246). -/
def descOk (d : Nat) : Prop := d / 2 ^ 96 % 2 ^ 32 = 0
/-- DETAIL of a wait for the unit (R240): the holder's slot, or 15. -/
def holder (x : Ctx) : Nat := (unit x).holder.getD 15

/-- The addresses of a latch load's blocks (R247): 32 of A or 64 of B by BASE and STRIDE; MGATHA takes those of its indices, and
none for the index 0xFFFF. -/
def latchAddrs : Instr → Option (Nat × Bool × (Nat → List (Option Nat)))
  | .mlda _ _ _ => some (128, true, fun d => (List.range 32).map fun j => some (descAt d j))
  | .mldb _ _ _ => some (128, false, fun d => (List.range 64).map fun j => some (descAt d j))
  | .mgatha _ _ _ => some (1024, true, fun d => (List.range 32).map fun j =>
      if d / 2 ^ (128 + 16 * j) % 2 ^ 16 = 0xFFFF then none else some (descAt d (d / 2 ^ (128 + 16 * j) % 2 ^ 16)))
  | _ => none

/-- The format of a latch load (R242). -/
def latchFmt (x : Ctx) (isA : Bool) : Nat := if isA then x.th.fmta else x.th.fmtb

/-- The blocks a latch load reads. -/
def latchReads (x : Ctx) (isA : Bool) (addrs : List (Option Nat)) : List (Nat × Nat) :=
  (addrs.filterMap id).map fun a => (a, Blk.memBytes (mfmt (latchFmt x isA)))

/-- The blocks it loads. -/
def latchBlocks (x : Ctx) (isA : Bool) (addrs : List (Option Nat)) : List (BitVec 2048) :=
  addrs.map fun a => match a with
    | some a => BitVec.ofNat 2048 (Blk.clean (mfmt (latchFmt x isA))
        (Blk.ofMem (mfmt (latchFmt x isA)) (localBytes x.s x.c a (Blk.memBytes (mfmt (latchFmt x isA))))))
    | none => 0

/-- The tile an instruction sees: as its slot's accepted commands leave it. -/
def tileNow (x : Ctx) : List (BitVec 2048) := ((unit x).projected (x.immNat % 4)).tile

/-- MSTC's format, and its blocks in memory: block j at BASE + ⌊j/2⌋ × STRIDE + (j mod 2) blocks (R250). -/
def mstcBlocks (x : Ctx) : List (Nat × Nat) :=
  (convertTile (x.immNat / 4 % 4) (roundingOf x.v.h.rnd x.th) (tileNow x)).1.mapIdx fun j img =>
    (addrPlus (x.a 128 false % 2 ^ 64) (j / 2 * (x.a 128 false / 2 ^ 64 % 2 ^ 32) + j % 2 * Blk.memBytes (mfmt (x.immNat / 4 % 4))), img)

/-- The addresses of a saved tile's blocks (R251). -/
def savedAt (x : Ctx) : List Nat := (List.range 64).map fun j => addrPlus (x.a 64 false) (200 * j)

/-- Entries queued or to be queued for MSTC.Q. -/
def queuedTiles (x : Ctx) : Nat :=
  (unit x).outq.length + (unit x).cmds.countP fun k => match k.op with
    | .storeQ _ _ _ => true
    | _ => false

/-- The operands of the instructions that name a matrix slot. -/
def slotSpec : Instr → Option (View → Spec)
  | .mzero _ _ | .mmac _ _ => some plainSpec
  | .mlda _ _ _ | .mldb _ _ _ | .mstc _ _ _ => some (descSpec 128)
  | .mgatha _ _ _ => some (descSpec 1024)
  | .mstcQ _ _ _ | .msave _ _ _ | .mrstr _ _ _ => some fun v => { v := v, ra := some 64, wide := 64 }
  | _ => none

/-- The blocks an instruction's command reads or, with the mark, writes. -/
def unitBlocks (i : Instr) (x : Ctx) : Option (Bool × List (Nat × Nat)) :=
  match i with
  | .mstc _ _ _ => some (true, (mstcBlocks x).map fun b => (b.1, Blk.memBytes (mfmt (x.immNat / 4 % 4))))
  | .msave _ _ _ => some (true, ((savedAt x).zip ((tileNow x).map BitVec.toNat)).map fun b => (b.1, 200))
  | .mrstr _ _ _ => some (false, (savedAt x).map fun a => (a, 200))
  | i => (latchAddrs i).map fun (n, isA, addrs) => (false, latchReads x isA (addrs (x.a n false)))

/-- The descriptor of an instruction that has one holds zeros where R246 reserves bits. -/
def descGood (i : Instr) (x : Ctx) : Prop :=
  match i with
  | .mlda _ _ _ | .mldb _ _ _ | .mstc _ _ _ => descOk (x.a 128 false)
  | .mgatha _ _ _ => descOk (x.a 1024 false)
  | _ => True

/-- Both latches of the slot are loaded, once its accepted commands are complete (R249). -/
def latchesLoaded (x : Ctx) : Prop :=
  ((unit x).projected (x.immNat % 4)).la.loaded = true ∧ ((unit x).projected (x.immNat % 4)).lb.loaded = true

/-- What R239 to R250 test of an instruction before its room among the thread's commands. -/
def unitReady (i : Instr) (x : Ctx) : Prop :=
  ownsSlot x ∧ descGood i x ∧ (∀ wr rs, unitBlocks i x = some (wr, rs) → blocksTrap x wr rs = none) ∧
  match i with
  | .mmac _ _ => latchesLoaded x ∧ (unit x).holder = some x.t ∧ (unit x).release = false
  | .mstcQ _ _ _ => queuedTiles x < 8
  | _ => True

/-- A byte is of the LOCAL space. -/
def isLocal (x : Ctx) (a : Nat) : Prop := ∃ p, placeOf (x.s.core x.c) a = some p ∧ p.typ = .local_

/-- The operands of MCFG. -/
def mcfgSpec (v : View) : Spec := { v := v, ra := some 32 }

/-- An MCFG word without reserved bits and formats (R242). -/
def mcfgWord (x : Ctx) : Prop := x.a 32 true < 256 ∧ x.a 32 true / 16 % 4 ≠ 3 ∧ x.a 32 true / 64 % 4 ≠ 3

/-- The thread's live slots that the word drops, as a mask. -/
def mcfgDrops (x : Ctx) : Nat := ((List.range 4).map fun m =>
  if ((unit x).slot m).owner = some x.t ∧ (x.a 32 true).testBit m = false ∧ ((unit x).slot m).live = true then 2 ^ m else 0).sum

/-- An MCFG that R242 admits: no slot of another thread, and no live slot dropped unless X. -/
def mcfgOk (x : Ctx) : Prop := mcfgWord x ∧ busySlot (unit x) x.t (x.a 32 true % 16) = none ∧ (x.x = true ∨ mcfgDrops x = 0)

/-- None of the thread's commands is pending. -/
def quiet (x : Ctx) : Prop := (unit x).cmds.filter (fun k => k.slot == x.t && decide (k.mslot < 4)) = []

/-- What MCFG does. -/
def mcfgRes (x : Ctx) : Res :=
  { pre := fun th => { th with fmta := x.a 32 true / 16 % 4, fmtb := x.a 32 true / 64 % 4 },
    post := fun s => s.modMatrix x.c fun y => configure y x.t (x.a 32 true % 16) }

end Sys2Proof.Stated

/-- Matrix commands of a thread that owns their slot, with blocks R248 admits and fewer than 4 pending, are accepted in order:
MZERO, the latch loads and MRSTR with the blocks they read, MMAC of two loaded latches by the array's holder, MSTC and MSAVE
with their blocks stored, MSTC.Q with room in the queue. A slot of another thread traps MATRIX_SLOT, an empty latch
MATRIX_EMPTY, a byte that fails R113 its cause, one outside LOCAL MATRIX_ADDR, one of the code region CODE_WRITE; an MMAC
without the array, a full queue and four pending commands wait with reason 5 (R238, R239, R244 to R251). That blocks are read
and stored at acceptance is the model's choice (log entry 19), as is that MATRIX_ADDR comes before CODE_WRITE (log entry 80). -/
def Obligations.MatrixCommands : Prop :=
  (∀ h imm, Does (.mzero h imm) plainSpec (fun x => ownsSlot x ∧ hasRoom x) fun x =>
    { post := acceptCmd x (x.immNat % 4) .zero 0 none }) ∧
  (∀ i n isA addrs, latchAddrs i = some (n, isA, addrs) →
    Does i (descSpec n) (fun x => ownsSlot x ∧ hasRoom x ∧ descOk (x.a n false) ∧
      blocksOk x false (latchReads x isA (addrs (x.a n false)))) (fun x =>
    let as := addrs (x.a n false)
    { post := fun s => acceptCmd x (x.immNat % 4)
        (if isA then .loadA (latchFmt x isA) (latchBlocks x isA as) else .loadB (latchFmt x isA) (latchBlocks x isA as)) 0
        ((latchReads x isA as).findSome? (blockError x false x.s)) (touchBlocks x false (latchReads x isA as) s) }) ∧
    Stops i (descSpec n) (fun x => ownsSlot x ∧ ¬ descOk (x.a n false)) fun x => .trap Cause.illegalOperand (x.a n false / 2 ^ 64 % 2 ^ 64)) ∧
  (∀ h imm, Does (.mmac h imm) plainSpec (fun x => ownsSlot x ∧ ((unit x).projected (x.immNat % 4)).la.loaded = true ∧
      ((unit x).projected (x.immNat % 4)).lb.loaded = true ∧ (unit x).holder = some x.t ∧ (unit x).release = false ∧ hasRoom x) fun x =>
    { post := fun s =>
        let s1 := acceptCmd x (x.immNat % 4) .mac 0 none (s.modMatrix x.c fun y => { y with left := y.left - 1 })
        if (unit x).left ≤ 1 then budgetSpent x.c s1 else s1 }) ∧
  (∀ h a imm, Does (.mstc h a imm) (descSpec 128) (fun x => ownsSlot x ∧ hasRoom x ∧ descOk (x.a 128 false) ∧
      blocksOk x true ((mstcBlocks x).map fun b => (b.1, Blk.memBytes (mfmt (x.immNat / 4 % 4))))) fun x =>
    let rs := (mstcBlocks x).map fun b => (b.1, Blk.memBytes (mfmt (x.immNat / 4 % 4)))
    { post := fun s =>
        let r := storeBlocks x (mfmt (x.immNat / 4 % 4)) (mstcBlocks x) s
        acceptCmd x (x.immNat % 4) .store (convertTile (x.immNat / 4 % 4) (roundingOf x.v.h.rnd x.th) (tileNow x)).2 r.2
          (touchBlocks x true rs r.1) }) ∧
  (∀ h a imm, Does (.mstcQ h a imm) (fun v => { v := v, ra := some 64, wide := 64 })
      (fun x => ownsSlot x ∧ queuedTiles x < 8 ∧ hasRoom x) fun x =>
    { post := acceptCmd x (x.immNat % 4) (.storeQ (x.immNat / 4 % 4) (modeCode (roundingOf x.v.h.rnd x.th))
        (BitVec.ofNat 64 (x.a 64 true))) 0 none }) ∧
  (∀ h a imm, Does (.msave h a imm) (fun v => { v := v, ra := some 64, wide := 64 }) (fun x => ownsSlot x ∧ hasRoom x ∧
      blocksOk x true (((savedAt x).zip ((tileNow x).map BitVec.toNat)).map fun b => (b.1, 200))) fun x =>
    let bs := (savedAt x).zip ((tileNow x).map BitVec.toNat)
    { post := fun s =>
        let r := storeBlocks x .bxa bs s
        acceptCmd x (x.immNat % 4) .save 0 r.2 (touchBlocks x true (bs.map fun b => (b.1, 200)) r.1) }) ∧
  (∀ h a imm, Does (.mrstr h a imm) (fun v => { v := v, ra := some 64, wide := 64 }) (fun x => ownsSlot x ∧ hasRoom x ∧
      blocksOk x false ((savedAt x).map fun a => (a, 200))) fun x =>
    { post := fun s => acceptCmd x (x.immNat % 4) (.restore ((savedAt x).map fun a =>
        BitVec.ofNat 2048 (Blk.clean .bxa (Blk.ofMem .bxa (localBytes x.s x.c a 200))))) 0
        (((savedAt x).map fun a => (a, 200)).findSome? (blockError x false x.s))
        (touchBlocks x false ((savedAt x).map fun a => (a, 200)) s) }) ∧
  (∀ i sp, slotSpec i = some sp → Stops i sp (fun x => ¬ ownsSlot x) fun x => .trap Cause.matrixSlot (x.immNat % 4)) ∧
  (∀ h imm, Stops (.mmac h imm) plainSpec (fun x => ownsSlot x ∧ ¬ latchesLoaded x) fun x => .trap Cause.matrixEmpty (x.immNat % 4)) ∧
  (∀ h imm, Stops (.mmac h imm) plainSpec (fun x => ownsSlot x ∧ latchesLoaded x ∧
    ¬ ((unit x).holder = some x.t ∧ (unit x).release = false)) fun x => .wait 5 (holder x)) ∧
  (∀ h a imm, Stops (.mstcQ h a imm) (fun v => { v := v, ra := some 64, wide := 64 }) (fun x => ownsSlot x ∧ 8 ≤ queuedTiles x)
    fun _ => .wait 5 8) ∧
  (∀ i sp, slotSpec i = some sp →
    (∀ e, Stops i sp (fun x => ownsSlot x ∧ descGood i x ∧ ∃ b, unitBlocks i x = some b ∧ blocksTrap x b.1 b.2 = some e) fun _ => e) ∧
    Stops i sp (fun x => unitReady i x ∧ ¬ hasRoom x) (fun x => .wait 5 (holder x)) ∧
    ∀ e, Stops i sp (fun x => unitReady i x ∧ hasRoom x ∧ ∃ b, unitBlocks i x = some b ∧ blocksWait x b.1 b.2 = some e) fun _ => e) ∧
  (∀ (x : Ctx) (wr : Bool) (rs : List (Nat × Nat)),
    (∀ f, (rs.findSome? fun r => firstRangeFault (x.s.core x.c) (!wr) wr r.1 r.2) = some f → blocksTrap x wr rs = some (.trap f.1 f.2)) ∧
    ((∀ r ∈ rs, firstRangeFault (x.s.core x.c) (!wr) wr r.1 r.2 = none) →
      ((∃ r ∈ rs, ∃ j, j < r.2 ∧ ¬ isLocal x (addrPlus r.1 j)) →
        ∃ a, ¬ isLocal x a ∧ blocksTrap x wr rs = some (.trap Cause.matrixAddr a)) ∧
      ((∀ r ∈ rs, ∀ j, j < r.2 → isLocal x (addrPlus r.1 j)) →
        ((∃ r ∈ rs, ∃ j, j < r.2 ∧ wr = true ∧ inCode (x.s.core x.c) (localOff (x.s.core x.c) (addrPlus r.1 j)) = true) →
          ∃ a, blocksTrap x wr rs = some (.trap Cause.codeWrite a)) ∧
        ((∀ r ∈ rs, ∀ j, j < r.2 → ¬ (wr = true ∧ inCode (x.s.core x.c) (localOff (x.s.core x.c) (addrPlus r.1 j)) = true)) →
          blocksTrap x wr rs = none)))) ∧
  (∀ (x : Ctx) (m : Nat) (op : MOp) (fl : Nat) (err : Option Nat) (s : State),
    let u := acceptCmd x m op fl err s
    u.mem = s.mem ∧ (u.core x.c).threads = (s.core x.c).threads ∧
    ((u.core x.c).mat.cmds.map fun k => (k.id, k.slot, k.mslot, k.op)) =
      ((s.core x.c).mat.cmds.map fun k => (k.id, k.slot, k.mslot, k.op)) ++ [(s.nextId, x.t, m, op)] ∧
    (u.core x.c).mat.slots = (s.core x.c).mat.slots)

/-- MLEASE passes for the holder and waits with reason 5 for others, MRELS gives the array up; MCFG sets the formats and the
slots its mask names once its thread's commands are complete, and traps for a bad word, a slot of another thread and a live slot
it drops; that it tests once and then keeps the free slots it wants is the model's choice (log entry 58). MSTAT reads the status
word. MATRIX_COMMAND_COMPLETE gives a slot the state its first command leaves, MMAC_KSTEP makes the next k-steps on its tile
alone, MATRIX_LEASE_GRANT and LEASE_BUDGET_EXPIRY hand the array on (R239 to R249). -/
def Obligations.MatrixControl : Prop :=
  ((∀ h, Does (.mlease h) plainSpec (fun x => (unit x).holder = some x.t) fun _ => {}) ∧
   (∀ h, Stops (.mlease h) plainSpec (fun x => (unit x).holder ≠ some x.t) fun x => .wait 5 (holder x)) ∧
   (∀ h, Always (.mrels h) plainSpec fun x => { post := releaseArray x.c x.t }) ∧
   (∀ h a, Does (.mcfg h a) mcfgSpec (fun x => (x.mcfgWaits = true ∨ mcfgOk x) ∧ quiet x) mcfgRes) ∧
   (∀ h a, Stops (.mcfg h a) mcfgSpec (fun x => x.mcfgWaits = false ∧ ¬ mcfgWord x) fun x => .trap Cause.illegalOperand (x.a 32 true)) ∧
   (∀ h a m, Stops (.mcfg h a) mcfgSpec
     (fun x => x.mcfgWaits = false ∧ mcfgWord x ∧ busySlot (unit x) x.t (x.a 32 true % 16) = some m) fun _ => .trap Cause.matrixBusy m) ∧
   (∀ h a, Stops (.mcfg h a) mcfgSpec (fun x => x.mcfgWaits = false ∧ mcfgWord x ∧
     busySlot (unit x) x.t (x.a 32 true % 16) = none ∧ x.x = false ∧ mcfgDrops x ≠ 0) fun x => .trap Cause.matrixLive (mcfgDrops x)) ∧
   (∀ h a, Stops (.mcfg h a) mcfgSpec (fun x => (x.mcfgWaits = true ∨ mcfgOk x) ∧ ¬ quiet x) fun x =>
     .waitDo 5 (holder x) (reserveSlots x.c x.t (x.a 32 true % 16))) ∧
   (∀ h d, Always (.mstat h d) (fun v => { v := v, wd := some (opWidth v), wide := opWidth v }) fun x =>
     { writes := writeLoc x.ld x.w (mstatWord x.s x.c x.t) }) ∧
   (∀ (y : Matrix) (t mask m : Nat), m < 4 → 4 ≤ y.slots.length → let z := (configure y t mask).slot m
     (mask.testBit m = true → (y.slot m).owner = some t → z = y.slot m) ∧
     (mask.testBit m = true → (y.slot m).owner ≠ some t → z = { MSlot.empty with owner := some t }) ∧
     (mask.testBit m = false → (y.slot m).owner = some t → z = .empty) ∧
     (mask.testBit m = false → (y.slot m).owner ≠ some t → z = y.slot m)) ∧
   (∀ (c t : Nat) (s : State), (s.core c).mat.holder = some t → (s.core c).mat.macsOf t = 0 →
     ((releaseArray c t s).core c).mat.holder = none)) ∧
  ((∀ (s : State) (c : Nat) (k : MCmd), (s.core c).stopped = false → (s.core c).mat.cmds.find? (fun j => j.id == k.id) = some k →
     (s.core c).mat.isHead k = true → (k.op = .mac → 32 ≤ k.k) → (s.core c).mat.queueWaits k = false → k.err = none →
     4 ≤ (s.core c).mat.slots.length → k.mslot < 4 →
     ∃ u, exec (.matrixCommandComplete c k.id) s = .next u ∧ u.mem = s.mem ∧
       (u.core c).mat.slot k.mslot = ((s.core c).mat.slot k.mslot).completed k ∧
       (u.core c).mat.cmds.map MCmd.id = ((s.core c).mat.cmds.map MCmd.id).filter (· ≠ k.id) ∧
       (∀ t, t ≠ k.slot → (u.core c).thread t = (s.core c).thread t)) ∧
   (∀ (s : State) (c : Nat) (k : MCmd), (s.core c).stopped = false → (s.core c).mat.running = true →
     (s.core c).mat.cmds.find? (fun k => k.op == .mac && k.started && decide (k.k < 32)) = some k →
     k.mslot < (s.core c).mat.slots.length →
     let y := (s.core c).mat.slot k.mslot
     let n := min (macRate y.la y.lb).2 (32 - k.k)
     ∃ u, exec (.mmacKstep c) s = .next u ∧ u.mem = s.mem ∧ (u.core c).threads = (s.core c).threads ∧
       (u.core c).mat.slot k.mslot = { y with tile := (macSteps y.la y.lb n k.k y.tile).1 } ∧
       (∀ m, m ≠ k.mslot → (u.core c).mat.slot m = (s.core c).mat.slot m) ∧
       (u.core c).mat.running = decide (k.k + n < 32)) ∧
   (∀ (s : State) (c t : Nat), (s.core c).mat.holder = none → (s.core c).stopped = false →
     ((List.range 8).map fun j => ((s.core c).mat.last + 1 + j) % 8).find? (waitsArray s c) = some t →
     ∃ u, exec (.matrixLeaseGrant c) s = .next u ∧ u.mem = s.mem ∧ (u.core c).mat.holder = some t ∧ (u.core c).mat.last = t ∧
       (u.core c).mat.left = 64 ∧ (u.core c).mat.granted = s.now ∧ (u.core c).threads = (s.core c).threads ∧
       (s.now + 4096, Instr.leaseBudgetExpiry c) ∈ u.timers) ∧
   (∀ (s : State) (c t : Nat), (s.core c).mat.holder = some t → (s.core c).mat.release = false →
     (s.core c).mat.granted + 4096 ≤ s.now →
     ∃ u, exec (.leaseBudgetExpiry c) s = .next u ∧ u.mem = s.mem ∧ (u.core c).threads = (s.core c).threads ∧
       (otherWaits s c t = false → (u.core c).mat.holder = some t ∧ (u.core c).mat.left = 64 ∧ (u.core c).mat.granted = s.now) ∧
       (otherWaits s c t = true → (s.core c).mat.macsOf t = 0 → (u.core c).mat.holder = none) ∧
       (otherWaits s c t = true → (s.core c).mat.macsOf t ≠ 0 → (u.core c).mat.holder = some t ∧ (u.core c).mat.release = true)))

/-! ## Memory forms -/

namespace Sys2Proof.Stated

/-- A sum of two F32 codes, exact and rounded once with RNE, subnormals kept (R260, R262). -/
def floatSum (m x : Nat) : Nat := (Fp.encode Fp.f32 .rne false (Fp.add .rne (Fp.decode Fp.f32 false m) (Fp.decode Fp.f32 false x))).1

/-- The operands of a memory form: A at 64 bits; D, of an admitted width, is read, written or both. -/
def memoryD (reads writes : Bool) (ok : Nat → Bool) (v : View) : Spec :=
  { v := v, ra := some 64, rd := if reads then some (sliceWidth v.d) else none,
    wd := if writes then some (sliceWidth v.d) else none, wide := sliceWidth v.d, legal := isSlice v.d && ok (sliceWidth v.d) }

/-- D's width and D as it is read. -/
def dWidth (x : Ctx) : Nat := sliceWidth x.v.d
/-- D's bits. -/
def dBits (x : Ctx) : Nat := x.d (dWidth x) true

/-- Operation code of each atomic, as an offset from AADD's, and its widths of D (Table 15.2). -/
def atomics : Instr → Option (Nat × (Nat → Bool))
  | .aadd _ _ _ _ => some (0, fun n => n == 32 || n == 64)
  | .amin _ _ _ _ => some (1, fun n => n == 32 || n == 64)
  | .amax _ _ _ _ => some (2, fun n => n == 32 || n == 64)
  | .aminn _ _ _ _ => some (3, fun n => n == 32 || n == 64)
  | .amaxn _ _ _ _ => some (4, fun n => n == 32 || n == 64)
  | .aand _ _ _ _ => some (5, fun n => n == 32 || n == 64)
  | .aor _ _ _ _ => some (6, fun n => n == 32 || n == 64)
  | .axor _ _ _ _ => some (7, fun n => n == 32 || n == 64)
  | .aswap _ _ _ _ => some (8, fun n => n == 32 || n == 64)
  | .acas _ _ _ _ => some (9, fun n => n == 64 || n == 128)
  | .afadd _ _ _ _ => some (10, fun n => n == 32)
  | _ => none

/-- The memory forms: operands, then operation, bytes, alignment, data and what lands (R258 to R263, R266). -/
def memoryForm : Instr → Option ((View → Spec) × (Ctx → Form))
  | .ld _ _ _ _ => some (memoryD false true fun n => decide (8 ≤ n), fun x =>
      { op := .read, n := dWidth x / 8, land := some (x.ld, dWidth x, .load false (dWidth x), 0) })
  | .st _ _ _ _ => some (memoryD true false fun n => decide (8 ≤ n), fun x =>
      { op := .write, n := dWidth x / 8, data := dBits x })
  | .spill _ _ _ _ => some (memoryD true false fun _ => true, fun x =>
      { op := .write, n := nibbleBytes (dWidth x) x.x, data := dBits x <<< (4 * b2n x.x), low := x.x,
        high := (dWidth x / 4 + b2n x.x) % 2 == 1 })
  | .fill _ _ _ _ => some (memoryD false true fun _ => true, fun x =>
      { op := .read, n := nibbleBytes (dWidth x) x.x, land := some (x.ld, dWidth x, .load x.x (dWidth x), 0) })
  | .redi _ _ _ _ => some (memoryD true false fun n => decide (32 ≤ n), fun x =>
      { op := .redi x.x x.sat, n := dWidth x / 8, align := 4, data := dBits x })
  | .redf _ _ _ _ => some (memoryD true false fun n => decide (32 ≤ n), fun x =>
      { op := .redf, n := dWidth x / 8, align := 4, data := dBits x, logs := b2n x.untracked })
  | .redb _ _ _ _ => some (memoryD true false fun n => (Blk.fmtOf n).isSome, fun x =>
      let fit := Blk.toBxa ((Blk.fmtOf (dWidth x)).getD .bxa) (dBits x)
      { op := .redb (dWidth x), n := 200, align := 8, data := fit.img,
        logs := b2n (x.th.det && x.th.cls = .handler) })
  | i => (atomics i).map fun (op, ok) => (memoryD true true ok, fun x =>
      let n := if op = 9 then dWidth x / 2 else dWidth x
      { op := .atomic op n, n := n / 8, align := n / 8, data := dBits x, logs := if op = 10 then 1 else 0,
        land := some (x.ld, dWidth x, if op = 9 then .acas n else .plain, if op = 9 then dBits x >>> n <<< n else 0) })

/-- The effective address (R151, R256). -/
def effective (x : Ctx) : Nat :=
  let k := if x.v.h.rnd = 1 then 12 else 15
  (x.a 64 false + sext (x.immNat % 2 ^ k) k 64) % 2 ^ 64

/-- The pieces of an access. -/
def piecesFor (x : Ctx) (f : Form) : List Piece := piecesOf x.s x.c (x.access f) x.s.nextId (effective x) f.n

/-- Nothing of R257 stops the access, and nothing holds it. -/
def accessOk (x : Ctx) (f : Form) : Prop := formTrap x f (effective x) = none ∧ accessStop x f (piecesFor x f) = none

/-- The access is done at issue: LOCAL, free to go, and of no word with an uncorrectable error. -/
def atOnce (x : Ctx) (f : Form) : Prop := allDirect x.s x.c (piecesFor x f) = true

/-- The key of byte `j` of a LOCAL access. -/
def byteKey (x : Ctx) (ea j : Nat) : Nat := localKey x.c (localOff (x.s.core x.c) (addrPlus ea j))

/-- Nibble `i` of the byte at a key: bits [3:0] for 0, [7:4] for 1 (R64). -/
def nibbleAt (s : State) (key i : Nat) : Nat := laneAt 4 (Mem.read s.mem key).toNat i

/-- A LOCAL access done at issue: the old bytes land 7 cycles later, and one more for each bank conflict (R258), combined as
their kind has it, and the operation's result is stored. -/
def directRes (x : Ctx) (f : Form) : Res :=
  { land := f.land.map fun (l, w, kind, v0) =>
      { dest := l, w := w, kind := kind, cycles := some (7 + bankHits x (effective x) f.n),
        value := directValue x f (effective x) kind v0 },
    post := fun s => fireData (effective x) f.n f.op.writes x.th.pc (direct x f (effective x) (piecesFor x f) (formLogs f x s)) }

/-- Any other access: its pieces enter the network, and its result lands with the last response. -/
def sentRes (x : Ctx) (f : Form) : Res :=
  { land := f.land.map fun (l, w, kind, v0) => { dest := l, w := w, kind := kind, missing := (piecesFor x f).length, value := v0 },
    pre := fun th => if (piecesFor x f).any fun p => p.det.isSome then { th with detCount := th.detCount + 1 } else th,
    post := fun s => fireData (effective x) f.n f.op.writes x.th.pc
      (sendPieces x.c x.t (if f.land.isSome then some x.s.nextId else none) (piecesFor x f)
        (if f.op.writes then logPages x.c (pagesOf x.s (x.s.asidOf x.c) (piecesFor x f)) (formLogs f x s) else formLogs f x s)) }

/-- A FENCE with PERSIST (R127). -/
def persists (x : Ctx) : Bool := decide (x.immNat % 8 = 7)

/-- The accesses a FENCE waits for (R265): earlier ones of its thread, of its predecessor classes, and at PERSIST every
earlier store and reduction to an edge page (R127), UO ones under the UO kind alone (log entry 86). -/
def awaited (x : Ctx) : List Nat :=
  (x.s.net.filter fun p => p.src == x.s.agent x.c x.t &&
    (fencePred (x.immNat.testBit 3) (x.immNat.testBit 4) (x.v.h.rnd = 1) p ||
      (persists x && p.toEdge && fencePred false true (x.v.h.rnd = 1) p))).map Piece.id

/-- A FENCE under way. -/
def fenceOf (x : Ctx) : Fence :=
  { id := x.s.nextId, tag := x.v.h.atag.toNat, pieces := awaited x, cmds := [], pages := [], succR := x.immNat.testBit 5,
    succW := x.immNat.testBit 6, uo := decide (x.v.h.rnd = 1), persist := persists x, queues := false }

end Sys2Proof.Stated

/-- Every memory form that R257 lets through and nothing holds performs its access: a LOCAL one at issue, its result landing 7
cycles later and one more for each bank conflict, any other through the network. A misaligned atomic or reduction traps
ATOMIC_ALIGN, one on a HOST or MMIO byte ATOMIC_TARGET, a REDB across pages ATOMIC_ALIGN, and what R141, R129, R265 and R116
hold or fail stops. A FENCE with nothing to wait for completes, and any other's tag stays busy until its last awaited access is
gone (R254 to R266). The model's choices among these: a LOCAL access is done at issue (log entry 15), ATOMIC_ALIGN comes before
the causes of the range table (log entry 17), which accesses PERSIST awaits (log entries 26 and 86), and what holds one (log
entry 65). -/
def Obligations.MemoryForms : Prop :=
  (∀ i sp form, memoryForm i = some (sp, form) →
    Does i sp (fun x => accessOk x (form x) ∧ atOnce x (form x)) (fun x => directRes x (form x)) ∧
    Does i sp (fun x => accessOk x (form x) ∧ ¬ atOnce x (form x)) (fun x => sentRes x (form x)) ∧
    Stops i sp (fun x => effective x % (form x).align ≠ 0) (fun x => .trap Cause.atomicAlign (effective x)) ∧
    ∀ cause a, Stops i sp (fun x => effective x % (form x).align = 0 ∧
      firstFault (x.s.core x.c) (!(form x).op.writes) (form x).op.writes (effective x) (form x).n = some (cause, a))
      fun _ => .trap cause a) ∧
  (∀ i sp form, memoryForm i = some (sp, form) →
    Stops i sp (fun x => effective x % (form x).align = 0 ∧
      firstFault (x.s.core x.c) (!(form x).op.writes) (form x).op.writes (effective x) (form x).n = none ∧
      badTarget (x.s.core x.c) (form x) (effective x) = true) (fun x => .trap Cause.atomicTarget (effective x)) ∧
    Stops i sp (fun x => effective x % (form x).align = 0 ∧
      firstFault (x.s.core x.c) (!(form x).op.writes) (form x).op.writes (effective x) (form x).n = none ∧
      badTarget (x.s.core x.c) (form x) (effective x) = false ∧ onePage x.s x.c (form x) (effective x) = false)
      (fun x => .trap Cause.atomicAlign (effective x)) ∧
    ∀ e, Stops i sp (fun x => formTrap x (form x) (effective x) = none ∧
      accessStop x (form x) (piecesFor x (form x)) = some e) fun _ => e) ∧
  (∀ h imm, Does (.fence h imm) plainSpec (fun x => awaited x = [] ∧ persists x = false) fun _ =>
    { land := some { dest := .zero, w := 0, kind := .fence, cycles := some 1 } }) ∧
  (∀ h imm, Does (.fence h imm) plainSpec (fun x => ¬ (awaited x = [] ∧ persists x = false)) fun x =>
    { land := some { dest := .zero, w := 0, kind := .fence, missing := 1 },
      pre := fun th => { th with fences := th.fences ++ [fenceOf x] },
      post := checkFences x.c x.t })

/-- What accesses do to bytes: an ST of LOCAL bytes at issue stores D's bytes, little-endian, and an LD reads them and changes
none (said where nothing is traced, so that no trace frame is written between); SPILL stores D's slices nibble by nibble from
the phase X on and keeps the nibbles it does not cover, and FILL reads them (R64, R266). That a LOCAL access reads and writes at
issue is the model's choice (log entry 15). Atomics and reductions leave Table 15.2's and R262's result where they found the old
one, a floating-point sum rounded once with RNE and a block sum fitted once, and every access performed at a target changes its
own bytes alone (R3, R64, R114, R131, R258 to R262, R266). -/
def Obligations.WhatAccessesDo : Prop :=
  (∀ h d a imm s v, (Instr.st h d a imm).view = some v → MayPerform (memoryD true false (fun n => decide (8 ≤ n)) v) s →
    let x := mkCtx (memoryD true false (fun n => decide (8 ≤ n)) v) s
    let f : Form := { op := .write, n := dWidth x / 8, data := dBits x }
    accessOk x f → atOnce x f → x.stale = 0 → s.myCore.dataHits s.curSlot (effective x) f.n true = [] → Mem.wf s.mem = true →
    (∀ b, (s.traceBlk b).en = false) →
    ∃ t, exec (.st h d a imm) s = .next t ∧
      (∀ k, (∀ j, j < f.n → k ≠ byteKey x (effective x) j) → Mem.read t.mem k = Mem.read s.mem k) ∧
      (∀ j, j < f.n → (∀ i, j < i → i < f.n → byteKey x (effective x) i ≠ byteKey x (effective x) j) →
        Mem.read t.mem (byteKey x (effective x) j) = BitVec.ofNat 8 (dBits x / 2 ^ (8 * j)))) ∧
  (∀ h d a imm s v, (Instr.ld h d a imm).view = some v → MayPerform (memoryD false true (fun n => decide (8 ≤ n)) v) s →
    let x := mkCtx (memoryD false true (fun n => decide (8 ≤ n)) v) s
    let f : Form := { op := .read, n := dWidth x / 8, land := some (x.ld, dWidth x, .load false (dWidth x), 0) }
    accessOk x f → atOnce x f → x.stale = 0 → s.myCore.dataHits s.curSlot (effective x) f.n false = [] →
    (∀ b, (s.traceBlk b).en = false) →
    ∃ t, exec (.ld h d a imm) s = .next t ∧ t.mem = s.mem ∧ ∃ l ∈ t.me.onWay, l.id = s.nextId ∧
      ∀ j, j < f.n → BitVec.ofNat 8 (l.value / 2 ^ (8 * j)) = Mem.read s.mem (byteKey x (effective x) j)) ∧
  (∀ h d a imm s v, (Instr.spill h d a imm).view = some v → MayPerform (memoryD true false (fun _ => true) v) s →
    let x := mkCtx (memoryD true false (fun _ => true) v) s
    let ph := b2n x.x
    let f : Form := { op := .write, n := nibbleBytes (dWidth x) x.x, data := dBits x <<< (4 * ph), low := x.x,
                      high := (dWidth x / 4 + ph) % 2 == 1 }
    accessOk x f → atOnce x f → x.stale = 0 → s.myCore.dataHits s.curSlot (effective x) f.n true = [] → Mem.wf s.mem = true →
    (∀ b, (s.traceBlk b).en = false) →
    ∃ t, exec (.spill h d a imm) s = .next t ∧
      (∀ k, (∀ j, j < f.n → k ≠ byteKey x (effective x) j) → Mem.read t.mem k = Mem.read s.mem k) ∧
      (∀ q, q < 2 * f.n → (∀ i, i < f.n → i ≠ q / 2 → byteKey x (effective x) i ≠ byteKey x (effective x) (q / 2)) →
        nibbleAt t (byteKey x (effective x) (q / 2)) (q % 2) =
          if ph ≤ q ∧ q < dWidth x / 4 + ph then laneAt 4 (dBits x) (q - ph) else nibbleAt s (byteKey x (effective x) (q / 2)) (q % 2))) ∧
  (∀ h d a imm s v, (Instr.fill h d a imm).view = some v → MayPerform (memoryD false true (fun _ => true) v) s →
    let x := mkCtx (memoryD false true (fun _ => true) v) s
    let f : Form := { op := .read, n := nibbleBytes (dWidth x) x.x, land := some (x.ld, dWidth x, .load x.x (dWidth x), 0) }
    accessOk x f → atOnce x f → x.stale = 0 → s.myCore.dataHits s.curSlot (effective x) f.n false = [] →
    (∀ b, (s.traceBlk b).en = false) →
    ∃ t, exec (.fill h d a imm) s = .next t ∧ t.mem = s.mem ∧ ∃ l ∈ t.me.onWay, l.id = s.nextId ∧
      ∀ j, j < dWidth x / 4 →
        laneAt 4 l.value j = nibbleAt s (byteKey x (effective x) ((j + b2n x.x) / 2)) ((j + b2n x.x) % 2)) ∧
  (∀ n m x : Nat, m < 2 ^ n → x < 2 ^ n → 0 < n →
    atomicNew 0 n m x = some ((m + x) % 2 ^ n) ∧
    (∃ r, atomicNew 1 n m x = some r ∧ val r n true = min (val m n true) (val x n true)) ∧
    (∃ r, atomicNew 2 n m x = some r ∧ val r n true = max (val m n true) (val x n true)) ∧
    atomicNew 3 n m x = some (min m x) ∧ atomicNew 4 n m x = some (max m x) ∧ atomicNew 5 n m x = some (m &&& x) ∧
    atomicNew 6 n m x = some (m ||| x) ∧ atomicNew 7 n m x = some (m ^^^ x) ∧ atomicNew 8 n m x = some x ∧
    (∀ y, y < 2 ^ n → atomicNew 9 n m (x + y * 2 ^ n) = if m = x then some y else none) ∧
    atomicNew 10 n m x = some (floatSum m x)) ∧
  (∀ (low high : Bool) (n m x j : Nat), j < n / 4 →
    ∃ r, opResult .redf n x m low high = some r ∧ laneAt 32 r j = floatSum (laneAt 32 m j) (laneAt 32 x j) % 2 ^ 32) ∧
  (∀ (low high : Bool) (w m x : Nat), opResult (.redb w) 200 x m low high = some (Blk.bxaAdd (Blk.clean .bxa m) x).img) ∧
  (∀ a b : Nat, Blk.bxaAdd a b = Blk.bxaFit (List.zipWith Blk.addE (Blk.dec .bxa a).vs (Blk.dec .bxa b).vs)
    (min (Blk.expOf .bxa a) (Blk.expOf .bxa b)) (Blk.flOf .bxa a ||| Blk.flOf .bxa b)) ∧
  (∀ (natural sat low high : Bool) (n m x j : Nat), j < n / 4 →
    ∃ r, opResult (.redi natural sat) n x m low high = some r ∧
      laneAt 32 r j = truncI (let v := val (laneAt 32 m j) 32 (!natural) + val (laneAt 32 x j) 32 (!natural)
        if sat = true then clampTo 32 (!natural) v else v) 32) ∧
  (∀ (s : State) (k : Nat) (p : Piece), Mem.wf s.mem = true →
    (p.apply s k).2 = loadN s k p.len ∧ Mem.wf (p.apply s k).1.mem = true ∧
    (∀ a, a < k ∨ k + p.len ≤ a → Mem.read (p.apply s k).1.mem a = Mem.read s.mem a) ∧
    (p.result (loadN s k p.len) = none → (p.apply s k).1 = s) ∧
    ∀ r j, p.result (loadN s k p.len) = some r → j < p.len →
      Mem.read (p.apply s k).1.mem (k + j) = BitVec.ofNat 8 (r / 2 ^ (8 * j)))

/-! ## The copy engine, trees and collectives -/

namespace Sys2Proof.Stated

/-- The engine commands: CPY, CPYR, SORTK (R289 to R291). -/
def engineKind : Instr → Option Nat
  | .cpy _ _ _ _ => some 0
  | .cpyr _ _ _ _ => some 1
  | .sortk _ _ _ _ => some 2
  | _ => none

/-- The operands of an engine command: a descriptor of 512 bits, a status of 64. -/
def engineSpec (v : View) : Spec :=
  { v := v, ra := some 512, wd := some 64, wide := 512, legal := namedA v.a 512 && namedD v.d 64 }

/-- The executing core's engine queue that imm15 names. -/
def engineQueue (x : Ctx) : EngQueue := (x.s.core x.c).engQueue (x.immNat % 4)

/-- A descriptor's EV. -/
def wantsEvent (x : Ctx) : Bool := (x.a 512 false).testBit 387

/-- A command has a result to land. -/
def landsStatus (x : Ctx) : Bool := isSlice x.v.d || x.v.h.atag ≠ 0

/-- R285 and R287 let a command in. -/
def engineOk (kind : Nat) (x : Ctx) : Prop :=
  badDescr kind (x.a 512 false) = false ∧ (wantsEvent x = true → x.th.credits ≠ 0) ∧ fenceStop x.th true true false = none ∧
  (engineQueue x).cmds.length < 16

/-- Commands a QFENCE waits for. -/
def queuedBefore (x : Ctx) : List Nat :=
  (List.range 4).flatMap fun q => if x.immNat.testBit q then ((x.s.core x.c).engQueue q).cmds.map EngCmd.id else []

/-- A QFENCE under way. -/
def qfenceOf (x : Ctx) : Fence :=
  { id := x.s.nextId, tag := x.v.h.atag.toNat, pieces := [], cmds := queuedBefore x, pages := [], succR := true,
    succW := true, uo := true, persist := false, queues := true }

/-- The operands of RTREE. -/
def rtreeSpec (v : View) : Spec :=
  { v := v, ra := some 256, wd := some 64, wide := 256, legal := namedA v.a 256 && namedD v.d 64 }

/-- What bars the table's read. -/
def tableBar (x : Ctx) : Option (Nat × Reach) := x.barred (x.a 256 false % 2 ^ 64) (8 * (x.a 256 false / 2 ^ 64 % 2 ^ 32))

/-- The table's read ends now: readable, after the accesses it waits for, or unreadable for good, as a page whose fill has failed
is (R125, R296). -/
def tableEnds (x : Ctx) : Prop :=
  (tableBar x = none ∧ blocksWait x false [(x.a 256 false % 2 ^ 64, 8 * (x.a 256 false / 2 ^ 64 % 2 ^ 32))] = none) ∨
  ∃ a r, tableBar x = some (a, r) ∧ r ≠ .later ∧ (x.th.blockErr = true ∨ ∀ e q l, r ≠ .page e q l)

/-- RTREE's node table, as far as it reads one, and ERR of its check (R296). -/
def rtreeTable (x : Ctx) : List (Nat × Nat) :=
  if tableBar x = none then treeTable (x.block (x.a 256 false % 2 ^ 64) (8 * (x.a 256 false / 2 ^ 64 % 2 ^ 32))) else []
/-- The core index under which the table has the executing core (R49; log entry 90). -/
def rtreeHome (x : Ctx) : Nat := indexOf x.s (x.s.occ x.c).launch x.c (rtreeTable x)
/-- TREE of the descriptor. -/
def rtreeId (x : Ctx) : Nat := x.a 256 false / 2 ^ 96 % 2 ^ 4
/-- ERR. -/
def rtreeErr (x : Ctx) : Nat :=
  if tableBar x = none then treeErr (rtreeTable x) (rtreeHome x) ((x.s.core x.c).node (rtreeId x)).isSome else 1
/-- The node RTREE installs, its timeouts suspended while a member is out (R297). -/
def rtreeNode (x : Ctx) : TreeNode :=
  (newNode (x.a 256 false) (rtreeTable x) (rtreeHome x)).onInstall x.s (x.s.occ x.c).launch

/-- The machine after RTREE has read its table (R340). -/
def tableRead (x : Ctx) (s : State) : State :=
  (if tableBar x = none then x.touched [(x.a 256 false % 2 ^ 64, 8 * (x.a 256 false / 2 ^ 64 % 2 ^ 32))] s else s).fresh.2

/-- The width at which RSEND reads its contribution for a tree of a WIRE (R298): a block operand's own, else what ZERO or a port
stands for. -/
def sendWidth (wire : Nat) (v : View) : Nat := blockWidth v.a (if wire = 2 then 1024 else opWidth v)
/-- The operands of RSEND to a tree of a WIRE. -/
def treeSendSpec (wire : Nat) (v : View) : Spec :=
  { v := v, ra := some (sendWidth wire v), wd := some (opWidth v), wide := sendWidth wire v, legal := sendWidth wire v ≠ 0 }
/-- The operands of RWAIT. -/
def rwaitSpec (v : View) : Spec := { v := v, wd := some (sliceWidth v.d), wide := sliceWidth v.d, legal := isSlice v.d }

/-- The width of a tree's results: a BXA block, a BX16 block or F32 lanes (R302). -/
def resultSize (wire : Nat) : Nat := if wire = 0 then 2048 else 1024

/-- The node of a tree on the executing core. -/
def nodeOf (x : Ctx) (n : TreeNode) : Prop := (x.s.core x.c).node (x.immNat % 8) = some n
/-- The executing core has no node of the tree, and the tree is not aborted there. -/
def noTree (x : Ctx) : Prop := (x.s.core x.c).node (x.immNat % 8) = none ∧ (x.s.core x.c).treeAborted (x.immNat % 8) = false

/-- A message is the first of its way, and its core takes it now (R297). -/
def reaches (s : State) (m : TreeMsg) (c : Nat) : Prop :=
  s.treeMsgs.find? (fun x => x.id == m.id) = some m ∧ s.treeMsgs.find? (fun x => x.sameWay m) = some m ∧
  remoteTest s m.launch m.core = .go c

/-- The network without a message. -/
def without (s : State) (m : TreeMsg) : State := { s with treeMsgs := s.treeMsgs.filter fun x => x.id ≠ m.id }

/-- The operands of BDISP. -/
def bdispSpec (v : View) : Spec :=
  { v := v, ra := some 64, wd := some 32, wide := 64, legal := namedA v.a 64 && isSlice v.d && sliceWidth v.d == 32 }

/-- BDISP's stream. -/
def dispatchStream (x : Ctx) : Nat := 4 * (x.a 64 false % 64) + x.a 64 false / 64 % 4

/-- The operands of COLL, COLLW and TWAIT. -/
def collSpec (v : View) : Spec :=
  { v := v, ra := some 64, wd := some (opWidth v), wide := max 64 (opWidth v), legal := namedA v.a 64 }
/-- The operands of COLLW. -/
def collwSpec (v : View) : Spec :=
  { v := v, ra := some 32, wd := some 64, wide := 64, legal := namedA v.a 32 && namedD v.d 64 }

/-- COLL's block, its member array and its tree. -/
def collBlock (x : Ctx) : List Byte := x.block (x.a 64 false) 256
/-- The member array. -/
def collMembers (x : Ctx) : List Byte := x.block (Exch.memb (collBlock x)) (8 * Exch.count (collBlock x))

/-- The runs a member reads for step 0: its source, unless it comes by the outbound queue, and its residuals (R305, R355). -/
def sourceRuns (x : Coll) : List (Nat × Nat) :=
  (if Exch.srcq x.block = true then [] else [(Exch.src x.block, srcBytes x)]) ++ [(Exch.res x.block, x.restBytes)]

/-- What they hold. -/
def sourceData (s : State) (c : Nat) (x : Coll) : List Byte :=
  (if Exch.srcq x.block = true then x.queueBytes else
    readVia s c (x.master s) (s.desc x.src.launch).asid (Exch.src x.block) (srcBytes x)) ++
  readVia s c (x.master s) (s.desc x.src.launch).asid (Exch.res x.block) x.restBytes

/-- The machine after a member has read its source and residuals (R340). -/
def sourceRead (s : State) (c : Nat) (x : Coll) : State := x.touched c false (sourceRuns x) s

/-- A block, member array and tree that R347 admits, readable now, with a credit and fewer than 4 collectives running. -/
def collOk (x : Ctx) : Prop :=
  x.a 64 false % 64 = 0 ∧ blockStop x (x.a 64 false) 256 = none ∧ blockFault x (x.a 64 false) 256 = none ∧
  Exch.badBlock (collBlock x) = false ∧ blockStop x (Exch.memb (collBlock x)) (8 * Exch.count (collBlock x)) = none ∧
  blockFault x (Exch.memb (collBlock x)) (8 * Exch.count (collBlock x)) = none ∧
  ∀ e ∈ collStops x (x.a 64 false) (collBlock x) (collMembers x), e = none

end Sys2Proof.Stated

/-- CPY, CPYR and SORTK with an admitted descriptor enter their queue, and their status lands when they complete; a descriptor
R287 refuses traps. QFENCE waits for the commands of the queues it names, ENGST reads a queue's word. ENGINE_COMMAND_COMPLETE
performs a queue's first command part by part, a CPY row by row where no destination byte is a source byte, in runs within 64
KiB units; a part that fails ends it with its error and halts the queue, and on a halted queue it fails it with ERR 8; the
status word of Table 17.5 then lands in D (R285 to R294). The parts in runs within 64 KiB units, and that a command goes on from
the part that was barred, are the model's choice (log entry 20), as is that EVQ_FULL comes before the wait for room (log entry
80). -/
def Obligations.CopyEngine : Prop :=
  (∀ i kind, engineKind i = some kind →
    Does i engineSpec (engineOk kind) (fun x =>
      { land := if landsStatus x then some { dest := x.ld, w := 64, missing := 1 } else none,
        pre := fun th => if wantsEvent x then { th with credits := th.credits - 1 } else th,
        post := acceptEng x kind (x.immNat % 4) (x.a 512 false) (if landsStatus x then some x.s.nextId else none) }) ∧
    Stops i engineSpec (fun x => badDescr kind (x.a 512 false) = true) (fun x =>
      .trap Cause.illegalOperand (x.a 512 false / 2 ^ 384 % 2 ^ 64)) ∧
    Stops i engineSpec (fun x => badDescr kind (x.a 512 false) = false ∧ wantsEvent x = true ∧ x.th.credits = 0)
      fun _ => .trap Cause.evqFull 0) ∧
  (∀ (s : State) (c q err a id : Nat) (x : EngCmd) (l : Landing), x.slot < (s.core c).threads.length → x.land = some id →
    (s.thread c x.slot).landing? id = some l → l.landed = false → (∀ p w, l.dest ≠ .port p w) → (s.thread c x.slot).drowsy = false →
    (∀ t, ((s.core c).thread t).fences = []) → err < 2 ^ 8 →
    let l1 := { l with missing := 0, value := err * 2 ^ 16 + x.seq.toNat * 2 ^ 32 }
    let u := finishEng c q x err a s
    (u.thread c x.slot).allWritten = ((s.thread c x.slot).allWritten &&& ~~~l1.cover) ||| (l1.image &&& l1.cover) ∧
    (u.thread c x.slot).onWay = (s.thread c x.slot).onWay.filter (fun m => m.id ≠ id) ∧ u.mem = s.mem) ∧
  (∀ h imm, Does (.qfence h imm) plainSpec (fun x => queuedBefore x = []) fun _ =>
    { land := some { dest := .zero, w := 0, kind := .fence, cycles := some 1 } }) ∧
  (∀ h imm, Does (.qfence h imm) plainSpec (fun x => queuedBefore x ≠ []) fun x =>
    { land := some { dest := .zero, w := 0, kind := .fence, missing := 1 },
      pre := fun th => { th with fences := th.fences ++ [qfenceOf x] } }) ∧
  (∀ h d imm, Always (.engst h d imm) (fun v => { v := v, wd := some (opWidth v), wide := opWidth v, legal := isSlice v.d }) fun x =>
    { writes := writeLoc x.ld x.w ((engineQueue x).word (x.immNat % 4)),
      post := fun s => if x.immNat.testBit 2 then clearEng x.c (x.immNat % 4) s else s }) ∧
  (∀ (x : Ctx) (kind q d : Nat) (land : Option Nat) (s : State), q < (s.core x.c).eng.length →
    ((acceptEng x kind q d land s).core x.c).engQueue q =
      { (s.core x.c).engQueue q with
        cmds := ((s.core x.c).engQueue q).cmds ++ [({ id := s.nextId, slot := x.t, kind := kind, descr := BitVec.ofNat 512 d, seq := ((x.s.core x.c).engQueue q).next, land := land, ev := d.testBit 387, pc := x.th.pc, lvl := x.th.level, after := localOut s x.c x.t, fill := none, ioErr := false, done := 0, buf := [], up := s.choose.1 } : EngCmd)],
        next := ((s.core x.c).engQueue q).next + 1 }) ∧
  (∀ (s : State) (c q : Nat) (x : EngCmd) (rest : List EngCmd), q < (s.core c).eng.length →
    ((s.core c).engQueue q).cmds = x :: rest → (∀ y ∈ rest, y.id ≠ x.id) → (s.core c).stopped = false →
    (s.core c).owner.isSome = true → stillOut s x.after = false → (s.core c).logIdx ≤ 254 →
    (∀ t, ((s.core c).thread t).fences = []) →
    let done := runSteps c x ((engSteps c x).drop x.done) x.done x.buf s
    ((s.core c).engQueue q).halt = true ∨ done.2.2.2 = none ∨ (∃ a cause, done.2.2.2 = some (a, .fails cause)) →
    ∃ u, exec (.engineCommandComplete c q) s = .next u ∧ ((u.core c).engQueue q).cmds = rest ∧
      ((u.core c).engQueue q).last = x.seq ∧
      (∃ err a s1, (rest = [] → u = finishEng c q x err a s1) ∧
        (rest ≠ [] → u = (finishEng c q x err a s1).later (.engineCommandComplete c q)) ∧
        (((s.core c).engQueue q).halt = true → err = 8 ∧ s1 = s) ∧
        (((s.core c).engQueue q).halt = false → done.2.2.2 = none → err = 0) ∧
        ∀ b cause, ((s.core c).engQueue q).halt = false → done.2.2.2 = some (b, .fails cause) → err = engErr cause ∧ a = b) ∧
      (((s.core c).engQueue q).halt = true → ((u.core c).engQueue q).halt = true ∧ ((u.core c).engQueue q).errLast = 8 ∧ u.mem = s.mem) ∧
      (((s.core c).engQueue q).halt = false → done.2.2.2 = none → ((u.core c).engQueue q).halt = false ∧
        ((u.core c).engQueue q).errLast = 0) ∧
      (((s.core c).engQueue q).halt = false → ∀ a cause, done.2.2.2 = some (a, .fails cause) → ((u.core c).engQueue q).halt = true ∧
        ((u.core c).engQueue q).errLast = engErr cause) ∧
      (((s.core c).engQueue q).halt = false → edgeSpan (done.1.core c) ((engSteps c x).take done.2.1) = none → u.mem = done.1.mem)) ∧
  (∀ (c : Nat) (x : EngCmd), x.kind = 0 → rowsMeet x.descr.toNat = false →
    engSteps c x = (engRows x.descr.toNat).flatMap fun r => readRuns c x true r.1 (x.descr.toNat / 2 ^ 128 % 2 ^ 32) ++
      writeRuns c x id r.2 (x.descr.toNat / 2 ^ 128 % 2 ^ 32)) ∧
  (∀ (c : Nat) (x : EngCmd) (new : Bool) (a n : Nat), ∀ p ∈ readRuns c x new a n, ∃ b off k, (b, off, k) ∈ pageRuns a n ∧
    p.touches = [(false, b, k)] ∧ ∀ buf s, (p.act buf s).2 =
      (if new = true ∧ off = 0 then [] else buf) ++ readVia s c (x.master s c) (s.asidOf c) b k) ∧
  (∀ (c : Nat) (x : EngCmd) (f : List Byte → List Byte) (a n : Nat), ∀ p ∈ writeRuns c x f a n, ∃ b off k, (b, off, k) ∈ pageRuns a n ∧
    p.touches = [(true, b, k)] ∧ ∀ buf s, (p.act buf s).2 = buf ∧ ((∀ g, (s.traceBlk g).en = false) →
      (p.act buf s).1.mem = (writeVia c (x.master s c) (s.asidOf c) b (((f buf).drop off).take k) s).mem)) ∧
  (∀ a n, ((pageRuns a n).map fun r => r.2.2).sum = n ∧
    ∀ r ∈ pageRuns a n, 0 < r.2.2 ∧ r.2.1 + r.2.2 ≤ n ∧ r.1 % 2 ^ 64 = (a + r.2.1) % 2 ^ 64 ∧ r.1 % 2 ^ 16 + r.2.2 ≤ 2 ^ 16)

/-- RTREE checks its table and installs the node where ERR is 0, with its status landing later; RSEND gives the node its next
block's contribution, RWAIT takes the oldest result, RABORT ends the tree here and at its members; a tree neither installed nor
aborted traps TREE_STATE. BDISP hands out a stream's next index. The messages of a tree, taken in order, do what R299 to R303
say, waiting for a node not yet installed, and a fold combines own block and children's in entry order, marking what it lacks
(R295 to R306). An entry of a table names a core as any core index of its launch does (R49); the first that names the executing
one is its own, which is the model's choice (log entry 90). The status of a table that is not read, or has no one node of this
core, is partly free (log entry 56); an aborted tree's WIRE, and the messages it still meets, are as log entry 22 has them, and
the waits of 1 and 1,000 cycles are the model's choice (log entry 66). -/
def Obligations.ReductionTrees : Prop :=
  (∀ h d a, Does (.rtree h d a) rtreeSpec (fun x => badTree (x.a 256 false) = false ∧ tableEnds x) fun x =>
    { land := some { dest := x.ld, w := 64, value := treeStatus (rtreeErr x) (rtreeTable x) (rtreeHome x) (Config.freeWord x.s.freeCount).toNat },
      post := fun s => (if rtreeErr x = 0 then setTree x.c (rtreeId x) (.installed (rtreeNode x)) (tableRead x s) else tableRead x s).later
        (.resultLanding x.c x.t x.s.nextId) }) ∧
  (∀ (s : State) (l c : Nat) (tab : List (Nat × Nat)),
    ((∃ p ∈ tab, s.names l p.1 c = true) → ∃ p ∈ tab, indexOf s l c tab = p.1 ∧ s.names l p.1 c = true) ∧
    ((∀ p ∈ tab, s.names l p.1 c = false) → indexOf s l c tab = s.homeOf c)) ∧
  (∀ (s : State) (l e c : Nat), s.names l e c = true ↔ s.resolve l e = .physical c ∨ ∃ b i x y, s.resolve l e = .member b i ∧
    s.launch? l = some x ∧ s.bunch? l b = some y ∧ coreOfIndex y.x y.y x.desc.w i = c) ∧
  (∀ h d a, Stops (.rtree h d a) rtreeSpec (fun x => badTree (x.a 256 false) = true) fun x =>
    .trap Cause.illegalOperand (x.a 256 false / 2 ^ 64 % 2 ^ 64)) ∧
  (∀ tab home free, treeStatus 0 tab home free % 2 ^ 8 = 0 ∧ treeStatus 0 tab home free / 2 ^ 32 = treeDepth tab % 2 ^ 32 ∧
    ((tab.countP fun p => p.1 == home) = 1 →
      treeStatus 0 tab home free / 2 ^ 24 % 2 ^ 8 = (childrenOf tab (tab.findIdx fun p => p.1 == home)).length % 2 ^ 8)) ∧
  (∀ tab home free err, err < 2 ^ 8 → treeStatus err tab home free % 2 ^ 24 = err) ∧
  (∀ tab home busy, treeErr tab home busy = 0 ↔
    (tab.countP fun p => p.2 == noParent) = 1 ∧ (∀ e < tab.length, depthOf tab tab.length e ≠ none) ∧
    (∃ p ∈ tab, p.1 = home) ∧ (∀ p ∈ tab, p.1 ≤ 86015) ∧ (tab.map Prod.fst).Nodup ∧
    (childrenOf tab (tab.findIdx fun p => p.1 == home)).length ≤ 16 ∧ busy = false) ∧
  (∀ h d a imm n, Does (.rsend h d a imm) (treeSendSpec n.wire) (fun x => nodeOf x n ∧ contribWidth n.wire (sendWidth n.wire x.v) = true ∧
      n.contribs.length < 8) fun x =>
    { writes := writeLoc x.ld x.w n.nextSend,
      flags := (contribution n.wire (sendWidth n.wire x.v) (x.a (sendWidth n.wire x.v) true)).2,
      post := fun s => contribute x.c (x.immNat % 8) (sendWidth n.wire x.v) (x.a (sendWidth n.wire x.v) true) n (outstanding s x.c x.t) s }) ∧
  (∀ h d a imm n, Stops (.rsend h d a imm) (treeSendSpec n.wire)
    (fun x => nodeOf x n ∧ contribWidth n.wire (sendWidth n.wire x.v) = false) fun x => .trap Cause.illegalOperand (viewLow64 x.v)) ∧
  (∀ h d a imm n, Stops (.rsend h d a imm) (treeSendSpec n.wire)
    (fun x => nodeOf x n ∧ contribWidth n.wire (sendWidth n.wire x.v) = true ∧ 8 ≤ n.contribs.length) fun _ => .wait 1 0) ∧
  (∀ h d a imm, Stops (.rsend h d a imm) (treeSendSpec 0) (fun x => (x.s.core x.c).node (x.immNat % 8) = none)
    fun x => .trap Cause.treeState (x.immNat % 8)) ∧
  (∀ h d imm, Does (.rwait h d imm) rwaitSpec (fun x =>
      (∃ n, nodeOf x n ∧ n.receives = true ∧ sliceWidth x.v.d = resultSize n.wire) ∨
      ((x.s.core x.c).node (x.immNat % 8) = none ∧
        ∃ w, (x.s.core x.c).abortedWire (x.immNat % 8) = some w ∧ sliceWidth x.v.d = resultSize w)) fun x =>
    { land := some { dest := x.ld, w := sliceWidth x.v.d, kind := .rwait (x.immNat % 8), missing := 1 },
      post := fun s => if (s.core x.c).treeAborted (x.immNat % 8) then landAborted x.c (x.immNat % 8) s
        else kickTree x.c (x.immNat % 8) s }) ∧
  (∀ h d imm, Stops (.rwait h d imm) rwaitSpec (fun x =>
      (∃ n, nodeOf x n ∧ n.receives = true ∧ sliceWidth x.v.d ≠ resultSize n.wire) ∨
      ((x.s.core x.c).node (x.immNat % 8) = none ∧
        ∃ w, (x.s.core x.c).abortedWire (x.immNat % 8) = some w ∧ sliceWidth x.v.d ≠ resultSize w))
    fun x => .trap Cause.illegalOperand (viewLow64 x.v)) ∧
  (∀ h d imm, Stops (.rwait h d imm) rwaitSpec (fun x => noTree x ∨ ∃ n, nodeOf x n ∧ n.receives = false)
    fun x => .trap Cause.treeState (x.immNat % 8)) ∧
  (∀ h imm n, Does (.rabort h imm) plainSpec (fun x => nodeOf x n) fun x =>
    { post := abortAll x.c (x.s.occ x.c).launch (x.immNat % 8) n }) ∧
  (∀ h imm, Does (.rabort h imm) plainSpec
    (fun x => (x.s.core x.c).node (x.immNat % 8) = none ∧ (x.s.core x.c).treeAborted (x.immNat % 8) = true) fun _ => {}) ∧
  (∀ h imm, Stops (.rabort h imm) plainSpec noTree fun x => .trap Cause.treeState (x.immNat % 8)) ∧
  (∀ h d a, Does (.bdisp h d a) bdispSpec (fun x => x.a 64 false < 2 ^ 8 ∧ pressCore (x.a 64 false % 64) x.c = true) fun x =>
    let y := x.s.stream (dispatchStream x)
    { land := some { dest := x.ld, w := 32, value := if y.next < y.stop then y.next else 0xFFFFFFFF },
      post := fun s => ({ s with press := s.press.set (dispatchStream x) { y with next := if y.next < y.stop then y.next + 1 else y.next } } : State).later
          (.resultLanding x.c x.t x.s.nextId) }) ∧
  (∀ h d a, Stops (.bdisp h d a) bdispSpec (fun x => x.a 64 false < 2 ^ 8 ∧ pressCore (x.a 64 false % 64) x.c = false) fun x =>
    .trap Cause.accessPerm (x.a 64 false)) ∧
  (∀ h d a, Stops (.bdisp h d a) bdispSpec (fun x => 2 ^ 8 ≤ x.a 64 false) fun x => .trap Cause.illegalOperand (viewLow64 x.v)) ∧
  (∀ (s : State) (m : TreeMsg) (c : Nat) (n : TreeNode) (p : TreePart), reaches s m c → m.what = .part p →
    (s.core c).node m.tree = some n →
    (∀ e, n.nextFold ≤ p.blk → n.childAt s m.launch m.at_ = some e → exec (.treePartialArrival m.id) s = .next (kickTree c m.tree
      (startTimer c m.tree p.blk (setTree c m.tree (.installed { n with parts := n.parts ++ [{ p with src := e }] }) (without s m))))) ∧
    (p.blk < n.nextFold ∨ n.childAt s m.launch m.at_ = none → exec (.treePartialArrival m.id) s = .next (without s m))) ∧
  (∀ (s : State) (l core e : Nat) (n : TreeNode), n.childAt s l core = some e → e ∈ n.children ∧ s.names l (n.coreOf e) core = true) ∧
  (∀ (s : State) (m : TreeMsg) (c : Nat) (n : TreeNode) (b w : Nat), reaches s m c → m.what = .rack b w →
    (s.core c).node m.tree = some n →
    exec (.treeRackWordArrival m.id) s = .next (kickTree c m.tree (sendDown c m.launch m.tree n (.rack b w)
      (setTree c m.tree (.installed { n with racks := Tbl.set n.racks b w }) (without s m))))) ∧
  (∀ (s : State) (m : TreeMsg) (c : Nat) (n : TreeNode) (r : TreeResult), reaches s m c → m.what = .result r →
    (s.core c).node m.tree = some n →
    (n.queue.length < 8 → exec (.treeResultDelivery m.id) s = .next (kickTree c m.tree (sendDown c m.launch m.tree n (.result r)
      (setTree c m.tree (.installed { n with queue := n.queue ++ [r] }) (without s m))))) ∧
    (8 ≤ n.queue.length → exec (.treeResultDelivery m.id) s = .next (s.after 1000 (.treeResultDelivery m.id)))) ∧
  (∀ (s : State) (m : TreeMsg) (c : Nat), reaches s m c → (∀ w, m.what ≠ .abort w) → (s.core c).node m.tree = none →
    ((s.core c).treeAborted m.tree = false → exec (m.what.event m.id) s = .next (s.after 1000 (m.what.event m.id))) ∧
    ((s.core c).treeAborted m.tree = true → exec (m.what.event m.id) s = .next (without s m))) ∧
  (∀ (s : State) (m : TreeMsg) (c w : Nat), reaches s m c → m.what = .abort w →
    ∃ u, exec (.treeAbortArrival m.id) s = .next u ∧ (u.core c).abortedWire m.tree = some w ∧
      u.treeMsgs = s.treeMsgs.filter (fun x => x.id ≠ m.id) ∧ u.mem = s.mem) ∧
  (∀ (s : State) (c k blk : Nat), let u := kickTree c k s
    ((∀ n, (u.core c).node k = some n → ∀ p ∈ n.contribs, p.blk = blk → stillOut u p.after = false) →
      exec (.treeTimeout c k blk) s = .next u) ∧
    (∀ n, (u.core c).node k = some n → (∃ p ∈ n.contribs, p.blk = blk ∧ stillOut u p.after = true) →
      exec (.treeTimeout c k blk) s = .next (u.after 1 (.treeTimeout c k blk)))) ∧
  (∀ (s : State) (n : TreeNode), mayFold s n = true ↔
    (((∃ p, n.ownPart s n.nextFold = some p) ∧ ∀ e ∈ n.children, ∃ p, n.childPart n.nextFold e = some p) ∨
      (n.pausedAt = none ∧ ∃ t ∈ n.timers, t.1 = n.nextFold ∧ t.2 ≤ s.now)) ∧
    (n.wire = 1 → n.dist ≤ n.nextFold → ∃ w, Tbl.find? n.racks (n.nextFold - n.dist) = some w) ∧
    (n.receives = true → n.queue.length < 8)) ∧
  (∀ (s : State) (n : TreeNode) (own : TreePart) (kids : List TreePart), n.ownPart s n.nextFold = some own →
    own.inc = false → own.missing = [] → n.children.map (n.childPart n.nextFold) = kids.map some →
    (∀ p ∈ kids, p.inc = false ∧ p.missing = []) → n.wire ≠ 1 →
    (n.fold s).inc = false ∧ (n.fold s).missing = [] ∧ (n.fold s).blk = n.nextFold ∧ (n.fold s).src = n.me ∧
    (n.fold s).img = BitVec.ofNat 2048 ((kids.map fun p => p.img.toNat).foldl (fun m y =>
      if n.wire = 2 then redLanes f32Sum 128 m y else (Blk.bxaAdd m y).img) own.img.toNat)) ∧
  (∀ (s : State) (n : TreeNode), n.ownPart s n.nextFold = none ∨ (∃ e ∈ n.children, n.childPart n.nextFold e = none) →
    (n.fold s).inc = true ∧ (n.ownPart s n.nextFold = none → n.me ∈ (n.fold s).missing) ∧
    (∀ e ∈ n.children, n.childPart n.nextFold e = none → ∀ j ∈ subtree n.table e, j ∈ (n.fold s).missing) ∧
    (n.wire = 0 → Blk.flOf .bxa (n.fold s).img.toNat / 4 % 2 = 1) ∧
    (n.wire = 1 → Blk.flOf .bx16 (n.fold s).img.toNat / 4 % 2 = 1)) ∧
  (∀ (s : State) (n : TreeNode), n.wire = 1 →
    ((n.fold s).rq ≤ n.nextEcur → (n.fold s).rq = n.kidRq n.nextFold) ∧
    (n.result (n.fold s)).2 = max n.nextEcur (max (n.fold s).rq (n.kidRq n.nextFold)) ∧
    ((n.result (n.fold s)).1.rack = true ↔ n.nextEcur < (n.result (n.fold s)).2)) ∧
  (∀ (n : TreeNode), n.nextEcur = if n.nextFold < n.dist then n.e0 else max n.ecur (Tbl.get n.racks (n.nextFold - n.dist) 0))

/-- COLL with a block, members and tree R347 admits submits a collective under the thread's next number and takes a credit;
COLLW lands its status word once it has completed, and TWAIT passes at its wafer time. Steps start at their slots, packets are
compared by their hash (ERR 1), a silent member ends it (ERR 3), and an ended collective writes neither DST nor RES (R305, R307,
R347, R351, R352, R358 to R360). That a TWAIT which has waited is not late is the model's choice (log entry 24), as are the
waits of 1 and 1,000 cycles (log entry 66). -/
def Obligations.CollectivesRun : Prop :=
  (∀ h d a, Does (.coll h d a) collSpec collOk fun x =>
    { writes := writeLoc x.ld x.w x.th.collNum.toNat,
      post := fun s => submitColl x (x.a 64 false) (collBlock x) (collMembers x)
        (x.block (Exch.tree (collBlock x)) (8 * Exch.count (collBlock x)))
        (x.touched [(x.a 64 false, 256), (Exch.memb (collBlock x), 8 * Exch.count (collBlock x)),
          (Exch.tree (collBlock x), 8 * Exch.count (collBlock x))] s) }) ∧
  (∀ h d a cause b, Does (.coll h d a) collSpec (fun x => x.a 64 false % 64 = 0 ∧ blockStop x (x.a 64 false) 256 = none ∧
      blockFault x (x.a 64 false) 256 = some (cause, b)) fun x => { post := deferRead x cause b }) ∧
  (∀ h d a, Stops (.coll h d a) collSpec (fun x => x.a 64 false % 64 ≠ 0) fun x => .trap Cause.collReq (x.a 64 false)) ∧
  (∀ h d a y w, Does (.collw h d a) collwSpec (fun x => x.th.cls ≠ .handler ∧
      x.th.coll? (BitVec.ofNat 32 (x.a 32 false)) = some y ∧ y.status = some w) fun x =>
    { land := some { dest := x.ld, w := 64, value := w.toNat, cycles := some 1 } }) ∧
  (∀ h d a y, Stops (.collw h d a) collwSpec (fun x => x.th.cls ≠ .handler ∧
      x.th.coll? (BitVec.ofNat 32 (x.a 32 false)) = some y ∧ y.status = none) fun _ => .wait 1 0) ∧
  (∀ h d a, Stops (.collw h d a) collwSpec (fun x => x.th.cls ≠ .handler ∧ x.th.coll? (BitVec.ofNat 32 (x.a 32 false)) = none)
    fun x => .trap Cause.illegalOperand (x.a 32 false)) ∧
  (∀ h d a, Does (.twait h d a) collSpec (fun x => x.th.cls ≠ .handler ∧ x.a 64 false ≤ x.s.now) fun x =>
    { writes := writeLoc x.ld x.w x.s.now,
      post := fun s => if x.a 64 false < x.s.now && !x.waited 10 then logNd (s.agent x.c x.t) 4 x.th.pc s else s }) ∧
  (∀ h d a, Stops (.twait h d a) collSpec (fun x => x.th.cls ≠ .handler ∧ x.s.now < x.a 64 false) fun _ => .wait 10 0) ∧
  (∀ h d a, Stops (.twait h d a) collSpec (fun x => x.th.cls = .handler) fun x => .trap Cause.handlerWait (viewLow64 x.v)) ∧
  (∀ (s : State) (x : Coll) (c t : Nat), s.coll? x.id = some x → x.done = false → x.err = none → x.sent.length ≤ x.step →
    s.whereIs x.src = some (c, t) → (s.core c).stopped = false → stillOut s x.after = false →
    (Exch.tswidth x.block = 0 ∨ Exch.tsbase x.block + x.step * Exch.tswidth x.block ≤ s.now) →
    ((∃ p ∈ x.ports s, s.linkReady p = false) → exec (.collStepStart x.id) s = .next (failColl x.id 2 s)) ∧
    ((∀ p ∈ x.ports s, s.linkReady p = true) → (∃ p ∈ x.ports s, pressReady s p = false) →
      exec (.collStepStart x.id) s = .next (s.after 1000 (.collStepStart x.id))) ∧
    ((∀ p ∈ x.ports s, s.linkReady p = true ∧ pressReady s p = true) →
      (x.step ≠ 0 → exec (.collStepStart x.id) s = .next (sendStep x (packet x.step s.now x.hash [])
        (configureStreams x.step (streamBlocks x.block) (x.ports s) (noteLate x s)))) ∧
      (x.step = 0 → x.draws = true → exec (.collStepStart x.id) s = .next ((drawQueue c x s).after 1 (.collStepStart x.id))) ∧
      (x.step = 0 → x.draws = false → (∀ r ∈ sourceRuns x, collBar s c x false r.1 r.2 = .none) →
        exec (.collStepStart x.id) s = .next (sendStep x (packet 0 s.now x.hash (sourceData s c x))
          (configureStreams 0 (streamBlocks x.block) (x.ports (sourceRead s c x)) (noteLate x (sourceRead s c x))))))) ∧
  (∀ (s : State) (x : Coll) (c t : Nat), s.coll? x.id = some x → x.done = false → x.err = some 1 → x.sent = [] →
    s.whereIs x.src = some (c, t) → (s.core c).stopped = false → stillOut s x.after = false →
    (Exch.tswidth x.block = 0 ∨ Exch.tsbase x.block + x.step * Exch.tswidth x.block ≤ s.now) →
    exec (.collStepStart x.id) s = .next ((sendStep x (packet 0 s.now x.hash []) s).soon (.collComplete x.id))) ∧
  (∀ (s : State) (x : Coll) (src : Nat) (p : List Byte), s.coll? x.id = some x → x.done = false → x.err = none →
    src ∈ x.peers → 44 ≤ p.length → (∀ g ∈ x.got, ¬ (g.1 = packetStep p ∧ g.2.1 = src)) →
    (packetHash p ≠ x.hash → exec (.collStepArrival x.id src p) s = .next (failColl x.id 1 (noteSkew x p s))) ∧
    (packetHash p = x.hash → exec (.collStepArrival x.id src p) s = .next (advanceColl x.id ((noteSkew x p s).modColl x.id
      fun y => { y with got := y.got ++ [(packetStep p, src, packetData p)] })))) ∧
  (∀ (s : State) (x : Coll), s.coll? x.id = some x → x.done = false → x.err = none → x.step < x.sent.length →
    x.allGot = false → Exch.timeout x.block ≠ 0 → x.heard + 1000 * Exch.timeout x.block ≤ s.now →
    ∃ u, exec (.collMemberTimeout x.id) s = .next u ∧ (u.coll? x.id).map Coll.err = some (some 3) ∧ u.mem = s.mem ∧
      u.cores = s.cores) ∧
  (∀ (s : State) (x : Coll), s.coll? x.id = some x →
    noteLate x s = if Exch.tswidth x.block ≠ 0 ∧ Exch.tsbase x.block + (x.step + 1) * Exch.tswidth x.block < s.now then
      logNd x.src 4 x.pc (s.modColl x.id fun x => { x with nlate := min 0xFFFF (x.nlate + 1) }) else s) ∧
  (∀ (b ms tr : List Byte) (y : Ctx) (ea : Nat) (s : State), ∃ z, z ∈ (submitColl y ea b ms tr s).colls ∧
    z.hash = (Sha.sha512 (b ++ ms ++ tr)).take 32 ∧ z.num = y.th.collNum ∧ z.step = 0 ∧ z.err = none ∧ z.done = false) ∧
  (∀ (s : State) (x : Coll) (c t e : Nat), s.coll? x.id = some x → x.done = false → x.err = some e →
    ¬ (e = 1 ∧ x.sent = []) → s.whereIs x.src = some (c, t) → (s.core c).stopped = false →
    exec (.collComplete x.id) s = .next (finishColl c t x e s) ∧
    (finishColl c t x e s).mem = s.mem ∧
    (((finishColl c t x e s).coll? x.id).map Coll.done = some true)) ∧
  (∀ (s : State) (x : Coll) (c t : Nat), s.coll? x.id = some x → x.done = false → x.err = none →
    Exch.steps x.block ≤ x.step + 1 → x.step < x.sent.length → x.allGot = true → s.whereIs x.src = some (c, t) →
    (s.core c).stopped = false → collBar s c x true (Exch.dst x.block) x.outcome.1.length = .none →
    collBar s c x true (Exch.res x.block) (x.outcome.2.take x.restBytes).length = .none →
    exec (.collComplete x.id) s = .next (finishColl c t x 0
      (x.touched c true [(Exch.dst x.block, x.outcome.1.length), (Exch.res x.block, (x.outcome.2.take x.restBytes).length)]
        (writeVia c (x.master s) (s.desc x.src.launch).asid (Exch.res x.block) (x.outcome.2.take x.restBytes)
          (writeVia c (x.master s) (s.desc x.src.launch).asid (Exch.dst x.block) x.outcome.1 s))))) ∧
  (∀ (x : Coll) (e : Nat), e < 2 ^ 8 → x.nskew < 2 ^ 16 → x.nlate < 2 ^ 16 →
    collStatus x e % 2 ^ 16 = e ∧ collStatus x e / 2 ^ 16 % 2 ^ 16 = x.nskew ∧ collStatus x e / 2 ^ 32 = x.nlate) ∧
  (∀ (s : State) (x : Coll) (c t n : Nat) (w : W64), (s.thread c t).colls = [⟨x.num, x.id, none⟩] → t < (s.core c).threads.length →
    w = BitVec.ofNat 64 (collStatus x n) → ((finishColl c t x n s).thread c t).colls = [⟨x.num, x.id, some w⟩]) ∧
  (∀ (s : State) (c t : Nat) (w : Wait), t < (s.core c).threads.length → (s.thread c t).wait = some w → w.reason = 10 →
    ∃ u, exec (.waferTimeReachesTarget c t) s = .next u ∧ (u.thread c t) = { s.thread c t with tried := false } ∧
      (∀ c' t', ¬ (c' = c ∧ t' = t) → u.thread c' t' = s.thread c' t') ∧ u.mem = s.mem)

/-! ## Tasks and barriers -/

namespace Sys2Proof.Stated

/-- The operands of SPAWN: an entry of 32 bits, an argument at its own width. -/
def spawnSpec (v : View) : Spec :=
  { v := v, ra := some 32, rb := some (ownWidth v.b 0), wd := some (opWidth v), wide := max (ownWidth v.b 0) (opWidth v),
    legal := namedA v.a 32 && !isFlag v.b && !isPort v.b && sliceWidth v.b ≤ 512 }

/-- The child of a SPAWN (R30, R308). -/
def childTask (x : Ctx) : TaskDesc :=
  { entry := BitVec.ofNat 32 (x.a 32 false), arg := x.b (ownWidth x.v.b 0) true, argW := ownWidth x.v.b 0,
    status := BitVec.ofNat 64 (x.th.status.toNat % 2 ^ 5), digest := BitVec.ofNat 64 (trellisStep x.th.digest.toNat x.th.spawns),
    depth := x.th.depth + 1, childIx := x.th.spawns, spawner := BitVec.ofNat 32 (tidOf x.s x.c x.t),
    parent := (x.s.agent x.c x.t, x.th.since) }

/-- Where the child is placed, and whether that is away from its trellis core (R31). -/
def childPlace (x : Ctx) : Nat × Bool := taskCore x.s x.c (childTask x).digest.toNat

/-- The limits of R308. -/
def withinLimits (x : Ctx) : Prop := x.th.depth < 255 ∧ x.th.spawns < 2 ^ 24 ∧ x.th.joins.length < 256

/-- The placed core has room: no spawner stalled there before this one, and a free slot that no HALTB holds
or room in its queue (R31, R375). -/
def hasPlace (x : Ctx) : Prop :=
  stalledAhead x.s (childPlace x).1 (x.s.agent x.c x.t) = [] ∧
  ((x.s.core (childPlace x).1).taskq.length < 64 ∨ ((x.s.core (childPlace x).1).dbgHalt = false ∧
    (taskSlot (x.s.core (childPlace x).1) (x.s.desc (x.s.occ (childPlace x).1).launch)).isSome = true))

/-- The operands of JOIN. -/
def joinSpec (v : View) : Spec :=
  { v := v, ra := some 32, wd := some (opWidth v), wide := opWidth v, legal := namedA v.a 32 }

/-- The children JOIN names: from A on, imm15[7:0] + 1 of them. -/
def joinCount (x : Ctx) : Nat := x.immNat % 2 ^ 8 + 1
/-- Their records, where the thread has spawned and not joined them. -/
def joined (x : Ctx) : List JoinRec := (List.range (joinCount x)).filterMap fun j => x.th.join? (x.a 32 false + j)
/-- The merge of imm15[10:8]. -/
def mergeCode (x : Ctx) : Nat := x.immNat / 2 ^ 8 % 2 ^ 3
/-- Their results merged in spawn order. -/
def mergedResult (x : Ctx) : Nat × Nat :=
  mergeAll (mergeCode x) x.th.ftz ((joined x).map fun j => (j.result.getD 0).toNat)
/-- Every child has been spawned, and not joined. -/
def allSpawned (x : Ctx) : Prop := ∀ j, j < joinCount x → (x.th.join? (x.a 32 false + j)).isSome = true

/-- The operands of BAR and ARRIVE: a count that barrier 0 does not take. -/
def barrierSpec (v : View) : Spec :=
  { v := v, ra := some 32, wd := some (opWidth v), wide := opWidth v,
    legal := namedA v.a 32 && ((v.imm.getD 0).toNat % 16 ≠ 0 || v.a == some .zero) }

/-- The barrier an instruction names, before it. -/
def barrierId (x : Ctx) : Nat := x.immNat % 16
/-- Its state. -/
def barrierNow (x : Ctx) : Barrier := barrierOf x.s x.c (barrierId x)

/-- An arrival that R312 admits: a root thread that has not arrived at barrier 0, or a count of 1 to 4,096 that agrees. -/
def mayArrive (x : Ctx) : Prop :=
  (barrierId x = 0 → x.th.kind = .root ∧ ((x.s.occ x.c).i, x.t) ∉ (barrierNow x).who) ∧
  (barrierId x ≠ 0 → 1 ≤ x.a 32 false ∧ x.a 32 false ≤ 4096 ∧ ((barrierNow x).count = 0 ∨ (barrierNow x).count = x.a 32 false))

/-- The arrival completes the generation: the count is reached, or every live root thread of the bunch is at barrier 0. -/
def lastArrival (x : Ctx) : Prop :=
  (barrierId x ≠ 0 → (barrierNow x).arrivals + 1 = x.a 32 false) ∧
  (barrierId x = 0 → ∀ r ∈ bunchRoots x.s x.c, r ∈ (barrierNow x).who ∨ r = ((x.s.occ x.c).i, x.t))

/-- The BAR at hand has arrived in generation `g`, and waits. -/
def arrivedIn (x : Ctx) (g : Nat) : Prop := x.th.loops.bar = some (barrierId x, g, x.th.pc)
/-- It has not. -/
def notArrived (x : Ctx) : Prop := ∀ g, ¬ arrivedIn x g

/-- A thread that may wait at the barrier: no handler-class thread, but at barrier 0 (R284, R312; log entry 25). -/
def mayWaitAt (x : Ctx) : Prop := x.th.cls ≠ .handler ∨ barrierId x = 0

/-- The operands of WAITB. -/
def waitbSpec (v : View) : Spec := { v := v, ra := some 32, wide := 32, legal := namedA v.a 32 }

/-- The generation that WAITB names is done, or no root thread is left to complete barrier 0's. -/
def passed (x : Ctx) : Prop :=
  ((barrierNow x).g - BitVec.ofNat 32 (x.a 32 false) - 1).toNat < 2 ^ 31 ∨ (barrierId x = 0 ∧ bunchRoots x.s x.c = [])

end Sys2Proof.Stated

/-- SPAWN within the limits and with a place puts a child there, writes its index and records it for JOIN; JOIN of children that
have all exited merges their results in order; TASKID reads the thread's identity; EXIT ends a root thread or a task whose tags
are free. TASK_QUEUE_START starts a core's oldest waiting task in the lowest free slot (R30 to R32, R202, R308 to R311). That a
core under HALTB queues the task, and that SPAWN's B is no flag and no port, are the model's choices (log entry 28). -/
def Obligations.TasksRun : Prop :=
  (∀ h d a b, Does (.spawn h d a b) spawnSpec (fun x => withinLimits x ∧ hasPlace x) fun x =>
    { writes := writeLoc x.ld x.w x.th.spawns,
      pre := fun th => { th with joins := th.joins ++ [⟨th.spawns, none, []⟩], spawns := th.spawns + 1 },
      post := fun s => placeTask (childPlace x).1 (childTask x)
        ((if (childPlace x).2 then logNd (s.agent x.c x.t) 7 x.th.pc s else s).modCore (childPlace x).1 fun k =>
          { k with stalled := k.stalled.filter (· ≠ s.agent x.c x.t) }) }) ∧
  (∀ h d a b, Stops (.spawn h d a b) spawnSpec (fun x => ¬ withinLimits x) fun _ => .trap Cause.taskLimit 0) ∧
  (∀ h d a b, Stops (.spawn h d a b) spawnSpec (fun x => withinLimits x ∧ ¬ hasPlace x) fun x =>
    .waitDo 8 (x.s.homeOf (childPlace x).1) (stall (childPlace x).1 (x.s.agent x.c x.t))) ∧
  (∀ h d a imm, Does (.join h d a imm) joinSpec (fun x => x.th.cls ≠ .handler ∧ mergeCode x < 6 ∧ allSpawned x ∧
      ∀ j ∈ joined x, j.result.isSome = true) fun x =>
    { writes := writeLoc x.ld x.w (mergedResult x).1, flags := (mergedResult x).2,
      pre := fun th => { th with joins := th.joins.filter fun j => j.child < x.a 32 false || x.a 32 false + joinCount x ≤ j.child }.synced ((joined x).flatMap JoinRec.after) }) ∧
  (∀ h d a imm, Stops (.join h d a imm) joinSpec (fun x => x.th.cls ≠ .handler ∧ mergeCode x < 6 ∧ ¬ allSpawned x) fun x =>
    .trap Cause.taskJoin (x.a 32 false)) ∧
  (∀ h d a imm, Stops (.join h d a imm) joinSpec (fun x => x.th.cls ≠ .handler ∧ mergeCode x < 6 ∧ allSpawned x ∧
      ∃ j ∈ joined x, j.result = none) fun x => .wait 9 ((joined x).countP fun j => j.result.isNone)) ∧
  (∀ h d imm n, Does (.taskid h d imm) (fun v => { v := v, wd := some (opWidth v), wide := opWidth v })
    (fun x => [x.th.digest.toNat, x.th.childIx, x.th.depth, x.th.spawner.toNat, x.th.spawns][x.immNat]? = some n) fun x =>
    { writes := writeLoc x.ld x.w n }) ∧
  (∀ h d imm, Stops (.taskid h d imm) (fun v => { v := v, wd := some (opWidth v), wide := opWidth v }) (fun x => 5 ≤ x.immNat)
    fun x => .trap Cause.illegalRsvd (viewLow64 x.v)) ∧
  (∀ h, Does (.exit h) plainSpec (fun x => x.th.kind ≠ .handler ∧ x.th.busyOf 0x7F = 0) fun x =>
    { post := fun s => (if x.th.kind = .task then exitTask x.c x.t x.th s else exitRoot x.c x.t s).soon
        (.roundEnd (s.occ x.c).launch) }) ∧
  (∀ (s : State) (c : Nat) (x : TaskDesc), let k := s.core c
    (k.taskq = [] → k.dbgHalt = false → ∀ t, taskSlot k (s.desc (s.occ c).launch) = some t → placeTask c x s = startTask c t x s) ∧
    (k.taskq ≠ [] ∨ k.dbgHalt = true ∨ taskSlot k (s.desc (s.occ c).launch) = none →
      placeTask c x s = s.modCore c fun k => { k with taskq := (s.core c).taskq ++ [x] })) ∧
  (∀ (th : Thread) (child free : Nat) (result : W64) (after : List Nat) (j : JoinRec), th.running = true → th.joins = [j] →
    j.child = child → (th.childExits th.since child free result after).joins = [{ j with result := some result, after := after }]) ∧
  (∀ h, Stops (.exit h) plainSpec (fun x => x.th.kind = .handler) fun _ => .trap Cause.handlerExit 0) ∧
  (∀ h, Stops (.exit h) plainSpec (fun x => x.th.kind ≠ .handler ∧ x.th.busyOf 0x7F ≠ 0) fun x => .wait 1 (x.th.busyOf 0x7F)) ∧
  (∀ (s : State) (c t : Nat) (x : TaskDesc) (rest : List TaskDesc), (s.core c).owner.isSome = true → (s.core c).stopped = false →
    (s.core c).dbgHalt = false → (s.core c).taskq = x :: rest →
    taskSlot (s.core c) (s.desc (s.occ c).launch) = some t → t < (s.core c).threads.length →
    ∃ u, exec (.taskQueueStart c) s = .next u ∧ (u.core c).taskq = rest ∧ (u.thread c t).kind = .task ∧
      (u.thread c t).running = true ∧ (u.thread c t).pc = x.entry ∧ (u.thread c t).status = x.status ∧
      (u.thread c t).digest = x.digest ∧ (u.thread c t).granules = (s.desc (s.occ c).launch).win ∧
      (u.thread c t).window.toNat = x.arg % 2 ^ x.argW * 2 ^ 256 % 2 ^ 8192 ∧ u.mem = s.mem ∧
      (∀ c' t', ¬ (c' = c ∧ t' = t) → u.thread c' t' = s.thread c' t')) ∧
  (∀ ftz x y, mergeOp 0 ftz x y = ((x + y) % 2 ^ 64, 0) ∧ mergeOp 4 ftz x y = (x ||| y, 0) ∧ mergeOp 5 ftz x y = (x &&& y, 0) ∧
    val (mergeOp 2 ftz x y).1 64 true = max (val x 64 true) (val y 64 true) ∧
    val (mergeOp 3 ftz x y).1 64 true = min (val x 64 true) (val y 64 true))

/-- ARRIVE counts an arrival and writes the generation it arrived in; BAR of the last arrival passes at once, any other waits
with reason 6 and passes once its generation is done; WAITB passes when the generation A names is done. A count R312 does not
admit traps BAR_COUNT. A generation that completes starts the next with no arrivals (R312). That a handler-class thread gets
BAR_COUNT at barrier 0 and HANDLER_WAIT elsewhere is the model's reading of R312 beside R284 (log entry 25); that the live roots
alone make up barrier 0, and WAITB 0 passes where none is left, is its choice (log entry 27). -/
def Obligations.BarriersRun : Prop :=
  (∀ h d a imm, Does (.arrive h d a imm) barrierSpec mayArrive fun x =>
    { writes := writeLoc x.ld x.w (barrierNow x).g.toNat, post := arriveAt x.c x.t (barrierId x) (x.a 32 false) }) ∧
  (∀ h d a imm, Stops (.arrive h d a imm) barrierSpec (fun x => barrierId x ≠ 0 ∧ ¬ mayArrive x) fun x =>
    .trap Cause.barCount (x.a 32 false)) ∧
  (∀ h d a imm, Stops (.arrive h d a imm) barrierSpec (fun x => barrierId x = 0 ∧ x.th.kind ≠ .root) fun _ =>
    .trap Cause.barCount 0) ∧
  (∀ h d a imm, Stops (.arrive h d a imm) barrierSpec (fun x => barrierId x = 0 ∧ x.th.kind = .root ∧ ¬ mayArrive x) fun _ =>
    .wait 6 0) ∧
  (∀ h d a imm, Does (.bar h d a imm) barrierSpec (fun x => mayWaitAt x ∧ notArrived x ∧ mayArrive x ∧ lastArrival x)
    fun x => { writes := writeLoc x.ld x.w (barrierNow x).g.toNat,
               post := fun s => barrierSync x (barrierId x) (arriveAt x.c x.t (barrierId x) (x.a 32 false) s) }) ∧
  (∀ h d a imm, Stops (.bar h d a imm) barrierSpec
    (fun x => mayWaitAt x ∧ notArrived x ∧ mayArrive x ∧ ¬ lastArrival x) fun x =>
    .waitDo 6 (barrierId x) (barMark x (barrierId x) (x.a 32 false) (barrierNow x).g.toNat)) ∧
  (∀ h d a imm g, Does (.bar h d a imm) barrierSpec (fun x => mayWaitAt x ∧ arrivedIn x g ∧
      ((barrierNow x).g - BitVec.ofNat 32 g - 1).toNat < 2 ^ 31) fun x =>
    { writes := writeLoc x.ld x.w g, post := barrierSync x (barrierId x) }) ∧
  (∀ h d a imm g, Stops (.bar h d a imm) barrierSpec (fun x => mayWaitAt x ∧ arrivedIn x g ∧
      2 ^ 31 ≤ ((barrierNow x).g - BitVec.ofNat 32 g - 1).toNat) fun x => .wait 6 (barrierId x)) ∧
  (∀ h d a imm, Stops (.bar h d a imm) barrierSpec (fun x => ¬ mayWaitAt x) fun x => .trap Cause.handlerWait (viewLow64 x.v)) ∧
  (∀ h d a imm, Stops (.bar h d a imm) barrierSpec (fun x => mayWaitAt x ∧ notArrived x ∧ barrierId x ≠ 0 ∧ ¬ mayArrive x)
    fun x => .trap Cause.barCount (x.a 32 false)) ∧
  (∀ h d a imm, Stops (.bar h d a imm) barrierSpec (fun x => notArrived x ∧ barrierId x = 0 ∧ x.th.kind ≠ .root) fun _ =>
    .trap Cause.barCount 0) ∧
  (∀ h d a imm, Stops (.bar h d a imm) barrierSpec (fun x => notArrived x ∧ barrierId x = 0 ∧ x.th.kind = .root ∧ ¬ mayArrive x) fun _ =>
    .wait 6 0) ∧
  (∀ h a imm, Does (.waitb h a imm) waitbSpec (fun x => mayWaitAt x ∧ passed x) fun x => { post := barrierSync x (barrierId x) }) ∧
  (∀ h a imm, Stops (.waitb h a imm) waitbSpec (fun x => mayWaitAt x ∧ ¬ passed x) fun x => .wait 6 (barrierId x)) ∧
  (∀ h a imm, Stops (.waitb h a imm) waitbSpec (fun x => ¬ mayWaitAt x) fun x => .trap Cause.handlerWait (viewLow64 x.v)) ∧
  (∀ (b : Barrier), b.complete.g = b.g + 1 ∧ b.complete.count = 0 ∧ b.complete.arrivals = 0 ∧ b.complete.who = []) ∧
  (∀ (s : State) (c t id count : Nat), id ≠ 0 → count ≠ 0 → (∃ y, s.bunch? (s.occ c).launch (s.occ c).bunch = some y ∧ id < y.barriers.length) →
    let b := barrierOf s c id
    let u := barrierOf (arriveAt c t id count s) c id
    (b.arrivals + 1 ≠ count → u.arrivals = b.arrivals + 1 ∧ u.count = count ∧ u.g = b.g) ∧
    (b.arrivals + 1 = count → u.arrivals = 0 ∧ u.count = 0 ∧ u.g = b.g + 1)) ∧
  (∀ (s : State) (c t id count : Nat), (arriveAt c t id count s).mem = s.mem ∧ (arriveAt c t id count s).cores = s.cores)

/-! ## Launches, rounds and swaps -/

namespace Sys2Proof.Stated

/-- The operands of LAUNCH. -/
def launchSpec (v : View) : Spec :=
  { v := v, ra := some 64, wd := some (opWidth v), wide := max 64 (opWidth v), legal := namedA v.a 64 }

/-- The descriptor at a LAUNCH's address. -/
def launchDesc (x : Ctx) : Desc := descOf (x.a 64 false) (x.block (x.a 64 false) 192)

/-- The machine with the launch of a queue's descriptor named. -/
def takenUp (s : State) : State := { s with nextLaunch := s.nextLaunch + 1 }

/-- A launch's core holds its bunch. -/
def holds (s : State) (c l b : Nat) : Prop := ∃ i, (s.core c).owner = some ⟨l, b, i⟩

/-- The state with a launch whose last round may end. -/
def roundMayEnd (s : State) (x : Launch) : Prop :=
  s.launch? x.id = some x ∧ x.ended = false ∧ roundOver s x = true ∧ (∀ p ∈ x.fills, p.2 ≠ 3)

/-- The entries of a bunch in the stage table, where STAGEMODE is 4 (R29). -/
def stageTable (s : State) (d : Desc) (b : Nat) : List Byte :=
  if d.stagemode = 4 then seqBytes s sequencer d.asid 1 ((d.stagetab + 4 * b * (d.w * d.h)) % 2 ^ 64) (4 * (d.w * d.h)) else []

/-- The stage number of core `i` of bunch `b` (R29): `i % d.w` is x − bx0, `i / d.w` is y − by0, `d.w` is W + 1. -/
def stageNumber (d : Desc) (b i : Nat) (table : List Byte) (n : Nat) : Prop :=
  (d.stagemode = 0 → n = b * d.w + i % d.w) ∧ (d.stagemode = 1 → n = b * d.w + (d.w - 1 - i % d.w)) ∧
  (d.stagemode = 2 → n = b * d.h + i / d.w) ∧ (d.stagemode = 3 → n = b * d.h + (d.h - 1 - i / d.w)) ∧
  (d.stagemode = 4 → n = ofBytes ((table.drop (4 * i)).take 4))

/-- `n` bytes of a record at an offset. -/
def recField (bs : List Byte) (off n : Nat) : Nat := ofBytes ((bs.drop off).take n)

/-- The bytes of a completion record (Table 1.5). -/
def isRecord (x : Launch) (now status reason entries : Nat) (bs : List Byte) : Prop :=
  bs.length = 32 ∧ recField bs 0 8 = x.desc.lid % 2 ^ 64 ∧ recField bs 8 2 = status % 2 ^ 16 ∧ recField bs 10 2 = reason % 2 ^ 16 ∧
  recField bs 12 4 = x.roundsDone % 2 ^ 32 ∧ recField bs 16 8 = now % 2 ^ 64 ∧ recField bs 24 4 = entries % 2 ^ 32 ∧
  recField bs 28 4 = if x.ndlog = true ∨ ∃ y ∈ x.bunches, y.logged = true then 1 else 0

/-- The launch stopped by its Fatal cause, with the STATUS and the REASON of its record (R335). -/
def stoppedBy (x : Launch) (r : Raised) (s : State) : State :=
  (stopLaunch x.id s).modLaunch x.id fun y => { y with final := some (4, if r.cause = Cause.saveFail then 5 else 4) }

end Sys2Proof.Stated

/-- Register writes of the launch queues and the sequencer's steps: TAIL, HEAD while EN is 0, EN, CRD; an unreadable or
misaligned descriptor halts its queue with ERR 2, a NEXT of 0 with ERR 1; an admitted descriptor waits at the head and a
rejected one gets its record. LAUNCH takes a credit and submits its descriptor under the thread's next number; a read of it that
fails is a deferred fault (R17, R20, R22, R23, R313). What EN = 0 leaves of the waiting head, who counts as a queue's issuer,
and that a rejected descriptor is consumed are the model's choices (log entry 37), as is a descriptor that is not aligned (log
entry 87). -/
def Obligations.LaunchesEnter : Prop :=
  (∀ h d a, Does (.launch h d a) launchSpec (fun x => x.th.credits ≠ 0 ∧ blockStop x (x.a 64 false) 192 = none ∧
      blockFault x (x.a 64 false) 192 = none) fun x =>
    { writes := writeLoc x.ld x.w x.th.launchNum.toNat,
      pre := fun th => { th with credits := th.credits - 1, launchNum := th.launchNum + 1 },
      post := fun s => submit x.c (x.s.agent x.c x.t) x.th.launchNum (x.a 64 false) (launchDesc x) (x.touched [(x.a 64 false, 192)] s) }) ∧
  (∀ h d a cause b, Does (.launch h d a) launchSpec (fun x => x.th.credits ≠ 0 ∧ blockStop x (x.a 64 false) 192 = none ∧
      blockFault x (x.a 64 false) 192 = some (cause, b)) fun x => { post := deferRead x cause b }) ∧
  (∀ h d a, Stops (.launch h d a) launchSpec (fun x => x.th.credits = 0) fun _ => .trap Cause.evqFull 0) ∧
  (∀ s : State, s.busOk .lqTailWrite = true → s.busQueue < s.lqs.length → ∃ u, exec .lqTailWrite s = .next u ∧
    (u.lq s.busQueue).tail = BitVec.ofNat 64 s.busValue ∧ (u.lq s.busQueue).head = (s.lq s.busQueue).head ∧ u.mem = s.mem ∧
    u.cores = s.cores ∧ (∀ p, s.bus.who = .host p → (s.lq s.busQueue).tail ≠ BitVec.ofNat 64 s.busValue →
      (u.lq s.busQueue).issuer = some p) ∧ ∀ q, q ≠ s.busQueue → u.lq q = s.lq q) ∧
  (∀ s : State, s.busOk .lqHeadWrite = true → s.busQueue < s.lqs.length → ∃ u, exec .lqHeadWrite s = .next u ∧
    ((s.lq s.busQueue).en = true → u.lq s.busQueue = s.lq s.busQueue) ∧
    ((s.lq s.busQueue).en = false →
      u.lq s.busQueue = { s.lq s.busQueue with head := BitVec.ofNat 64 s.busValue, cons := false }) ∧
    u.mem = s.mem ∧ u.cores = s.cores ∧ ∀ q, q ≠ s.busQueue → u.lq q = s.lq q) ∧
  (∀ s : State, s.busOk .lqEnable = true → s.busQueue < s.lqs.length → ∃ u, exec .lqEnable s = .next u ∧
    (u.lq s.busQueue).en = true ∧ (u.lq s.busQueue).msix = s.busValue.testBit 1 ∧ u.cores = s.cores ∧
    ((s.lq s.busQueue).heldRecs = [] → u.mem = s.mem)) ∧
  (∀ s : State, s.busOk .lqDisable = true → s.busQueue < s.lqs.length → s.busQueue < s.waitq.length →
    ∃ u, exec .lqDisable s = .next u ∧ (u.lq s.busQueue).en = false ∧ (u.lq s.busQueue).halt = false ∧
      u.waitq.getD s.busQueue none = none ∧ u.mem = s.mem ∧ u.cores = s.cores) ∧
  (∀ s : State, s.busOk .lqCrdWrite = true → s.busQueue < s.lqs.length → ∃ u, exec .lqCrdWrite s = .next u ∧
    (u.lq s.busQueue).crd = BitVec.ofNat 32 s.busValue ∧ u.cores = s.cores ∧
    ((s.lq s.busQueue).heldRecs = [] → u.mem = s.mem)) ∧
  (∀ (s : State) (q : Nat), (s.lq q).runs = true → s.waitq.getD q none = none →
    let x := s.lq q
    (x.cons = true → x.head = x.tail → exec (.descriptorRead q) s = .next s) ∧
    (x.cons = true → x.head ≠ x.tail → s.physRead sequencer x.head.toNat 8 = some (List.replicate 8 0) →
      exec (.descriptorRead q) s = .next (s.modLq q fun y => { y with halt := true, err := 1 })) ∧
    (x.cons = false → x.head.toNat % 64 ≠ 0 ∨ s.physRead sequencer x.head.toNat 192 = none →
      exec (.descriptorRead q) s = .next (s.modLq q fun y => { y with halt := true, err := 2 })) ∧
    (∀ bs, x.cons = false → x.head.toNat % 64 = 0 → s.physRead sequencer x.head.toNat 192 = some bs →
      let d := descOf x.head.toNat bs
      let l := newLaunch s.nextLaunch d (.queue q x.issuer) q
      let why := rejection s d (x.issuer.map Master.host)
      (why = 0 → exec (.descriptorRead q) s = .next (kickPlacing { takenUp s with waitq := s.waitq.set q (some l) })) ∧
      (why ≠ 0 → exec (.descriptorRead q) s =
        .next (postRecord l 1 why 0 ((takenUp s).modLq q fun y => { y with cons := true })))))

/-- BUNCH_PLACE puts the next bunches of a launch where R25 finds room, each core with its code, slots and registers of R27;
ROUND_END of a round that is over starts the next with its arguments, or lets the bunches retire; BUNCH_RETIRE frees the cores
of a drained bunch, LAUNCH_COMPLETE ends a launch whose bunches are all retired, or, with one trap notice before its record, one
with a Fatal cause, whose bunches stop at once; a queue's completion record goes to its ring, and is held while the ring is full
or after a write has failed; and DEADLOCK_REPORT disarms the detector and writes its entries one by one, waiting for a page and
losing those whose writes fail (R18, R23, R25 to R30, R40 to R43, R46, R335). That ROUND_END delivers the next round's arguments
in its own step is the model's choice (log entry 38), as is the CRC of the code that a placed core keeps (log entry 30). -/
def Obligations.LaunchesRun : Prop :=
  (∀ (s : State) (x : Launch), s.launch? x.id = some x → x.ended = false → x.hasUnplaced = true → (∀ p ∈ x.fills, 2 < p.2) →
    let n := if x.desc.rounds = 1 then 1 else x.desc.bcount - x.bunches.length
    (∀ os, findRooms s x.desc n x.homes = some os → exec (.bunchPlace x.id) s = .next (placeAll x.id x.bunches.length os s)) ∧
    (findRooms s x.desc n x.homes = none → exec (.bunchPlace x.id) s = .next s)) ∧
  (∀ (s : State) (x : Launch) (b ox oy i : Nat), i < x.desc.w * x.desc.h → 0 < x.desc.w → ox + x.desc.w ≤ 384 →
    ∀ f, ((s.core (coreOfIndex ox oy x.desc.w i)).failed = f) →
    let k := (placeBunch x b ox oy s).core (coreOfIndex ox oy x.desc.w i)
    (∃ n, stageNumber x.desc b i (stageTable s x.desc b) n ∧ (x.desc.stagemode ≤ 4 → k.stage = BitVec.ofNat 32 n)) ∧
    k = startCore x.id b i x.desc (stageTable s x.desc b) (crc32c (seqBytes s sequencer x.desc.asid 3 x.desc.code x.desc.codelen)) f ∧ k.owner = some ⟨x.id, b, i⟩ ∧ k.codelen = x.desc.codelen ∧ k.round = 1 ∧
    ∀ t, t < x.desc.roots → t < 8 → (k.thread t).kind = .root ∧ (k.thread t).running = true ∧
      (k.thread t).pc = BitVec.ofNat 32 x.desc.entry ∧ (k.thread t).window = 0 ∧ (k.thread t).fflags = 0) ∧
  (∀ (s : State) (x : Launch), roundMayEnd s x → x.roundsDone + 1 < x.desc.rounds →
    let a := (x.desc.args + 80 * (x.round - 1)) % 2 ^ 64
    seqTest s x 3 sequencer 1 false a 80 = .ready → exec (.roundEnd x.id) s =
      .next (startRound x (seqBytes s sequencer x.desc.asid 1 a 80) (countRound x s))) ∧
  (∀ (s : State) (x : Launch), roundMayEnd s x → x.desc.rounds ≤ x.roundsDone + 1 →
    exec (.roundEnd x.id) s = .next (x.bunches.foldl (fun s y => s.soon (.bunchRetire x.id y.idx)) (countRound x s))) ∧
  (∀ (th : Thread) (entry : W32) (now : Nat), th.kind = .root → let u := th.restart entry now
    u.running = true ∧ u.pc = entry ∧ u.cls = .normal ∧ u.level = 0 ∧ u.loops = .empty ∧ u.window = th.window ∧
    u.fflags = th.fflags ∧ u.granules = th.granules) ∧
  (∀ (s : State) (x : Launch) (y : Bunch), s.launch? x.id = some x → x.bunch? y.idx = some y → x.ended = false →
    x.roundsDone = x.desc.rounds → y.present = true → drained s x y = true →
    ∃ u, exec (.bunchRetire x.id y.idx) s = .next u ∧ u.mem = s.mem ∧
      (u.bunch? x.id y.idx).map Bunch.state = some .retired ∧ ∀ c, holds s c x.id y.idx → (u.core c).owner = none) ∧
  (∀ (s : State) (x : Launch), s.launch? x.id = some x → x.ended = false → x.fatal = none → x.started = true →
    x.hasUnplaced = false → x.roundsDone = x.desc.rounds → (∀ y ∈ x.bunches, y.state = .retired) → windowsDone s x.id = true →
    ∃ u, exec (.launchComplete x.id) s = .next u ∧ u.launch? x.id = none) ∧
  (∀ (s : State) (x : Launch) (b slot core : Nat) (r : Raised), s.launch? x.id = some x →
    let u := raiseFatal x.id b slot core r s
    (u.launch? x.id).map Launch.fatal = some (some (x.fatal.getD (r, b, slot, core))) ∧
      (s.bus, Instr.launchComplete x.id) ∈ u.agenda ∧ u.mem = s.mem ∧ u.cores = s.cores) ∧
  (∀ (s : State) (x : Launch) (b slot core : Nat) (r : Raised), s.launch? x.id = some x → x.ended = false →
    x.fatal = some (r, b, slot, core) →
    (s.pre.tnBase = 0 → exec (.launchComplete x.id) s = .next (leave x.id (stoppedBy x r s))) ∧
    (s.pre.tnBase ≠ 0 → exec (.launchComplete x.id) s = .next (writeNotice
      ⟨noticeWords x.desc.lid b r.cause slot core r.tval s.now, some (x.id, none)⟩ (stoppedBy x r s)))) ∧
  (∀ (s : State) (x : Launch), s.launch? x.id = some x →
    let u := stopLaunch x.id s
    u.mem = s.mem ∧ (u.launch? x.id).map Launch.ended = some true ∧
    (∀ v, u.launch? x.id = some v → ∀ y ∈ v.bunches, y.state = .retired ∧ y.saved = []) ∧
    (∀ m ∈ u.msgs, m.src.launch ≠ x.id) ∧
    ∀ c, (∀ o, (s.core c).owner = some o → o.launch = x.id → (u.core c).owner = none) ∧
      ((∀ o, (s.core c).owner = some o → o.launch ≠ x.id) → (u.core c).owner = (s.core c).owner)) ∧
  (∀ (s : State) (x : Launch), s.launch? x.id = some x → (leave x.id s).launch? x.id = none) ∧
  (∀ (s : State) (x : Launch) (q : Nat) (i : Option Nat) (st re en : Nat), x.source = .queue q i → q < s.lqs.length →
    (s.lq q).heldRecs = [] →
    let y := s.lq q
    let ws := x.record s.now st re en
    let u := postRecord x st re en s
    isRecord x s.now st re en (wordBytes ws) ∧
    (y.cmask.toNat < (y.cwr - y.crd).toNat ∨ y.stuck = true →
      u.mem = s.mem ∧ (u.lq q).heldRecs = [⟨ws, none⟩] ∧ (u.lq q).cwr = y.cwr) ∧
    ((y.cwr - y.crd).toNat ≤ y.cmask.toNat → y.stuck = false →
      let a := y.cbase.toNat + 32 * (y.cwr &&& y.cmask).toNat
      (∀ w, s.physWrite sequencer a (wordBytes ws) = some w →
        u.mem = w.mem ∧ (u.lq q).heldRecs = [] ∧ (u.lq q).cwr = y.cwr + 1 ∧ (y.msix = true → q ∈ u.msix)) ∧
      (s.physWrite sequencer a (wordBytes ws) = none →
        u.mem = s.mem ∧ (u.lq q).heldRecs = [⟨ws, none⟩] ∧ (u.lq q).cwr = y.cwr ∧ (u.lq q).halt = true ∧ (u.lq q).err = 3))) ∧
  (∀ (s : State) (x : Launch), s.launch? x.id = some x → x.ended = false → x.report = none → x.armed = true → 2 ^ 16 ≤ x.quiet →
    let es := (reportEntries s x).take (2 ^ 20)
    (∀ lost s1, putEntries x 0 es false (decide (4 ∈ x.badFills)) s = .ok (lost, s1) →
      ∃ u, exec (.deadlockReport x.id) s = .next u ∧ (u.launch? x.id).map Launch.armed = some false ∧
        (u.launch? x.id).map Launch.report = some none) ∧
    (∀ j rest lost w s1, putEntries x 0 es false (decide (4 ∈ x.badFills)) s = .error ((j, rest, lost), w, s1) →
      ∃ u, exec (.deadlockReport x.id) s = .next u ∧
        (u.launch? x.id).map Launch.report = some (some ⟨j, rest, lost, es.length⟩))) ∧
  (∀ (s : State) (x : Launch) (r : Report), s.launch? x.id = some x → x.ended = false → x.report = some r → (∀ p ∈ x.fills, p.2 ≠ 4) →
    exec (.deadlockReport x.id) s = .next (putReport x r s)) ∧
  (∀ (x : Launch) (j : Nat) (e : List Byte) (rest : List (List Byte)) (lost bad : Bool) (s : State),
    (seqTest s { x with badFills := [] } 4 sequencer 2 true ((x.desc.report + 16 * j) % 2 ^ 64) 16 = .ready →
      putEntries x j (e :: rest) lost bad s = putEntries x (j + 1) rest lost false
        (seqPut sequencer x.desc.asid 2 ((x.desc.report + 16 * j) % 2 ^ 64) e s)) ∧
    (seqTest s { x with badFills := [] } 4 sequencer 2 true ((x.desc.report + 16 * j) % 2 ^ 64) 16 = .fails →
      putEntries x j (e :: rest) lost bad s = putEntries x (j + 1) rest true false s))

namespace Sys2Proof.Stated

/-- A request of the host on bunches, while none is under way, with at least one launch matched (Table 19.4). -/
def requested (i : Instr) (s : State) : Prop := s.busOk i = true ∧ s.pre.busy = false ∧ matchedLaunches s ≠ []

/-- A bunch of a launch. -/
def isBunch (s : State) (x : Launch) (y : Bunch) : Prop := s.launch? x.id = some x ∧ x.bunch? y.idx = some y

/-- A bunch has been halted on all its cores (R330). -/
def haltedAll (s : State) (x : Launch) (y : Bunch) : Prop :=
  isBunch s x y ∧ y.state = .halting ∧ y.haltAsk = true ∧
  ∀ c ∈ bunchCores s x.id y.idx, (s.core c).stopped = true ∧ (s.core c).still s.now = true

/-- The windows of a core in slot order (Table 19.5). -/
def sliceFile : List Thread → List Byte
  | [] => []
  | th :: r => toBytes (th.allWritten.toNat % 2 ^ (256 * th.granules)) (32 * th.granules) ++ sliceFile r

/-- A number in the cells of a save area. -/
def areaNum (a : List Host.Cell) (off n : Nat) : Nat := ofBytes (Mem.readN a off n)

/-- The fields of a thread record at 0x00, and those at 0x80 (R332). -/
def recordFields (th : Thread) : List W64 × List W64 :=
  ([th.pc.setWidth 64, th.status, th.fflags, th.portcfg, th.tvec, th.temask0, th.temask1, th.cause, th.tval, th.epc, th.estat, th.stvec,
    BitVec.ofNat 64 (th.cls.code + 2 ^ 8 * match th.pendCause with | some r => r.cause | none => 0xFF)],
   [th.scause, th.stval, th.sepc, th.sestat, match th.pendCause with | some r => BitVec.ofNat 64 r.tval | none => 0])

/-- The CRC-32C of each region stands in the header of an area (R332). -/
def crcsHold (a : List Host.Cell) : Prop := ∀ j r, areaRegions[j]? = some r → areaNum a (0x20 + 4 * j) 4 = crc32c (Mem.readN a r.1 r.2)

/-- The regions of Table 19.5 that the spec gives byte for byte, and the Core image's header, in the save area of core `i` of a
bunch, whose context at the save is `k`, at place `c` (R332). -/
def areaHolds (x : Launch) (y : Bunch) (i c : Nat) (k : Core) (mem a : List Host.Cell) : Prop :=
  areaNum a 0 8 = x.desc.lid % 2 ^ 64 ∧ areaNum a 8 4 = y.idx % 2 ^ 32 ∧ areaNum a 12 2 = i ∧ areaNum a 14 2 = y.haltCause % 2 ^ 16 ∧
  areaNum a 16 4 = coreX c ∧ areaNum a 20 4 = coreY c % 2 ^ 32 ∧ areaNum a 24 8 = y.tsave % 2 ^ 64 ∧ crcsHold a ∧
  (∀ t, t < 8 → (∀ j w, (recordFields (k.thread t)).1[j]? = some w → areaNum a (0x200 + 0x100 * t + 8 * j) 8 = w.toNat) ∧
    ∀ j w, (recordFields (k.thread t)).2[j]? = some w → areaNum a (0x280 + 0x100 * t + 8 * j) 8 = w.toNat) ∧
  (∀ j, j < 0x600 → Mem.read a (0xA00 + j) = 0) ∧
  (∀ j, j < 0x2000 → Mem.read a (0x1000 + j) = (sliceFile k.threads).getD j 0) ∧
  (∀ j, j < 1024 → areaNum a (0x9000 + 8 * j) 8 = (Tbl.get k.ft j 0).toNat) ∧
  ∀ j, j < localSize → Mem.read a (0x40000 + j) = Mem.read mem (localKey c j)

/-- The bytes of a write by runs do not overlap in memory. -/
def apart (rs : List (Nat × Nat × Nat × Reach)) : Prop :=
  rs.Pairwise fun r q => ∀ k h l g, r.2.2.2 = .bytes k h → q.2.2.2 = .bytes l g → k + r.2.2.1 ≤ l ∨ l + q.2.2.1 ≤ k

/-- Every core of a bunch saved, one after another (R332). -/
def allSaved (x : Launch) (y : Bunch) (s : State) : State :=
  (List.range (x.desc.w * x.desc.h)).foldl (fun s i => saveCore x y i s) (s.modBunch x.id y.idx fun y => { y with saved := [] })

end Sys2Proof.Stated

/-- Requests on bunches (R329): pre-empt asks every matched bunch that is placed to halt, whose cores the halt reaches within 2
µs, release lets them return, abort ends the matched launches and leaves no core to them, and an armed watchdog raises WATCHDOG
at its time in every running thread of every core of its bunch, saved ones among them; while a request is under way a write sets
ERR 3, and ERR 1 where no launch matches. BUNCH_HALT stops a core, ORPHAN_TIMEOUT counts the bunch as halted and discards the
responses it still misses, BUNCH_SAVE writes for each core an area that reads as its header, thread records, slice file,
function tables and local store, and frees its cores, BUNCH_SWAP_IN puts it back where every CRC matches (R330 to R334). The
places of the values in the header are the model's (log entry 51), as are the order of the slice file (log entry 50) and what a
request does to a bunch that is out or on its way (log entry 41). -/
def Obligations.HaltsAndSwaps : Prop :=
  (∀ (s : State) (i : Instr), i ∈ [.preCtlPreempt, .preCtlRelease, .preCtlAbort, .preCtlArmWatchdog] → s.busOk i = true →
    (s.pre.busy = true → exec i s = .next { s with pre := { s.pre with err := 3 } }) ∧
    (s.pre.busy = false → matchedLaunches s = [] →
      ∃ u, exec i s = .next u ∧ u.pre.err = 1 ∧ u.pre.count = 0 ∧ u.mem = s.mem ∧ u.cores = s.cores ∧ u.launches = s.launches)) ∧
  (∀ s : State, requested .preCtlPreempt s → ∃ u, exec .preCtlPreempt s = .next u ∧ u.pre.err = 0 ∧ u.mem = s.mem ∧
    u.pre.count = (matchedBunches s (s.busValue % 2 ^ 64 % 2 ^ 32)).length ∧
    ∀ m ∈ matchedBunches s (s.busValue % 2 ^ 64 % 2 ^ 32),
      (∀ y, u.bunch? m.1 m.2 = some y → y.preempt = true ∧ (y.state = .placed → y.haltAsk = true)) ∧
      ∀ y, s.bunch? m.1 m.2 = some y → y.state = .placed → y.haltAsk = false →
        ∀ c ∈ rectCores (s.desc m.1) y.x y.y, ∃ d, d < 2000 ∧ (s.now + d, Instr.bunchHalt c) ∈ u.timers) ∧
  (∀ s : State, requested .preCtlRelease s → ∃ u, exec .preCtlRelease s = .next u ∧ u.pre.err = 0 ∧ u.pre.done = true ∧
    u.mem = s.mem ∧ u.cores = s.cores ∧
    ∀ m ∈ matchedBunches s (s.busValue % 2 ^ 64 % 2 ^ 32), ∀ y, u.bunch? m.1 m.2 = some y → y.preempt = false) ∧
  (∀ s : State, requested .preCtlAbort s → ∃ u, exec .preCtlAbort s = .next u ∧ u.pre.done = true ∧
    u.pre.count = (matchedBunches s (s.busValue % 2 ^ 64 % 2 ^ 32)).length ∧
    ∀ x ∈ matchedLaunches s, u.launch? x.id = none ∧ ∀ c o, (u.core c).owner = some o → o.launch ≠ x.id) ∧
  (∀ s : State, requested .preCtlArmWatchdog s → ∃ u, exec .preCtlArmWatchdog s = .next u ∧ u.pre.err = 0 ∧ u.pre.done = true ∧
    u.mem = s.mem ∧ u.cores = s.cores ∧
    ∀ m ∈ matchedBunches s (s.busValue % 2 ^ 64 % 2 ^ 32), (s.pre.arg.toNat, Instr.watchdogExpiry m.1 m.2 s.pre.arg.toNat) ∈ u.timers ∧
      ∀ y, u.bunch? m.1 m.2 = some y → y.watch = some s.pre.arg.toNat) ∧
  (∀ (s : State) (l b tw : Nat) (y : Bunch), s.bunch? l b = some y → y.watch = some tw → tw ≤ s.now → y.state ≠ .retired →
    ∃ u, exec (.watchdogExpiry l b tw) s = .next u ∧ u.mem = s.mem ∧ (u.bunch? l b).map Bunch.watch = some none ∧
      (u.bunch? l b).map (fun z => z.saved.map SavedCore.ctx) = some (y.saved.map fun v => v.ctx.watched tw) ∧
      (y.state = .placed ∨ y.state = .halting →
        ∀ c ∈ rectCores (s.desc l) y.x y.y, ∀ t, (u.core c).thread t = ((s.core c).thread t).watched tw) ∧
      ∀ c, c ∉ rectCores (s.desc l) y.x y.y ∨ ¬(y.state = .placed ∨ y.state = .halting) → u.core c = s.core c) ∧
  (∀ (s : State) (l b tw : Nat), s.bunch? l b = none → exec (.watchdogExpiry l b tw) s = .next s) ∧
  (∀ (tw t : Nat) (k : Core), (k.watched tw).thread t = (k.thread t).watched tw) ∧
  (∀ (tw : Nat) (th : Thread), th.running = true →
    th.watched tw = { th with async := th.async ++ [⟨Cause.watchdog, tw, 0, 0, true, false, 0⟩] }) ∧
  (∀ (tw : Nat) (th : Thread), th.running = false → th.watched tw = th) ∧
  (∀ (s : State) (c : Nat) (o : Occ) (y : Bunch), (s.core c).owner = some o → s.bunch? o.launch o.bunch = some y →
    y.haltAsk = true → (s.core c).stopped = false →
    ∃ u, exec (.bunchHalt c) s = .next u ∧ u.core c = { s.core c with stopped := true } ∧ u.mem = s.mem ∧
      (∀ d, d ≠ c → u.core d = s.core d) ∧ (u.bunch? o.launch o.bunch).map Bunch.state = some .halting) ∧
  (∀ (s : State) (x : Launch) (y : Bunch), haltedAll s x y → missingReads s x.id y.idx = false ∨ y.haltAt + 2000 ≤ s.now →
    ∃ u, exec (.orphanTimeout x.id y.idx) s = .next u ∧ u.mem = s.mem ∧ u.cores = s.cores ∧
      (u.bunch? x.id y.idx).map Bunch.haltAsk = some false ∧ (u.bunch? x.id y.idx).map Bunch.tsave = some s.now ∧
      u.net = s.net.map fun p => if p.awaited x.id y.idx = true then { p with orphan := true } else p) ∧
  (∀ (s : State) (x : Launch) (y : Bunch), isBunch s x y → x.ended = false → y.state = .halting → y.haltAsk = false →
    (x.desc.save % 2 ^ 20 ≠ 0 → exec (.bunchSave x.id y.idx) s = .next (saveFails x y.idx 0 s)) ∧
    (x.desc.save % 2 ^ 20 = 0 → areaTest s x (5 + 2 * y.idx) y.idx true = none →
      ∃ u, exec (.bunchSave x.id y.idx) s = .next u ∧ (u.bunch? x.id y.idx).map Bunch.state = some .saved ∧
        (u.bunch? x.id y.idx).map Bunch.saved = ((allSaved x y s).bunch? x.id y.idx).map Bunch.saved ∧
        (y.trapped = [] → u.mem = (allSaved x y s).mem) ∧
        ∀ c, holds s c x.id y.idx → (u.core c).owner = none)) ∧
  (∀ (s : State) (x : Launch) (y z : Bunch) (i : Nat), Mem.wf s.mem = true → i < x.desc.w * x.desc.h → i < 2 ^ 16 →
    s.bunch? x.id y.idx = some z →
    let c := coreOfIndex y.x y.y x.desc.w i
    let u := saveCore x y i s
    ∃ v : SavedCore, v.core = c ∧ v.ctx = (s.core c).parked ∧ areaHolds x y i c v.ctx s.mem v.image ∧ Mem.wf v.image = true ∧
      (u.bunch? x.id y.idx).map Bunch.saved = some (z.saved ++ [v]) ∧ u.cores = s.cores ∧
      (tracing s c 4 = false → u.mem = (writeArea x y.idx i v.image s).mem)) ∧
  (∀ (s : State) (x : Launch) (b i : Nat) (image : List Host.Cell), Mem.wf s.mem = true → Mem.wf image = true → apart (areaRuns s x b i true) →
    let u := writeArea x b i image s
    (∀ r ∈ areaRuns s x b i true, ∀ k home, r.2.2.2 = .bytes k home → ∀ j, j < r.2.2.1 →
      Mem.read u.mem (k + j) = Mem.read image (r.2.1 + j)) ∧
    ∀ a, (∀ r ∈ areaRuns s x b i true, ∀ k home, r.2.2.2 = .bytes k home → a < k ∨ k + r.2.2.1 ≤ a) →
      Mem.read u.mem a = Mem.read s.mem a) ∧
  (∀ (k : Core) (t : Nat), k.parked.thread t = (k.thread t).parked ∧ (k.thread t).parked.pc = (k.thread t).pc ∧
    (k.thread t).parked.status = (k.thread t).status ∧ (k.thread t).parked.window = (k.thread t).window ∧
    (k.thread t).parked.fflags = (k.thread t).fflags ∧ (k.thread t).parked.loops = (k.thread t).loops) ∧
  (∀ (s : State) (x : Launch) (y : Bunch) (o : Nat × Nat), isBunch s x y → x.ended = false → y.ready = true →
    (∀ r ∈ s.pre.heldNotices, r.owner ≠ some (x.id, some y.idx)) → returnRoom s x y = some o →
    areaTest s x (6 + 2 * y.idx) y.idx false = none →
    let areas := ((List.range y.saved.length).zip y.saved).map fun p => (p.2, readArea s x y.idx p.1)
    ((∀ p ∈ areas, crcsMatch p.2 = true) → exec (.bunchSwapIn x.id y.idx) s = .next (swapIn x y o.1 o.2 areas s)) ∧
    (∀ i p, areas[i]? = some p → crcsMatch p.2 = false → (∀ j q, j < i → areas[j]? = some q → crcsMatch q.2 = true) →
      exec (.bunchSwapIn x.id y.idx) s = .next (saveFails x y.idx i s))) ∧
  (∀ (cells : List Host.Cell), crcsMatch cells = true ↔ crcsHold cells) ∧
  (∀ (v : SavedCore) (here : Core) (cycles ctr t : Nat), t < v.ctx.threads.length →
    ((Core.fromArea v v.image).back here cycles ctr).kbank = v.ctx.kbank ∧
    ((Core.fromArea v v.image).back here cycles ctr).stopped = false ∧
    let th := v.ctx.thread t
    let u := ((Core.fromArea v v.image).back here cycles ctr).thread t
    u.pc = th.pc ∧ u.status = th.status ∧ u.window = th.window ∧ u.pend = th.pend ∧ u.fflags = th.fflags ∧ u.cls = th.cls ∧
    u.tvec = th.tvec ∧ u.epc = th.epc ∧ u.estat = th.estat ∧ u.loops = th.loops) ∧
  (∀ s : State, s.busOk .tnRdWrite = true → s.pre.heldNotices = [] → ∃ u, exec .tnRdWrite s = .next u ∧
    u.pre.tnRd = BitVec.ofNat 32 s.busValue ∧ u.mem = s.mem ∧ u.cores = s.cores) ∧
  (∀ s : State, s.busOk .tnBaseWrite = true → s.pre.heldNotices = [] → ∃ u, exec .tnBaseWrite s = .next u ∧
    u.pre.tnBase = BitVec.ofNat 64 s.busValue ∧ u.mem = s.mem ∧ u.cores = s.cores)

/-! ## Accesses under way and storage -/

namespace Sys2Proof.Stated

/-- A refused stream is ahead of a piece at its target (R146). -/
def refusedBefore (s : State) (p : Piece) : Prop :=
  ∃ q ∈ s.net, q.tgt = p.tgt ∧ q.tries ≠ 0 ∧ q.src ≠ p.src ∧ (p.tries = 0 ∨ q.tries < p.tries)

/-- An earlier piece that an SO piece waits for at its target: the one before it in its stream, or an SO one (R136, R142). -/
def soAhead (s : State) (p : Piece) : Prop :=
  ∃ q ∈ s.net, q.src = p.src ∧ q.tgt = p.tgt ∧ q.loc = false ∧ q.earlier p = true ∧ q.phase ≠ .done ∧ q.phase ≠ .detHeld ∧
    (q.own = p.pred ∨ q.attr = .so)

/-- What an admitted piece does next at its target: an SO one behind another waits for its turn, a ticketed release is held, any
other performs (R142, R143). -/
def meetsTarget (p : Piece) (s u : State) : Prop :=
  (p.attr = .so ∧ soAhead s p → u = s.modPiece p.id fun q => { q with phase := .turn }) ∧
  (¬ (p.attr = .so ∧ soAhead s p) → p.ticket = true →
    u = (s.modPiece p.id fun q => { q with phase := .held }).laterBy (pathOf s p) (.ackArrival p.id)) ∧
  (¬ (p.attr = .so ∧ soAhead s p) → p.ticket = false → u = perform p s)

/-- A master's access reaches a port's DRAM (R114). -/
def reachesDram (s : State) (port a : Nat) (p : Piece) : Prop :=
  mayDo s port p.master p.op = true ∧ s.edgeReady port = true ∧ a + p.len ≤ (s.edgePort port).size

/-- The leaf grants the access (R119). -/
def granted (l : Leaf) (p : Piece) : Prop :=
  (p.op.reads = true → l.pte.getLsbD 1 = true) ∧ (p.op.writes = true → l.pte.getLsbD 2 = true)

/-- The machine with a response's bytes in the landing that its access belongs to, its width taken with the last (R258, R266). -/
def handIn (c t id : Nat) (p : Piece) (s : State) : State :=
  s.modThread c t fun th => th.modLanding id fun l =>
    let l1 := { l with value := l.value ||| p.resp <<< (8 * p.off), missing := l.missing - 1 }
    if l.missing - 1 = 0 then { l1 with value := finishValue l1 } else l1

/-- The machine with a performed write seen by the frame of an edge port that it falls in (R124). -/
def marked (p : Piece) (k : Nat) (s : State) : State :=
  match p.tgt, p.op.writes with
  | .edge _, true => markFrames k p.len s
  | _, _ => s

/-- Every access of a thread that waits for its turn is about to try again (R142). -/
def turnsWoken (a : Agent) (s u : State) : Prop :=
  ∀ q ∈ u.net, q.src = a → q.phase = .turn → (s.bus, Instr.accessArrival q.id) ∈ u.agenda

end Sys2Proof.Stated

/-- Accesses on their way. A target admits a stream in one of its 4,096 windows, holds an SO access behind an earlier one, holds
a ticketed release, and else performs the access: at a core's store, in memory through a translation, at a device register. It
performs on its own bytes, once, or is held under DET; a word in error fails it. A copy of one already performed is answered
from its window; an acknowledgement of a performed access hands its bytes in and takes it out of the network; one not
acknowledged in 50 µs is sent again, 8 times at most; held releases are performed by their clearance and discarded by a cancel;
the last acknowledged invalidate lets home perform a write; a walk's end performs the access or fails it. Windows idle for 1 ms
go, a window of DET that may close performs its reductions in key order, waits of 8,192 cycles may gate a window, and errors
mark what they hit (R65, R67, R114, R116, R119, R121, R131, R141 to R146, R342). An event of Table 21.2 that a target finds is
told to the thread's core after the way between them (R339). The model's choices among these: that a window waits for reductions
held for a store that is out, and drops those of a departed core (log entry 55), that accesses which meet by the program's
addresses alone are ordered (log entry 78), that a reduction DET may hold leaves its core as any other (log entry 81), and the
intervals of the retries (log entry 66). -/
def Obligations.AccessesProceed : Prop :=
  (∀ (s : State) (id : Nat) (p : Piece), s.piece? id = some p →
    (p.phase = .flying → exec (.accessArrival id) s = .next (arrive p s)) ∧
    (p.phase = .turn → ¬ soAhead s p → exec (.accessArrival id) s = .next (arrive p s)) ∧
    (p.phase = .done → exec (.accessArrival id) s = .next (s.later (.ackArrival id))) ∧
    (p.orphan = false → p.phase = .done → p.err = none → exec (.ackArrival id) s = .next (ackPerformed p s)) ∧
    (p.orphan = false → p.phase = .done → p.err ≠ none → exec (.ackArrival id) s =
      .next (pump (settleAccess p.src p.order (s.modPiece id fun q => { q with acked := true })))) ∧
    (p.orphan = false → p.phase = .held → exec (.ackArrival id) s =
      .next (pump (s.modPiece id fun q => { q with acked := true }))) ∧
    (p.orphan = false → p.phase = .detHeld → ∀ c t, s.whereIs p.src = some (c, t) → exec (.ackArrival id) s =
      .next (pump (checkFences c t (s.modPiece id fun q => { q with acked := true })))) ∧
    (p.orphan = true → (∃ x, s.launch? p.src.launch = some x ∧ x.ended = false) → exec (.ackArrival id) s = .next s) ∧
    (p.orphan = true → (∀ x, s.launch? p.src.launch = some x → x.ended = true) → ∃ u, exec (.ackArrival id) s = .next u ∧
      u.net = s.net.filter (fun q => q.id ≠ id) ∧ u.mem = s.mem ∧ u.cores = s.cores ∧ turnsWoken p.src s u) ∧
    (p.acked = false → p.orphan = false → p.atCore = false → p.tries = 0 → p.sentAt + 50000 ≤ s.now → p.resends < 8 →
      let v := (s.modPiece id fun q => { q with resends := q.resends + 1, sentAt := s.now }).after 50000 (.accessResend id)
      (p.phase = .done → exec (.accessResend id) s = .next (v.laterBy (pathOf s p) (.accessArrival id))) ∧
      (p.phase = .held → exec (.accessResend id) s = .next (v.laterBy (pathOf s p) (.ackArrival id))) ∧
      (p.phase ≠ .done → p.phase ≠ .held → exec (.accessResend id) s = .next v)) ∧
    (p.acked = true ∨ p.orphan = true ∨ p.atCore = true ∨ p.tries ≠ 0 ∨ s.now < p.sentAt + 50000 →
      exec (.accessResend id) s = .next s) ∧
    (p.acked = false → p.orphan = false → p.atCore = false → p.tries = 0 → p.sentAt + 50000 ≤ s.now → 8 ≤ p.resends →
      exec (.accessResend id) s = .next (raiseFatal p.src.launch p.src.bunch p.src.slot
        (s.homeCore p.src.launch p.src.bunch p.src.i) ⟨Cause.mchkResend, p.va, p.pc, p.pc, true, false, 0⟩ s)) ∧
    (p.phase = .flying → p.tries ≠ 0 → exec (.streamAdmitRetry id) s = .next (arrive p s)) ∧
    (∀ rel r, p.op = .clearance rel → p.phase = .flying → (answer p 0 none s).piece? rel = some r → r.phase = .held →
      exec (.releaseClearance id) s = .next (perform r ((answer p 0 none s).modPiece rel fun q => { q with acked := false }))) ∧
    (∀ rel, p.op = .cancel rel → ∃ u, exec (.releaseCancel id) s = .next u ∧ u.mem = s.mem ∧ u.cores = s.cores ∧
      u.net = (s.net.filter fun q => q.id ≠ rel && q.id ≠ id) ∧ turnsWoken p.src s u) ∧
    (p.phase = .held1 → agentActive s p.src = true →
      exec (.remoteRetest id) s = .next (pump (s.modPiece id fun q => { q with phase := .unsent }))) ∧
    (∀ q, p.tgt = .edge q → p.phase = .waiting → exec (.edgeTranslationWalk id) s = .next (finishWalk q p s))) ∧
  -- admission and turn
  (∀ (s : State) (p : Piece),
    ((∀ w ∈ s.wins, ¬ (w.src = p.src ∧ w.tgt = p.tgt)) → 4096 ≤ (s.wins.countP fun w => w.tgt == p.tgt) ∨ refusedBefore s p →
      arrive p s = (s.modPiece p.id fun q => { q with tries := if p.tries = 0 then s.now + 1 else p.tries }).after 1000
        (.streamAdmitRetry p.id)) ∧
    ((∀ w ∈ s.wins, ¬ (w.src = p.src ∧ w.tgt = p.tgt)) → (s.wins.countP fun w => w.tgt == p.tgt) < 4096 → ¬ refusedBefore s p →
      p.tries = 0 → meetsTarget p (({ s with wins := s.wins ++ [⟨p.src, p.tgt, p.pred, [], s.now⟩] } : State).after 1000000
        .streamWindowRetire) (arrive p s)) ∧
    ((∃ w ∈ s.wins, w.src = p.src ∧ w.tgt = p.tgt) → p.tries = 0 → meetsTarget p (({ s with wins := s.wins.map fun w =>
      if w.src == p.src && w.tgt == p.tgt then { w with last := s.now } else w } : State).after 1000000 .streamWindowRetire)
      (arrive p s))) ∧
  -- at the target
  (∀ (s : State) (p : Piece),
    (∀ c d, p.tgt = .core c → p.loc = false → remoteTest s p.src.launch c = .go d → perform p s =
      if mayDo s (112 + fieldOfCore d) p.master p.op = true then performAt (localKey d p.addr) p s
      else failPiece p Cause.accessDenied s) ∧
    (∀ c, p.tgt = .core c → p.loc = false → remoteTest s p.src.launch c = .later → perform p s =
      (s.modPiece p.id fun q => { q with phase := .held1 }).after 1000 (.remoteRetest p.id)) ∧
    (∀ c, p.tgt = .core c → p.loc = false → remoteTest s p.src.launch c = .absent →
      perform p s = failAtCore p Cause.remoteAbsent s) ∧
    (∀ c d t, p.tgt = .core c → p.loc = true → s.whereIs p.src = some (d, t) → perform p s = performAt (localKey d p.addr) p s) ∧
    (∀ q, p.tgt = .edge q → (s.edgePort q).cached p.asid p.va = none → (s.edgePort q).walks < 96 → perform p s =
      ((s.modPiece p.id fun x => { x with phase := .waiting }).modEdge q fun e => { e with walks := e.walks + 1 }).later
        (.edgeTranslationWalk p.id)) ∧
    (∀ q, p.tgt = .edge q → (s.edgePort q).cached p.asid p.va = none → 96 ≤ (s.edgePort q).walks → perform p s =
      (s.modPiece p.id fun x => { x with phase := .flying }).after 1 (.accessArrival p.id)) ∧
    (∀ h, p.tgt = .host h → h < 4 → s.ready.host.getLsbD h = true → perform p s = performAt (hostKey h p.addr) p s) ∧
    (∀ b, p.tgt = .mmio b → p.op.writes = true → (∀ j, j < p.len → s.mmioMayWrite p.master (p.addr + j) = true) →
      perform p s = answer p 0 none (s.mmioWrite p.master p.addr (toBytes p.data p.len))) ∧
    (∀ b, p.tgt = .mmio b → p.op.writes = false → (∀ j, j < p.len → s.mmioMayRead p.master (p.addr + j) = true) →
      perform p s = answer p (ofBytes (mmioBytes s p.addr p.len)) none s) ∧
    (∀ b j, p.tgt = .mmio b → j < p.len → (p.op.writes = true → s.mmioMayWrite p.master (p.addr + j) = false) →
      (p.op.writes = false → s.mmioMayRead p.master (p.addr + j) = false) → perform p s = failPiece p Cause.accessDenied s)) ∧
  -- through a translation
  (∀ (s : State) (q : Nat) (l : Leaf) (p : Piece),
    (¬ granted l p → performEdge q l p s = failPiece p Cause.edgePerm s) ∧
    (granted l p → l.tt = 0 → reachesDram s l.port (l.phys p.va) p →
      performEdge q l p s = performAt (edgeKey l.port (l.phys p.va)) p s) ∧
    (granted l p → l.tt = 0 → ¬ reachesDram s l.port (l.phys p.va) p → performEdge q l p s = failPiece p Cause.accessDenied s) ∧
    (granted l p → l.tt = 1 → s.ready.host.getLsbD l.port = true →
      performEdge q l p s = performAt (hostKey l.port (l.phys p.va)) p s) ∧
    (granted l p → l.tt = 2 → l.res = false →
      performEdge q l p s = (s.modPiece p.id fun x => { x with phase := .paged }).soon (.storageFault p.id)) ∧
    (granted l p → l.tt = 2 → l.res = true → p.op.writes = false → reachesDram s (4 * l.port) (l.phys p.va) p →
      performEdge q l p s = performAt (edgeKey (4 * l.port) (l.phys p.va)) p s) ∧
    (granted l p → l.tt = 3 → reachesDram s l.port (l.phys p.va) p → p.op.writes = true →
      let ports := replicaPorts s l.port (l.pte.toNat / 2 ^ 16 % 2 ^ 36)
      (ports = [] → performEdge q l p s = performAt (edgeKey l.port (l.phys p.va)) p s) ∧
      (ports ≠ [] → (performEdge q l p s).mem = s.mem ∧ (performEdge q l p s).invWaits = s.invWaits ++
        [⟨p.id, ports, edgeKey l.port (l.phys p.va), l.port, l.pte.toNat / 2 ^ 16 % 2 ^ 36⟩]))) ∧
  (∀ (s : State) (q : Nat) (p : Piece),
    (∀ c, walk s q p.asid p.va = .error c → finishWalk q p s = failPiece p c (s.modEdge q fun e => { e with walks := e.walks - 1 })) ∧
    (∀ l, walk s q p.asid p.va = .ok l → ∃ u, finishWalk q p s = performEdge q l p u ∧ u.mem = s.mem ∧ u.net = s.net ∧
      (q < s.edges.length → (u.edgePort q).walks = (s.edgePort q).walks - 1 ∧
        ⟨p.asid, l.base p.va, l.size, l.pte, l.at_⟩ ∈ (u.edgePort q).cache))) ∧
  -- on the bytes
  (∀ (s : State) (k : Nat) (p : Piece),
    (p.meetsError s k = true → performAt k p s = failPiece p Cause.memEcc s) ∧
    (p.meetsError s k = false → p.det ≠ none → detHeldAt s p.tgt < 256 → s.piece? p.id = some p → (performAt k p s).mem = s.mem ∧
      ((performAt k p s).piece? p.id).map Piece.phase = some .detHeld ∧ ((performAt k p s).piece? p.id).map Piece.resp = some k) ∧
    (p.meetsError s k = false → p.det ≠ none → 256 ≤ detHeldAt s p.tgt → performAt k p s = answer p (p.apply (p.notes 5 s) k).2 none
      (touch k p (marked p k (p.apply (p.notes 5 s) k).1))) ∧
    (p.meetsError s k = false → p.det = none → (p.handler = true ∨ fitRounds p.op p.data (loadN s k p.len) = false) →
      performAt k p s = answer p (p.apply s k).2 none (touch k p (marked p k (p.apply s k).1))) ∧
    (p.meetsError s k = false → p.det = none → p.handler = false → fitRounds p.op p.data (loadN s k p.len) = true →
      performAt k p s = answer p (p.apply (p.notes 5 s) k).2 none (touch k p (marked p k (p.apply (p.notes 5 s) k).1)))) ∧
  -- events found at a target
  (∀ (s : State) (p : Piece) (code : Nat),
    (p.loc = true → p.notes code s = logNd p.src code p.pc s) ∧
    (p.loc = false → ∃ due, s.now + pathOf s p ≤ due ∧ (p.notes code s).ndNotes = s.ndNotes ++ [⟨due, p.src, code, p.pc⟩] ∧
      (p.notes code s).launches = s.launches ∧ (p.notes code s).mem = s.mem)) ∧
  (∀ (s : State) (x : NdNote), s.ndNotes = [x] →
    (s.now < x.due → deliverNotes s = s) ∧
    (x.due ≤ s.now → deliverNotes s = logNd x.who x.code x.pc { s with ndNotes := [] })) ∧
  (∀ (s : State) (p : Piece) (resp : Nat) (err : Option Nat), s.piece? p.id = some p →
    let u := answer p resp err s
    u.mem = s.mem ∧ (u.piece? p.id).map Piece.phase = some .done ∧ (u.piece? p.id).map Piece.resp = some resp ∧
    (u.piece? p.id).map Piece.err = some err ∧ ∃ t, s.now ≤ t ∧ (t, Instr.ackArrival p.id) ∈ u.timers) ∧
  (∀ (s : State) (p : Piece) (cause : Nat), s.piece? p.id = some p → (failPiece p cause s).mem = s.mem ∧
    ((failPiece p cause s).piece? p.id).map Piece.phase = some .done ∧
    ((failPiece p cause s).piece? p.id).map Piece.err = some (some cause)) ∧
  -- acknowledged
  (∀ (s : State) (p : Piece),
    let s1 := logAcas p (s.dropPiece p.id)
    let s2 := match p.land, s1.whereIs p.src with
      | some id, some (c, t) => landResult c t id (handIn c t id p s1)
      | _, _ => s1
    let s3 := settleAccess p.src p.order s2
    let s4 := match s3.whereIs p.src with
      | some (c, t) => checkFences c t s3
      | none => s3
    ackPerformed p s = ((pump s4).soon (.bunchRetire p.src.launch p.src.bunch)).soon (.orphanTimeout p.src.launch p.src.bunch)) ∧
  (∀ s : State, ∃ u, exec .streamWindowRetire s = .next u ∧ u.mem = s.mem ∧ u.cores = s.cores ∧
    ∀ w, w ∈ u.wins ↔ w ∈ s.wins ∧ s.now < w.last + 1000000) ∧
  (∀ (s : State) (id p : Nat) (w : InvWait) (q : Piece), s.invWaits.find? (fun w => w.piece == id) = some w →
    ((∀ r ∈ w.left, r = p) → s.piece? id = some q → q.phase = .waiting →
      exec (.replicaInvalidateAck id p) s = .next (performAt w.key q
        (setReplicas w.home w.frame [] { s with invWaits := s.invWaits.filter fun w => w.piece ≠ id }))) ∧
    ((∃ r ∈ w.left, r ≠ p) → ∃ u, exec (.replicaInvalidateAck id p) s = .next u ∧ u.mem = s.mem ∧ u.net = s.net ∧
      u.invWaits = s.invWaits.map fun x => if x.piece == id then { x with left := w.left.filter (· ≠ p) } else x)) ∧
  -- DET windows
  (∀ (s : State) (x : Launch) (w : Nat), s.launch? x.id = some x → openWindows s x.id = [w] →
    (closable s x (w / 2 ^ 32) (w % 2 ^ 32) = true → exec (.detWindowClose x.id) s =
      .next ((closeWindow x.id (w / 2 ^ 32) (w % 2 ^ 32) s).soon (.roundEnd x.id))) ∧
    (closable s x (w / 2 ^ 32) (w % 2 ^ 32) = false → exec (.detWindowClose x.id) s = .next s)) ∧
  (∀ (s : State) (x : Launch) (round g : Nat), closable s x round g = true ↔
    (round < x.round ∨ (x.desc.bcount ≤ x.bunches.length ∧ ∀ y ∈ x.bunches, passed s x g y = true)) ∧
    (∀ p ∈ s.net, p.src.launch = x.id → p.phase ≠ .detHeld → p.phase ≠ .done → ∀ k, p.det = some k → ¬ (k.round = round ∧ k.g = g)) ∧
    ∀ p ∈ heldOf s x.id round g, heldKey s p ≠ none) ∧
  (∀ (s : State) (l round g : Nat), ∃ ps : List Piece, ps.Perm (heldOf s l round g) ∧
    ps.Pairwise (fun p q => detRank p ≤ detRank q) ∧ closeWindow l round g s = ps.foldl (fun u p => performHeld p u) s) ∧
  (∀ (s : State) (p : Piece),
    (∀ k, heldKey s p = some (some k) → performHeld p s = (touch k p (marked p k (p.apply s k).1)).dropPiece p.id) ∧
    (heldKey s p = some none → performHeld p s = s.dropPiece p.id) ∧
    (∀ c d, p.tgt = .core c → remoteTest s p.src.launch c = .go d → heldKey s p = some (some (localKey d p.addr)))) ∧
  (∀ (s : State) (c t : Nat) (w : Wait), t < (s.core c).threads.length → (s.thread c t).wait = some w →
    ∃ u, exec (.windowDrowsy c t) s = .next u ∧ u.mem = s.mem ∧
      u.thread c t = { s.thread c t with drowsy := (s.thread c t).drowsy || decide (w.since + 8192 ≤ s.now) } ∧
      ∀ c' t', ¬ (c' = c ∧ t' = t) → u.thread c' t' = s.thread c' t') ∧
  (∀ (s : State) (a : Nat),
    exec (.softError 0 a) s = .next s ∧
    (∃ u, exec (.softError 1 a) s = .next u ∧ u.mem = s.mem ∧ u.badMem = s.badMem ∧
      (a / 256 % 8 < (s.core (a / 2048)).threads.length → a % 256 ∈ (u.thread (a / 2048) (a / 256 % 8)).badGroups)) ∧
    (∃ u, exec (.softError 2 a) s = .next u ∧ u.mem = s.mem ∧ u.cores = s.cores ∧
      ∀ b, b ∈ u.badMem ↔ b ∈ s.badMem ∨ b / 8 = a / 8)) ∧
  (∀ (e p : Piece), e.isAccess = true → e.src = p.src → e.order < p.order → e.pending = true →
    ((e.overlaps p = true ∧ ¬ (e.attr = .uo ∧ p.attr = .uo)) ∨ (e.acq ≠ none ∧ p.attr ≠ .uo) ∨
      (e.attr = .so ∧ p.attr = .so ∧ (e.tgt ≠ p.tgt ∨ e.loc ≠ p.loc ∨ e.atCore = true)) ∨
      (p.rel ≠ none ∧ e.attr ≠ .uo ∧ p.ticketable = false)) → e.blocks p = true) ∧
  (∀ (e p : Piece), e.isAccess = true → e.unacked = true → e.src = p.src → e.order = p.order → e.off < p.off → e.atCore = true →
    e.blocks p = true)

namespace Sys2Proof.Stated

/-- The machine with a fill's page copied from its drive into its frame. -/
def filledFrame (s : State) (e a m : Nat) (f : Fill) : State :=
  let d := (s.cellar e).drive m
  let bs := ((s.cellar e).lbaSize d).getD 512
  let n := poolSize f.pool
  { s with mem := Mem.copy s.mem (driveKey e d ((s.cellar e).lba m f.va bs * bs)) (edgeKey (4 * e) a) n,
           badMem := s.badMem.filter fun k => !(edgeKey (4 * e) a ≤ k && k < edgeKey (4 * e) a + n) }

/-- The first fill of a pool that waits for a frame: mapped, and its page not being written back (R124). -/
def firstWanting (s : State) (e pool : Nat) (f : Fill) : Prop :=
  (s.cellar e).fills.find? (fun f => f.pool == pool && (s.cellar e).wants f) = some f

/-- No frame of a pool is free, and of its frames, in the order they were filled, `v` is the first that is not being evicted and
has no access in flight (R124). -/
def evictable (s : State) (e pool : Nat) (v : Frame) : Prop :=
  (s.cellar e).freeFrame pool = none ∧ v.pool = pool ∧ v.evicting = false ∧ frameInFlight s v = false ∧
  ∃ before after, (s.cellar e).frames = before ++ v :: after ∧
    ∀ f ∈ before, f.pool = pool → f.evicting = true ∨ frameInFlight s f = true

/-- The PTE of a page with RES as given. -/
def withRes (b : Nat) (w : W64) : W64 := putBits w 6 1 b

/-- The pages of the first `n` entries of a core's dirty log. -/
def logEntries (s : State) (c n : Nat) : List Nat :=
  (List.range n).map fun j => loadN s (localKey c ((s.core c).dlogbase.toNat + 8 * j)) 8

end Sys2Proof.Stated

/-- A storage fault begins the fill of its page and asks the thread's bunch to halt; a page that arrives is copied from its
drive into its frame; a fill without a frame takes a free one or evicts the frame filled first that has no access in flight: RES
is cleared, a written page goes to its drive first, and the frame goes to the fill. Write-backs copy the frame to its drive; a
command fails for good at its fourth failure, and then its fill ends with STORAGE_IO, also for a thread that waits for a block
of the page, or its page stays resident. A write is seen by the frame it meets; a FENCE at PERSIST awaits the drives of the
written pages and the drives written since their last Flush. A merge of the dirty log sets D for each logged page and empties
the log (R123 to R129). That an eviction without a frame to take tries again after 1,000 cycles is the model's choice (log entry
66), as is the number of an NVMe failure, command × 2^16 + status (log entry 26). -/
def Obligations.StorageRuns : Prop :=
  (∀ (s : State) (id q : Nat) (p : Piece) (x : Launch), s.piece? id = some p → p.tgt = .edge q → p.phase = .paged →
    s.launch? p.src.launch = some x → x.ended = false →
    (∀ c, walk s q p.asid p.va = .error c → exec (.storageFault id) s = .next (failPiece p c s)) ∧
    (∀ l, walk s q p.asid p.va = .ok l → l.tt = 2 → l.res = false →
      let f := beginFill l.port q p.asid l p.va s
      exec (.storageFault id) s = .next (dropUnserved l.port p.asid p.va f.2 (requestHalt p.src.launch p.src.bunch Cause.pageSwap p.va
        (awaitFill p.src.launch p.src.bunch f.2 f.1)))) ∧
    (∀ l, walk s q p.asid p.va = .ok l → ¬ (l.tt = 2 ∧ l.res = false) → exec (.storageFault id) s = .next (performEdge q l p s))) ∧
  (∀ (s : State) (e id a m : Nat) (f : Fill), (s.cellar e).fills.find? (fun f => f.id == id) = some f → f.frame = some a →
    f.map = some m → s.mayWrite (4 * e) (.engine 0 f.asid) = true → a + poolSize f.pool ≤ (s.edgePort (4 * e)).size →
    e < s.cellars.length →
    ∃ u, exec (.pageFillComplete e id) s = .next u ∧ u.mem = (modPte f.port f.asid f.va (filledPte a) (filledFrame s e a m f)).mem ∧
      ((u.cellar e).fills.all fun g => g.id != id) = true ∧ ⟨f.pool, a, f.asid, f.va, f.port, false, false⟩ ∈ (u.cellar e).frames) ∧
  -- a frame for a fill
  (∀ (s : State) (e pool a : Nat) (f : Fill), firstWanting s e pool f →
    (s.cellar e).freeFrame pool = some a → exec (.frameEviction e pool) s = .next (launchFill e f.id a s)) ∧
  (∀ (s : State) (e pool : Nat) (f : Fill) (v : Frame), firstWanting s e pool f → evictable s e pool v → e < s.cellars.length →
    (v.written = false → ∃ u, exec (.frameEviction e pool) s = .next u ∧
      u.mem = (modPte v.port v.asid v.va (withRes 0) s).mem ∧ (∀ g ∈ (u.cellar e).frames, g.addr ≠ v.addr) ∧
      ∀ g ∈ (u.cellar e).fills, g.id = f.id → g.frame = some v.addr) ∧
    (∀ m, v.written = true → (s.cellar e).mapping v.asid v.va = some m → ∃ u, exec (.frameEviction e pool) s = .next u ∧
      u.mem = (modPte v.port v.asid v.va (withRes 0) s).mem ∧
      (∀ g ∈ (u.cellar e).frames, g.addr = v.addr → g.evicting = true) ∧
      ∃ w ∈ (u.cellar e).wbs, w.id = s.nextId ∧ w.addr = v.addr ∧ w.asid = v.asid ∧ w.va = v.va ∧ w.port = v.port ∧
        w.drive = (s.cellar e).drive m ∧ w.flush = false ∧ w.keep = false) ∧
    (v.written = true → (s.cellar e).mapping v.asid v.va = none → ∃ u, exec (.frameEviction e pool) s = .next u ∧
      (u.cellar e).wberr = true ∧ { v with evicting := false } ∈ (u.cellar e).frames ∧ (u.cellar e).wbs = (s.cellar e).wbs)) ∧
  (∀ (s : State) (e pool : Nat) (f : Fill), firstWanting s e pool f → (s.cellar e).freeFrame pool = none →
    (∀ v ∈ (s.cellar e).frames, v.pool = pool → v.evicting = true ∨ frameInFlight s v = true) →
    exec (.frameEviction e pool) s = .next (s.after 1000 (.frameEviction e pool))) ∧
  (∀ (x : Cellar) (f : Fill), x.wants f = true ↔ f.frame = none ∧ f.map ≠ none ∧
    ∀ g ∈ x.frames, g.evicting = true → ¬ (g.asid = f.asid ∧ g.va = f.va ∧ g.port = f.port)) ∧
  -- write-backs
  (∀ (s : State) (e id : Nat) (w : WriteBack) (f : Frame), (s.cellar e).wbs.find? (fun w => w.id == id) = some w →
    w.flush = false → w.drive ≠ 64 → (s.cellar e).frames.find? w.of = some f → e < s.cellars.length →
    let bs := ((s.cellar e).lbaSize w.drive).getD 512
    ∃ u, exec (.pageWriteBackComplete e id true) s = .next u ∧
      u.mem = Mem.copy s.mem (edgeKey (4 * e) f.addr) (driveKey e w.drive (w.lba * bs)) (poolSize f.pool) ∧ u.cores = s.cores ∧
      (w.keep = true → ∀ g ∈ (u.cellar e).frames, g.addr = f.addr → g.written = false) ∧
      (w.keep = false → ∀ g ∈ (u.cellar e).frames, g.addr ≠ f.addr) ∧ w.drive ∈ (u.cellar e).unflushed) ∧
  (∀ (s : State) (e id : Nat) (w : WriteBack), (s.cellar e).wbs.find? (fun w => w.id == id) = some w →
    w.flush = false → w.drive ≠ 64 → (s.cellar e).frames.find? w.of = none →
    ∃ u, exec (.pageWriteBackComplete e id true) s = .next u ∧ u.mem = s.mem ∧ u.cores = s.cores) ∧
  (∀ (w : WriteBack) (f : Frame), w.of f = true ↔ f.addr = w.addr ∧ f.asid = w.asid ∧ f.va = w.va ∧ f.port = w.port) ∧
  -- what was written, and what a FENCE at PERSIST awaits
  (∀ (s : State) (k n e : Nat), ((markFrames k n s).cellar e).frames = (s.cellar e).frames.map fun f =>
    if edgeKey (4 * e) f.addr < k + n ∧ k < edgeKey (4 * e) f.addr + poolSize f.pool ∧ e < s.cellars.length then
      { f with written := true } else f) ∧
  (∀ (s : State) (asid e d : Nat), e < 16 → d ∈ (s.cellar e).unflushed ∨
    (∃ f ∈ (s.cellar e).frames, f.written = true ∧ f.asid = asid ∧ d = match (s.cellar e).mapping f.asid f.va with
      | some m => (s.cellar e).drive m
      | none => 64) → 128 * e + d ∈ persistKeys s asid) ∧
  -- commands that fail
  (∀ (s : State) (e id code : Nat) (f : Fill), (s.cellar e).fills.find? (fun f => f.id == id) = some f → e < s.cellars.length →
    (Tbl.get f.fails (code / 2 ^ 16) 0 < 3 →
      ∃ u, exec (.nvmeCommandFail e id code) s = .next u ∧ u.mem = s.mem ∧ u.cores = s.cores ∧
        ((u.cellar e).fills.find? fun f => f.id == id).map (fun g => Tbl.get g.fails (code / 2 ^ 16) 0) =
          some (Tbl.get f.fails (code / 2 ^ 16) 0 + 1)) ∧
    (Tbl.get f.fails (code / 2 ^ 16) 0 = 3 →
      ∃ u, exec (.nvmeCommandFail e id code) s = .next u ∧ u.mem = s.mem ∧ (∀ g ∈ (u.cellar e).fills, g.id ≠ id) ∧
        (∀ c t, (s.thread c t).blockFill = some id → (u.thread c t).blockErr = true) ∧
        (u.cellar e).fillerr = true ∧ (u.cellar e).sc = code % 2 ^ 16 ∧ (u.cellar e).erraddr = BitVec.ofNat 64 f.va ∧
        u.net = s.net.map fun p => if p.asid = f.asid ∧ p.tgt = .edge f.port ∧ p.va / poolSize f.pool * poolSize f.pool = f.va ∧
          p.phase = .paged then { p with phase := .done, err := some Cause.storageIo } else p)) ∧
  (∀ (s : State) (e id code : Nat) (w : WriteBack) (f : Frame), (∀ g ∈ (s.cellar e).fills, g.id ≠ id) →
    (s.cellar e).wbs.find? (fun w => w.id == id) = some w → w.flush = false → w.keep = false → w.await = false →
    Tbl.get w.fails (code / 2 ^ 16) 0 = 3 → (s.cellar e).frames.find? (fun f => f.addr == w.addr) = some f → w.of f = true →
    e < s.cellars.length → ∃ u, exec (.nvmeCommandFail e id code) s = .next u ∧ u.mem = (modPte f.port f.asid f.va (withRes 1) s).mem ∧
      { f with evicting := false } ∈ (u.cellar e).frames ∧ (u.cellar e).wberr = true ∧ (u.cellar e).sc = code % 2 ^ 16 ∧
      ∀ v ∈ (u.cellar e).wbs, v.id ≠ id) ∧
  -- the dirty log
  (∀ (s : State) (c : Nat), (s.core c).merging = true → exec (.dlogMerge c) s = .next (landMerges c (mergeLog c s)) ∧
    (mergeLog c s).mem = (mergeEntries c (s.asidOf c) (logEntries s c (s.core c).logIdx) s).mem ∧
    ∃ u, exec (.dlogMerge c) s = .next u ∧ (u.core c).logIdx = 0 ∧ (u.core c).filter = [] ∧ (u.core c).merging = false) ∧
  (∀ (s : State) (c : Nat), (s.core c).merging = false → exec (.dlogMerge c) s = .next s) ∧
  (∀ (s : State) (c asid e : Nat), e % 4 ≠ 3 → mergeEntries c asid [e] s =
    (portsFor (s.core c) (e / 2 ^ 16 * 2 ^ 16) (if e % 4 = 0 then 2 ^ 16 else if e % 4 = 1 then 2 ^ 21 else 2 ^ 30)).foldl
      (fun u q => setDirty asid (e / 2 ^ 16 * 2 ^ 16) q u) s) ∧
  (∀ (s : State) (asid va q : Nat) (l : Leaf), Mem.wf s.mem = true → walk s q asid va = .ok l →
    let k := edgeKey q l.at_
    BitVec.ofNat 64 (loadN (setDirty asid va q s) k 8) = l.pte ||| 0x20 ∧
    ∀ a, a < k ∨ k + 8 ≤ a → Mem.read (setDirty asid va q s).mem a = Mem.read s.mem a)

/-! ## The module: bring-up, debugger, security, registers, trace -/

namespace Sys2Proof.Stated

/-- What an event beside the cores leaves: memory, cores and launches. -/
def besideCores (s u : State) : Prop := u.mem = s.mem ∧ u.cores = s.cores ∧ u.launches = s.launches

/-- Bring-up may go on past the host ports: firmware verified, a host port ready, no standby (R372). -/
def upward (s : State) : Prop := s.ready.sec = true ∧ s.ready.host ≠ 0 ∧ s.standby = false

/-- Bring-up may go on past the fields: an edge port is ready, and a field is ready or drains (R372). -/
def upwardRest (s : State) : Prop := upward s ∧ s.ready.edge ≠ 0 ∧ (s.ready.field ≠ 0 ∨ s.draining ≠ [])

/-- Bring-up may go on past the Cellar engines: one is ready (R372). -/
def upwardLinks (s : State) : Prop := upwardRest s ∧ s.ready.cellar ≠ 0

/-- A launch has got its first Fatal cause, from a bunch's slot 0, and is about to end (R335). -/
def checkedBy (u : State) (l b cause core : Nat) : Prop :=
  ∃ r : Raised, r.cause = cause ∧ (u.launch? l).map Launch.fatal = some (some (r, b, 0, core)) ∧ ∃ x ∈ u.agenda, x.2 = .launchComplete l

/-- What a start of the machine leaves of `ready`: SEC alone, and that only if the vendor's signature of the firmware image
verifies; every bit that changes is signalled (R364, R371). -/
def startsUp (s u : State) : Prop :=
  u.ready = ⟨0, 0, vendorVerifies firmwareImage (constBytes Config.firmwareSig 132), 0, 0, 0⟩ ∧
  (s.ready ≠ State.reset.ready → 17 ∈ u.msix)

/-- The field of a core drains. -/
def drains (s : State) (c : Nat) : Prop := fieldOfCore c ∈ s.draining

/-- A debug command may act: a write of `dbg_cmd` with its CMD, no command running, a level high enough, and its core there. -/
def commanded (i : Instr) (s : State) (lvl c t : Nat) : Prop :=
  s.busOk i = true ∧ s.dbg.busy = false ∧ lvl ≤ s.debugLevel ∧ c = s.busValue % 2 ^ 17 ∧ t = s.busValue / 2 ^ 17 % 8 ∧
  s.coreThere c = true ∧ t < (s.core c).threads.length

/-- A debug command that names no core may act. -/
def commandedAll (i : Instr) (s : State) (lvl : Nat) : Prop := s.busOk i = true ∧ s.dbg.busy = false ∧ lvl ≤ s.debugLevel

/-- The machine as a command finds it: CMD written, the error and the marks of the last command cleared. -/
def received (s : State) : State :=
  s.modDebug fun d => { d with cmd := BitVec.ofNat 64 s.busValue &&& 0xFF000000000FFFFF, err := 0, precise := false, cancel := false, gated := false, done := true }

/-- The debug commands, with the level each needs and whether it names a core (Table 23.6). -/
def debugCommands : List (Instr × Nat × Bool) :=
  [(.rslice, 1, true), (.wslice, 2, true), (.rcsr, 1, true), (.wcsr, 2, true), (.rmem, 1, true), (.wmem, 2, true),
   (.halt, 2, true), (.haltb, 2, true), (.resume, 2, true), (.step, 2, true), (.setbp, 2, true), (.rsave, 1, false),
   (.wsave, 2, false), (.brkmode, 2, false)]

/-- Memory with a frame written to slot `wr` of a trace ring, if its target takes it (R384). -/
def frameAt (b : TraceBlk) (wr : W32) (frame : List Byte) (s : State) : List Host.Cell :=
  ((s.physWrite (.engine 3 0) (b.base.toNat + 4096 * (wr &&& b.mask).toNat) frame).map State.mem).getD s.mem

/-- What a register write leaves of the module's other units (Table 23.1); a frame that a trace block then writes may mark the
frames of a Cellar engine as written. -/
def otherUnits (s u : State) : Prop :=
  let k := mmioBlock s.bus.reg
  (k ≠ some 97 → u.lqs = s.lqs ∧ u.pre = s.pre ∧ u.clog = s.clog) ∧ (k ≠ some 98 → u.trace = s.trace) ∧
  (k ≠ some 99 → u.dbg = s.dbg) ∧ (k ≠ some 101 → u.security = s.security) ∧ (k ≠ some 104 → u.edges = s.edges) ∧
  (k ≠ some 105 → k ≠ some 98 → u.cellars = s.cellars) ∧
  (∀ q, q ≠ (s.bus.reg - 0x10000) / 0x40 → u.lq q = s.lq q) ∧ (∀ f, f ≠ (s.bus.reg - 0x20000) / 0x100 → u.traceBlk f = s.traceBlk f) ∧
  (∀ p, p ≠ (s.bus.reg - 0x80000) / 0x1000 → u.edgePort p = s.edgePort p) ∧
  ∀ e, e ≠ (s.bus.reg - 0x100000) / 0x1000 → k ≠ some 98 → u.cellar e = s.cellar e

/-- A DATA window's low bytes. -/
def dataLow (u : State) (n : Nat) : Nat := ofBytes (u.dbg.data.take n)

end Sys2Proof.Stated

/-- Readiness and bring-up: each unit that trains sets its `ready` bit, in the order firmware, host ports, edge memory, fields,
Cellar engines, link ports; a lost link clears its bit; TIME never goes back; a failed core is marked, its bunch's launch ends
with MCHK_CORE and its field drains; a failed link ends with MCHK_LINK each launch a bunch of which it carries, and fails the
cores at its ends; grafting sets a field's bit by whether its spares suffice; POWER_UP and RESET put every register at its reset
value, RESET keeping memory, and leave SEC ready only where the firmware image verifies; standby is refused while a launch holds
a core, and else leaves only SEC and the host ports ready (R12, R13, R132, R335, R356, R357, R364, R367, R370 to R372). That a
stage may begin once one unit of the stage before is ready, and that a field which drains counts, are the model's choices (log
entry 45), as is that TIME moves forward alone, by 1 ns at most every 10 µs (log entry 60). -/
def Obligations.BringUp : Prop :=
  (∀ (s : State) (p : Nat), s.ready.sec = true → p < 4 → ∃ u, exec (.hostLinkTrained p) s = .next u ∧
    u.ready = { s.ready with host := setBit s.ready.host p true } ∧ besideCores s u) ∧
  (∀ (s : State) (p size : Nat), upward s → p < 64 → p < s.edges.length → ∃ u, exec (.edgeMemoryTrained p size) s = .next u ∧
    u.ready = { s.ready with edge := setBit s.ready.edge p true } ∧ (u.edgePort p).size = min size (2 ^ 39) ∧ besideCores s u) ∧
  (∀ (s : State) (e drives : Nat), upwardRest s → e < 16 → e < s.cellars.length → s.edgeReady (4 * e) = true →
    ∃ u, exec (.cellarDrivesReady e drives) s = .next u ∧
    u.ready = { s.ready with cellar := setBit s.ready.cellar e true } ∧ besideCores s u ∧
    ∀ d, d < 4 → (u.cellar e).lbaSize d =
      if drives.testBit d then some (if drives.testBit (4 + d) then 4096 else 512) else none) ∧
  (∀ (s : State) (p : Nat), upwardLinks s → p < 16 → p < s.links.length → s.edgeReady (4 * p + 2) = true →
    ∃ u, exec (.linkPortLocked p) s = .next u ∧ u.ready = { s.ready with link := setBit s.ready.link p true } ∧
    u.links.getD p ⟨false, 0, 0⟩ = ⟨true, 0, s.now⟩ ∧ besideCores s u) ∧
  (∀ (s : State) (p : Nat), s.ready.link.getLsbD p = true → ∃ u, exec (.linkPortDown p) s = .next u ∧
    u.ready = { s.ready with link := setBit s.ready.link p false } ∧ besideCores s u) ∧
  (∀ s : State, exec .linkFlitRetry s = .next s) ∧
  (∀ (s : State) (p : Nat), p < s.links.length → ∃ u, exec (.linkRekey p) s = .next u ∧
    (u.links.getD p ⟨false, 0, 0⟩).nonce = 0 ∧ u.ready = s.ready ∧ besideCores s u) ∧
  (∀ s : State, ∃ u, exec .timeSync s = .next u ∧ s.now ≤ u.now ∧ (s.nextLaunch ≠ 0 → u.now ≤ s.now + 1) ∧
    (s.nextLaunch ≠ 0 → s.now < s.syncAt + 10000 → u.now = s.now) ∧ besideCores s u) ∧
  (∀ (s : State) (c : Nat), c < 86016 → ∃ u, exec (.coreFailure c) s = .next u ∧ (u.core c).failed = true ∧ drains u c ∧
    u.mem = s.mem ∧ (∀ d, d ≠ c → u.core d = s.core d) ∧ ((s.core c).owner = none → u.launches = s.launches) ∧
    ∀ o x, (s.core c).owner = some o → s.launch? o.launch = some x → x.fatal = none →
      checkedBy u o.launch o.bunch Cause.mchkCore (s.homeCore o.launch o.bunch o.i)) ∧
  (∀ (s : State) (c dir d : Nat), c < 86016 → neighbour c dir = some d → ∃ u, exec (.meshLinkFailure c dir) s = .next u ∧
    (u.core c).failed = true ∧ (u.core d).failed = true ∧ drains u c ∧ drains u d ∧ u.mem = s.mem ∧
    ∀ x y, s.launch? x.id = some x → y ∈ x.bunches → carries s x.id y.idx c d = true → x.fatal = none →
      ∃ b core, checkedBy u x.id b Cause.mchkLink core) ∧
  (∀ (s : State) (c dir : Nat), neighbour c dir = none → exec (.meshLinkFailure c dir) s = .next s) ∧
  (∀ (s : State) (f : Nat) (ok : Bool), upward s → s.ready.edge ≠ 0 → f < 48 → s.ready.field.getLsbD f = false ∨ f ∈ s.draining →
    fieldCores s f = [] → ∃ u, exec (.grafting f ok) s = .next u ∧
    u.ready = { s.ready with field := setBit s.ready.field f ok } ∧ f ∉ u.draining ∧ u.mem = s.mem) ∧
  (∀ s : State, s.ready.sec = false ∨ s.standby = true ∨ s.ready.host = 0 → ∀ p size e drives f ok,
    exec (.edgeMemoryTrained p size) s = .next s ∧ exec (.cellarDrivesReady e drives) s = .next s ∧
    exec (.linkPortLocked p) s = .next s ∧ exec (.grafting f ok) s = .next s) ∧
  (∀ (s : State) (p : Nat), s.ready.cellar = 0 ∨ s.edgeReady (4 * p + 2) = false → exec (.linkPortLocked p) s = .next s) ∧
  (∀ (s : State) (e drives : Nat), (s.ready.field = 0 ∧ s.draining = []) ∨ s.edgeReady (4 * e) = false →
    exec (.cellarDrivesReady e drives) s = .next s) ∧
  (∀ s : State, ∃ u, exec .powerUp s = .next u ∧ u.cores = [] ∧ u.launches = [] ∧ u.mem = drivesOnly s.mem ∧ u.now = s.now ∧
    u.lqs = State.reset.lqs ∧ u.edges = State.reset.edges ∧ u.security.fused = s.security.fused ∧ startsUp s u) ∧
  (∀ s : State, ∃ u, exec .reset s = .next u ∧ u.cores = [] ∧ u.launches = [] ∧ u.mem = s.mem ∧ u.now = s.now ∧
    u.lqs = State.reset.lqs ∧ u.edges = State.reset.edges ∧ u.dbg.level = State.reset.dbg.level ∧
    (s.security.fused = false → u.dbg.secState = 0) ∧ u.tables = State.reset.tables ∧ startsUp s u) ∧
  (∀ s : State, s.busOk .standbyRequest = true → ∃ u, exec .standbyRequest s = .next u ∧ besideCores s u ∧
    (standbyBarred s = true → u.standby = s.standby ∧ u.pwRefused = true ∧ u.ready = s.ready) ∧
    (standbyBarred s = false → u.standby = true ∧ u.pwRefused = false ∧ u.ready = ⟨0, 0, s.ready.sec, s.ready.host, 0, 0⟩)) ∧
  (∀ s : State, s.busOk .standbyExit = true → ∃ u, exec .standbyExit s = .next u ∧ u.standby = false ∧ u.ready = s.ready ∧
    besideCores s u)

/-- Commands of the debug mailbox (R374): ERR 5 while one runs, ERR 1 below its level, ERR 2 for a core that is not there.
RSLICE and WSLICE read and write a window with results in flight written, RCSR and WCSR a CSR, RMEM and WMEM local store; HALT
and STEP act on a thread, HALTB on a bunch, RESUME on a halted thread or on a bunch that HALTB halted (ERR 3 where it is not
halted), SETBP sets a comparator, BRKMODE what BRK does; RSAVE reads the bytes of a save area and WSAVE writes them, with the
CRC of each region it writes (R68, R163, R316, R336, R374 to R378). That a command completes at once, and which code answers a
bad argument or a missing core or bunch, are the model's choices (log entry 40), as is that RSAVE and WSAVE name a virtual
address of the launch's ASID (log entry 47). -/
def Obligations.DebuggerActs : Prop :=
  (∀ i lvl named, (i, lvl, named) ∈ debugCommands → ∀ s : State, s.busOk i = true →
    (s.dbg.busy = true → exec i s = .next (s.modDebug fun d => { d with err := 5 })) ∧
    (s.dbg.busy = false → s.debugLevel < lvl → exec i s = .next ((received s).modDebug fun d => { d with err := 1 })) ∧
    (s.dbg.busy = false → lvl ≤ s.debugLevel → named = true → s.coreThere (s.busValue % 2 ^ 17) = false →
      exec i s = .next ((received s).modDebug fun d => { d with err := 2 }))) ∧
  (∀ (s : State) (c t : Nat), commanded .rslice s 1 c t → slicesOk s.arg0 s.arg1 = true → ∃ u, exec .rslice s = .next u ∧
    u.dbg.err = 0 ∧ u.mem = s.mem ∧ (u.thread c t).window = (s.thread c t).window ∧ (u.thread c t).drowsy = false ∧
    ofBytes u.dbg.data % 2 ^ (4 * s.arg1) =
      (s.thread c t).allWritten.toNat % 2 ^ (4 * (s.thread c t).slices) / 2 ^ (4 * s.arg0) % 2 ^ (4 * s.arg1)) ∧
  (∀ (s : State) (c t : Nat), commanded .wslice s 2 c t → slicesOk s.arg0 s.arg1 = true → ∃ u, exec .wslice s = .next u ∧
    u.dbg.err = 0 ∧ u.dbg.gated = decide ((s.thread c t).slices < s.arg0 + s.arg1) ∧
    (∀ b, (u.thread c t).allWritten.getLsbD b =
      if 4 * s.arg0 ≤ b ∧ b < 4 * (s.arg0 + min s.arg1 ((s.thread c t).slices - s.arg0)) ∧ b < 8192
      then (ofBytes s.dbg.data).testBit (b - 4 * s.arg0) else (s.thread c t).allWritten.getLsbD b)) ∧
  (∀ (s : State) (c t : Nat), commanded .rcsr s 1 c t → csrMode s.arg0 ≠ none → ∃ u, exec .rcsr s = .next u ∧
    ofBytes u.dbg.data % 2 ^ 64 = (csrRead s c t s.arg0).toNat ∧ u.dbg.err = 0 ∧ besideCores s u) ∧
  (∀ (s : State) (c t : Nat) (ur sr : Bool), commanded .wcsr s 2 c t → csrMode s.arg0 = some (ur, sr, true) →
    badRange s.arg0 s.dbg.arg1 = false → exec .wcsr s = .next (csrWrite c t s.arg0 s.dbg.arg1 2 (received s))) ∧
  (∀ (s : State) (c t : Nat), commanded .rmem s 1 c t → localOk s.arg0 s.arg1 = true → ∃ u, exec .rmem s = .next u ∧
    ofBytes u.dbg.data % 2 ^ (8 * s.arg1) = loadN s (localKey c s.arg0) s.arg1 ∧ u.dbg.err = 0 ∧ besideCores s u) ∧
  (∀ (s : State) (c t : Nat), commanded .wmem s 2 c t → localOk s.arg0 s.arg1 = true → ∃ u, exec .wmem s = .next u ∧
    u.mem = Mem.writeN s.mem (localKey c s.arg0) (s.dbg.data.take s.arg1) ∧ u.dbg.err = 0 ∧ u.cores = s.cores) ∧
  (∀ (s : State) (c t : Nat), commanded .halt s 2 c t → ∃ u, exec .halt s = .next u ∧ u.mem = s.mem ∧
    u.thread c t = { s.thread c t with halted := true, stepping := false } ∧
    ∀ c' t', ¬ (c' = c ∧ t' = t) → u.thread c' t' = s.thread c' t') ∧
  (∀ (s : State) (c t : Nat) (o : Occ), commanded .haltb s 2 c t → (s.core c).owner = some o → ∃ u, exec .haltb s = .next u ∧
    u.mem = s.mem ∧ u.dbg.precise = precise s o.launch o.bunch ∧ ∀ d ∈ bunchCores s o.launch o.bunch, (u.core d).dbgHalt = true ∧
      ∀ th ∈ (u.core d).threads, th.halted = true) ∧
  (∀ (s : State) (c t : Nat), commanded .haltb s 2 c t → (s.core c).owner = none →
    exec .haltb s = .next ((received s).modDebug fun d => { d with err := 2 })) ∧
  (∀ (s : State) (c t : Nat), commanded .resume s 2 c t → s.arg0 % 2 = 0 →
    ((s.thread c t).halted = true → ∃ u, exec .resume s = .next u ∧ u.mem = s.mem ∧ u.dbg.err = 0 ∧
      u.thread c t = { s.thread c t with halted := false, stepping := false } ∧
      ∀ c' t', ¬ (c' = c ∧ t' = t) → u.thread c' t' = s.thread c' t') ∧
    ((s.thread c t).halted = false → exec .resume s = .next ((received s).modDebug fun d => { d with err := 3 }))) ∧
  (∀ (s : State) (c t : Nat), commanded .resume s 2 c t → s.arg0 % 2 = 1 →
    ((s.core c).owner = none → exec .resume s = .next ((received s).modDebug fun d => { d with err := 2 })) ∧
    (∀ o, (s.core c).owner = some o →
      (∀ y, s.bunch? o.launch o.bunch = some y → y.halted = false) →
        exec .resume s = .next ((received s).modDebug fun d => { d with err := 3 })) ∧
    (∀ o y, (s.core c).owner = some o → s.bunch? o.launch o.bunch = some y → y.halted = true →
      ∃ u, exec .resume s = .next u ∧ u.mem = s.mem ∧ u.dbg.err = 0 ∧ (u.bunch? o.launch o.bunch).map Bunch.halted = some false ∧
        (∀ d ∈ bunchCores s o.launch o.bunch, u.core d = (s.core d).resumed) ∧
        ∀ d, d ∉ bunchCores s o.launch o.bunch → u.core d = s.core d)) ∧
  (∀ (k : Core) (t : Nat), k.resumed.dbgHalt = false ∧ k.resumed.owner = k.owner ∧ k.resumed.mat = k.mat ∧
    k.resumed.thread t = { k.thread t with halted := false, stepping := false }) ∧
  (∀ (s : State) (c t : Nat), commanded .step s 2 c t →
    ((s.thread c t).halted = true → ∃ u, exec .step s = .next u ∧ u.mem = s.mem ∧
      u.thread c t = { s.thread c t with stepping := true }) ∧
    ((s.thread c t).halted = false → exec .step s = .next ((received s).modDebug fun d => { d with err := 3 }))) ∧
  (∀ (s : State) (c t : Nat), commanded .setbp s 2 c t → s.arg0 < 2 ^ 15 → s.arg0 / 4 % 4 ≠ 3 → s.arg0 / 16 % 4 ≠ 3 →
    s.arg0 % 4 < (s.core c).comps.length → ∃ u, exec .setbp s = .next u ∧ u.mem = s.mem ∧ (u.core c).threads = (s.core c).threads ∧
    (u.core c).comps[s.arg0 % 4]? = some ⟨s.arg0.testBit 14, BitVec.ofNat 8 (s.arg0 / 64 % 256), s.arg0 / 16 % 4,
      s.arg0 / 4 % 4, s.dbg.arg1⟩) ∧
  (∀ s : State, commandedAll .brkmode s 2 → ∃ u, exec .brkmode s = .next u ∧ u.dbg.brk = s.arg0.testBit 0 ∧ besideCores s u) ∧
  (∀ s : State, commandedAll .rsave s 1 →
    (lengthOk s.arg1 = false → exec .rsave s = .next ((received s).modDebug fun d => { d with err := 4 })) ∧
    (findArea s s.arg0 s.arg1 = none → exec .rsave s = .next ((received s).modDebug fun d => { d with err := 4 })) ∧
    (∀ x y i o, lengthOk s.arg1 = true → findArea s s.arg0 s.arg1 = some (x, y, i, o) →
      ((∃ r ∈ debugRuns (received s) x false s.arg0 s.arg1, r.2.2.2.ok = false) →
        exec .rsave s = .next ((received s).modDebug fun d => { d with err := 4 })) ∧
      ((∀ r ∈ debugRuns (received s) x false s.arg0 s.arg1, ∃ k home, r.2.2.2 = .bytes k home) →
        ∃ u, exec .rsave s = .next u ∧ u.dbg.err = 0 ∧ besideCores s u ∧
          ∀ r ∈ debugRuns (received s) x false s.arg0 s.arg1, ∀ k home, r.2.2.2 = .bytes k home → ∀ j, j < r.2.2.1 →
            u.dbg.data.getD (r.2.1 + j) 0 = Mem.read s.mem (k + j)))) ∧
  (∀ s : State, commandedAll .wsave s 2 →
    (lengthOk s.arg1 = false → exec .wsave s = .next ((received s).modDebug fun d => { d with err := 4 })) ∧
    (findArea s s.arg0 s.arg1 = none → exec .wsave s = .next ((received s).modDebug fun d => { d with err := 4 })) ∧
    (∀ x y i o, lengthOk s.arg1 = true → findArea s s.arg0 s.arg1 = some (x, y, i, o) →
      (∃ r ∈ debugRuns (received s) x true s.arg0 s.arg1, r.2.2.2.ok = false) →
        exec .wsave s = .next ((received s).modDebug fun d => { d with err := 4 })) ∧
    (∀ x y i o, lengthOk s.arg1 = true → findArea s s.arg0 s.arg1 = some (x, y, i, o) →
      (∀ r ∈ debugRuns (received s) x true s.arg0 s.arg1, r.2.2.2.ok = true) → exec .wsave s =
        .next (resaved x y i o s.arg1 ((debugRuns (received s) x true s.arg0 s.arg1).foldl (fun z r =>
          r.2.2.2.write .debugger (((s.dbg.data.take s.arg1).drop r.2.1).take r.2.2.1) z) (received s))))) ∧
  (∀ (o n : Nat) (h : Nat × Nat × Nat), h ∈ regionsHit o n ↔
    areaRegions[h.1]? = some h.2 ∧ h.2.1 < o + n ∧ o < h.2.1 + h.2.2) ∧
  (∀ (s : State) (x : Launch) (y : Bunch) (i a n : Nat), (i < x.desc.w * x.desc.h) →
    (∀ z ∈ s.launches, z = x) → x ∈ s.launches → (∀ z ∈ x.bunches, z = y) → y ∈ x.bunches → y.state = .saved →
    (∀ j, j < i → ¬ (saveAddr x.desc y.idx j ≤ a ∧ a + n ≤ saveAddr x.desc y.idx j + 2 ^ 20)) →
    saveAddr x.desc y.idx i ≤ a → a + n ≤ saveAddr x.desc y.idx i + 2 ^ 20 →
    findArea s a n = some (x, y, i, a - saveAddr x.desc y.idx i))

/-- Security state (R365 to R370): a write of 0 to `dbg_sec` locks the module, with the debug level off and every comparator
invalid; a level above off needs an unlocked module (ERR 1). A challenge serves one check: a response that verifies under the
fused owner key unlocks, the third failure in a row locks the exchange for 10 s. No U-level thread requests a report and no
thread sends a vendor command (log entry 59); that the count of failures is cleared when a lockout expires, that a write of
`dbg_sec` after return to vendor changes nothing, and ERR 2 for a misaligned destination of a report are the model's choices too
(log entry 46). An attestation sets BUSY; its report, signed with the identity key, is written with the nonce and TIME, BUSY
clears and vector 19 is signalled; a vendor command that passes every check fuses the module. -/
def Obligations.SecurityChanges : Prop :=
  (∀ s : State, s.busOk .dbgSecWrite = true → ∃ u, exec .dbgSecWrite s = .next u ∧
    (s.busValue % 4 = 0 → s.dbg.secState ≠ 2 → u.dbg.secState = 0 ∧ u.dbg.level = 0 ∧
      ∀ p ∈ u.cores, ∀ x ∈ p.2.comps, x.v = false) ∧
    (s.busValue % 4 ≠ 0 ∨ s.dbg.secState = 2 → u = s)) ∧
  (∀ s : State, s.busOk .dbgLvlWrite = true → ∃ u, exec .dbgLvlWrite s = .next u ∧ u.cores = s.cores ∧
    (s.busValue % 4 = 3 → u = s) ∧
    (s.busValue % 4 ≠ 3 → s.busValue % 4 ≠ 0 → s.dbg.secState = 0 → u = s.modDebug fun d => { d with err := 1 }) ∧
    (s.busValue % 4 ≠ 3 → s.busValue % 4 = 0 ∨ s.dbg.secState ≠ 0 → u.dbg.level = s.busValue % 4)) ∧
  (∀ s : State, s.busOk .dbgAuthNewchal = true → s.bus.fresh.testBit 1 = false → ∃ u, exec .dbgAuthNewchal s = .next u ∧
    besideCores s u ∧ (s.dbg.lockout ≠ 0 → u = s) ∧
    (s.dbg.lockout = 0 → u.dbg.chalOk = true ∧ u.dbg.chal.length = 64 ∧ u.dbg.authOk = false ∧ u.dbg.authFail = false)) ∧
  (∀ s : State, s.busOk .dbgAuthVerify = true → ∃ u, exec .dbgAuthVerify s = .next u ∧ besideCores s u ∧ u.dbg.chalOk = false ∧
    (s.dbg.chalOk = true → ownerVerifies s.dbg.chal s.dbg.resp = true → u.dbg.authOk = true ∧ u.dbg.fails = 0 ∧
      (s.dbg.secState = 0 → u.dbg.secState = 1)) ∧
    (¬ (s.dbg.chalOk = true ∧ ownerVerifies s.dbg.chal s.dbg.resp = true) → u.dbg.authFail = true ∧
      u.dbg.secState = s.dbg.secState ∧ u.dbg.fails = s.dbg.fails + 1 ∧
      (3 ≤ s.dbg.fails + 1 → u.dbg.lockout = s.now + 10 * 10 ^ 9 ∧ (s.now + 10 * 10 ^ 9, Instr.authLockoutExpiry) ∈ u.timers))) ∧
  (∀ chal resp : List Byte, ownerVerifies chal resp = true ↔
    Sha.sha512 (constBytes Config.ownerKey 132) = constBytes Config.ownerDigest 64 ∧
    P521.verifies (constBytes Config.ownerKey 132) chal resp = true) ∧
  (∀ msg sig : List Byte, vendorVerifies msg sig = true ↔
    Sha.sha512 (constBytes Config.vendorKey 132) = constBytes Config.vendorDigest 64 ∧
    P521.verifies (constBytes Config.vendorKey 132) msg sig = true) ∧
  (∀ (s : State) (asid off : Nat), 0x50000 ≤ off → off < 0x50050 → s.mmioMayWrite (.thread asid 0) off = false) ∧
  (∀ (s : State) (asid lvl off : Nat), (0x50100 ≤ off ∧ off < 0x5020C) ∨ (0x50300 ≤ off ∧ off < 0x50308) →
    s.mmioMayWrite (.thread asid lvl) off = false) ∧
  (∀ s : State, s.dbg.lockout ≠ 0 → s.dbg.lockout ≤ s.now → ∃ u, exec .authLockoutExpiry s = .next u ∧ u.dbg.lockout = 0 ∧
    u.dbg.fails = 0 ∧ besideCores s u) ∧
  (∀ s : State, s.busOk .attestationGo = true → ∃ u, exec .attestationGo s = .next u ∧ besideCores s u ∧
    (s.security.busy = true → u.security = { s.security with err := 1 }) ∧
    (s.security.busy = false → u.security = { s.security with busy := true, done := false, err := 0 })) ∧
  (∀ s : State, s.security.busy = true → ∃ u, exec .attestationReportDone s = .next u ∧ u.cores = s.cores ∧
    u.security.busy = false ∧ u.security.done = true ∧ u.security.lastNonce = s.security.nonce ∧ u.msix = 19 :: s.msix ∧
    (s.security.dest.toNat % 512 ≠ 0 → u.security.err = 2 ∧ u.mem = s.mem) ∧
    ∃ sig, (s.security.fused = true → sig = List.replicate 132 0) ∧
      (s.security.fused = false → ∃ k, 0 < k ∧ k < P521.order ∧ sig = P521.sign identityScalar k (reportBody s)) ∧
      (s.security.dest.toNat % 512 = 0 →
        (s.physWrite .firmware s.security.dest.toNat (reportBody s ++ sig ++ List.replicate 28 0) = none →
          u.security.err = 2 ∧ u.mem = s.mem) ∧
        (∀ w, s.physWrite .firmware s.security.dest.toNat (reportBody s ++ sig ++ List.replicate 28 0) = some w →
          u.mem = w.mem ∧ u.security.err = s.security.err))) ∧
  (∀ s : State, s.security.nonce.length = 64 → (reportBody s).length = 0x160 ∧ (reportBody s).take 4 = [1, 0, 0, 0] ∧
    ((reportBody s).drop 8).take 8 = toBytes s.now 8 ∧ ((reportBody s).drop 0x10).take 64 = s.security.nonce ∧
    ((reportBody s).drop 0x50).take 64 = Sha.sha512 firmwareImage) ∧
  (∀ s : State, s.busOk .rtvgo = true → s.security.rtvBusy = false → ∃ u, exec .rtvgo s = .next u ∧ besideCores s u ∧
    u.security.rtvDone = true ∧ u.security.rtvErr = vendorError s ∧
    (vendorError s = 0 → u.security.fused = true ∧ u.security.identity = false ∧ u.dbg.secState = 2) ∧
    (vendorError s ≠ 0 → u.security.fused = s.security.fused ∧ u.dbg.secState = s.dbg.secState))

/-- Register writes and trace (R361 to R363, R380 to R384, R387): an access table takes an entry whose KIND is not reserved and
whose LO is not above HI; a write that is no event of its own changes its unit's register alone: every other unit's stay as they
are. A closed frame is written behind a LEES frame where one is owed, with vector 18 when the ring becomes full, or else kept or
dropped, and the next one has the next sequence number; TR_RD and TR_CTL set their registers, EN staying 0 at level off, and
TR_RD lets out the frames kept; samples leave the threads. A word that is no instruction traps with its cause and its low bits
(R166). The model's choices among these: the frames kept in stall mode and TFIRST 0 of a LEES frame (log entry 30), and that a
partial write of `lq_ctl` without its byte 0 asks nothing (log entry 40). -/
def Obligations.RegistersAndTrace : Prop :=
  (∀ s : State, s.busOk .accessTableWrite = true →
    let e := BitVec.ofNat 64 s.busValue &&& 0xF000FFFFFFF0001F
    let n := (s.bus.reg - 0x200000) / 8
    ∃ u, exec .accessTableWrite s = .next u ∧ besideCores s u ∧
      (e.toNat / 2 ^ 60 % 8 ≤ 3 → e.toNat / 2 ^ 20 % 2 ^ 14 ≤ e.toNat / 2 ^ 34 % 2 ^ 14 → Tbl.rising s.tables = true →
        Tbl.get u.tables n 0 = e ∧ ∀ m, m ≠ n → Tbl.get u.tables m 0 = Tbl.get s.tables m 0) ∧
      (¬ (e.toNat / 2 ^ 60 % 8 ≤ 3 ∧ e.toNat / 2 ^ 20 % 2 ^ 14 ≤ e.toNat / 2 ^ 34 % 2 ^ 14) → u = s)) ∧
  (∀ s : State, s.busOk .registerWrite = true → ∃ u, exec .registerWrite s = .next u ∧ u.cores = s.cores ∧
    u.launches = s.launches ∧ u.ready = s.ready ∧ u.tables = s.tables ∧ u.standby = s.standby ∧ otherUnits s u ∧
    (mmioBlock s.bus.reg ≠ some 98 → u.mem = s.mem) ∧
    (∀ q, s.bus.reg = 0x10010 + 0x40 * q → q < 16 → s.bus.off % 8 ≠ 0 → u = s) ∧
    (∀ f, s.bus.reg = 0x20000 + 0x100 * f → f < 48 → f < s.trace.length →
      (u.traceBlk f).base = BitVec.ofNat 64 s.busValue ∧ (u.traceBlk f).rd = (s.traceBlk f).rd) ∧
    (∀ q, s.bus.reg = 0x10020 + 0x40 * q → q < 16 → q < s.lqs.length →
      (u.lq q).cbase = BitVec.ofNat 64 s.busValue ∧ (u.lq q).head = (s.lq q).head ∧ (u.lq q).tail = (s.lq q).tail) ∧
    (∀ p, s.bus.reg = 0x80000 + 0x1000 * p → p < 64 → p < s.edges.length →
      (u.edgePort p).rtab = BitVec.ofNat 64 s.busValue &&& 0x000FFFFFFFFE0001)) ∧
  (∀ (s : State) (f : Nat), f < s.trace.length → ∃ u, exec (.traceFrameClose f) s = .next u ∧ u.cores = s.cores ∧
    (u.traceBlk f).payload = [] ∧
    let b := s.traceBlk f
    let v := u.traceBlk f
    let frame := traceFrame 0 f b.seq 0 b.tfirst b.payload
    (b.payload = [] → u = s) ∧
    (b.payload ≠ [] → v.dict = [] ∧
      (b.pendLoss = 0 → b.heldFrames = [] → v.seq = (b.seq + 1) % 2 ^ 32 ∧
        (b.full = false → v.wr = b.wr + 1 ∧ v.lost = b.lost ∧ v.pendLoss = 0 ∧ u.mem = frameAt b b.wr frame s ∧
          (b.wasFull = false → v.full = true → 18 ∈ u.msix)) ∧
        (b.full = true → v.wr = b.wr ∧ u.mem = s.mem ∧
          (b.stall = true → v.heldFrames = [frame] ∧ v.lost = b.lost) ∧
          (b.stall = false → v.heldFrames = [] ∧ v.pendLoss = 1 ∧ (b.lost + 1 < 2 ^ 32 → v.lost = b.lost + 1)))) ∧
      (b.pendLoss ≠ 0 → b.heldFrames = [] → b.full = false → (b.wr + 1 - b.rd).toNat ≤ b.mask.toNat →
        v.wr = b.wr + 2 ∧ v.pendLoss = 0 ∧ v.seq = (b.seq + 2) % 2 ^ 32 ∧
        u.mem = frameAt b (b.wr + 1) (traceFrame 0 f ((b.seq + 1) % 2 ^ 32) 0 b.tfirst b.payload)
          { s with mem := frameAt b b.wr (traceFrame 1 f b.seq b.pendLoss 0 []) s }))) ∧
  (∀ (kind f seq loss first : Nat) (bs : List Byte), bs.length ≤ 4064 → kind < 2 ^ 8 → f < 2 ^ 8 → seq < 2 ^ 32 → loss < 2 ^ 32 →
    let w := traceFrame kind f seq loss first bs
    w.length = 4096 ∧ ofBytes (w.take 4) = 0x5EA1F00D ∧ ofBytes ((w.drop 4).take 2) = bs.length ∧ ofBytes ((w.drop 6).take 1) = kind ∧
    ofBytes ((w.drop 7).take 1) = f ∧ ofBytes ((w.drop 8).take 4) = seq ∧ ofBytes ((w.drop 12).take 4) = loss ∧
    ofBytes ((w.drop 24).take 4) = crc32c (w.take 24 ++ bs) ∧ (w.drop 32).take bs.length = bs) ∧
  (∀ (s : State) (f n : Nat),
    ((s.traceBlk f).closed = n → exec (.traceFrameTimeout f n) s = exec (.traceFrameClose f) s) ∧
    ((s.traceBlk f).closed ≠ n → exec (.traceFrameTimeout f n) s = .next s)) ∧
  (∀ s : State, s.busOk .trRdWrite = true → s.busField < s.trace.length → ∃ u, exec .trRdWrite s = .next u ∧
    let b := s.traceBlk s.busField
    let v := u.traceBlk s.busField
    v.rd = BitVec.ofNat 32 s.busValue ∧ u.cores = s.cores ∧
    (b.pendLoss = 0 → b.heldFrames = [] → v.wr = b.wr ∧ u.mem = s.mem) ∧
    (∀ x, b.pendLoss = 0 → b.heldFrames = [x] → (b.wr - v.rd).toNat ≤ b.mask.toNat →
      v.wr = b.wr + 1 ∧ v.heldFrames = [] ∧ u.mem = frameAt b b.wr x s)) ∧
  (∀ s : State, s.busOk .trCtlWrite = true → s.busField < s.trace.length → ∃ u, exec .trCtlWrite s = .next u ∧ u.cores = s.cores ∧
    (u.traceBlk s.busField).en = (s.busValue.testBit 0 && decide (s.dbg.level ≠ 0)) ∧
    (u.traceBlk s.busField).stall = s.busValue.testBit 1 ∧ (u.traceBlk s.busField).types = s.busValue / 2 ^ 8 % 2 ^ 8 ∧
    (u.traceBlk s.busField).sample = s.busValue / 2 ^ 32 % 2 ^ 32 ∧
    ((s.traceBlk s.busField).en = true → (u.traceBlk s.busField).en = false → (u.traceBlk s.busField).payload = [])) ∧
  (∀ s : State, ∃ u, exec .tracePcSample s = .next u ∧ u.cores = s.cores ∧ u.now = s.now ∧
    ((∀ f, (s.traceBlk f).en = false) → u = s)) ∧
  (∀ (s : State) (cause tval : Nat), wordTrap s s.curCore s.me.pc = some (cause, tval) →
    (s.traceBlk (fieldOfCore s.curCore)).stall = false →
    exec .wordNotAnInstruction s = .next (stopAt (.trap cause tval) s))

/-! ## The machine as a whole -/

/-- Words written out field by field (X, SAT, RND, WAIT, ATAG, DIST, B, A, D, GRD, OP of Table 9.1) decode to their instructions,
and words of Table 9.7 are refused by the name of their trap. -/
def Obligations.WordsDecode : Prop :=
  decodeWord (0b0#1 ++ 0b1#1 ++ 0b00#2 ++ 0b0000000#7 ++ 0b000#3 ++ 0b000#3 ++ 0b111100000000100#15 ++ 0b010000000010000#15 ++ 0b001100001000000#15 ++ 0b00000000#8 ++ 0b0000000001#10) = .ok (.add ⟨false, true, 0, 0, 0, 0, .none⟩ (.slice 3 64) (.slice 4 16) (.kbank 3)) ∧
  decodeWord (0b0#1 ++ 0b0#1 ++ 0b00#2 ++ 0b0000000#7 ++ 0b000#3 ++ 0b000#3 ++ 0b111111111111111#15 ++ 0b111100000000000#15 ++ 0b001100001000000#15 ++ 0b01000101#8 ++ 0b0000000010#10) = .ok (.addi ⟨false, false, 0, 0, 0, 0, .flag 5 true⟩ (.slice 3 64) .zero 0x7FFF) ∧
  decodeWord (0b0#1 ++ 0b0#1 ++ 0b00#2 ++ 0b0000000#7 ++ 0b000#3 ++ 0b000#3 ++ 0b000000000000011#15 ++ 0b111111111111111#15 ++ 0b111111111111101#15 ++ 0b10001010#8 ++ 0b0001000000#10) = .ok (.br ⟨false, false, 0, 0, 0, 0, .flag 10 false⟩ 0xFFFFFFFD) ∧
  decodeWord (0b0#1 ++ 0b0#1 ++ 0b00#2 ++ 0b0000000#7 ++ 0b000#3 ++ 0b000#3 ++ 0b100001100000000#15 ++ 0b100001000000000#15 ++ 0b100000100000000#15 ++ 0b00000000#8 ++ 0b0010000100#10) = .ok (.vadd Hdr.plain .f16 (.slice 8 256) (.slice 8 512) (.slice 8 768)) ∧
  decodeWord (0b1#1 ++ 0b0#1 ++ 0b00#2 ++ 0b0000000#7 ++ 0b000#3 ++ 0b000#3 ++ 0b000000000000101#15 ++ 0b010000001000000#15 ++ 0b000000000000000#15 ++ 0b00000000#8 ++ 0b1001001000#10) = .ok (.mstcQ ⟨true, false, 0, 0, 0, 0, .none⟩ (.slice 4 64) 5) ∧
  decodeWord (0b0#1 ++ 0b0#1 ++ 0b00#2 ++ 0b1000001#7 ++ 0b011#3 ++ 0b000#3 ++ 0b111111111110000#15 ++ 0b010000001000000#15 ++ 0b010100010000000#15 ++ 0b11010101#8 ++ 0b1001100000#10) = .ok (.ld ⟨false, false, 0, 0x41, 3, 0, .port 2 true 1⟩ (.slice 5 128) (.slice 4 64) 0x7FF0) ∧
  decodeWord (0b0#1 ++ 0b0#1 ++ 0b00#2 ++ 0b0000000#7 ++ 0b000#3 ++ 0b010#3 ++ 0b000000000000000#15 ++ 0b011000001000000#15 ++ 0b111100000100111#15 ++ 0b00000000#8 ++ 0b1010000000#10) = .ok (.push ⟨false, false, 0, 0, 0, 2, .none⟩ (.port 7) (.slice 6 64)) ∧
  decodeWord (0b0#1 ++ 0b0#1 ++ 0b00#2 ++ 0b0000000#7 ++ 0b000#3 ++ 0b000#3 ++ 0b000000000001101#15 ++ 0b000000000000000#15 ++ 0b010000001000000#15 ++ 0b00000000#8 ++ 0b1011100010#10) = .ok (.csrr Hdr.plain (.slice 4 64) 0x00D) ∧
  decodeWord (0b0#1 ++ 0b0#1 ++ 0b00#2 ++ 0b0000000#7 ++ 0b000#3 ++ 0b000#3 ++ 0b000000000000000#15 ++ 0b000000000000000#15 ++ 0b000000000000000#15 ++ 0b00000000#8 ++ 0b0000000000#10) = .ok (.nop) ∧
  decodeWord (0b0#1 ++ 0b0#1 ++ 0b00#2 ++ 0b0000000#7 ++ 0b000#3 ++ 0b000#3 ++ 0b000000000000000#15 ++ 0b000000000000000#15 ++ 0b000000000000101#15 ++ 0b00000000#8 ++ 0b1111111111#10) = .error .illegalFill ∧
  decodeWord (0b0#1 ++ 0b0#1 ++ 0b00#2 ++ 0b0000000#7 ++ 0b000#3 ++ 0b000#3 ++ 0b000000000000000#15 ++ 0b000000000000000#15 ++ 0b000000000000000#15 ++ 0b00000000#8 ++ 0b0000110001#10) = .error .illegalOp ∧
  decodeWord (0b0#1 ++ 0b0#1 ++ 0b00#2 ++ 0b0000000#7 ++ 0b000#3 ++ 0b000#3 ++ 0b001100001000000#15 ++ 0b001100001000000#15 ++ 0b001100001000000#15 ++ 0b00000000#8 ++ 0b0010000111#10) = .error .illegalOp ∧
  decodeWord (0b1#1 ++ 0b0#1 ++ 0b00#2 ++ 0b0000000#7 ++ 0b000#3 ++ 0b000#3 ++ 0b000000000000000#15 ++ 0b000000000000000#15 ++ 0b000000000000000#15 ++ 0b00000000#8 ++ 0b0000000000#10) = .error .illegalRsvd ∧
  decodeWord (0b0#1 ++ 0b0#1 ++ 0b00#2 ++ 0b0000000#7 ++ 0b000#3 ++ 0b000#3 ++ 0b000000000000100#15 ++ 0b000000000000000#15 ++ 0b000000000000000#15 ++ 0b00000000#8 ++ 0b0001000000#10) = .error .illegalRsvd ∧
  decodeWord (0b0#1 ++ 0b0#1 ++ 0b00#2 ++ 0b0000000#7 ++ 0b000#3 ++ 0b000#3 ++ 0b001100001000000#15 ++ 0b001100001000000#15 ++ 0b001100001000000#15 ++ 0b00000101#8 ++ 0b0000000001#10) = .error .illegalRsvd ∧
  decodeWord (0b0#1 ++ 0b0#1 ++ 0b00#2 ++ 0b0000000#7 ++ 0b000#3 ++ 0b000#3 ++ 0b001100001000000#15 ++ 0b101100000000000#15 ++ 0b001100001000000#15 ++ 0b00000000#8 ++ 0b0000000001#10) = .error .illegalOperand ∧
  decodeWord (0b0#1 ++ 0b0#1 ++ 0b00#2 ++ 0b0000000#7 ++ 0b000#3 ++ 0b000#3 ++ 0b001100001000000#15 ++ 0b101000001000000#15 ++ 0b001100001000000#15 ++ 0b00000000#8 ++ 0b0000000001#10) = .error .illegalOperand ∧
  decodeWord (0b0#1 ++ 0b0#1 ++ 0b00#2 ++ 0b0000000#7 ++ 0b000#3 ++ 0b000#3 ++ 0b001100001000000#15 ++ 0b001100001000000#15 ++ 0b111100000000001#15 ++ 0b00000000#8 ++ 0b0000000001#10) = .error .illegalOperand ∧
  decodeWord (0b0#1 ++ 0b0#1 ++ 0b00#2 ++ 0b0000000#7 ++ 0b000#3 ++ 0b000#3 ++ 0b000000000000000#15 ++ 0b111100000101001#15 ++ 0b111100000101001#15 ++ 0b11101000#8 ++ 0b1010000000#10) = .error .illegalOperand

/-- Decoding and encoding agree: every well-formed instruction is what its word and its ten bytes decode to, and every word that
decodes is the one word of a well-formed instruction, so that no bit of it is dropped or ignored. -/
def Obligations.EncodingsAgree : Prop :=
  (∀ i w, i.wellFormed = true → encode i = some w →
    decodeWord w = .ok i ∧ decodeBytes (bytesOfWord w) = .ok i ∧ decodeTableWord 80 w.toNat = some i) ∧
  (∀ w i, decodeWord w = .ok i → i.wellFormed = true ∧ encode i = some w)

/-- A step performs the first event of the agenda, else serves the first request from outside, else performs the first timed
event that is due, else what issue selection picks: for a slot that issues, `exec` of the instruction its PC's ten bytes decode
to, with that slot as the executing thread; bytes that are no instruction, or lie beyond the image, are WORD_NOT_AN_INSTRUCTION.
With nothing picked a cycle passes (log entry 2). -/
def Obligations.StepRunsTheWord : Prop :=
  ∀ s : State,
    (∀ b i r, s.agenda = (b, i) :: r → step s = exec i { s with agenda := r, bus := b }) ∧
    (∀ r rest, s.agenda = [] → s.asked = r :: rest → step s = .next (serve r { s with asked := rest })) ∧
    (∀ n i r, s.agenda = [] → s.asked = [] → s.timers = (n, i) :: r → n ≤ s.now → step s = exec i { s with timers := r }) ∧
    (s.agenda = [] → s.asked = [] → (∀ p r, s.timers = p :: r → s.now < p.1) →
      (∀ c t, pick s = .issue c t →
        (∀ i, inImage s c (s.thread c t).pc.toNat = true → decodeBytes (codeBytes s c (s.thread c t).pc) = .ok i →
          step s = exec i (focus c t s)) ∧
        (inImage s c (s.thread c t).pc.toNat = false ∨ (∃ e, decodeBytes (codeBytes s c (s.thread c t).pc) = .error e) →
          step s = exec .wordNotAnInstruction (focus c t s))) ∧
      (∀ c t, pick s = .cause c t → step s = exec .trapEntry (focus c t s)) ∧
      (∀ c t, pick s = .comparator c t → step s = .next (breakHere (focus c t s))) ∧
      (∀ c, pick s = .datapath c → step s = .next (grantDatapath c s)) ∧
      (pick s = .none → step s = .next (endCycle s))) ∧
    (∀ c t, (focus c t s).me = s.thread c t ∧ (focus c t s).cores = s.cores ∧ (focus c t s).mem = s.mem ∧ (focus c t s).now = s.now)

namespace Sys2Proof.Stated

/-- How far a slot is behind the one after `last` (R34). -/
def after (last t : Nat) : Nat := (t + 7 - last) % 8

/-- A slot of a class may issue. -/
def readyIn (k : Core) (now : Nat) (cls : TClass) (t : Nat) : Prop := (k.thread t).mayIssue now = true ∧ (k.thread t).cls = cls

/-- No slot of a class ahead of the normal one may issue. -/
def onlyNormal (k : Core) (now : Nat) : Prop := ∀ u, u < 8 → ¬ readyIn k now .handler u ∧ ¬ readyIn k now .trap u

/-- The ready normal slots that would be passed over in 8 cycles if they did not issue within `r` (R35); `ready` tells which
slots' instructions would issue. -/
def pressed (k : Core) (ready : Nat → Bool) (now r : Nat) : List Nat :=
  (List.range 8).filter fun t => (k.thread t).mayIssue now && decide ((k.thread t).cls = .normal) && ready t && decide (8 ≤ (k.thread t).passed + r)

/-- The bound of R35 leaves the choice open in this cycle: for no `r` are there `r` slots that must issue within `r` cycles. -/
def roomLeft (k : Core) (ready : Nat → Bool) (now : Nat) : Prop := ∀ r, 1 ≤ r → r ≤ 8 → (pressed k ready now r).length < r

/-- `r` is the least number of cycles within which as many slots must issue. -/
def tightest (k : Core) (ready : Nat → Bool) (now r : Nat) : Prop :=
  1 ≤ r ∧ r ≤ 8 ∧ r ≤ (pressed k ready now r).length ∧ ∀ q, 1 ≤ q → q < r → (pressed k ready now q).length < q

end Sys2Proof.Stated

/-- Issue selection (R34, R35, R39, R201): of a core that may issue, handler threads come before trap threads and these before
normal ones, each class in slot order after the one that last issued; the normal thread that the vector datapath has been given
to comes first of its class, and it is given to the first waiting slot after its last holder. Only where R35 asks that as many
ready normal threads issue within the next r cycles as there are cycles is one of these picked, in the same order; that this
bound holds against the other two is the model's choice (log entry 53). A normal thread that could have issued in a cycle and
did not has been passed over once more, unless a thread of another class issued. A slot that is picked runs, waits for no
result, and has not been tried in this cycle; a repetition that streams on comes ahead of issue. -/
def Obligations.IssueOrder : Prop :=
  (∀ (k : Core) (ready : Nat → Bool) (now t : Nat), k.lastH < 8 → k.lastT < 8 → k.lastN < 8 → k.nextSlot ready now = some t →
    t < 8 ∧ (k.thread t).mayIssue now = true ∧
    (∀ u, u < 8 → readyIn k now .handler u → (k.thread t).cls = .handler ∧ after k.lastH t ≤ after k.lastH u) ∧
    (∀ u, u < 8 → readyIn k now .trap u → (k.thread t).cls = .handler ∨
      (k.thread t).cls = .trap ∧ after k.lastT t ≤ after k.lastT u) ∧
    (∀ u, u < 8 → readyIn k now .normal u → (∀ g, k.vecGrant = some g → ¬ readyIn k now .normal g) → roomLeft k ready now →
      (k.thread t).cls = .handler ∨ (k.thread t).cls = .trap ∨ (k.thread t).cls = .normal ∧ after k.lastN t ≤ after k.lastN u)) ∧
  (∀ (k : Core) (ready : Nat → Bool) (now : Nat), k.nextSlot ready now = none → ∀ u, u < 8 → (k.thread u).mayIssue now = false) ∧
  (∀ (k : Core) (ready : Nat → Bool) (now t : Nat), k.vecGrant = some t → t < 8 → readyIn k now .normal t → onlyNormal k now →
    roomLeft k ready now → k.nextSlot ready now = some t) ∧
  (∀ (k : Core) (ready : Nat → Bool) (now r : Nat), k.lastN < 8 → onlyNormal k now → tightest k ready now r →
    ∃ u ∈ pressed k ready now r, k.nextSlot ready now = some u ∧
      (∀ g, k.vecGrant = some g → g ∈ pressed k ready now r → u = g) ∧
      ((∀ g, k.vecGrant = some g → g ∉ pressed k ready now r) → ∀ v ∈ pressed k ready now r, after k.lastN u ≤ after k.lastN v)) ∧
  (∀ (s : State) (c : Nat), Tbl.rising s.cores = true → (s.core c).vecLast < 8 →
    (∀ t, ((grantDatapath c s).core c).vecGrant = some t → t < 8 ∧ waitsDatapath s c t = true ∧
      ∀ u, u < 8 → waitsDatapath s c u = true → after (s.core c).vecLast t ≤ after (s.core c).vecLast u) ∧
    (((grantDatapath c s).core c).vecGrant = none → ∀ u, u < 8 → waitsDatapath s c u = false)) ∧
  (∀ (s : State) (c t : Nat), Tbl.rising s.cores = true → pick s = .issue c t →
    (s.core c).causeSlot s.now = none ∧ (s.core c).owner.isSome = true ∧ (s.core c).stopped = false ∧ (s.core c).failed = false ∧
    ((s.core c).beatSlot s.now = some t ∨
      (s.core c).mayIssue = true ∧ (s.core c).vecDue s.now = false ∧ (s.core c).nextSlot (wouldIssue s c) s.now = some t ∧
      (s.debugLevel = 2 → (s.core c).execHits t = []))) ∧
  (∀ (s : State) (c t : Nat) (th : Thread),
    ((s.core c).preempted = false → th.cls = .normal → wouldIssue s c t = true → (settleSlot s c t th).passed = th.passed + 1) ∧
    ((s.core c).preempted = true ∨ th.cls ≠ .normal ∨ wouldIssue s c t = false → (settleSlot s c t th).passed = 0)) ∧
  (∀ (th : Thread) (now : Nat), th.mayIssue now = true → th.running = true ∧ th.held = none ∧ th.pendCause = none ∧ th.busyTo ≤ now ∧
    th.tried = false ∧ (th.halted = true → th.stepping = true) ∧ (th.yieldFor = [] ∨ th.yieldTo ≤ now))

namespace Sys2Proof.Stated

/-- The operands each instruction reads and writes, with their widths, by its description. -/
def specOf (s : State) (i : Instr) (v : View) : Spec :=
  let result : Spec := { v := v, wd := some (opWidth v), wide := opWidth v }
  let source : Spec := { v := v, ra := some 64, wide := 64 }
  match i with
  | .add .. | .sub .. | .mul .. | .mulh .. | .mulhn .. | .min .. | .max .. | .minn .. | .maxn .. | .div .. | .divn .. | .rem ..
  | .remn .. => binSpec 1 64 false v
  | .addi .. | .abs .. | .neg .. => unSpec 1 64 false v
  | .and .. | .or .. | .xor .. | .andn .. => binSpec 1 2048 true v
  | .andi .. | .ori .. | .xori .. | .mov .. => unSpec 1 2048 true v
  | .shl .. | .shr .. | .sar .. | .rol .. => shiftSpec v
  | .shli .. | .shri .. | .sari .. | .roli .. | .movh .. | .brev .. => unSpec 1 2048 false v
  | .bswap .. => unSpec 8 2048 false v
  | .clz .. | .ctz .. | .popc .. => { unSpec 1 2048 false v with ra := some (ownWidth v.a (opWidth v)) }
  | .sel .. => selSpec v
  | .movi .. => moviSpec v
  | .bfx .. => bfxSpec v
  | .bfi .. => bfiSpec v
  | .cmpeq .. | .cmpne .. => cmpSpec 2048 v
  | .cmplt .. | .cmpltn .. | .cmple .. | .cmplen .. => cmpSpec 64 v
  | .jmp .. | .loop .. | .rep .. | .mcfg .. => mcfgSpec v
  | .call .. => { v := v, moreW := [.slices 16 8] }
  | .callr .. => callrSpec v
  | .vadd _ t .. | .vsub _ t .. | .vmul _ t .. | .vmin _ t .. | .vmax _ t .. | .vshl _ t .. | .vshr _ t .. | .vsar _ t ..
  | .fldx _ t .. | .fdiv _ t .. => vecSpec (eltWidth t) true true v
  | .vabs _ t .. | .vneg _ t .. | .vclass _ t .. | .frcp _ t .. | .frsq _ t .. | .fexps _ t .. | .fsqrt _ t ..
  | .flut _ t .. => vecSpec (eltWidth t) true false v
  | .vfma _ t .. | .vfms _ t .. | .vfnma _ t .. | .vsel _ t .. => laneSpec3 t v
  | .vcmpeq _ t .. | .vcmpne _ t .. | .vcmplt _ t .. | .vcmple _ t .. => vcmpSpec t v
  | .vshuf _ t .. => vecSpec (eltWidth t) false true v
  | .vbcast _ t .. => vecSpec (eltWidth t) false false v
  | .vslide _ t .. => slideSpec t v
  | .vhsum _ t .. | .vhmax _ t .. | .vhmin _ t .. => foldSpec t v
  | .vcvt h t _ _ imm => cvtSpec (cvtSource (imm.toNat % 16)) (cvtDest t h.x (imm.getLsbD 4)) v
  | .lutld _ _ a imm => lutldSpec imm a v
  | .bpack .. => bpackSpec v
  | .bunpk .. => bunpkSpec v
  | .balign .. | .bscale .. => blockShiftSpec v
  | .badd .. => baddSpec v
  | .baddq .. => baddqSpec v
  | .bnorm .. => sameSpec v
  | .bmaxe .. => bmaxeSpec v
  | .bmac .. => bmacSpec v
  | .bhsum .. => bhsumSpec v
  | .berr .. => berrSpec v
  | .bcmpz .. => bcmpzSpec v
  | .bhdr .. => bhdrSpec v
  | .mlda .. | .mldb .. | .mstc .. => descSpec 128 v
  | .mgatha .. => descSpec 1024 v
  | .mstcQ .. | .msave .. | .mrstr .. | .hset .. => source
  | .mstat .. | .csrr .. | .taskid .. => result
  | .ld .. => memoryD false true (fun n => 8 ≤ n) v
  | .st .. => memoryD true false (fun n => 8 ≤ n) v
  | .aadd .. | .amin .. | .amax .. | .aminn .. | .amaxn .. | .aand .. | .aor .. | .axor .. | .aswap .. => memoryD true true atomicWidth v
  | .acas .. => memoryD true true (fun n => n == 64 || n == 128) v
  | .afadd .. => memoryD true true (fun n => n == 32) v
  | .redi .. | .redf .. => memoryD true false (fun n => 32 ≤ n) v
  | .redb .. => memoryD true false (fun n => (Blk.fmtOf n).isSome) v
  | .spill .. => memoryD true false (fun _ => true) v
  | .fill .. => memoryD false true (fun _ => true) v
  | .push .. => pushSpec v
  | .pop .. => popSpec false v
  | .peek .. => popSpec true v
  | .pdrain .. => queueSpec sliceOrZero v
  | .pcnt .. => queueSpec isSlice v
  | .pcfg .. => pcfgSpec v
  | .send .. => sendSpec v
  | .sendm .. => sendmSpec v
  | .reply .. => replySpec v
  | .mbxcfg .. => mbxSpec v
  | .waitev .. | .pollev .. => eventSpec v
  | .cpy .. | .cpyr .. | .sortk .. => engineSpec v
  | .engst .. => { result with legal := isSlice v.d }
  | .rtree .. => rtreeSpec v
  | .rsend _ _ _ imm => treeSendSpec ((s.myCore.node (imm.toNat % 8)).elim 0 TreeNode.wire) v
  | .rwait .. => rwaitSpec v
  | .coll .. | .twait .. => collSpec v
  | .collw .. => collwSpec v
  | .bdisp .. => bdispSpec v
  | .spawn .. => spawnSpec v
  | .join .. => joinSpec v
  | .bar .. | .arrive .. => barrierSpec v
  | .waitb .. => waitbSpec v
  | .launch .. => launchSpec v
  | .tinv .. => { source with legal := namedA v.a 64 }
  | .csrw .. => csrSpec true v
  | .csrs .. | .csrc .. => csrSpec false v
  | _ => plainSpec v

/-- What R154 puts before an instruction's own checks lets it begin. -/
def admitted (sp : Spec) (s : State) : Prop :=
  s.me.midBeat = false ∧ beforeGuard sp s = .ok () ∧ guardHolds s.me sp.v.h.dist.toNat sp.v.h.grd = true

/-- An instruction stops with `e` before it performs. -/
def stopsWith (i : Instr) (s : State) (e : Stop) : Prop := exec i s = .next (stopAt e s)

end Sys2Proof.Stated

/-- Every word is issued by the checks of R154 on the operands its own description names. Before its guard: a thread whose
halted MMAC has lost the array waits with reason 5, a port guard short of entries with reason 4, DIST holds for a result under
way, busy tags of WAIT wait with reason 1, the datapath of another slot holds, a handler's budget traps, and so do a flag
guard's bad group and its covered flag. Then operands the description does not admit trap ILLEGAL_OPERAND, a class T instruction
waits for its own tag and for tags that cover its destination, a port source waits with reason 2 for its group and a port
destination with reason 3 for room, a range beyond the window traps WINDOW_RANGE, a bad group SLICE_ECC, covered ranges
STALE_READ and STALE_WRITE under STALECHK, and a group pushed at another width PORT_WIDTH (R36, R39, R57, R58, R67, R71, R74,
R76, R158 to R161). A later beat of a repetition meets a bad group of the sources it has left to read. That an illegal operand
traps before any wait, which group SLICE_ECC names, and how a width of 4,096 bits or a count of 16 entries stands in tval and
DETAIL are the model's choices (log entries 62, 67 and 82). -/
def Obligations.ChecksStop : Prop :=
  (∀ i v, i.view = some v → ∀ s : State, (s.traceBlk (fieldOfCore s.curCore)).stall = false → s.me.midBeat = true →
    let sp := specOf s i v
    arrayStop s = none → vecStop s sp = none → legalStop sp s.me = none → sp.lastBeat s.me = false →
    ∀ j, (sp.readLocs s.me).findSome? (fun l => s.me.badRead (l.fromBeat s.me.repBeat)) = some j →
      stopsWith i s (.trap Cause.sliceEcc (rangeTval (16 * j) 16))) ∧
  ∀ i v, i.view = some v → ∀ s : State, (s.traceBlk (fieldOfCore s.curCore)).stall = false → s.me.midBeat = false →
    let sp := specOf s i v
    let th := s.me
    let mask := v.h.wait.toNat
    ((∃ k ∈ s.myCore.mat.cmds, k.slot = s.curSlot ∧ k.mslot < 4 ∧ k.op = .mac ∧ k.k < 32) → s.myCore.mat.holder ≠ some s.curSlot →
      stopsWith i s (.wait 5 (s.myCore.mat.holder.getD 15))) ∧
    (arrayStop s = none →
      (∀ dir ch n, v.h.grd = .port dir ch n → (th.queue (2 * dir.toNat + b2n ch)).completeEntries < 2 ^ n.toNat →
        stopsWith i s (.wait 4 (portDetail (2 * dir.toNat + b2n ch) (2 ^ n.toNat)))) ∧
      (portGuardStop th v.h.grd = none →
        (v.h.dist ≠ 0 → ∀ p ∈ th.pend, p.pos + v.h.dist.toNat ≤ th.pos → s.now < p.ready → stopsWith i s (.hold false)) ∧
        (distStop s.now th v.h.dist.toNat = none → th.busyElse mask ≠ 0 → stopsWith i s (.wait 1 (th.busyElse mask))) ∧
        (distStop s.now th v.h.dist.toNat = none → th.busyElse mask = 0 →
          (sp.vec = true → s.myCore.vecOther s.curSlot s.now = true → stopsWith i s (.hold true)) ∧
          (vecStop s sp = none →
            (th.cls = .handler → 4096 ≤ th.budget → th.repK = 0 → th.repBeat = 0 → stopsWith i s (.trap Cause.handlerBudget 0)) ∧
            (budgetStop th = none → ∀ k b, v.h.grd = .flag k b →
              (∀ j, th.badRead (.flag k.toNat) = some j → stopsWith i s (.trap Cause.sliceEcc (rangeTval (16 * j) 16))) ∧
              (th.badRead (.flag k.toNat) = none → th.stalechk = true →
                ∀ x, (Loc.flag k.toNat).staleTval (th.awaited mask th.pos) = some x → stopsWith i s (.trap Cause.staleRead x))))))) ∧
    (admitted sp s →
      (sp.legal = false → stopsWith i s (.trap Cause.illegalOperand (viewLow64 v))) ∧
      (legalStop sp th = none → viewLat v = .t → v.h.atag.toNat ≠ 0 → th.tagBusyElse v.h.atag.toNat th.pos = true →
        stopsWith i s (.wait 1 (2 ^ v.h.atag.toNat))) ∧
      (legalStop sp th = none → viewLat v = .t → v.h.atag.toNat = 0 → ∀ l, sp.writeLocs th = [l] → th.coveringTags l.mask th.pos ≠ 0 →
        stopsWith i s (.wait 1 (th.coveringTags l.mask th.pos))) ∧
      (legalStop sp th = none → tagStop sp th = none → ∀ q w r, popList th [] (sp.reads th) = (q, w, none) :: r →
        stopsWith i s (.wait 2 (portDetail q (entriesOf w)))) ∧
      (legalStop sp th = none → tagStop sp th = none → (∀ e ∈ popStops sp th, e = none) → ∀ q w x r, sp.pushes th = (q, w, x) :: r →
        pushTest s s.curCore s.curSlot q w x = .full → stopsWith i s (.wait 3 (portDetail q (entriesOf w)))) ∧
      (legalStop sp th = none → tagStop sp th = none → (∀ e ∈ popStops sp th ++ pushStops sp s th, e = none) →
        (∀ l, (sp.readLocs th ++ sp.writeLocs th).find? (fun l => !(l.inWindow th.slices)) = some l →
          stopsWith i s (.trap Cause.windowRange l.tval)) ∧
        (rangeStop sp th = none → ∀ j, (sp.readLocs th).findSome? th.badRead = some j →
          stopsWith i s (.trap Cause.sliceEcc (rangeTval (16 * j) 16))) ∧
        (rangeStop sp th = none → eccStop sp th = none → th.stalechk = true →
          (∀ x xs, staleReads sp th = x :: xs → stopsWith i s (.trap Cause.staleRead x)) ∧
          (∀ x xs, staleReads sp th = [] → staleWrites sp th = x :: xs → stopsWith i s (.trap Cause.staleWrite x))) ∧
        (rangeStop sp th = none → eccStop sp th = none → staleStop sp th = none →
          ∀ q w g r, popList th [] (sp.reads th) = (q, w, some g) :: r → g.width ≠ w →
          stopsWith i s (.trap Cause.portWidth (q + w * 2 ^ 16 + g.width * 2 ^ 32)))))

/-- Every step answers a next state, and it keeps memory in its canonical form: addresses rising, and no byte listed that an
unlisted address reads as. -/
def Obligations.StepKeepsMemory : Prop := ∀ s : State, ∃ u, step s = .next u ∧ (Mem.wf s.mem = true → Mem.wf u.mem = true)

namespace Sys2Proof.Stated

/-- A core has its eight slots, four engine queues, matrix slots and comparators, its 32 ranges, and each slot its ten input
queues and sixteen counters. -/
def coreShaped (k : Core) : Prop :=
  k.threads.length = 8 ∧ k.eng.length = 4 ∧ k.comps.length = 4 ∧ k.mat.slots.length = 4 ∧ k.rtbase.length = 32 ∧
  k.rtlim.length = 32 ∧ ∀ th ∈ k.threads, th.qin.length = 10 ∧ th.counters.length = 16

/-- The saved contexts of a launch have the shape of cores. -/
def launchShaped (x : Launch) : Prop := ∀ y ∈ x.bunches, ∀ v ∈ y.saved, coreShaped v.ctx

/-- The machine has its register blocks, and its cores and saved contexts their parts; cores and access tables stand in order. -/
def shaped (s : State) : Prop :=
  s.lqs.length = 16 ∧ s.waitq.length = 16 ∧ s.trace.length = 48 ∧ s.press.length = 64 ∧ s.edges.length = 64 ∧
  s.cellars.length = 16 ∧ s.links.length = 16 ∧ Tbl.rising s.cores = true ∧ Tbl.rising s.tables = true ∧
  (∀ p ∈ s.cores, coreShaped p.2) ∧ (∀ x ∈ s.launches, launchShaped x) ∧ (∀ l ∈ s.devq, ∀ x ∈ l, launchShaped x) ∧
  (∀ x, some x ∈ s.waitq → launchShaped x)

end Sys2Proof.Stated

/-- Every step keeps the parts of the machine: the numbers of queues, ports, slots and registers that the premises of other
statements name. -/
def Obligations.StepKeepsShape : Prop := ∀ s u : State, shaped s → step s = .next u → shaped u

/-- What reset leaves (Tables 1.2, 19.4, 23.7, 23.9, 23.13, R322, R324): no launch, no bunch on a core, every launch queue,
trace block and access table at 0 and disabled, nothing ready; a slot has no handler, no enabled cause and 32 event credits.
Memory lists nothing, and the machine has the forms that every step keeps. -/
def Obligations.ResetState : Prop :=
  let s := State.reset
  s.cores = [] ∧ s.launches = [] ∧ s.ready = ⟨0, 0, false, 0, 0, 0⟩ ∧ s.mem = [] ∧
  (∀ q, q < 16 → s.lq q = ⟨0, 0, false, false, 0, false, false, 0, 0, 0, 0, [], none, false⟩) ∧
  (s.pre.lid = 0 ∧ s.pre.ctl = 0 ∧ s.pre.arg = 0 ∧ s.pre.thalt = 0 ∧ s.pre.count = 0 ∧ s.pre.busy = false ∧ s.pre.done = false ∧
    s.pre.tnBase = 0 ∧ s.pre.tnMask = 0 ∧ s.pre.tnWr = 0 ∧ s.pre.tnRd = 0) ∧
  (∀ f, f < 48 → (s.traceBlk f).en = false ∧ (s.traceBlk f).base = 0 ∧ (s.traceBlk f).wr = 0 ∧ (s.traceBlk f).rd = 0) ∧
  (∀ n, Tbl.get s.tables n 0 = 0) ∧ (∀ p, p < 64 → (s.edgePort p).rtab = 0) ∧
  s.dbg.level = 0 ∧ s.dbg.secState = 0 ∧
  (∀ c t, (s.thread c t).tvec = 0xFFFFFFFF ∧ (s.thread c t).stvec = 0xFFFFFFFF ∧ (s.thread c t).temask0 = 0 ∧
    (s.thread c t).temask1 = 0 ∧ (s.thread c t).estat = 0 ∧ (s.thread c t).sestat = 0 ∧ (s.thread c t).status = 0 ∧
    (s.thread c t).fflags = 0 ∧ (s.thread c t).portcfg = 0 ∧ (s.thread c t).loops = .empty ∧ (s.thread c t).credits = 32 ∧
    (s.thread c t).running = false) ∧
  Mem.wf s.mem = true ∧ shaped s
end

