-- ==== Sys2Proof/Laws/Bits.lean ====
section
/-! SUPPORT. Bit images: which bits a field's replacement changes. -/

namespace Sys2Proof.Machine

open Sys2Proof

/-- The bits of a field. -/
theorem testBit_bits (v lo len i : Nat) : (bits v lo len).testBit i = (decide (i < len) && v.testBit (lo + i)) := by
  simp [bits, Nat.testBit_mod_two_pow, Nat.testBit_shiftRight]

/-- An image split at a field. -/
theorem split_image (v lo len : Nat) :
    v = 2 ^ lo * (2 ^ len * (v / 2 ^ (lo + len)) + bits v lo len) + v % 2 ^ lo := by
  have h1 : v = 2 ^ lo * (v / 2 ^ lo) + v % 2 ^ lo := (Nat.div_add_mod v (2 ^ lo)).symm
  have h2 : v / 2 ^ lo = 2 ^ len * (v / 2 ^ lo / 2 ^ len) + v / 2 ^ lo % 2 ^ len :=
    (Nat.div_add_mod (v / 2 ^ lo) (2 ^ len)).symm
  rw [Nat.div_div_eq_div_mul, ← Nat.pow_add] at h2
  rw [bits, Nat.shiftRight_eq_div_pow, ← h2]
  exact h1

/-- A field replaced: the image with its new part. -/
theorem setBits_eq (v lo len x : Nat) :
    setBits v lo len x = 2 ^ lo * (2 ^ len * (v / 2 ^ (lo + len)) + x % 2 ^ len) + v % 2 ^ lo := by
  have h := split_image v lo len
  simp only [setBits, Nat.shiftLeft_eq]
  generalize hb : bits v lo len = b at h ⊢
  generalize v / 2 ^ (lo + len) = q at h ⊢
  generalize v % 2 ^ lo = m at h ⊢
  generalize x % 2 ^ len = y
  rw [Nat.mul_add] at h ⊢
  rw [Nat.mul_comm b, Nat.mul_comm y]
  omega

/-- The bits of an image with a field replaced. -/
theorem testBit_setBits (v lo len x i : Nat) :
    (setBits v lo len x).testBit i = if lo ≤ i ∧ i < lo + len then x.testBit (i - lo) else v.testBit i := by
  rw [setBits_eq, Nat.testBit_two_pow_mul_add _ (Nat.mod_lt _ (Nat.two_pow_pos lo)),
    Nat.testBit_two_pow_mul_add _ (Nat.mod_lt _ (Nat.two_pow_pos len)), Nat.testBit_mod_two_pow, Nat.testBit_mod_two_pow]
  by_cases h1 : i < lo
  · have : ¬ lo ≤ i := by omega
    simp [h1, this]
  · by_cases h2 : i - lo < len
    · have h3 : lo ≤ i ∧ i < lo + len := by omega
      simp [h1, h2, h3]
    · have h3 : ¬ (lo ≤ i ∧ i < lo + len) := by omega
      have h4 : v.testBit i = (v / 2 ^ (lo + len)).testBit (i - lo - len) := by
        rw [Nat.testBit_div_two_pow]; congr 1; omega
      simp [h1, h2, h3, h4]

end Sys2Proof.Machine
end

