-- ==== Sys2Proof/Laws/State.lean ====
section
/-! SUPPORT. What each named update of the state leaves as it is: one lemma a field and update. -/

namespace Sys2Proof.Machine

open Sys2Proof

/-! ## `setCore` -/

@[simp] theorem State.setCore_now (s : State) (c : Nat) (k : Core) : (s.setCore c k).now = s.now := rfl
@[simp] theorem State.setCore_syncAt (s : State) (c : Nat) (k : Core) : (s.setCore c k).syncAt = s.syncAt := rfl
@[simp] theorem State.setCore_curCore (s : State) (c : Nat) (k : Core) : (s.setCore c k).curCore = s.curCore := rfl
@[simp] theorem State.setCore_curSlot (s : State) (c : Nat) (k : Core) : (s.setCore c k).curSlot = s.curSlot := rfl
@[simp] theorem State.setCore_bus (s : State) (c : Nat) (k : Core) : (s.setCore c k).bus = s.bus := rfl
@[simp] theorem State.setCore_agenda (s : State) (c : Nat) (k : Core) : (s.setCore c k).agenda = s.agenda := rfl
@[simp] theorem State.setCore_timers (s : State) (c : Nat) (k : Core) : (s.setCore c k).timers = s.timers := rfl
@[simp] theorem State.setCore_asked (s : State) (c : Nat) (k : Core) : (s.setCore c k).asked = s.asked := rfl
@[simp] theorem State.setCore_answers (s : State) (c : Nat) (k : Core) : (s.setCore c k).answers = s.answers := rfl
@[simp] theorem State.setCore_tap (s : State) (c : Nat) (k : Core) : (s.setCore c k).tap = s.tap := rfl
@[simp] theorem State.setCore_freeCount (s : State) (c : Nat) (k : Core) : (s.setCore c k).freeCount = s.freeCount := rfl
@[simp] theorem State.setCore_nextId (s : State) (c : Nat) (k : Core) : (s.setCore c k).nextId = s.nextId := rfl
@[simp] theorem State.setCore_mem (s : State) (c : Nat) (k : Core) : (s.setCore c k).mem = s.mem := rfl
@[simp] theorem State.setCore_badMem (s : State) (c : Nat) (k : Core) : (s.setCore c k).badMem = s.badMem := rfl
@[simp] theorem State.setCore_wafer (s : State) (c : Nat) (k : Core) : (s.setCore c k).wafer = s.wafer := rfl
@[simp] theorem State.setCore_campus (s : State) (c : Nat) (k : Core) : (s.setCore c k).campus = s.campus := rfl
@[simp] theorem State.setCore_launches (s : State) (c : Nat) (k : Core) : (s.setCore c k).launches = s.launches := rfl
@[simp] theorem State.setCore_nextLaunch (s : State) (c : Nat) (k : Core) : (s.setCore c k).nextLaunch = s.nextLaunch := rfl
@[simp] theorem State.setCore_lqs (s : State) (c : Nat) (k : Core) : (s.setCore c k).lqs = s.lqs := rfl
@[simp] theorem State.setCore_devq (s : State) (c : Nat) (k : Core) : (s.setCore c k).devq = s.devq := rfl
@[simp] theorem State.setCore_waitq (s : State) (c : Nat) (k : Core) : (s.setCore c k).waitq = s.waitq := rfl
@[simp] theorem State.setCore_pre (s : State) (c : Nat) (k : Core) : (s.setCore c k).pre = s.pre := rfl
@[simp] theorem State.setCore_clog (s : State) (c : Nat) (k : Core) : (s.setCore c k).clog = s.clog := rfl
@[simp] theorem State.setCore_ready (s : State) (c : Nat) (k : Core) : (s.setCore c k).ready = s.ready := rfl
@[simp] theorem State.setCore_draining (s : State) (c : Nat) (k : Core) : (s.setCore c k).draining = s.draining := rfl
@[simp] theorem State.setCore_standby (s : State) (c : Nat) (k : Core) : (s.setCore c k).standby = s.standby := rfl
@[simp] theorem State.setCore_pwRefused (s : State) (c : Nat) (k : Core) : (s.setCore c k).pwRefused = s.pwRefused := rfl
@[simp] theorem State.setCore_tables (s : State) (c : Nat) (k : Core) : (s.setCore c k).tables = s.tables := rfl
@[simp] theorem State.setCore_trace (s : State) (c : Nat) (k : Core) : (s.setCore c k).trace = s.trace := rfl
@[simp] theorem State.setCore_dbg (s : State) (c : Nat) (k : Core) : (s.setCore c k).dbg = s.dbg := rfl
@[simp] theorem State.setCore_security (s : State) (c : Nat) (k : Core) : (s.setCore c k).security = s.security := rfl
@[simp] theorem State.setCore_press (s : State) (c : Nat) (k : Core) : (s.setCore c k).press = s.press := rfl
@[simp] theorem State.setCore_msix (s : State) (c : Nat) (k : Core) : (s.setCore c k).msix = s.msix := rfl
@[simp] theorem State.setCore_edges (s : State) (c : Nat) (k : Core) : (s.setCore c k).edges = s.edges := rfl
@[simp] theorem State.setCore_replicas (s : State) (c : Nat) (k : Core) : (s.setCore c k).replicas = s.replicas := rfl
@[simp] theorem State.setCore_invWaits (s : State) (c : Nat) (k : Core) : (s.setCore c k).invWaits = s.invWaits := rfl
@[simp] theorem State.setCore_cellars (s : State) (c : Nat) (k : Core) : (s.setCore c k).cellars = s.cellars := rfl
@[simp] theorem State.setCore_links (s : State) (c : Nat) (k : Core) : (s.setCore c k).links = s.links := rfl
@[simp] theorem State.setCore_net (s : State) (c : Nat) (k : Core) : (s.setCore c k).net = s.net := rfl
@[simp] theorem State.setCore_wins (s : State) (c : Nat) (k : Core) : (s.setCore c k).wins = s.wins := rfl
@[simp] theorem State.setCore_msgs (s : State) (c : Nat) (k : Core) : (s.setCore c k).msgs = s.msgs := rfl
@[simp] theorem State.setCore_evs (s : State) (c : Nat) (k : Core) : (s.setCore c k).evs = s.evs := rfl
@[simp] theorem State.setCore_treeMsgs (s : State) (c : Nat) (k : Core) : (s.setCore c k).treeMsgs = s.treeMsgs := rfl
@[simp] theorem State.setCore_colls (s : State) (c : Nat) (k : Core) : (s.setCore c k).colls = s.colls := rfl
@[simp] theorem State.setCore_touches (s : State) (c : Nat) (k : Core) : (s.setCore c k).touches = s.touches := rfl
@[simp] theorem State.setCore_ndNotes (s : State) (c : Nat) (k : Core) : (s.setCore c k).ndNotes = s.ndNotes := rfl

/-! ## `modCore` -/

@[simp] theorem State.modCore_now (s : State) (c : Nat) (f : Core → Core) : (s.modCore c f).now = s.now := rfl
@[simp] theorem State.modCore_syncAt (s : State) (c : Nat) (f : Core → Core) : (s.modCore c f).syncAt = s.syncAt := rfl
@[simp] theorem State.modCore_curCore (s : State) (c : Nat) (f : Core → Core) : (s.modCore c f).curCore = s.curCore := rfl
@[simp] theorem State.modCore_curSlot (s : State) (c : Nat) (f : Core → Core) : (s.modCore c f).curSlot = s.curSlot := rfl
@[simp] theorem State.modCore_bus (s : State) (c : Nat) (f : Core → Core) : (s.modCore c f).bus = s.bus := rfl
@[simp] theorem State.modCore_agenda (s : State) (c : Nat) (f : Core → Core) : (s.modCore c f).agenda = s.agenda := rfl
@[simp] theorem State.modCore_timers (s : State) (c : Nat) (f : Core → Core) : (s.modCore c f).timers = s.timers := rfl
@[simp] theorem State.modCore_asked (s : State) (c : Nat) (f : Core → Core) : (s.modCore c f).asked = s.asked := rfl
@[simp] theorem State.modCore_answers (s : State) (c : Nat) (f : Core → Core) : (s.modCore c f).answers = s.answers := rfl
@[simp] theorem State.modCore_tap (s : State) (c : Nat) (f : Core → Core) : (s.modCore c f).tap = s.tap := rfl
@[simp] theorem State.modCore_freeCount (s : State) (c : Nat) (f : Core → Core) : (s.modCore c f).freeCount = s.freeCount := rfl
@[simp] theorem State.modCore_nextId (s : State) (c : Nat) (f : Core → Core) : (s.modCore c f).nextId = s.nextId := rfl
@[simp] theorem State.modCore_mem (s : State) (c : Nat) (f : Core → Core) : (s.modCore c f).mem = s.mem := rfl
@[simp] theorem State.modCore_badMem (s : State) (c : Nat) (f : Core → Core) : (s.modCore c f).badMem = s.badMem := rfl
@[simp] theorem State.modCore_wafer (s : State) (c : Nat) (f : Core → Core) : (s.modCore c f).wafer = s.wafer := rfl
@[simp] theorem State.modCore_campus (s : State) (c : Nat) (f : Core → Core) : (s.modCore c f).campus = s.campus := rfl
@[simp] theorem State.modCore_launches (s : State) (c : Nat) (f : Core → Core) : (s.modCore c f).launches = s.launches := rfl
@[simp] theorem State.modCore_nextLaunch (s : State) (c : Nat) (f : Core → Core) : (s.modCore c f).nextLaunch = s.nextLaunch := rfl
@[simp] theorem State.modCore_lqs (s : State) (c : Nat) (f : Core → Core) : (s.modCore c f).lqs = s.lqs := rfl
@[simp] theorem State.modCore_devq (s : State) (c : Nat) (f : Core → Core) : (s.modCore c f).devq = s.devq := rfl
@[simp] theorem State.modCore_waitq (s : State) (c : Nat) (f : Core → Core) : (s.modCore c f).waitq = s.waitq := rfl
@[simp] theorem State.modCore_pre (s : State) (c : Nat) (f : Core → Core) : (s.modCore c f).pre = s.pre := rfl
@[simp] theorem State.modCore_clog (s : State) (c : Nat) (f : Core → Core) : (s.modCore c f).clog = s.clog := rfl
@[simp] theorem State.modCore_ready (s : State) (c : Nat) (f : Core → Core) : (s.modCore c f).ready = s.ready := rfl
@[simp] theorem State.modCore_draining (s : State) (c : Nat) (f : Core → Core) : (s.modCore c f).draining = s.draining := rfl
@[simp] theorem State.modCore_standby (s : State) (c : Nat) (f : Core → Core) : (s.modCore c f).standby = s.standby := rfl
@[simp] theorem State.modCore_pwRefused (s : State) (c : Nat) (f : Core → Core) : (s.modCore c f).pwRefused = s.pwRefused := rfl
@[simp] theorem State.modCore_tables (s : State) (c : Nat) (f : Core → Core) : (s.modCore c f).tables = s.tables := rfl
@[simp] theorem State.modCore_trace (s : State) (c : Nat) (f : Core → Core) : (s.modCore c f).trace = s.trace := rfl
@[simp] theorem State.modCore_dbg (s : State) (c : Nat) (f : Core → Core) : (s.modCore c f).dbg = s.dbg := rfl
@[simp] theorem State.modCore_security (s : State) (c : Nat) (f : Core → Core) : (s.modCore c f).security = s.security := rfl
@[simp] theorem State.modCore_press (s : State) (c : Nat) (f : Core → Core) : (s.modCore c f).press = s.press := rfl
@[simp] theorem State.modCore_msix (s : State) (c : Nat) (f : Core → Core) : (s.modCore c f).msix = s.msix := rfl
@[simp] theorem State.modCore_edges (s : State) (c : Nat) (f : Core → Core) : (s.modCore c f).edges = s.edges := rfl
@[simp] theorem State.modCore_replicas (s : State) (c : Nat) (f : Core → Core) : (s.modCore c f).replicas = s.replicas := rfl
@[simp] theorem State.modCore_invWaits (s : State) (c : Nat) (f : Core → Core) : (s.modCore c f).invWaits = s.invWaits := rfl
@[simp] theorem State.modCore_cellars (s : State) (c : Nat) (f : Core → Core) : (s.modCore c f).cellars = s.cellars := rfl
@[simp] theorem State.modCore_links (s : State) (c : Nat) (f : Core → Core) : (s.modCore c f).links = s.links := rfl
@[simp] theorem State.modCore_net (s : State) (c : Nat) (f : Core → Core) : (s.modCore c f).net = s.net := rfl
@[simp] theorem State.modCore_wins (s : State) (c : Nat) (f : Core → Core) : (s.modCore c f).wins = s.wins := rfl
@[simp] theorem State.modCore_msgs (s : State) (c : Nat) (f : Core → Core) : (s.modCore c f).msgs = s.msgs := rfl
@[simp] theorem State.modCore_evs (s : State) (c : Nat) (f : Core → Core) : (s.modCore c f).evs = s.evs := rfl
@[simp] theorem State.modCore_treeMsgs (s : State) (c : Nat) (f : Core → Core) : (s.modCore c f).treeMsgs = s.treeMsgs := rfl
@[simp] theorem State.modCore_colls (s : State) (c : Nat) (f : Core → Core) : (s.modCore c f).colls = s.colls := rfl
@[simp] theorem State.modCore_touches (s : State) (c : Nat) (f : Core → Core) : (s.modCore c f).touches = s.touches := rfl
@[simp] theorem State.modCore_ndNotes (s : State) (c : Nat) (f : Core → Core) : (s.modCore c f).ndNotes = s.ndNotes := rfl

/-! ## `modCores` -/

@[simp] theorem State.modCores_now (s : State) (cs : List Nat) (f : Core → Core) : (s.modCores cs f).now = s.now := rfl
@[simp] theorem State.modCores_syncAt (s : State) (cs : List Nat) (f : Core → Core) : (s.modCores cs f).syncAt = s.syncAt := rfl
@[simp] theorem State.modCores_curCore (s : State) (cs : List Nat) (f : Core → Core) : (s.modCores cs f).curCore = s.curCore := rfl
@[simp] theorem State.modCores_curSlot (s : State) (cs : List Nat) (f : Core → Core) : (s.modCores cs f).curSlot = s.curSlot := rfl
@[simp] theorem State.modCores_bus (s : State) (cs : List Nat) (f : Core → Core) : (s.modCores cs f).bus = s.bus := rfl
@[simp] theorem State.modCores_agenda (s : State) (cs : List Nat) (f : Core → Core) : (s.modCores cs f).agenda = s.agenda := rfl
@[simp] theorem State.modCores_timers (s : State) (cs : List Nat) (f : Core → Core) : (s.modCores cs f).timers = s.timers := rfl
@[simp] theorem State.modCores_asked (s : State) (cs : List Nat) (f : Core → Core) : (s.modCores cs f).asked = s.asked := rfl
@[simp] theorem State.modCores_answers (s : State) (cs : List Nat) (f : Core → Core) : (s.modCores cs f).answers = s.answers := rfl
@[simp] theorem State.modCores_tap (s : State) (cs : List Nat) (f : Core → Core) : (s.modCores cs f).tap = s.tap := rfl
@[simp] theorem State.modCores_freeCount (s : State) (cs : List Nat) (f : Core → Core) : (s.modCores cs f).freeCount = s.freeCount := rfl
@[simp] theorem State.modCores_nextId (s : State) (cs : List Nat) (f : Core → Core) : (s.modCores cs f).nextId = s.nextId := rfl
@[simp] theorem State.modCores_mem (s : State) (cs : List Nat) (f : Core → Core) : (s.modCores cs f).mem = s.mem := rfl
@[simp] theorem State.modCores_badMem (s : State) (cs : List Nat) (f : Core → Core) : (s.modCores cs f).badMem = s.badMem := rfl
@[simp] theorem State.modCores_wafer (s : State) (cs : List Nat) (f : Core → Core) : (s.modCores cs f).wafer = s.wafer := rfl
@[simp] theorem State.modCores_campus (s : State) (cs : List Nat) (f : Core → Core) : (s.modCores cs f).campus = s.campus := rfl
@[simp] theorem State.modCores_launches (s : State) (cs : List Nat) (f : Core → Core) : (s.modCores cs f).launches = s.launches := rfl
@[simp] theorem State.modCores_nextLaunch (s : State) (cs : List Nat) (f : Core → Core) : (s.modCores cs f).nextLaunch = s.nextLaunch := rfl
@[simp] theorem State.modCores_lqs (s : State) (cs : List Nat) (f : Core → Core) : (s.modCores cs f).lqs = s.lqs := rfl
@[simp] theorem State.modCores_devq (s : State) (cs : List Nat) (f : Core → Core) : (s.modCores cs f).devq = s.devq := rfl
@[simp] theorem State.modCores_waitq (s : State) (cs : List Nat) (f : Core → Core) : (s.modCores cs f).waitq = s.waitq := rfl
@[simp] theorem State.modCores_pre (s : State) (cs : List Nat) (f : Core → Core) : (s.modCores cs f).pre = s.pre := rfl
@[simp] theorem State.modCores_clog (s : State) (cs : List Nat) (f : Core → Core) : (s.modCores cs f).clog = s.clog := rfl
@[simp] theorem State.modCores_ready (s : State) (cs : List Nat) (f : Core → Core) : (s.modCores cs f).ready = s.ready := rfl
@[simp] theorem State.modCores_draining (s : State) (cs : List Nat) (f : Core → Core) : (s.modCores cs f).draining = s.draining := rfl
@[simp] theorem State.modCores_standby (s : State) (cs : List Nat) (f : Core → Core) : (s.modCores cs f).standby = s.standby := rfl
@[simp] theorem State.modCores_pwRefused (s : State) (cs : List Nat) (f : Core → Core) : (s.modCores cs f).pwRefused = s.pwRefused := rfl
@[simp] theorem State.modCores_tables (s : State) (cs : List Nat) (f : Core → Core) : (s.modCores cs f).tables = s.tables := rfl
@[simp] theorem State.modCores_trace (s : State) (cs : List Nat) (f : Core → Core) : (s.modCores cs f).trace = s.trace := rfl
@[simp] theorem State.modCores_dbg (s : State) (cs : List Nat) (f : Core → Core) : (s.modCores cs f).dbg = s.dbg := rfl
@[simp] theorem State.modCores_security (s : State) (cs : List Nat) (f : Core → Core) : (s.modCores cs f).security = s.security := rfl
@[simp] theorem State.modCores_press (s : State) (cs : List Nat) (f : Core → Core) : (s.modCores cs f).press = s.press := rfl
@[simp] theorem State.modCores_msix (s : State) (cs : List Nat) (f : Core → Core) : (s.modCores cs f).msix = s.msix := rfl
@[simp] theorem State.modCores_edges (s : State) (cs : List Nat) (f : Core → Core) : (s.modCores cs f).edges = s.edges := rfl
@[simp] theorem State.modCores_replicas (s : State) (cs : List Nat) (f : Core → Core) : (s.modCores cs f).replicas = s.replicas := rfl
@[simp] theorem State.modCores_invWaits (s : State) (cs : List Nat) (f : Core → Core) : (s.modCores cs f).invWaits = s.invWaits := rfl
@[simp] theorem State.modCores_cellars (s : State) (cs : List Nat) (f : Core → Core) : (s.modCores cs f).cellars = s.cellars := rfl
@[simp] theorem State.modCores_links (s : State) (cs : List Nat) (f : Core → Core) : (s.modCores cs f).links = s.links := rfl
@[simp] theorem State.modCores_net (s : State) (cs : List Nat) (f : Core → Core) : (s.modCores cs f).net = s.net := rfl
@[simp] theorem State.modCores_wins (s : State) (cs : List Nat) (f : Core → Core) : (s.modCores cs f).wins = s.wins := rfl
@[simp] theorem State.modCores_msgs (s : State) (cs : List Nat) (f : Core → Core) : (s.modCores cs f).msgs = s.msgs := rfl
@[simp] theorem State.modCores_evs (s : State) (cs : List Nat) (f : Core → Core) : (s.modCores cs f).evs = s.evs := rfl
@[simp] theorem State.modCores_treeMsgs (s : State) (cs : List Nat) (f : Core → Core) : (s.modCores cs f).treeMsgs = s.treeMsgs := rfl
@[simp] theorem State.modCores_colls (s : State) (cs : List Nat) (f : Core → Core) : (s.modCores cs f).colls = s.colls := rfl
@[simp] theorem State.modCores_touches (s : State) (cs : List Nat) (f : Core → Core) : (s.modCores cs f).touches = s.touches := rfl
@[simp] theorem State.modCores_ndNotes (s : State) (cs : List Nat) (f : Core → Core) : (s.modCores cs f).ndNotes = s.ndNotes := rfl

/-! ## `setThread` -/

@[simp] theorem State.setThread_now (s : State) (c t : Nat) (th : Thread) : (s.setThread c t th).now = s.now := rfl
@[simp] theorem State.setThread_syncAt (s : State) (c t : Nat) (th : Thread) : (s.setThread c t th).syncAt = s.syncAt := rfl
@[simp] theorem State.setThread_curCore (s : State) (c t : Nat) (th : Thread) : (s.setThread c t th).curCore = s.curCore := rfl
@[simp] theorem State.setThread_curSlot (s : State) (c t : Nat) (th : Thread) : (s.setThread c t th).curSlot = s.curSlot := rfl
@[simp] theorem State.setThread_bus (s : State) (c t : Nat) (th : Thread) : (s.setThread c t th).bus = s.bus := rfl
@[simp] theorem State.setThread_agenda (s : State) (c t : Nat) (th : Thread) : (s.setThread c t th).agenda = s.agenda := rfl
@[simp] theorem State.setThread_timers (s : State) (c t : Nat) (th : Thread) : (s.setThread c t th).timers = s.timers := rfl
@[simp] theorem State.setThread_asked (s : State) (c t : Nat) (th : Thread) : (s.setThread c t th).asked = s.asked := rfl
@[simp] theorem State.setThread_answers (s : State) (c t : Nat) (th : Thread) : (s.setThread c t th).answers = s.answers := rfl
@[simp] theorem State.setThread_tap (s : State) (c t : Nat) (th : Thread) : (s.setThread c t th).tap = s.tap := rfl
@[simp] theorem State.setThread_freeCount (s : State) (c t : Nat) (th : Thread) : (s.setThread c t th).freeCount = s.freeCount := rfl
@[simp] theorem State.setThread_nextId (s : State) (c t : Nat) (th : Thread) : (s.setThread c t th).nextId = s.nextId := rfl
@[simp] theorem State.setThread_mem (s : State) (c t : Nat) (th : Thread) : (s.setThread c t th).mem = s.mem := rfl
@[simp] theorem State.setThread_badMem (s : State) (c t : Nat) (th : Thread) : (s.setThread c t th).badMem = s.badMem := rfl
@[simp] theorem State.setThread_wafer (s : State) (c t : Nat) (th : Thread) : (s.setThread c t th).wafer = s.wafer := rfl
@[simp] theorem State.setThread_campus (s : State) (c t : Nat) (th : Thread) : (s.setThread c t th).campus = s.campus := rfl
@[simp] theorem State.setThread_launches (s : State) (c t : Nat) (th : Thread) : (s.setThread c t th).launches = s.launches := rfl
@[simp] theorem State.setThread_nextLaunch (s : State) (c t : Nat) (th : Thread) : (s.setThread c t th).nextLaunch = s.nextLaunch := rfl
@[simp] theorem State.setThread_lqs (s : State) (c t : Nat) (th : Thread) : (s.setThread c t th).lqs = s.lqs := rfl
@[simp] theorem State.setThread_devq (s : State) (c t : Nat) (th : Thread) : (s.setThread c t th).devq = s.devq := rfl
@[simp] theorem State.setThread_waitq (s : State) (c t : Nat) (th : Thread) : (s.setThread c t th).waitq = s.waitq := rfl
@[simp] theorem State.setThread_pre (s : State) (c t : Nat) (th : Thread) : (s.setThread c t th).pre = s.pre := rfl
@[simp] theorem State.setThread_clog (s : State) (c t : Nat) (th : Thread) : (s.setThread c t th).clog = s.clog := rfl
@[simp] theorem State.setThread_ready (s : State) (c t : Nat) (th : Thread) : (s.setThread c t th).ready = s.ready := rfl
@[simp] theorem State.setThread_draining (s : State) (c t : Nat) (th : Thread) : (s.setThread c t th).draining = s.draining := rfl
@[simp] theorem State.setThread_standby (s : State) (c t : Nat) (th : Thread) : (s.setThread c t th).standby = s.standby := rfl
@[simp] theorem State.setThread_pwRefused (s : State) (c t : Nat) (th : Thread) : (s.setThread c t th).pwRefused = s.pwRefused := rfl
@[simp] theorem State.setThread_tables (s : State) (c t : Nat) (th : Thread) : (s.setThread c t th).tables = s.tables := rfl
@[simp] theorem State.setThread_trace (s : State) (c t : Nat) (th : Thread) : (s.setThread c t th).trace = s.trace := rfl
@[simp] theorem State.setThread_dbg (s : State) (c t : Nat) (th : Thread) : (s.setThread c t th).dbg = s.dbg := rfl
@[simp] theorem State.setThread_security (s : State) (c t : Nat) (th : Thread) : (s.setThread c t th).security = s.security := rfl
@[simp] theorem State.setThread_press (s : State) (c t : Nat) (th : Thread) : (s.setThread c t th).press = s.press := rfl
@[simp] theorem State.setThread_msix (s : State) (c t : Nat) (th : Thread) : (s.setThread c t th).msix = s.msix := rfl
@[simp] theorem State.setThread_edges (s : State) (c t : Nat) (th : Thread) : (s.setThread c t th).edges = s.edges := rfl
@[simp] theorem State.setThread_replicas (s : State) (c t : Nat) (th : Thread) : (s.setThread c t th).replicas = s.replicas := rfl
@[simp] theorem State.setThread_invWaits (s : State) (c t : Nat) (th : Thread) : (s.setThread c t th).invWaits = s.invWaits := rfl
@[simp] theorem State.setThread_cellars (s : State) (c t : Nat) (th : Thread) : (s.setThread c t th).cellars = s.cellars := rfl
@[simp] theorem State.setThread_links (s : State) (c t : Nat) (th : Thread) : (s.setThread c t th).links = s.links := rfl
@[simp] theorem State.setThread_net (s : State) (c t : Nat) (th : Thread) : (s.setThread c t th).net = s.net := rfl
@[simp] theorem State.setThread_wins (s : State) (c t : Nat) (th : Thread) : (s.setThread c t th).wins = s.wins := rfl
@[simp] theorem State.setThread_msgs (s : State) (c t : Nat) (th : Thread) : (s.setThread c t th).msgs = s.msgs := rfl
@[simp] theorem State.setThread_evs (s : State) (c t : Nat) (th : Thread) : (s.setThread c t th).evs = s.evs := rfl
@[simp] theorem State.setThread_treeMsgs (s : State) (c t : Nat) (th : Thread) : (s.setThread c t th).treeMsgs = s.treeMsgs := rfl
@[simp] theorem State.setThread_colls (s : State) (c t : Nat) (th : Thread) : (s.setThread c t th).colls = s.colls := rfl
@[simp] theorem State.setThread_touches (s : State) (c t : Nat) (th : Thread) : (s.setThread c t th).touches = s.touches := rfl
@[simp] theorem State.setThread_ndNotes (s : State) (c t : Nat) (th : Thread) : (s.setThread c t th).ndNotes = s.ndNotes := rfl

/-! ## `modThread` -/

@[simp] theorem State.modThread_now (s : State) (c t : Nat) (f : Thread → Thread) : (s.modThread c t f).now = s.now := rfl
@[simp] theorem State.modThread_syncAt (s : State) (c t : Nat) (f : Thread → Thread) : (s.modThread c t f).syncAt = s.syncAt := rfl
@[simp] theorem State.modThread_curCore (s : State) (c t : Nat) (f : Thread → Thread) : (s.modThread c t f).curCore = s.curCore := rfl
@[simp] theorem State.modThread_curSlot (s : State) (c t : Nat) (f : Thread → Thread) : (s.modThread c t f).curSlot = s.curSlot := rfl
@[simp] theorem State.modThread_bus (s : State) (c t : Nat) (f : Thread → Thread) : (s.modThread c t f).bus = s.bus := rfl
@[simp] theorem State.modThread_agenda (s : State) (c t : Nat) (f : Thread → Thread) : (s.modThread c t f).agenda = s.agenda := rfl
@[simp] theorem State.modThread_timers (s : State) (c t : Nat) (f : Thread → Thread) : (s.modThread c t f).timers = s.timers := rfl
@[simp] theorem State.modThread_asked (s : State) (c t : Nat) (f : Thread → Thread) : (s.modThread c t f).asked = s.asked := rfl
@[simp] theorem State.modThread_answers (s : State) (c t : Nat) (f : Thread → Thread) : (s.modThread c t f).answers = s.answers := rfl
@[simp] theorem State.modThread_tap (s : State) (c t : Nat) (f : Thread → Thread) : (s.modThread c t f).tap = s.tap := rfl
@[simp] theorem State.modThread_freeCount (s : State) (c t : Nat) (f : Thread → Thread) : (s.modThread c t f).freeCount = s.freeCount := rfl
@[simp] theorem State.modThread_nextId (s : State) (c t : Nat) (f : Thread → Thread) : (s.modThread c t f).nextId = s.nextId := rfl
@[simp] theorem State.modThread_mem (s : State) (c t : Nat) (f : Thread → Thread) : (s.modThread c t f).mem = s.mem := rfl
@[simp] theorem State.modThread_badMem (s : State) (c t : Nat) (f : Thread → Thread) : (s.modThread c t f).badMem = s.badMem := rfl
@[simp] theorem State.modThread_wafer (s : State) (c t : Nat) (f : Thread → Thread) : (s.modThread c t f).wafer = s.wafer := rfl
@[simp] theorem State.modThread_campus (s : State) (c t : Nat) (f : Thread → Thread) : (s.modThread c t f).campus = s.campus := rfl
@[simp] theorem State.modThread_launches (s : State) (c t : Nat) (f : Thread → Thread) : (s.modThread c t f).launches = s.launches := rfl
@[simp] theorem State.modThread_nextLaunch (s : State) (c t : Nat) (f : Thread → Thread) : (s.modThread c t f).nextLaunch = s.nextLaunch := rfl
@[simp] theorem State.modThread_lqs (s : State) (c t : Nat) (f : Thread → Thread) : (s.modThread c t f).lqs = s.lqs := rfl
@[simp] theorem State.modThread_devq (s : State) (c t : Nat) (f : Thread → Thread) : (s.modThread c t f).devq = s.devq := rfl
@[simp] theorem State.modThread_waitq (s : State) (c t : Nat) (f : Thread → Thread) : (s.modThread c t f).waitq = s.waitq := rfl
@[simp] theorem State.modThread_pre (s : State) (c t : Nat) (f : Thread → Thread) : (s.modThread c t f).pre = s.pre := rfl
@[simp] theorem State.modThread_clog (s : State) (c t : Nat) (f : Thread → Thread) : (s.modThread c t f).clog = s.clog := rfl
@[simp] theorem State.modThread_ready (s : State) (c t : Nat) (f : Thread → Thread) : (s.modThread c t f).ready = s.ready := rfl
@[simp] theorem State.modThread_draining (s : State) (c t : Nat) (f : Thread → Thread) : (s.modThread c t f).draining = s.draining := rfl
@[simp] theorem State.modThread_standby (s : State) (c t : Nat) (f : Thread → Thread) : (s.modThread c t f).standby = s.standby := rfl
@[simp] theorem State.modThread_pwRefused (s : State) (c t : Nat) (f : Thread → Thread) : (s.modThread c t f).pwRefused = s.pwRefused := rfl
@[simp] theorem State.modThread_tables (s : State) (c t : Nat) (f : Thread → Thread) : (s.modThread c t f).tables = s.tables := rfl
@[simp] theorem State.modThread_trace (s : State) (c t : Nat) (f : Thread → Thread) : (s.modThread c t f).trace = s.trace := rfl
@[simp] theorem State.modThread_dbg (s : State) (c t : Nat) (f : Thread → Thread) : (s.modThread c t f).dbg = s.dbg := rfl
@[simp] theorem State.modThread_security (s : State) (c t : Nat) (f : Thread → Thread) : (s.modThread c t f).security = s.security := rfl
@[simp] theorem State.modThread_press (s : State) (c t : Nat) (f : Thread → Thread) : (s.modThread c t f).press = s.press := rfl
@[simp] theorem State.modThread_msix (s : State) (c t : Nat) (f : Thread → Thread) : (s.modThread c t f).msix = s.msix := rfl
@[simp] theorem State.modThread_edges (s : State) (c t : Nat) (f : Thread → Thread) : (s.modThread c t f).edges = s.edges := rfl
@[simp] theorem State.modThread_replicas (s : State) (c t : Nat) (f : Thread → Thread) : (s.modThread c t f).replicas = s.replicas := rfl
@[simp] theorem State.modThread_invWaits (s : State) (c t : Nat) (f : Thread → Thread) : (s.modThread c t f).invWaits = s.invWaits := rfl
@[simp] theorem State.modThread_cellars (s : State) (c t : Nat) (f : Thread → Thread) : (s.modThread c t f).cellars = s.cellars := rfl
@[simp] theorem State.modThread_links (s : State) (c t : Nat) (f : Thread → Thread) : (s.modThread c t f).links = s.links := rfl
@[simp] theorem State.modThread_net (s : State) (c t : Nat) (f : Thread → Thread) : (s.modThread c t f).net = s.net := rfl
@[simp] theorem State.modThread_wins (s : State) (c t : Nat) (f : Thread → Thread) : (s.modThread c t f).wins = s.wins := rfl
@[simp] theorem State.modThread_msgs (s : State) (c t : Nat) (f : Thread → Thread) : (s.modThread c t f).msgs = s.msgs := rfl
@[simp] theorem State.modThread_evs (s : State) (c t : Nat) (f : Thread → Thread) : (s.modThread c t f).evs = s.evs := rfl
@[simp] theorem State.modThread_treeMsgs (s : State) (c t : Nat) (f : Thread → Thread) : (s.modThread c t f).treeMsgs = s.treeMsgs := rfl
@[simp] theorem State.modThread_colls (s : State) (c t : Nat) (f : Thread → Thread) : (s.modThread c t f).colls = s.colls := rfl
@[simp] theorem State.modThread_touches (s : State) (c t : Nat) (f : Thread → Thread) : (s.modThread c t f).touches = s.touches := rfl
@[simp] theorem State.modThread_ndNotes (s : State) (c t : Nat) (f : Thread → Thread) : (s.modThread c t f).ndNotes = s.ndNotes := rfl

/-! ## `modMe` -/

@[simp] theorem State.modMe_now (s : State) (f : Thread → Thread) : (s.modMe f).now = s.now := rfl
@[simp] theorem State.modMe_syncAt (s : State) (f : Thread → Thread) : (s.modMe f).syncAt = s.syncAt := rfl
@[simp] theorem State.modMe_curCore (s : State) (f : Thread → Thread) : (s.modMe f).curCore = s.curCore := rfl
@[simp] theorem State.modMe_curSlot (s : State) (f : Thread → Thread) : (s.modMe f).curSlot = s.curSlot := rfl
@[simp] theorem State.modMe_bus (s : State) (f : Thread → Thread) : (s.modMe f).bus = s.bus := rfl
@[simp] theorem State.modMe_agenda (s : State) (f : Thread → Thread) : (s.modMe f).agenda = s.agenda := rfl
@[simp] theorem State.modMe_timers (s : State) (f : Thread → Thread) : (s.modMe f).timers = s.timers := rfl
@[simp] theorem State.modMe_asked (s : State) (f : Thread → Thread) : (s.modMe f).asked = s.asked := rfl
@[simp] theorem State.modMe_answers (s : State) (f : Thread → Thread) : (s.modMe f).answers = s.answers := rfl
@[simp] theorem State.modMe_tap (s : State) (f : Thread → Thread) : (s.modMe f).tap = s.tap := rfl
@[simp] theorem State.modMe_freeCount (s : State) (f : Thread → Thread) : (s.modMe f).freeCount = s.freeCount := rfl
@[simp] theorem State.modMe_nextId (s : State) (f : Thread → Thread) : (s.modMe f).nextId = s.nextId := rfl
@[simp] theorem State.modMe_mem (s : State) (f : Thread → Thread) : (s.modMe f).mem = s.mem := rfl
@[simp] theorem State.modMe_badMem (s : State) (f : Thread → Thread) : (s.modMe f).badMem = s.badMem := rfl
@[simp] theorem State.modMe_wafer (s : State) (f : Thread → Thread) : (s.modMe f).wafer = s.wafer := rfl
@[simp] theorem State.modMe_campus (s : State) (f : Thread → Thread) : (s.modMe f).campus = s.campus := rfl
@[simp] theorem State.modMe_launches (s : State) (f : Thread → Thread) : (s.modMe f).launches = s.launches := rfl
@[simp] theorem State.modMe_nextLaunch (s : State) (f : Thread → Thread) : (s.modMe f).nextLaunch = s.nextLaunch := rfl
@[simp] theorem State.modMe_lqs (s : State) (f : Thread → Thread) : (s.modMe f).lqs = s.lqs := rfl
@[simp] theorem State.modMe_devq (s : State) (f : Thread → Thread) : (s.modMe f).devq = s.devq := rfl
@[simp] theorem State.modMe_waitq (s : State) (f : Thread → Thread) : (s.modMe f).waitq = s.waitq := rfl
@[simp] theorem State.modMe_pre (s : State) (f : Thread → Thread) : (s.modMe f).pre = s.pre := rfl
@[simp] theorem State.modMe_clog (s : State) (f : Thread → Thread) : (s.modMe f).clog = s.clog := rfl
@[simp] theorem State.modMe_ready (s : State) (f : Thread → Thread) : (s.modMe f).ready = s.ready := rfl
@[simp] theorem State.modMe_draining (s : State) (f : Thread → Thread) : (s.modMe f).draining = s.draining := rfl
@[simp] theorem State.modMe_standby (s : State) (f : Thread → Thread) : (s.modMe f).standby = s.standby := rfl
@[simp] theorem State.modMe_pwRefused (s : State) (f : Thread → Thread) : (s.modMe f).pwRefused = s.pwRefused := rfl
@[simp] theorem State.modMe_tables (s : State) (f : Thread → Thread) : (s.modMe f).tables = s.tables := rfl
@[simp] theorem State.modMe_trace (s : State) (f : Thread → Thread) : (s.modMe f).trace = s.trace := rfl
@[simp] theorem State.modMe_dbg (s : State) (f : Thread → Thread) : (s.modMe f).dbg = s.dbg := rfl
@[simp] theorem State.modMe_security (s : State) (f : Thread → Thread) : (s.modMe f).security = s.security := rfl
@[simp] theorem State.modMe_press (s : State) (f : Thread → Thread) : (s.modMe f).press = s.press := rfl
@[simp] theorem State.modMe_msix (s : State) (f : Thread → Thread) : (s.modMe f).msix = s.msix := rfl
@[simp] theorem State.modMe_edges (s : State) (f : Thread → Thread) : (s.modMe f).edges = s.edges := rfl
@[simp] theorem State.modMe_replicas (s : State) (f : Thread → Thread) : (s.modMe f).replicas = s.replicas := rfl
@[simp] theorem State.modMe_invWaits (s : State) (f : Thread → Thread) : (s.modMe f).invWaits = s.invWaits := rfl
@[simp] theorem State.modMe_cellars (s : State) (f : Thread → Thread) : (s.modMe f).cellars = s.cellars := rfl
@[simp] theorem State.modMe_links (s : State) (f : Thread → Thread) : (s.modMe f).links = s.links := rfl
@[simp] theorem State.modMe_net (s : State) (f : Thread → Thread) : (s.modMe f).net = s.net := rfl
@[simp] theorem State.modMe_wins (s : State) (f : Thread → Thread) : (s.modMe f).wins = s.wins := rfl
@[simp] theorem State.modMe_msgs (s : State) (f : Thread → Thread) : (s.modMe f).msgs = s.msgs := rfl
@[simp] theorem State.modMe_evs (s : State) (f : Thread → Thread) : (s.modMe f).evs = s.evs := rfl
@[simp] theorem State.modMe_treeMsgs (s : State) (f : Thread → Thread) : (s.modMe f).treeMsgs = s.treeMsgs := rfl
@[simp] theorem State.modMe_colls (s : State) (f : Thread → Thread) : (s.modMe f).colls = s.colls := rfl
@[simp] theorem State.modMe_touches (s : State) (f : Thread → Thread) : (s.modMe f).touches = s.touches := rfl
@[simp] theorem State.modMe_ndNotes (s : State) (f : Thread → Thread) : (s.modMe f).ndNotes = s.ndNotes := rfl

/-! ## `modMyCore` -/

@[simp] theorem State.modMyCore_now (s : State) (f : Core → Core) : (s.modMyCore f).now = s.now := rfl
@[simp] theorem State.modMyCore_syncAt (s : State) (f : Core → Core) : (s.modMyCore f).syncAt = s.syncAt := rfl
@[simp] theorem State.modMyCore_curCore (s : State) (f : Core → Core) : (s.modMyCore f).curCore = s.curCore := rfl
@[simp] theorem State.modMyCore_curSlot (s : State) (f : Core → Core) : (s.modMyCore f).curSlot = s.curSlot := rfl
@[simp] theorem State.modMyCore_bus (s : State) (f : Core → Core) : (s.modMyCore f).bus = s.bus := rfl
@[simp] theorem State.modMyCore_agenda (s : State) (f : Core → Core) : (s.modMyCore f).agenda = s.agenda := rfl
@[simp] theorem State.modMyCore_timers (s : State) (f : Core → Core) : (s.modMyCore f).timers = s.timers := rfl
@[simp] theorem State.modMyCore_asked (s : State) (f : Core → Core) : (s.modMyCore f).asked = s.asked := rfl
@[simp] theorem State.modMyCore_answers (s : State) (f : Core → Core) : (s.modMyCore f).answers = s.answers := rfl
@[simp] theorem State.modMyCore_tap (s : State) (f : Core → Core) : (s.modMyCore f).tap = s.tap := rfl
@[simp] theorem State.modMyCore_freeCount (s : State) (f : Core → Core) : (s.modMyCore f).freeCount = s.freeCount := rfl
@[simp] theorem State.modMyCore_nextId (s : State) (f : Core → Core) : (s.modMyCore f).nextId = s.nextId := rfl
@[simp] theorem State.modMyCore_mem (s : State) (f : Core → Core) : (s.modMyCore f).mem = s.mem := rfl
@[simp] theorem State.modMyCore_badMem (s : State) (f : Core → Core) : (s.modMyCore f).badMem = s.badMem := rfl
@[simp] theorem State.modMyCore_wafer (s : State) (f : Core → Core) : (s.modMyCore f).wafer = s.wafer := rfl
@[simp] theorem State.modMyCore_campus (s : State) (f : Core → Core) : (s.modMyCore f).campus = s.campus := rfl
@[simp] theorem State.modMyCore_launches (s : State) (f : Core → Core) : (s.modMyCore f).launches = s.launches := rfl
@[simp] theorem State.modMyCore_nextLaunch (s : State) (f : Core → Core) : (s.modMyCore f).nextLaunch = s.nextLaunch := rfl
@[simp] theorem State.modMyCore_lqs (s : State) (f : Core → Core) : (s.modMyCore f).lqs = s.lqs := rfl
@[simp] theorem State.modMyCore_devq (s : State) (f : Core → Core) : (s.modMyCore f).devq = s.devq := rfl
@[simp] theorem State.modMyCore_waitq (s : State) (f : Core → Core) : (s.modMyCore f).waitq = s.waitq := rfl
@[simp] theorem State.modMyCore_pre (s : State) (f : Core → Core) : (s.modMyCore f).pre = s.pre := rfl
@[simp] theorem State.modMyCore_clog (s : State) (f : Core → Core) : (s.modMyCore f).clog = s.clog := rfl
@[simp] theorem State.modMyCore_ready (s : State) (f : Core → Core) : (s.modMyCore f).ready = s.ready := rfl
@[simp] theorem State.modMyCore_draining (s : State) (f : Core → Core) : (s.modMyCore f).draining = s.draining := rfl
@[simp] theorem State.modMyCore_standby (s : State) (f : Core → Core) : (s.modMyCore f).standby = s.standby := rfl
@[simp] theorem State.modMyCore_pwRefused (s : State) (f : Core → Core) : (s.modMyCore f).pwRefused = s.pwRefused := rfl
@[simp] theorem State.modMyCore_tables (s : State) (f : Core → Core) : (s.modMyCore f).tables = s.tables := rfl
@[simp] theorem State.modMyCore_trace (s : State) (f : Core → Core) : (s.modMyCore f).trace = s.trace := rfl
@[simp] theorem State.modMyCore_dbg (s : State) (f : Core → Core) : (s.modMyCore f).dbg = s.dbg := rfl
@[simp] theorem State.modMyCore_security (s : State) (f : Core → Core) : (s.modMyCore f).security = s.security := rfl
@[simp] theorem State.modMyCore_press (s : State) (f : Core → Core) : (s.modMyCore f).press = s.press := rfl
@[simp] theorem State.modMyCore_msix (s : State) (f : Core → Core) : (s.modMyCore f).msix = s.msix := rfl
@[simp] theorem State.modMyCore_edges (s : State) (f : Core → Core) : (s.modMyCore f).edges = s.edges := rfl
@[simp] theorem State.modMyCore_replicas (s : State) (f : Core → Core) : (s.modMyCore f).replicas = s.replicas := rfl
@[simp] theorem State.modMyCore_invWaits (s : State) (f : Core → Core) : (s.modMyCore f).invWaits = s.invWaits := rfl
@[simp] theorem State.modMyCore_cellars (s : State) (f : Core → Core) : (s.modMyCore f).cellars = s.cellars := rfl
@[simp] theorem State.modMyCore_links (s : State) (f : Core → Core) : (s.modMyCore f).links = s.links := rfl
@[simp] theorem State.modMyCore_net (s : State) (f : Core → Core) : (s.modMyCore f).net = s.net := rfl
@[simp] theorem State.modMyCore_wins (s : State) (f : Core → Core) : (s.modMyCore f).wins = s.wins := rfl
@[simp] theorem State.modMyCore_msgs (s : State) (f : Core → Core) : (s.modMyCore f).msgs = s.msgs := rfl
@[simp] theorem State.modMyCore_evs (s : State) (f : Core → Core) : (s.modMyCore f).evs = s.evs := rfl
@[simp] theorem State.modMyCore_treeMsgs (s : State) (f : Core → Core) : (s.modMyCore f).treeMsgs = s.treeMsgs := rfl
@[simp] theorem State.modMyCore_colls (s : State) (f : Core → Core) : (s.modMyCore f).colls = s.colls := rfl
@[simp] theorem State.modMyCore_touches (s : State) (f : Core → Core) : (s.modMyCore f).touches = s.touches := rfl
@[simp] theorem State.modMyCore_ndNotes (s : State) (f : Core → Core) : (s.modMyCore f).ndNotes = s.ndNotes := rfl

/-! ## `atTime` -/

@[simp] theorem State.atTime_now (s : State) (t : Nat) (i : Instr) : (s.atTime t i).now = s.now := rfl
@[simp] theorem State.atTime_syncAt (s : State) (t : Nat) (i : Instr) : (s.atTime t i).syncAt = s.syncAt := rfl
@[simp] theorem State.atTime_curCore (s : State) (t : Nat) (i : Instr) : (s.atTime t i).curCore = s.curCore := rfl
@[simp] theorem State.atTime_curSlot (s : State) (t : Nat) (i : Instr) : (s.atTime t i).curSlot = s.curSlot := rfl
@[simp] theorem State.atTime_bus (s : State) (t : Nat) (i : Instr) : (s.atTime t i).bus = s.bus := rfl
@[simp] theorem State.atTime_agenda (s : State) (t : Nat) (i : Instr) : (s.atTime t i).agenda = s.agenda := rfl
@[simp] theorem State.atTime_asked (s : State) (t : Nat) (i : Instr) : (s.atTime t i).asked = s.asked := rfl
@[simp] theorem State.atTime_answers (s : State) (t : Nat) (i : Instr) : (s.atTime t i).answers = s.answers := rfl
@[simp] theorem State.atTime_tap (s : State) (t : Nat) (i : Instr) : (s.atTime t i).tap = s.tap := rfl
@[simp] theorem State.atTime_freeCount (s : State) (t : Nat) (i : Instr) : (s.atTime t i).freeCount = s.freeCount := rfl
@[simp] theorem State.atTime_nextId (s : State) (t : Nat) (i : Instr) : (s.atTime t i).nextId = s.nextId := rfl
@[simp] theorem State.atTime_mem (s : State) (t : Nat) (i : Instr) : (s.atTime t i).mem = s.mem := rfl
@[simp] theorem State.atTime_badMem (s : State) (t : Nat) (i : Instr) : (s.atTime t i).badMem = s.badMem := rfl
@[simp] theorem State.atTime_cores (s : State) (t : Nat) (i : Instr) : (s.atTime t i).cores = s.cores := rfl
@[simp] theorem State.atTime_wafer (s : State) (t : Nat) (i : Instr) : (s.atTime t i).wafer = s.wafer := rfl
@[simp] theorem State.atTime_campus (s : State) (t : Nat) (i : Instr) : (s.atTime t i).campus = s.campus := rfl
@[simp] theorem State.atTime_launches (s : State) (t : Nat) (i : Instr) : (s.atTime t i).launches = s.launches := rfl
@[simp] theorem State.atTime_nextLaunch (s : State) (t : Nat) (i : Instr) : (s.atTime t i).nextLaunch = s.nextLaunch := rfl
@[simp] theorem State.atTime_lqs (s : State) (t : Nat) (i : Instr) : (s.atTime t i).lqs = s.lqs := rfl
@[simp] theorem State.atTime_devq (s : State) (t : Nat) (i : Instr) : (s.atTime t i).devq = s.devq := rfl
@[simp] theorem State.atTime_waitq (s : State) (t : Nat) (i : Instr) : (s.atTime t i).waitq = s.waitq := rfl
@[simp] theorem State.atTime_pre (s : State) (t : Nat) (i : Instr) : (s.atTime t i).pre = s.pre := rfl
@[simp] theorem State.atTime_clog (s : State) (t : Nat) (i : Instr) : (s.atTime t i).clog = s.clog := rfl
@[simp] theorem State.atTime_ready (s : State) (t : Nat) (i : Instr) : (s.atTime t i).ready = s.ready := rfl
@[simp] theorem State.atTime_draining (s : State) (t : Nat) (i : Instr) : (s.atTime t i).draining = s.draining := rfl
@[simp] theorem State.atTime_standby (s : State) (t : Nat) (i : Instr) : (s.atTime t i).standby = s.standby := rfl
@[simp] theorem State.atTime_pwRefused (s : State) (t : Nat) (i : Instr) : (s.atTime t i).pwRefused = s.pwRefused := rfl
@[simp] theorem State.atTime_tables (s : State) (t : Nat) (i : Instr) : (s.atTime t i).tables = s.tables := rfl
@[simp] theorem State.atTime_trace (s : State) (t : Nat) (i : Instr) : (s.atTime t i).trace = s.trace := rfl
@[simp] theorem State.atTime_dbg (s : State) (t : Nat) (i : Instr) : (s.atTime t i).dbg = s.dbg := rfl
@[simp] theorem State.atTime_security (s : State) (t : Nat) (i : Instr) : (s.atTime t i).security = s.security := rfl
@[simp] theorem State.atTime_press (s : State) (t : Nat) (i : Instr) : (s.atTime t i).press = s.press := rfl
@[simp] theorem State.atTime_msix (s : State) (t : Nat) (i : Instr) : (s.atTime t i).msix = s.msix := rfl
@[simp] theorem State.atTime_edges (s : State) (t : Nat) (i : Instr) : (s.atTime t i).edges = s.edges := rfl
@[simp] theorem State.atTime_replicas (s : State) (t : Nat) (i : Instr) : (s.atTime t i).replicas = s.replicas := rfl
@[simp] theorem State.atTime_invWaits (s : State) (t : Nat) (i : Instr) : (s.atTime t i).invWaits = s.invWaits := rfl
@[simp] theorem State.atTime_cellars (s : State) (t : Nat) (i : Instr) : (s.atTime t i).cellars = s.cellars := rfl
@[simp] theorem State.atTime_links (s : State) (t : Nat) (i : Instr) : (s.atTime t i).links = s.links := rfl
@[simp] theorem State.atTime_net (s : State) (t : Nat) (i : Instr) : (s.atTime t i).net = s.net := rfl
@[simp] theorem State.atTime_wins (s : State) (t : Nat) (i : Instr) : (s.atTime t i).wins = s.wins := rfl
@[simp] theorem State.atTime_msgs (s : State) (t : Nat) (i : Instr) : (s.atTime t i).msgs = s.msgs := rfl
@[simp] theorem State.atTime_evs (s : State) (t : Nat) (i : Instr) : (s.atTime t i).evs = s.evs := rfl
@[simp] theorem State.atTime_treeMsgs (s : State) (t : Nat) (i : Instr) : (s.atTime t i).treeMsgs = s.treeMsgs := rfl
@[simp] theorem State.atTime_colls (s : State) (t : Nat) (i : Instr) : (s.atTime t i).colls = s.colls := rfl
@[simp] theorem State.atTime_touches (s : State) (t : Nat) (i : Instr) : (s.atTime t i).touches = s.touches := rfl
@[simp] theorem State.atTime_ndNotes (s : State) (t : Nat) (i : Instr) : (s.atTime t i).ndNotes = s.ndNotes := rfl

/-! ## `after` -/

@[simp] theorem State.after_now (s : State) (d : Nat) (i : Instr) : (s.after d i).now = s.now := rfl
@[simp] theorem State.after_syncAt (s : State) (d : Nat) (i : Instr) : (s.after d i).syncAt = s.syncAt := rfl
@[simp] theorem State.after_curCore (s : State) (d : Nat) (i : Instr) : (s.after d i).curCore = s.curCore := rfl
@[simp] theorem State.after_curSlot (s : State) (d : Nat) (i : Instr) : (s.after d i).curSlot = s.curSlot := rfl
@[simp] theorem State.after_bus (s : State) (d : Nat) (i : Instr) : (s.after d i).bus = s.bus := rfl
@[simp] theorem State.after_agenda (s : State) (d : Nat) (i : Instr) : (s.after d i).agenda = s.agenda := rfl
@[simp] theorem State.after_asked (s : State) (d : Nat) (i : Instr) : (s.after d i).asked = s.asked := rfl
@[simp] theorem State.after_answers (s : State) (d : Nat) (i : Instr) : (s.after d i).answers = s.answers := rfl
@[simp] theorem State.after_tap (s : State) (d : Nat) (i : Instr) : (s.after d i).tap = s.tap := rfl
@[simp] theorem State.after_freeCount (s : State) (d : Nat) (i : Instr) : (s.after d i).freeCount = s.freeCount := rfl
@[simp] theorem State.after_nextId (s : State) (d : Nat) (i : Instr) : (s.after d i).nextId = s.nextId := rfl
@[simp] theorem State.after_mem (s : State) (d : Nat) (i : Instr) : (s.after d i).mem = s.mem := rfl
@[simp] theorem State.after_badMem (s : State) (d : Nat) (i : Instr) : (s.after d i).badMem = s.badMem := rfl
@[simp] theorem State.after_cores (s : State) (d : Nat) (i : Instr) : (s.after d i).cores = s.cores := rfl
@[simp] theorem State.after_wafer (s : State) (d : Nat) (i : Instr) : (s.after d i).wafer = s.wafer := rfl
@[simp] theorem State.after_campus (s : State) (d : Nat) (i : Instr) : (s.after d i).campus = s.campus := rfl
@[simp] theorem State.after_launches (s : State) (d : Nat) (i : Instr) : (s.after d i).launches = s.launches := rfl
@[simp] theorem State.after_nextLaunch (s : State) (d : Nat) (i : Instr) : (s.after d i).nextLaunch = s.nextLaunch := rfl
@[simp] theorem State.after_lqs (s : State) (d : Nat) (i : Instr) : (s.after d i).lqs = s.lqs := rfl
@[simp] theorem State.after_devq (s : State) (d : Nat) (i : Instr) : (s.after d i).devq = s.devq := rfl
@[simp] theorem State.after_waitq (s : State) (d : Nat) (i : Instr) : (s.after d i).waitq = s.waitq := rfl
@[simp] theorem State.after_pre (s : State) (d : Nat) (i : Instr) : (s.after d i).pre = s.pre := rfl
@[simp] theorem State.after_clog (s : State) (d : Nat) (i : Instr) : (s.after d i).clog = s.clog := rfl
@[simp] theorem State.after_ready (s : State) (d : Nat) (i : Instr) : (s.after d i).ready = s.ready := rfl
@[simp] theorem State.after_draining (s : State) (d : Nat) (i : Instr) : (s.after d i).draining = s.draining := rfl
@[simp] theorem State.after_standby (s : State) (d : Nat) (i : Instr) : (s.after d i).standby = s.standby := rfl
@[simp] theorem State.after_pwRefused (s : State) (d : Nat) (i : Instr) : (s.after d i).pwRefused = s.pwRefused := rfl
@[simp] theorem State.after_tables (s : State) (d : Nat) (i : Instr) : (s.after d i).tables = s.tables := rfl
@[simp] theorem State.after_trace (s : State) (d : Nat) (i : Instr) : (s.after d i).trace = s.trace := rfl
@[simp] theorem State.after_dbg (s : State) (d : Nat) (i : Instr) : (s.after d i).dbg = s.dbg := rfl
@[simp] theorem State.after_security (s : State) (d : Nat) (i : Instr) : (s.after d i).security = s.security := rfl
@[simp] theorem State.after_press (s : State) (d : Nat) (i : Instr) : (s.after d i).press = s.press := rfl
@[simp] theorem State.after_msix (s : State) (d : Nat) (i : Instr) : (s.after d i).msix = s.msix := rfl
@[simp] theorem State.after_edges (s : State) (d : Nat) (i : Instr) : (s.after d i).edges = s.edges := rfl
@[simp] theorem State.after_replicas (s : State) (d : Nat) (i : Instr) : (s.after d i).replicas = s.replicas := rfl
@[simp] theorem State.after_invWaits (s : State) (d : Nat) (i : Instr) : (s.after d i).invWaits = s.invWaits := rfl
@[simp] theorem State.after_cellars (s : State) (d : Nat) (i : Instr) : (s.after d i).cellars = s.cellars := rfl
@[simp] theorem State.after_links (s : State) (d : Nat) (i : Instr) : (s.after d i).links = s.links := rfl
@[simp] theorem State.after_net (s : State) (d : Nat) (i : Instr) : (s.after d i).net = s.net := rfl
@[simp] theorem State.after_wins (s : State) (d : Nat) (i : Instr) : (s.after d i).wins = s.wins := rfl
@[simp] theorem State.after_msgs (s : State) (d : Nat) (i : Instr) : (s.after d i).msgs = s.msgs := rfl
@[simp] theorem State.after_evs (s : State) (d : Nat) (i : Instr) : (s.after d i).evs = s.evs := rfl
@[simp] theorem State.after_treeMsgs (s : State) (d : Nat) (i : Instr) : (s.after d i).treeMsgs = s.treeMsgs := rfl
@[simp] theorem State.after_colls (s : State) (d : Nat) (i : Instr) : (s.after d i).colls = s.colls := rfl
@[simp] theorem State.after_touches (s : State) (d : Nat) (i : Instr) : (s.after d i).touches = s.touches := rfl
@[simp] theorem State.after_ndNotes (s : State) (d : Nat) (i : Instr) : (s.after d i).ndNotes = s.ndNotes := rfl

/-! ## `soon` -/

@[simp] theorem State.soon_now (s : State) (i : Instr) : (s.soon i).now = s.now := rfl
@[simp] theorem State.soon_syncAt (s : State) (i : Instr) : (s.soon i).syncAt = s.syncAt := rfl
@[simp] theorem State.soon_curCore (s : State) (i : Instr) : (s.soon i).curCore = s.curCore := rfl
@[simp] theorem State.soon_curSlot (s : State) (i : Instr) : (s.soon i).curSlot = s.curSlot := rfl
@[simp] theorem State.soon_bus (s : State) (i : Instr) : (s.soon i).bus = s.bus := rfl
@[simp] theorem State.soon_timers (s : State) (i : Instr) : (s.soon i).timers = s.timers := rfl
@[simp] theorem State.soon_asked (s : State) (i : Instr) : (s.soon i).asked = s.asked := rfl
@[simp] theorem State.soon_answers (s : State) (i : Instr) : (s.soon i).answers = s.answers := rfl
@[simp] theorem State.soon_tap (s : State) (i : Instr) : (s.soon i).tap = s.tap := rfl
@[simp] theorem State.soon_freeCount (s : State) (i : Instr) : (s.soon i).freeCount = s.freeCount := rfl
@[simp] theorem State.soon_nextId (s : State) (i : Instr) : (s.soon i).nextId = s.nextId := rfl
@[simp] theorem State.soon_mem (s : State) (i : Instr) : (s.soon i).mem = s.mem := rfl
@[simp] theorem State.soon_badMem (s : State) (i : Instr) : (s.soon i).badMem = s.badMem := rfl
@[simp] theorem State.soon_cores (s : State) (i : Instr) : (s.soon i).cores = s.cores := rfl
@[simp] theorem State.soon_wafer (s : State) (i : Instr) : (s.soon i).wafer = s.wafer := rfl
@[simp] theorem State.soon_campus (s : State) (i : Instr) : (s.soon i).campus = s.campus := rfl
@[simp] theorem State.soon_launches (s : State) (i : Instr) : (s.soon i).launches = s.launches := rfl
@[simp] theorem State.soon_nextLaunch (s : State) (i : Instr) : (s.soon i).nextLaunch = s.nextLaunch := rfl
@[simp] theorem State.soon_lqs (s : State) (i : Instr) : (s.soon i).lqs = s.lqs := rfl
@[simp] theorem State.soon_devq (s : State) (i : Instr) : (s.soon i).devq = s.devq := rfl
@[simp] theorem State.soon_waitq (s : State) (i : Instr) : (s.soon i).waitq = s.waitq := rfl
@[simp] theorem State.soon_pre (s : State) (i : Instr) : (s.soon i).pre = s.pre := rfl
@[simp] theorem State.soon_clog (s : State) (i : Instr) : (s.soon i).clog = s.clog := rfl
@[simp] theorem State.soon_ready (s : State) (i : Instr) : (s.soon i).ready = s.ready := rfl
@[simp] theorem State.soon_draining (s : State) (i : Instr) : (s.soon i).draining = s.draining := rfl
@[simp] theorem State.soon_standby (s : State) (i : Instr) : (s.soon i).standby = s.standby := rfl
@[simp] theorem State.soon_pwRefused (s : State) (i : Instr) : (s.soon i).pwRefused = s.pwRefused := rfl
@[simp] theorem State.soon_tables (s : State) (i : Instr) : (s.soon i).tables = s.tables := rfl
@[simp] theorem State.soon_trace (s : State) (i : Instr) : (s.soon i).trace = s.trace := rfl
@[simp] theorem State.soon_dbg (s : State) (i : Instr) : (s.soon i).dbg = s.dbg := rfl
@[simp] theorem State.soon_security (s : State) (i : Instr) : (s.soon i).security = s.security := rfl
@[simp] theorem State.soon_press (s : State) (i : Instr) : (s.soon i).press = s.press := rfl
@[simp] theorem State.soon_msix (s : State) (i : Instr) : (s.soon i).msix = s.msix := rfl
@[simp] theorem State.soon_edges (s : State) (i : Instr) : (s.soon i).edges = s.edges := rfl
@[simp] theorem State.soon_replicas (s : State) (i : Instr) : (s.soon i).replicas = s.replicas := rfl
@[simp] theorem State.soon_invWaits (s : State) (i : Instr) : (s.soon i).invWaits = s.invWaits := rfl
@[simp] theorem State.soon_cellars (s : State) (i : Instr) : (s.soon i).cellars = s.cellars := rfl
@[simp] theorem State.soon_links (s : State) (i : Instr) : (s.soon i).links = s.links := rfl
@[simp] theorem State.soon_net (s : State) (i : Instr) : (s.soon i).net = s.net := rfl
@[simp] theorem State.soon_wins (s : State) (i : Instr) : (s.soon i).wins = s.wins := rfl
@[simp] theorem State.soon_msgs (s : State) (i : Instr) : (s.soon i).msgs = s.msgs := rfl
@[simp] theorem State.soon_evs (s : State) (i : Instr) : (s.soon i).evs = s.evs := rfl
@[simp] theorem State.soon_treeMsgs (s : State) (i : Instr) : (s.soon i).treeMsgs = s.treeMsgs := rfl
@[simp] theorem State.soon_colls (s : State) (i : Instr) : (s.soon i).colls = s.colls := rfl
@[simp] theorem State.soon_touches (s : State) (i : Instr) : (s.soon i).touches = s.touches := rfl
@[simp] theorem State.soon_ndNotes (s : State) (i : Instr) : (s.soon i).ndNotes = s.ndNotes := rfl

/-! ## `fresh` -/

@[simp] theorem State.fresh_now (s : State) : s.fresh.2.now = s.now := rfl
@[simp] theorem State.fresh_syncAt (s : State) : s.fresh.2.syncAt = s.syncAt := rfl
@[simp] theorem State.fresh_curCore (s : State) : s.fresh.2.curCore = s.curCore := rfl
@[simp] theorem State.fresh_curSlot (s : State) : s.fresh.2.curSlot = s.curSlot := rfl
@[simp] theorem State.fresh_bus (s : State) : s.fresh.2.bus = s.bus := rfl
@[simp] theorem State.fresh_agenda (s : State) : s.fresh.2.agenda = s.agenda := rfl
@[simp] theorem State.fresh_timers (s : State) : s.fresh.2.timers = s.timers := rfl
@[simp] theorem State.fresh_asked (s : State) : s.fresh.2.asked = s.asked := rfl
@[simp] theorem State.fresh_answers (s : State) : s.fresh.2.answers = s.answers := rfl
@[simp] theorem State.fresh_tap (s : State) : s.fresh.2.tap = s.tap := rfl
@[simp] theorem State.fresh_nextId (s : State) : s.fresh.2.nextId = s.nextId := rfl
@[simp] theorem State.fresh_mem (s : State) : s.fresh.2.mem = s.mem := rfl
@[simp] theorem State.fresh_badMem (s : State) : s.fresh.2.badMem = s.badMem := rfl
@[simp] theorem State.fresh_cores (s : State) : s.fresh.2.cores = s.cores := rfl
@[simp] theorem State.fresh_wafer (s : State) : s.fresh.2.wafer = s.wafer := rfl
@[simp] theorem State.fresh_campus (s : State) : s.fresh.2.campus = s.campus := rfl
@[simp] theorem State.fresh_launches (s : State) : s.fresh.2.launches = s.launches := rfl
@[simp] theorem State.fresh_nextLaunch (s : State) : s.fresh.2.nextLaunch = s.nextLaunch := rfl
@[simp] theorem State.fresh_lqs (s : State) : s.fresh.2.lqs = s.lqs := rfl
@[simp] theorem State.fresh_devq (s : State) : s.fresh.2.devq = s.devq := rfl
@[simp] theorem State.fresh_waitq (s : State) : s.fresh.2.waitq = s.waitq := rfl
@[simp] theorem State.fresh_pre (s : State) : s.fresh.2.pre = s.pre := rfl
@[simp] theorem State.fresh_clog (s : State) : s.fresh.2.clog = s.clog := rfl
@[simp] theorem State.fresh_ready (s : State) : s.fresh.2.ready = s.ready := rfl
@[simp] theorem State.fresh_draining (s : State) : s.fresh.2.draining = s.draining := rfl
@[simp] theorem State.fresh_standby (s : State) : s.fresh.2.standby = s.standby := rfl
@[simp] theorem State.fresh_pwRefused (s : State) : s.fresh.2.pwRefused = s.pwRefused := rfl
@[simp] theorem State.fresh_tables (s : State) : s.fresh.2.tables = s.tables := rfl
@[simp] theorem State.fresh_trace (s : State) : s.fresh.2.trace = s.trace := rfl
@[simp] theorem State.fresh_dbg (s : State) : s.fresh.2.dbg = s.dbg := rfl
@[simp] theorem State.fresh_security (s : State) : s.fresh.2.security = s.security := rfl
@[simp] theorem State.fresh_press (s : State) : s.fresh.2.press = s.press := rfl
@[simp] theorem State.fresh_msix (s : State) : s.fresh.2.msix = s.msix := rfl
@[simp] theorem State.fresh_edges (s : State) : s.fresh.2.edges = s.edges := rfl
@[simp] theorem State.fresh_replicas (s : State) : s.fresh.2.replicas = s.replicas := rfl
@[simp] theorem State.fresh_invWaits (s : State) : s.fresh.2.invWaits = s.invWaits := rfl
@[simp] theorem State.fresh_cellars (s : State) : s.fresh.2.cellars = s.cellars := rfl
@[simp] theorem State.fresh_links (s : State) : s.fresh.2.links = s.links := rfl
@[simp] theorem State.fresh_net (s : State) : s.fresh.2.net = s.net := rfl
@[simp] theorem State.fresh_wins (s : State) : s.fresh.2.wins = s.wins := rfl
@[simp] theorem State.fresh_msgs (s : State) : s.fresh.2.msgs = s.msgs := rfl
@[simp] theorem State.fresh_evs (s : State) : s.fresh.2.evs = s.evs := rfl
@[simp] theorem State.fresh_treeMsgs (s : State) : s.fresh.2.treeMsgs = s.treeMsgs := rfl
@[simp] theorem State.fresh_colls (s : State) : s.fresh.2.colls = s.colls := rfl
@[simp] theorem State.fresh_touches (s : State) : s.fresh.2.touches = s.touches := rfl
@[simp] theorem State.fresh_ndNotes (s : State) : s.fresh.2.ndNotes = s.ndNotes := rfl

/-! ## `later` -/

@[simp] theorem State.later_now (s : State) (i : Instr) : (s.later i).now = s.now := rfl
@[simp] theorem State.later_syncAt (s : State) (i : Instr) : (s.later i).syncAt = s.syncAt := rfl
@[simp] theorem State.later_curCore (s : State) (i : Instr) : (s.later i).curCore = s.curCore := rfl
@[simp] theorem State.later_curSlot (s : State) (i : Instr) : (s.later i).curSlot = s.curSlot := rfl
@[simp] theorem State.later_bus (s : State) (i : Instr) : (s.later i).bus = s.bus := rfl
@[simp] theorem State.later_agenda (s : State) (i : Instr) : (s.later i).agenda = s.agenda := rfl
@[simp] theorem State.later_asked (s : State) (i : Instr) : (s.later i).asked = s.asked := rfl
@[simp] theorem State.later_answers (s : State) (i : Instr) : (s.later i).answers = s.answers := rfl
@[simp] theorem State.later_tap (s : State) (i : Instr) : (s.later i).tap = s.tap := rfl
@[simp] theorem State.later_nextId (s : State) (i : Instr) : (s.later i).nextId = s.nextId := rfl
@[simp] theorem State.later_mem (s : State) (i : Instr) : (s.later i).mem = s.mem := rfl
@[simp] theorem State.later_badMem (s : State) (i : Instr) : (s.later i).badMem = s.badMem := rfl
@[simp] theorem State.later_cores (s : State) (i : Instr) : (s.later i).cores = s.cores := rfl
@[simp] theorem State.later_wafer (s : State) (i : Instr) : (s.later i).wafer = s.wafer := rfl
@[simp] theorem State.later_campus (s : State) (i : Instr) : (s.later i).campus = s.campus := rfl
@[simp] theorem State.later_launches (s : State) (i : Instr) : (s.later i).launches = s.launches := rfl
@[simp] theorem State.later_nextLaunch (s : State) (i : Instr) : (s.later i).nextLaunch = s.nextLaunch := rfl
@[simp] theorem State.later_lqs (s : State) (i : Instr) : (s.later i).lqs = s.lqs := rfl
@[simp] theorem State.later_devq (s : State) (i : Instr) : (s.later i).devq = s.devq := rfl
@[simp] theorem State.later_waitq (s : State) (i : Instr) : (s.later i).waitq = s.waitq := rfl
@[simp] theorem State.later_pre (s : State) (i : Instr) : (s.later i).pre = s.pre := rfl
@[simp] theorem State.later_clog (s : State) (i : Instr) : (s.later i).clog = s.clog := rfl
@[simp] theorem State.later_ready (s : State) (i : Instr) : (s.later i).ready = s.ready := rfl
@[simp] theorem State.later_draining (s : State) (i : Instr) : (s.later i).draining = s.draining := rfl
@[simp] theorem State.later_standby (s : State) (i : Instr) : (s.later i).standby = s.standby := rfl
@[simp] theorem State.later_pwRefused (s : State) (i : Instr) : (s.later i).pwRefused = s.pwRefused := rfl
@[simp] theorem State.later_tables (s : State) (i : Instr) : (s.later i).tables = s.tables := rfl
@[simp] theorem State.later_trace (s : State) (i : Instr) : (s.later i).trace = s.trace := rfl
@[simp] theorem State.later_dbg (s : State) (i : Instr) : (s.later i).dbg = s.dbg := rfl
@[simp] theorem State.later_security (s : State) (i : Instr) : (s.later i).security = s.security := rfl
@[simp] theorem State.later_press (s : State) (i : Instr) : (s.later i).press = s.press := rfl
@[simp] theorem State.later_msix (s : State) (i : Instr) : (s.later i).msix = s.msix := rfl
@[simp] theorem State.later_edges (s : State) (i : Instr) : (s.later i).edges = s.edges := rfl
@[simp] theorem State.later_replicas (s : State) (i : Instr) : (s.later i).replicas = s.replicas := rfl
@[simp] theorem State.later_invWaits (s : State) (i : Instr) : (s.later i).invWaits = s.invWaits := rfl
@[simp] theorem State.later_cellars (s : State) (i : Instr) : (s.later i).cellars = s.cellars := rfl
@[simp] theorem State.later_links (s : State) (i : Instr) : (s.later i).links = s.links := rfl
@[simp] theorem State.later_net (s : State) (i : Instr) : (s.later i).net = s.net := rfl
@[simp] theorem State.later_wins (s : State) (i : Instr) : (s.later i).wins = s.wins := rfl
@[simp] theorem State.later_msgs (s : State) (i : Instr) : (s.later i).msgs = s.msgs := rfl
@[simp] theorem State.later_evs (s : State) (i : Instr) : (s.later i).evs = s.evs := rfl
@[simp] theorem State.later_treeMsgs (s : State) (i : Instr) : (s.later i).treeMsgs = s.treeMsgs := rfl
@[simp] theorem State.later_colls (s : State) (i : Instr) : (s.later i).colls = s.colls := rfl
@[simp] theorem State.later_touches (s : State) (i : Instr) : (s.later i).touches = s.touches := rfl
@[simp] theorem State.later_ndNotes (s : State) (i : Instr) : (s.later i).ndNotes = s.ndNotes := rfl

/-! ## `laterBy` -/

@[simp] theorem State.laterBy_now (s : State) (n : Nat) (i : Instr) : (s.laterBy n i).now = s.now := rfl
@[simp] theorem State.laterBy_syncAt (s : State) (n : Nat) (i : Instr) : (s.laterBy n i).syncAt = s.syncAt := rfl
@[simp] theorem State.laterBy_curCore (s : State) (n : Nat) (i : Instr) : (s.laterBy n i).curCore = s.curCore := rfl
@[simp] theorem State.laterBy_curSlot (s : State) (n : Nat) (i : Instr) : (s.laterBy n i).curSlot = s.curSlot := rfl
@[simp] theorem State.laterBy_bus (s : State) (n : Nat) (i : Instr) : (s.laterBy n i).bus = s.bus := rfl
@[simp] theorem State.laterBy_agenda (s : State) (n : Nat) (i : Instr) : (s.laterBy n i).agenda = s.agenda := rfl
@[simp] theorem State.laterBy_asked (s : State) (n : Nat) (i : Instr) : (s.laterBy n i).asked = s.asked := rfl
@[simp] theorem State.laterBy_answers (s : State) (n : Nat) (i : Instr) : (s.laterBy n i).answers = s.answers := rfl
@[simp] theorem State.laterBy_tap (s : State) (n : Nat) (i : Instr) : (s.laterBy n i).tap = s.tap := rfl
@[simp] theorem State.laterBy_nextId (s : State) (n : Nat) (i : Instr) : (s.laterBy n i).nextId = s.nextId := rfl
@[simp] theorem State.laterBy_mem (s : State) (n : Nat) (i : Instr) : (s.laterBy n i).mem = s.mem := rfl
@[simp] theorem State.laterBy_badMem (s : State) (n : Nat) (i : Instr) : (s.laterBy n i).badMem = s.badMem := rfl
@[simp] theorem State.laterBy_cores (s : State) (n : Nat) (i : Instr) : (s.laterBy n i).cores = s.cores := rfl
@[simp] theorem State.laterBy_wafer (s : State) (n : Nat) (i : Instr) : (s.laterBy n i).wafer = s.wafer := rfl
@[simp] theorem State.laterBy_campus (s : State) (n : Nat) (i : Instr) : (s.laterBy n i).campus = s.campus := rfl
@[simp] theorem State.laterBy_launches (s : State) (n : Nat) (i : Instr) : (s.laterBy n i).launches = s.launches := rfl
@[simp] theorem State.laterBy_nextLaunch (s : State) (n : Nat) (i : Instr) : (s.laterBy n i).nextLaunch = s.nextLaunch := rfl
@[simp] theorem State.laterBy_lqs (s : State) (n : Nat) (i : Instr) : (s.laterBy n i).lqs = s.lqs := rfl
@[simp] theorem State.laterBy_devq (s : State) (n : Nat) (i : Instr) : (s.laterBy n i).devq = s.devq := rfl
@[simp] theorem State.laterBy_waitq (s : State) (n : Nat) (i : Instr) : (s.laterBy n i).waitq = s.waitq := rfl
@[simp] theorem State.laterBy_pre (s : State) (n : Nat) (i : Instr) : (s.laterBy n i).pre = s.pre := rfl
@[simp] theorem State.laterBy_clog (s : State) (n : Nat) (i : Instr) : (s.laterBy n i).clog = s.clog := rfl
@[simp] theorem State.laterBy_ready (s : State) (n : Nat) (i : Instr) : (s.laterBy n i).ready = s.ready := rfl
@[simp] theorem State.laterBy_draining (s : State) (n : Nat) (i : Instr) : (s.laterBy n i).draining = s.draining := rfl
@[simp] theorem State.laterBy_standby (s : State) (n : Nat) (i : Instr) : (s.laterBy n i).standby = s.standby := rfl
@[simp] theorem State.laterBy_pwRefused (s : State) (n : Nat) (i : Instr) : (s.laterBy n i).pwRefused = s.pwRefused := rfl
@[simp] theorem State.laterBy_tables (s : State) (n : Nat) (i : Instr) : (s.laterBy n i).tables = s.tables := rfl
@[simp] theorem State.laterBy_trace (s : State) (n : Nat) (i : Instr) : (s.laterBy n i).trace = s.trace := rfl
@[simp] theorem State.laterBy_dbg (s : State) (n : Nat) (i : Instr) : (s.laterBy n i).dbg = s.dbg := rfl
@[simp] theorem State.laterBy_security (s : State) (n : Nat) (i : Instr) : (s.laterBy n i).security = s.security := rfl
@[simp] theorem State.laterBy_press (s : State) (n : Nat) (i : Instr) : (s.laterBy n i).press = s.press := rfl
@[simp] theorem State.laterBy_msix (s : State) (n : Nat) (i : Instr) : (s.laterBy n i).msix = s.msix := rfl
@[simp] theorem State.laterBy_edges (s : State) (n : Nat) (i : Instr) : (s.laterBy n i).edges = s.edges := rfl
@[simp] theorem State.laterBy_replicas (s : State) (n : Nat) (i : Instr) : (s.laterBy n i).replicas = s.replicas := rfl
@[simp] theorem State.laterBy_invWaits (s : State) (n : Nat) (i : Instr) : (s.laterBy n i).invWaits = s.invWaits := rfl
@[simp] theorem State.laterBy_cellars (s : State) (n : Nat) (i : Instr) : (s.laterBy n i).cellars = s.cellars := rfl
@[simp] theorem State.laterBy_links (s : State) (n : Nat) (i : Instr) : (s.laterBy n i).links = s.links := rfl
@[simp] theorem State.laterBy_net (s : State) (n : Nat) (i : Instr) : (s.laterBy n i).net = s.net := rfl
@[simp] theorem State.laterBy_wins (s : State) (n : Nat) (i : Instr) : (s.laterBy n i).wins = s.wins := rfl
@[simp] theorem State.laterBy_msgs (s : State) (n : Nat) (i : Instr) : (s.laterBy n i).msgs = s.msgs := rfl
@[simp] theorem State.laterBy_evs (s : State) (n : Nat) (i : Instr) : (s.laterBy n i).evs = s.evs := rfl
@[simp] theorem State.laterBy_treeMsgs (s : State) (n : Nat) (i : Instr) : (s.laterBy n i).treeMsgs = s.treeMsgs := rfl
@[simp] theorem State.laterBy_colls (s : State) (n : Nat) (i : Instr) : (s.laterBy n i).colls = s.colls := rfl
@[simp] theorem State.laterBy_touches (s : State) (n : Nat) (i : Instr) : (s.laterBy n i).touches = s.touches := rfl
@[simp] theorem State.laterBy_ndNotes (s : State) (n : Nat) (i : Instr) : (s.laterBy n i).ndNotes = s.ndNotes := rfl

/-! ## `choose` -/

@[simp] theorem State.choose_now (s : State) : s.choose.2.now = s.now := rfl
@[simp] theorem State.choose_syncAt (s : State) : s.choose.2.syncAt = s.syncAt := rfl
@[simp] theorem State.choose_curCore (s : State) : s.choose.2.curCore = s.curCore := rfl
@[simp] theorem State.choose_curSlot (s : State) : s.choose.2.curSlot = s.curSlot := rfl
@[simp] theorem State.choose_bus (s : State) : s.choose.2.bus = s.bus := rfl
@[simp] theorem State.choose_agenda (s : State) : s.choose.2.agenda = s.agenda := rfl
@[simp] theorem State.choose_timers (s : State) : s.choose.2.timers = s.timers := rfl
@[simp] theorem State.choose_asked (s : State) : s.choose.2.asked = s.asked := rfl
@[simp] theorem State.choose_answers (s : State) : s.choose.2.answers = s.answers := rfl
@[simp] theorem State.choose_tap (s : State) : s.choose.2.tap = s.tap := rfl
@[simp] theorem State.choose_nextId (s : State) : s.choose.2.nextId = s.nextId := rfl
@[simp] theorem State.choose_mem (s : State) : s.choose.2.mem = s.mem := rfl
@[simp] theorem State.choose_badMem (s : State) : s.choose.2.badMem = s.badMem := rfl
@[simp] theorem State.choose_cores (s : State) : s.choose.2.cores = s.cores := rfl
@[simp] theorem State.choose_wafer (s : State) : s.choose.2.wafer = s.wafer := rfl
@[simp] theorem State.choose_campus (s : State) : s.choose.2.campus = s.campus := rfl
@[simp] theorem State.choose_launches (s : State) : s.choose.2.launches = s.launches := rfl
@[simp] theorem State.choose_nextLaunch (s : State) : s.choose.2.nextLaunch = s.nextLaunch := rfl
@[simp] theorem State.choose_lqs (s : State) : s.choose.2.lqs = s.lqs := rfl
@[simp] theorem State.choose_devq (s : State) : s.choose.2.devq = s.devq := rfl
@[simp] theorem State.choose_waitq (s : State) : s.choose.2.waitq = s.waitq := rfl
@[simp] theorem State.choose_pre (s : State) : s.choose.2.pre = s.pre := rfl
@[simp] theorem State.choose_clog (s : State) : s.choose.2.clog = s.clog := rfl
@[simp] theorem State.choose_ready (s : State) : s.choose.2.ready = s.ready := rfl
@[simp] theorem State.choose_draining (s : State) : s.choose.2.draining = s.draining := rfl
@[simp] theorem State.choose_standby (s : State) : s.choose.2.standby = s.standby := rfl
@[simp] theorem State.choose_pwRefused (s : State) : s.choose.2.pwRefused = s.pwRefused := rfl
@[simp] theorem State.choose_tables (s : State) : s.choose.2.tables = s.tables := rfl
@[simp] theorem State.choose_trace (s : State) : s.choose.2.trace = s.trace := rfl
@[simp] theorem State.choose_dbg (s : State) : s.choose.2.dbg = s.dbg := rfl
@[simp] theorem State.choose_security (s : State) : s.choose.2.security = s.security := rfl
@[simp] theorem State.choose_press (s : State) : s.choose.2.press = s.press := rfl
@[simp] theorem State.choose_msix (s : State) : s.choose.2.msix = s.msix := rfl
@[simp] theorem State.choose_edges (s : State) : s.choose.2.edges = s.edges := rfl
@[simp] theorem State.choose_replicas (s : State) : s.choose.2.replicas = s.replicas := rfl
@[simp] theorem State.choose_invWaits (s : State) : s.choose.2.invWaits = s.invWaits := rfl
@[simp] theorem State.choose_cellars (s : State) : s.choose.2.cellars = s.cellars := rfl
@[simp] theorem State.choose_links (s : State) : s.choose.2.links = s.links := rfl
@[simp] theorem State.choose_net (s : State) : s.choose.2.net = s.net := rfl
@[simp] theorem State.choose_wins (s : State) : s.choose.2.wins = s.wins := rfl
@[simp] theorem State.choose_msgs (s : State) : s.choose.2.msgs = s.msgs := rfl
@[simp] theorem State.choose_evs (s : State) : s.choose.2.evs = s.evs := rfl
@[simp] theorem State.choose_treeMsgs (s : State) : s.choose.2.treeMsgs = s.treeMsgs := rfl
@[simp] theorem State.choose_colls (s : State) : s.choose.2.colls = s.colls := rfl
@[simp] theorem State.choose_touches (s : State) : s.choose.2.touches = s.touches := rfl
@[simp] theorem State.choose_ndNotes (s : State) : s.choose.2.ndNotes = s.ndNotes := rfl

/-! ## `newId` -/

@[simp] theorem State.newId_now (s : State) : s.newId.2.now = s.now := rfl
@[simp] theorem State.newId_syncAt (s : State) : s.newId.2.syncAt = s.syncAt := rfl
@[simp] theorem State.newId_curCore (s : State) : s.newId.2.curCore = s.curCore := rfl
@[simp] theorem State.newId_curSlot (s : State) : s.newId.2.curSlot = s.curSlot := rfl
@[simp] theorem State.newId_bus (s : State) : s.newId.2.bus = s.bus := rfl
@[simp] theorem State.newId_agenda (s : State) : s.newId.2.agenda = s.agenda := rfl
@[simp] theorem State.newId_timers (s : State) : s.newId.2.timers = s.timers := rfl
@[simp] theorem State.newId_asked (s : State) : s.newId.2.asked = s.asked := rfl
@[simp] theorem State.newId_answers (s : State) : s.newId.2.answers = s.answers := rfl
@[simp] theorem State.newId_tap (s : State) : s.newId.2.tap = s.tap := rfl
@[simp] theorem State.newId_freeCount (s : State) : s.newId.2.freeCount = s.freeCount := rfl
@[simp] theorem State.newId_mem (s : State) : s.newId.2.mem = s.mem := rfl
@[simp] theorem State.newId_badMem (s : State) : s.newId.2.badMem = s.badMem := rfl
@[simp] theorem State.newId_cores (s : State) : s.newId.2.cores = s.cores := rfl
@[simp] theorem State.newId_wafer (s : State) : s.newId.2.wafer = s.wafer := rfl
@[simp] theorem State.newId_campus (s : State) : s.newId.2.campus = s.campus := rfl
@[simp] theorem State.newId_launches (s : State) : s.newId.2.launches = s.launches := rfl
@[simp] theorem State.newId_nextLaunch (s : State) : s.newId.2.nextLaunch = s.nextLaunch := rfl
@[simp] theorem State.newId_lqs (s : State) : s.newId.2.lqs = s.lqs := rfl
@[simp] theorem State.newId_devq (s : State) : s.newId.2.devq = s.devq := rfl
@[simp] theorem State.newId_waitq (s : State) : s.newId.2.waitq = s.waitq := rfl
@[simp] theorem State.newId_pre (s : State) : s.newId.2.pre = s.pre := rfl
@[simp] theorem State.newId_clog (s : State) : s.newId.2.clog = s.clog := rfl
@[simp] theorem State.newId_ready (s : State) : s.newId.2.ready = s.ready := rfl
@[simp] theorem State.newId_draining (s : State) : s.newId.2.draining = s.draining := rfl
@[simp] theorem State.newId_standby (s : State) : s.newId.2.standby = s.standby := rfl
@[simp] theorem State.newId_pwRefused (s : State) : s.newId.2.pwRefused = s.pwRefused := rfl
@[simp] theorem State.newId_tables (s : State) : s.newId.2.tables = s.tables := rfl
@[simp] theorem State.newId_trace (s : State) : s.newId.2.trace = s.trace := rfl
@[simp] theorem State.newId_dbg (s : State) : s.newId.2.dbg = s.dbg := rfl
@[simp] theorem State.newId_security (s : State) : s.newId.2.security = s.security := rfl
@[simp] theorem State.newId_press (s : State) : s.newId.2.press = s.press := rfl
@[simp] theorem State.newId_msix (s : State) : s.newId.2.msix = s.msix := rfl
@[simp] theorem State.newId_edges (s : State) : s.newId.2.edges = s.edges := rfl
@[simp] theorem State.newId_replicas (s : State) : s.newId.2.replicas = s.replicas := rfl
@[simp] theorem State.newId_invWaits (s : State) : s.newId.2.invWaits = s.invWaits := rfl
@[simp] theorem State.newId_cellars (s : State) : s.newId.2.cellars = s.cellars := rfl
@[simp] theorem State.newId_links (s : State) : s.newId.2.links = s.links := rfl
@[simp] theorem State.newId_net (s : State) : s.newId.2.net = s.net := rfl
@[simp] theorem State.newId_wins (s : State) : s.newId.2.wins = s.wins := rfl
@[simp] theorem State.newId_msgs (s : State) : s.newId.2.msgs = s.msgs := rfl
@[simp] theorem State.newId_evs (s : State) : s.newId.2.evs = s.evs := rfl
@[simp] theorem State.newId_treeMsgs (s : State) : s.newId.2.treeMsgs = s.treeMsgs := rfl
@[simp] theorem State.newId_colls (s : State) : s.newId.2.colls = s.colls := rfl
@[simp] theorem State.newId_touches (s : State) : s.newId.2.touches = s.touches := rfl
@[simp] theorem State.newId_ndNotes (s : State) : s.newId.2.ndNotes = s.ndNotes := rfl

/-! ## `signal` -/

@[simp] theorem State.signal_now (s : State) (v : Nat) : (s.signal v).now = s.now := rfl
@[simp] theorem State.signal_syncAt (s : State) (v : Nat) : (s.signal v).syncAt = s.syncAt := rfl
@[simp] theorem State.signal_curCore (s : State) (v : Nat) : (s.signal v).curCore = s.curCore := rfl
@[simp] theorem State.signal_curSlot (s : State) (v : Nat) : (s.signal v).curSlot = s.curSlot := rfl
@[simp] theorem State.signal_bus (s : State) (v : Nat) : (s.signal v).bus = s.bus := rfl
@[simp] theorem State.signal_agenda (s : State) (v : Nat) : (s.signal v).agenda = s.agenda := rfl
@[simp] theorem State.signal_timers (s : State) (v : Nat) : (s.signal v).timers = s.timers := rfl
@[simp] theorem State.signal_asked (s : State) (v : Nat) : (s.signal v).asked = s.asked := rfl
@[simp] theorem State.signal_answers (s : State) (v : Nat) : (s.signal v).answers = s.answers := rfl
@[simp] theorem State.signal_tap (s : State) (v : Nat) : (s.signal v).tap = s.tap := rfl
@[simp] theorem State.signal_freeCount (s : State) (v : Nat) : (s.signal v).freeCount = s.freeCount := rfl
@[simp] theorem State.signal_nextId (s : State) (v : Nat) : (s.signal v).nextId = s.nextId := rfl
@[simp] theorem State.signal_mem (s : State) (v : Nat) : (s.signal v).mem = s.mem := rfl
@[simp] theorem State.signal_badMem (s : State) (v : Nat) : (s.signal v).badMem = s.badMem := rfl
@[simp] theorem State.signal_cores (s : State) (v : Nat) : (s.signal v).cores = s.cores := rfl
@[simp] theorem State.signal_wafer (s : State) (v : Nat) : (s.signal v).wafer = s.wafer := rfl
@[simp] theorem State.signal_campus (s : State) (v : Nat) : (s.signal v).campus = s.campus := rfl
@[simp] theorem State.signal_launches (s : State) (v : Nat) : (s.signal v).launches = s.launches := rfl
@[simp] theorem State.signal_nextLaunch (s : State) (v : Nat) : (s.signal v).nextLaunch = s.nextLaunch := rfl
@[simp] theorem State.signal_lqs (s : State) (v : Nat) : (s.signal v).lqs = s.lqs := rfl
@[simp] theorem State.signal_devq (s : State) (v : Nat) : (s.signal v).devq = s.devq := rfl
@[simp] theorem State.signal_waitq (s : State) (v : Nat) : (s.signal v).waitq = s.waitq := rfl
@[simp] theorem State.signal_pre (s : State) (v : Nat) : (s.signal v).pre = s.pre := rfl
@[simp] theorem State.signal_clog (s : State) (v : Nat) : (s.signal v).clog = s.clog := rfl
@[simp] theorem State.signal_ready (s : State) (v : Nat) : (s.signal v).ready = s.ready := rfl
@[simp] theorem State.signal_draining (s : State) (v : Nat) : (s.signal v).draining = s.draining := rfl
@[simp] theorem State.signal_standby (s : State) (v : Nat) : (s.signal v).standby = s.standby := rfl
@[simp] theorem State.signal_pwRefused (s : State) (v : Nat) : (s.signal v).pwRefused = s.pwRefused := rfl
@[simp] theorem State.signal_tables (s : State) (v : Nat) : (s.signal v).tables = s.tables := rfl
@[simp] theorem State.signal_trace (s : State) (v : Nat) : (s.signal v).trace = s.trace := rfl
@[simp] theorem State.signal_dbg (s : State) (v : Nat) : (s.signal v).dbg = s.dbg := rfl
@[simp] theorem State.signal_security (s : State) (v : Nat) : (s.signal v).security = s.security := rfl
@[simp] theorem State.signal_press (s : State) (v : Nat) : (s.signal v).press = s.press := rfl
@[simp] theorem State.signal_edges (s : State) (v : Nat) : (s.signal v).edges = s.edges := rfl
@[simp] theorem State.signal_replicas (s : State) (v : Nat) : (s.signal v).replicas = s.replicas := rfl
@[simp] theorem State.signal_invWaits (s : State) (v : Nat) : (s.signal v).invWaits = s.invWaits := rfl
@[simp] theorem State.signal_cellars (s : State) (v : Nat) : (s.signal v).cellars = s.cellars := rfl
@[simp] theorem State.signal_links (s : State) (v : Nat) : (s.signal v).links = s.links := rfl
@[simp] theorem State.signal_net (s : State) (v : Nat) : (s.signal v).net = s.net := rfl
@[simp] theorem State.signal_wins (s : State) (v : Nat) : (s.signal v).wins = s.wins := rfl
@[simp] theorem State.signal_msgs (s : State) (v : Nat) : (s.signal v).msgs = s.msgs := rfl
@[simp] theorem State.signal_evs (s : State) (v : Nat) : (s.signal v).evs = s.evs := rfl
@[simp] theorem State.signal_treeMsgs (s : State) (v : Nat) : (s.signal v).treeMsgs = s.treeMsgs := rfl
@[simp] theorem State.signal_colls (s : State) (v : Nat) : (s.signal v).colls = s.colls := rfl
@[simp] theorem State.signal_touches (s : State) (v : Nat) : (s.signal v).touches = s.touches := rfl
@[simp] theorem State.signal_ndNotes (s : State) (v : Nat) : (s.signal v).ndNotes = s.ndNotes := rfl

/-! ## `modLaunch` -/

@[simp] theorem State.modLaunch_now (s : State) (l : Nat) (f : Launch → Launch) : (s.modLaunch l f).now = s.now := rfl
@[simp] theorem State.modLaunch_syncAt (s : State) (l : Nat) (f : Launch → Launch) : (s.modLaunch l f).syncAt = s.syncAt := rfl
@[simp] theorem State.modLaunch_curCore (s : State) (l : Nat) (f : Launch → Launch) : (s.modLaunch l f).curCore = s.curCore := rfl
@[simp] theorem State.modLaunch_curSlot (s : State) (l : Nat) (f : Launch → Launch) : (s.modLaunch l f).curSlot = s.curSlot := rfl
@[simp] theorem State.modLaunch_bus (s : State) (l : Nat) (f : Launch → Launch) : (s.modLaunch l f).bus = s.bus := rfl
@[simp] theorem State.modLaunch_agenda (s : State) (l : Nat) (f : Launch → Launch) : (s.modLaunch l f).agenda = s.agenda := rfl
@[simp] theorem State.modLaunch_timers (s : State) (l : Nat) (f : Launch → Launch) : (s.modLaunch l f).timers = s.timers := rfl
@[simp] theorem State.modLaunch_asked (s : State) (l : Nat) (f : Launch → Launch) : (s.modLaunch l f).asked = s.asked := rfl
@[simp] theorem State.modLaunch_answers (s : State) (l : Nat) (f : Launch → Launch) : (s.modLaunch l f).answers = s.answers := rfl
@[simp] theorem State.modLaunch_tap (s : State) (l : Nat) (f : Launch → Launch) : (s.modLaunch l f).tap = s.tap := rfl
@[simp] theorem State.modLaunch_freeCount (s : State) (l : Nat) (f : Launch → Launch) : (s.modLaunch l f).freeCount = s.freeCount := rfl
@[simp] theorem State.modLaunch_nextId (s : State) (l : Nat) (f : Launch → Launch) : (s.modLaunch l f).nextId = s.nextId := rfl
@[simp] theorem State.modLaunch_mem (s : State) (l : Nat) (f : Launch → Launch) : (s.modLaunch l f).mem = s.mem := rfl
@[simp] theorem State.modLaunch_badMem (s : State) (l : Nat) (f : Launch → Launch) : (s.modLaunch l f).badMem = s.badMem := rfl
@[simp] theorem State.modLaunch_cores (s : State) (l : Nat) (f : Launch → Launch) : (s.modLaunch l f).cores = s.cores := rfl
@[simp] theorem State.modLaunch_wafer (s : State) (l : Nat) (f : Launch → Launch) : (s.modLaunch l f).wafer = s.wafer := rfl
@[simp] theorem State.modLaunch_campus (s : State) (l : Nat) (f : Launch → Launch) : (s.modLaunch l f).campus = s.campus := rfl
@[simp] theorem State.modLaunch_nextLaunch (s : State) (l : Nat) (f : Launch → Launch) : (s.modLaunch l f).nextLaunch = s.nextLaunch := rfl
@[simp] theorem State.modLaunch_lqs (s : State) (l : Nat) (f : Launch → Launch) : (s.modLaunch l f).lqs = s.lqs := rfl
@[simp] theorem State.modLaunch_devq (s : State) (l : Nat) (f : Launch → Launch) : (s.modLaunch l f).devq = s.devq := rfl
@[simp] theorem State.modLaunch_waitq (s : State) (l : Nat) (f : Launch → Launch) : (s.modLaunch l f).waitq = s.waitq := rfl
@[simp] theorem State.modLaunch_pre (s : State) (l : Nat) (f : Launch → Launch) : (s.modLaunch l f).pre = s.pre := rfl
@[simp] theorem State.modLaunch_clog (s : State) (l : Nat) (f : Launch → Launch) : (s.modLaunch l f).clog = s.clog := rfl
@[simp] theorem State.modLaunch_ready (s : State) (l : Nat) (f : Launch → Launch) : (s.modLaunch l f).ready = s.ready := rfl
@[simp] theorem State.modLaunch_draining (s : State) (l : Nat) (f : Launch → Launch) : (s.modLaunch l f).draining = s.draining := rfl
@[simp] theorem State.modLaunch_standby (s : State) (l : Nat) (f : Launch → Launch) : (s.modLaunch l f).standby = s.standby := rfl
@[simp] theorem State.modLaunch_pwRefused (s : State) (l : Nat) (f : Launch → Launch) : (s.modLaunch l f).pwRefused = s.pwRefused := rfl
@[simp] theorem State.modLaunch_tables (s : State) (l : Nat) (f : Launch → Launch) : (s.modLaunch l f).tables = s.tables := rfl
@[simp] theorem State.modLaunch_trace (s : State) (l : Nat) (f : Launch → Launch) : (s.modLaunch l f).trace = s.trace := rfl
@[simp] theorem State.modLaunch_dbg (s : State) (l : Nat) (f : Launch → Launch) : (s.modLaunch l f).dbg = s.dbg := rfl
@[simp] theorem State.modLaunch_security (s : State) (l : Nat) (f : Launch → Launch) : (s.modLaunch l f).security = s.security := rfl
@[simp] theorem State.modLaunch_press (s : State) (l : Nat) (f : Launch → Launch) : (s.modLaunch l f).press = s.press := rfl
@[simp] theorem State.modLaunch_msix (s : State) (l : Nat) (f : Launch → Launch) : (s.modLaunch l f).msix = s.msix := rfl
@[simp] theorem State.modLaunch_edges (s : State) (l : Nat) (f : Launch → Launch) : (s.modLaunch l f).edges = s.edges := rfl
@[simp] theorem State.modLaunch_replicas (s : State) (l : Nat) (f : Launch → Launch) : (s.modLaunch l f).replicas = s.replicas := rfl
@[simp] theorem State.modLaunch_invWaits (s : State) (l : Nat) (f : Launch → Launch) : (s.modLaunch l f).invWaits = s.invWaits := rfl
@[simp] theorem State.modLaunch_cellars (s : State) (l : Nat) (f : Launch → Launch) : (s.modLaunch l f).cellars = s.cellars := rfl
@[simp] theorem State.modLaunch_links (s : State) (l : Nat) (f : Launch → Launch) : (s.modLaunch l f).links = s.links := rfl
@[simp] theorem State.modLaunch_net (s : State) (l : Nat) (f : Launch → Launch) : (s.modLaunch l f).net = s.net := rfl
@[simp] theorem State.modLaunch_wins (s : State) (l : Nat) (f : Launch → Launch) : (s.modLaunch l f).wins = s.wins := rfl
@[simp] theorem State.modLaunch_msgs (s : State) (l : Nat) (f : Launch → Launch) : (s.modLaunch l f).msgs = s.msgs := rfl
@[simp] theorem State.modLaunch_evs (s : State) (l : Nat) (f : Launch → Launch) : (s.modLaunch l f).evs = s.evs := rfl
@[simp] theorem State.modLaunch_treeMsgs (s : State) (l : Nat) (f : Launch → Launch) : (s.modLaunch l f).treeMsgs = s.treeMsgs := rfl
@[simp] theorem State.modLaunch_colls (s : State) (l : Nat) (f : Launch → Launch) : (s.modLaunch l f).colls = s.colls := rfl
@[simp] theorem State.modLaunch_touches (s : State) (l : Nat) (f : Launch → Launch) : (s.modLaunch l f).touches = s.touches := rfl
@[simp] theorem State.modLaunch_ndNotes (s : State) (l : Nat) (f : Launch → Launch) : (s.modLaunch l f).ndNotes = s.ndNotes := rfl

/-! ## `modBunch` -/

@[simp] theorem State.modBunch_now (s : State) (l b : Nat) (f : Bunch → Bunch) : (s.modBunch l b f).now = s.now := rfl
@[simp] theorem State.modBunch_syncAt (s : State) (l b : Nat) (f : Bunch → Bunch) : (s.modBunch l b f).syncAt = s.syncAt := rfl
@[simp] theorem State.modBunch_curCore (s : State) (l b : Nat) (f : Bunch → Bunch) : (s.modBunch l b f).curCore = s.curCore := rfl
@[simp] theorem State.modBunch_curSlot (s : State) (l b : Nat) (f : Bunch → Bunch) : (s.modBunch l b f).curSlot = s.curSlot := rfl
@[simp] theorem State.modBunch_bus (s : State) (l b : Nat) (f : Bunch → Bunch) : (s.modBunch l b f).bus = s.bus := rfl
@[simp] theorem State.modBunch_agenda (s : State) (l b : Nat) (f : Bunch → Bunch) : (s.modBunch l b f).agenda = s.agenda := rfl
@[simp] theorem State.modBunch_timers (s : State) (l b : Nat) (f : Bunch → Bunch) : (s.modBunch l b f).timers = s.timers := rfl
@[simp] theorem State.modBunch_asked (s : State) (l b : Nat) (f : Bunch → Bunch) : (s.modBunch l b f).asked = s.asked := rfl
@[simp] theorem State.modBunch_answers (s : State) (l b : Nat) (f : Bunch → Bunch) : (s.modBunch l b f).answers = s.answers := rfl
@[simp] theorem State.modBunch_tap (s : State) (l b : Nat) (f : Bunch → Bunch) : (s.modBunch l b f).tap = s.tap := rfl
@[simp] theorem State.modBunch_freeCount (s : State) (l b : Nat) (f : Bunch → Bunch) : (s.modBunch l b f).freeCount = s.freeCount := rfl
@[simp] theorem State.modBunch_nextId (s : State) (l b : Nat) (f : Bunch → Bunch) : (s.modBunch l b f).nextId = s.nextId := rfl
@[simp] theorem State.modBunch_mem (s : State) (l b : Nat) (f : Bunch → Bunch) : (s.modBunch l b f).mem = s.mem := rfl
@[simp] theorem State.modBunch_badMem (s : State) (l b : Nat) (f : Bunch → Bunch) : (s.modBunch l b f).badMem = s.badMem := rfl
@[simp] theorem State.modBunch_cores (s : State) (l b : Nat) (f : Bunch → Bunch) : (s.modBunch l b f).cores = s.cores := rfl
@[simp] theorem State.modBunch_wafer (s : State) (l b : Nat) (f : Bunch → Bunch) : (s.modBunch l b f).wafer = s.wafer := rfl
@[simp] theorem State.modBunch_campus (s : State) (l b : Nat) (f : Bunch → Bunch) : (s.modBunch l b f).campus = s.campus := rfl
@[simp] theorem State.modBunch_nextLaunch (s : State) (l b : Nat) (f : Bunch → Bunch) : (s.modBunch l b f).nextLaunch = s.nextLaunch := rfl
@[simp] theorem State.modBunch_lqs (s : State) (l b : Nat) (f : Bunch → Bunch) : (s.modBunch l b f).lqs = s.lqs := rfl
@[simp] theorem State.modBunch_devq (s : State) (l b : Nat) (f : Bunch → Bunch) : (s.modBunch l b f).devq = s.devq := rfl
@[simp] theorem State.modBunch_waitq (s : State) (l b : Nat) (f : Bunch → Bunch) : (s.modBunch l b f).waitq = s.waitq := rfl
@[simp] theorem State.modBunch_pre (s : State) (l b : Nat) (f : Bunch → Bunch) : (s.modBunch l b f).pre = s.pre := rfl
@[simp] theorem State.modBunch_clog (s : State) (l b : Nat) (f : Bunch → Bunch) : (s.modBunch l b f).clog = s.clog := rfl
@[simp] theorem State.modBunch_ready (s : State) (l b : Nat) (f : Bunch → Bunch) : (s.modBunch l b f).ready = s.ready := rfl
@[simp] theorem State.modBunch_draining (s : State) (l b : Nat) (f : Bunch → Bunch) : (s.modBunch l b f).draining = s.draining := rfl
@[simp] theorem State.modBunch_standby (s : State) (l b : Nat) (f : Bunch → Bunch) : (s.modBunch l b f).standby = s.standby := rfl
@[simp] theorem State.modBunch_pwRefused (s : State) (l b : Nat) (f : Bunch → Bunch) : (s.modBunch l b f).pwRefused = s.pwRefused := rfl
@[simp] theorem State.modBunch_tables (s : State) (l b : Nat) (f : Bunch → Bunch) : (s.modBunch l b f).tables = s.tables := rfl
@[simp] theorem State.modBunch_trace (s : State) (l b : Nat) (f : Bunch → Bunch) : (s.modBunch l b f).trace = s.trace := rfl
@[simp] theorem State.modBunch_dbg (s : State) (l b : Nat) (f : Bunch → Bunch) : (s.modBunch l b f).dbg = s.dbg := rfl
@[simp] theorem State.modBunch_security (s : State) (l b : Nat) (f : Bunch → Bunch) : (s.modBunch l b f).security = s.security := rfl
@[simp] theorem State.modBunch_press (s : State) (l b : Nat) (f : Bunch → Bunch) : (s.modBunch l b f).press = s.press := rfl
@[simp] theorem State.modBunch_msix (s : State) (l b : Nat) (f : Bunch → Bunch) : (s.modBunch l b f).msix = s.msix := rfl
@[simp] theorem State.modBunch_edges (s : State) (l b : Nat) (f : Bunch → Bunch) : (s.modBunch l b f).edges = s.edges := rfl
@[simp] theorem State.modBunch_replicas (s : State) (l b : Nat) (f : Bunch → Bunch) : (s.modBunch l b f).replicas = s.replicas := rfl
@[simp] theorem State.modBunch_invWaits (s : State) (l b : Nat) (f : Bunch → Bunch) : (s.modBunch l b f).invWaits = s.invWaits := rfl
@[simp] theorem State.modBunch_cellars (s : State) (l b : Nat) (f : Bunch → Bunch) : (s.modBunch l b f).cellars = s.cellars := rfl
@[simp] theorem State.modBunch_links (s : State) (l b : Nat) (f : Bunch → Bunch) : (s.modBunch l b f).links = s.links := rfl
@[simp] theorem State.modBunch_net (s : State) (l b : Nat) (f : Bunch → Bunch) : (s.modBunch l b f).net = s.net := rfl
@[simp] theorem State.modBunch_wins (s : State) (l b : Nat) (f : Bunch → Bunch) : (s.modBunch l b f).wins = s.wins := rfl
@[simp] theorem State.modBunch_msgs (s : State) (l b : Nat) (f : Bunch → Bunch) : (s.modBunch l b f).msgs = s.msgs := rfl
@[simp] theorem State.modBunch_evs (s : State) (l b : Nat) (f : Bunch → Bunch) : (s.modBunch l b f).evs = s.evs := rfl
@[simp] theorem State.modBunch_treeMsgs (s : State) (l b : Nat) (f : Bunch → Bunch) : (s.modBunch l b f).treeMsgs = s.treeMsgs := rfl
@[simp] theorem State.modBunch_colls (s : State) (l b : Nat) (f : Bunch → Bunch) : (s.modBunch l b f).colls = s.colls := rfl
@[simp] theorem State.modBunch_touches (s : State) (l b : Nat) (f : Bunch → Bunch) : (s.modBunch l b f).touches = s.touches := rfl
@[simp] theorem State.modBunch_ndNotes (s : State) (l b : Nat) (f : Bunch → Bunch) : (s.modBunch l b f).ndNotes = s.ndNotes := rfl

/-! ## `setTrace` -/

@[simp] theorem State.setTrace_now (s : State) (n : Nat) (b : TraceBlk) : (s.setTrace n b).now = s.now := rfl
@[simp] theorem State.setTrace_syncAt (s : State) (n : Nat) (b : TraceBlk) : (s.setTrace n b).syncAt = s.syncAt := rfl
@[simp] theorem State.setTrace_curCore (s : State) (n : Nat) (b : TraceBlk) : (s.setTrace n b).curCore = s.curCore := rfl
@[simp] theorem State.setTrace_curSlot (s : State) (n : Nat) (b : TraceBlk) : (s.setTrace n b).curSlot = s.curSlot := rfl
@[simp] theorem State.setTrace_bus (s : State) (n : Nat) (b : TraceBlk) : (s.setTrace n b).bus = s.bus := rfl
@[simp] theorem State.setTrace_agenda (s : State) (n : Nat) (b : TraceBlk) : (s.setTrace n b).agenda = s.agenda := rfl
@[simp] theorem State.setTrace_timers (s : State) (n : Nat) (b : TraceBlk) : (s.setTrace n b).timers = s.timers := rfl
@[simp] theorem State.setTrace_asked (s : State) (n : Nat) (b : TraceBlk) : (s.setTrace n b).asked = s.asked := rfl
@[simp] theorem State.setTrace_answers (s : State) (n : Nat) (b : TraceBlk) : (s.setTrace n b).answers = s.answers := rfl
@[simp] theorem State.setTrace_tap (s : State) (n : Nat) (b : TraceBlk) : (s.setTrace n b).tap = s.tap := rfl
@[simp] theorem State.setTrace_freeCount (s : State) (n : Nat) (b : TraceBlk) : (s.setTrace n b).freeCount = s.freeCount := rfl
@[simp] theorem State.setTrace_nextId (s : State) (n : Nat) (b : TraceBlk) : (s.setTrace n b).nextId = s.nextId := rfl
@[simp] theorem State.setTrace_mem (s : State) (n : Nat) (b : TraceBlk) : (s.setTrace n b).mem = s.mem := rfl
@[simp] theorem State.setTrace_badMem (s : State) (n : Nat) (b : TraceBlk) : (s.setTrace n b).badMem = s.badMem := rfl
@[simp] theorem State.setTrace_cores (s : State) (n : Nat) (b : TraceBlk) : (s.setTrace n b).cores = s.cores := rfl
@[simp] theorem State.setTrace_wafer (s : State) (n : Nat) (b : TraceBlk) : (s.setTrace n b).wafer = s.wafer := rfl
@[simp] theorem State.setTrace_campus (s : State) (n : Nat) (b : TraceBlk) : (s.setTrace n b).campus = s.campus := rfl
@[simp] theorem State.setTrace_launches (s : State) (n : Nat) (b : TraceBlk) : (s.setTrace n b).launches = s.launches := rfl
@[simp] theorem State.setTrace_nextLaunch (s : State) (n : Nat) (b : TraceBlk) : (s.setTrace n b).nextLaunch = s.nextLaunch := rfl
@[simp] theorem State.setTrace_lqs (s : State) (n : Nat) (b : TraceBlk) : (s.setTrace n b).lqs = s.lqs := rfl
@[simp] theorem State.setTrace_devq (s : State) (n : Nat) (b : TraceBlk) : (s.setTrace n b).devq = s.devq := rfl
@[simp] theorem State.setTrace_waitq (s : State) (n : Nat) (b : TraceBlk) : (s.setTrace n b).waitq = s.waitq := rfl
@[simp] theorem State.setTrace_pre (s : State) (n : Nat) (b : TraceBlk) : (s.setTrace n b).pre = s.pre := rfl
@[simp] theorem State.setTrace_clog (s : State) (n : Nat) (b : TraceBlk) : (s.setTrace n b).clog = s.clog := rfl
@[simp] theorem State.setTrace_ready (s : State) (n : Nat) (b : TraceBlk) : (s.setTrace n b).ready = s.ready := rfl
@[simp] theorem State.setTrace_draining (s : State) (n : Nat) (b : TraceBlk) : (s.setTrace n b).draining = s.draining := rfl
@[simp] theorem State.setTrace_standby (s : State) (n : Nat) (b : TraceBlk) : (s.setTrace n b).standby = s.standby := rfl
@[simp] theorem State.setTrace_pwRefused (s : State) (n : Nat) (b : TraceBlk) : (s.setTrace n b).pwRefused = s.pwRefused := rfl
@[simp] theorem State.setTrace_tables (s : State) (n : Nat) (b : TraceBlk) : (s.setTrace n b).tables = s.tables := rfl
@[simp] theorem State.setTrace_dbg (s : State) (n : Nat) (b : TraceBlk) : (s.setTrace n b).dbg = s.dbg := rfl
@[simp] theorem State.setTrace_security (s : State) (n : Nat) (b : TraceBlk) : (s.setTrace n b).security = s.security := rfl
@[simp] theorem State.setTrace_press (s : State) (n : Nat) (b : TraceBlk) : (s.setTrace n b).press = s.press := rfl
@[simp] theorem State.setTrace_msix (s : State) (n : Nat) (b : TraceBlk) : (s.setTrace n b).msix = s.msix := rfl
@[simp] theorem State.setTrace_edges (s : State) (n : Nat) (b : TraceBlk) : (s.setTrace n b).edges = s.edges := rfl
@[simp] theorem State.setTrace_replicas (s : State) (n : Nat) (b : TraceBlk) : (s.setTrace n b).replicas = s.replicas := rfl
@[simp] theorem State.setTrace_invWaits (s : State) (n : Nat) (b : TraceBlk) : (s.setTrace n b).invWaits = s.invWaits := rfl
@[simp] theorem State.setTrace_cellars (s : State) (n : Nat) (b : TraceBlk) : (s.setTrace n b).cellars = s.cellars := rfl
@[simp] theorem State.setTrace_links (s : State) (n : Nat) (b : TraceBlk) : (s.setTrace n b).links = s.links := rfl
@[simp] theorem State.setTrace_net (s : State) (n : Nat) (b : TraceBlk) : (s.setTrace n b).net = s.net := rfl
@[simp] theorem State.setTrace_wins (s : State) (n : Nat) (b : TraceBlk) : (s.setTrace n b).wins = s.wins := rfl
@[simp] theorem State.setTrace_msgs (s : State) (n : Nat) (b : TraceBlk) : (s.setTrace n b).msgs = s.msgs := rfl
@[simp] theorem State.setTrace_evs (s : State) (n : Nat) (b : TraceBlk) : (s.setTrace n b).evs = s.evs := rfl
@[simp] theorem State.setTrace_treeMsgs (s : State) (n : Nat) (b : TraceBlk) : (s.setTrace n b).treeMsgs = s.treeMsgs := rfl
@[simp] theorem State.setTrace_colls (s : State) (n : Nat) (b : TraceBlk) : (s.setTrace n b).colls = s.colls := rfl
@[simp] theorem State.setTrace_touches (s : State) (n : Nat) (b : TraceBlk) : (s.setTrace n b).touches = s.touches := rfl
@[simp] theorem State.setTrace_ndNotes (s : State) (n : Nat) (b : TraceBlk) : (s.setTrace n b).ndNotes = s.ndNotes := rfl

/-! ## `markFrames` -/

@[simp] theorem markFrames_now (s : State) (k n : Nat) : (markFrames k n s).now = s.now := rfl
@[simp] theorem markFrames_syncAt (s : State) (k n : Nat) : (markFrames k n s).syncAt = s.syncAt := rfl
@[simp] theorem markFrames_curCore (s : State) (k n : Nat) : (markFrames k n s).curCore = s.curCore := rfl
@[simp] theorem markFrames_curSlot (s : State) (k n : Nat) : (markFrames k n s).curSlot = s.curSlot := rfl
@[simp] theorem markFrames_bus (s : State) (k n : Nat) : (markFrames k n s).bus = s.bus := rfl
@[simp] theorem markFrames_agenda (s : State) (k n : Nat) : (markFrames k n s).agenda = s.agenda := rfl
@[simp] theorem markFrames_timers (s : State) (k n : Nat) : (markFrames k n s).timers = s.timers := rfl
@[simp] theorem markFrames_asked (s : State) (k n : Nat) : (markFrames k n s).asked = s.asked := rfl
@[simp] theorem markFrames_answers (s : State) (k n : Nat) : (markFrames k n s).answers = s.answers := rfl
@[simp] theorem markFrames_tap (s : State) (k n : Nat) : (markFrames k n s).tap = s.tap := rfl
@[simp] theorem markFrames_freeCount (s : State) (k n : Nat) : (markFrames k n s).freeCount = s.freeCount := rfl
@[simp] theorem markFrames_nextId (s : State) (k n : Nat) : (markFrames k n s).nextId = s.nextId := rfl
@[simp] theorem markFrames_mem (s : State) (k n : Nat) : (markFrames k n s).mem = s.mem := rfl
@[simp] theorem markFrames_badMem (s : State) (k n : Nat) : (markFrames k n s).badMem = s.badMem := rfl
@[simp] theorem markFrames_cores (s : State) (k n : Nat) : (markFrames k n s).cores = s.cores := rfl
@[simp] theorem markFrames_wafer (s : State) (k n : Nat) : (markFrames k n s).wafer = s.wafer := rfl
@[simp] theorem markFrames_campus (s : State) (k n : Nat) : (markFrames k n s).campus = s.campus := rfl
@[simp] theorem markFrames_launches (s : State) (k n : Nat) : (markFrames k n s).launches = s.launches := rfl
@[simp] theorem markFrames_nextLaunch (s : State) (k n : Nat) : (markFrames k n s).nextLaunch = s.nextLaunch := rfl
@[simp] theorem markFrames_lqs (s : State) (k n : Nat) : (markFrames k n s).lqs = s.lqs := rfl
@[simp] theorem markFrames_devq (s : State) (k n : Nat) : (markFrames k n s).devq = s.devq := rfl
@[simp] theorem markFrames_waitq (s : State) (k n : Nat) : (markFrames k n s).waitq = s.waitq := rfl
@[simp] theorem markFrames_pre (s : State) (k n : Nat) : (markFrames k n s).pre = s.pre := rfl
@[simp] theorem markFrames_clog (s : State) (k n : Nat) : (markFrames k n s).clog = s.clog := rfl
@[simp] theorem markFrames_ready (s : State) (k n : Nat) : (markFrames k n s).ready = s.ready := rfl
@[simp] theorem markFrames_draining (s : State) (k n : Nat) : (markFrames k n s).draining = s.draining := rfl
@[simp] theorem markFrames_standby (s : State) (k n : Nat) : (markFrames k n s).standby = s.standby := rfl
@[simp] theorem markFrames_pwRefused (s : State) (k n : Nat) : (markFrames k n s).pwRefused = s.pwRefused := rfl
@[simp] theorem markFrames_tables (s : State) (k n : Nat) : (markFrames k n s).tables = s.tables := rfl
@[simp] theorem markFrames_trace (s : State) (k n : Nat) : (markFrames k n s).trace = s.trace := rfl
@[simp] theorem markFrames_dbg (s : State) (k n : Nat) : (markFrames k n s).dbg = s.dbg := rfl
@[simp] theorem markFrames_security (s : State) (k n : Nat) : (markFrames k n s).security = s.security := rfl
@[simp] theorem markFrames_press (s : State) (k n : Nat) : (markFrames k n s).press = s.press := rfl
@[simp] theorem markFrames_msix (s : State) (k n : Nat) : (markFrames k n s).msix = s.msix := rfl
@[simp] theorem markFrames_edges (s : State) (k n : Nat) : (markFrames k n s).edges = s.edges := rfl
@[simp] theorem markFrames_replicas (s : State) (k n : Nat) : (markFrames k n s).replicas = s.replicas := rfl
@[simp] theorem markFrames_invWaits (s : State) (k n : Nat) : (markFrames k n s).invWaits = s.invWaits := rfl
@[simp] theorem markFrames_links (s : State) (k n : Nat) : (markFrames k n s).links = s.links := rfl
@[simp] theorem markFrames_net (s : State) (k n : Nat) : (markFrames k n s).net = s.net := rfl
@[simp] theorem markFrames_wins (s : State) (k n : Nat) : (markFrames k n s).wins = s.wins := rfl
@[simp] theorem markFrames_msgs (s : State) (k n : Nat) : (markFrames k n s).msgs = s.msgs := rfl
@[simp] theorem markFrames_evs (s : State) (k n : Nat) : (markFrames k n s).evs = s.evs := rfl
@[simp] theorem markFrames_treeMsgs (s : State) (k n : Nat) : (markFrames k n s).treeMsgs = s.treeMsgs := rfl
@[simp] theorem markFrames_colls (s : State) (k n : Nat) : (markFrames k n s).colls = s.colls := rfl
@[simp] theorem markFrames_touches (s : State) (k n : Nat) : (markFrames k n s).touches = s.touches := rfl
@[simp] theorem markFrames_ndNotes (s : State) (k n : Nat) : (markFrames k n s).ndNotes = s.ndNotes := rfl

/-! ## `noteNd` -/

@[simp] theorem noteNd_now (s : State) (n : Nat) (a : Agent) (code : Nat) (pc : W32) : (noteNd n a code pc s).now = s.now := rfl
@[simp] theorem noteNd_syncAt (s : State) (n : Nat) (a : Agent) (code : Nat) (pc : W32) : (noteNd n a code pc s).syncAt = s.syncAt := rfl
@[simp] theorem noteNd_curCore (s : State) (n : Nat) (a : Agent) (code : Nat) (pc : W32) : (noteNd n a code pc s).curCore = s.curCore := rfl
@[simp] theorem noteNd_curSlot (s : State) (n : Nat) (a : Agent) (code : Nat) (pc : W32) : (noteNd n a code pc s).curSlot = s.curSlot := rfl
@[simp] theorem noteNd_bus (s : State) (n : Nat) (a : Agent) (code : Nat) (pc : W32) : (noteNd n a code pc s).bus = s.bus := rfl
@[simp] theorem noteNd_agenda (s : State) (n : Nat) (a : Agent) (code : Nat) (pc : W32) : (noteNd n a code pc s).agenda = s.agenda := rfl
@[simp] theorem noteNd_timers (s : State) (n : Nat) (a : Agent) (code : Nat) (pc : W32) : (noteNd n a code pc s).timers = s.timers := rfl
@[simp] theorem noteNd_asked (s : State) (n : Nat) (a : Agent) (code : Nat) (pc : W32) : (noteNd n a code pc s).asked = s.asked := rfl
@[simp] theorem noteNd_answers (s : State) (n : Nat) (a : Agent) (code : Nat) (pc : W32) : (noteNd n a code pc s).answers = s.answers := rfl
@[simp] theorem noteNd_tap (s : State) (n : Nat) (a : Agent) (code : Nat) (pc : W32) : (noteNd n a code pc s).tap = s.tap := rfl
@[simp] theorem noteNd_nextId (s : State) (n : Nat) (a : Agent) (code : Nat) (pc : W32) : (noteNd n a code pc s).nextId = s.nextId := rfl
@[simp] theorem noteNd_mem (s : State) (n : Nat) (a : Agent) (code : Nat) (pc : W32) : (noteNd n a code pc s).mem = s.mem := rfl
@[simp] theorem noteNd_badMem (s : State) (n : Nat) (a : Agent) (code : Nat) (pc : W32) : (noteNd n a code pc s).badMem = s.badMem := rfl
@[simp] theorem noteNd_cores (s : State) (n : Nat) (a : Agent) (code : Nat) (pc : W32) : (noteNd n a code pc s).cores = s.cores := rfl
@[simp] theorem noteNd_wafer (s : State) (n : Nat) (a : Agent) (code : Nat) (pc : W32) : (noteNd n a code pc s).wafer = s.wafer := rfl
@[simp] theorem noteNd_campus (s : State) (n : Nat) (a : Agent) (code : Nat) (pc : W32) : (noteNd n a code pc s).campus = s.campus := rfl
@[simp] theorem noteNd_launches (s : State) (n : Nat) (a : Agent) (code : Nat) (pc : W32) : (noteNd n a code pc s).launches = s.launches := rfl
@[simp] theorem noteNd_nextLaunch (s : State) (n : Nat) (a : Agent) (code : Nat) (pc : W32) : (noteNd n a code pc s).nextLaunch = s.nextLaunch := rfl
@[simp] theorem noteNd_lqs (s : State) (n : Nat) (a : Agent) (code : Nat) (pc : W32) : (noteNd n a code pc s).lqs = s.lqs := rfl
@[simp] theorem noteNd_devq (s : State) (n : Nat) (a : Agent) (code : Nat) (pc : W32) : (noteNd n a code pc s).devq = s.devq := rfl
@[simp] theorem noteNd_waitq (s : State) (n : Nat) (a : Agent) (code : Nat) (pc : W32) : (noteNd n a code pc s).waitq = s.waitq := rfl
@[simp] theorem noteNd_pre (s : State) (n : Nat) (a : Agent) (code : Nat) (pc : W32) : (noteNd n a code pc s).pre = s.pre := rfl
@[simp] theorem noteNd_clog (s : State) (n : Nat) (a : Agent) (code : Nat) (pc : W32) : (noteNd n a code pc s).clog = s.clog := rfl
@[simp] theorem noteNd_ready (s : State) (n : Nat) (a : Agent) (code : Nat) (pc : W32) : (noteNd n a code pc s).ready = s.ready := rfl
@[simp] theorem noteNd_draining (s : State) (n : Nat) (a : Agent) (code : Nat) (pc : W32) : (noteNd n a code pc s).draining = s.draining := rfl
@[simp] theorem noteNd_standby (s : State) (n : Nat) (a : Agent) (code : Nat) (pc : W32) : (noteNd n a code pc s).standby = s.standby := rfl
@[simp] theorem noteNd_pwRefused (s : State) (n : Nat) (a : Agent) (code : Nat) (pc : W32) : (noteNd n a code pc s).pwRefused = s.pwRefused := rfl
@[simp] theorem noteNd_tables (s : State) (n : Nat) (a : Agent) (code : Nat) (pc : W32) : (noteNd n a code pc s).tables = s.tables := rfl
@[simp] theorem noteNd_trace (s : State) (n : Nat) (a : Agent) (code : Nat) (pc : W32) : (noteNd n a code pc s).trace = s.trace := rfl
@[simp] theorem noteNd_dbg (s : State) (n : Nat) (a : Agent) (code : Nat) (pc : W32) : (noteNd n a code pc s).dbg = s.dbg := rfl
@[simp] theorem noteNd_security (s : State) (n : Nat) (a : Agent) (code : Nat) (pc : W32) : (noteNd n a code pc s).security = s.security := rfl
@[simp] theorem noteNd_press (s : State) (n : Nat) (a : Agent) (code : Nat) (pc : W32) : (noteNd n a code pc s).press = s.press := rfl
@[simp] theorem noteNd_msix (s : State) (n : Nat) (a : Agent) (code : Nat) (pc : W32) : (noteNd n a code pc s).msix = s.msix := rfl
@[simp] theorem noteNd_edges (s : State) (n : Nat) (a : Agent) (code : Nat) (pc : W32) : (noteNd n a code pc s).edges = s.edges := rfl
@[simp] theorem noteNd_replicas (s : State) (n : Nat) (a : Agent) (code : Nat) (pc : W32) : (noteNd n a code pc s).replicas = s.replicas := rfl
@[simp] theorem noteNd_invWaits (s : State) (n : Nat) (a : Agent) (code : Nat) (pc : W32) : (noteNd n a code pc s).invWaits = s.invWaits := rfl
@[simp] theorem noteNd_cellars (s : State) (n : Nat) (a : Agent) (code : Nat) (pc : W32) : (noteNd n a code pc s).cellars = s.cellars := rfl
@[simp] theorem noteNd_links (s : State) (n : Nat) (a : Agent) (code : Nat) (pc : W32) : (noteNd n a code pc s).links = s.links := rfl
@[simp] theorem noteNd_net (s : State) (n : Nat) (a : Agent) (code : Nat) (pc : W32) : (noteNd n a code pc s).net = s.net := rfl
@[simp] theorem noteNd_wins (s : State) (n : Nat) (a : Agent) (code : Nat) (pc : W32) : (noteNd n a code pc s).wins = s.wins := rfl
@[simp] theorem noteNd_msgs (s : State) (n : Nat) (a : Agent) (code : Nat) (pc : W32) : (noteNd n a code pc s).msgs = s.msgs := rfl
@[simp] theorem noteNd_evs (s : State) (n : Nat) (a : Agent) (code : Nat) (pc : W32) : (noteNd n a code pc s).evs = s.evs := rfl
@[simp] theorem noteNd_treeMsgs (s : State) (n : Nat) (a : Agent) (code : Nat) (pc : W32) : (noteNd n a code pc s).treeMsgs = s.treeMsgs := rfl
@[simp] theorem noteNd_colls (s : State) (n : Nat) (a : Agent) (code : Nat) (pc : W32) : (noteNd n a code pc s).colls = s.colls := rfl
@[simp] theorem noteNd_touches (s : State) (n : Nat) (a : Agent) (code : Nat) (pc : W32) : (noteNd n a code pc s).touches = s.touches := rfl

/-! ## `storeN` -/

@[simp] theorem storeN_now (s : State) (k n v : Nat) : (storeN s k n v).now = s.now := rfl
@[simp] theorem storeN_syncAt (s : State) (k n v : Nat) : (storeN s k n v).syncAt = s.syncAt := rfl
@[simp] theorem storeN_curCore (s : State) (k n v : Nat) : (storeN s k n v).curCore = s.curCore := rfl
@[simp] theorem storeN_curSlot (s : State) (k n v : Nat) : (storeN s k n v).curSlot = s.curSlot := rfl
@[simp] theorem storeN_bus (s : State) (k n v : Nat) : (storeN s k n v).bus = s.bus := rfl
@[simp] theorem storeN_agenda (s : State) (k n v : Nat) : (storeN s k n v).agenda = s.agenda := rfl
@[simp] theorem storeN_timers (s : State) (k n v : Nat) : (storeN s k n v).timers = s.timers := rfl
@[simp] theorem storeN_asked (s : State) (k n v : Nat) : (storeN s k n v).asked = s.asked := rfl
@[simp] theorem storeN_answers (s : State) (k n v : Nat) : (storeN s k n v).answers = s.answers := rfl
@[simp] theorem storeN_tap (s : State) (k n v : Nat) : (storeN s k n v).tap = s.tap := rfl
@[simp] theorem storeN_freeCount (s : State) (k n v : Nat) : (storeN s k n v).freeCount = s.freeCount := rfl
@[simp] theorem storeN_nextId (s : State) (k n v : Nat) : (storeN s k n v).nextId = s.nextId := rfl
@[simp] theorem storeN_badMem (s : State) (k n v : Nat) : (storeN s k n v).badMem = s.badMem := rfl
@[simp] theorem storeN_cores (s : State) (k n v : Nat) : (storeN s k n v).cores = s.cores := rfl
@[simp] theorem storeN_wafer (s : State) (k n v : Nat) : (storeN s k n v).wafer = s.wafer := rfl
@[simp] theorem storeN_campus (s : State) (k n v : Nat) : (storeN s k n v).campus = s.campus := rfl
@[simp] theorem storeN_launches (s : State) (k n v : Nat) : (storeN s k n v).launches = s.launches := rfl
@[simp] theorem storeN_nextLaunch (s : State) (k n v : Nat) : (storeN s k n v).nextLaunch = s.nextLaunch := rfl
@[simp] theorem storeN_lqs (s : State) (k n v : Nat) : (storeN s k n v).lqs = s.lqs := rfl
@[simp] theorem storeN_devq (s : State) (k n v : Nat) : (storeN s k n v).devq = s.devq := rfl
@[simp] theorem storeN_waitq (s : State) (k n v : Nat) : (storeN s k n v).waitq = s.waitq := rfl
@[simp] theorem storeN_pre (s : State) (k n v : Nat) : (storeN s k n v).pre = s.pre := rfl
@[simp] theorem storeN_clog (s : State) (k n v : Nat) : (storeN s k n v).clog = s.clog := rfl
@[simp] theorem storeN_ready (s : State) (k n v : Nat) : (storeN s k n v).ready = s.ready := rfl
@[simp] theorem storeN_draining (s : State) (k n v : Nat) : (storeN s k n v).draining = s.draining := rfl
@[simp] theorem storeN_standby (s : State) (k n v : Nat) : (storeN s k n v).standby = s.standby := rfl
@[simp] theorem storeN_pwRefused (s : State) (k n v : Nat) : (storeN s k n v).pwRefused = s.pwRefused := rfl
@[simp] theorem storeN_tables (s : State) (k n v : Nat) : (storeN s k n v).tables = s.tables := rfl
@[simp] theorem storeN_trace (s : State) (k n v : Nat) : (storeN s k n v).trace = s.trace := rfl
@[simp] theorem storeN_dbg (s : State) (k n v : Nat) : (storeN s k n v).dbg = s.dbg := rfl
@[simp] theorem storeN_security (s : State) (k n v : Nat) : (storeN s k n v).security = s.security := rfl
@[simp] theorem storeN_press (s : State) (k n v : Nat) : (storeN s k n v).press = s.press := rfl
@[simp] theorem storeN_msix (s : State) (k n v : Nat) : (storeN s k n v).msix = s.msix := rfl
@[simp] theorem storeN_edges (s : State) (k n v : Nat) : (storeN s k n v).edges = s.edges := rfl
@[simp] theorem storeN_replicas (s : State) (k n v : Nat) : (storeN s k n v).replicas = s.replicas := rfl
@[simp] theorem storeN_invWaits (s : State) (k n v : Nat) : (storeN s k n v).invWaits = s.invWaits := rfl
@[simp] theorem storeN_cellars (s : State) (k n v : Nat) : (storeN s k n v).cellars = s.cellars := rfl
@[simp] theorem storeN_links (s : State) (k n v : Nat) : (storeN s k n v).links = s.links := rfl
@[simp] theorem storeN_net (s : State) (k n v : Nat) : (storeN s k n v).net = s.net := rfl
@[simp] theorem storeN_wins (s : State) (k n v : Nat) : (storeN s k n v).wins = s.wins := rfl
@[simp] theorem storeN_msgs (s : State) (k n v : Nat) : (storeN s k n v).msgs = s.msgs := rfl
@[simp] theorem storeN_evs (s : State) (k n v : Nat) : (storeN s k n v).evs = s.evs := rfl
@[simp] theorem storeN_treeMsgs (s : State) (k n v : Nat) : (storeN s k n v).treeMsgs = s.treeMsgs := rfl
@[simp] theorem storeN_colls (s : State) (k n v : Nat) : (storeN s k n v).colls = s.colls := rfl
@[simp] theorem storeN_touches (s : State) (k n v : Nat) : (storeN s k n v).touches = s.touches := rfl
@[simp] theorem storeN_ndNotes (s : State) (k n v : Nat) : (storeN s k n v).ndNotes = s.ndNotes := rfl

end Sys2Proof.Machine
end

