-- ==== Sys2Proof/Laws/Table.lean ====
section
/-! SUPPORT. Tables keyed by a number: what a value set reads as, and keys that stay rising. -/

namespace Sys2Proof.Machine.Tbl

open Sys2Proof

variable {α : Type}

/-- The value set at a key is the one found there. -/
theorem find?_set_self (t : Table α) (k : Nat) (a : α) : find? (set t k a) k = some a := by
  induction t with
  | nil => simp [set, find?]
  | cons p r ih =>
    obtain ⟨j, b⟩ := p
    simp only [set]
    split
    · simp [find?]
    · split
      · simp [find?]
      · rename_i h1 h2
        simp [find?, h1, h2, ih]

/-- A value set at a key leaves the others. -/
theorem find?_set_other (t : Table α) {k l : Nat} (a : α) (h : l ≠ k) : find? (set t k a) l = find? t l := by
  have h' : k ≠ l := Ne.symm h
  induction t with
  | nil => simp only [set, find?, if_neg h']; split <;> rfl
  | cons p r ih =>
    obtain ⟨j, b⟩ := p
    simp only [set]
    split
    · rename_i e; subst e; simp [find?, h']
    · split
      · rename_i h1 h2
        simp only [find?, if_neg h']
        by_cases h3 : l < k
        · have : ¬ j = l := by omega
          have : l < j := by omega
          simp [*]
        · simp [h3]
      · simp only [find?, ih]

/-- The value set at a key is the one read there. -/
@[simp] theorem get_set_self (t : Table α) (k : Nat) (a d : α) : get (set t k a) k d = a := by
  simp [get, find?_set_self]

/-- A value set at a key leaves what is read at others. -/
theorem get_set_other (t : Table α) {k l : Nat} (a d : α) (h : l ≠ k) : get (set t k a) l d = get t l d := by
  simp [get, find?_set_other t a h]

/-- What is read at a key after a value is set. -/
theorem get_set (t : Table α) (k l : Nat) (a d : α) : get (set t k a) l d = if l = k then a else get t l d := by
  by_cases h : l = k
  · subst h; simp
  · simp [h, get_set_other t a d h]

/-- The keys of a table after a value is set. -/
theorem mem_set {t : Table α} {k : Nat} {a : α} {p : Nat × α} (h : p ∈ set t k a) : p.1 = k ∨ p ∈ t := by
  induction t with
  | nil => simp [set] at h; simp [h]
  | cons q r ih =>
    obtain ⟨j, b⟩ := q
    simp only [set] at h
    split at h
    · rcases List.mem_cons.1 h with rfl | h
      · exact .inl rfl
      · exact .inr (List.mem_cons_of_mem _ h)
    · split at h
      · rcases List.mem_cons.1 h with rfl | h
        · exact .inl rfl
        · exact .inr h
      · rcases List.mem_cons.1 h with rfl | h
        · exact .inr (by simp)
        · exact (ih h).imp id (List.mem_cons_of_mem _)

/-- Rising keys. -/
theorem rising_iff (t : Table α) : rising t = true ↔ t.Pairwise fun a b => a.1 < b.1 := by
  induction t with
  | nil => simp [rising]
  | cons p r ih =>
    cases r with
    | nil => simp [rising]
    | cons q r =>
      obtain ⟨a, x⟩ := p
      obtain ⟨b, y⟩ := q
      simp only [rising, Bool.and_eq_true, decide_eq_true_eq, ih]
      rw [List.pairwise_cons (l := (b, y) :: r)]
      simp only [List.mem_cons, forall_eq_or_imp]
      constructor
      · rintro ⟨h1, h2⟩
        exact ⟨⟨h1, fun c hc => Nat.lt_trans h1 ((List.pairwise_cons.1 h2).1 c hc)⟩, h2⟩
      · rintro ⟨⟨h1, -⟩, h2⟩
        exact ⟨h1, h2⟩

/-- Setting a value keeps the keys rising. -/
theorem rising_set {t : Table α} (h : rising t = true) (k : Nat) (a : α) : rising (set t k a) = true := by
  rw [rising_iff] at h ⊢
  induction t with
  | nil => simp [set]
  | cons p r ih =>
    obtain ⟨j, b⟩ := p
    rw [List.pairwise_cons] at h
    simp only [set]
    split
    · subst j; exact List.pairwise_cons.2 h
    · split
      · rename_i hk
        refine List.pairwise_cons.2 ⟨fun c hc => ?_, List.pairwise_cons.2 h⟩
        rcases List.mem_cons.1 hc with rfl | hc
        · exact hk
        · exact Nat.lt_trans hk (h.1 c hc)
      · refine List.pairwise_cons.2 ⟨fun c hc => ?_, ih h.2⟩
        rcases mem_set hc with hc | hc
        · simp only; omega
        · exact h.1 c hc

end Sys2Proof.Machine.Tbl
end

