-- ==== Sys2Proof/Laws/Threads.lean ====
section
/-! SUPPORT. Cores and threads of a state after an update of one of them. -/

namespace Sys2Proof.Machine

open Sys2Proof

/-- The core a table entry replaces is the one read there. -/
@[simp] theorem State.core_setCore_self (s : State) (c : Nat) (k : Core) : (s.setCore c k).core c = k := by
  simp [State.core, State.setCore]

/-- Other cores stay. -/
theorem State.core_setCore (s : State) (c d : Nat) (k : Core) :
    (s.setCore c k).core d = if d = c then k else s.core d := by
  simp [State.core, State.setCore, Tbl.get_set]

/-- A state that differs in no core has the same cores. -/
theorem State.core_congr {s t : State} (h : t.cores = s.cores) (c : Nat) : t.core c = s.core c := by
  simp [State.core, h]

theorem State.thread_congr {s t : State} (h : t.cores = s.cores) (c u : Nat) : t.thread c u = s.thread c u := by
  simp [State.thread, State.core, h]

/-- The slot a core's update replaces. -/
theorem Core.thread_setThread (k : Core) (t u : Nat) (th : Thread) :
    (k.setThread t th).thread u = if u = t ∧ t < k.threads.length then th else k.thread u := by
  simp only [Core.thread, Core.setThread, List.getD_eq_getElem?_getD, List.getElem?_set]
  by_cases h : t = u
  · subst h; by_cases h2 : t < k.threads.length <;> simp [h2]
  · have : ¬ u = t := fun e => h e.symm
    simp [h, this]

@[simp] theorem Core.setThread_length (k : Core) (t : Nat) (th : Thread) :
    (k.setThread t th).threads.length = k.threads.length := by
  simp [Core.setThread]

/-- The slot a state's update replaces; every other stays. -/
theorem State.thread_setThread (s : State) (c t d u : Nat) (th : Thread) :
    (s.setThread c t th).thread d u =
      if d = c ∧ u = t ∧ t < (s.core c).threads.length then th else s.thread d u := by
  simp only [State.thread, State.setThread, State.core_setCore]
  by_cases h : d = c
  · subst h; simp [Core.thread_setThread]
  · simp [h]

/-- The slot a state's change replaces; every other stays. -/
theorem State.thread_modThread (s : State) (c t d u : Nat) (f : Thread → Thread) :
    (s.modThread c t f).thread d u =
      if d = c ∧ u = t ∧ t < (s.core c).threads.length then f (s.thread c t) else s.thread d u := by
  simp [State.modThread, State.thread_setThread]

/-- The executing thread after a change of it. -/
theorem State.me_modMe {s : State} (f : Thread → Thread) (h : s.curSlot < s.myCore.threads.length) :
    (s.modMe f).me = f s.me := by
  simp only [State.me, State.modMe, State.thread_modThread, State.modThread_curCore, State.modThread_curSlot]
  simp only [State.myCore] at h
  simp [h]

/-- A core without its threads and without what issuing moves: the last slots, the datapath, the cycle mark. -/
theorem State.core_setThread (s : State) (c t d : Nat) (th : Thread) :
    (s.setThread c t th).core d = if d = c then (s.core c).setThread t th else s.core d := by
  simp [State.setThread, State.core_setCore]

theorem State.core_modThread (s : State) (c t d : Nat) (f : Thread → Thread) :
    (s.modThread c t f).core d = if d = c then (s.core c).setThread t (f (s.thread c t)) else s.core d := by
  simp [State.modThread, State.core_setThread]

theorem State.core_modCore (s : State) (c d : Nat) (f : Core → Core) :
    (s.modCore c f).core d = if d = c then f (s.core c) else s.core d := by
  simp [State.modCore, State.core_setCore]

/-- The core of a state with the cores of a list changed. -/
theorem State.core_modCores (s : State) (cs : List Nat) (d : Nat) (f : Core → Core) (h : f .reset = .reset) :
    (s.modCores cs f).core d = if d ∈ cs then f (s.core d) else s.core d := by
  simp only [State.core, State.modCores, Tbl.get]
  induction s.cores with
  | nil => simp [Tbl.find?, h]
  | cons p r ih =>
    obtain ⟨j, k⟩ := p
    by_cases hj : j = d
    · subst hj
      by_cases hm : j ∈ cs <;> simp [Tbl.find?, hm]
    · by_cases hm : j ∈ cs <;> by_cases hl : d < j <;> simp [Tbl.find?, hm, hj, hl, h] <;> simpa using ih

end Sys2Proof.Machine
end

