-- ==== Sys2Proof/Laws/Tracing.lean ====
section
/-! SUPPORT. Trace and the nondeterminism cause log leave every core, the executing slot and the time as they are. -/

namespace Sys2Proof.Machine

open Sys2Proof

/-- The same cores, executing slot, time and next name. -/
structure SameCores (s t : State) : Prop where
  cores : t.cores = s.cores
  core  : t.curCore = s.curCore
  slot  : t.curSlot = s.curSlot
  now   : t.now = s.now
  next  : t.nextId = s.nextId

theorem SameCores.rfl (s : State) : SameCores s s := ⟨Eq.refl _, Eq.refl _, Eq.refl _, Eq.refl _, Eq.refl _⟩

theorem SameCores.trans {s t u : State} (h : SameCores s t) (g : SameCores t u) : SameCores s u :=
  ⟨g.cores.trans h.cores, g.core.trans h.core, g.slot.trans h.slot, g.now.trans h.now, g.next.trans h.next⟩

/-- A choice between two states with the same cores. -/
theorem ite_sameCores {s t u : State} (P : Prop) [Decidable P] (h : SameCores s t) (g : SameCores s u) :
    SameCores s (if P then t else u) := by
  split
  · exact h
  · exact g

theorem physWrite_sameCores {s t : State} {m : Master} {a : Nat} {bs : List Byte} (h : s.physWrite m a bs = some t) :
    SameCores s t := by
  simp only [State.physWrite] at h
  split at h
  · cases h; exact ⟨Eq.refl _, Eq.refl _, Eq.refl _, Eq.refl _, Eq.refl _⟩
  · cases h

theorem physWriteOr_sameCores (s : State) (m : Master) (a : Nat) (bs : List Byte) :
    SameCores s ((s.physWrite m a bs).getD s) := by
  cases h : s.physWrite m a bs with
  | none => exact .rfl s
  | some u => exact physWrite_sameCores h

theorem setTrace_sameCores (f : Nat) (b : TraceBlk) (s : State) : SameCores s (s.setTrace f b) :=
  ⟨Eq.refl _, Eq.refl _, Eq.refl _, Eq.refl _, Eq.refl _⟩

theorem signal_sameCores (v : Nat) (s : State) : SameCores s (s.signal v) :=
  ⟨Eq.refl _, Eq.refl _, Eq.refl _, Eq.refl _, Eq.refl _⟩

theorem atTime_sameCores (t : Nat) (i : Instr) (s : State) : SameCores s (s.atTime t i) :=
  ⟨Eq.refl _, Eq.refl _, Eq.refl _, Eq.refl _, Eq.refl _⟩

theorem modLaunch_sameCores (l : Nat) (f : Launch → Launch) (s : State) : SameCores s (s.modLaunch l f) :=
  ⟨Eq.refl _, Eq.refl _, Eq.refl _, Eq.refl _, Eq.refl _⟩

theorem putTrace_sameCores (f : Nat) (b : TraceBlk) (s : State) : SameCores s (putTrace f b s) := by
  unfold putTrace
  exact ite_sameCores _ ((setTrace_sameCores _ _ _).trans (signal_sameCores _ _)) (setTrace_sameCores _ _ _)

theorem writeFrame_sameCores (f : Nat) (bytes : List Byte) (s : State) : SameCores s (writeFrame f bytes s) :=
  (physWriteOr_sameCores _ _ _ _).trans (putTrace_sameCores _ _ _)

theorem writeLees_sameCores (f : Nat) (s : State) : SameCores s (writeLees f s) := by
  unfold writeLees
  exact ite_sameCores _ (.rfl s) ((setTrace_sameCores _ _ _).trans (writeFrame_sameCores _ _ _))

theorem writeHeld_sameCores (f : Nat) (bs : List (List Byte)) (s : State) : SameCores s (writeHeld f bs s) := by
  induction bs generalizing s with
  | nil => exact .rfl s
  | cons b bs ih =>
    unfold writeHeld
    exact ite_sameCores _ (.rfl s) (((setTrace_sameCores _ _ _).trans (writeFrame_sameCores _ _ _)).trans (ih _))

theorem drainTrace_sameCores (f : Nat) (s : State) : SameCores s (drainTrace f s) :=
  (writeLees_sameCores f s).trans (writeHeld_sameCores f _ _)

theorem closeFrame_sameCores (f : Nat) (s : State) : SameCores s (closeFrame f s) := by
  unfold closeFrame
  refine ite_sameCores _ (.rfl s) ((drainTrace_sameCores f s).trans ?_)
  exact ite_sameCores _ ((setTrace_sameCores _ _ _).trans (writeFrame_sameCores _ _ _))
    (ite_sameCores _ (setTrace_sameCores _ _ _) (setTrace_sameCores _ _ _))

theorem appendRecord_sameCores (f : Nat) (r : BitVec 256) (s : State) : SameCores s (appendRecord f r s) := by
  have h0 : ∀ b : Bool, SameCores s (if b then s.choose else (false, s)).2 := by
    intro b; cases b
    · exact .rfl s
    · exact ⟨Eq.refl _, Eq.refl _, Eq.refl _, Eq.refl _, Eq.refl _⟩
  simp only [appendRecord]
  generalize hb : (((s.traceBlk f).dict.findIdx? fun e => recordKey e == recordKey r).isSome &&
    decide ((s.traceBlk f).tlast ≤ bits r.toNat 32 64) && !(s.traceBlk f).payload.isEmpty) = b
  have h := h0 b
  generalize (if b then s.choose else (false, s)) = p at h ⊢
  obtain ⟨short, s0⟩ := p
  simp only at h ⊢
  generalize hq : (if (s.traceBlk f).payload.length +
    (traceToken (s.traceBlk f) (if short then ((s.traceBlk f).dict.findIdx? fun e => recordKey e == recordKey r) else none) r).length ≤ 4064
      then s0 else closeFrame f s0) = s1
  have h1 : SameCores s s1 := by
    have key (P : Prop) [Decidable P] : SameCores s (if P then s0 else closeFrame f s0) := by
      split
      · exact h
      · exact h.trans (closeFrame_sameCores _ _)
    rw [← hq]; exact key _
  split
  · exact h1.trans ((setTrace_sameCores _ _ _).trans (atTime_sameCores _ _ _))
  · exact h1.trans (setTrace_sameCores _ _ _)

theorem trace_sameCores (c t ty d : Nat) (s : State) : SameCores s (trace c t ty d s) := by
  simp only [trace]
  split
  · exact appendRecord_sameCores _ _ _
  · exact .rfl s

theorem logNd_sameCores (a : Agent) (code : Nat) (pc : W32) (s : State) : SameCores s (logNd a code pc s) := by
  simp only [logNd]
  split
  · exact .rfl s
  · split
    · split
      · exact (modLaunch_sameCores _ _ _).trans (trace_sameCores _ _ _ _ _)
      · exact modLaunch_sameCores _ _ _
    · exact modLaunch_sameCores _ _ _

theorem repeat_sameCores (f : State → State) (h : ∀ s, SameCores s (f s)) (n : Nat) (s : State) :
    SameCores s (Nat.repeat f n s) := by
  induction n with
  | zero => exact .rfl s
  | succ n ih => exact ih.trans (h _)

end Sys2Proof.Machine
end

