-- ==== Sys2Proof/Laws/Window.lean ====
section
/-! SUPPORT. The window: what pending results, landings and writes leave in it once every result is there. -/

namespace Sys2Proof.Machine

open Sys2Proof

/-- Every pending result put into a window. -/
def settleAll (ps : List Pending) (w : BitVec 8192) : BitVec 8192 :=
  ps.foldl (fun w p => (w &&& ~~~p.mask) ||| (p.value &&& p.mask)) w

theorem allWritten_eq (th : Thread) : th.allWritten = settleAll th.pend th.window := rfl

/-- Folding settled results into the window loses nothing. -/
theorem settleAll_absorb (pos : Nat) (ps : List Pending) (w : BitVec 8192) :
    settleAll (absorb pos ps w).1 (absorb pos ps w).2 = settleAll ps w := by
  induction ps generalizing w with
  | nil => rfl
  | cons p ps ih =>
    simp only [absorb]
    split
    · rw [ih]; rfl
    · rfl

@[simp] theorem settle_allWritten (th : Thread) : th.settle.allWritten = th.allWritten := settleAll_absorb _ _ _

/-- A pending result put on top of two in a row. -/
theorem blend_blend (x a va b vb : BitVec 8192) :
    (x &&& ~~~(a ||| b)) ||| (((va &&& ~~~b) ||| (vb &&& b)) &&& (a ||| b)) =
      (((x &&& ~~~a) ||| (va &&& a)) &&& ~~~b) ||| (vb &&& b) := by
  ext i hi
  simp only [BitVec.getElem_or, BitVec.getElem_and, BitVec.getElem_not]
  cases x[i] <;> cases a[i] <;> cases va[i] <;> cases b[i] <;> cases vb[i] <;> rfl

/-- A fixed-class result of an instruction stands in the window once written. -/
theorem addPending_allWritten (th : Thread) (p : Pending) :
    (th.addPending p).allWritten = (th.allWritten &&& ~~~p.mask) ||| (p.value &&& p.mask) := by
  simp only [Thread.addPending]
  split
  · rename_i q hq
    obtain ⟨l, hl⟩ : ∃ l, th.pend = l ++ [q] := List.getLast?_eq_some_iff.1 hq
    split
    · simp only [allWritten_eq, hl, List.dropLast_concat, settleAll, List.foldl_append, List.foldl_cons, List.foldl_nil]
      exact blend_blend _ _ _ _ _
    · simp [allWritten_eq, settleAll, List.foldl_append]
  · rename_i hq
    have : th.pend = [] := List.getLast?_eq_none_iff.1 hq
    simp [allWritten_eq, settleAll, this]

/-- One more window write on top of a mask and value. -/
theorem blend_setBits (x m v : BitVec 8192) (lo len n : Nat) :
    (x &&& ~~~(m ||| BitVec.ofNat 8192 ((2 ^ len - 1) <<< lo))) |||
        (BitVec.ofNat 8192 (setBits v.toNat lo len n) &&& (m ||| BitVec.ofNat 8192 ((2 ^ len - 1) <<< lo))) =
      BitVec.ofNat 8192 (setBits ((x &&& ~~~m) ||| (v &&& m)).toNat lo len n) := by
  apply BitVec.eq_of_getLsbD_eq
  intro i hi
  simp only [BitVec.getLsbD_or, BitVec.getLsbD_and, BitVec.getLsbD_not, BitVec.getLsbD_ofNat, testBit_setBits, hi,
    decide_true, Bool.true_and, Nat.testBit_shiftLeft, Nat.testBit_two_pow_sub_one, BitVec.testBit_toNat]
  by_cases h1 : lo ≤ i
  · by_cases h2 : i < lo + len
    · have : i - lo < len := by omega
      simp [h1, h2, this]
    · have : ¬ i - lo < len := by omega
      simp [h1, h2, this]
  · have : ¬ (lo ≤ i ∧ i < lo + len) := by omega
    simp [h1]

/-- The mask and value of some writes, put on a window, are the writes made one by one. -/
theorem foldl_addWrite (ws : List Write) (x : BitVec 8192) (p : BitVec 8192 × BitVec 8192) :
    (x &&& ~~~(ws.foldl addWrite p).1) ||| ((ws.foldl addWrite p).2 &&& (ws.foldl addWrite p).1) =
      overlay ((x &&& ~~~p.1) ||| (p.2 &&& p.1)) ws := by
  induction ws generalizing p with
  | nil => rfl
  | cons w ws ih =>
    simp only [List.foldl_cons]
    rw [ih]
    cases w with
    | win lo len n => simp only [addWrite]; rw [blend_setBits]; rfl
    | push q w n =>
      simp only [overlay, List.foldl_cons, addWrite, applyWin, BitVec.ofNat_toNat, BitVec.setWidth_eq]

/-- An empty mask leaves a window. -/
theorem under_zero {n : Nat} (x : BitVec n) : (x &&& ~~~(0 : BitVec n)) ||| ((0 : BitVec n) &&& 0) = x := by
  ext i hi; simp

/-- Pushes alone leave a window. -/
theorem overlay_push {ws : List Write} (h : ws.any Write.isWin = false) (x : BitVec 8192) : overlay x ws = x := by
  induction ws generalizing x with
  | nil => rfl
  | cons w ws ih =>
    cases w with
    | win lo len n => simp [Write.isWin] at h
    | push q w n =>
      simp only [List.any_cons, Write.isWin, Bool.false_or] at h
      simp only [overlay, List.foldl_cons, applyWin, BitVec.ofNat_toNat, BitVec.setWidth_eq]
      exact ih h x

/-- The window after an instruction's fixed-class writes (R61, R155). -/
theorem putWrites_allWritten (th : Thread) (lat cycles now : Nat) (ws : List Write) :
    (th.putWrites lat cycles now ws).allWritten = overlay th.allWritten ws := by
  simp only [Thread.putWrites]
  split
  · have g := addPending_allWritten th ⟨th.pos, lat, (windowWrites ws).1, (windowWrites ws).2, now + lat + cycles - 1⟩
    have h := foldl_addWrite ws th.allWritten (0, 0)
    simp only [windowWrites] at g ⊢
    rw [h, under_zero] at g
    exact g
  · rename_i h
    rw [overlay_push (by simpa using h)]

end Sys2Proof.Machine
end

