-- ==== Sys2Proof/Laws/Issue.lean ====
section
/-! SUPPORT. What issuing an instruction does, said once: `commit` performs its result on the thread, moves it on, and
leaves everything else (`commit_completes`). -/

namespace Sys2Proof.Machine

open Sys2Proof

/-! ## Steady changes -/

/-- A change that leaves the other threads (but for their queues), every core beside its marks of issue, and the
executing slot. -/
structure Steady (s t : State) : Prop where
  here   : t.curCore = s.curCore ∧ t.curSlot = s.curSlot ∧ t.now = s.now
  others : ∀ c u, (c = s.curCore ∧ u = s.curSlot) ∨ (t.thread c u).aside = (s.thread c u).aside
  cores  : ∀ c, (t.core c).kept = (s.core c).kept ∧ (t.core c).threads.length = (s.core c).threads.length

theorem Steady.rfl (s : State) : Steady s s := ⟨⟨Eq.refl _, Eq.refl _, Eq.refl _⟩, fun _ _ => .inr (Eq.refl _), fun _ => ⟨Eq.refl _, Eq.refl _⟩⟩

theorem Steady.trans {s t u : State} (h : Steady s t) (g : Steady t u) : Steady s u := by
  obtain ⟨⟨a, b, c⟩, o, k⟩ := h
  obtain ⟨⟨a', b', c'⟩, o', k'⟩ := g
  refine ⟨⟨a'.trans a, b'.trans b, c'.trans c⟩, fun d v => ?_, fun d => ⟨(k' d).1.trans (k d).1, (k' d).2.trans (k d).2⟩⟩
  rcases o d v with h1 | h1
  · exact .inl h1
  · rcases o' d v with h2 | h2
    · exact .inl (by rw [a, b] at h2; exact h2)
    · exact .inr (h2.trans h1)

/-- A state with the same cores, slot and time. -/
theorem Steady.of_cores {s t : State} (h : t.cores = s.cores) (a : t.curCore = s.curCore) (b : t.curSlot = s.curSlot)
    (c : t.now = s.now) : Steady s t :=
  ⟨⟨a, b, c⟩, fun d v => .inr (by rw [State.thread_congr h]), fun d => by rw [State.core_congr h]; exact ⟨Eq.refl _, Eq.refl _⟩⟩

/-- The executing slot stays in its core. -/
theorem Steady.slot {s t : State} (h : Steady s t) (g : s.curSlot < s.myCore.threads.length) :
    t.curSlot < t.myCore.threads.length := by
  simp only [State.myCore, h.here.1, h.here.2.1, (h.cores _).2]; exact g

/-- A thread other than the executing one changed in its queues alone. -/
theorem Steady.modThread_aside (s : State) (c t : Nat) (f : Thread → Thread)
    (h : (c = s.curCore ∧ t = s.curSlot) ∨ (f (s.thread c t)).aside = (s.thread c t).aside) : Steady s (s.modThread c t f) := by
  refine ⟨⟨Eq.refl _, Eq.refl _, Eq.refl _⟩, fun d v => ?_, fun d => ?_⟩
  · rw [State.thread_modThread]
    by_cases e : d = c ∧ v = t
    · obtain ⟨rfl, rfl⟩ := e
      rcases h with h | h
      · exact .inl h
      · right; split <;> simp_all
    · right
      rw [if_neg (fun g => e ⟨g.1, g.2.1⟩)]
  · rw [State.core_modThread]
    by_cases e : d = c
    · subst e; simp [Core.kept, Core.setThread]
    · simp [e]

/-- A change of the executing thread. -/
theorem Steady.modMe (s : State) (f : Thread → Thread) : Steady s (s.modMe f) :=
  Steady.modThread_aside s _ _ f (.inl ⟨Eq.refl _, Eq.refl _⟩)

/-- An event due at a time. -/
theorem Steady.atTime (s : State) (t : Nat) (i : Instr) : Steady s (s.atTime t i) :=
  Steady.of_cores (Eq.refl _) (Eq.refl _) (Eq.refl _) (Eq.refl _)


/-! ## Ports -/

/-- A core is not its own neighbour. -/
theorem neighbour_ne {c dir d : Nat} (h : neighbour c dir = some d) : d ≠ c := by
  unfold neighbour coreAt coreX coreY at h
  grind

/-- A port never leads to its own slot (R69). -/
theorem portTarget_ne {c t q d u r : Nat} (h : portTarget c t q = some (d, u, r)) : ¬ (d = c ∧ u = t) := by
  simp only [portTarget] at h
  split at h
  · cases h; omega
  · simp only [Option.map_eq_some_iff] at h
    obtain ⟨e, he, hh⟩ := h
    cases hh
    exact fun g => neighbour_ne he g.1

/-- The target of a push that has room is where the port leads. -/
theorem pushTest_room {s : State} {c t q w e d u r : Nat} (h : pushTest s c t q w e = .room d u r) :
    portTarget c t q = some (d, u, r) := by
  simp only [pushTest] at h
  split at h
  · split at h <;> cases h
  · rename_i d' u' r' hp
    split at h
    · split at h
      · cases h; exact hp
      · cases h
    · split at h
      · cases h
      · split at h <;> cases h

/-- What a push does: nothing, a group in the queue of another slot, or a DROPPED bit. -/
theorem doPush_cases (c t q w v : Nat) (s : State) :
    doPush c t q w v s = s ∨ doPush c t q w v s = s.modThread c t (·.dropped q) ∨
      ∃ d u r, ¬ (d = c ∧ u = t) ∧ doPush c t q w v s = enterGroup c t d u r w v s := by
  simp only [doPush]
  split
  · rename_i d u r h
    exact .inr (.inr ⟨d, u, r, portTarget_ne (pushTest_room h), rfl⟩)
  · exact .inr (.inl rfl)
  · exact .inl rfl

/-- What a stage of an instruction leaves: the other threads and the cores, what stands beside the cores, and the
executing thread but for what `f` says. -/
structure Stage (f : Thread → Thread → Prop) (s t : State) : Prop where
  steady : Steady s t
  beside : t.beside = s.beside
  me     : f s.me t.me

theorem Stage.trans {f g h : Thread → Thread → Prop} {s t u : State} (a : Stage f s t) (b : Stage g t u)
    (k : ∀ x y z, f x y → g y z → h x z) : Stage h s u :=
  ⟨a.steady.trans b.steady, b.beside.trans a.beside, k _ _ _ a.me b.me⟩

/-- The executing thread is where the executing slot says. -/
theorem Steady.me_eq {s t : State} (h : Steady s t) : t.me = t.thread s.curCore s.curSlot := by
  simp only [State.me, h.here.1, h.here.2.1]

/-- The executing thread replaced, and a timer set. -/
theorem Stage.setMe {f : Thread → Thread → Prop} {s : State} (x : Thread) (n : Nat) (i : Instr)
    (h : s.curSlot < s.myCore.threads.length) (hf : f s.me x) :
    Stage f s ((s.setThread s.curCore s.curSlot x).atTime n i) := by
  have st : Steady s ((s.setThread s.curCore s.curSlot x).atTime n i) :=
    (Steady.modMe s (fun _ => x)).trans (.atTime _ _ _)
  have e : ((s.setThread s.curCore s.curSlot x).atTime n i).me = x := by
    rw [st.me_eq]
    show (s.setThread _ _ _).thread _ _ = _
    rw [State.thread_setThread, if_pos ⟨rfl, rfl, h⟩]
  exact ⟨st, rfl, by rw [e]; exact hf⟩

/-- Only DROPPED bits differ. -/
def droppedOnly (a b : Thread) : Prop := b = { a with portcfg := b.portcfg }

theorem doPush_stage (q w v : Nat) (s : State) (h : s.curSlot < s.myCore.threads.length) :
    Stage droppedOnly s (doPush s.curCore s.curSlot q w v s) := by
  rcases doPush_cases s.curCore s.curSlot q w v s with e | e | ⟨d, u, r, hne, e⟩ <;> rw [e]
  · exact ⟨.rfl s, rfl, rfl⟩
  · refine ⟨.modMe s _, rfl, ?_⟩
    have := State.me_modMe (s := s) (fun th => th.dropped q) h
    simp only [State.modMe] at this
    rw [this]; rfl
  · have st : Steady s (enterGroup s.curCore s.curSlot d u r w v s) := by
      simp only [enterGroup]
      exact (Steady.modThread_aside s d u (fun th => th.setQueue r _) (.inr rfl)).trans (.atTime _ _ _)
    have e2 : (enterGroup s.curCore s.curSlot d u r w v s).me = s.me := by
      rw [st.me_eq]
      show (s.setThread d u _).thread _ _ = _
      rw [State.thread_setThread, if_neg (fun g => hne ⟨g.1.symm, g.2.1.symm⟩)]
      rfl
    exact ⟨st, rfl, by rw [e2]; rfl⟩

theorem doPushes_stage (ws : List Write) (s : State) (h : s.curSlot < s.myCore.threads.length) :
    Stage droppedOnly s (doPushes s.curCore s.curSlot ws s) := by
  induction ws generalizing s with
  | nil => exact ⟨.rfl s, rfl, rfl⟩
  | cons w ws ih =>
    cases w with
    | win lo len x => exact ih s h
    | push q w v =>
      have a := doPush_stage q w v s h
      have b := ih (doPush s.curCore s.curSlot q w v s) (a.steady.slot h)
      rw [a.steady.here.1, a.steady.here.2.1] at b
      refine a.trans b ?_
      intro x y z e1 e2
      simp only [droppedOnly] at *
      rw [e2, e1]

/-- Writes that push nothing change no queue. -/
theorem doPushes_noPush {ws : List Write} (h : noPush ws = true) (c t : Nat) (s : State) : doPushes c t ws s = s := by
  induction ws with
  | nil => rfl
  | cons w ws ih =>
    cases w with
    | win lo len x =>
      simp only [noPush, List.all_cons, Write.isWin, Bool.true_and] at h
      exact ih h
    | push q w v => simp [noPush, Write.isWin] at h

/-- Only queues and what they bring differ. -/
def poppedOnly (a b : Thread) : Prop := b = { a with qin := b.qin, sync := b.sync }

theorem popHead_stage (q : Nat) (s : State) (h : s.curSlot < s.myCore.threads.length) :
    Stage poppedOnly s (popHead s.curCore s.curSlot q s) := by
  simp only [popHead]
  split
  · exact ⟨.rfl s, rfl, rfl⟩
  · exact Stage.setMe _ _ _ h rfl

theorem pops_stage (l : List (Nat × Nat × Option Group)) (s : State) (h : s.curSlot < s.myCore.threads.length) :
    Stage poppedOnly s (l.foldl (fun u p => popHead s.curCore s.curSlot p.1 u) s) := by
  induction l generalizing s with
  | nil => exact ⟨.rfl s, rfl, rfl⟩
  | cons p l ih =>
    have a := popHead_stage p.1 s h
    have b := ih (popHead s.curCore s.curSlot p.1 s) (a.steady.slot h)
    rw [a.steady.here.1, a.steady.here.2.1] at b
    refine a.trans b ?_
    intro x y z e1 e2
    simp only [poppedOnly] at *
    rw [e2, e1]


/-- A change of the executing thread as a stage. -/
theorem Stage.modMe {f : Thread → Thread → Prop} {s : State} (g : Thread → Thread) (h : s.curSlot < s.myCore.threads.length)
    (hf : f s.me (g s.me)) : Stage f s (s.modMe g) :=
  ⟨.modMe s g, rfl, by rw [State.me_modMe g h]; exact hf⟩

/-! ## A class T result starts -/

/-- A landing joins those on their way; an untagged one holds the thread. -/
def landingOnly (l : Landing) (a b : Thread) : Prop :=
  b = { a with landings := a.landings ++ [l], held := b.held }

theorem startLanding_stage (sp : Spec) (r : LandReq) (n : Nat) (s : State) (h : s.curSlot < s.myCore.threads.length) :
    Stage (landingOnly (landingOf sp s r)) s (startLanding sp r n s) := by
  have b := Stage.modMe (f := landingOnly (landingOf sp s r)) (s := s.newId.2) (·.awaits (landingOf sp s r)) h rfl
  have c : Steady s s.newId.2 := .of_cores rfl rfl rfl rfl
  have a : Stage (landingOnly (landingOf sp s r)) s (s.newId.2.modMe (·.awaits (landingOf sp s r))) :=
    ⟨c.trans b.steady, b.beside, b.me⟩
  simp only [startLanding]
  split
  · rename_i m hm
    exact ⟨a.steady.trans (Steady.atTime _ _ _), a.beside, a.me⟩
  · exact a

/-- An event set for a time is among the timers. -/
theorem mem_addTimer (t : Nat) (i : Instr) (l : List (Nat × Instr)) : (t, i) ∈ addTimer t i l := by
  induction l with
  | nil => simp [addTimer]
  | cons p l ih => simp only [addTimer]; split <;> simp [ih]

/-- Events set stay set. -/
theorem mem_addTimer_of {t : Nat} {i : Instr} {p : Nat × Instr} {l : List (Nat × Instr)} (h : p ∈ l) : p ∈ addTimer t i l := by
  induction l with
  | nil => simp at h
  | cons q l ih =>
    simp only [addTimer]
    split
    · exact List.mem_cons_of_mem _ h
    · rcases List.mem_cons.1 h with rfl | h
      · simp
      · exact List.mem_cons_of_mem _ (ih h)

theorem startLanding_timer (sp : Spec) (r : LandReq) (n k : Nat) (s : State) (h : r.cycles = some k) :
    (s.now + (k + n), Instr.resultLanding s.curCore s.curSlot s.nextId) ∈ (startLanding sp r n s).timers := by
  simp only [startLanding, h]
  exact mem_addTimer _ _ _

theorem doPushes_timers {p : Nat × Instr} (c t : Nat) (ws : List Write) {s : State} (h : p ∈ s.timers) :
    p ∈ (doPushes c t ws s).timers := by
  induction ws generalizing s with
  | nil => exact h
  | cons w ws ih =>
    cases w with
    | win lo len x => exact ih h
    | push q w v =>
      refine ih ?_
      show p ∈ (doPush c t q w v s).timers
      rcases doPush_cases c t q w v s with e | e | ⟨d, u, r, -, e⟩ <;> rw [e]
      · exact h
      · exact h
      · exact mem_addTimer_of h

/-! ## The marks of issue -/

/-- The thread's marks of issue alone differ. -/
def marksOnly (a b : Thread) : Prop :=
  b = { a with yieldFor := b.yieldFor, issuedIn := b.issuedIn, tried := b.tried, wait := b.wait, vecHeld := b.vecHeld,
               drowsy := b.drowsy, stepping := b.stepping, busyTo := b.busyTo }

/-- A slot of a core whose threads are another's, all changed in one way that leaves a reset thread. -/
theorem thread_map {k k' : Core} (f : Thread → Thread) (h : k'.threads = k.threads.map f) (hf : f .reset = .reset) (u : Nat) :
    k'.thread u = f (k.thread u) := by
  simp only [Core.thread, h, List.getD_eq_getElem?_getD, List.getElem?_map]
  cases k.threads[u]? <;> simp [hf]

/-- A change of the executing thread's core that leaves its threads. -/
theorem Stage.modMyCore {s : State} (g : Core → Core) (hk : (g s.myCore).kept = s.myCore.kept)
    (ht : (g s.myCore).threads = s.myCore.threads) : Stage (fun a b => b = a) s (s.modMyCore g) := by
  have e : ∀ c u, (s.modMyCore g).thread c u = s.thread c u := by
    intro c u
    simp only [State.thread, State.modMyCore, State.core_modCore]
    split
    · rename_i h; subst h; simp only [Core.thread]; simp only [State.myCore] at ht; rw [ht]
    · rfl
  refine ⟨⟨⟨rfl, rfl, rfl⟩, fun c u => .inr (by rw [e]), fun c => ?_⟩, rfl, e _ _⟩
  simp only [State.modMyCore, State.core_modCore]
  split
  · rename_i h; subst h; simp only [State.myCore] at hk ht; rw [hk, ht]; exact ⟨rfl, rfl⟩
  · exact ⟨rfl, rfl⟩

/-- A core's threads as an issue leaves them: the issuing slot leaves the lists of those that yield to it. -/
theorem issuedBy_thread (k : Core) (t u : Nat) (b : Bool) :
    (k.issuedBy t b).thread u = { k.thread u with yieldFor := (k.thread u).yieldFor.filter fun v => v ≠ t || b } := by
  refine thread_map (fun th => { th with yieldFor := th.yieldFor.filter fun v => v ≠ t || b }) ?_ rfl u
  simp only [Core.issuedBy, Core.ungrant]

theorem issuedBy_length (k : Core) (t : Nat) (b : Bool) : (k.issuedBy t b).threads.length = k.threads.length := by
  simp only [Core.issuedBy, List.length_map, Core.ungrant]

theorem issuedBy_kept (k : Core) (t : Nat) (b : Bool) : (k.issuedBy t b).kept = k.kept := by
  simp only [Core.kept, Core.issuedBy, Core.ungrant]; split <;> rfl

/-- The threads of a core once a slot of it has issued. -/
theorem markIssued_thread (c t : Nat) (s : State) (d u : Nat) :
    ∃ yf, (markIssued c t s).thread d u =
      if d = c ∧ u = t ∧ t < (s.core c).threads.length then
        { s.thread d u with yieldFor := yf, issuedIn := s.now + 1, tried := true, wait := none, vecHeld := false,
                            stepping := false }
      else if d = c then { s.thread d u with yieldFor := yf } else s.thread d u := by
  refine ⟨(s.thread d u).yieldFor.filter fun v => v ≠ t || (s.core c).streams t s.now, ?_⟩
  by_cases h : d = c
  · subst h
    simp only [markIssued, State.thread, State.core_modCore, if_true, true_and]
    rw [Core.thread_setThread, issuedBy_length]
    by_cases g : u = t ∧ t < (s.core d).threads.length
    · rw [if_pos g, if_pos g, issuedBy_thread, g.1]
    · rw [if_neg g, if_neg g, issuedBy_thread]
  · simp only [markIssued, State.thread, State.core_modCore, h, false_and, if_false]

theorem markIssued_stage (s : State) (h : s.curSlot < s.myCore.threads.length) :
    Stage marksOnly s (markIssued s.curCore s.curSlot s) := by
  have st : Steady s (markIssued s.curCore s.curSlot s) := by
    refine ⟨⟨rfl, rfl, rfl⟩, fun c u => ?_, fun c => ?_⟩
    · obtain ⟨yf, e⟩ := markIssued_thread s.curCore s.curSlot s c u
      by_cases hc : c = s.curCore ∧ u = s.curSlot
      · exact .inl hc
      · right
        rw [e, if_neg (fun g => hc ⟨g.1, g.2.1⟩)]
        split <;> rfl
    · by_cases hc : c = s.curCore
      · subst hc
        simp only [markIssued, State.core_modCore, if_true]
        refine ⟨?_, ?_⟩
        · rw [show ∀ (k : Core) n x, (k.setThread n x).kept = k.kept from fun _ _ _ => rfl, issuedBy_kept]
        · simp only [Core.setThread, List.length_set, issuedBy_length]
      · simp only [markIssued, State.core_modCore, if_neg hc, and_self]
  refine ⟨st, rfl, ?_⟩
  obtain ⟨yf, e⟩ := markIssued_thread s.curCore s.curSlot s s.curCore s.curSlot
  rw [st.me_eq, e, if_pos ⟨rfl, rfl, h⟩]
  rfl

theorem occupy_stage (sp : Spec) (n rest : Nat) (s : State) (h : s.curSlot < s.myCore.threads.length) :
    Stage marksOnly s (occupy sp n rest s) := by
  have a := Stage.modMe (f := marksOnly) (s := s) (fun th => { th with busyTo := s.now + n, drowsy := th.drowsy && !sp.reaches th }) h rfl
  simp only [occupy]
  split
  · have b := Stage.modMyCore (s := s.modMe fun th => { th with busyTo := s.now + n, drowsy := th.drowsy && !sp.reaches th })
      (fun k => { k with vecFree := s.now + n + rest, vecLast := s.curSlot, vecAsk := true, vecGrant := none }) rfl rfl
    exact a.trans b (fun x y z e1 e2 => by subst e2; exact e1)
  · exact a


/-! ## The thread moves on -/

/-- A change of the thread before the loop test that leaves what issuing itself moves (R154). -/
structure Mild (pre : Thread → Thread) : Prop where
  moves : ∀ a, pre a = { pre a with window := a.window, pend := a.pend, pos := a.pos, pc := a.pc, fflags := a.fflags,
                                    landings := a.landings, qin := a.qin }
  rep   : ∀ a, (pre a).loops.repstate = a.loops.repstate
  rest  : ∀ a b, a.kept = b.kept → a.loops = b.loops → (pre a).kept = (pre b).kept ∧ (pre a).loops = (pre b).loops
  port  : ∀ a b, a.portcfg = b.portcfg → (pre a).portcfg = (pre b).portcfg

/-- No change at all. -/
theorem Mild.id : Mild id := ⟨fun _ => rfl, fun _ => rfl, fun _ _ h l => ⟨h, l⟩, fun _ _ h => h⟩

/-- Only the fixed-class writes of an instruction and its flags differ. -/
def writesOnly (ws : List Write) (fl : Nat) (a b : Thread) : Prop :=
  b = { a with window := b.window, pend := b.pend, badGroups := b.badGroups, fflags := a.fflags ||| BitVec.ofNat 64 fl } ∧
    b.allWritten = overlay a.allWritten ws

theorem putWrites_raise (th : Thread) (lat cycles now : Nat) (ws : List Write) (fl : Nat) :
    writesOnly ws fl th ((th.putWrites lat cycles now ws).raise fl) := by
  constructor
  · simp only [Thread.putWrites, Thread.raise, Thread.addPending]
    split
    · split
      · split <;> rfl
      · rfl
    · rfl
  · exact putWrites_allWritten th lat cycles now ws

/-- What `finish` leaves, and where the thread goes. -/
theorem finish_moves (th : Thread) (r : Res) (pb : Bool) (n : Nat) (bf : Option BeatBuf) (h : Mild r.pre) :
    (th.finish r pb n bf).allWritten = th.allWritten ∧ (th.finish r pb n bf).fflags = th.fflags ∧
    (th.finish r pb n bf).qin = th.qin ∧ (th.finish r pb n bf).onWay = th.onWay ∧
    (th.finish r pb n bf).kept = (r.pre th.charge).kept ∧ (th.finish r pb n bf).portcfg = (r.pre th.charge).portcfg := by
  have hm := h.moves th.charge
  have hw : (r.pre th.charge).window = th.window := by rw [hm]; simp only [Thread.charge]; split <;> rfl
  have hp : (r.pre th.charge).pend = th.pend := by rw [hm]; simp only [Thread.charge]; split <;> rfl
  have hf : (r.pre th.charge).fflags = th.fflags := by rw [hm]; simp only [Thread.charge]; split <;> rfl
  have hq : (r.pre th.charge).qin = th.qin := by rw [hm]; simp only [Thread.charge]; split <;> rfl
  have hl : (r.pre th.charge).landings = th.landings := by rw [hm]; simp only [Thread.charge]; split <;> rfl
  have key : ∀ b : Thread, b.window = th.window → b.pend = th.pend → b.landings = th.landings →
      b.dropLanded.settle.allWritten = th.allWritten ∧ b.dropLanded.settle.onWay = th.onWay := by
    intro b b1 b2 b3
    refine ⟨?_, ?_⟩
    · rw [settle_allWritten]
      simp only [Thread.allWritten, Thread.dropLanded, b1, b2]
    · simp only [Thread.onWay, Thread.settle, Thread.dropLanded, b3, List.filter_filter]
      apply List.filter_congr
      intro l _
      cases l.landed <;> simp
  simp only [Thread.finish]
  generalize r.pre th.charge = a at *
  split
  · refine ⟨(key _ ?_ ?_ ?_).1, hf, hq, (key _ ?_ ?_ ?_).2, rfl, rfl⟩ <;> first | exact hw | exact hp | exact hl
  · have ha : ∃ lb pc pos bp, a.advance pb n = { a with loops := lb, pc := pc, pos := pos, bpSkip := bp } := by
      simp only [Thread.advance]
      split
      · split
        · exact ⟨_, a.pc, a.pos, a.bpSkip, rfl⟩
        · split
          · exact ⟨_, a.pc, a.pos, a.bpSkip, rfl⟩
          · exact ⟨_, _, _, _, rfl⟩
      · exact ⟨_, _, _, _, rfl⟩
    obtain ⟨lb, pc, pos, bp, e⟩ := ha
    rw [e]
    refine ⟨(key _ ?_ ?_ ?_).1, hf, hq, (key _ ?_ ?_ ?_).2, rfl, rfl⟩ <;> first | exact hw | exact hp | exact hl

/-- Where `finish` takes the thread, outside a repetition or with a transfer. -/
theorem finish_goes (th : Thread) (r : Res) (pb : Bool) (n : Nat) (bf : Option BeatBuf) (h : Mild r.pre)
    (hr : th.inRep = false ∨ r.jump.isSome = true) :
    (th.finish r pb n bf).pos = th.pos + 1 ∧ ((th.finish r pb n bf).loops, (th.finish r pb n bf).pc) =
      ({ ((r.pre th.charge).goes r.jump).1 with bar := none, beats := bf }, ((r.pre th.charge).goes r.jump).2) := by
  have hm := h.moves th.charge
  have hpos : (r.pre th.charge).pos = th.pos := by rw [hm]; simp only [Thread.charge]; split <;> rfl
  have hrep : (r.pre th.charge).inRep = th.inRep := by
    simp only [Thread.inRep, h.rep]; simp only [Thread.charge]; split <;> rfl
  simp only [Thread.finish, Thread.goes]
  clear hm
  generalize r.pre th.charge = a at *
  cases hj : r.jump with
  | some p =>
    obtain ⟨p, c⟩ := p
    exact ⟨by simp [Thread.transfer, Thread.settle, Thread.dropLanded, hpos], rfl⟩
  | none =>
    have hr' : a.inRep = false := by rw [hrep]; simpa [hj] using hr
    simp [Thread.advance, hr', Thread.settle, Thread.dropLanded, hpos]


/-! ## Pushes do not see the window -/

/-- A thread without its window and flags. -/
def Thread.blind (th : Thread) : Thread := { th with window := 0, pend := [], badGroups := [], fflags := 0 }

/-- Two states that differ in windows and flags alone. -/
structure Alike (s t : State) : Prop where
  beside  : t.beside = s.beside
  cores   : ∀ c, (t.core c).kept = (s.core c).kept ∧ (t.core c).threads.length = (s.core c).threads.length
  threads : ∀ c u, (t.thread c u).blind = (s.thread c u).blind

namespace Alike
variable {s t : State} (h : Alike s t)
include h

theorem launches : t.launches = s.launches := congrArg (·.launches) h.beside
theorem net : t.net = s.net := congrArg (·.net) h.beside
theorem ready : t.ready = s.ready := congrArg (·.ready) h.beside
theorem standby : t.standby = s.standby := congrArg (·.standby) h.beside
theorem now : t.now = s.now := congrArg (·.now) h.beside
theorem owner (c : Nat) : (t.core c).owner = (s.core c).owner := congrArg (·.owner) (h.cores c).1
theorem stopped (c : Nat) : (t.core c).stopped = (s.core c).stopped := congrArg (·.stopped) (h.cores c).1
theorem kind (c u : Nat) : (t.thread c u).kind = (s.thread c u).kind := congrArg (·.kind) (h.threads c u)
theorem portcfg (c u : Nat) : (t.thread c u).portcfg = (s.thread c u).portcfg := congrArg (·.portcfg) (h.threads c u)
theorem landings (c u : Nat) : (t.thread c u).landings = (s.thread c u).landings := congrArg (·.landings) (h.threads c u)
theorem qin (c u : Nat) : (t.thread c u).qin = (s.thread c u).qin := congrArg (·.qin) (h.threads c u)
theorem sync (c u : Nat) : (t.thread c u).sync = (s.thread c u).sync := congrArg (·.sync) (h.threads c u)

theorem queue (c u q : Nat) : (t.thread c u).queue q = (s.thread c u).queue q := by
  simp only [Thread.queue, h.qin]

theorem occ (c : Nat) : t.occ c = s.occ c := by simp only [State.occ, h.owner]

theorem desc (l : Nat) : t.desc l = s.desc l := by simp only [State.desc, State.launch?, h.launches]

theorem slotLive (c u : Nat) : Machine.slotLive t c u = Machine.slotLive s c u := by
  simp only [Machine.slotLive, h.owner, h.kind]

theorem mayReturn (l : Nat) : t.mayReturn l = s.mayReturn l := by
  simp only [State.mayReturn, State.launch?, h.launches, h.stopped]

theorem reserved (c u q : Nat) : (t.thread c u).reserved q = (s.thread c u).reserved q := by
  simp only [Thread.reserved, h.landings]

theorem coreReady (c : Nat) : t.coreReady c = s.coreReady c := by
  simp only [State.coreReady, State.fieldReady, h.ready, h.standby]

theorem pushTest (c u q w e : Nat) : Machine.pushTest t c u q w e = Machine.pushTest s c u q w e := by
  simp only [Machine.pushTest, h.slotLive, h.mayReturn, h.reserved, h.coreReady, h.occ, h.desc, h.portcfg, h.stopped, h.queue]

theorem outstanding (c u : Nat) : Machine.outstanding t c u = Machine.outstanding s c u := by
  simp only [Machine.outstanding, State.agent, h.occ, h.net, h.sync]

theorem setThread (c u : Nat) {x y : Thread} (hx : y.blind = x.blind) : Alike (s.setThread c u x) (t.setThread c u y) := by
  refine ⟨h.beside, fun d => ?_, fun d v => ?_⟩
  · simp only [State.core_setThread]
    split
    · rename_i e; subst e; simpa [Core.kept, Core.setThread] using h.cores d
    · exact h.cores d
  · simp only [State.thread_setThread, (h.cores c).2]
    split
    · exact hx
    · exact h.threads d v

theorem atTime (n : Nat) (i : Instr) : Alike (s.atTime n i) (t.atTime n i) := ⟨h.beside, h.cores, h.threads⟩

theorem doPush (c u q w v : Nat) : Alike (Machine.doPush c u q w v s) (Machine.doPush c u q w v t) := by
  simp only [Machine.doPush, h.pushTest]
  split
  · rename_i d v' r hr
    simp only [enterGroup, h.queue, h.now, h.outstanding]
    refine (h.setThread _ _ ?_).atTime _ _
    show ((t.thread d v').blind).setQueue r _ = ((s.thread d v').blind).setQueue r _
    rw [h.threads]
  · refine h.setThread _ _ ?_
    show ((t.thread c u).blind).dropped q = ((s.thread c u).blind).dropped q
    rw [h.threads]
  · exact h

theorem doPushes (c u : Nat) (ws : List Write) : Alike (Machine.doPushes c u ws s) (Machine.doPushes c u ws t) := by
  induction ws generalizing s t with
  | nil => exact h
  | cons w ws ih =>
    cases w with
    | win lo len x => exact ih h
    | push q w v => exact ih (h.doPush c u q w v)

end Alike

theorem Alike.modMe (s : State) (f : Thread → Thread) (hf : (f s.me).blind = s.me.blind) : Alike s (s.modMe f) := by
  refine ⟨rfl, fun c => ?_, fun c u => ?_⟩
  · simp only [State.modMe, State.core_modThread]
    split
    · rename_i e; subst e; exact ⟨rfl, by simp⟩
    · exact ⟨rfl, rfl⟩
  · simp only [State.modMe, State.thread_modThread]
    split
    · rename_i e; obtain ⟨rfl, rfl, -⟩ := e; exact hf
    · rfl


/-! ## An instruction completes -/

theorem logStale_sameCores (n : Nat) (s : State) : SameCores s (logStale n s) :=
  repeat_sameCores _ (fun u => logNd_sameCores _ _ _ u) n s

/-- What the stages before the writes, and those after, leave of the executing thread. -/
structure Chain (a b : Thread) : Prop where
  kept   : b.kept = a.kept
  window : b.allWritten = a.allWritten
  flags  : b.fflags = a.fflags
  pos    : b.pos = a.pos
  pc     : b.pc = a.pc
  loops  : b.loops = a.loops

theorem Chain.trans {a b c : Thread} (h : Chain a b) (g : Chain b c) : Chain a c :=
  ⟨g.kept.trans h.kept, g.window.trans h.window, g.flags.trans h.flags, g.pos.trans h.pos, g.pc.trans h.pc, g.loops.trans h.loops⟩

theorem poppedOnly.chain {a b : Thread} (h : poppedOnly a b) : Chain a b := by
  rw [h]; exact ⟨rfl, rfl, rfl, rfl, rfl, rfl⟩

theorem droppedOnly.chain {a b : Thread} (h : droppedOnly a b) : Chain a b := by
  rw [h]; exact ⟨rfl, rfl, rfl, rfl, rfl, rfl⟩

theorem marksOnly.chain {a b : Thread} (h : marksOnly a b) : Chain a b := by
  rw [h]; exact ⟨rfl, rfl, rfl, rfl, rfl, rfl⟩

theorem State.thread_atTime (s : State) (n : Nat) (i : Instr) (c u : Nat) : (s.atTime n i).thread c u = s.thread c u := rfl

theorem startLanding_queue (sp : Spec) (l : LandReq) (n : Nat) (s : State) (c u q : Nat) :
    ((startLanding sp l n s).thread c u).queue q = (s.thread c u).queue q := by
  have e : ((s.newId.2.modMe (·.awaits (landingOf sp s l))).thread c u).queue q = (s.thread c u).queue q := by
    rw [State.modMe, State.thread_modThread]
    split
    · rename_i e; obtain ⟨rfl, rfl, -⟩ := e; rfl
    · rfl
  simp only [startLanding]
  split
  · rw [State.after, State.thread_atTime]; exact e
  · exact e

theorem startLandings_queue (sp : Spec) (l : Option LandReq) (n : Nat) (s : State) (c u q : Nat) :
    ((startLandings sp l n s).thread c u).queue q = (s.thread c u).queue q := by
  cases l with
  | none => rfl
  | some l => exact startLanding_queue sp l n s c u q

/-- Class T results of an instruction join those on their way. -/
def landingsOnly (l : List Landing) (a b : Thread) : Prop := b = { a with landings := a.landings ++ l, held := b.held }

theorem startLandings_stage (sp : Spec) (l : Option LandReq) (n : Nat) (s : State) (h : s.curSlot < s.myCore.threads.length) :
    Stage (landingsOnly (l.map (landingOf sp s)).toList) s (startLandings sp l n s) := by
  cases l with
  | none => exact ⟨.rfl _, rfl, by simp only [landingsOnly, Option.map_none, Option.toList_none, List.append_nil]; rfl⟩
  | some l => exact startLanding_stage sp l n s h

theorem landingsOnly.chain {l : List Landing} {a b : Thread} (h : landingsOnly l a b) : Chain a b := by
  rw [h]; exact ⟨rfl, rfl, rfl, rfl, rfl, rfl⟩

theorem popHead_nextId (c t q : Nat) (s : State) : (popHead c t q s).nextId = s.nextId := by
  simp only [popHead]; split <;> rfl

theorem takePops_nextId (sp : Spec) (x : Ctx) (s : State) : (takePops sp x s).nextId = s.nextId := by
  simp only [takePops]
  split
  · rfl
  · generalize popList x.th [] (sp.reads x.th) = l
    induction l generalizing s with
    | nil => rfl
    | cons p l ih => rw [List.foldl_cons, ih, popHead_nextId]

theorem takePops_stage (sp : Spec) (s u : State) (h : u.curSlot < u.myCore.threads.length) (hc : u.curCore = s.curCore)
    (hs : u.curSlot = s.curSlot) : Stage poppedOnly u (takePops sp (mkCtx sp s) u) := by
  by_cases hk : (sp.keep || (mkCtx sp s).mid) = true
  · simp only [takePops, if_pos hk]
    exact ⟨.rfl _, rfl, rfl⟩
  · simp only [takePops, if_neg hk]
    have := pops_stage (popList s.me [] (sp.reads s.me)) u h
    rwa [hc, hs] at this

theorem written_writesOnly (th : Thread) (sp : Spec) (r : Res) (n now : Nat) :
    writesOnly r.writes r.flags th (th.written sp r n now) := putWrites_raise _ _ _ _ _ _

theorem writesOnly.rest {ws : List Write} {fl : Nat} {a b : Thread} (h : writesOnly ws fl a b) :
    b.kept = a.kept ∧ b.loops = a.loops ∧ b.pos = a.pos ∧ b.pc = a.pc ∧ b.portcfg = a.portcfg ∧ b.landings = a.landings ∧
      b.fflags = a.fflags ||| BitVec.ofNat 64 fl ∧ b.allWritten = overlay a.allWritten ws := by
  refine ⟨?_, ?_, ?_, ?_, ?_, ?_, ?_, h.2⟩ <;> rw [h.1] <;> rfl

theorem marksOnly.queue {a b : Thread} (h : marksOnly a b) (q : Nat) : b.queue q = a.queue q := by
  rw [h]; rfl

theorem Chain.charge (a : Thread) : a.charge.kept = a.kept ∧ a.charge.loops = a.loops ∧ a.charge.portcfg = a.portcfg ∧
    a.charge.pc = a.pc := by
  simp only [Thread.charge]; split <;> exact ⟨rfl, rfl, rfl, rfl⟩

theorem occupy_timers (sp : Spec) (n rest : Nat) (s : State) : (occupy sp n rest s).timers = s.timers := by
  simp only [occupy]; split <;> rfl

theorem occupy_queue (sp : Spec) (n rest : Nat) (s : State) (c u q : Nat) :
    ((occupy sp n rest s).thread c u).queue q = (s.thread c u).queue q := by
  have e : ((s.modMe fun th => { th with busyTo := s.now + n, drowsy := th.drowsy && !sp.reaches th }).thread c u).queue q = (s.thread c u).queue q := by
    rw [State.modMe, State.thread_modThread]
    split
    · rename_i e; obtain ⟨rfl, rfl, -⟩ := e; rfl
    · rfl
  simp only [occupy]
  split
  · rw [← e]
    simp only [State.thread, State.modMyCore, State.core_modCore]
    split
    · rename_i h; subst h; rfl
    · rfl
  · exact e

theorem markIssued_queue (c t : Nat) (s : State) (d u q : Nat) :
    ((markIssued c t s).thread d u).queue q = (s.thread d u).queue q := by
  obtain ⟨yf, e⟩ := markIssued_thread c t s d u
  rw [e]
  split
  · rfl
  · split <;> rfl

/-- An instruction that completes performs its result on its thread, moves on and leaves everything else; then its
further effect `post` follows. -/
theorem commit_completes (sp : Spec) (r : Res) (s : State) (h : s.curSlot < s.myCore.threads.length) (hp : Mild r.pre) :
    ∃ t, Completes sp r s t ∧ commit sp (mkCtx sp s) r s = r.post t := by
  obtain ⟨s0, e0⟩ : ∃ u, u = logStale (mkCtx sp s).stale s := ⟨_, rfl⟩
  have h0 : SameCores s s0 := e0 ▸ logStale_sameCores _ s
  have st0 : Steady s s0 := .of_cores h0.cores h0.core h0.slot h0.now
  have me0 : s0.me = s.me := by rw [st0.me_eq, State.thread_congr h0.cores]; rfl
  have hs0 := st0.slot h
  obtain ⟨s1, e1⟩ : ∃ u, u = takePops sp (mkCtx sp s) s0 := ⟨_, rfl⟩
  have p1 : Stage poppedOnly s0 s1 := e1 ▸ takePops_stage sp s s0 hs0 h0.core h0.slot
  have hs1 := p1.steady.slot hs0
  have c1 := st0.trans p1.steady
  have n1 : s1.nextId = s.nextId := by rw [e1, takePops_nextId, h0.next]
  obtain ⟨x, ex⟩ : ∃ x, x = sp.cycles (mkCtx sp s) - (mkCtx sp s).beats := ⟨_, rfl⟩
  obtain ⟨s2, e2⟩ : ∃ u, u = startLandings sp r.land x s1 := ⟨_, rfl⟩
  have p2 := startLandings_stage sp r.land x s1 hs1
  rw [← e2] at p2
  have hs2 := p2.steady.slot hs1
  have c2 := c1.trans p2.steady
  obtain ⟨n, en⟩ : ∃ n, n = sp.cycles (mkCtx sp s) := ⟨_, rfl⟩
  obtain ⟨s3, e3⟩ : ∃ u, u = s2.modMe fun th => th.written sp r n s.now := ⟨_, rfl⟩
  have p3 : Stage (writesOnly r.writes r.flags) s2 s3 := e3 ▸ .modMe _ hs2 (written_writesOnly _ _ _ _ _)
  have a3 : Alike s2 s3 := by
    rw [e3]; refine .modMe _ _ ?_
    rw [(written_writesOnly s2.me sp r n s.now).1]; rfl
  have hs3 := p3.steady.slot hs2
  have c3 := c2.trans p3.steady
  obtain ⟨s4, e4⟩ : ∃ u, u = doPushes s.curCore s.curSlot r.writes s3 := ⟨_, rfl⟩
  have p4 : Stage droppedOnly s3 s4 := by
    have := doPushes_stage r.writes s3 hs3
    rw [c3.here.1, c3.here.2.1] at this; rw [e4]; exact this
  have hs4 := p4.steady.slot hs3
  have c4 := c3.trans p4.steady
  obtain ⟨s5a, e5a⟩ : ∃ u, u = markIssued s.curCore s.curSlot s4 := ⟨_, rfl⟩
  have p5a : Stage marksOnly s4 s5a := by
    have := markIssued_stage s4 hs4
    rw [c4.here.1, c4.here.2.1] at this; rw [e5a]; exact this
  obtain ⟨rest, er⟩ : ∃ k, k = if (mkCtx sp s).last then 0 else sp.beats - ((mkCtx sp s).beat + 1) := ⟨_, rfl⟩
  obtain ⟨bf, eb⟩ : ∃ b, b = (mkCtx sp s).buf r := ⟨_, rfl⟩
  obtain ⟨s5, e5⟩ : ∃ u, u = occupy sp n rest s5a := ⟨_, rfl⟩
  have p5b : Stage marksOnly s5a s5 := e5 ▸ occupy_stage sp n rest s5a (p5a.steady.slot hs4)
  have p5 : Stage marksOnly s4 s5 := p5a.trans p5b (by
    intro x y z a b; simp only [marksOnly] at *; rw [b, a])
  have hs5 := p5.steady.slot hs4
  have c5 := c4.trans p5.steady
  obtain ⟨t, e6⟩ : ∃ u, u = s5.modMe fun th => th.finish r (sp.perBeat s.me) sp.beats bf := ⟨_, rfl⟩
  have p6 : Stage (fun a b => b = a.finish r (sp.perBeat s.me) sp.beats bf) s5 t := e6 ▸ .modMe _ hs5 rfl
  have c6 := c5.trans p6.steady
  have ec : commit sp (mkCtx sp s) r s = r.post t := by
    rw [e6, e5, e5a, e4, e3, e2, e1, e0, ex, en, er, eb]; rfl
  refine ⟨t, ?_, ec⟩
  -- the executing thread, stage by stage
  have m1 := p1.me
  rw [me0] at m1
  have k12 := m1.chain.trans p2.me.chain
  have k45 := p4.me.chain.trans p5.me.chain
  have w3 := p3.me.rest
  have kept5 : s5.me.kept = s.me.kept := k45.kept.trans (w3.1.trans k12.kept)
  have loops5 : s5.me.loops = s.me.loops := k45.loops.trans (w3.2.1.trans k12.loops)
  have pos5 : s5.me.pos = s.me.pos := k45.pos.trans (w3.2.2.1.trans k12.pos)
  have pc5 : s5.me.pc = s.me.pc := k45.pc.trans (w3.2.2.2.1.trans k12.pc)
  have ch := Chain.charge s5.me
  have m6 := p6.me
  have fm := finish_moves s5.me r (sp.perBeat s.me) sp.beats bf hp
  rw [← m6] at fm
  have kr := hp.rest s5.me.charge s.me (ch.1.trans kept5) (ch.2.1.trans loops5)
  have rep5 : s5.me.inRep = s.me.inRep := by simp only [Thread.inRep, loops5]
  have goes5 : (r.pre s5.me.charge).goes r.jump = (r.pre s.me).goes r.jump := by
    have hpc : (r.pre s5.me.charge).pc = (r.pre s.me).pc := by
      rw [hp.moves s5.me.charge, hp.moves s.me]; exact ch.2.2.2.trans pc5
    simp only [Thread.goes, kr.2, hpc]
  have land1 : s1.me.landings = s.me.landings := by rw [m1]
  have land5 : s5.me.landings = s.me.landings ++ (r.land.map (landingOf sp s)).toList := by
    have h5 : s5.me.landings = s4.me.landings := by rw [p5.me]
    have h4 : s4.me.landings = s3.me.landings := by rw [p4.me]
    have h2 : s2.me.landings = s1.me.landings ++ (r.land.map (landingOf sp s1)).toList := by rw [p2.me]
    have hl : landingOf sp s1 = landingOf sp s := by
      funext l; simp only [landingOf, n1, m1.chain.pos, m1.chain.pc]
    rw [h5, h4, w3.2.2.2.2.2.1, h2, land1, hl]
  refine ⟨c6.here, ?_, ?_, ?_, ?_, ?_, ?_, ?_, ?_, ?_, c6.others, c6.cores, ?_⟩
  · rw [fm.1, k45.window, w3.2.2.2.2.2.2.2, k12.window]
  · rw [fm.2.1, k45.flags, w3.2.2.2.2.2.2.1, k12.flags]
  · intro hr
    have := (finish_goes s5.me r (sp.perBeat s.me) sp.beats bf hp (by rw [rep5]; exact hr)).1
    rw [← m6] at this; rw [this, pos5]
  · intro hr
    have := (finish_goes s5.me r (sp.perBeat s.me) sp.beats bf hp (by rw [rep5]; exact hr)).2
    rw [← m6] at this; rw [this, goes5, eb]
  · rw [fm.2.2.2.1]
    simp only [Thread.onWay, land5, List.filter_append]
    cases r.land <;> simp [landingOf]
  · intro l k hl hk
    have h2 : (s.now + (k + x), Instr.resultLanding s.curCore s.curSlot s.nextId) ∈ s2.timers := by
      have := startLanding_timer sp l x k s1 hk
      rw [c1.here.2.2, c1.here.1, c1.here.2.1, n1] at this
      rw [e2, hl]; exact this
    have h4 : (s.now + (k + x), Instr.resultLanding s.curCore s.curSlot s.nextId) ∈ s4.timers := by
      rw [e4]; refine doPushes_timers _ _ _ ?_; rw [e3]; exact h2
    rw [show sp.extra (mkCtx sp s) = x from ex.symm, e6]; show _ ∈ s5.timers
    rw [e5, occupy_timers, e5a]; exact h4
  · rw [fm.2.2.2.2.1, kr.1]
  · intro hn
    rw [fm.2.2.2.2.2]
    apply hp.port
    have h5 : s5.me.portcfg = s4.me.portcfg := by rw [p5.me]
    have h2 : s2.me.portcfg = s1.me.portcfg := by rw [p2.me]
    have h1 : s1.me.portcfg = s.me.portcfg := by rw [m1]
    rw [ch.2.2.1, h5, e4, doPushes_noPush hn, w3.2.2.2.2.1, h2, h1]
  · intro hz hd c u q
    have z0 : s0 = s := by rw [e0, hz]; rfl
    have qt : (t.thread c u).queue q = (s4.thread c u).queue q := by
      have : (t.thread c u).queue q = (s5.thread c u).queue q := by
        rw [e6, State.modMe, State.thread_modThread]
        split
        · rename_i e; obtain ⟨rfl, rfl, -⟩ := e
          have : (s5.me.finish r (sp.perBeat s.me) sp.beats bf).qin = s5.me.qin := by rw [← m6]; exact fm.2.2.1
          simp only [Thread.queue]; rw [show s5.thread s5.curCore s5.curSlot = s5.me from rfl, this]
        · rfl
      rw [this, e5, occupy_queue, e5a, markIssued_queue]
    rw [qt]
    rcases hd with hd | hd
    · rw [e4]
      have : s2 = takePops sp (mkCtx sp s) s := by rw [e2, hd, e1, z0]; rfl
      rw [(a3.doPushes _ _ _).queue, this]
    · rw [e4, doPushes_noPush hd, doPushes_noPush hd, a3.queue, e2, startLandings_queue, e1, z0]
  · intro hz
    have z0 : s0 = s := by rw [e0, hz]; rfl
    rw [p6.beside, p5.beside, p4.beside, p3.beside, p2.beside, p1.beside, z0]

/-- An instruction that may perform, and whose meaning answers a result, completes with it. -/
theorem issue_completes {sp : Spec} {s : State} {body : Ctx → Except Stop Res} {r : Res} (h : MayPerform sp s)
    (hb : body (mkCtx sp s) = .ok r) (hp : Mild r.pre) :
    ∃ t, issue sp s body = .next (r.post t) ∧ Completes sp r s t := by
  obtain ⟨t, ht, ec⟩ := commit_completes sp r s h.slot hp
  refine ⟨t, ?_, ht⟩
  have : ∀ s', traceHolds s.curCore s s' = false := by
    intro s'; simp [traceHolds, h.stall]
  simp only [issue, attempt, h.first, h.guard, h.after, hb, ec, this, if_true, Bool.false_eq_true, if_false]

/-- The same, for an encoded instruction. -/
theorem run_completes {i : Instr} {f : View → Spec} {s : State} {body : Ctx → Except Stop Res} {r : Res} {v : View}
    (hv : i.view = some v) (h : MayPerform (f v) s) (hb : body (mkCtx (f v) s) = .ok r) (hp : Mild r.pre) :
    ∃ t, run i f body s = .next (r.post t) ∧ Completes (f v) r s t := by
  simp only [run, hv]
  exact issue_completes h hb hp

end Sys2Proof.Machine
end

