-- ==== Sys2Proof/Laws/Does.lean ====
section
/-! SUPPORT. How a statement that an instruction does something, or stops, follows from what its meaning's body answers:
one lemma for each form of the statements, and the lists of checks that let an instruction pass. -/

namespace Sys2Proof.Machine

open Sys2Proof

/-- An instruction does what its body answers in the contexts it may perform in. -/
theorem Does.of_body {i : Instr} {f : View → Spec} {ok : Ctx → Prop} {body : Ctx → Except Stop Res} {r : Ctx → Res}
    (he : ∀ s, exec i s = run i f body s)
    (hb : ∀ v s, i.view = some v → MayPerform (f v) s → ok (mkCtx (f v) s) → body (mkCtx (f v) s) = .ok (r (mkCtx (f v) s)))
    (hp : ∀ x, Mild (r x).pre) : Does i f ok r := by
  intro s v hv h k
  rw [he]
  exact run_completes hv h (hb v s hv h k) (hp _)

/-- The same, where the body needs no more than the condition on its context. -/
theorem Does.of_ctx {i : Instr} {f : View → Spec} {ok : Ctx → Prop} {body : Ctx → Except Stop Res} {r : Ctx → Res}
    (he : ∀ s, exec i s = run i f body s) (hb : ∀ x, ok x → body x = .ok (r x)) (hp : ∀ x, Mild (r x).pre) : Does i f ok r :=
  Does.of_body he (fun _ _ _ _ h => hb _ h) hp

/-- An instruction stops as its body answers. -/
theorem Stops.of_ctx {i : Instr} {f : View → Spec} {ok : Ctx → Prop} {body : Ctx → Except Stop Res} {e : Ctx → Stop}
    (he : ∀ s, exec i s = run i f body s) (hb : ∀ x, ok x → body x = .error (e x)) : Stops i f ok e := by
  intro s v hv h k
  rw [he]
  have : ∀ s', traceHolds s.curCore s s' = false := by
    intro s'; simp [traceHolds, h.stall]
  simp only [run, hv, issue, attempt, h.first, h.guard, h.after, hb _ k, this, if_true, Bool.false_eq_true, if_false]

/-- Checks none of which stops let an instruction pass. -/
theorem firstStop_of_none {es : List (Option Stop)} (h : ∀ e ∈ es, e = none) : firstStop es = .ok () := by
  induction es with
  | nil => rfl
  | cons a t ih =>
    have ha := h a (by simp)
    subst ha
    exact ih fun e he => h e (by simp [he])

/-- The first check that stops is the stop. -/
theorem firstStop_append {l r : List (Option Stop)} {e : Stop} (h : ∀ x ∈ l, x = none) : firstStop (l ++ some e :: r) = .error e := by
  induction l with
  | nil => rfl
  | cons a t ih =>
    have ha := h a (by simp)
    subst ha
    exact ih fun x hx => h x (by simp [hx])

/-- A meaning whose checks all pass answers its result. -/
theorem orStop_of_none {es : List (Option Stop)} {r : Res} (h : ∀ e ∈ es, e = none) : orStop es r = .ok r := by
  simp [orStop, firstStop_of_none h]

end Sys2Proof.Machine
end

