-- ==== Sys2Proof/Laws/Memory.lean ====
section
/-! SUPPORT. The canonical form of the byte store is kept by every operation, and what each operation reads as. -/

namespace Sys2Proof.Machine.Mem

open Sys2Proof

/-- The canonical form, as keys strictly rising and no listed byte that reads as unlisted. -/
theorem wf_iff (m : List Host.Cell) :
    wf m = true ↔ (m.Pairwise fun a b => a.1 < b.1) ∧ ∀ c ∈ m, c.2 ≠ unlisted := by
  induction m with
  | nil => simp [wf]
  | cons a m ih =>
    cases m with
    | nil => simp [wf]
    | cons b m =>
      simp only [wf, Bool.and_eq_true, bne_iff_ne, decide_eq_true_eq, ih, List.pairwise_cons, List.mem_cons,
        forall_eq_or_imp]
      constructor
      · rintro ⟨⟨h1, h2⟩, ⟨h3, h4⟩, h5, h6⟩
        exact ⟨⟨⟨h2, fun c hc => Nat.lt_trans h2 (h3 c hc)⟩, h3, h4⟩, h1, h5, h6⟩
      · rintro ⟨⟨⟨h2, _⟩, h3, h4⟩, h1, h5, h6⟩
        exact ⟨⟨h1, h2⟩, ⟨h3, h4⟩, h5, h6⟩

/-- A key of a store after a write was there before or is the one written. -/
theorem mem_write {m : List Host.Cell} {k : Nat} {b : Byte} {c : Host.Cell} (h : c ∈ write m k b) :
    c ∈ m ∨ (c.1 = k ∧ c.2 ≠ unlisted) := by
  induction m with
  | nil =>
    simp only [write] at h
    split at h
    · simp at h
    · simp at h; subst h; right; exact ⟨rfl, ‹_›⟩
  | cons a m ih =>
    obtain ⟨j, x⟩ := a
    simp only [write] at h
    split at h
    · split at h
      · exact .inl (List.mem_cons_of_mem _ h)
      · rcases List.mem_cons.1 h with rfl | h
        · exact .inr ⟨rfl, ‹_›⟩
        · exact .inl (List.mem_cons_of_mem _ h)
    · split at h
      · split at h
        · exact .inl h
        · rcases List.mem_cons.1 h with rfl | h
          · exact .inr ⟨rfl, ‹_›⟩
          · exact .inl h
      · rcases List.mem_cons.1 h with rfl | h
        · simp
        · rcases ih h with h | h
          · exact .inl (List.mem_cons_of_mem _ h)
          · exact .inr h

/-- A write keeps the canonical form. -/
theorem wf_write {m : List Host.Cell} (h : wf m = true) (k : Nat) (b : Byte) : wf (write m k b) = true := by
  rw [wf_iff] at h ⊢
  refine ⟨?_, fun c hc => (mem_write hc).elim (h.2 c) (·.2)⟩
  obtain ⟨h, -⟩ := h
  induction m with
  | nil => simp only [write]; split <;> simp
  | cons a m ih =>
    obtain ⟨j, x⟩ := a
    rw [List.pairwise_cons] at h
    simp only [write]
    split
    · subst j
      split
      · exact h.2
      · exact List.pairwise_cons.2 h
    · split
      · rename_i hk
        split
        · exact List.pairwise_cons.2 h
        · refine List.pairwise_cons.2 ⟨fun c hc => ?_, List.pairwise_cons.2 h⟩
          rcases List.mem_cons.1 hc with rfl | hc
          · exact hk
          · exact Nat.lt_trans hk (h.1 c hc)
      · refine List.pairwise_cons.2 ⟨fun c hc => ?_, ih h.2⟩
        rcases mem_write hc with hc | ⟨rfl, -⟩
        · exact h.1 c hc
        · simp only; omega

/-- Writing bytes keeps the canonical form. -/
@[simp] theorem wf_writeN {m : List Host.Cell} (h : wf m = true) (k : Nat) (bs : List Byte) :
    wf (writeN m k bs) = true := by
  induction bs generalizing m k with
  | nil => exact h
  | cons b bs ih => exact ih (wf_write h k b) (k + 1)

/-- A part of a store is canonical. -/
theorem wf_filter {m : List Host.Cell} (h : wf m = true) (p : Host.Cell → Bool) : wf (m.filter p) = true := by
  rw [wf_iff] at h ⊢
  exact ⟨h.1.filter p, fun c hc => h.2 c (List.mem_filter.1 hc).1⟩

/-- Clearing keeps the canonical form. -/
@[simp] theorem wf_clear {m : List Host.Cell} (h : wf m = true) (k n : Nat) : wf (clear m k n) = true :=
  wf_filter h _

/-- Any cells make a canonical store. -/
theorem wf_ofCells (cs : List Host.Cell) : wf (ofCells cs) = true := by
  induction cs with
  | nil => rfl
  | cons c cs ih => exact wf_write ih c.1 c.2

/-- The keys of a store made of cells are theirs. -/
theorem mem_ofCells {cs : List Host.Cell} {c : Host.Cell} (h : c ∈ ofCells cs) : ∃ d ∈ cs, d.1 = c.1 := by
  induction cs with
  | nil => simp [ofCells] at h
  | cons a cs ih =>
    rcases mem_write h with h | ⟨h, -⟩
    · obtain ⟨d, hd, he⟩ := ih h; exact ⟨d, List.mem_cons_of_mem _ hd, he⟩
    · exact ⟨a, by simp, h.symm⟩

/-- Replacing a range keeps the canonical form, whatever cells replace it. -/
@[simp] theorem wf_splice {m : List Host.Cell} (h : wf m = true) (k n : Nat) (cells : List Host.Cell) :
    wf (splice m k n cells) = true := by
  have h1 := wf_filter h (fun c => c.1 < k)
  have h2 := wf_ofCells ((cells.filter fun c => c.1 < n).map fun c => (c.1 + k, c.2))
  have h3 := wf_filter h (fun c => k + n ≤ c.1)
  have hb : ∀ c ∈ ofCells ((cells.filter fun c => c.1 < n).map fun c => (c.1 + k, c.2)), k ≤ c.1 ∧ c.1 < k + n := by
    intro c hc
    obtain ⟨d, hd, he⟩ := mem_ofCells hc
    simp only [List.mem_map, List.mem_filter, decide_eq_true_eq] at hd
    obtain ⟨a, ⟨-, ha⟩, rfl⟩ := hd
    simp only at he
    omega
  rw [wf_iff] at h1 h2 h3 ⊢
  have k1 : ∀ c ∈ m.filter (fun c => decide (c.1 < k)), c.1 < k := by
    intro c hc; simpa using (List.mem_filter.1 hc).2
  have k3 : ∀ c ∈ m.filter (fun c => decide (k + n ≤ c.1)), k + n ≤ c.1 := by
    intro c hc; simpa using (List.mem_filter.1 hc).2
  refine ⟨?_, ?_⟩
  · simp only [splice, List.append_assoc]
    refine List.pairwise_append.2 ⟨h1.1, List.pairwise_append.2 ⟨h2.1, h3.1, ?_⟩, ?_⟩
    · intro a ha b hb'
      have := hb a ha; have := k3 b hb'; omega
    · intro a ha b hb'
      have := k1 a ha
      rcases List.mem_append.1 hb' with hb' | hb'
      · have := hb b hb'; omega
      · have := k3 b hb'; omega
  · intro c hc
    simp only [splice, List.append_assoc, List.mem_append] at hc
    rcases hc with hc | hc | hc
    · exact h1.2 c hc
    · exact h2.2 c hc
    · exact h3.2 c hc

/-- Copying keeps the canonical form. -/
@[simp] theorem wf_copy {m : List Host.Cell} (h : wf m = true) (src dst n : Nat) : wf (copy m src dst n) = true :=
  wf_splice h dst n _

/-- Below the first key of a canonical store everything is unlisted. -/
theorem read_below {m : List Host.Cell} {k : Nat} (h : ∀ c ∈ m, k < c.1) : read m k = unlisted := by
  cases m with
  | nil => rfl
  | cons a m =>
    have := h a (by simp)
    obtain ⟨j, b⟩ := a
    simp only at this
    simp [read, this, Nat.ne_of_gt this]

/-- Read after write: the byte written at its key, every other byte as before. -/
theorem read_write {m : List Host.Cell} (h : wf m = true) (k j : Nat) (b : Byte) :
    read (write m k b) j = if j = k then b else read m j := by
  rw [wf_iff] at h
  obtain ⟨h, -⟩ := h
  induction m with
  | nil =>
    simp only [write]
    split
    · subst_vars; simp [read]
    · simp only [read]
      by_cases e : k = j
      · simp [e]
      · simp [e, Ne.symm e]
  | cons a m ih =>
    obtain ⟨i, x⟩ := a
    rw [List.pairwise_cons] at h
    have ih := ih h.2
    simp only [write]
    by_cases e : i = k
    · subst e
      simp only [if_true]
      by_cases hb : b = unlisted
      · simp only [hb, if_true, read]
        by_cases e : i = j
        · subst e
          simp only [if_true]
          exact read_below h.1
        · have e' : j ≠ i := Ne.symm e
          simp only [e, e', if_false]
          split
          · rename_i hj
            exact read_below fun c hc => Nat.lt_trans hj (h.1 c hc)
          · rfl
      · simp only [hb, if_false, read]
        by_cases e : i = j
        · subst e; simp
        · simp [e, Ne.symm e]
    · simp only [e, if_false]
      by_cases hk : k < i
      · simp only [hk, if_true]
        by_cases hb : b = unlisted
        · simp only [hb, if_true]
          by_cases e : j = k
          · subst e
            simp only [if_true]
            exact read_below fun c hc => by
              rcases List.mem_cons.1 hc with rfl | hc
              · exact hk
              · exact Nat.lt_trans hk (h.1 c hc)
          · simp [e]
        · simp only [hb, if_false]
          rw [show read ((k, b) :: (i, x) :: m) j
            = if k = j then b else if j < k then unlisted else read ((i, x) :: m) j from rfl]
          by_cases e : k = j
          · subst e; simp
          · simp only [e, Ne.symm e, if_false]
            split
            · rename_i hj
              symm
              exact read_below fun c hc => by
                rcases List.mem_cons.1 hc with rfl | hc
                · exact Nat.lt_trans hj hk
                · exact Nat.lt_trans (Nat.lt_trans hj hk) (h.1 c hc)
            · rfl
      · simp only [hk, if_false, read]
        by_cases e : i = j
        · subst e; simp only [if_true]; rw [if_neg ‹_›]
        · simp only [e, if_false]
          split
          · rename_i hj
            have : j ≠ k := by omega
            simp [this]
          · exact ih

/-- A byte outside the bytes written reads as before. -/
theorem read_writeN_other {m : List Host.Cell} (h : wf m = true) {k j : Nat} {bs : List Byte}
    (hj : j < k ∨ k + bs.length ≤ j) : read (writeN m k bs) j = read m j := by
  induction bs generalizing m k with
  | nil => rfl
  | cons b bs ih =>
    simp only [List.length_cons] at hj
    rw [writeN, ih (wf_write h k b) (by omega), read_write h, if_neg (by omega)]

/-- The byte at a place among the bytes written. -/
theorem read_writeN {m : List Host.Cell} (h : wf m = true) (k : Nat) (bs : List Byte) (i : Nat) (hi : i < bs.length) :
    read (writeN m k bs) (k + i) = bs[i] := by
  induction bs generalizing m k i with
  | nil => simp at hi
  | cons b bs ih =>
    cases i with
    | zero =>
      rw [writeN, read_writeN_other (wf_write h k b) (by omega), read_write h]
      simp
    | succ i =>
      have := ih (wf_write h k b) (k + 1) i (by simpa using hi)
      rw [writeN, show k + (i + 1) = k + 1 + i by omega, this]
      rfl

/-- Bytes written read back. -/
theorem readN_writeN {m : List Host.Cell} (h : wf m = true) (k : Nat) (bs : List Byte) :
    readN (writeN m k bs) k bs.length = bs := by
  apply List.ext_getElem
  · simp [readN]
  · intro i h1 h2
    simp only [readN, List.getElem_map, List.getElem_range]
    exact read_writeN h k bs i h2

end Sys2Proof.Machine.Mem
end

