-- ==== Sys2Proof/Laws/Network.lean ====
section
/-! SUPPORT. Accesses that leave the network: what waking those behind them does, and that nothing else changes. -/

namespace Sys2Proof.Machine

open Sys2Proof

/-- Events put next one after another are the events appended. -/
theorem foldl_soon {α : Type} (f : α → Instr) (l : List α) (s : State) :
    l.foldl (fun s x => s.soon (f x)) s = { s with agenda := s.agenda ++ l.map fun x => (s.bus, f x) } := by
  induction l generalizing s with
  | nil => simp
  | cons a t ih =>
    rw [List.foldl_cons, ih]
    simp [State.soon]

/-- Waking a thread's waiting accesses puts their arrivals next and does nothing else (R142). -/
theorem wakeTurns_eq (a : Agent) (s : State) :
    wakeTurns a s = { s with agenda := s.agenda ++
      (s.net.filter fun q => q.src == a && q.phase = .turn).map fun q => (s.bus, .accessArrival q.id) } :=
  foldl_soon (fun q : Piece => .accessArrival q.id) _ s

/-- An access that leaves is gone from the network, and all that waited behind it tries again. -/
theorem leaveNet_spec (p : Piece) (s : State) :
    (leaveNet p s).net = s.net.filter (fun q => q.id ≠ p.id) ∧ (leaveNet p s).mem = s.mem ∧ (leaveNet p s).cores = s.cores ∧
      ∀ q ∈ (leaveNet p s).net, q.src = p.src → q.phase = .turn → (s.bus, Instr.accessArrival q.id) ∈ (leaveNet p s).agenda := by
  simp only [leaveNet, wakeTurns_eq, State.dropPiece]
  refine ⟨trivial, trivial, trivial, fun q hq hs hp => ?_⟩
  refine List.mem_append_right _ (List.mem_map.2 ⟨q, List.mem_filter.2 ⟨hq, by simp [hs, hp]⟩, rfl⟩)

end Sys2Proof.Machine
end

