-- ==== Sys2Proof/Laws/PerInstr.lean ====
section
/-! SUPPORT. Decoding, instruction by instruction: the instruction that `build` makes of the opcode and the fields of an
instruction is that instruction (Tables 9.4 to 9.6). -/

namespace Sys2Proof.Laws

open Sys2Proof

/-- Fields that hold what a view says are read back as its instruction. -/
def Build.Statement (i : Instr) : Prop :=
  ∀ v, i.view = some v → i.xFits = true → ∀ f : Fields, f.h = v.h → (∀ x, v.d = some x → f.d = x) → (∀ x, v.a = some x → f.a = x) →
    (∀ x, v.b = some x → f.b = x) → (∀ x, v.imm = some x → f.imm = x) → (∀ x, v.off = some x → f.off = x) →
    build v.op.toNat f = some i

/-- An event has no word. -/
theorem Build.event {i : Instr} (h : i.view = none) : Build.Statement i := fun v hv => by simp [h] at hv

/-- The instruction of a family opcode. -/
theorem Build.ofFamily {n : BitVec 10} {k : Nat} {t : Elt}
    (h : Forms.isFamily n.toNat = true ∧ Elt.ofCode (n.toNat % 8) = some t ∧ Forms.family n.toNat = k) (f : Fields) :
    build n.toNat f = buildFamily k t f := by
  simp [build, h]

theorem Build.add (h : Hdr) (d : Opnd) (a : Opnd) (b : Opnd) : Build.Statement (.add h d a b) := by
  rintro _ ⟨⟩ _ f rfl hd ha hb _ _
  obtain rfl := hd _ rfl; obtain rfl := ha _ rfl; obtain rfl := hb _ rfl; rfl
theorem Build.addi (h : Hdr) (d : Opnd) (a : Opnd) (imm : BitVec 15) : Build.Statement (.addi h d a imm) := by
  rintro _ ⟨⟩ _ f rfl hd ha _ hi _
  obtain rfl := hd _ rfl; obtain rfl := ha _ rfl; obtain rfl := hi _ rfl; rfl
theorem Build.sub (h : Hdr) (d : Opnd) (a : Opnd) (b : Opnd) : Build.Statement (.sub h d a b) := by
  rintro _ ⟨⟩ _ f rfl hd ha hb _ _
  obtain rfl := hd _ rfl; obtain rfl := ha _ rfl; obtain rfl := hb _ rfl; rfl
theorem Build.mul (h : Hdr) (d : Opnd) (a : Opnd) (b : Opnd) : Build.Statement (.mul h d a b) := by
  rintro _ ⟨⟩ _ f rfl hd ha hb _ _
  obtain rfl := hd _ rfl; obtain rfl := ha _ rfl; obtain rfl := hb _ rfl; rfl
theorem Build.mulh (h : Hdr) (d : Opnd) (a : Opnd) (b : Opnd) : Build.Statement (.mulh h d a b) := by
  rintro _ ⟨⟩ _ f rfl hd ha hb _ _
  obtain rfl := hd _ rfl; obtain rfl := ha _ rfl; obtain rfl := hb _ rfl; rfl
theorem Build.mulhn (h : Hdr) (d : Opnd) (a : Opnd) (b : Opnd) : Build.Statement (.mulhn h d a b) := by
  rintro _ ⟨⟩ _ f rfl hd ha hb _ _
  obtain rfl := hd _ rfl; obtain rfl := ha _ rfl; obtain rfl := hb _ rfl; rfl
theorem Build.div (h : Hdr) (d : Opnd) (a : Opnd) (b : Opnd) : Build.Statement (.div h d a b) := by
  rintro _ ⟨⟩ _ f rfl hd ha hb _ _
  obtain rfl := hd _ rfl; obtain rfl := ha _ rfl; obtain rfl := hb _ rfl; rfl
theorem Build.divn (h : Hdr) (d : Opnd) (a : Opnd) (b : Opnd) : Build.Statement (.divn h d a b) := by
  rintro _ ⟨⟩ _ f rfl hd ha hb _ _
  obtain rfl := hd _ rfl; obtain rfl := ha _ rfl; obtain rfl := hb _ rfl; rfl
theorem Build.rem (h : Hdr) (d : Opnd) (a : Opnd) (b : Opnd) : Build.Statement (.rem h d a b) := by
  rintro _ ⟨⟩ _ f rfl hd ha hb _ _
  obtain rfl := hd _ rfl; obtain rfl := ha _ rfl; obtain rfl := hb _ rfl; rfl
theorem Build.remn (h : Hdr) (d : Opnd) (a : Opnd) (b : Opnd) : Build.Statement (.remn h d a b) := by
  rintro _ ⟨⟩ _ f rfl hd ha hb _ _
  obtain rfl := hd _ rfl; obtain rfl := ha _ rfl; obtain rfl := hb _ rfl; rfl
theorem Build.and (h : Hdr) (d : Opnd) (a : Opnd) (b : Opnd) : Build.Statement (.and h d a b) := by
  rintro _ ⟨⟩ _ f rfl hd ha hb _ _
  obtain rfl := hd _ rfl; obtain rfl := ha _ rfl; obtain rfl := hb _ rfl; rfl
theorem Build.andi (h : Hdr) (d : Opnd) (a : Opnd) (imm : BitVec 15) : Build.Statement (.andi h d a imm) := by
  rintro _ ⟨⟩ _ f rfl hd ha _ hi _
  obtain rfl := hd _ rfl; obtain rfl := ha _ rfl; obtain rfl := hi _ rfl; rfl
theorem Build.or (h : Hdr) (d : Opnd) (a : Opnd) (b : Opnd) : Build.Statement (.or h d a b) := by
  rintro _ ⟨⟩ _ f rfl hd ha hb _ _
  obtain rfl := hd _ rfl; obtain rfl := ha _ rfl; obtain rfl := hb _ rfl; rfl
theorem Build.ori (h : Hdr) (d : Opnd) (a : Opnd) (imm : BitVec 15) : Build.Statement (.ori h d a imm) := by
  rintro _ ⟨⟩ _ f rfl hd ha _ hi _
  obtain rfl := hd _ rfl; obtain rfl := ha _ rfl; obtain rfl := hi _ rfl; rfl
theorem Build.xor (h : Hdr) (d : Opnd) (a : Opnd) (b : Opnd) : Build.Statement (.xor h d a b) := by
  rintro _ ⟨⟩ _ f rfl hd ha hb _ _
  obtain rfl := hd _ rfl; obtain rfl := ha _ rfl; obtain rfl := hb _ rfl; rfl
theorem Build.xori (h : Hdr) (d : Opnd) (a : Opnd) (imm : BitVec 15) : Build.Statement (.xori h d a imm) := by
  rintro _ ⟨⟩ _ f rfl hd ha _ hi _
  obtain rfl := hd _ rfl; obtain rfl := ha _ rfl; obtain rfl := hi _ rfl; rfl
theorem Build.andn (h : Hdr) (d : Opnd) (a : Opnd) (b : Opnd) : Build.Statement (.andn h d a b) := by
  rintro _ ⟨⟩ _ f rfl hd ha hb _ _
  obtain rfl := hd _ rfl; obtain rfl := ha _ rfl; obtain rfl := hb _ rfl; rfl
theorem Build.shl (h : Hdr) (d : Opnd) (a : Opnd) (b : Opnd) : Build.Statement (.shl h d a b) := by
  rintro _ ⟨⟩ _ f rfl hd ha hb _ _
  obtain rfl := hd _ rfl; obtain rfl := ha _ rfl; obtain rfl := hb _ rfl; rfl
theorem Build.shli (h : Hdr) (d : Opnd) (a : Opnd) (imm : BitVec 15) : Build.Statement (.shli h d a imm) := by
  rintro _ ⟨⟩ _ f rfl hd ha _ hi _
  obtain rfl := hd _ rfl; obtain rfl := ha _ rfl; obtain rfl := hi _ rfl; rfl
theorem Build.shr (h : Hdr) (d : Opnd) (a : Opnd) (b : Opnd) : Build.Statement (.shr h d a b) := by
  rintro _ ⟨⟩ _ f rfl hd ha hb _ _
  obtain rfl := hd _ rfl; obtain rfl := ha _ rfl; obtain rfl := hb _ rfl; rfl
theorem Build.shri (h : Hdr) (d : Opnd) (a : Opnd) (imm : BitVec 15) : Build.Statement (.shri h d a imm) := by
  rintro _ ⟨⟩ _ f rfl hd ha _ hi _
  obtain rfl := hd _ rfl; obtain rfl := ha _ rfl; obtain rfl := hi _ rfl; rfl
theorem Build.sar (h : Hdr) (d : Opnd) (a : Opnd) (b : Opnd) : Build.Statement (.sar h d a b) := by
  rintro _ ⟨⟩ _ f rfl hd ha hb _ _
  obtain rfl := hd _ rfl; obtain rfl := ha _ rfl; obtain rfl := hb _ rfl; rfl
theorem Build.sari (h : Hdr) (d : Opnd) (a : Opnd) (imm : BitVec 15) : Build.Statement (.sari h d a imm) := by
  rintro _ ⟨⟩ _ f rfl hd ha _ hi _
  obtain rfl := hd _ rfl; obtain rfl := ha _ rfl; obtain rfl := hi _ rfl; rfl
theorem Build.rol (h : Hdr) (d : Opnd) (a : Opnd) (b : Opnd) : Build.Statement (.rol h d a b) := by
  rintro _ ⟨⟩ _ f rfl hd ha hb _ _
  obtain rfl := hd _ rfl; obtain rfl := ha _ rfl; obtain rfl := hb _ rfl; rfl
theorem Build.roli (h : Hdr) (d : Opnd) (a : Opnd) (imm : BitVec 15) : Build.Statement (.roli h d a imm) := by
  rintro _ ⟨⟩ _ f rfl hd ha _ hi _
  obtain rfl := hd _ rfl; obtain rfl := ha _ rfl; obtain rfl := hi _ rfl; rfl
theorem Build.clz (h : Hdr) (d : Opnd) (a : Opnd) : Build.Statement (.clz h d a) := by
  rintro _ ⟨⟩ _ f rfl hd ha _ _ _
  obtain rfl := hd _ rfl; obtain rfl := ha _ rfl; rfl
theorem Build.ctz (h : Hdr) (d : Opnd) (a : Opnd) : Build.Statement (.ctz h d a) := by
  rintro _ ⟨⟩ _ f rfl hd ha _ _ _
  obtain rfl := hd _ rfl; obtain rfl := ha _ rfl; rfl
theorem Build.popc (h : Hdr) (d : Opnd) (a : Opnd) : Build.Statement (.popc h d a) := by
  rintro _ ⟨⟩ _ f rfl hd ha _ _ _
  obtain rfl := hd _ rfl; obtain rfl := ha _ rfl; rfl
theorem Build.min (h : Hdr) (d : Opnd) (a : Opnd) (b : Opnd) : Build.Statement (.min h d a b) := by
  rintro _ ⟨⟩ _ f rfl hd ha hb _ _
  obtain rfl := hd _ rfl; obtain rfl := ha _ rfl; obtain rfl := hb _ rfl; rfl
theorem Build.max (h : Hdr) (d : Opnd) (a : Opnd) (b : Opnd) : Build.Statement (.max h d a b) := by
  rintro _ ⟨⟩ _ f rfl hd ha hb _ _
  obtain rfl := hd _ rfl; obtain rfl := ha _ rfl; obtain rfl := hb _ rfl; rfl
theorem Build.minn (h : Hdr) (d : Opnd) (a : Opnd) (b : Opnd) : Build.Statement (.minn h d a b) := by
  rintro _ ⟨⟩ _ f rfl hd ha hb _ _
  obtain rfl := hd _ rfl; obtain rfl := ha _ rfl; obtain rfl := hb _ rfl; rfl
theorem Build.maxn (h : Hdr) (d : Opnd) (a : Opnd) (b : Opnd) : Build.Statement (.maxn h d a b) := by
  rintro _ ⟨⟩ _ f rfl hd ha hb _ _
  obtain rfl := hd _ rfl; obtain rfl := ha _ rfl; obtain rfl := hb _ rfl; rfl
theorem Build.abs (h : Hdr) (d : Opnd) (a : Opnd) : Build.Statement (.abs h d a) := by
  rintro _ ⟨⟩ _ f rfl hd ha _ _ _
  obtain rfl := hd _ rfl; obtain rfl := ha _ rfl; rfl
theorem Build.neg (h : Hdr) (d : Opnd) (a : Opnd) : Build.Statement (.neg h d a) := by
  rintro _ ⟨⟩ _ f rfl hd ha _ _ _
  obtain rfl := hd _ rfl; obtain rfl := ha _ rfl; rfl
theorem Build.sel (h : Hdr) (d : Opnd) (a : Opnd) (b : Opnd) : Build.Statement (.sel h d a b) := by
  rintro _ ⟨⟩ _ f rfl hd ha hb _ _
  obtain rfl := hd _ rfl; obtain rfl := ha _ rfl; obtain rfl := hb _ rfl; rfl
theorem Build.mov (h : Hdr) (d : Opnd) (a : Opnd) : Build.Statement (.mov h d a) := by
  rintro _ ⟨⟩ _ f rfl hd ha _ _ _
  obtain rfl := hd _ rfl; obtain rfl := ha _ rfl; rfl
theorem Build.movi (h : Hdr) (d : Opnd) (imm : BitVec 15) : Build.Statement (.movi h d imm) := by
  rintro _ ⟨⟩ _ f rfl hd _ _ hi _
  obtain rfl := hd _ rfl; obtain rfl := hi _ rfl; rfl
theorem Build.movh (h : Hdr) (d : Opnd) (a : Opnd) (imm : BitVec 15) : Build.Statement (.movh h d a imm) := by
  rintro _ ⟨⟩ _ f rfl hd ha _ hi _
  obtain rfl := hd _ rfl; obtain rfl := ha _ rfl; obtain rfl := hi _ rfl; rfl
theorem Build.bfx (h : Hdr) (d : Opnd) (a : Opnd) (b : Opnd) : Build.Statement (.bfx h d a b) := by
  rintro _ ⟨⟩ _ f rfl hd ha hb _ _
  obtain rfl := hd _ rfl; obtain rfl := ha _ rfl; obtain rfl := hb _ rfl; rfl
theorem Build.bfi (h : Hdr) (d : Opnd) (a : Opnd) (b : Opnd) : Build.Statement (.bfi h d a b) := by
  rintro _ ⟨⟩ _ f rfl hd ha hb _ _
  obtain rfl := hd _ rfl; obtain rfl := ha _ rfl; obtain rfl := hb _ rfl; rfl
theorem Build.brev (h : Hdr) (d : Opnd) (a : Opnd) : Build.Statement (.brev h d a) := by
  rintro _ ⟨⟩ _ f rfl hd ha _ _ _
  obtain rfl := hd _ rfl; obtain rfl := ha _ rfl; rfl
theorem Build.bswap (h : Hdr) (d : Opnd) (a : Opnd) : Build.Statement (.bswap h d a) := by
  rintro _ ⟨⟩ _ f rfl hd ha _ _ _
  obtain rfl := hd _ rfl; obtain rfl := ha _ rfl; rfl
theorem Build.cmpeq (h : Hdr) (d : Opnd) (a : Opnd) (b : Opnd) : Build.Statement (.cmpeq h d a b) := by
  rintro _ ⟨⟩ _ f rfl hd ha hb _ _
  obtain rfl := hd _ rfl; obtain rfl := ha _ rfl; obtain rfl := hb _ rfl; rfl
theorem Build.cmpne (h : Hdr) (d : Opnd) (a : Opnd) (b : Opnd) : Build.Statement (.cmpne h d a b) := by
  rintro _ ⟨⟩ _ f rfl hd ha hb _ _
  obtain rfl := hd _ rfl; obtain rfl := ha _ rfl; obtain rfl := hb _ rfl; rfl
theorem Build.cmplt (h : Hdr) (d : Opnd) (a : Opnd) (b : Opnd) : Build.Statement (.cmplt h d a b) := by
  rintro _ ⟨⟩ _ f rfl hd ha hb _ _
  obtain rfl := hd _ rfl; obtain rfl := ha _ rfl; obtain rfl := hb _ rfl; rfl
theorem Build.cmpltn (h : Hdr) (d : Opnd) (a : Opnd) (b : Opnd) : Build.Statement (.cmpltn h d a b) := by
  rintro _ ⟨⟩ _ f rfl hd ha hb _ _
  obtain rfl := hd _ rfl; obtain rfl := ha _ rfl; obtain rfl := hb _ rfl; rfl
theorem Build.cmple (h : Hdr) (d : Opnd) (a : Opnd) (b : Opnd) : Build.Statement (.cmple h d a b) := by
  rintro _ ⟨⟩ _ f rfl hd ha hb _ _
  obtain rfl := hd _ rfl; obtain rfl := ha _ rfl; obtain rfl := hb _ rfl; rfl
theorem Build.cmplen (h : Hdr) (d : Opnd) (a : Opnd) (b : Opnd) : Build.Statement (.cmplen h d a b) := by
  rintro _ ⟨⟩ _ f rfl hd ha hb _ _
  obtain rfl := hd _ rfl; obtain rfl := ha _ rfl; obtain rfl := hb _ rfl; rfl
theorem Build.br (h : Hdr) (off : BitVec 32) : Build.Statement (.br h off) := by
  rintro _ ⟨⟩ _ f rfl _ _ _ _ ho
  obtain rfl := ho _ rfl; rfl
theorem Build.jmp (h : Hdr) (a : Opnd) : Build.Statement (.jmp h a) := by
  rintro _ ⟨⟩ _ f rfl _ ha _ _ _
  obtain rfl := ha _ rfl; rfl
theorem Build.call (h : Hdr) (off : BitVec 32) : Build.Statement (.call h off) := by
  rintro _ ⟨⟩ _ f rfl _ _ _ _ ho
  obtain rfl := ho _ rfl; rfl
theorem Build.callr (h : Hdr) (d : Opnd) (a : Opnd) : Build.Statement (.callr h d a) := by
  rintro _ ⟨⟩ _ f rfl hd ha _ _ _
  obtain rfl := hd _ rfl; obtain rfl := ha _ rfl; rfl
theorem Build.loop (h : Hdr) (a : Opnd) (imm : BitVec 15) : Build.Statement (.loop h a imm) := by
  rintro _ ⟨⟩ _ f rfl _ ha _ hi _
  obtain rfl := ha _ rfl; obtain rfl := hi _ rfl; rfl
theorem Build.rep (h : Hdr) (a : Opnd) (imm : BitVec 15) : Build.Statement (.rep h a imm) := by
  rintro _ ⟨⟩ _ f rfl _ ha _ hi _
  obtain rfl := ha _ rfl; obtain rfl := hi _ rfl; rfl
theorem Build.yield (h : Hdr) : Build.Statement (.yield h) := by
  rintro _ ⟨⟩ _ f rfl _ _ _ _ _
  rfl
theorem Build.exit (h : Hdr) : Build.Statement (.exit h) := by
  rintro _ ⟨⟩ _ f rfl _ _ _ _ _
  rfl
theorem Build.vadd (h : Hdr) (t : Elt) (d : Opnd) (a : Opnd) (b : Opnd) : Build.Statement (.vadd h t d a b) := by
  rintro _ ⟨⟩ _ f rfl hd ha hb _ _
  obtain rfl := hd _ rfl; obtain rfl := ha _ rfl; obtain rfl := hb _ rfl; exact Build.ofFamily (n := 0x080#10 + t.code) (k := 0) (by cases t <;> decide) f
theorem Build.vsub (h : Hdr) (t : Elt) (d : Opnd) (a : Opnd) (b : Opnd) : Build.Statement (.vsub h t d a b) := by
  rintro _ ⟨⟩ _ f rfl hd ha hb _ _
  obtain rfl := hd _ rfl; obtain rfl := ha _ rfl; obtain rfl := hb _ rfl; exact Build.ofFamily (n := 0x088#10 + t.code) (k := 1) (by cases t <;> decide) f
theorem Build.vmul (h : Hdr) (t : Elt) (d : Opnd) (a : Opnd) (b : Opnd) : Build.Statement (.vmul h t d a b) := by
  rintro _ ⟨⟩ _ f rfl hd ha hb _ _
  obtain rfl := hd _ rfl; obtain rfl := ha _ rfl; obtain rfl := hb _ rfl; exact Build.ofFamily (n := 0x090#10 + t.code) (k := 2) (by cases t <;> decide) f
theorem Build.vfma (h : Hdr) (t : Elt) (d : Opnd) (a : Opnd) (b : Opnd) : Build.Statement (.vfma h t d a b) := by
  rintro _ ⟨⟩ _ f rfl hd ha hb _ _
  obtain rfl := hd _ rfl; obtain rfl := ha _ rfl; obtain rfl := hb _ rfl; exact Build.ofFamily (n := 0x098#10 + t.code) (k := 3) (by cases t <;> decide) f
theorem Build.vfms (h : Hdr) (t : Elt) (d : Opnd) (a : Opnd) (b : Opnd) : Build.Statement (.vfms h t d a b) := by
  rintro _ ⟨⟩ _ f rfl hd ha hb _ _
  obtain rfl := hd _ rfl; obtain rfl := ha _ rfl; obtain rfl := hb _ rfl; exact Build.ofFamily (n := 0x0a0#10 + t.code) (k := 4) (by cases t <;> decide) f
theorem Build.vfnma (h : Hdr) (t : Elt) (d : Opnd) (a : Opnd) (b : Opnd) : Build.Statement (.vfnma h t d a b) := by
  rintro _ ⟨⟩ _ f rfl hd ha hb _ _
  obtain rfl := hd _ rfl; obtain rfl := ha _ rfl; obtain rfl := hb _ rfl; exact Build.ofFamily (n := 0x0a8#10 + t.code) (k := 5) (by cases t <;> decide) f
theorem Build.vmin (h : Hdr) (t : Elt) (d : Opnd) (a : Opnd) (b : Opnd) : Build.Statement (.vmin h t d a b) := by
  rintro _ ⟨⟩ _ f rfl hd ha hb _ _
  obtain rfl := hd _ rfl; obtain rfl := ha _ rfl; obtain rfl := hb _ rfl; exact Build.ofFamily (n := 0x0b0#10 + t.code) (k := 6) (by cases t <;> decide) f
theorem Build.vmax (h : Hdr) (t : Elt) (d : Opnd) (a : Opnd) (b : Opnd) : Build.Statement (.vmax h t d a b) := by
  rintro _ ⟨⟩ _ f rfl hd ha hb _ _
  obtain rfl := hd _ rfl; obtain rfl := ha _ rfl; obtain rfl := hb _ rfl; exact Build.ofFamily (n := 0x0b8#10 + t.code) (k := 7) (by cases t <;> decide) f
theorem Build.vabs (h : Hdr) (t : Elt) (d : Opnd) (a : Opnd) : Build.Statement (.vabs h t d a) := by
  rintro _ ⟨⟩ _ f rfl hd ha _ _ _
  obtain rfl := hd _ rfl; obtain rfl := ha _ rfl; exact Build.ofFamily (n := 0x0c0#10 + t.code) (k := 8) (by cases t <;> decide) f
theorem Build.vneg (h : Hdr) (t : Elt) (d : Opnd) (a : Opnd) : Build.Statement (.vneg h t d a) := by
  rintro _ ⟨⟩ _ f rfl hd ha _ _ _
  obtain rfl := hd _ rfl; obtain rfl := ha _ rfl; exact Build.ofFamily (n := 0x0c8#10 + t.code) (k := 9) (by cases t <;> decide) f
theorem Build.vshl (h : Hdr) (t : Elt) (d : Opnd) (a : Opnd) (b : Opnd) : Build.Statement (.vshl h t d a b) := by
  rintro _ ⟨⟩ _ f rfl hd ha hb _ _
  obtain rfl := hd _ rfl; obtain rfl := ha _ rfl; obtain rfl := hb _ rfl; exact Build.ofFamily (n := 0x0d0#10 + t.code) (k := 10) (by cases t <;> decide) f
theorem Build.vshr (h : Hdr) (t : Elt) (d : Opnd) (a : Opnd) (b : Opnd) : Build.Statement (.vshr h t d a b) := by
  rintro _ ⟨⟩ _ f rfl hd ha hb _ _
  obtain rfl := hd _ rfl; obtain rfl := ha _ rfl; obtain rfl := hb _ rfl; exact Build.ofFamily (n := 0x0d8#10 + t.code) (k := 11) (by cases t <;> decide) f
theorem Build.vsar (h : Hdr) (t : Elt) (d : Opnd) (a : Opnd) (b : Opnd) : Build.Statement (.vsar h t d a b) := by
  rintro _ ⟨⟩ _ f rfl hd ha hb _ _
  obtain rfl := hd _ rfl; obtain rfl := ha _ rfl; obtain rfl := hb _ rfl; exact Build.ofFamily (n := 0x0e0#10 + t.code) (k := 12) (by cases t <;> decide) f
theorem Build.vcmpeq (h : Hdr) (t : Elt) (d : Opnd) (a : Opnd) (b : Opnd) : Build.Statement (.vcmpeq h t d a b) := by
  rintro _ ⟨⟩ _ f rfl hd ha hb _ _
  obtain rfl := hd _ rfl; obtain rfl := ha _ rfl; obtain rfl := hb _ rfl; exact Build.ofFamily (n := 0x0e8#10 + t.code) (k := 13) (by cases t <;> decide) f
theorem Build.vcmpne (h : Hdr) (t : Elt) (d : Opnd) (a : Opnd) (b : Opnd) : Build.Statement (.vcmpne h t d a b) := by
  rintro _ ⟨⟩ _ f rfl hd ha hb _ _
  obtain rfl := hd _ rfl; obtain rfl := ha _ rfl; obtain rfl := hb _ rfl; exact Build.ofFamily (n := 0x0f0#10 + t.code) (k := 14) (by cases t <;> decide) f
theorem Build.vcmplt (h : Hdr) (t : Elt) (d : Opnd) (a : Opnd) (b : Opnd) : Build.Statement (.vcmplt h t d a b) := by
  rintro _ ⟨⟩ _ f rfl hd ha hb _ _
  obtain rfl := hd _ rfl; obtain rfl := ha _ rfl; obtain rfl := hb _ rfl; exact Build.ofFamily (n := 0x0f8#10 + t.code) (k := 15) (by cases t <;> decide) f
theorem Build.vcmple (h : Hdr) (t : Elt) (d : Opnd) (a : Opnd) (b : Opnd) : Build.Statement (.vcmple h t d a b) := by
  rintro _ ⟨⟩ _ f rfl hd ha hb _ _
  obtain rfl := hd _ rfl; obtain rfl := ha _ rfl; obtain rfl := hb _ rfl; exact Build.ofFamily (n := 0x100#10 + t.code) (k := 16) (by cases t <;> decide) f
theorem Build.vsel (h : Hdr) (t : Elt) (d : Opnd) (a : Opnd) (b : Opnd) : Build.Statement (.vsel h t d a b) := by
  rintro _ ⟨⟩ _ f rfl hd ha hb _ _
  obtain rfl := hd _ rfl; obtain rfl := ha _ rfl; obtain rfl := hb _ rfl; exact Build.ofFamily (n := 0x108#10 + t.code) (k := 17) (by cases t <;> decide) f
theorem Build.vshuf (h : Hdr) (t : Elt) (d : Opnd) (a : Opnd) (b : Opnd) : Build.Statement (.vshuf h t d a b) := by
  rintro _ ⟨⟩ _ f rfl hd ha hb _ _
  obtain rfl := hd _ rfl; obtain rfl := ha _ rfl; obtain rfl := hb _ rfl; exact Build.ofFamily (n := 0x110#10 + t.code) (k := 18) (by cases t <;> decide) f
theorem Build.vbcast (h : Hdr) (t : Elt) (d : Opnd) (a : Opnd) : Build.Statement (.vbcast h t d a) := by
  rintro _ ⟨⟩ _ f rfl hd ha _ _ _
  obtain rfl := hd _ rfl; obtain rfl := ha _ rfl; exact Build.ofFamily (n := 0x118#10 + t.code) (k := 19) (by cases t <;> decide) f
theorem Build.vslide (h : Hdr) (t : Elt) (d : Opnd) (a : Opnd) (b : Opnd) : Build.Statement (.vslide h t d a b) := by
  rintro _ ⟨⟩ _ f rfl hd ha hb _ _
  obtain rfl := hd _ rfl; obtain rfl := ha _ rfl; obtain rfl := hb _ rfl; exact Build.ofFamily (n := 0x120#10 + t.code) (k := 20) (by cases t <;> decide) f
theorem Build.vhsum (h : Hdr) (t : Elt) (d : Opnd) (a : Opnd) : Build.Statement (.vhsum h t d a) := by
  rintro _ ⟨⟩ _ f rfl hd ha _ _ _
  obtain rfl := hd _ rfl; obtain rfl := ha _ rfl; exact Build.ofFamily (n := 0x128#10 + t.code) (k := 21) (by cases t <;> decide) f
theorem Build.vhmax (h : Hdr) (t : Elt) (d : Opnd) (a : Opnd) : Build.Statement (.vhmax h t d a) := by
  rintro _ ⟨⟩ _ f rfl hd ha _ _ _
  obtain rfl := hd _ rfl; obtain rfl := ha _ rfl; exact Build.ofFamily (n := 0x130#10 + t.code) (k := 22) (by cases t <;> decide) f
theorem Build.vhmin (h : Hdr) (t : Elt) (d : Opnd) (a : Opnd) : Build.Statement (.vhmin h t d a) := by
  rintro _ ⟨⟩ _ f rfl hd ha _ _ _
  obtain rfl := hd _ rfl; obtain rfl := ha _ rfl; exact Build.ofFamily (n := 0x138#10 + t.code) (k := 23) (by cases t <;> decide) f
theorem Build.vcvt (h : Hdr) (t : Elt) (d : Opnd) (a : Opnd) (imm : BitVec 15) : Build.Statement (.vcvt h t d a imm) := by
  rintro _ ⟨⟩ _ f rfl hd ha _ hi _
  obtain rfl := hd _ rfl; obtain rfl := ha _ rfl; obtain rfl := hi _ rfl; exact Build.ofFamily (n := 0x140#10 + t.code) (k := 24) (by cases t <;> decide) f
theorem Build.vclass (h : Hdr) (t : Elt) (d : Opnd) (a : Opnd) : Build.Statement (.vclass h t d a) := by
  rintro _ ⟨⟩ _ f rfl hd ha _ _ _
  obtain rfl := hd _ rfl; obtain rfl := ha _ rfl; exact Build.ofFamily (n := 0x148#10 + t.code) (k := 25) (by cases t <;> decide) f
theorem Build.fdiv (h : Hdr) (t : Elt) (d : Opnd) (a : Opnd) (b : Opnd) : Build.Statement (.fdiv h t d a b) := by
  rintro _ ⟨⟩ _ f rfl hd ha hb _ _
  obtain rfl := hd _ rfl; obtain rfl := ha _ rfl; obtain rfl := hb _ rfl; exact Build.ofFamily (n := 0x150#10 + t.code) (k := 26) (by cases t <;> decide) f
theorem Build.fsqrt (h : Hdr) (t : Elt) (d : Opnd) (a : Opnd) : Build.Statement (.fsqrt h t d a) := by
  rintro _ ⟨⟩ _ f rfl hd ha _ _ _
  obtain rfl := hd _ rfl; obtain rfl := ha _ rfl; exact Build.ofFamily (n := 0x158#10 + t.code) (k := 27) (by cases t <;> decide) f
theorem Build.frcp (h : Hdr) (t : Elt) (d : Opnd) (a : Opnd) : Build.Statement (.frcp h t d a) := by
  rintro _ ⟨⟩ _ f rfl hd ha _ _ _
  obtain rfl := hd _ rfl; obtain rfl := ha _ rfl; exact Build.ofFamily (n := 0x160#10 + t.code) (k := 28) (by cases t <;> decide) f
theorem Build.frsq (h : Hdr) (t : Elt) (d : Opnd) (a : Opnd) : Build.Statement (.frsq h t d a) := by
  rintro _ ⟨⟩ _ f rfl hd ha _ _ _
  obtain rfl := hd _ rfl; obtain rfl := ha _ rfl; exact Build.ofFamily (n := 0x168#10 + t.code) (k := 29) (by cases t <;> decide) f
theorem Build.flut (h : Hdr) (t : Elt) (d : Opnd) (a : Opnd) (imm : BitVec 15) : Build.Statement (.flut h t d a imm) := by
  rintro _ ⟨⟩ _ f rfl hd ha _ hi _
  obtain rfl := hd _ rfl; obtain rfl := ha _ rfl; obtain rfl := hi _ rfl; exact Build.ofFamily (n := 0x170#10 + t.code) (k := 30) (by cases t <;> decide) f
theorem Build.lutld (h : Hdr) (t : Elt) (a : Opnd) (imm : BitVec 15) : Build.Statement (.lutld h t a imm) := by
  rintro _ ⟨⟩ _ f rfl _ ha _ hi _
  obtain rfl := ha _ rfl; obtain rfl := hi _ rfl; exact Build.ofFamily (n := 0x178#10 + t.code) (k := 31) (by cases t <;> decide) f
theorem Build.fexps (h : Hdr) (t : Elt) (d : Opnd) (a : Opnd) : Build.Statement (.fexps h t d a) := by
  rintro _ ⟨⟩ _ f rfl hd ha _ _ _
  obtain rfl := hd _ rfl; obtain rfl := ha _ rfl; exact Build.ofFamily (n := 0x180#10 + t.code) (k := 32) (by cases t <;> decide) f
theorem Build.fldx (h : Hdr) (t : Elt) (d : Opnd) (a : Opnd) (b : Opnd) : Build.Statement (.fldx h t d a b) := by
  rintro _ ⟨⟩ _ f rfl hd ha hb _ _
  obtain rfl := hd _ rfl; obtain rfl := ha _ rfl; obtain rfl := hb _ rfl; exact Build.ofFamily (n := 0x188#10 + t.code) (k := 33) (by cases t <;> decide) f
theorem Build.bpack (h : Hdr) (d : Opnd) (a : Opnd) (b : Opnd) : Build.Statement (.bpack h d a b) := by
  rintro _ ⟨⟩ _ f rfl hd ha hb _ _
  obtain rfl := hd _ rfl; obtain rfl := ha _ rfl; obtain rfl := hb _ rfl; rfl
theorem Build.bunpk (h : Hdr) (d : Opnd) (a : Opnd) : Build.Statement (.bunpk h d a) := by
  rintro _ ⟨⟩ _ f rfl hd ha _ _ _
  obtain rfl := hd _ rfl; obtain rfl := ha _ rfl; rfl
theorem Build.balign (h : Hdr) (d : Opnd) (a : Opnd) (b : Opnd) : Build.Statement (.balign h d a b) := by
  rintro _ ⟨⟩ _ f rfl hd ha hb _ _
  obtain rfl := hd _ rfl; obtain rfl := ha _ rfl; obtain rfl := hb _ rfl; rfl
theorem Build.badd (h : Hdr) (d : Opnd) (a : Opnd) (b : Opnd) : Build.Statement (.badd h d a b) := by
  rintro _ ⟨⟩ _ f rfl hd ha hb _ _
  obtain rfl := hd _ rfl; obtain rfl := ha _ rfl; obtain rfl := hb _ rfl; rfl
theorem Build.baddq (h : Hdr) (d : Opnd) (a : Opnd) (b : Opnd) : Build.Statement (.baddq h d a b) := by
  rintro _ ⟨⟩ _ f rfl hd ha hb _ _
  obtain rfl := hd _ rfl; obtain rfl := ha _ rfl; obtain rfl := hb _ rfl; rfl
theorem Build.bscale (h : Hdr) (d : Opnd) (a : Opnd) (b : Opnd) : Build.Statement (.bscale h d a b) := by
  rintro _ ⟨⟩ _ f rfl hd ha hb _ _
  obtain rfl := hd _ rfl; obtain rfl := ha _ rfl; obtain rfl := hb _ rfl; rfl
theorem Build.bnorm (h : Hdr) (d : Opnd) (a : Opnd) : Build.Statement (.bnorm h d a) := by
  rintro _ ⟨⟩ _ f rfl hd ha _ _ _
  obtain rfl := hd _ rfl; obtain rfl := ha _ rfl; rfl
theorem Build.bmaxe (h : Hdr) (d : Opnd) (a : Opnd) : Build.Statement (.bmaxe h d a) := by
  rintro _ ⟨⟩ _ f rfl hd ha _ _ _
  obtain rfl := hd _ rfl; obtain rfl := ha _ rfl; rfl
theorem Build.bmac (h : Hdr) (d : Opnd) (a : Opnd) (b : Opnd) : Build.Statement (.bmac h d a b) := by
  rintro _ ⟨⟩ _ f rfl hd ha hb _ _
  obtain rfl := hd _ rfl; obtain rfl := ha _ rfl; obtain rfl := hb _ rfl; rfl
theorem Build.bhsum (h : Hdr) (d : Opnd) (a : Opnd) : Build.Statement (.bhsum h d a) := by
  rintro _ ⟨⟩ _ f rfl hd ha _ _ _
  obtain rfl := hd _ rfl; obtain rfl := ha _ rfl; rfl
theorem Build.berr (h : Hdr) (d : Opnd) (a : Opnd) (b : Opnd) : Build.Statement (.berr h d a b) := by
  rintro _ ⟨⟩ _ f rfl hd ha hb _ _
  obtain rfl := hd _ rfl; obtain rfl := ha _ rfl; obtain rfl := hb _ rfl; rfl
theorem Build.bcmpz (h : Hdr) (d : Opnd) (a : Opnd) : Build.Statement (.bcmpz h d a) := by
  rintro _ ⟨⟩ _ f rfl hd ha _ _ _
  obtain rfl := hd _ rfl; obtain rfl := ha _ rfl; rfl
theorem Build.bhdr (h : Hdr) (d : Opnd) (a : Opnd) : Build.Statement (.bhdr h d a) := by
  rintro _ ⟨⟩ _ f rfl hd ha _ _ _
  obtain rfl := hd _ rfl; obtain rfl := ha _ rfl; rfl
theorem Build.mlease (h : Hdr) : Build.Statement (.mlease h) := by
  rintro _ ⟨⟩ _ f rfl _ _ _ _ _
  rfl
theorem Build.mrels (h : Hdr) : Build.Statement (.mrels h) := by
  rintro _ ⟨⟩ _ f rfl _ _ _ _ _
  rfl
theorem Build.mcfg (h : Hdr) (a : Opnd) : Build.Statement (.mcfg h a) := by
  rintro _ ⟨⟩ _ f rfl _ ha _ _ _
  obtain rfl := ha _ rfl; rfl
theorem Build.mzero (h : Hdr) (imm : BitVec 15) : Build.Statement (.mzero h imm) := by
  rintro _ ⟨⟩ _ f rfl _ _ _ hi _
  obtain rfl := hi _ rfl; rfl
theorem Build.mlda (h : Hdr) (a : Opnd) (imm : BitVec 15) : Build.Statement (.mlda h a imm) := by
  rintro _ ⟨⟩ _ f rfl _ ha _ hi _
  obtain rfl := ha _ rfl; obtain rfl := hi _ rfl; rfl
theorem Build.mldb (h : Hdr) (a : Opnd) (imm : BitVec 15) : Build.Statement (.mldb h a imm) := by
  rintro _ ⟨⟩ _ f rfl _ ha _ hi _
  obtain rfl := ha _ rfl; obtain rfl := hi _ rfl; rfl
theorem Build.mgatha (h : Hdr) (a : Opnd) (imm : BitVec 15) : Build.Statement (.mgatha h a imm) := by
  rintro _ ⟨⟩ _ f rfl _ ha _ hi _
  obtain rfl := ha _ rfl; obtain rfl := hi _ rfl; rfl
theorem Build.mmac (h : Hdr) (imm : BitVec 15) : Build.Statement (.mmac h imm) := by
  rintro _ ⟨⟩ _ f rfl _ _ _ hi _
  obtain rfl := hi _ rfl; rfl
theorem Build.mstc (h : Hdr) (a : Opnd) (imm : BitVec 15) : Build.Statement (.mstc h a imm) := by
  rintro _ ⟨⟩ hx f rfl _ ha _ hi _
  obtain rfl := ha _ rfl; obtain rfl := hi _ rfl; simp only [Instr.xFits, Bool.not_eq_true'] at hx; simp [build, Forms.isFamily, buildPlain, hx]
theorem Build.mstcQ (h : Hdr) (a : Opnd) (imm : BitVec 15) : Build.Statement (.mstcQ h a imm) := by
  rintro _ ⟨⟩ hx f rfl _ ha _ hi _
  obtain rfl := ha _ rfl; obtain rfl := hi _ rfl; simp only [Instr.xFits] at hx; simp [build, Forms.isFamily, buildPlain, hx]
theorem Build.msave (h : Hdr) (a : Opnd) (imm : BitVec 15) : Build.Statement (.msave h a imm) := by
  rintro _ ⟨⟩ _ f rfl _ ha _ hi _
  obtain rfl := ha _ rfl; obtain rfl := hi _ rfl; rfl
theorem Build.mrstr (h : Hdr) (a : Opnd) (imm : BitVec 15) : Build.Statement (.mrstr h a imm) := by
  rintro _ ⟨⟩ _ f rfl _ ha _ hi _
  obtain rfl := ha _ rfl; obtain rfl := hi _ rfl; rfl
theorem Build.mstat (h : Hdr) (d : Opnd) : Build.Statement (.mstat h d) := by
  rintro _ ⟨⟩ _ f rfl hd _ _ _ _
  obtain rfl := hd _ rfl; rfl
theorem Build.matrixCommandComplete (c : Nat) (id : Nat) : Build.Statement (.matrixCommandComplete c id) := Build.event rfl
theorem Build.mmacKstep (c : Nat) : Build.Statement (.mmacKstep c) := Build.event rfl
theorem Build.matrixLeaseGrant (c : Nat) : Build.Statement (.matrixLeaseGrant c) := Build.event rfl
theorem Build.leaseBudgetExpiry (c : Nat) : Build.Statement (.leaseBudgetExpiry c) := Build.event rfl
theorem Build.ld (h : Hdr) (d : Opnd) (a : Opnd) (imm : BitVec 15) : Build.Statement (.ld h d a imm) := by
  rintro _ ⟨⟩ _ f rfl hd ha _ hi _
  obtain rfl := hd _ rfl; obtain rfl := ha _ rfl; obtain rfl := hi _ rfl; rfl
theorem Build.st (h : Hdr) (d : Opnd) (a : Opnd) (imm : BitVec 15) : Build.Statement (.st h d a imm) := by
  rintro _ ⟨⟩ _ f rfl hd ha _ hi _
  obtain rfl := hd _ rfl; obtain rfl := ha _ rfl; obtain rfl := hi _ rfl; rfl
theorem Build.aadd (h : Hdr) (d : Opnd) (a : Opnd) (imm : BitVec 15) : Build.Statement (.aadd h d a imm) := by
  rintro _ ⟨⟩ _ f rfl hd ha _ hi _
  obtain rfl := hd _ rfl; obtain rfl := ha _ rfl; obtain rfl := hi _ rfl; rfl
theorem Build.amin (h : Hdr) (d : Opnd) (a : Opnd) (imm : BitVec 15) : Build.Statement (.amin h d a imm) := by
  rintro _ ⟨⟩ _ f rfl hd ha _ hi _
  obtain rfl := hd _ rfl; obtain rfl := ha _ rfl; obtain rfl := hi _ rfl; rfl
theorem Build.amax (h : Hdr) (d : Opnd) (a : Opnd) (imm : BitVec 15) : Build.Statement (.amax h d a imm) := by
  rintro _ ⟨⟩ _ f rfl hd ha _ hi _
  obtain rfl := hd _ rfl; obtain rfl := ha _ rfl; obtain rfl := hi _ rfl; rfl
theorem Build.aminn (h : Hdr) (d : Opnd) (a : Opnd) (imm : BitVec 15) : Build.Statement (.aminn h d a imm) := by
  rintro _ ⟨⟩ _ f rfl hd ha _ hi _
  obtain rfl := hd _ rfl; obtain rfl := ha _ rfl; obtain rfl := hi _ rfl; rfl
theorem Build.amaxn (h : Hdr) (d : Opnd) (a : Opnd) (imm : BitVec 15) : Build.Statement (.amaxn h d a imm) := by
  rintro _ ⟨⟩ _ f rfl hd ha _ hi _
  obtain rfl := hd _ rfl; obtain rfl := ha _ rfl; obtain rfl := hi _ rfl; rfl
theorem Build.aand (h : Hdr) (d : Opnd) (a : Opnd) (imm : BitVec 15) : Build.Statement (.aand h d a imm) := by
  rintro _ ⟨⟩ _ f rfl hd ha _ hi _
  obtain rfl := hd _ rfl; obtain rfl := ha _ rfl; obtain rfl := hi _ rfl; rfl
theorem Build.aor (h : Hdr) (d : Opnd) (a : Opnd) (imm : BitVec 15) : Build.Statement (.aor h d a imm) := by
  rintro _ ⟨⟩ _ f rfl hd ha _ hi _
  obtain rfl := hd _ rfl; obtain rfl := ha _ rfl; obtain rfl := hi _ rfl; rfl
theorem Build.axor (h : Hdr) (d : Opnd) (a : Opnd) (imm : BitVec 15) : Build.Statement (.axor h d a imm) := by
  rintro _ ⟨⟩ _ f rfl hd ha _ hi _
  obtain rfl := hd _ rfl; obtain rfl := ha _ rfl; obtain rfl := hi _ rfl; rfl
theorem Build.aswap (h : Hdr) (d : Opnd) (a : Opnd) (imm : BitVec 15) : Build.Statement (.aswap h d a imm) := by
  rintro _ ⟨⟩ _ f rfl hd ha _ hi _
  obtain rfl := hd _ rfl; obtain rfl := ha _ rfl; obtain rfl := hi _ rfl; rfl
theorem Build.acas (h : Hdr) (d : Opnd) (a : Opnd) (imm : BitVec 15) : Build.Statement (.acas h d a imm) := by
  rintro _ ⟨⟩ _ f rfl hd ha _ hi _
  obtain rfl := hd _ rfl; obtain rfl := ha _ rfl; obtain rfl := hi _ rfl; rfl
theorem Build.afadd (h : Hdr) (d : Opnd) (a : Opnd) (imm : BitVec 15) : Build.Statement (.afadd h d a imm) := by
  rintro _ ⟨⟩ _ f rfl hd ha _ hi _
  obtain rfl := hd _ rfl; obtain rfl := ha _ rfl; obtain rfl := hi _ rfl; rfl
theorem Build.redi (h : Hdr) (d : Opnd) (a : Opnd) (imm : BitVec 15) : Build.Statement (.redi h d a imm) := by
  rintro _ ⟨⟩ _ f rfl hd ha _ hi _
  obtain rfl := hd _ rfl; obtain rfl := ha _ rfl; obtain rfl := hi _ rfl; rfl
theorem Build.redf (h : Hdr) (d : Opnd) (a : Opnd) (imm : BitVec 15) : Build.Statement (.redf h d a imm) := by
  rintro _ ⟨⟩ _ f rfl hd ha _ hi _
  obtain rfl := hd _ rfl; obtain rfl := ha _ rfl; obtain rfl := hi _ rfl; rfl
theorem Build.redb (h : Hdr) (d : Opnd) (a : Opnd) (imm : BitVec 15) : Build.Statement (.redb h d a imm) := by
  rintro _ ⟨⟩ _ f rfl hd ha _ hi _
  obtain rfl := hd _ rfl; obtain rfl := ha _ rfl; obtain rfl := hi _ rfl; rfl
theorem Build.fence (h : Hdr) (imm : BitVec 15) : Build.Statement (.fence h imm) := by
  rintro _ ⟨⟩ _ f rfl _ _ _ hi _
  obtain rfl := hi _ rfl; rfl
theorem Build.spill (h : Hdr) (d : Opnd) (a : Opnd) (imm : BitVec 15) : Build.Statement (.spill h d a imm) := by
  rintro _ ⟨⟩ _ f rfl hd ha _ hi _
  obtain rfl := hd _ rfl; obtain rfl := ha _ rfl; obtain rfl := hi _ rfl; rfl
theorem Build.fill (h : Hdr) (d : Opnd) (a : Opnd) (imm : BitVec 15) : Build.Statement (.fill h d a imm) := by
  rintro _ ⟨⟩ _ f rfl hd ha _ hi _
  obtain rfl := hd _ rfl; obtain rfl := ha _ rfl; obtain rfl := hi _ rfl; rfl
theorem Build.push (h : Hdr) (d : Opnd) (a : Opnd) : Build.Statement (.push h d a) := by
  rintro _ ⟨⟩ _ f rfl hd ha _ _ _
  obtain rfl := hd _ rfl; obtain rfl := ha _ rfl; rfl
theorem Build.pop (h : Hdr) (d : Opnd) (a : Opnd) : Build.Statement (.pop h d a) := by
  rintro _ ⟨⟩ _ f rfl hd ha _ _ _
  obtain rfl := hd _ rfl; obtain rfl := ha _ rfl; rfl
theorem Build.peek (h : Hdr) (d : Opnd) (a : Opnd) : Build.Statement (.peek h d a) := by
  rintro _ ⟨⟩ _ f rfl hd ha _ _ _
  obtain rfl := hd _ rfl; obtain rfl := ha _ rfl; rfl
theorem Build.pdrain (h : Hdr) (d : Opnd) (a : Opnd) : Build.Statement (.pdrain h d a) := by
  rintro _ ⟨⟩ _ f rfl hd ha _ _ _
  obtain rfl := hd _ rfl; obtain rfl := ha _ rfl; rfl
theorem Build.pcnt (h : Hdr) (d : Opnd) (a : Opnd) : Build.Statement (.pcnt h d a) := by
  rintro _ ⟨⟩ _ f rfl hd ha _ _ _
  obtain rfl := hd _ rfl; obtain rfl := ha _ rfl; rfl
theorem Build.pcfg (h : Hdr) (d : Opnd) (a : Opnd) (imm : BitVec 15) : Build.Statement (.pcfg h d a imm) := by
  rintro _ ⟨⟩ _ f rfl hd ha _ hi _
  obtain rfl := hd _ rfl; obtain rfl := ha _ rfl; obtain rfl := hi _ rfl; rfl
theorem Build.portPushRetest (c : Nat) (t : Nat) : Build.Statement (.portPushRetest c t) := Build.event rfl
theorem Build.portGroupComplete (c : Nat) (t : Nat) (q : Nat) : Build.Statement (.portGroupComplete c t q) := Build.event rfl
theorem Build.portRoomReturn (c : Nat) (t : Nat) (q : Nat) : Build.Statement (.portRoomReturn c t q) := Build.event rfl
theorem Build.send (h : Hdr) (d : Opnd) (a : Opnd) : Build.Statement (.send h d a) := by
  rintro _ ⟨⟩ _ f rfl hd ha _ _ _
  obtain rfl := hd _ rfl; obtain rfl := ha _ rfl; rfl
theorem Build.sendm (h : Hdr) (d : Opnd) (a : Opnd) : Build.Statement (.sendm h d a) := by
  rintro _ ⟨⟩ _ f rfl hd ha _ _ _
  obtain rfl := hd _ rfl; obtain rfl := ha _ rfl; rfl
theorem Build.reply (h : Hdr) (a : Opnd) : Build.Statement (.reply h a) := by
  rintro _ ⟨⟩ _ f rfl _ ha _ _ _
  obtain rfl := ha _ rfl; rfl
theorem Build.refuse (h : Hdr) : Build.Statement (.refuse h) := by
  rintro _ ⟨⟩ _ f rfl _ _ _ _ _
  rfl
theorem Build.hset (h : Hdr) (a : Opnd) : Build.Statement (.hset h a) := by
  rintro _ ⟨⟩ _ f rfl _ ha _ _ _
  obtain rfl := ha _ rfl; rfl
theorem Build.hexit (h : Hdr) : Build.Statement (.hexit h) := by
  rintro _ ⟨⟩ _ f rfl _ _ _ _ _
  rfl
theorem Build.mbxcfg (h : Hdr) (d : Opnd) (a : Opnd) : Build.Statement (.mbxcfg h d a) := by
  rintro _ ⟨⟩ _ f rfl hd ha _ _ _
  obtain rfl := hd _ rfl; obtain rfl := ha _ rfl; rfl
theorem Build.waitev (h : Hdr) (d : Opnd) : Build.Statement (.waitev h d) := by
  rintro _ ⟨⟩ _ f rfl hd _ _ _ _
  obtain rfl := hd _ rfl; rfl
theorem Build.pollev (h : Hdr) (d : Opnd) : Build.Statement (.pollev h d) := by
  rintro _ ⟨⟩ _ f rfl hd _ _ _ _
  obtain rfl := hd _ rfl; rfl
theorem Build.messageArrival (id : Nat) : Build.Statement (.messageArrival id) := Build.event rfl
theorem Build.handlerStart (c : Nat) : Build.Statement (.handlerStart c) := Build.event rfl
theorem Build.eventDelivery (id : Nat) : Build.Statement (.eventDelivery id) := Build.event rfl
theorem Build.cpy (h : Hdr) (d : Opnd) (a : Opnd) (imm : BitVec 15) : Build.Statement (.cpy h d a imm) := by
  rintro _ ⟨⟩ _ f rfl hd ha _ hi _
  obtain rfl := hd _ rfl; obtain rfl := ha _ rfl; obtain rfl := hi _ rfl; rfl
theorem Build.cpyr (h : Hdr) (d : Opnd) (a : Opnd) (imm : BitVec 15) : Build.Statement (.cpyr h d a imm) := by
  rintro _ ⟨⟩ _ f rfl hd ha _ hi _
  obtain rfl := hd _ rfl; obtain rfl := ha _ rfl; obtain rfl := hi _ rfl; rfl
theorem Build.sortk (h : Hdr) (d : Opnd) (a : Opnd) (imm : BitVec 15) : Build.Statement (.sortk h d a imm) := by
  rintro _ ⟨⟩ _ f rfl hd ha _ hi _
  obtain rfl := hd _ rfl; obtain rfl := ha _ rfl; obtain rfl := hi _ rfl; rfl
theorem Build.qfence (h : Hdr) (imm : BitVec 15) : Build.Statement (.qfence h imm) := by
  rintro _ ⟨⟩ _ f rfl _ _ _ hi _
  obtain rfl := hi _ rfl; rfl
theorem Build.engst (h : Hdr) (d : Opnd) (imm : BitVec 15) : Build.Statement (.engst h d imm) := by
  rintro _ ⟨⟩ _ f rfl hd _ _ hi _
  obtain rfl := hd _ rfl; obtain rfl := hi _ rfl; rfl
theorem Build.engineCommandComplete (c : Nat) (q : Nat) : Build.Statement (.engineCommandComplete c q) := Build.event rfl
theorem Build.rtree (h : Hdr) (d : Opnd) (a : Opnd) : Build.Statement (.rtree h d a) := by
  rintro _ ⟨⟩ _ f rfl hd ha _ _ _
  obtain rfl := hd _ rfl; obtain rfl := ha _ rfl; rfl
theorem Build.rsend (h : Hdr) (d : Opnd) (a : Opnd) (imm : BitVec 15) : Build.Statement (.rsend h d a imm) := by
  rintro _ ⟨⟩ _ f rfl hd ha _ hi _
  obtain rfl := hd _ rfl; obtain rfl := ha _ rfl; obtain rfl := hi _ rfl; rfl
theorem Build.rwait (h : Hdr) (d : Opnd) (imm : BitVec 15) : Build.Statement (.rwait h d imm) := by
  rintro _ ⟨⟩ _ f rfl hd _ _ hi _
  obtain rfl := hd _ rfl; obtain rfl := hi _ rfl; rfl
theorem Build.rabort (h : Hdr) (imm : BitVec 15) : Build.Statement (.rabort h imm) := by
  rintro _ ⟨⟩ _ f rfl _ _ _ hi _
  obtain rfl := hi _ rfl; rfl
theorem Build.treePartialArrival (id : Nat) : Build.Statement (.treePartialArrival id) := Build.event rfl
theorem Build.treeRackWordArrival (id : Nat) : Build.Statement (.treeRackWordArrival id) := Build.event rfl
theorem Build.treeTimeout (c : Nat) (k : Nat) (blk : Nat) : Build.Statement (.treeTimeout c k blk) := Build.event rfl
theorem Build.treeResultDelivery (id : Nat) : Build.Statement (.treeResultDelivery id) := Build.event rfl
theorem Build.treeAbortArrival (id : Nat) : Build.Statement (.treeAbortArrival id) := Build.event rfl
theorem Build.coll (h : Hdr) (d : Opnd) (a : Opnd) : Build.Statement (.coll h d a) := by
  rintro _ ⟨⟩ _ f rfl hd ha _ _ _
  obtain rfl := hd _ rfl; obtain rfl := ha _ rfl; rfl
theorem Build.collw (h : Hdr) (d : Opnd) (a : Opnd) : Build.Statement (.collw h d a) := by
  rintro _ ⟨⟩ _ f rfl hd ha _ _ _
  obtain rfl := hd _ rfl; obtain rfl := ha _ rfl; rfl
theorem Build.collStepStart (id : Nat) : Build.Statement (.collStepStart id) := Build.event rfl
theorem Build.collStepArrival (id : Nat) (src : Nat) (packet : List Byte) : Build.Statement (.collStepArrival id src packet) := Build.event rfl
theorem Build.collMemberTimeout (id : Nat) : Build.Statement (.collMemberTimeout id) := Build.event rfl
theorem Build.collComplete (id : Nat) : Build.Statement (.collComplete id) := Build.event rfl
theorem Build.bdisp (h : Hdr) (d : Opnd) (a : Opnd) : Build.Statement (.bdisp h d a) := by
  rintro _ ⟨⟩ _ f rfl hd ha _ _ _
  obtain rfl := hd _ rfl; obtain rfl := ha _ rfl; rfl
theorem Build.twait (h : Hdr) (d : Opnd) (a : Opnd) : Build.Statement (.twait h d a) := by
  rintro _ ⟨⟩ _ f rfl hd ha _ _ _
  obtain rfl := hd _ rfl; obtain rfl := ha _ rfl; rfl
theorem Build.spawn (h : Hdr) (d : Opnd) (a : Opnd) (b : Opnd) : Build.Statement (.spawn h d a b) := by
  rintro _ ⟨⟩ _ f rfl hd ha hb _ _
  obtain rfl := hd _ rfl; obtain rfl := ha _ rfl; obtain rfl := hb _ rfl; rfl
theorem Build.join (h : Hdr) (d : Opnd) (a : Opnd) (imm : BitVec 15) : Build.Statement (.join h d a imm) := by
  rintro _ ⟨⟩ _ f rfl hd ha _ hi _
  obtain rfl := hd _ rfl; obtain rfl := ha _ rfl; obtain rfl := hi _ rfl; rfl
theorem Build.taskid (h : Hdr) (d : Opnd) (imm : BitVec 15) : Build.Statement (.taskid h d imm) := by
  rintro _ ⟨⟩ _ f rfl hd _ _ hi _
  obtain rfl := hd _ rfl; obtain rfl := hi _ rfl; rfl
theorem Build.bar (h : Hdr) (d : Opnd) (a : Opnd) (imm : BitVec 15) : Build.Statement (.bar h d a imm) := by
  rintro _ ⟨⟩ _ f rfl hd ha _ hi _
  obtain rfl := hd _ rfl; obtain rfl := ha _ rfl; obtain rfl := hi _ rfl; rfl
theorem Build.arrive (h : Hdr) (d : Opnd) (a : Opnd) (imm : BitVec 15) : Build.Statement (.arrive h d a imm) := by
  rintro _ ⟨⟩ _ f rfl hd ha _ hi _
  obtain rfl := hd _ rfl; obtain rfl := ha _ rfl; obtain rfl := hi _ rfl; rfl
theorem Build.waitb (h : Hdr) (a : Opnd) (imm : BitVec 15) : Build.Statement (.waitb h a imm) := by
  rintro _ ⟨⟩ _ f rfl _ ha _ hi _
  obtain rfl := ha _ rfl; obtain rfl := hi _ rfl; rfl
theorem Build.launch (h : Hdr) (d : Opnd) (a : Opnd) : Build.Statement (.launch h d a) := by
  rintro _ ⟨⟩ _ f rfl hd ha _ _ _
  obtain rfl := hd _ rfl; obtain rfl := ha _ rfl; rfl
theorem Build.taskQueueStart (c : Nat) : Build.Statement (.taskQueueStart c) := Build.event rfl
theorem Build.dlogh (h : Hdr) : Build.Statement (.dlogh h) := by
  rintro _ ⟨⟩ _ f rfl _ _ _ _ _
  rfl
theorem Build.tinv (h : Hdr) (a : Opnd) (imm : BitVec 15) : Build.Statement (.tinv h a imm) := by
  rintro _ ⟨⟩ _ f rfl _ ha _ hi _
  obtain rfl := ha _ rfl; obtain rfl := hi _ rfl; rfl
theorem Build.trap (h : Hdr) (imm : BitVec 15) : Build.Statement (.trap h imm) := by
  rintro _ ⟨⟩ _ f rfl _ _ _ hi _
  obtain rfl := hi _ rfl; rfl
theorem Build.eret (h : Hdr) : Build.Statement (.eret h) := by
  rintro _ ⟨⟩ _ f rfl _ _ _ _ _
  rfl
theorem Build.csrr (h : Hdr) (d : Opnd) (imm : BitVec 15) : Build.Statement (.csrr h d imm) := by
  rintro _ ⟨⟩ _ f rfl hd _ _ hi _
  obtain rfl := hd _ rfl; obtain rfl := hi _ rfl; rfl
theorem Build.csrw (h : Hdr) (d : Opnd) (a : Opnd) (imm : BitVec 15) : Build.Statement (.csrw h d a imm) := by
  rintro _ ⟨⟩ _ f rfl hd ha _ hi _
  obtain rfl := hd _ rfl; obtain rfl := ha _ rfl; obtain rfl := hi _ rfl; rfl
theorem Build.csrs (h : Hdr) (d : Opnd) (a : Opnd) (imm : BitVec 15) : Build.Statement (.csrs h d a imm) := by
  rintro _ ⟨⟩ _ f rfl hd ha _ hi _
  obtain rfl := hd _ rfl; obtain rfl := ha _ rfl; obtain rfl := hi _ rfl; rfl
theorem Build.csrc (h : Hdr) (d : Opnd) (a : Opnd) (imm : BitVec 15) : Build.Statement (.csrc h d a imm) := by
  rintro _ ⟨⟩ _ f rfl hd ha _ hi _
  obtain rfl := hd _ rfl; obtain rfl := ha _ rfl; obtain rfl := hi _ rfl; rfl
theorem Build.brk (h : Hdr) (imm : BitVec 15) : Build.Statement (.brk h imm) := by
  rintro _ ⟨⟩ _ f rfl _ _ _ hi _
  obtain rfl := hi _ rfl; rfl
theorem Build.sysc (h : Hdr) (imm : BitVec 15) : Build.Statement (.sysc h imm) := by
  rintro _ ⟨⟩ _ f rfl _ _ _ hi _
  obtain rfl := hi _ rfl; rfl
theorem Build.idle (h : Hdr) : Build.Statement (.idle h) := by
  rintro _ ⟨⟩ _ f rfl _ _ _ _ _
  rfl
theorem Build.resultLanding (c : Nat) (t : Nat) (id : Nat) : Build.Statement (.resultLanding c t id) := Build.event rfl
theorem Build.accessArrival (id : Nat) : Build.Statement (.accessArrival id) := Build.event rfl
theorem Build.ackArrival (id : Nat) : Build.Statement (.ackArrival id) := Build.event rfl
theorem Build.accessResend (id : Nat) : Build.Statement (.accessResend id) := Build.event rfl
theorem Build.streamAdmitRetry (id : Nat) : Build.Statement (.streamAdmitRetry id) := Build.event rfl
theorem Build.releaseClearance (id : Nat) : Build.Statement (.releaseClearance id) := Build.event rfl
theorem Build.releaseCancel (id : Nat) : Build.Statement (.releaseCancel id) := Build.event rfl
theorem Build.remoteRetest (id : Nat) : Build.Statement (.remoteRetest id) := Build.event rfl
theorem Build.replicaInvalidateAck (id : Nat) (p : Nat) : Build.Statement (.replicaInvalidateAck id p) := Build.event rfl
theorem Build.edgeTranslationWalk (id : Nat) : Build.Statement (.edgeTranslationWalk id) := Build.event rfl
theorem Build.storageFault (id : Nat) : Build.Statement (.storageFault id) := Build.event rfl
theorem Build.pageFillComplete (e : Nat) (id : Nat) : Build.Statement (.pageFillComplete e id) := Build.event rfl
theorem Build.nvmeCommandFail (e : Nat) (id : Nat) (code : Nat) : Build.Statement (.nvmeCommandFail e id code) := Build.event rfl
theorem Build.frameEviction (e : Nat) (pool : Nat) : Build.Statement (.frameEviction e pool) := Build.event rfl
theorem Build.dlogMerge (c : Nat) : Build.Statement (.dlogMerge c) := Build.event rfl
theorem Build.detWindowClose (l : Nat) : Build.Statement (.detWindowClose l) := Build.event rfl
theorem Build.windowDrowsy (c : Nat) (t : Nat) : Build.Statement (.windowDrowsy c t) := Build.event rfl
theorem Build.descriptorRead (q : Nat) : Build.Statement (.descriptorRead q) := Build.event rfl
theorem Build.bunchPlace (l : Nat) : Build.Statement (.bunchPlace l) := Build.event rfl
theorem Build.roundEnd (l : Nat) : Build.Statement (.roundEnd l) := Build.event rfl
theorem Build.bunchRetire (l : Nat) (b : Nat) : Build.Statement (.bunchRetire l b) := Build.event rfl
theorem Build.launchComplete (l : Nat) : Build.Statement (.launchComplete l) := Build.event rfl
theorem Build.deadlockReport (l : Nat) : Build.Statement (.deadlockReport l) := Build.event rfl
theorem Build.watchdogExpiry (l : Nat) (b : Nat) (tw : Nat) : Build.Statement (.watchdogExpiry l b tw) := Build.event rfl
theorem Build.bunchHalt (c : Nat) : Build.Statement (.bunchHalt c) := Build.event rfl
theorem Build.orphanTimeout (l : Nat) (b : Nat) : Build.Statement (.orphanTimeout l b) := Build.event rfl
theorem Build.bunchSave (l : Nat) (b : Nat) : Build.Statement (.bunchSave l b) := Build.event rfl
theorem Build.bunchSwapIn (l : Nat) (b : Nat) : Build.Statement (.bunchSwapIn l b) := Build.event rfl
theorem Build.coreFailure (c : Nat) : Build.Statement (.coreFailure c) := Build.event rfl
theorem Build.meshLinkFailure (c : Nat) (dir : Nat) : Build.Statement (.meshLinkFailure c dir) := Build.event rfl
theorem Build.grafting (f : Nat) (ok : Bool) : Build.Statement (.grafting f ok) := Build.event rfl
theorem Build.hostLinkTrained (p : Nat) : Build.Statement (.hostLinkTrained p) := Build.event rfl
theorem Build.edgeMemoryTrained (p : Nat) (size : Nat) : Build.Statement (.edgeMemoryTrained p size) := Build.event rfl
theorem Build.cellarDrivesReady (e : Nat) (drives : Nat) : Build.Statement (.cellarDrivesReady e drives) := Build.event rfl
theorem Build.linkPortLocked (p : Nat) : Build.Statement (.linkPortLocked p) := Build.event rfl
theorem Build.linkPortDown (p : Nat) : Build.Statement (.linkPortDown p) := Build.event rfl
theorem Build.linkRekey (p : Nat) : Build.Statement (.linkRekey p) := Build.event rfl
theorem Build.traceFrameClose (f : Nat) : Build.Statement (.traceFrameClose f) := Build.event rfl
theorem Build.traceFrameTimeout (f : Nat) (n : Nat) : Build.Statement (.traceFrameTimeout f n) := Build.event rfl
theorem Build.waferTimeReachesTarget (c : Nat) (t : Nat) : Build.Statement (.waferTimeReachesTarget c t) := Build.event rfl
theorem Build.softError (kind : Nat) (a : Nat) : Build.Statement (.softError kind a) := Build.event rfl
theorem Build.pageWriteBackComplete (e : Nat) (id : Nat) (ok : Bool) : Build.Statement (.pageWriteBackComplete e id ok) := Build.event rfl
theorem Build.nop : Build.Statement (.nop) := by
  rintro _ ⟨⟩ _ f _ _ _ _ _ _
  rfl
theorem Build.trapEntry : Build.Statement (.trapEntry) := Build.event rfl
theorem Build.streamWindowRetire : Build.Statement (.streamWindowRetire) := Build.event rfl
theorem Build.lqTailWrite : Build.Statement (.lqTailWrite) := Build.event rfl
theorem Build.lqHeadWrite : Build.Statement (.lqHeadWrite) := Build.event rfl
theorem Build.lqEnable : Build.Statement (.lqEnable) := Build.event rfl
theorem Build.lqDisable : Build.Statement (.lqDisable) := Build.event rfl
theorem Build.lqCrdWrite : Build.Statement (.lqCrdWrite) := Build.event rfl
theorem Build.preCtlPreempt : Build.Statement (.preCtlPreempt) := Build.event rfl
theorem Build.preCtlRelease : Build.Statement (.preCtlRelease) := Build.event rfl
theorem Build.preCtlAbort : Build.Statement (.preCtlAbort) := Build.event rfl
theorem Build.preCtlArmWatchdog : Build.Statement (.preCtlArmWatchdog) := Build.event rfl
theorem Build.tnRdWrite : Build.Statement (.tnRdWrite) := Build.event rfl
theorem Build.tnBaseWrite : Build.Statement (.tnBaseWrite) := Build.event rfl
theorem Build.powerUp : Build.Statement (.powerUp) := Build.event rfl
theorem Build.reset : Build.Statement (.reset) := Build.event rfl
theorem Build.linkFlitRetry : Build.Statement (.linkFlitRetry) := Build.event rfl
theorem Build.timeSync : Build.Statement (.timeSync) := Build.event rfl
theorem Build.rslice : Build.Statement (.rslice) := Build.event rfl
theorem Build.wslice : Build.Statement (.wslice) := Build.event rfl
theorem Build.rcsr : Build.Statement (.rcsr) := Build.event rfl
theorem Build.wcsr : Build.Statement (.wcsr) := Build.event rfl
theorem Build.rmem : Build.Statement (.rmem) := Build.event rfl
theorem Build.wmem : Build.Statement (.wmem) := Build.event rfl
theorem Build.halt : Build.Statement (.halt) := Build.event rfl
theorem Build.haltb : Build.Statement (.haltb) := Build.event rfl
theorem Build.resume : Build.Statement (.resume) := Build.event rfl
theorem Build.step : Build.Statement (.step) := Build.event rfl
theorem Build.setbp : Build.Statement (.setbp) := Build.event rfl
theorem Build.rsave : Build.Statement (.rsave) := Build.event rfl
theorem Build.wsave : Build.Statement (.wsave) := Build.event rfl
theorem Build.brkmode : Build.Statement (.brkmode) := Build.event rfl
theorem Build.dbgAuthNewchal : Build.Statement (.dbgAuthNewchal) := Build.event rfl
theorem Build.dbgAuthVerify : Build.Statement (.dbgAuthVerify) := Build.event rfl
theorem Build.authLockoutExpiry : Build.Statement (.authLockoutExpiry) := Build.event rfl
theorem Build.dbgSecWrite : Build.Statement (.dbgSecWrite) := Build.event rfl
theorem Build.dbgLvlWrite : Build.Statement (.dbgLvlWrite) := Build.event rfl
theorem Build.attestationGo : Build.Statement (.attestationGo) := Build.event rfl
theorem Build.attestationReportDone : Build.Statement (.attestationReportDone) := Build.event rfl
theorem Build.rtvgo : Build.Statement (.rtvgo) := Build.event rfl
theorem Build.standbyRequest : Build.Statement (.standbyRequest) := Build.event rfl
theorem Build.standbyExit : Build.Statement (.standbyExit) := Build.event rfl
theorem Build.accessTableWrite : Build.Statement (.accessTableWrite) := Build.event rfl
theorem Build.tracePcSample : Build.Statement (.tracePcSample) := Build.event rfl
theorem Build.trCtlWrite : Build.Statement (.trCtlWrite) := Build.event rfl
theorem Build.trRdWrite : Build.Statement (.trRdWrite) := Build.event rfl
theorem Build.registerWrite : Build.Statement (.registerWrite) := Build.event rfl
theorem Build.wordNotAnInstruction : Build.Statement (.wordNotAnInstruction) := Build.event rfl

end Sys2Proof.Laws
end

