-- ==== Sys2Proof/Laws/Reading.lean ====
section
/-! SUPPORT. Sources as read: an operand brought to a width fits it, widths are those of Table 3.2, and the lanes of an
image have its bits. -/

namespace Sys2Proof.Machine

open Sys2Proof

/-- The bits of an image cut to `w` bits. -/
theorem testBit_trunc (v w k : Nat) : (trunc v w).testBit k = (decide (k < w) && v.testBit k) := by
  simp [trunc, Nat.testBit_mod_two_pow]

/-- What is cut to `w` bits fits them. -/
theorem trunc_lt (v w : Nat) : trunc v w < 2 ^ w := Nat.mod_lt _ (Nat.two_pow_pos w)

/-- What fits `w` bits is not changed by the cut. -/
theorem trunc_of_lt {v w : Nat} (h : v < 2 ^ w) : trunc v w = v := Nat.mod_eq_of_lt h

/-- The bits of lanes laid side by side. -/
theorem testBit_joinLanes {w : Nat} (hw : 0 < w) (l : List Nat) (k : Nat) :
    (joinLanes w l).testBit k = (l.getD (k / w) 0).testBit (k % w) := by
  induction l generalizing k with
  | nil => simp [joinLanes]
  | cons x xs ih =>
    simp only [joinLanes]
    rw [Nat.shiftLeft_eq, Nat.add_comm, Nat.mul_comm, Nat.testBit_two_pow_mul_add _ (Nat.mod_lt _ (Nat.two_pow_pos w))]
    by_cases h : k < w
    · simp [h, Nat.div_eq_of_lt h, Nat.mod_eq_of_lt h, Nat.testBit_mod_two_pow]
    · have e : k = (k - w) + w := by omega
      have h1 : k / w = (k - w) / w + 1 := by
        rw [← Nat.add_div_right _ hw, ← e]
      have h2 : k % w = (k - w) % w := by
        rw [← Nat.add_mod_right (k - w) w, ← e]
      simp only [h, if_false, ih, h1, h2, List.getD_cons_succ]

/-- A width code names 4 times a power of two bits (Table 3.2), and a flag one bit. -/
theorem opndWidth_cases {o : Opnd} {w : Nat} (h : opndWidth o = some w) : w = 1 ∨ ∃ k, w = 4 * 2 ^ k := by
  cases o <;> simp only [opndWidth, Option.some.injEq, reduceCtorEq] at h
  · exact .inr ⟨_, h.symm⟩
  · exact .inl h.symm

/-- The operation width of R59 is 1 or 4 times a power of two. -/
theorem opWidth_cases (v : View) : opWidth v = 1 ∨ ∃ k, opWidth v = 4 * 2 ^ k := by
  have key : ∀ o w, Option.bind o opndWidth = some w → w = 1 ∨ ∃ k, w = 4 * 2 ^ k := by
    intro o w h
    cases o with
    | none => simp at h
    | some o => exact opndWidth_cases h
  simp only [opWidth]
  split
  · rename_i w h; exact key _ _ h
  · cases ha : Option.bind v.a opndWidth with
    | none =>
      cases hb : Option.bind v.b opndWidth with
      | none => exact .inr ⟨3, rfl⟩
      | some y => exact key _ _ hb
    | some x =>
      cases hb : Option.bind v.b opndWidth with
      | none => exact key _ _ ha
      | some y =>
        simp only [widerOf, Option.getD_some, Nat.max_def]
        split
        · exact key _ _ hb
        · exact key _ _ ha

/-- No instruction works on no bits. -/
theorem opWidth_pos (v : View) : 0 < opWidth v := by
  rcases opWidth_cases v with h | ⟨k, h⟩ <;> rw [h]
  · omega
  · have := Nat.two_pow_pos k; omega

/-- A sign extension fits the width it extends to. -/
theorem sext_lt {v n w : Nat} (hv : v < 2 ^ n) (h : n ≤ w) : sext v n w < 2 ^ w := by
  have := Nat.pow_le_pow_right (n := 2) (by omega) h
  simp only [sext]
  split <;> omega

/-- An extension of an n-bit source fits the width it is brought to (R60). -/
theorem extend_lt {v n w : Nat} {x : Bool} (hv : v < 2 ^ n) : extend v n w x < 2 ^ w := by
  simp only [extend]
  split
  · exact trunc_lt v w
  · have := Nat.pow_le_pow_right (n := 2) (by omega) (show n ≤ w by omega)
    split
    · omega
    · exact sext_lt hv (by omega)

/-- The value of a source fits its natural width. -/
theorem rawRead_lt (s : State) (c t img popped : Nat) (l : Loc) (h : 0 < l.naturalWidth) :
    rawRead s c t img popped l < 2 ^ l.naturalWidth := by
  cases l <;> simp only [Loc.naturalWidth, Nat.lt_irrefl] at h <;> simp only [rawRead, Loc.naturalWidth] <;>
    first
    | exact Nat.mod_lt _ (Nat.two_pow_pos _)
    | exact BitVec.isLt _
    | exact trunc_lt _ _

/-- A source fits the width it is brought to (R60). -/
theorem readLoc_lt (s : State) (c t img popped : Nat) (l : Loc) (w : Nat) (x : Bool) :
    readLoc s c t img popped l w x < 2 ^ w := by
  have p := Nat.two_pow_pos w
  cases l <;> simp only [readLoc] <;>
    first
    | exact trunc_lt _ _
    | exact p
    | (refine extend_lt (rawRead_lt _ _ _ _ _ _ ?_); simp [Loc.naturalWidth]; done)
    | skip
  rename_i st n
  by_cases hn : 0 < n
  · exact extend_lt (rawRead_lt _ _ _ _ _ _ (by simp only [Loc.naturalWidth]; omega))
  · have : n = 0 := by omega
    subst this
    simp only [rawRead, Loc.naturalWidth, Nat.mul_zero]
    exact extend_lt (by simp [bits, Nat.mod_one])

/-- A fits the width it is read at. -/
theorem Ctx.a_lt (x : Ctx) (w : Nat) (zx : Bool) : x.a w zx < 2 ^ w := readLoc_lt _ _ _ _ _ _ _ _
/-- B fits the width it is read at. -/
theorem Ctx.b_lt (x : Ctx) (w : Nat) (zx : Bool) : x.b w zx < 2 ^ w := readLoc_lt _ _ _ _ _ _ _ _
/-- D fits the width it is read at. -/
theorem Ctx.d_lt (x : Ctx) (w : Nat) (zx : Bool) : x.d w zx < 2 ^ w := readLoc_lt _ _ _ _ _ _ _ _

/-- Checks that answer no stop hold none. -/
theorem firstStop_ok {l : List (Option Stop)} (h : firstStop l = .ok ()) : ∀ x ∈ l, x = none := by
  induction l with
  | nil => simp
  | cons x xs ih =>
    cases x with
    | none => simpa using ih h
    | some e => simp [firstStop] at h

/-- An instruction that passes its checks has operands its description admits. -/
theorem legal_of_afterGuard {sp : Spec} {s : State} (h : afterGuard sp s = .ok ()) : sp.legal = true := by
  have : legalStop sp s.me = none := by
    simp only [afterGuard] at h
    split at h <;> exact firstStop_ok h _ (by simp)
  simp only [legalStop] at this
  split at this
  · simp_all
  · cases this

end Sys2Proof.Machine
end

