-- ==== Sys2Proof/Tests/Slice0.lean ====
section
/-! SUPPORT. Tests of the model: ill-formed terms, words written out from the encoding tables, single steps with results
worked out by hand from the rules, and for every statement a state and operands that meet its hypotheses. -/

namespace Sys2Proof.Tests

set_option maxRecDepth 10000
set_option Elab.async false

open Sys2Proof Sys2Proof.Machine Sys2Proof.Stated

/-! ## A small machine -/

/-- A loaded program on core 0: root thread 0 at PC 0, about to execute, with all of its window. -/
def base : State := focus 0 0 (State.reset.withFetchWord 80 0)

/-- `base` with window bits from `lo` on set. -/
def put (lo w v : Nat) (s : State) : State :=
  s.modMe fun th => { th with window := BitVec.ofNat 8192 (setBits th.window.toNat lo w v) }

/-- The fields of an instruction. -/
def fields (i : Instr) : View := i.view.getD { op := 0, h := .plain }

/-- The state `exec` answers. -/
def after (o : Host.Outcome State Fault Refusal) : State :=
  match o with
  | .next s => s
  | _ => .reset

/-- Bits of the executing thread's window, results on their way included. -/
def win (s : State) (lo w : Nat) : Nat := Machine.bits s.me.allWritten.toNat lo w

/-- Whether `MayPerform` holds. -/
def may (sp : Spec) (s : State) : Bool :=
  decide (s.curSlot < s.myCore.threads.length) && (match beforeGuard sp s with | .ok _ => true | .error _ => false) &&
  (s.me.midBeat || guardHolds s.me sp.v.h.dist.toNat sp.v.h.grd) && (match afterGuard sp s with | .ok _ => true | .error _ => false) &&
  !(s.traceBlk (fieldOfCore s.curCore)).stall

theorem may_sound {sp : Spec} {s : State} (h : may sp s = true) : MayPerform sp s := by
  simp only [may, Bool.and_eq_true, decide_eq_true_eq, Bool.not_eq_true'] at h
  obtain ⟨⟨⟨⟨h1, h2⟩, h3⟩, h4⟩, h5⟩ := h
  refine ⟨h1, ?_, h3, ?_, h5⟩
  · revert h2; cases beforeGuard sp s <;> simp
  · revert h4; cases afterGuard sp s <;> simp

/-- The instruction or event answers a next state there. -/
def Runs (i : Instr) (s : State) : Prop := ∃ u, exec i s = .next u

/-- A state and operands that meet the hypotheses of a `Does`. -/
theorem runs {i : Instr} {sp : View → Spec} {ok : Ctx → Prop} {r : Ctx → Res} (h : Does i sp ok r) {s : State}
    (k : ok (mkCtx (sp (fields i)) s)) (m : may (sp (fields i)) s = true := by decide +kernel)
    (hv : i.view = some (fields i) := by rfl) : Runs i s :=
  let ⟨_, ht, _⟩ := h s _ hv (may_sound m) k
  ⟨_, ht⟩

/-- A state and operands that meet the hypotheses of a `Stops`. -/
theorem stops {i : Instr} {sp : View → Spec} {ok : Ctx → Prop} {e : Ctx → Stop} (h : Stops i sp ok e) {s : State}
    (k : ok (mkCtx (sp (fields i)) s)) (m : may (sp (fields i)) s = true := by decide +kernel)
    (hv : i.view = some (fields i) := by rfl) : Runs i s := ⟨_, h s _ hv (may_sound m) k⟩

/-- A clause applies to what it is given: its hypotheses are met there. -/
def Applies {P : Prop} (_ : P) : Prop := True

/-- Operands: slices of 8 to 2,048 bits from slice 256, 768 and 1,280 on. -/
def d (wc : Nat) : Opnd := .slice (BitVec.ofNat 4 wc) 256
/-- A second operand. -/
def a (wc : Nat) : Opnd := .slice (BitVec.ofNat 4 wc) 768
/-- A third operand. -/
def b (wc : Nat) : Opnd := .slice (BitVec.ofNat 4 wc) 1280
/-- A plain header. -/
abbrev p : Hdr := .plain
/-- A header with X. -/
abbrev px : Hdr := { Hdr.plain with x := true }
/-- A header with a tag. -/
abbrev pt : Hdr := { Hdr.plain with atag := 1 }


/-! ## An ill-formed term for each check of `Instr.wellFormed` -/

/-- A type that no row of Table 9.5 lists for the family; ATAG without a class T result; X, SAT, RND and imm15 that R166 does not admit. -/
theorem test_ill_formed_fields : (Instr.vfma p .i8 (d 4) (a 4) (b 4)).wellFormed = false ∧ (Instr.add pt (d 4) (a 4) (b 4)).wellFormed = false ∧
    (Instr.badd px (d 9) (a 6) (b 9)).wellFormed = false ∧ (Instr.and { p with sat := true } (d 4) (a 4) (b 4)).wellFormed = false ∧
    (Instr.vadd { p with rnd := 3 } .f16 (d 4) (a 4) (b 4)).wellFormed = false ∧ (Instr.rep p (a 3) 8).wellFormed = false := by decide +kernel
/-- A D that Table 3.3 gives no write, a width code of 11, ports 10, a guard on direction 5, a BPACK output in TIME, and X against MSTC and MSTC.Q. -/
theorem test_ill_formed_operands : (Instr.add p .tid (a 4) (b 4)).wellFormed = false ∧ (Instr.add p (d 4) (.slice 11 0) (b 4)).wellFormed = false ∧
    (Instr.push p (.port 10) (a 4)).wellFormed = false ∧ (Instr.mov p (d 4) (.port 10)).wellFormed = false ∧
    (Instr.mov { p with grd := .port 5 false 0 } (d 4) (a 4)).wellFormed = false ∧ (Instr.bpack p (d 6) (a 8) .time).wellFormed = false ∧
    (Instr.mstc px (a 5) 0).wellFormed = false ∧ (Instr.mstcQ p (a 4) 0).wellFormed = false := by decide +kernel
/-- The same terms, mended, are well formed. -/
theorem test_well_formed : (Instr.vfma p .f16 (d 4) (a 4) (b 4)).wellFormed = true ∧ (Instr.div pt (d 4) (a 4) (b 4)).wellFormed = true ∧
    (Instr.add { px with sat := true } (d 4) (a 4) .time).wellFormed = true ∧ (Instr.rep p (a 3) 7).wellFormed = true ∧
    (Instr.push p (.port 9) (a 4)).wellFormed = true ∧ (Instr.bpack p (d 6) (a 8) .zero).wellFormed = true ∧
    (Instr.mstcQ px (a 4) 0).wellFormed = true := by decide +kernel


/-! ## Witnesses: integer and control instructions -/

theorem witness_add (h : Obligations.IntegerArithmetic) : Runs (.add p (d 4) (a 4) (b 4)) base := runs (h.1.1 _ _ rfl) trivial
theorem witness_addi (h : Obligations.IntegerArithmetic) : Runs (.addi p (d 4) (a 4) 0x4000) base := runs (h.1.2 _ _ rfl) trivial
theorem witness_mulh (h : Obligations.IntegerArithmetic) : Runs (.mulh p (d 4) (a 4) (b 0)) base := runs (h.2 _ _ _ rfl) trivial
theorem witness_div (h : Obligations.Divisions) : Runs (.div pt (d 4) (a 4) (b 4)) base := runs (h _ _ _ rfl) trivial
theorem witness_and (h : Obligations.BitwiseLogic) : Runs (.and p (d 9) (a 9) (b 9)) base := runs (h _ _ _ rfl) trivial
theorem witness_mov (h : Obligations.BitwiseLogic) : Runs (.mov p .zero (a 4)) base := runs (h _ _ _ rfl) trivial
theorem witness_shl (h : Obligations.ShiftsAndCounts) : Runs (.shl p (d 9) (a 9) (b 9)) base := runs (h.1 _ _ _ rfl) trivial
theorem witness_roli (h : Obligations.ShiftsAndCounts) : Runs (.roli p (d 3) (a 3) 0x7FFF) base := runs (h.1 _ _ _ rfl) trivial
theorem witness_clz (h : Obligations.ShiftsAndCounts) : Runs (.clz p (d 2) (a 9)) base := runs (h.2.1 _ _ rfl) trivial
theorem witness_bswap (h : Obligations.ShiftsAndCounts) : Runs (.bswap p (d 1) (a 1)) base := runs (h.2.2 _ _ _ rfl) trivial
theorem witness_movi (h : Obligations.ConstantsAndSelection) : Runs (.movi p (d 9) 0x4000) base := runs (h.1 _ _ _) trivial
theorem witness_movh (h : Obligations.ConstantsAndSelection) : Runs (.movh p (d 4) (d 4) 0x7FFF) base := runs (h.2.1 _ _ _ _) trivial
theorem witness_sel (h : Obligations.ConstantsAndSelection) : Runs (.sel p (d 3) (a 3) (b 3)) base := runs (h.2.2 _ _ _ _) trivial

/-- A control word that admits LEN 64 in one lane. -/
theorem witness_bfx (h : Obligations.BitFields) : Runs (.bfx p (d 4) (a 4) (b 3)) (put 5120 32 0x40000 base) :=
  runs (h.1 _ _ _ _) (by unfold fieldOk; decide +kernel)
/-- LEN 65. -/
theorem witness_bfx_traps (h : Obligations.BitFields) : Runs (.bfx p (d 5) (a 4) (b 3)) (put 5120 32 0x41000 base) :=
  stops (h.2.1 _ _ _ _) (by unfold fieldOk; decide +kernel)
theorem witness_bfi (h : Obligations.BitFields) : Runs (.bfi p (d 4) (a 4) (b 3)) (put 5120 32 0x40FFF base) :=
  runs (h.2.2.1 _ _ _ _) (by decide +kernel)
/-- LW 1. -/
theorem witness_bfi_traps (h : Obligations.BitFields) : Runs (.bfi p (d 4) (a 4) (b 3)) (put 5120 32 0x100000 base) :=
  stops (h.2.2.2 _ _ _ _) (by decide +kernel)

theorem witness_br (h : Obligations.Transfers) : Runs (.br p 0xFFFFFFFF) base := runs (h.1 _ _) trivial
theorem witness_jmp (h : Obligations.Transfers) : Runs (.jmp p (a 3)) base := runs (h.2.1 _ _) trivial
theorem witness_call (h : Obligations.Transfers) : Runs (.call p 0) base := runs (h.2.2.1 _ _) trivial
theorem witness_callr (h : Obligations.Transfers) : Runs (.callr p (a 3) (a 3)) base := runs (h.2.2.2.1 _ _ _) trivial
/-- A frame from word 2 to word 5: a transfer from its last word to the word after it, and one inside it. -/
theorem witness_leave (h : Obligations.Transfers) : Applies ((h.2.2.2.2 (BitVec.ofNat 64 (2 ^ 63 + 5 * 2 ^ 46 + 2 * 2 ^ 32)) 5 6).1 (by decide)) ∧
    Applies ((h.2.2.2.2 (BitVec.ofNat 64 (2 ^ 63 + 5 * 2 ^ 46 + 2 * 2 ^ 32)) 5 2).2 (by decide)) := ⟨trivial, trivial⟩

/-- The longest body that stays in the image of 9,830 words. -/
theorem witness_loop (h : Obligations.LoopFrames) : Runs (.loop p (a 3) 9829) (put 3072 32 0xFFFFFFFF base) :=
  runs (h _ _ _).2.1 (by decide +kernel)
theorem witness_loop_passes (h : Obligations.LoopFrames) : Runs (.loop p (a 3) 9829) base := runs (h _ _ _).1 (by decide +kernel)
theorem witness_loop_depth (h : Obligations.LoopFrames) :
    Runs (.loop p (a 3) 1) ((put 3072 32 1 base).modMe fun th => { th with loops := ⟨0x8000000000000000, 0x8000000000000000, 0, none, none⟩ }) :=
  stops (h _ _ _).2.2.1 (by decide +kernel)
/-- One word more than the image has. -/
theorem witness_loop_range (h : Obligations.LoopFrames) : Runs (.loop p (a 3) 9830) base := stops (h _ _ _).2.2.2 (by decide +kernel)

/-- A frame of COUNT 2, one of COUNT 1, and one that an instruction does not end. -/
theorem witness_loop_end :
    (frameEndsAt 0x8000400000000002 1 ∧ 1 < (0x8000400000000002#64).toNat % 2 ^ 32) ∧
    (frameEndsAt 0x8000400000000001 1 ∧ (0x8000400000000001#64).toNat % 2 ^ 32 ≤ 1) ∧
    ((0#64).getLsbD 63 = false ∧ ¬ frameEndsAt 0 1) ∧ ((0x8000400000000001#64).getLsbD 63 = true ∧ ¬ frameEndsAt 0x8000400000000001 2) ∧
    (7 : W32) ≠ 1 + 1 := by unfold frameEndsAt; decide +kernel

/-- A REP of the greatest count, of the ADD that follows it. -/
def repBase : State := { base with mem := Mem.writeN base.mem (localKey 0 (codeBase + 10)) (bytesOfWord ((encode (.add p (d 4) (a 4) (b 4))).getD 0)) }
theorem witness_rep (h : Obligations.Repetition) : Runs (.rep p (a 3) 7) (put 3072 32 0xFFFFFF repBase) :=
  runs (h _ _ _).1 (by unfold repTargetOk frameEndsAt; decide +kernel)
theorem witness_rep_count (h : Obligations.Repetition) : Runs (.rep p (a 3) 7) (put 3072 32 0x1000000 repBase) :=
  stops (h _ _ _).2.1 (by decide +kernel)
theorem witness_rep_range (h : Obligations.Repetition) :
    Runs (.rep p (a 3) 7) (repBase.modMyCore fun k => { k with codelen := 10 }) := stops (h _ _ _).2.2.1 (by decide +kernel)
/-- A NOP, opcode 0, may not be repeated. -/
theorem witness_rep_target (h : Obligations.Repetition) : Runs (.rep p (a 3) 7) base :=
  stops (h _ _ _).2.2.2 (by unfold repTargetOk frameEndsAt; decide +kernel)

theorem witness_cmp (h : Obligations.ComparesYieldAndNop) : Runs (.cmplt p (.flag 63) (a 4) (b 4)) base := runs (h.1.1 _ _ _ _ rfl) trivial
theorem witness_cmpeq (h : Obligations.ComparesYieldAndNop) : Runs (.cmpeq p (d 9) (a 9) .zero) base := runs (h.1.1 _ _ _ _ rfl) trivial
theorem witness_nop (h : Obligations.ComparesYieldAndNop) : Runs .nop base := runs h.1.2 trivial
theorem witness_yield (h : Obligations.ComparesYieldAndNop) : Runs (.yield p) base := runs (h.2 _) trivial
/-- No thread holds the vector datapath of the small machine. -/
theorem base_vec (sp : Spec) : vecStop base sp = none := by
  have e : base.myCore.vecOther base.curSlot base.now = false := by decide +kernel
  simp [vecStop, e]
theorem witness_guard (h : Obligations.GuardsThatFail) : Runs (.add { Hdr.plain with grd := .flag 63 true } (d 4) (a 4) (b 4)) base :=
  let ⟨u, hu, _⟩ := h _ _ base rfl (by decide +kernel) (fun sp e => by simp only [beforeGuard, base_vec, e]; rfl) (by decide +kernel) (by decide +kernel)
  ⟨u, hu⟩


/-! ## Witnesses: vector, block and port instructions -/

theorem witness_vadd (h : Obligations.VectorLanes) : Runs (.vadd p .f16 (d 9) (a 9) (b 9)) base := runs (h.1 _ _ _ _ rfl) trivial
theorem witness_vabs (h : Obligations.VectorLanes) : Runs (.vabs p .i8 (d 1) (a 1)) base := runs (h.1 _ _ _ _ rfl) trivial
theorem witness_vfma (h : Obligations.VectorLanes) : Runs (.vfma p .f32 (d 7) (a 7) (b 7)) base := runs (h.2 _ _ _ rfl) trivial
theorem witness_vsel (h : Obligations.VectorLanes) : Runs (.vsel p .i64 (d 4) (a 4) (b 4)) base := runs (h.2 _ _ _ rfl) trivial

/-- Sources that no window bit changes. -/
theorem witness_beats (h : Obligations.BeatsAndLanes) :
    laneBeats (.slices 0 512) 2048 (fun _ => (5, 3, 0)) (fun _ x y _ => (x + y, 0)) 4 0 0 =
      beatsOf 2048 (5, 3, 0) (fun _ x y _ => (x + y, 0)) 4 0 := h.1 _ _ _ _ _ _ _ fun _ _ => rfl
/-- An integer type and a floating-point type. -/
theorem witness_lane_types : eltFmt .i8 = none ∧ eltFmt .f32 = some Fp.f32 := by decide
/-- Codes that are no NaN: the largest finite code of F16, and infinity in BF16. -/
theorem witness_codes : (Fp.f16 ∈ [Fp.f8, Fp.f16, Fp.bf16, Fp.f32] ∧ 0x7BFF < 2 ^ Fp.width Fp.f16 ∧ Fp.isNaN (Fp.decode Fp.f16 false 0x7BFF) = false) ∧
    (Fp.bf16 ∈ [Fp.f8, Fp.f16, Fp.bf16, Fp.f32] ∧ 0x7F80 < 2 ^ Fp.width Fp.bf16 ∧ Fp.isNaN (Fp.decode Fp.bf16 false 0x7F80) = false) := by
  decide +kernel

theorem witness_vshuf (h : Obligations.LaneMovesAndConversions) : Runs (.vshuf p .i8 (d 9) (a 9) (b 9)) base := runs (h.1 _ _ _ _ _) trivial
theorem witness_vbcast (h : Obligations.LaneMovesAndConversions) : Runs (.vbcast p .i8 (d 9) (a 1)) base := runs (h.2.1 _ _ _ _) trivial
theorem witness_vslide (h : Obligations.LaneMovesAndConversions) : Runs (.vslide p .i64 (d 9) (a 9) (b 3)) base := runs (h.2.2.1 _ _ _ _ _) trivial
theorem witness_vcvt (h : Obligations.LaneMovesAndConversions) : Runs (.vcvt p .f32 (d 8) (a 7) 4) base := runs (h.2.2.2 _ _ _ _ _) trivial
theorem witness_vhsum (h : Obligations.HorizontalAndSlow) : Runs (.vhsum p .f32 (d 3) (a 9)) base := runs (h.1 _ _ _ rfl) trivial
theorem witness_fdiv (h : Obligations.HorizontalAndSlow) : Runs (.fdiv pt .f32 (d 9) (a 9) (b 9)) base := runs (h.2.2 _ _ _ _ _ rfl).1 (by decide +kernel)
theorem witness_fsqrt (h : Obligations.HorizontalAndSlow) : Runs (.fsqrt pt .f32 (d 9) (a 9)) base := runs (h.2.2 _ _ _ _ _ rfl).2 trivial
theorem witness_tree_pairs (h : Obligations.HorizontalAndSlow) : Applies (h.2.1 (fun a b => (a + b, 0)) [1, 2, 3, 4] 2 (by decide) rfl) := trivial
/-- Slices are no flag. -/
theorem no_flag {l : Loc} (h : l = .slices 256 512) : ∀ k, l ≠ .flag k := by rintro k rfl; cases h
theorem witness_vcmp (h : Obligations.TablesAndLaneCompares) : Runs (.vcmplt p .f32 (.flag 0) (a 9) (b 9)) base ∧
    Runs (.vcmplt p .f32 (.flag 63) (a 9) (b 9)) base ∧ Runs (.vcmplt p .f32 (d 9) (a 9) (b 9)) base :=
  ⟨runs ((h.1 _ _ _ rfl).1 0) (by decide +kernel), runs ((h.1 _ _ _ rfl).2.1 63) (by decide +kernel),
   runs (h.1 _ _ _ rfl).2.2 (no_flag (by decide +kernel))⟩
theorem witness_flut (h : Obligations.TablesAndLaneCompares) : Runs (.flut p .f32 (d 9) (a 9) 3) base := runs (h.2.1 _ _ _ _ _) trivial
/-- The last 32 entries of a table. -/
theorem witness_lutld (h : Obligations.TablesAndLaneCompares) : Runs (.lutld p .f32 (a 9) 0x383) base := runs (h.2.2 _ _ _ _) trivial

theorem witness_bpack (h : Obligations.BlockGroup) : Runs (.bpack px (d 6) (a 8) .zero) base := runs (h.1 _ _ _ _) trivial
theorem witness_bunpk (h : Obligations.BlockGroup) : Runs (.bunpk p (d 8) (a 6)) base := runs (h.2.1 _ _ _) trivial
/-- A narrow block to exponent 255, and to 256. -/
theorem witness_balign (h : Obligations.BlockGroup) : Runs (.balign p (d 6) (a 6) (b 2)) (put 5120 16 255 base) :=
  runs (h.2.2.1 _ _ _ _) (by decide +kernel)
theorem witness_balign_traps (h : Obligations.BlockGroup) : Runs (.balign p (d 6) (a 6) (b 2)) (put 5120 16 256 base) :=
  stops (h.2.2.2.1 _ _ _ _) (by decide +kernel)
theorem witness_bscale (h : Obligations.BlockGroup) : Runs (.bscale p (d 9) (a 9) (b 2)) base := runs (h.2.2.2.2.1 _ _ _ _) trivial
theorem witness_bnorm (h : Obligations.BlockGroup) : Runs (.bnorm p (d 9) (a 9)) base := runs (h.2.2.2.2.2.1 _ _ _) trivial
theorem witness_badd (h : Obligations.BlockGroup) : Runs (.badd p (d 9) (a 6) (b 9)) base := runs (h.2.2.2.2.2.2.1 _ _ _ _) trivial
theorem witness_baddq (h : Obligations.BlockGroup) : Runs (.baddq p (d 6) (a 6) (b 6)) base := runs (h.2.2.2.2.2.2.2.1 _ _ _ _) trivial
theorem witness_berr (h : Obligations.BlockGroup) : Runs (.berr p (d 9) (a 9) (b 6)) base := runs (h.2.2.2.2.2.2.2.2.1 _ _ _ _) trivial
theorem witness_bmac (h : Obligations.BlockGroup) : Runs (.bmac p (d 9) (a 6) (b 6)) base := runs (h.2.2.2.2.2.2.2.2.2.1 _ _ _ _) trivial
theorem witness_bhsum (h : Obligations.BlockGroup) : Runs (.bhsum p (d 3) (a 6)) base := runs (h.2.2.2.2.2.2.2.2.2.2.1 _ _ _) trivial
theorem witness_bmaxe (h : Obligations.BlockGroup) : Runs (.bmaxe p (d 2) (a 6)) base := runs (h.2.2.2.2.2.2.2.2.2.2.2.1 _ _ _) trivial
theorem witness_bcmpz (h : Obligations.BlockGroup) : Runs (.bcmpz p (d 3) (a 9)) base := runs (h.2.2.2.2.2.2.2.2.2.2.2.2.1 _ _ _) trivial
theorem witness_bhdr (h : Obligations.BlockGroup) : Runs (.bhdr p (d 3) (a 6)) base := runs (h.2.2.2.2.2.2.2.2.2.2.2.2.2 _ _ _) trivial
/-- The greatest exponent, and mantissas of 47 bits. -/
theorem witness_block : (List.replicate 32 (2 ^ 47 - 1 : Int)).length = 32 ∧ (∀ m ∈ List.replicate 32 (2 ^ 47 - 1 : Int), m.natAbs < 2 ^ 47) ∧
    (-2 ^ 15 : Int) ≤ 2 ^ 15 - 1 ∧ (2 ^ 15 - 1 : Int) < 2 ^ 15 ∧ 31 < 32 := by decide +kernel

/-- Elements in units of 2^-3. -/
theorem witness_elements : inUnits (-3) (.num 5 (-2)) = some 10 ∧ inUnits (-3) (.num (-1) (-3)) = some (-1) ∧
    ((-3 : Int) ≤ 0 ∧ [EVal.num 5 (-2), .num (-1) (-3)].map (inUnits (-3)) = [10, -1].map some) := by decide +kernel
/-- A pair of BX4 elements that fit, pairs of which one or both do not, and an outlier pass with room and without. -/
theorem witness_outliers : let fit := Blk.elemFits .bx4 .rne 127 0
    fit (.num 1 0) = true ∧ fit (.num 100 0) = false ∧ fit (.num (-200) 0) = false ∧ (⟨3, 0, 0, 0⟩ : Blk.OutState).k < 4 ∧
    4 ≤ (⟨4, 0, 0, 0⟩ : Blk.OutState).k ∧ inUnits 0 (.num 100 0) = some 100 ∧ inUnits 0 (.num (-200) 0) = some (-200) := by decide +kernel
/-- A scale within the exponents of a narrow block, one beyond them; a block of zeros and one with another element. -/
theorem witness_scales : BFmt.bx8 ≠ .bxa ∧ Blk.expOf .bx8 0 + 255 ≤ 255 ∧ ¬ (Blk.expOf .bx8 0 + 256 ≤ 255) ∧ ¬ (0 ≤ Blk.expOf .bx8 0 + -1) ∧
    (EVal.num 3 (-1)) ∈ [EVal.num 0 0, .num 3 (-1)] ∧ (∀ v ∈ [EVal.num 0 0], v = .num 0 0) := by decide +kernel

/-- The thread with a group in input queue 2, of a width. -/
def queued (w v : Nat) (s : State) : State := s.modMe fun th => { th with qin := th.qin.set 2 ⟨[⟨w, v, true, 0, []⟩], []⟩ }
/-- The loaded launch with other words 4 to 6 in its descriptor (Table 1.3). -/
def launchOf (w4 w5 w6 : W64) : Launch := { loadLaunch 0 with desc := ⟨0, [0, 0, 0, 98300, w4, w5, w6] ++ List.replicate 17 0⟩ }
/-- The two-core machine: a bunch of cores 0 and 1, one root thread on each. -/
def pair : State :=
  { base with
    cores := [(0, loadCore 0), (1, { loadCore 0 with owner := some ⟨0, 0, 1⟩ })]
    launches := [launchOf 0x048F8001 0x100000001 0x20000] }
/-- A piece of an access of thread 0: a read of 8 bytes of edge port 0. -/
def piece1 : Piece where
  id := 4
  src := ⟨0, 0, 0, 0⟩
  tgt := .edge 0
  loc := false
  addr := 0
  va := 0x1000000
  len := 8
  op := .read
  data := 0
  lowNib := false
  highNib := false
  attr := .so
  strm := false
  acq := none
  rel := none
  land := none
  off := 0
  tag := 0
  pc := 0
  order := 0
  after := []
  pred := 0
  own := 1
  succ := 2
  phase := .flying
  ticket := false
  acked := false
  resends := 0
  sentAt := 0
  asid := 0
  lvl := 0
  det := none
  handler := false
  resp := 0
  err := none
  orphan := false
  told := false
  key := none
  tries := 0


theorem witness_push (h : Obligations.PortInstructions) : Runs (.push p (.port 4) (a 9)) pair := runs (h.1 _ _ _) trivial
theorem witness_pop (h : Obligations.PortInstructions) : Runs (.pop p (d 3) (.port 2)) (queued 32 7 base) := runs (h.2.1 _ _ _) trivial
theorem witness_peek (h : Obligations.PortInstructions) : Runs (.peek p (d 3) (.port 2)) (queued 32 7 base) := runs (h.2.2.1 _ _ _) trivial
theorem witness_pdrain (h : Obligations.PortInstructions) : Runs (.pdrain p .zero (.port 2)) (queued 32 7 base) := runs (h.2.2.2.1 _ _ _) trivial
theorem witness_pcnt (h : Obligations.PortInstructions) : Runs (.pcnt p (d 3) (.port 2)) base := runs (h.2.2.2.2.1 _ _ _) trivial
theorem witness_pcfg (h : Obligations.PortInstructions) : Runs (.pcfg p (d 4) (a 4) 3) base := runs (h.2.2.2.2.2 _ _ _ _) trivial

/-- A group of 2,048 bits fills an empty queue. -/
theorem witness_push_room (h : Obligations.PushAndPop) : Applies (h.1 pair 0 0 4 2048 1 1 0 8 (by decide +kernel)
    (by decide +kernel) (by decide +kernel) (by decide +kernel) (by decide +kernel) (by decide +kernel) (by decide +kernel)) := trivial
theorem witness_pop_head (h : Obligations.PushAndPop) : Applies (h.2 (queued 32 7 base) 0 0 2 ⟨32, 7, true, 0, []⟩ []
    (by decide +kernel) (by decide +kernel) (by decide +kernel)) := trivial
theorem witness_port_events (h : Obligations.PortEvents) :
    Applies ((h (base.modMe fun th => { th with wait := some ⟨3, 8, 0, 0⟩ }) 0 0 9 (by decide +kernel) (by decide +kernel)).2.2 ⟨3, 8, 0, 0⟩
      (by decide +kernel) rfl) := trivial

/-- The thread with a result on its way. -/
def landing (l : Landing) (s : State) : State := s.modMe fun th => { th with landings := [l] }
/-- A result of 64 bits, tagged 1. -/
def l64 : Landing := ⟨5, 1, 0, 0, .slices 256 64, BitVec.ofNat 8192 (2 ^ 320 - 2 ^ 256), false, .plain, 0, 7, 0⟩
theorem witness_landing (h : Obligations.ResultsLand) : Applies ((h (landing l64 base) 0 0 5 l64 (by decide +kernel) (by decide +kernel)).2
    (.inl (by decide +kernel)) rfl rfl (by intro k a b e; cases e)) ∧
    Applies ((h (landing l64 (base.modMe fun th => { th with drowsy := true })) 0 0 5 l64 (by decide +kernel) (by decide +kernel)).1
    (by decide +kernel) ⟨256, 64, .inl rfl⟩ rfl rfl (by intro k a b e; cases e)) := ⟨trivial, trivial⟩
/-- A push at landing finds room, a full queue, no target, a port that discards, and a target that a halt has stopped. -/
theorem witness_landing_pushes : pushTest pair 0 0 4 64 0 = .room 1 0 8 ∧ 
    pushTest (pair.modThread 1 0 fun th => { th with qin := th.qin.set 8 ⟨[⟨2048, 0, true, 0, []⟩], []⟩ }) 0 0 4 64 0 = .full ∧ pushTest base 0 0 4 64 0 = .edge ∧
    pushTest (base.modMe fun th => { th with portcfg := 16 }) 0 0 4 64 0 = .discard ∧
    pushTest { (pair.modCore 1 fun k => { k with stopped := true }) with ready := ⟨0xFFFFFFFFFFFF, 0, true, 0, 0, 0⟩ } 0 0 4 64 0 = .later ∧
    ({ l64 with dest := .port 4 64 } : Landing).dest = .port 4 64 := by decide +kernel

/-! ## Witnesses: traps, CSRs, messages -/

/-- A cause raised at the thread's PC. -/
def raised (c : Nat) : Raised := ⟨c, 7, 1, 0, false, false, 0⟩
/-- The thread with a handler for TEMASK'd causes at level 0 and one at level 1. -/
def vectors (s : State) : State := s.modMe fun th => { th with tvec := 5, stvec := 6, temask0 := 0xFFFFFFFFFFFFFFFF }
theorem witness_trap_entry (h : Obligations.TrapEntrySaves) : Applies ((h (vectors base) 0 0 (raised 1) (by decide +kernel)).1
    (by decide +kernel)) ∧ Applies ((h (vectors base) 0 0 (raised 0x52) (by decide +kernel)).2.1 (by decide +kernel) (by decide +kernel)
    (by decide +kernel)) ∧ Applies ((h (vectors base) 0 0 (raised 0x19) (by decide +kernel)).2.2 (by decide +kernel)) := ⟨trivial, trivial, trivial⟩
theorem witness_stop (h : Obligations.StopsAndSoftwareTraps) : Applies (h.1 base (by decide +kernel) (by decide +kernel)) := trivial
theorem witness_software_traps (h : Obligations.StopsAndSoftwareTraps) : Runs (.trap p 0x7FFF) base ∧ Runs (.sysc p 0) base ∧ Runs (.brk p 1) base :=
  ⟨runs (h.2.1 _ _) trivial, runs (h.2.2.1 _ _) trivial, runs (h.2.2.2.1 _ _) trivial⟩
/-- The thread in a class, at a level. -/
def mode (c : TClass) (l : Nat) (s : State) : State := s.modMe fun th => { th with cls := c, status := BitVec.ofNat 64 (l * 2 ^ 9) }
/-- A thread in normal class with an event delivered, and with none; one in handler class. -/
theorem witness_idle (h : Obligations.StopsAndSoftwareTraps) :
    Runs (.idle p) (base.modMe fun th => { th with evq := [0] }) ∧ Runs (.idle p) base ∧ Runs (.idle p) (mode .handler 0 base) :=
  ⟨runs (h.2.2.2.2.1 _) (by decide +kernel), stops (h.2.2.2.2.2.1 _) (by decide +kernel), stops (h.2.2.2.2.2.2 _) (by decide +kernel)⟩

/-- A cause with no handler, and one raised at S in trap class. -/
theorem witness_unhandled (h : Obligations.CausesTaken) :
    Applies (h.1 base 0 0 (raised 1) _ _ (by decide +kernel) (by decide +kernel) rfl rfl (by decide +kernel) (by decide +kernel)) ∧
    Applies (h.1 (mode .trap 1 base) 0 0 (raised 1) _ _ (by decide +kernel) (by decide +kernel) rfl rfl (by decide +kernel) (by decide +kernel)) :=
  ⟨trivial, trivial⟩
/-- A deferred fault. -/
def deferredFault : Deferred := ⟨0, 0x0B, 7, 1, 0, 5⟩
theorem witness_lets_go : base.me.held = none ∧ ({ base.me with held := some 5 } : Thread).held = some 5 := by decide +kernel
theorem witness_causes (h : Obligations.CausesTaken) :
    Applies ((h.2.1 (base.modMe fun th => { th with pendCause := some (raised 1), resumed := true }) (by decide +kernel) (by decide +kernel) (by decide +kernel) (by decide +kernel)).1
      (raised 1) (by decide +kernel) (by decide +kernel)) ∧
    Applies ((h.2.1 (base.modMe fun th => { th with deferred := [deferredFault] }) (by decide +kernel) (by decide +kernel) (by decide +kernel) (by decide +kernel)).2.1
      deferredFault (by decide +kernel) (by decide +kernel)) ∧
    Applies ((h.2.1 (base.modMe fun th => { th with async := [raised 0x30] }) (by decide +kernel) (by decide +kernel) (by decide +kernel) (by decide +kernel)).2.2.1
      (raised 0x30) (by decide +kernel) (by decide +kernel) (by decide +kernel) (by decide +kernel) (by decide +kernel)) ∧
    Applies ((h.2.1 base (by decide +kernel) (by decide +kernel) (by decide +kernel) (by decide +kernel)).2.2.2 (by decide +kernel)) := ⟨trivial, trivial, trivial, trivial⟩

/-- A return at S to normal class at U, and a thread that is in no trap. -/
theorem witness_eret (h : Obligations.TrapReturn) : Runs (.eret p) (mode .trap 1 base) ∧ Runs (.eret p) base :=
  ⟨runs (h.1 _) (by decide +kernel), stops (h.2.1 _) (by decide +kernel)⟩
theorem witness_return (h : Obligations.TrapReturn) : Applies (h.2.2.2.1 (mode .trap 1 base) (by decide +kernel) (by decide +kernel) (by decide +kernel)) := trivial
/-- The handler of a deferred fault, which returns to normal class, and to trap class at S. -/
def deferring (cls : Nat) : State := (mode .trap 1 base).modMe fun th => { th with deferOn := some 0, sestat := BitVec.ofNat 64 (cls * 2 ^ 8) }
theorem witness_acknowledges (h : Obligations.TrapReturn) :
    Applies ((h.2.2.2.2.1 (deferring 0) 0 (by decide +kernel) (by decide +kernel) (by decide +kernel)).1 (by decide +kernel)) ∧
    Applies ((h.2.2.2.2.1 (deferring 2) 0 (by decide +kernel) (by decide +kernel) (by decide +kernel)).2 (by decide +kernel) (by decide +kernel)) ∧
    Applies ((h.2.2.2.2.2 base ⟨0, 0, 0, 0⟩ 0).1 0 0 (by decide +kernel)) ∧
    Applies ((h.2.2.2.2.2 base ⟨9, 0, 0, 0⟩ 0).2 (by decide +kernel)) := ⟨trivial, trivial, trivial, trivial⟩

/-- Whether a CSR is open, computed. -/
def mayCsr (x : Ctx) (writes : Bool) : Bool :=
  match csrMode (x.immNat % 4096) with
  | none => false
  | some (ur, uw, sw) => (x.th.level ≠ 0 || ur) && (!writes || (if x.th.level = 0 then uw else sw))
theorem mayCsr_iff (x : Ctx) (w : Bool) : mayCsr x w = true ↔ csrOpen x w := by
  unfold mayCsr csrOpen; split <;> rename_i e <;> simp [e, Decidable.or_iff_not_imp_left]
/-- `status` at U; a number of no CSR; `sepc` at U. -/
theorem witness_csrr (h : Obligations.CsrAccess) : Runs (.csrr p (d 4) 0x000) base ∧ Runs (.csrr p (d 4) 0x7FFF) base ∧ Runs (.csrr p (d 4) 0x204) base :=
  ⟨runs (h.1.1 _ _ _) ((mayCsr_iff _ _).1 (by decide +kernel)), stops (h.1.2.1 _ _ _) (by decide +kernel),
   stops (h.1.2.2.1 _ _ _) (by rw [← mayCsr_iff]; decide +kernel)⟩
/-- A range limit made valid at S with an admitted TYPE and with a reserved one. -/
theorem witness_csrw (h : Obligations.CsrAccess) : Runs (.csrw p (d 4) (a 4) 0x120) (mode .normal 1 base) ∧
    Runs (.csrw p (d 4) (a 4) 0x7FFF) base ∧ Runs (.csrc p .zero (a 4) 0x100) base ∧
    Runs (.csrs p (d 4) (a 4) 0x120) (put 3072 64 0xF000 (mode .normal 1 base)) :=
  ⟨runs (h.1.2.2.2 _ _ _ rfl).1 (by rw [← mayCsr_iff]; decide +kernel), stops (h.1.2.2.2 _ _ _ rfl).2.1 (by decide +kernel),
   stops (h.1.2.2.2 _ _ _ rfl).2.2.1 (by rw [← mayCsr_iff]; decide +kernel), stops (h.1.2.2.2 _ _ _ rfl).2.2.2 (by rw [← mayCsr_iff]; decide +kernel)⟩
theorem witness_csr_holds (h : Obligations.CsrAccess) : Applies (h.2 base 0 0 0x13F 0 1 (by unfold csrHolds; decide) (by decide +kernel) (by decide +kernel)
    (by decide +kernel) (by decide +kernel)) := trivial

theorem witness_dlogh (h : Obligations.Maintenance) : Runs (.dlogh pt) base := runs (h.1 _) trivial
theorem witness_tinv (h : Obligations.Maintenance) : Runs (.tinv pt (a 4) 2) (mode .normal 1 base) ∧ Runs (.tinv pt (a 4) 3) base ∧
    Runs (.tinv pt (a 4) 3) (mode .normal 1 base) :=
  ⟨runs (h.2.1 _ _ _) (by decide +kernel), stops (h.2.2.1 _ _ _) (by decide +kernel), stops (h.2.2.2.1 _ _ _) (by decide +kernel)⟩
/-- A maintenance of one address, on its way. -/
def tinv0 : Landing := { l64 with dest := .nowhere, cover := 0, kind := .tinv 0 0 0x1000 }
theorem witness_tinv_lands (h : Obligations.Maintenance) : Applies (h.2.2.2.2 (landing tinv0 base) 0 0 5 0 0 0x1000 tinv0 (by decide +kernel)
    (by decide +kernel) rfl rfl (by decide +kernel)) := trivial


/-- The greatest core and the greatest LEN of a SEND of 2,048 bits; a core beyond the wafer; a payload of one byte in a SEND of 64 bits; ASK in
a handler; no credit. -/
theorem witness_send (h : Obligations.MessagesLeave) :
    Runs (.send p (d 3) (a 9)) (put 3072 64 (248 * 2 ^ 55 + 86015 * 2 ^ 32) base) ∧
    Runs (.send p .zero (a 4)) (put 3072 64 (86016 * 2 ^ 32) base) ∧ Runs (.send p .zero (a 4)) (put 3072 64 (2 ^ 55) base) ∧
    Runs (.send px .zero (a 4)) (mode .handler 0 base) ∧ Runs (.send px .zero (a 4)) (base.modMe fun th => { th with credits := 0 }) :=
  ⟨runs (h.1.1 _ _ _) (by unfold sendOk; decide +kernel), stops (h.1.2.1 _ _ _) (by decide +kernel), stops (h.1.2.2.1 _ _ _) (by decide +kernel),
   stops (h.1.2.2.2.1 _ _ _) (by decide +kernel), stops (h.1.2.2.2.2.1 _ _ _) (by decide +kernel)⟩
/-- A stop that is a trap, computed. -/
theorem trap_is {o : Option Stop} {c v : Nat} (h : (match o with | some (.trap a b) => a == c && b == v | _ => false) = true) :
    o = some (.trap c v) := by
  match o, h with
  | some (.trap a b), h => simp at h; simp [h.1, h.2]
/-- The greatest LEN; a core beyond the wafer; a LEN of 257; a byte beyond the local store; ASK in a handler; no credit. -/
theorem witness_sendm (h : Obligations.MessagesLeave) : Runs (.sendm p (d 3) (a 5)) (put 3072 64 (256 * 2 ^ 55) base) ∧
    Runs (.sendm p (d 3) (a 5)) (put 3072 64 (86016 * 2 ^ 32) base) ∧ Runs (.sendm p (d 3) (a 5)) (put 3072 64 (257 * 2 ^ 55) base) ∧
    Runs (.sendm p (d 3) (a 5)) (put 3072 128 (2 ^ 55 + 0x200000 * 2 ^ 64) base) ∧ Runs (.sendm px .zero (a 5)) (mode .handler 0 base) ∧
    Runs (.sendm px .zero (a 5)) (base.modMe fun th => { th with credits := 0 }) :=
  ⟨runs (h.1.2.2.2.2.2.2.2.2.2.2.1 _ _ _) (by simp only []; unfold sendOk errorIn; decide +kernel), stops (h.1.2.2.2.2.2.1 _ _ _) (by decide +kernel),
   stops (h.1.2.2.2.2.2.2.1 _ _ _) (by decide +kernel),
   stops (h.1.2.2.2.2.2.2.2.1 _ _ _ (.trap Cause.rangeMiss 0x200000)) ⟨by decide +kernel, by decide +kernel, trap_is (by decide +kernel)⟩,
   stops (h.1.2.2.2.2.2.2.2.2.1 _ _ _) (by simp only []; decide +kernel), stops (h.1.2.2.2.2.2.2.2.2.2.1 _ _ _) (by simp only []; decide +kernel)⟩
/-- Byte 0 of the local store has an uncorrectable error. -/
def spoilt (s : State) : State := { s with badMem := [localKey 0 0] }
theorem witness_sendm_fails (h : Obligations.MessagesLeave) : Runs (.sendm p (d 3) (a 5)) (put 3072 64 (256 * 2 ^ 55) (spoilt base)) :=
  runs (h.1.2.2.2.2.2.2.2.2.2.2.2.1 _ _ _ 0) (by simp only []; unfold sendOk errorIn; decide +kernel)
theorem witness_sent (h : Obligations.MessagesLeave) : Applies (h.1.2.2.2.2.2.2.2.2.2.2.2.2 (mkCtx (sendSpec (fields (.send p .zero (a 4)))) base) 0 [] base
    (by decide +kernel)) := trivial
/-- 256 entries that end where code begins; COUNT 0 with a BASE, a misaligned BASE, entries that reach the code; a mailbox in use, a handler
that runs. -/
theorem witness_mbxcfg (h : Obligations.MessagesLeave) : Runs (.mbxcfg p (d 4) (a 4)) (put 3072 64 (0xFF * 2 ^ 20 + 0x96000) base) ∧
    Runs (.mbxcfg p (d 4) (a 4)) (put 3072 64 0x20 base) ∧ Runs (.mbxcfg p (d 4) (a 4)) (put 3072 64 0x100010 base) ∧
    Runs (.mbxcfg p (d 4) (a 4)) (put 3072 64 (0xFF * 2 ^ 20 + 0x96020) base) ∧
    Runs (.mbxcfg p (d 4) (a 4)) (base.modMyCore fun k => { k with mbx := [⟨0, 0, ⟨0, 0, 0, 0⟩, 0⟩] }) ∧
    Runs (.mbxcfg p (d 4) (a 4)) (base.modMe fun th => { th with kind := .handler }) :=
  ⟨runs (h.2.1 _ _ _) (by unfold mbxGood mbxIdle; decide +kernel), stops (h.2.2.1 _ _ _) (by unfold mbxGood; decide +kernel),
   stops (h.2.2.1 _ _ _) (by unfold mbxGood; decide +kernel), stops (h.2.2.1 _ _ _) (by unfold mbxGood; decide +kernel),
   stops (h.2.2.2.1 _ _ _) (by unfold mbxGood mbxIdle; decide +kernel), stops (h.2.2.2.1 _ _ _) (by unfold mbxGood mbxIdle; decide +kernel)⟩
theorem witness_hset (h : Obligations.MessagesLeave) : Runs (.hset p (a 4)) base ∧ Runs (.hset p (a 4)) (put 3072 64 0x200000 base) :=
  ⟨runs (h.2.2.2.2.1 _ _) (by unfold errorIn; decide +kernel), stops (h.2.2.2.2.2.2 _ _ (.trap Cause.rangeMiss 0x200000)) (trap_is (by decide +kernel))⟩
theorem witness_hset_fails (h : Obligations.MessagesLeave) : Runs (.hset p (a 4)) (spoilt base) :=
  runs (h.2.2.2.2.2.1 _ _ 0) (by unfold errorIn; decide +kernel)

/-- A message that asks for an answer. -/
def asking : HandlerMsg := ⟨BitVec.ofNat 256 (2 ^ 67), false, ⟨0, 0, 0, 0⟩, 0⟩
/-- A handler for it. -/
def handling (s : State) : State := s.modMe fun th => { th with cls := .handler, kind := .handler, hmsg := some asking }
theorem witness_reply (h : Obligations.HandlersAndEvents) : Runs (.reply p (a 6)) (handling base) ∧ Runs (.reply p (a 0)) base ∧
    Runs (.refuse p) (handling base) ∧ Runs (.refuse p) base :=
  ⟨runs (h.1.1 _ _) ⟨by decide +kernel, asking, by decide +kernel, rfl, fun _ => by decide⟩,
   stops (h.1.2.1 _ _) (fun ⟨c, _⟩ => absurd c (by decide +kernel)),
   runs (h.1.2.2.1 _) ⟨by decide +kernel, asking, by decide +kernel, rfl, fun e => by cases e⟩,
   stops (h.1.2.2.2.1 _) (fun ⟨c, _⟩ => absurd c (by decide +kernel))⟩
theorem witness_hexit (h : Obligations.HandlersAndEvents) : Runs (.hexit p) (handling base) ∧ Runs (.hexit p) base ∧
    Runs (.hexit p) (handling (landing l64 base)) :=
  ⟨runs (h.1.2.2.2.2.1 _) (by decide +kernel), stops (h.1.2.2.2.2.2.1 _) (by decide +kernel), stops (h.1.2.2.2.2.2.2.1 _) (by decide +kernel)⟩
theorem witness_answer (h : Obligations.HandlersAndEvents) : Applies (h.1.2.2.2.2.2.2.2.1 (mkCtx (plainSpec (fields (.refuse p))) (handling base))
    asking 1 6 0 (fun _ => []) (handling base) (by decide +kernel) (by decide +kernel)) := trivial
/-- A handler that has answered, and one that has not; a slot that ends. -/
theorem witness_hexit_event (h : Obligations.HandlersAndEvents) :
    Applies ((h.1.2.2.2.2.2.2.2.2.1 0 (handling base).me asking base (by decide +kernel)).2 rfl) ∧
    Applies ((h.1.2.2.2.2.2.2.2.2.1 0 { (handling base).me with hmsg := some { asking with answered := true } } { asking with answered := true } base rfl).1 rfl) ∧
    Applies (h.1.2.2.2.2.2.2.2.2.2 0 0 base (by decide +kernel)) := ⟨trivial, trivial, trivial⟩
/-- The thread with an event of 512 bits delivered. -/
def event1 : State := base.modMe fun th => { th with evq := [7] }
theorem witness_waitev (h : Obligations.HandlersAndEvents) : Runs (.waitev p (d 7)) event1 ∧ Runs (.waitev p (d 7)) base ∧
    Runs (.waitev p (d 7)) (handling event1) ∧ Runs (.pollev p (d 7)) event1 ∧ Runs (.pollev p (d 7)) (handling base) :=
  ⟨runs ((h.2.1 _ _).1 7) (by decide +kernel), stops (h.2.1 _ _).2.1 (by decide +kernel), stops (h.2.1 _ _).2.2 (by decide +kernel),
   runs ((h.2.2 _ _).1 7) (by decide +kernel), runs (h.2.2 _ _).2 (by decide +kernel)⟩

/-- A message in flight to handler tag 0 of core 0. -/
def msg1 : Msg := ⟨9, ⟨0, 0, 0, 0⟩, 0, 5, [], 0, 0, []⟩
/-- The small machine with it, before and after its launch has handler slots, a mailbox of 256 entries and a table of entry PCs. -/
def posted : State := { base with msgs := [msg1] }
/-- The mailbox is there. -/
def mailbox : State :=
  { posted with
    cores := [(0, { loadCore 0 with mbxcfg := 0xFF00000, hset := true, htable := List.replicate 64 3,
                                    threads := (loadCore 0).threads.set 1 { Thread.reset with kind := .handler } })]
    launches := [launchOf 0x049F8000 0x100000001 0] }
theorem witness_message (h : Obligations.MessagesArrive) :
    Applies ((h.1 { posted with msgs := [{ msg1 with after := [4] }], net := [piece1] } { msg1 with after := [4] }
      (by decide +kernel) (by decide +kernel)).1 (by decide +kernel)) ∧
    Applies ((h.1 posted msg1 (by decide +kernel) (by decide +kernel)).2.1 (by decide +kernel) 2 (by decide +kernel)) ∧
    Applies ((h.1 mailbox msg1 (by decide +kernel) (by decide +kernel)).2.2.1 (by decide +kernel) (by decide +kernel) 0 0 (by decide +kernel) (by decide +kernel)) ∧
    Applies ((h.1 mailbox msg1 (by decide +kernel) (by decide +kernel)).2.2.2 (mailbox.core 0) 0 (by decide +kernel)) :=
  ⟨trivial, trivial, trivial, trivial⟩
/-- The core is not the launch's, so no core takes it. -/
theorem not_go {s : State} {l e : Nat} (h : remoteTest s l e = .absent) : ∀ c, remoteTest s l e ≠ .go c := by
  intro c; rw [h]; exact nofun
/-- No core, no handler slots, no mailbox, a full mailbox of one entry, no handler for the tag, and none of these. -/
theorem witness_refusal (h : Obligations.MessagesArrive) :
    Applies ((h.2.1 posted { msg1 with core := 9 }).1 (not_go (by decide +kernel))) ∧
    Applies (((h.2.1 posted msg1).2 0 (by decide +kernel)).1 (by decide +kernel)) ∧
    Applies (((h.2.1 (mailbox.modCore 0 fun k => { k with mbxcfg := 0 }) msg1).2 0 (by decide +kernel)).2.1 (by decide +kernel) (by decide +kernel)) ∧
    Applies (((h.2.1 (mailbox.modCore 0 fun k => { k with mbxcfg := 0x100000, mbx := [⟨0, 0, ⟨0, 0, 0, 0⟩, 0⟩, ⟨1, 0, ⟨0, 0, 0, 0⟩, 0⟩] }) msg1).2 0
      (by decide +kernel)).2.2.1 (by decide +kernel) (by decide +kernel) (by decide +kernel)) ∧
    Applies (((h.2.1 (mailbox.modCore 0 fun k => { k with hset := false }) msg1).2 0 (by decide +kernel)).2.2.2.1 (by decide +kernel) (by decide +kernel)
      (by decide +kernel) (by decide +kernel)) ∧
    Applies (((h.2.1 mailbox msg1).2 0 (by decide +kernel)).2.2.2.2 (by decide +kernel) (by decide +kernel) (by decide +kernel) (by decide +kernel)) :=
  ⟨trivial, trivial, trivial, trivial, trivial, trivial⟩
theorem witness_handler (h : Obligations.MessagesArrive) :
    Applies (h.2.2.1 (mailbox.modCore 0 fun k => { k with mbx := [⟨255, 5, ⟨0, 0, 0, 0⟩, 0⟩] }) 0 1 ⟨255, 5, ⟨0, 0, 0, 0⟩, 0⟩ [] (by decide +kernel) (by decide +kernel)
      (by decide +kernel) (by decide +kernel) (by decide +kernel) (by decide +kernel) (by decide +kernel)) := trivial
/-- An acknowledgement of a message, and an event that is none, while 31 are queued. -/
def ev (k : Nat) : EvMsg := ⟨9, none, ⟨0, 0, 0, 0⟩, 0, BitVec.ofNat 512 k, []⟩
/-- 31 events queued, one in flight. -/
def evState (k : Nat) : State := { (base.modMe fun th => { th with evq := List.replicate 31 0 }) with evs := [ev k] }
theorem witness_event (h : Obligations.MessagesArrive) :
    Applies (h.2.2.2.1 (evState 0) (ev 0) 0 (by decide +kernel) (by decide +kernel) (by decide +kernel) (by decide +kernel) (by decide +kernel)) ∧
    Applies (h.2.2.2.1 (evState 1) (ev 1) 0 (by decide +kernel) (by decide +kernel) (by decide +kernel) (by decide +kernel) (by decide +kernel)) :=
  ⟨trivial, trivial⟩
/-- An event behind an access, one for a core that a halt has stopped, and one for a core that is not the launch's. -/
theorem witness_event_waits (h : Obligations.MessagesArrive) :
    Applies ((h.2.2.2.2 { evState 1 with evs := [{ ev 1 with after := [4] }], net := [piece1] } { ev 1 with after := [4] } (by decide +kernel)).1 (by decide +kernel)) ∧
    Applies ((h.2.2.2.2 { (evState 1).modMyCore (fun k => { k with stopped := true }) with ready := ⟨0xFFFFFFFFFFFF, 0, true, 0, 0, 0⟩ } (ev 1)
      (by decide +kernel)).2.1 (by decide +kernel) (by decide +kernel)) ∧
    Applies ((h.2.2.2.2 { evState 1 with evs := [{ ev 1 with home := 5 }] } { ev 1 with home := 5 } (by decide +kernel)).2.2 (by decide +kernel)
      (by decide +kernel)) := ⟨trivial, trivial, trivial⟩


/-! ## The low 64 KiB of the local store are readable and writable -/

theorem low_place {k : Core} (hb : k.rtbase = defaultRanges.1) (hl : k.rtlim = defaultRanges.2) {a : Nat} (ha : a < 2 ^ 16) :
    placeOf k a = some ⟨.local_, 0, a, 0xB8700⟩ := by
  have e : rangeHolds k a 0 = true := by
    have : a / 2 ^ 16 = 0 := by omega
    simp only [rangeHolds, hb, hl, this]; decide
  have r : List.range 32 = 0 :: (List.range 31).map Nat.succ := by decide
  simp [placeOf, r, e, hl, hb, defaultRanges, rtypeOf, fieldOf, Machine.bits]
theorem low_fault {k : Core} (hb : k.rtbase = defaultRanges.1) (hl : k.rtlim = defaultRanges.2) {ea n : Nat} (ha : ea + n ≤ 2 ^ 16) (rd wr : Bool) :
    firstFault k rd wr ea n = none := by
  simp only [firstFault, List.findSome?_eq_none_iff, List.mem_range]
  intro j hj
  have e : addrPlus ea j = ea + j := Nat.mod_eq_of_lt (by omega)
  have c : inCode k (ea + j) = false := by
    have : ¬ codeBase ≤ ea + j := by simp only [codeBase]; omega
    simp [inCode, this]
  have d : ¬ localSize ≤ ea + j := by simp [localSize]; omega
  simp [byteFault, e, low_place hb hl (show ea + j < 2 ^ 16 by omega), c, d]
theorem low_range {k : Core} (hb : k.rtbase = defaultRanges.1) (hl : k.rtlim = defaultRanges.2) {ea n : Nat} (ha : ea + n ≤ 2 ^ 16) (rd wr : Bool) :
    firstRangeFault k rd wr ea n = none := by
  simp only [firstRangeFault, List.findSome?_eq_none_iff, List.mem_range]
  intro j hj
  have e : addrPlus ea j = ea + j := Nat.mod_eq_of_lt (by omega)
  have d : ¬ localSize ≤ ea + j := by simp [localSize]; omega
  simp [rangeFault, e, low_place hb hl (show ea + j < 2 ^ 16 by omega), d]
theorem low_local {k : Core} (hb : k.rtbase = defaultRanges.1) (hl : k.rtlim = defaultRanges.2) {ea n : Nat} (ha : ea + n ≤ 2 ^ 16) :
    firstNotLocal k ea n = none := by
  simp only [firstNotLocal, List.findSome?_eq_none_iff, List.mem_range]
  intro j hj
  have e : addrPlus ea j = ea + j := Nat.mod_eq_of_lt (by omega)
  simp [e, low_place hb hl (show ea + j < 2 ^ 16 by omega)]
theorem low_trap {x : Ctx} (hb : (x.s.core x.c).rtbase = defaultRanges.1) (hl : (x.s.core x.c).rtlim = defaultRanges.2) {rs : List (Nat × Nat)}
    (ha : ∀ r ∈ rs, r.1 + r.2 ≤ 2 ^ 16) (wr : Bool) : blocksTrap x wr rs = none := by
  have f : (rs.findSome? fun r => firstFault (x.s.core x.c) (!wr) wr r.1 r.2) = none := by
    rw [List.findSome?_eq_none_iff]; exact fun r hr => low_fault hb hl (ha r hr) _ _
  have g : (rs.findSome? fun r => firstNotLocal (x.s.core x.c) r.1 r.2) = none := by
    rw [List.findSome?_eq_none_iff]; exact fun r hr => low_local hb hl (ha r hr)
  have r : (rs.findSome? fun r => firstRangeFault (x.s.core x.c) (!wr) wr r.1 r.2) = none := by
    rw [List.findSome?_eq_none_iff]; exact fun r hr => low_range hb hl (ha r hr) _ _
  simp [blocksTrap, f, g, r]
theorem quiet_wait {x : Ctx} (hn : x.s.net = []) (hf : x.th.fences = []) (wr : Bool) (rs : List (Nat × Nat)) : blocksWait x wr rs = none := by
  have e : ∀ p, sendable x.s p = true := by
    intro p
    simp [sendable, hn, ticketsAt]
  simp [blocksWait, e, fenceStop, hf]
theorem low_blocks {x : Ctx} {wr : Bool} {rs : List (Nat × Nat)} (hb : (x.s.core x.c).rtbase = defaultRanges.1)
    (hl : (x.s.core x.c).rtlim = defaultRanges.2) (hn : x.s.net = []) (hf : x.th.fences = []) (ha : ∀ r ∈ rs, r.1 + r.2 ≤ 2 ^ 16) :
    blocksOk x wr rs := ⟨low_trap hb hl ha wr, quiet_wait hn hf wr rs⟩


/-! ## Witnesses: the matrix unit -/

/-- The small machine's matrix unit, changed. -/
def matrix (f : Matrix → Matrix) (s : State) : State := s.modMyCore fun k => { k with mat := f k.mat }
/-- A latch of zeros. -/
def zeros (n : Nat) : Latch := ⟨true, 1, List.replicate n 0⟩
/-- Slot 3 owned by thread 0, both latches loaded. -/
def owned : State := matrix (fun y => { y with slots := y.slots.set 3 ⟨some 0, true, List.replicate 64 zeroBxa, zeros 32, zeros 64⟩ }) base
/-- Three of its commands are pending. -/
def owned3 : State := matrix (fun y => { y with cmds := List.replicate 3 ⟨1, 0, 3, .zero, 0, 0, 0, none, false⟩ }) owned
theorem witness_mzero (h : Obligations.MatrixCommands) : Runs (.mzero p 3) owned3 := runs (h.1 _ _) (by unfold ownsSlot hasRoom unit; decide +kernel)
theorem witness_mlda (h : Obligations.MatrixCommands) : Runs (.mlda p (a 5) 3) owned3 :=
  runs (h.2.1 _ _ _ _ rfl).1 ⟨by unfold ownsSlot unit; decide +kernel, by unfold hasRoom unit; decide +kernel, by unfold descOk; decide +kernel,
    low_blocks (by decide +kernel) (by decide +kernel) (by decide +kernel) (by decide +kernel) (by decide +kernel)⟩
/-- A descriptor with a reserved bit. -/
theorem witness_mldb_traps (h : Obligations.MatrixCommands) : Runs (.mldb p (a 5) 3) (put 3072 128 (2 ^ 96) owned3) :=
  stops (h.2.1 _ _ _ _ rfl).2 (by unfold ownsSlot descOk unit; decide +kernel)
theorem witness_mgatha (h : Obligations.MatrixCommands) : Runs (.mgatha p (a 8) 3) (put 3200 16 0xFFFF owned3) :=
  runs (h.2.1 _ _ _ _ rfl).1 ⟨by unfold ownsSlot unit; decide +kernel, by unfold hasRoom unit; decide +kernel, by unfold descOk; decide +kernel,
    low_blocks (by decide +kernel) (by decide +kernel) (by decide +kernel) (by decide +kernel) (by decide +kernel)⟩
/-- The last MMAC of the budget. -/
theorem witness_mmac (h : Obligations.MatrixCommands) : Runs (.mmac p 3) (matrix (fun y => { y with holder := some 0, left := 1 }) owned) :=
  runs (h.2.2.1 _ _) (by unfold ownsSlot hasRoom unit; decide +kernel)
theorem witness_mstc (h : Obligations.MatrixCommands) : Runs (.mstc p (a 5) 3) owned3 :=
  runs (h.2.2.2.1 _ _ _) ⟨by unfold ownsSlot unit; decide +kernel, by unfold hasRoom unit; decide +kernel, by unfold descOk; decide +kernel,
    low_blocks (by decide +kernel) (by decide +kernel) (by decide +kernel) (by decide +kernel) (by decide +kernel)⟩
theorem witness_mstcQ (h : Obligations.MatrixCommands) : Runs (.mstcQ p (a 4) 3) (matrix (fun y => { y with outq := List.replicate 7 ⟨0, [], 0⟩ }) owned3) :=
  runs (h.2.2.2.2.1 _ _ _) (by unfold ownsSlot hasRoom queuedTiles unit; decide +kernel)
theorem witness_msave (h : Obligations.MatrixCommands) : Runs (.msave p (a 4) 3) owned3 :=
  runs (h.2.2.2.2.2.1 _ _ _) ⟨by unfold ownsSlot unit; decide +kernel, by unfold hasRoom unit; decide +kernel,
    low_blocks (by decide +kernel) (by decide +kernel) (by decide +kernel) (by decide +kernel) (by decide +kernel)⟩
theorem witness_mrstr (h : Obligations.MatrixCommands) : Runs (.mrstr p (a 4) 3) owned3 :=
  runs (h.2.2.2.2.2.2.1 _ _ _) ⟨by unfold ownsSlot unit; decide +kernel, by unfold hasRoom unit; decide +kernel,
    low_blocks (by decide +kernel) (by decide +kernel) (by decide +kernel) (by decide +kernel) (by decide +kernel)⟩
theorem witness_matrix_slot (h : Obligations.MatrixCommands) : Runs (.mmac p 2) owned := stops (h.2.2.2.2.2.2.2.1 _ _ rfl) (by unfold ownsSlot unit; decide +kernel)

/-- Slot 3 owned, its latches not loaded. -/
def unloaded : State := matrix (fun y => { y with slots := y.slots.set 3 ⟨some 0, true, List.replicate 64 zeroBxa, ⟨false, 1, []⟩, ⟨false, 1, []⟩⟩ }) base
/-- Four of its thread's commands are pending. -/
def owned4 : State := matrix (fun y => { y with cmds := List.replicate 4 ⟨1, 0, 3, .zero, 0, 0, 0, none, false⟩ }) owned
/-- A fence of the thread is under way. -/
def fenced : State := owned.modMe fun th => { th with fences := [⟨1, 1, [4], [], [], true, true, true, false, false⟩] }
theorem fenced_wait {x : Ctx} {f : Fence} (hf : x.th.fences = [f]) (hr : f.succR = true) (rs : List (Nat × Nat)) :
    ∃ e, blocksWait x false rs = some e := by
  simp only [blocksWait, Bool.false_eq_true, if_false]
  split
  · exact ⟨.wait 1 (2 ^ f.tag), by simp [fenceStop, hf, hr]⟩
  · exact ⟨_, rfl⟩
/-- MRSTR as the unit sees it. -/
def restoring (s : State) : Ctx := mkCtx { v := fields (.mrstr p (a 4) 3), ra := some 64, wide := 64 } s
/-- Its blocks. -/
def restored (s : State) : List (Nat × Nat) := (savedAt (restoring s)).map fun a => (a, 200)
theorem restore_blocks (s : State) : unitBlocks (.mrstr p (a 4) 3) (restoring s) = some (false, restored s) := rfl
/-- A machine whose MRSTR names an address of no range. -/
def astray : State := put 3072 64 0x8000000000000000 owned
/-- What it traps with. -/
def rangeMissed : Stop := .trap Cause.rangeMiss 0x8000000000000000
theorem restore_trap : blocksTrap (restoring astray) false (restored astray) = some rangeMissed := trap_is (by decide +kernel)
theorem astray_stops : ∃ b, unitBlocks (.mrstr p (a 4) 3) (restoring astray) = some b ∧ blocksTrap (restoring astray) b.1 b.2 =
    some rangeMissed := ⟨_, restore_blocks _, restore_trap⟩
theorem fenced_stops {e : Stop} (h : blocksWait (restoring fenced) false (restored fenced) = some e) :
    ∃ b, unitBlocks (.mrstr p (a 4) 3) (restoring fenced) = some b ∧ blocksWait (restoring fenced) b.1 b.2 = some e := ⟨_, restore_blocks _, h⟩
/-- Empty latches, an array that is another's or no one's, 8 tiles queued, blocks that no range holds, four commands, and a fence. -/
theorem witness_matrix_stops (h : Obligations.MatrixCommands) : Runs (.mmac p 3) unloaded ∧ Runs (.mmac p 3) owned ∧
    Runs (.mstcQ p (a 4) 3) (matrix (fun y => { y with outq := List.replicate 8 ⟨0, [], 0⟩ }) owned3) ∧
    Runs (.mrstr p (a 4) 3) astray ∧ Runs (.mzero p 3) owned4 ∧ Runs (.mrstr p (a 4) 3) fenced := by
  obtain ⟨e, he⟩ := fenced_wait (x := restoring fenced) (by rfl) rfl (restored fenced)
  refine ⟨stops (h.2.2.2.2.2.2.2.2.1 _ _) (by unfold ownsSlot latchesLoaded unit; decide +kernel),
    stops (h.2.2.2.2.2.2.2.2.2.1 _ _) (by unfold ownsSlot latchesLoaded unit; decide +kernel),
    stops (h.2.2.2.2.2.2.2.2.2.2.1 _ _ _) (by unfold ownsSlot queuedTiles unit; decide +kernel),
    stops ((h.2.2.2.2.2.2.2.2.2.2.2.1 (.mrstr p (a 4) 3) _ rfl).1 rangeMissed) ⟨by unfold ownsSlot unit; decide +kernel, trivial, astray_stops⟩,
    stops (h.2.2.2.2.2.2.2.2.2.2.2.1 _ _ rfl).2.1 ⟨⟨by unfold ownsSlot unit; decide +kernel, trivial, nofun, trivial⟩, by unfold hasRoom unit; decide +kernel⟩,
    stops ((h.2.2.2.2.2.2.2.2.2.2.2.1 _ _ rfl).2.2 e) ⟨⟨by unfold ownsSlot unit; decide +kernel, trivial, ?_, trivial⟩, by unfold hasRoom unit; decide +kernel, ?_⟩⟩
  · intro wr rs hb
    obtain ⟨rfl, rfl⟩ := Prod.mk.inj (Option.some.inj hb)
    exact low_trap (by decide +kernel) (by decide +kernel) (by decide +kernel) _
  · exact fenced_stops he
theorem not_local {x : Ctx} {a : Nat} (h : (match placeOf (x.s.core x.c) a with | some p => decide (p.typ ≠ .local_) | none => true) = true) :
    ¬ isLocal x a := by
  rintro ⟨p, hp, ht⟩
  rw [hp] at h
  simp [ht] at h
theorem all_local {x : Ctx} {a n : Nat} (h : ((List.range n).all fun j => match placeOf (x.s.core x.c) (addrPlus a j) with
    | some p => decide (p.typ = .local_) | none => false) = true) : ∀ r ∈ [(a, n)], ∀ j, j < r.2 → isLocal x (addrPlus r.1 j) := by
  intro r hr j hj
  obtain rfl := List.mem_singleton.1 hr
  have e := List.all_eq_true.1 h j (List.mem_range.2 hj)
  revert e
  cases c : placeOf (x.s.core x.c) (addrPlus a j) with
  | none => simp
  | some p => exact fun e => ⟨p, c, by simpa using e⟩
/-- A byte of the code region on this core. -/
def coded : State := base.modMyCore fun k => { k with codelen := 4096 }
/-- The blocks of a matrix command: a byte of no range, one outside LOCAL, one of the code region that is written, and none of these. -/
def codedCtx : Ctx := mkCtx (plainSpec (fields .nop)) coded
theorem witness_block_traps (h : Obligations.MatrixCommands) :
    Applies ((h.2.2.2.2.2.2.2.2.2.2.2.2.1 codedCtx false [(0x8000000000000000, 8)]).1 (Cause.rangeMiss, 0x8000000000000000) (by decide +kernel)) ∧
    Applies (((h.2.2.2.2.2.2.2.2.2.2.2.2.1 codedCtx false [(0x10000000000, 8)]).2 (by decide +kernel)).1 ⟨_, .head _, 0, Nat.zero_lt_succ _, not_local (by decide +kernel)⟩) ∧
    Applies ((((h.2.2.2.2.2.2.2.2.2.2.2.2.1 codedCtx true [(codeBase, 8)]).2 (by decide +kernel)).2 (all_local (by decide +kernel))).1 ⟨_, .head _, 0, Nat.zero_lt_succ _, rfl, by decide +kernel⟩) ∧
    Applies ((((h.2.2.2.2.2.2.2.2.2.2.2.2.1 codedCtx false [(codeBase, 8)]).2 (by decide +kernel)).2 (all_local (by decide +kernel))).2 (by intro r _ j _; simp)) :=
  ⟨trivial, trivial, trivial, trivial⟩

/-- The holder, and a thread that is not; MCFG that keeps slot 3, and with a reserved format. -/
theorem witness_mlease (h : Obligations.MatrixControl) : Runs (.mlease p) (matrix (fun y => { y with holder := some 0 }) base) ∧
    Runs (.mlease p) base ∧ Runs (.mrels p) base ∧ Runs (.mcfg p (a 3)) (put 3072 32 0xAF owned) ∧
    Runs (.mcfg p (a 3)) (put 3072 32 0xC0 owned) ∧ Runs (.mstat p (d 3)) owned :=
  ⟨runs (h.1.1 _) (by unfold unit; decide +kernel), stops (h.1.2.1 _) (by unfold unit; decide +kernel), runs (h.1.2.2.1 _) trivial,
   runs (h.1.2.2.2.1 _ _) (by unfold mcfgOk mcfgWord mcfgDrops quiet unit; decide +kernel),
   stops (h.1.2.2.2.2.1 _ _) (by unfold mcfgWord; decide +kernel), runs (h.1.2.2.2.2.2.2.2.2.1 _ _) trivial⟩
/-- A slot of thread 1, a live slot dropped, and a command pending. -/
theorem witness_mcfg_stops (h : Obligations.MatrixControl) :
    Runs (.mcfg p (a 3)) (put 3072 32 8 (matrix (fun y => { y with slots := y.slots.set 3 ⟨some 1, false, [], zeros 32, zeros 64⟩ }) base)) ∧
    Runs (.mcfg p (a 3)) owned ∧ Runs (.mcfg p (a 3)) (put 3072 32 8 owned3) :=
  ⟨stops (h.1.2.2.2.2.2.1 _ _ 3) (by unfold mcfgWord unit; decide +kernel),
   stops (h.1.2.2.2.2.2.2.1 _ _) (by unfold mcfgWord mcfgDrops unit; decide +kernel),
   stops (h.1.2.2.2.2.2.2.2.1 _ _) (by unfold mcfgOk mcfgWord mcfgDrops quiet unit; decide +kernel)⟩
/-- The last slot of a mask, and a holder without MMACs. -/
theorem witness_configure (h : Obligations.MatrixControl) : Applies (h.1.2.2.2.2.2.2.2.2.2.1 owned.myCore.mat 0 0xF 3 (by decide) (by decide +kernel)) ∧
    owned.myCore.mat.slots[3]?.map MSlot.owner = some (some 0) ∧ Applies (h.1.2.2.2.2.2.2.2.2.2.2 0 0
      (matrix (fun y => { y with holder := some 0 }) base) (by decide +kernel) (by decide +kernel)) := ⟨trivial, by decide +kernel, trivial⟩
/-- An MMAC at its last k-step, and one that has ended. -/
def mac (k : Nat) : MCmd := ⟨7, 0, 3, .mac, 0, k, 0, none, true⟩
/-- The unit with it. -/
def macs (k : Nat) : State := matrix (fun y => { y with cmds := [mac k], running := true, holder := some 0 }) owned
theorem witness_mcmd (h : Obligations.MatrixControl) : Applies (h.2.1 (macs 32) 0 (mac 32) (by decide +kernel) (by decide +kernel) (by decide +kernel)
    (by decide +kernel) rfl (by decide +kernel) (by decide) (by decide +kernel)) := trivial
theorem witness_kstep (h : Obligations.MatrixControl) : Applies (h.2.2.1 (macs 31) 0 (mac 31) (by decide +kernel) (by decide +kernel) (by decide +kernel)
    (by decide +kernel)) := trivial
/-- A thread whose MLEASE waits. -/
def leasing : State := { (focus 0 0 (State.reset.withFetchWord 80 0x240)).modMe fun th => { th with wait := some ⟨5, 15, 0, 0⟩ } with now := 4096 }
theorem witness_grant (h : Obligations.MatrixControl) : Applies (h.2.2.2.1 leasing 0 0 (by decide +kernel) (by decide +kernel) (by decide +kernel)) := trivial
/-- Slot 1 holds the array, its budget spent, with and without an MMAC under way; slot 0 waits. -/
theorem witness_expiry (h : Obligations.MatrixControl) :
    let s := matrix (fun y => { y with holder := some 1 }) leasing
    let z := matrix (fun y => { y with cmds := [{ mac 3 with slot := 1 }] }) s
    ∃ _ : (s.core 0).mat.holder = some 1 ∧ (s.core 0).mat.release = false ∧ (s.core 0).mat.granted + 4096 ≤ s.now,
    ∃ _ : (z.core 0).mat.holder = some 1 ∧ (z.core 0).mat.release = false ∧ (z.core 0).mat.granted + 4096 ≤ z.now,
    ∃ u v, exec (.leaseBudgetExpiry 0) s = .next u ∧ exec (.leaseBudgetExpiry 0) z = .next v ∧ otherWaits s 0 1 = true ∧ (s.core 0).mat.macsOf 1 = 0 ∧
      otherWaits z 0 1 = true ∧ (z.core 0).mat.macsOf 1 ≠ 0 := by
  intro s z
  have x : (s.core 0).mat.holder = some 1 ∧ (s.core 0).mat.release = false ∧ (s.core 0).mat.granted + 4096 ≤ s.now := by decide +kernel
  have y : (z.core 0).mat.holder = some 1 ∧ (z.core 0).mat.release = false ∧ (z.core 0).mat.granted + 4096 ≤ z.now := by decide +kernel
  let ⟨u, hu, _⟩ := h.2.2.2.2 s 0 1 x.1 x.2.1 x.2.2
  let ⟨v, hv, _⟩ := h.2.2.2.2 z 0 1 y.1 y.2.1 y.2.2
  exact ⟨x, y, u, v, hu, hv, by decide +kernel, by decide +kernel, by decide +kernel, by decide +kernel⟩


/-! ## Witnesses: memory forms, the copy engine, reduction trees -/

/-- A at the last 8 bytes of 64 KiB, at an address of the REMOTE window, and at one of no range. -/
def at_ (a : Nat) : State := put 3072 64 a base
/-- No stop, computed. -/
theorem no_stop {o : Option Stop} (h : o.isNone = true) : o = none := Option.isNone_iff_eq_none.1 h
theorem witness_ld (h : Obligations.MemoryForms) : Runs (.ld pt (d 4) (a 4) 0x7FF8) (at_ 0x8000) ∧ Runs (.ld pt (d 4) (a 4) 0) (at_ 0x10000000000) ∧
    Runs (.ld pt (d 4) (a 4) 0) (at_ 0x8000000000000000) :=
  ⟨runs (h.1 _ _ _ rfl).1 (by unfold accessOk atOnce; exact ⟨⟨no_stop (by decide +kernel), no_stop (by decide +kernel)⟩, by decide +kernel⟩), runs (h.1 _ _ _ rfl).2.1 (by unfold accessOk atOnce; exact ⟨⟨no_stop (by decide +kernel), no_stop (by decide +kernel)⟩, by decide +kernel⟩),
   stops ((h.1 _ _ _ rfl).2.2.2 Cause.rangeMiss 0x8000000000000000) (by decide +kernel)⟩
/-- A CAS of 128 bits; an ADD of 4 bytes at an odd address. -/
theorem witness_acas (h : Obligations.MemoryForms) : Runs (.acas pt (d 5) (a 4) 0) (at_ 8) ∧ Runs (.aadd pt (d 3) (a 4) 3) base :=
  ⟨runs (h.1 _ _ _ rfl).1 (by unfold accessOk atOnce; exact ⟨⟨no_stop (by decide +kernel), no_stop (by decide +kernel)⟩, by decide +kernel⟩), stops (h.1 _ _ _ rfl).2.2.1 (by decide +kernel)⟩
theorem witness_redb (h : Obligations.MemoryForms) : Runs (.redb p (d 9) (a 4) 0) (at_ 0x100) :=
  runs (h.1 _ _ _ rfl).1 (by unfold accessOk atOnce; exact ⟨⟨no_stop (by decide +kernel), no_stop (by decide +kernel)⟩, by decide +kernel⟩)
/-- An atomic on an MMIO byte, a REDB across two pages, and a load of a core that is not the launch's. -/
theorem witness_form_stops (h : Obligations.MemoryForms) : Runs (.aadd pt (d 4) (a 4) 0) (at_ 0xF00000000000) ∧
    Runs (.redb p (d 9) (a 4) 0) (at_ 0x80000000FF80) ∧ Runs (.ld pt (d 4) (a 4) 0) (at_ 0x10000500000) :=
  ⟨stops (h.2.1 _ _ _ rfl).1 (by decide +kernel), stops (h.2.1 _ _ _ rfl).2.1 (by decide +kernel),
   stops ((h.2.1 _ _ _ rfl).2.2 (.trap Cause.remoteAbsent 0x10000500000)) ⟨no_stop (by decide +kernel), trap_is (by decide +kernel)⟩⟩
/-- Loads with nothing but a write before them, and PERSIST. -/
theorem witness_fence (h : Obligations.MemoryForms) : Runs (.fence pt 0x6A) { base with net := [{ piece1 with op := .write }] } ∧
    Runs (.fence pt 0x7F) base :=
  ⟨runs (h.2.2.1 _ _) (by unfold awaited persists; decide +kernel), runs (h.2.2.2 _ _) (by unfold awaited persists; decide +kernel)⟩

theorem base_trace : ∀ b, (base.traceBlk b).en = false := by
  intro b
  have e : base.trace = List.replicate 48 .reset := by decide +kernel
  simp only [State.traceBlk, e, List.getD_eq_getElem?_getD, List.getElem?_replicate]
  split <;> rfl
theorem witness_bytes (h : Obligations.WhatAccessesDo) :
    Applies (h.1 p (d 4) (a 4) 0 base _ rfl (may_sound (by decide +kernel)) (by unfold accessOk; exact ⟨no_stop (by decide +kernel), no_stop (by decide +kernel)⟩)
      (by unfold atOnce; decide +kernel) (by decide +kernel) (by decide +kernel) (by decide +kernel) base_trace) ∧
    Applies (h.2.1 pt (d 4) (a 4) 0 base _ rfl (may_sound (by decide +kernel)) (by unfold accessOk; exact ⟨no_stop (by decide +kernel), no_stop (by decide +kernel)⟩)
      (by unfold atOnce; decide +kernel) (by decide +kernel) (by decide +kernel) base_trace) ∧
    Applies (h.2.2.2.2.1 64 (2 ^ 64 - 1) (2 ^ 63) (by decide) (by decide) (by decide)) ∧
    Applies ((h.2.2.2.2.1 64 0 5 (by decide) (by decide) (by decide)).2.2.2.2.2.2.2.2.2.1 9 (by decide)) ∧
    Applies (h.2.2.2.2.2.1 true true 2048 0 0 511 (by decide)) ∧ Applies (h.2.2.2.2.2.2.2.2.1 true true true true 2048 0 0 511 (by decide)) ∧
    Applies (h.2.2.2.2.2.2.2.2.2 base 0 piece1 (by decide +kernel)) := ⟨trivial, trivial, trivial, trivial, trivial, trivial, trivial⟩
/-- SPILL from bit 4 of its first byte on, and FILL from there. -/
theorem witness_nibbles (h : Obligations.WhatAccessesDo) :
    Applies (h.2.2.1 px (d 4) (a 4) 0 base _ rfl (may_sound (by decide +kernel)) (by unfold accessOk; exact ⟨no_stop (by decide +kernel), no_stop (by decide +kernel)⟩)
      (by unfold atOnce; decide +kernel) (by decide +kernel) (by decide +kernel) (by decide +kernel) base_trace) ∧
    Applies (h.2.2.2.1 { pt with x := true } (d 4) (a 4) 0 base _ rfl (may_sound (by decide +kernel)) (by unfold accessOk; exact ⟨no_stop (by decide +kernel), no_stop (by decide +kernel)⟩)
      (by unfold atOnce; decide +kernel) (by decide +kernel) (by decide +kernel) base_trace) := ⟨trivial, trivial⟩

/-- A descriptor of one row of 8 bytes from 0x100 to 0x200, with an event. -/
def cpy8 : Nat := 0x100 + 0x200 * 2 ^ 64 + 8 * 2 ^ 128 + 2 ^ 160 + 2 ^ 192 + 2 ^ 387
/-- A command of it. -/
def cmd1 : EngCmd := ⟨3, 0, 0, BitVec.ofNat 512 (cpy8 - 2 ^ 387), 0, none, false, 0, 0, [], none, false, 0, [], false⟩
/-- Queue 3 of the engine, changed. -/
def engine (f : EngQueue → EngQueue) (s : State) : State := s.modMyCore fun k => { k with eng := k.eng.set 3 (f (k.engQueue 3)) }
/-- The last free place of a queue, an event, a descriptor with a reserved bit, and an event without a credit. -/
theorem witness_cpy (h : Obligations.CopyEngine) : Runs (.cpy pt (d 4) (a 7) 3) (put 3072 512 cpy8 (engine (fun y => { y with cmds := List.replicate 15 cmd1 }) base)) ∧
    Runs (.sortk p .zero (a 7) 0) (put 3072 512 (2 ^ 511) base) ∧
    Runs (.cpy p .zero (a 7) 3) (put 3072 512 cpy8 (base.modMe fun th => { th with credits := 0 })) :=
  ⟨runs (h.1 _ _ rfl).1 (by unfold engineOk; decide +kernel), stops (h.1 _ _ rfl).2.1 (by decide +kernel), stops (h.1 _ _ rfl).2.2 (by decide +kernel)⟩
theorem witness_qfence (h : Obligations.CopyEngine) : Runs (.qfence pt 15) base ∧ Runs (.qfence pt 8) (engine (fun y => { y with cmds := [cmd1] }) base) ∧
    Runs (.engst p (d 4) 7) base :=
  ⟨runs (h.2.2.1 _ _) (by decide +kernel), runs (h.2.2.2.1 _ _) (by decide +kernel), runs (h.2.2.2.2.1 _ _ _) trivial⟩
theorem witness_command (h : Obligations.CopyEngine) :
    Applies (h.2.2.2.2.2.1 (mkCtx (engineSpec (fields (.cpy pt (d 4) (a 7) 3))) base) 0 3 cpy8 none base (by decide +kernel)) ∧
    Applies (h.2.2.2.2.2.2.1 (engine (fun y => { y with cmds := [cmd1] }) base) 0 3 cmd1 [] (by decide +kernel) (by decide +kernel) (by decide) (by decide +kernel)
      (by decide +kernel) (by decide +kernel) (by decide +kernel) (by intro t; match t with | 0 | 1 | 2 | 3 | 4 | 5 | 6 | 7 => decide +kernel | _ + 8 => rfl)
      (.inr (.inl (Option.isNone_iff_eq_none.1 (by decide +kernel))))) ∧
    Applies (h.2.2.2.2.2.2.1 (engine (fun y => { y with cmds := [cmd1], halt := true }) base) 0 3 cmd1 [] (by decide +kernel) (by decide +kernel) (by decide)
      (by decide +kernel) (by decide +kernel) (by decide +kernel) (by decide +kernel)
      (by intro t; match t with | 0 | 1 | 2 | 3 | 4 | 5 | 6 | 7 => decide +kernel | _ + 8 => rfl) (.inl (by decide +kernel))) ∧
    Applies (h.2.2.2.2.2.2.2.1 0 cmd1 rfl (by decide +kernel)) := ⟨trivial, trivial, trivial, trivial⟩
/-- The status word of a command that fails lands. -/
def statusLands : State := landing { l64 with missing := 1 } base
theorem witness_status_lands (h : Obligations.CopyEngine) :
    Applies (h.2.1 statusLands 0 3 7 0 5 { cmd1 with land := some 5 } { l64 with missing := 1 } (by decide +kernel) rfl (by decide +kernel) rfl nofun (by decide +kernel)
      (by intro t; match t with | 0 | 1 | 2 | 3 | 4 | 5 | 6 | 7 => decide +kernel | _ + 8 => rfl) (by decide)) := trivial
/-- A row whose source has an uncorrectable error fails the command. -/
theorem witness_command_fails : ∃ a cause, (runSteps 0 cmd1 (engSteps 0 cmd1) 0 [] { base with badMem := [localKey 0 0x100] }).2.2.2 =
    some (a, .fails cause) := by
  have e : ((runSteps 0 cmd1 (engSteps 0 cmd1) 0 [] { base with badMem := [localKey 0 0x100] }).2.2.2.any
      fun p => match p.2 with | .fails _ => true | _ => false) = true := by decide +kernel
  revert e
  generalize (runSteps _ _ _ _ _ _).2.2.2 = o
  match o with
  | some (a, .fails c) => exact fun _ => ⟨a, c, rfl⟩
  | none | some (_, .page ..) | some (_, .later) | some (_, .regs ..) | some (_, .bytes ..) | some (_, .own ..) => simp

/-- A tree of two members, its root on core 0, no wire narrower than BXA. -/
def root2 : TreeNode := ⟨0, 0, 0, 1, false, true, 0, [(0, 0xFFFFFFFF), (1, 0)], 0, 1, 0, [], [], 0, 0, [], [], [], none⟩
/-- Tree 7 of core 0. -/
def tree7 (x : TreeState) (s : State) : State := setTree 0 7 x s
/-- Seven contributions are held, and eight. -/
def root2full (k : Nat) : TreeNode := { root2 with contribs := List.replicate k ⟨9, 0, 0, false, [], 0, []⟩ }
/-- A table of one entry is read, one is not (its first byte has an error), and a descriptor with a reserved bit. -/
theorem witness_rtree (h : Obligations.ReductionTrees) : Runs (.rtree pt (d 4) (a 6)) (put 3072 256 (0x100 + 2 ^ 64 + 7 * 2 ^ 96) base) ∧
    Runs (.rtree pt (d 4) (a 6)) (put 3072 256 (0x100 + 2 ^ 64 + 7 * 2 ^ 96) { base with badMem := [localKey 0 0x100] }) ∧
    Runs (.rtree pt (d 4) (a 6)) (put 3072 256 (2 ^ 255) base) := by
  refine ⟨runs (h.1 _ _ _) ⟨by decide +kernel, .inl ⟨Option.isNone_iff_eq_none.1 (by unfold tableBar; decide +kernel), no_stop (by decide +kernel)⟩⟩,
    runs (h.1 _ _ _) ⟨by decide +kernel, .inr ?_⟩, stops (h.2.2.2.1 _ _ _) (by decide +kernel)⟩
  have e : (tableBar (mkCtx (rtreeSpec (fields (.rtree pt (d 4) (a 6)))) (put 3072 256 (0x100 + 2 ^ 64 + 7 * 2 ^ 96) { base with badMem := [localKey 0 0x100] }))).any
      (fun p => match p.2 with | .later => false | .page .. => false | _ => true) = true := by unfold tableBar; decide +kernel
  revert e
  generalize tableBar _ = o
  match o with
  | some (a, .fails _) | some (a, .own ..) | some (a, .regs ..) | some (a, .bytes ..) => exact fun _ => ⟨a, _, rfl, by simp, by simp⟩
  | none | some (_, .page ..) | some (_, .later) => simp
theorem witness_rsend (h : Obligations.ReductionTrees) : Runs (.rsend p (d 3) (a 9) 7) (tree7 (.installed (root2full 7)) base) ∧
    Runs (.rsend p (d 3) (a 4) 7) (tree7 (.installed root2) base) ∧ Runs (.rsend p (d 3) (a 9) 7) (tree7 (.installed (root2full 8)) base) ∧
    Runs (.rsend p (d 3) (a 9) 7) base :=
  ⟨runs (h.2.2.2.2.2.2.2.1 _ _ _ _ (root2full 7)) (by unfold nodeOf; decide +kernel), stops (h.2.2.2.2.2.2.2.2.1 _ _ _ _ root2) (by unfold nodeOf; decide +kernel),
   stops (h.2.2.2.2.2.2.2.2.2.1 _ _ _ _ (root2full 8)) (by unfold nodeOf; decide +kernel), stops (h.2.2.2.2.2.2.2.2.2.2.1 _ _ _ _) (by decide +kernel)⟩
/-- A tree that gives no results to this node, installed and aborted. -/
theorem witness_rwait (h : Obligations.ReductionTrees) : Runs (.rwait pt (d 9) 7) (tree7 (.installed root2) base) ∧
    Runs (.rwait pt (d 9) 7) (tree7 (.aborted 0) base) ∧ Runs (.rwait pt (d 4) 7) (tree7 (.installed root2) base) ∧
    Runs (.rwait pt (d 9) 7) (tree7 (.aborted 1) base) ∧ Runs (.rwait pt (d 9) 7) base ∧
    Runs (.rwait pt (d 9) 7) (tree7 (.installed { root2 with me := 1, deliv := false }) base) :=
  ⟨runs (h.2.2.2.2.2.2.2.2.2.2.2.1 _ _ _) (.inl ⟨root2, by unfold nodeOf; decide +kernel⟩), runs (h.2.2.2.2.2.2.2.2.2.2.2.1 _ _ _) (.inr ⟨by decide +kernel, 0, by decide +kernel⟩),
   stops (h.2.2.2.2.2.2.2.2.2.2.2.2.1 _ _ _) (.inl ⟨root2, by unfold nodeOf; decide +kernel⟩), stops (h.2.2.2.2.2.2.2.2.2.2.2.2.1 _ _ _) (.inr ⟨by decide +kernel, 1, by decide +kernel⟩),
   stops (h.2.2.2.2.2.2.2.2.2.2.2.2.2.1 _ _ _) (.inl (by unfold noTree; decide +kernel)), stops (h.2.2.2.2.2.2.2.2.2.2.2.2.2.1 _ _ _) (.inr ⟨{ root2 with me := 1, deliv := false }, by unfold nodeOf; decide +kernel⟩)⟩
theorem witness_rabort (h : Obligations.ReductionTrees) : Runs (.rabort p 7) (tree7 (.installed root2) base) ∧ Runs (.rabort p 7) (tree7 (.aborted 0) base) ∧
    Runs (.rabort p 7) base :=
  ⟨runs (h.2.2.2.2.2.2.2.2.2.2.2.2.2.2.1 _ _ root2) (by unfold nodeOf; decide +kernel), runs (h.2.2.2.2.2.2.2.2.2.2.2.2.2.2.2.1 _ _) (by decide +kernel),
   stops (h.2.2.2.2.2.2.2.2.2.2.2.2.2.2.2.2.1 _ _) (by unfold noTree; decide +kernel)⟩
/-- A thread of the first press core of link port 0, and one of core 0. -/
def pressed : State := { base with curCore := 20, cores := [(20, loadCore 0)] }
theorem witness_bdisp (h : Obligations.ReductionTrees) : Runs (.bdisp pt (d 3) (a 4)) (put 3072 64 0xC0 pressed) ∧ Runs (.bdisp pt (d 3) (a 4)) base ∧
    Runs (.bdisp pt (d 3) (a 4)) (put 3072 64 0x100 base) :=
  ⟨runs (h.2.2.2.2.2.2.2.2.2.2.2.2.2.2.2.2.2.1 _ _ _) (by decide +kernel), stops (h.2.2.2.2.2.2.2.2.2.2.2.2.2.2.2.2.2.2.1 _ _ _) (by decide +kernel), stops (h.2.2.2.2.2.2.2.2.2.2.2.2.2.2.2.2.2.2.2.1 _ _ _) (by decide +kernel)⟩

/-- A message of tree 7 from core 1 to core 0. -/
def up (w : TreeWhat) : TreeMsg := ⟨5, 0, 0, 0, 7, 1, w⟩
/-- The root with it in flight. -/
def treeState (w : TreeWhat) : State := { tree7 (.installed root2) pair with treeMsgs := [up w] }
/-- The root with some results queued. -/
def treeQueued (k : Nat) (w : TreeWhat) : State :=
  { tree7 (.installed { root2 with queue := List.replicate k ⟨0, 0, false, [], false⟩ }) pair with treeMsgs := [up w] }
/-- A complete part of block 0. -/
def part0 (e : Nat) : TreePart := ⟨0, e, 0x8000, false, [], 0, []⟩
theorem witness_tree_messages (h : Obligations.ReductionTrees) :
    (∃ e, TreeNode.childAt (treeState (.abort 0)) 0 root2 1 = some e) ∧ TreeNode.childAt (treeState (.abort 0)) 0 root2 2 = none ∧
    Applies (h.2.2.2.2.2.2.2.2.2.2.2.2.2.2.2.2.2.2.2.2.1 (treeState (.part (part0 0))) (up (.part (part0 0))) 0 root2 (part0 0) (by unfold reaches; decide +kernel) rfl (by decide +kernel)) ∧
    Runs (.treeRackWordArrival 5) (treeState (.rack 0 3)) ∧
    Runs (.treeResultDelivery 5) (treeQueued 7 (.result ⟨0, 0, false, [], false⟩)) ∧ Runs (.treeResultDelivery 5) (treeQueued 8 (.result ⟨0, 0, false, [], false⟩)) ∧
    Applies (h.2.2.2.2.2.2.2.2.2.2.2.2.2.2.2.2.2.2.2.2.2.2.2.2.1 { pair with treeMsgs := [up (.rack 0 3)] } (up (.rack 0 3)) 0 (by unfold reaches; decide +kernel) (by intro w h; cases h) (by decide +kernel)) ∧
    Runs (.treeAbortArrival 5) (treeState (.abort 0)) :=
  ⟨⟨1, by decide +kernel⟩, by decide +kernel, trivial,
   ⟨_, h.2.2.2.2.2.2.2.2.2.2.2.2.2.2.2.2.2.2.2.2.2.2.1 (treeState (.rack 0 3)) (up (.rack 0 3)) 0 root2 0 3 (by unfold reaches; decide +kernel) rfl (by decide +kernel)⟩,
   ⟨_, (h.2.2.2.2.2.2.2.2.2.2.2.2.2.2.2.2.2.2.2.2.2.2.2.1 (treeQueued 7 (.result ⟨0, 0, false, [], false⟩)) (up (.result ⟨0, 0, false, [], false⟩)) 0
     { root2 with queue := List.replicate 7 ⟨0, 0, false, [], false⟩ } ⟨0, 0, false, [], false⟩ (by unfold reaches; decide +kernel) rfl (by decide +kernel)).1 (by decide)⟩,
   ⟨_, (h.2.2.2.2.2.2.2.2.2.2.2.2.2.2.2.2.2.2.2.2.2.2.2.1 (treeQueued 8 (.result ⟨0, 0, false, [], false⟩)) (up (.result ⟨0, 0, false, [], false⟩)) 0
     { root2 with queue := List.replicate 8 ⟨0, 0, false, [], false⟩ } ⟨0, 0, false, [], false⟩ (by unfold reaches; decide +kernel) rfl (by decide +kernel)).2 (by decide)⟩,
   trivial, let ⟨u, hu, _⟩ := h.2.2.2.2.2.2.2.2.2.2.2.2.2.2.2.2.2.2.2.2.2.2.2.2.2.1 (treeState (.abort 0)) (up (.abort 0)) 0 0 (by unfold reaches; decide +kernel) rfl; ⟨u, hu⟩⟩
/-- The tree timeout of a node without contributions and of one whose contribution still waits for an access. -/
theorem witness_tree_timeout (h : Obligations.ReductionTrees) : Runs (.treeTimeout 0 7 0) (treeState (.abort 0)) ∧
    Runs (.treeTimeout 0 7 0) (tree7 (.installed { root2 with contribs := [{ part0 0 with after := [4] }] }) { pair with net := [{ piece1 with order := 4 }] }) := by
  refine ⟨⟨_, (h.2.2.2.2.2.2.2.2.2.2.2.2.2.2.2.2.2.2.2.2.2.2.2.2.2.2.1 (treeState (.abort 0)) 0 7 0).1 ?_⟩,
    ⟨_, (h.2.2.2.2.2.2.2.2.2.2.2.2.2.2.2.2.2.2.2.2.2.2.2.2.2.2.1 (tree7 (.installed { root2 with contribs := [{ part0 0 with after := [4] }] }) { pair with net := [{ piece1 with order := 4 }] }) 0 7 0).2
      { root2 with contribs := [{ part0 0 with after := [4] }] } (by decide +kernel) ⟨_, .head _, by decide +kernel⟩⟩⟩
  have e : ((kickTree 0 7 (treeState (.abort 0))).core 0).node 7 = some root2 := by decide +kernel
  intro n hn
  rw [e] at hn
  obtain rfl := (Option.some.inj hn).symm
  intro p hp
  cases hp
/-- A table that names the core by a trellis index, one that does not, and a child. -/
theorem witness_names (h : Obligations.ReductionTrees) : Applies ((h.2.1 pair 0 1 [(1, noParent)]).1 ⟨_, .head _, by decide +kernel⟩) ∧
    Applies ((h.2.1 pair 0 1 [(9, noParent)]).2 (by decide +kernel)) ∧ pair.names 0 1 1 = true ∧ pair.names 0 9 1 = false ∧
    Applies (h.2.2.2.2.2.2.2.2.2.2.2.2.2.2.2.2.2.2.2.2.2.1 pair 0 1 1 root2 (by decide +kernel)) := ⟨trivial, trivial, by decide +kernel, by decide +kernel, trivial⟩
/-- Both parts of block 0 are there; a child's, and the own one, is missing. -/
theorem witness_fold (h : Obligations.ReductionTrees) :
    Applies (h.2.2.2.2.2.2.2.2.2.2.2.2.2.2.2.2.2.2.2.2.2.2.2.2.2.2.2.2.1 base { root2 with contribs := [part0 0], parts := [part0 1] } (part0 0) [part0 1] (by decide +kernel)
      rfl rfl (by decide +kernel) (by decide) (by decide)) ∧
    Applies (h.2.2.2.2.2.2.2.2.2.2.2.2.2.2.2.2.2.2.2.2.2.2.2.2.2.2.2.2.2.1 base { root2 with contribs := [part0 0] } (.inr ⟨1, by decide +kernel⟩)) ∧ Applies (h.2.2.2.2.2.2.2.2.2.2.2.2.2.2.2.2.2.2.2.2.2.2.2.2.2.2.2.2.2.1 base root2 (.inl (by decide +kernel))) ∧
    Applies (h.2.2.2.2.2.2.2.2.2.2.2.2.2.2.2.2.2.2.2.2.2.2.2.2.2.2.2.2.2.2.1 base { root2 with wire := 1 } rfl) := ⟨trivial, trivial, trivial, trivial⟩


/-! ## Witnesses: collectives, tasks, barriers -/

/-- Memory that holds a collective block of one member and one axis at 0, its member array at 0 in zeros, and a tree at 0x2000. -/
def oneMember (s : State) : State :=
  { s with mem := [⟨0x01, 0x10⟩, ⟨0x1A, 1⟩, ⟨0x20, 1⟩, ⟨0x49, 0x20⟩, ⟨0x2004, 0xFF⟩, ⟨0x2005, 0xFF⟩, ⟨0x2006, 0xFF⟩, ⟨0x2007, 0xFF⟩] }
theorem witness_coll (h : Obligations.CollectivesRun) : Runs (.coll p (d 3) (a 4)) (oneMember base) ∧ Runs (.coll p (d 3) (a 4)) (put 3072 64 32 base) ∧
    Runs (.coll p (d 3) (a 4)) { oneMember base with badMem := [localKey 0 0x20] } :=
  ⟨runs (h.1 _ _ _) (by unfold collOk; decide +kernel), stops (h.2.2.1 _ _ _) (by decide +kernel), runs (h.2.1 _ _ _ Cause.memEcc 0x20) (by decide +kernel)⟩
/-- A thread with collective 1 in a state. -/
def withColl (st : Option W64) : State := put 3072 32 1 (base.modMe fun th => { th with collNum := 2, colls := [⟨1, 8, st⟩] })
theorem witness_collw (h : Obligations.CollectivesRun) : Runs (.collw pt (d 4) (a 3)) (withColl (some 3)) ∧ Runs (.collw pt (d 4) (a 3)) (withColl none) ∧
    Runs (.collw pt (d 4) (a 3)) base :=
  ⟨runs (h.2.2.2.1 _ _ _ ⟨1, 8, some 3⟩ 3) (by decide +kernel), stops (h.2.2.2.2.1 _ _ _ ⟨1, 8, none⟩) (by decide +kernel), stops (h.2.2.2.2.2.1 _ _ _) (by decide +kernel)⟩
theorem witness_twait (h : Obligations.CollectivesRun) : Runs (.twait p (d 4) (a 4)) base ∧ Runs (.twait p (d 4) (a 4)) (put 3072 64 1 base) ∧
    Runs (.twait p (d 4) (a 4)) (mode .handler 0 base) :=
  ⟨runs (h.2.2.2.2.2.2.1 _ _ _) (by decide +kernel), stops (h.2.2.2.2.2.2.2.1 _ _ _) (by decide +kernel), stops (h.2.2.2.2.2.2.2.2.1 _ _ _) (by decide +kernel)⟩
/-- A collective of two members of this wafer, at its second step. -/
def two : Coll where
  id := 8
  src := ⟨0, 0, 0, 0⟩
  num := 1
  blkAddr := 0
  block := (List.range 256).map fun j => if j = 8 then 1 else if j = 0x1A then 1 else if j = 0x20 then 1 else if j = 0x6C then 1 else 0
  memb := List.replicate 8 0 ++ [1, 0, 0, 0, 0, 0, 0, 0]
  tree := []
  rank := 0
  hash := List.replicate 32 0
  pc := 0
  lvl := 0
  after := []
  step := 1
  sent := [[]]
  got := []
  nlate := 0
  nskew := 0
  skewed := []
  drawn := []
  heard := 0
  fill := none
  ioErr := false
  err := none
  done := false
/-- A machine with it, 1 ms after its step was sent. -/
def colls (x : Coll) : State := { base with colls := [x], now := 1000 }
/-- The second member on another wafer; the source from the outbound queue; no step sent yet. -/
def far : Coll := { two with memb := List.replicate 12 0 ++ [9, 0, 0, 0] }
/-- It takes its source from the outbound queue. -/
def drawing : Coll := { two with block := two.block.set 0x1B 8, step := 0, sent := [] }
/-- No step is sent yet. -/
def fresh2 : Coll := { two with step := 0, sent := [] }
/-- All link ports are ready. -/
def linked (s : State) : State := { s with ready := { s.ready with link := -1, edge := -1 } }
theorem far_port (s : State) (h : s.wafer = 0) : far.ports s = [Config.linkPortOf 0 9 % 16] := by
  rw [Coll.ports, show far.peers = [1] by decide +kernel]
  simp [Coll.here, h, show Exch.waferOf far.memb 1 = 9 by decide +kernel, show Exch.campusOf far.memb 1 = 0 by decide +kernel]
theorem witness_step (h : Obligations.CollectivesRun) :
    Runs (.collStepStart 8) (colls far) ∧ Runs (.collStepStart 8) (linked (colls far)) ∧ Runs (.collStepStart 8) (colls two) ∧
    Runs (.collStepStart 8) (colls drawing) ∧ Runs (.collStepStart 8) (colls fresh2) ∧ Runs (.collStepStart 8) (colls { fresh2 with err := some 1 }) := by
  have nop : ∀ (x : Coll) (s : State), x.ports s = [] → ∀ q ∈ x.ports s, s.linkReady q = true ∧ pressReady s q = true := by
    intro x s e q hq; rw [e] at hq; cases hq
  have nolink : ∀ q, (colls far).linkReady q = false := by
    intro q
    have e : (colls far).ready.link = 0 := by decide +kernel
    simp [State.linkReady, e]
  have all : ∀ q, q < 16 → (linked (colls far)).linkReady q = true ∧ pressReady (linked (colls far)) q = false := by decide +kernel
  refine ⟨⟨_, (h.2.2.2.2.2.2.2.2.2.1 (colls far) far 0 0 (by decide +kernel) rfl rfl (by decide) (by decide +kernel) (by decide +kernel) (by decide +kernel)
      (.inl (by decide +kernel))).1 ⟨_, by rw [far_port _ (by decide +kernel)]; exact .head _, nolink _⟩⟩,
    ⟨_, (h.2.2.2.2.2.2.2.2.2.1 (linked (colls far)) far 0 0 (by decide +kernel) rfl rfl (by decide) (by decide +kernel) (by decide +kernel) (by decide +kernel)
      (.inl (by decide +kernel))).2.1 ?_ ⟨_, by rw [far_port _ (by decide +kernel)]; exact .head _, (all _ (Nat.mod_lt _ (by decide))).2⟩⟩,
    ⟨_, ((h.2.2.2.2.2.2.2.2.2.1 (colls two) two 0 0 (by decide +kernel) rfl rfl (by decide) (by decide +kernel) (by decide +kernel) (by decide +kernel)
      (.inl (by decide +kernel))).2.2 (nop _ _ (by decide +kernel))).1 (by decide)⟩,
    ⟨_, ((h.2.2.2.2.2.2.2.2.2.1 (colls drawing) drawing 0 0 (by decide +kernel) rfl rfl (by decide) (by decide +kernel) (by decide +kernel) (by decide +kernel)
      (.inl (by decide +kernel))).2.2 (nop _ _ (by decide +kernel))).2.1 rfl (by decide +kernel)⟩,
    ⟨_, ((h.2.2.2.2.2.2.2.2.2.1 (colls fresh2) fresh2 0 0 (by decide +kernel) rfl rfl (by decide) (by decide +kernel) (by decide +kernel) (by decide +kernel)
      (.inl (by decide +kernel))).2.2 (nop _ _ (by decide +kernel))).2.2 rfl (by decide +kernel) (by decide +kernel)⟩,
    ⟨_, h.2.2.2.2.2.2.2.2.2.2.1 (colls { fresh2 with err := some 1 }) { fresh2 with err := some 1 } 0 0 (by decide +kernel) rfl rfl rfl (by decide +kernel) (by decide +kernel)
      (by decide +kernel) (.inl (by decide +kernel))⟩⟩
  intro q hq
  rw [far_port _ (by decide +kernel)] at hq
  cases hq with
  | head => exact (all _ (Nat.mod_lt _ (by decide))).1
  | tail _ h => cases h
/-- Both members' data are there. -/
def gathered : Coll := { two with sent := [[], []], got := [(1, 1, [])] }
theorem witness_packets (h : Obligations.CollectivesRun) :
    Runs (.collStepArrival 8 1 (List.replicate 44 1)) (colls two) ∧
    Runs (.collStepArrival 8 1 (List.replicate 44 0)) (colls two) ∧ Runs (.collMemberTimeout 8) (colls { two with sent := [[], []] }) ∧
    Runs (.collComplete 8) (colls { two with err := some 1 }) ∧ Runs (.collComplete 8) (colls gathered) :=
  ⟨⟨_, (h.2.2.2.2.2.2.2.2.2.2.2.1 (colls two) two 1 (List.replicate 44 1) (by decide +kernel) rfl rfl (by decide +kernel) (by decide) (by decide)).1 (by decide)⟩,
   ⟨_, (h.2.2.2.2.2.2.2.2.2.2.2.1 (colls two) two 1 (List.replicate 44 0) (by decide +kernel) rfl rfl (by decide +kernel) (by decide) (by decide)).2 (by decide)⟩,
   let ⟨u, hu, _⟩ := h.2.2.2.2.2.2.2.2.2.2.2.2.1 (colls { two with sent := [[], []] }) { two with sent := [[], []] } (by decide +kernel) rfl rfl (by decide)
     (by decide +kernel) (by decide +kernel) (by decide +kernel); ⟨u, hu⟩,
   ⟨_, (h.2.2.2.2.2.2.2.2.2.2.2.2.2.2.2.1 (colls { two with err := some 1 }) { two with err := some 1 } 0 0 1 (by decide +kernel) rfl rfl (by decide) (by decide +kernel)
     (by decide +kernel)).1⟩,
   ⟨_, h.2.2.2.2.2.2.2.2.2.2.2.2.2.2.2.2.1 (colls gathered) gathered 0 0 (by decide +kernel) rfl rfl (by decide +kernel) (by decide) (by decide +kernel) (by decide +kernel)
     (by decide +kernel) (by decide +kernel) (by decide +kernel)⟩⟩
theorem witness_twait_ends (h : Obligations.CollectivesRun) : Runs (.waferTimeReachesTarget 0 0) (base.modMe fun th => { th with wait := some ⟨10, 0, 0, 0⟩ }) :=
  let ⟨u, hu, _⟩ := h.2.2.2.2.2.2.2.2.2.2.2.2.2.2.2.2.2.2.2 (base.modMe fun th => { th with wait := some ⟨10, 0, 0, 0⟩ }) 0 0 ⟨10, 0, 0, 0⟩ (by decide +kernel) (by decide +kernel) rfl
  ⟨u, hu⟩
theorem witness_status (h : Obligations.CollectivesRun) : Applies (h.2.2.2.2.2.2.2.2.2.2.2.2.2.2.2.2.2.1 two 4 (by decide) (by decide) (by decide)) ∧
    Applies (h.2.2.2.2.2.2.2.2.2.2.2.2.2.2.2.2.2.2.1 (base.modMe fun th => { th with colls := [⟨1, 8, none⟩] }) two 0 0 0 _ (by decide +kernel) (by decide +kernel) rfl) := ⟨trivial, trivial⟩

/-- The last join record a thread may hold, the last depth and the last child it may spawn; one more; a full task queue. -/
def atLimit (k n m : Nat) : State := base.modMe fun th => { th with depth := k, spawns := n, joins := List.replicate m ⟨0, none, []⟩ }
/-- A waiting task. -/
def task1 : TaskDesc := ⟨3, 5, 64, 0, 0, 1, 0, 0, (⟨0, 0, 0, 0⟩, 0)⟩
theorem witness_spawn (h : Obligations.TasksRun) : Runs (.spawn p (d 3) (a 3) (b 7)) (atLimit 254 (2 ^ 24 - 1) 255) ∧
    Runs (.spawn p (d 3) (a 3) (b 7)) (atLimit 255 0 0) ∧ Runs (.spawn p (d 3) (a 3) (b 7)) (base.modMyCore fun k => { k with taskq := List.replicate 64 task1, threads := k.threads.map fun th => { th with kind := .root } }) :=
  ⟨runs (h.1 _ _ _ _) (by unfold withinLimits hasPlace; decide +kernel), stops (h.2.1 _ _ _ _) (by unfold withinLimits; decide +kernel),
   stops (h.2.2.1 _ _ _ _) (by unfold withinLimits hasPlace; decide +kernel)⟩
/-- Two children spawned, the second with a result or none. -/
def spawned (r : Option W64) : State := base.modMe fun th => { th with spawns := 2, joins := [⟨0, some 1, []⟩, ⟨1, r, []⟩] }
theorem witness_join (h : Obligations.TasksRun) : Runs (.join p (d 4) (a 3) 0x501) (spawned (some 2)) ∧ Runs (.join p (d 4) (a 3) 0xFF) (spawned none) ∧
    Runs (.join p (d 4) (a 3) 1) (spawned none) :=
  ⟨runs (h.2.2.2.1 _ _ _ _) (by unfold allSpawned; decide +kernel), stops (h.2.2.2.2.1 _ _ _ _) (by unfold allSpawned; decide +kernel),
   stops (h.2.2.2.2.2.1 _ _ _ _) (by unfold allSpawned; decide +kernel)⟩
theorem witness_taskid (h : Obligations.TasksRun) : Runs (.taskid p (d 3) 4) base ∧ Runs (.taskid p (d 3) 5) base :=
  ⟨runs (h.2.2.2.2.2.2.1 _ _ _ 0) (by decide +kernel), stops (h.2.2.2.2.2.2.2.1 _ _ _) (by decide +kernel)⟩
theorem witness_exit (h : Obligations.TasksRun) : Runs (.exit p) base ∧ Runs (.exit p) (handling base) ∧ Runs (.exit p) (landing l64 base) :=
  ⟨runs (h.2.2.2.2.2.2.2.2.1 _) (by decide +kernel), stops (h.2.2.2.2.2.2.2.2.2.2.2.1 _) (by decide +kernel), stops (h.2.2.2.2.2.2.2.2.2.2.2.2.1 _) (by decide +kernel)⟩
/-- A task waits, and slot 1 is free. -/
def tasked : State := base.modMyCore fun k => { k with taskq := [task1] }
theorem witness_task (h : Obligations.TasksRun) : Runs (.taskQueueStart 0) tasked ∧
    Applies ((h.2.2.2.2.2.2.2.2.2.1 base 0 task1).1 (by decide +kernel) (by decide +kernel) 1 (by decide +kernel)) ∧ Applies ((h.2.2.2.2.2.2.2.2.2.1 tasked 0 task1).2 (.inl (by decide +kernel))) ∧
    Applies (h.2.2.2.2.2.2.2.2.2.2.1 ({ base.me with joins := [⟨0, none, []⟩] }) 0 0 5 [] ⟨0, none, []⟩ (by decide +kernel) rfl rfl) :=
  let ⟨u, hu, _⟩ := h.2.2.2.2.2.2.2.2.2.2.2.2.2.1 tasked 0 1 task1 [] (by decide +kernel) (by decide +kernel) (by decide +kernel) (by decide +kernel) (by decide +kernel) (by decide +kernel)
  ⟨⟨u, hu⟩, trivial, trivial, trivial⟩

/-- A BAR that has arrived at generation 0 of barrier 1, now at another generation. -/
def arrivedAt (g : W32) : State :=
  let s := base.modMe fun th => { th with loops := { LoopBank.empty with bar := some (1, 0, base.me.pc) } }
  { s with launches := [{ loadLaunch 0 with bunches := [{ loadBunch with barriers := List.replicate 16 ⟨g, 0, 0, [], [], []⟩ }] }] }
/-- It has ended. -/
def arrived : State := arrivedAt 1
/-- A root thread that has arrived at barrier 0. -/
def here : State :=
  { base with launches := [{ loadLaunch 0 with bunches := [{ loadBunch with barriers := List.replicate 16 ⟨0, 0, 1, [(0, 0)], [], []⟩ }] }] }
/-- A of 4,096, of 4,097, and of 1. -/
theorem witness_arrive (h : Obligations.BarriersRun) : Runs (.arrive p (d 3) (a 3) 15) (put 3072 32 4096 base) ∧ Runs (.arrive p (d 3) .zero 0) base ∧
    Runs (.arrive p (d 3) (a 3) 15) (put 3072 32 4097 base) ∧ Runs (.arrive p (d 3) .zero 0) (base.modMe fun th => { th with kind := .task }) ∧
    Runs (.arrive p (d 3) .zero 0) here :=
  ⟨runs (h.1 _ _ _ _) (by unfold mayArrive; decide +kernel), runs (h.1 _ _ _ _) (by unfold mayArrive; decide +kernel), stops (h.2.1 _ _ _ _) (by unfold mayArrive; decide +kernel),
   stops (h.2.2.1 _ _ _ _) (by decide +kernel), stops (h.2.2.2.1 _ _ _ _) (by unfold mayArrive; decide +kernel)⟩
/-- A thread without a mark has not arrived. -/
theorem not_arrived {x : Ctx} (h : x.th.loops.bar = none) : notArrived x := by
  intro g e; rw [arrivedIn, h] at e; cases e
theorem witness_bar (h : Obligations.BarriersRun) : Runs (.bar p (d 3) (a 3) 1) (put 3072 32 1 base) ∧ Runs (.bar p (d 3) (a 3) 1) (put 3072 32 2 base) ∧
    Runs (.bar p (d 3) (a 3) 1) arrived ∧ Runs (.bar p (d 3) (a 3) 1) (arrivedAt 0) ∧ Runs (.bar p (d 3) (a 3) 1) (mode .handler 0 base) ∧
    Runs (.bar p (d 3) (a 3) 1) (put 3072 32 4097 base) ∧ Runs (.bar p (d 3) .zero 0) (mode .handler 0 (base.modMe fun th => { th with kind := .handler })) ∧
    Runs (.bar p (d 3) .zero 0) here :=
  ⟨runs (h.2.2.2.2.1 _ _ _ _) ⟨by unfold mayWaitAt; decide +kernel, not_arrived (by decide +kernel), by unfold mayArrive; decide +kernel, by unfold lastArrival; decide +kernel⟩,
   stops (h.2.2.2.2.2.1 _ _ _ _) ⟨by unfold mayWaitAt; decide +kernel, not_arrived (by decide +kernel), by unfold mayArrive; decide +kernel, by unfold lastArrival; decide +kernel⟩,
   runs (h.2.2.2.2.2.2.1 _ _ _ _ 0) (by unfold mayWaitAt arrivedIn; decide +kernel), stops (h.2.2.2.2.2.2.2.1 _ _ _ _ 0) (by unfold mayWaitAt arrivedIn; decide +kernel), stops (h.2.2.2.2.2.2.2.2.1 _ _ _ _) (by unfold mayWaitAt; decide +kernel),
   stops (h.2.2.2.2.2.2.2.2.2.1 _ _ _ _) ⟨by unfold mayWaitAt; decide +kernel, not_arrived (by decide +kernel), by decide +kernel, by unfold mayArrive; decide +kernel⟩,
   stops (h.2.2.2.2.2.2.2.2.2.2.1 _ _ _ _) ⟨not_arrived (by decide +kernel), by decide +kernel, by decide +kernel⟩,
   stops (h.2.2.2.2.2.2.2.2.2.2.2.1 _ _ _ _) ⟨not_arrived (by decide +kernel), by decide +kernel, by decide +kernel, by unfold mayArrive; decide +kernel⟩⟩
theorem witness_waitb (h : Obligations.BarriersRun) : Runs (.waitb p (a 3) 1) arrived ∧ Runs (.waitb p (a 3) 1) base ∧ Runs (.waitb p (a 3) 1) (mode .handler 0 base) ∧
    Applies (h.2.2.2.2.2.2.2.2.2.2.2.2.2.2.2.2.1 arrived 0 0 1 2 (by decide) (by decide) ⟨{ loadBunch with barriers := List.replicate 16 ⟨1, 0, 0, [], [], []⟩ }, by decide +kernel, by decide +kernel⟩) :=
  ⟨runs (h.2.2.2.2.2.2.2.2.2.2.2.2.1 _ _ _) (by unfold mayWaitAt Stated.passed; decide +kernel), stops (h.2.2.2.2.2.2.2.2.2.2.2.2.2.1 _ _ _) (by unfold mayWaitAt Stated.passed; decide +kernel), stops (h.2.2.2.2.2.2.2.2.2.2.2.2.2.2.1 _ _ _) (by unfold mayWaitAt; decide +kernel), trivial⟩


/-! ## Witnesses: launches -/

/-- A word of edge port 0's DRAM. -/
def poke (a v : Nat) (s : State) : State := { s with mem := Mem.writeN s.mem (edgeKey 0 a) (toBytes v 8) }
/-- All is ready, every engine and thread has every right at port 0 and at the launch block, and a page of 1 GiB at address 0
of ASID 0 stands at 0 in port 0's DRAM of 1 GiB. -/
def opened (s : State) : State :=
  poke 0x20000 0x10001 (poke 0x10000 0x30080 (poke 0x30000 0xEF
    { s with
      ready := ⟨0xFFFFFFFFFFFF, 0xFFFFFFFFFFFFFFFF, true, 0xF, 0xFFFF, 0xFFFF⟩
      edges := s.edges.set 0 { EdgePort.reset with rtab := 0x20001, size := 2 ^ 30 }
      tables := [(0, 0x9000FFFC0000001F), (1, 0x8000FFFC0000001F), (97 * 64, 0x9000FFFC0000001F), (97 * 64 + 1, 0x8000FFFC0000001F),
        (97 * 64 + 2, 0xA000FFFC0000001F)] }))
/-- A master's write of a value at an offset. -/
def write (m : Master) (off v : Nat) (s : State) : State := { s with bus := ⟨m, off, 8, v⟩ }
theorem witness_launch (h : Obligations.LaunchesEnter) : Runs (.launch p (d 3) (a 4)) base ∧
    Runs (.launch p (d 3) (a 4)) (base.modMe fun th => { th with credits := 0 }) ∧
    Runs (.launch p (d 3) (a 4)) { base with badMem := [localKey 0 0x20] } :=
  ⟨runs (h.1 _ _ _) (by decide +kernel), stops (h.2.2.1 _ _ _) (by decide +kernel), runs (h.2.1 _ _ _ Cause.memEcc 0x20) (by decide +kernel)⟩
/-- Registers of queue 15, written by a host port. -/
theorem witness_queue_writes (h : Obligations.LaunchesEnter) :
    Runs .lqTailWrite (write (.host 3) 0x103C8 64 (opened base)) ∧ Runs .lqHeadWrite (write (.host 3) 0x103C0 64 (opened base)) ∧
    Runs .lqEnable (write (.host 3) 0x103D0 3 (opened base)) ∧ Runs .lqDisable (write (.host 3) 0x103D0 0 (opened base)) ∧
    Runs .lqCrdWrite (write (.host 3) 0x103F8 1 (opened base)) :=
  ⟨let ⟨u, hu, _⟩ := h.2.2.2.1 (write (.host 3) 0x103C8 64 (opened base)) (by decide +kernel) (by decide +kernel); ⟨u, hu⟩,
   let ⟨u, hu, _⟩ := h.2.2.2.2.1 (write (.host 3) 0x103C0 64 (opened base)) (by decide +kernel) (by decide +kernel); ⟨u, hu⟩,
   let ⟨u, hu, _⟩ := h.2.2.2.2.2.1 (write (.host 3) 0x103D0 3 (opened base)) (by decide +kernel) (by decide +kernel); ⟨u, hu⟩,
   let ⟨u, hu, _⟩ := h.2.2.2.2.2.2.1 (write (.host 3) 0x103D0 0 (opened base)) (by decide +kernel) (by decide +kernel) (by decide +kernel); ⟨u, hu⟩,
   let ⟨u, hu, _⟩ := h.2.2.2.2.2.2.2.1 (write (.host 3) 0x103F8 1 (opened base)) (by decide +kernel) (by decide +kernel); ⟨u, hu⟩⟩
/-- Queue 0 enabled, its head at an address, consumed or not. -/
def queue (head tail : W64) (cons : Bool) : State :=
  { opened base with lqs := [{ LQueue.reset with en := true, head := head, tail := tail, cons := cons, issuer := some 0 }] }
/-- A descriptor at 0x1000 of port 0's DRAM: one core of the wafer, one root thread. -/
def described (s : State) : State :=
  poke 0x1018 98300 (poke 0x1020 0x048F8000 (poke 0x1028 0x100000001 s))
theorem witness_descriptor (h : Obligations.LaunchesEnter) :
    Runs (.descriptorRead 0) (queue 64 64 true) ∧ Runs (.descriptorRead 0) (queue 0x2000 64 true) ∧ Runs (.descriptorRead 0) (queue 1 64 false) ∧
    Runs (.descriptorRead 0) (described (queue 0x1000 64 false)) ∧ Runs (.descriptorRead 0) (queue 0x2000 64 false) :=
  ⟨⟨_, (h.2.2.2.2.2.2.2.2 (queue 64 64 true) 0 (by decide +kernel) (by decide +kernel)).1 (by decide +kernel) (by decide +kernel)⟩,
   ⟨_, (h.2.2.2.2.2.2.2.2 (queue 0x2000 64 true) 0 (by decide +kernel) (by decide +kernel)).2.1 (by decide +kernel) (by decide +kernel) (by decide +kernel)⟩,
   ⟨_, (h.2.2.2.2.2.2.2.2 (queue 1 64 false) 0 (by decide +kernel) (by decide +kernel)).2.2.1 (by decide +kernel) (by decide +kernel)⟩,
   ⟨_, ((h.2.2.2.2.2.2.2.2 (described (queue 0x1000 64 false)) 0 (by decide +kernel) (by decide +kernel)).2.2.2 _ (by decide +kernel) (by decide +kernel)
      (Option.some_get (by decide +kernel)).symm).1 (by decide +kernel)⟩,
   ⟨_, ((h.2.2.2.2.2.2.2.2 (queue 0x2000 64 false) 0 (by decide +kernel) (by decide +kernel)).2.2.2 _ (by decide +kernel) (by decide +kernel)
      (Option.some_get (by decide +kernel)).symm).2 (by decide +kernel)⟩⟩


/-- A machine with one launch, its threads stopped or not, on core 0 or not placed. -/
def launched (x : Launch) (run : Bool) : State :=
  { opened base with launches := [x], cores := [(0, { loadCore 0 with threads := (loadCore 0).threads.map fun th => { th with running := run && th.running } })] }
/-- A launch with its one bunch to be placed. -/
def unplaced : Launch := { launchOf 0x048F8000 0x100000001 0 with bunches := [] }
theorem witness_place (h : Obligations.LaunchesRun) :
    Applies ((h.1 { launched unplaced true with cores := [] } unplaced (by decide +kernel) rfl (by decide +kernel) (by decide)).1 [(0, 0)] (by decide +kernel)) ∧
    Applies ((h.1 (launched unplaced true) unplaced (by decide +kernel) rfl (by decide +kernel) (by decide)).2 (by decide +kernel)) := ⟨trivial, trivial⟩
/-- The last column of the mesh. -/
theorem witness_placed (h : Obligations.LaunchesRun) :
    Applies (h.2.1 base (loadLaunch 0) 0 383 0 0 (by decide +kernel) (by decide +kernel) (by decide +kernel) _ rfl) := trivial
/-- The first of two rounds, and the last of two. -/
def round2 (k : Nat) : Launch := { launchOf 0x048F8000 0x200000001 0 with round := k + 1, roundsDone := k }
theorem witness_round (h : Obligations.LaunchesRun) :
    Runs (.roundEnd 0) (launched (round2 0) false) ∧ Runs (.roundEnd 0) (launched (round2 1) false) :=
  ⟨⟨_, h.2.2.1 (launched (round2 0) false) (round2 0) (by unfold roundMayEnd; decide +kernel) (by decide +kernel) (by
      have : (seqRuns (launched (round2 0) false) sequencer (round2 0).desc.asid 1 false (((round2 0).desc.args + 80 * ((round2 0).round - 1)) % 2 ^ 64) 80).find?
        (fun r => !r.2.2.2.ok) = none := by decide +kernel
      rw [seqTest, if_neg (by decide +kernel), this])⟩,
   ⟨_, h.2.2.2.1 (launched (round2 1) false) (round2 1) (by unfold roundMayEnd; decide +kernel) (by decide +kernel)⟩⟩
/-- A launch whose rounds are done. -/
def finished (st : BunchState) : Launch := { launchOf 0x048F8000 0x100000001 0 with roundsDone := 1, bunches := [{ loadBunch with state := st }] }
theorem witness_retire (h : Obligations.LaunchesRun) : Runs (.bunchRetire 0 0) (launched (finished .placed) false) ∧
    Runs (.launchComplete 0) (launched (finished .retired) false) :=
  ⟨let ⟨u, hu, _⟩ := h.2.2.2.2.2.1 (launched (finished .placed) false) (finished .placed) { loadBunch with state := .placed } (by decide +kernel)
     (by decide +kernel) rfl (by decide +kernel) (by decide +kernel) (by decide +kernel); ⟨u, hu⟩,
   let ⟨u, hu, _⟩ := h.2.2.2.2.2.2.1 (launched (finished .retired) false) (finished .retired) (by decide +kernel)
     rfl rfl rfl (by decide +kernel) (by decide +kernel) (by decide +kernel) (by decide +kernel); ⟨u, hu⟩⟩
/-- A launch with a Fatal cause, without a ring of notices and with one. -/
def fataled (tn : W64) : State :=
  let s := launched { loadLaunch 0 with fatal := some (⟨Cause.memEcc, 0, 0, 0, false, false, 0⟩, 0, 0, 0) } true
  { s with pre := { s.pre with tnBase := tn } }
theorem witness_fatal (h : Obligations.LaunchesRun) : Runs (.launchComplete 0) (fataled 0) ∧ Runs (.launchComplete 0) (fataled 0x1000) ∧
    Applies (h.2.2.2.2.2.2.2.1 (launched (loadLaunch 0) true) (loadLaunch 0) 0 0 0 ⟨Cause.memEcc, 0, 0, 0, false, false, 0⟩ (by decide +kernel)) ∧
    Applies (h.2.2.2.2.2.2.2.2.2.1 (launched (loadLaunch 0) true) (loadLaunch 0) (by decide +kernel)) ∧
    Applies (h.2.2.2.2.2.2.2.2.2.2.1 (launched (loadLaunch 0) true) (loadLaunch 0) (by decide +kernel)) :=
  ⟨⟨_, (h.2.2.2.2.2.2.2.2.1 (fataled 0) { loadLaunch 0 with fatal := some (⟨Cause.memEcc, 0, 0, 0, false, false, 0⟩, 0, 0, 0) } 0 0 0 _ (by decide +kernel) rfl rfl).1 (by decide +kernel)⟩,
   ⟨_, (h.2.2.2.2.2.2.2.2.1 (fataled 0x1000) { loadLaunch 0 with fatal := some (⟨Cause.memEcc, 0, 0, 0, false, false, 0⟩, 0, 0, 0) } 0 0 0 _ (by decide +kernel) rfl rfl).2 (by decide +kernel)⟩,
   trivial, trivial, trivial⟩
/-- A queue whose ring of one record is at an address, its last place taken or free. -/
def recordRing (a wr : Nat) : State :=
  { opened base with lqs := [{ LQueue.reset with en := true, cbase := BitVec.ofNat 64 a, cwr := BitVec.ofNat 32 wr }] }
theorem witness_record (h : Obligations.LaunchesRun) :
    Applies ((h.2.2.2.2.2.2.2.2.2.2.2.1 (recordRing 0x2000 0) (loadLaunch 0) 0 none 1 0 0 rfl (by decide +kernel) (by decide +kernel)).2.2 (by decide +kernel) (by decide +kernel)).1 ∧
    Applies (((h.2.2.2.2.2.2.2.2.2.2.2.1 (recordRing (2 ^ 62) 0) (loadLaunch 0) 0 none 1 0 0 rfl (by decide +kernel) (by decide +kernel)).2.2 (by decide +kernel) (by decide +kernel)).2 (by decide +kernel)) ∧
    Applies ((h.2.2.2.2.2.2.2.2.2.2.2.1 (recordRing 0x2000 1) (loadLaunch 0) 0 none 1 0 0 rfl (by decide +kernel) (by decide +kernel)).2.1 (.inl (by decide +kernel))) :=
  ⟨trivial, trivial, trivial⟩
theorem ready_of {s : State} {x : Launch} {what need va n : Nat} {m : Master} {wr : Bool} (h : what ∉ x.badFills)
    (k : (seqRuns s m x.desc.asid need wr va n).find? (fun r => !r.2.2.2.ok) = none) : seqTest s x what m need wr va n = .ready := by
  rw [seqTest, if_neg h, k]
theorem fails_of {r : SeqTest} (h : (match r with | .fails => true | _ => false) = true) : r = .fails := by cases r <;> simp_all
theorem failing {A B : Type} {r : Except A B} (h : (match r with | .error _ => true | .ok _ => false) = true) : ∃ e, r = .error e := by
  cases r with
  | error e => exact ⟨e, rfl⟩
  | ok _ => cases h
/-- The launch after 2^16 quiet cycles, and a thread of it that waits, its report on a page of NVMe. -/
def quietOne : Launch := { loadLaunch 0 with quiet := 2 ^ 16 }
/-- The machine with it. -/
def stuck : State := poke 0x30000 (0xAF + 2 ^ 61) { (opened base).modMe (fun th => { th with wait := some ⟨1, 2, 0, 0⟩ }) with launches := [quietOne] }
theorem witness_deadlock (h : Obligations.LaunchesRun) : Runs (.deadlockReport 0) (launched quietOne true) ∧ Runs (.deadlockReport 0) stuck ∧
    Runs (.deadlockReport 0) (launched { quietOne with report := some ⟨0, [], false, 0⟩ } true) ∧
    Applies ((h.2.2.2.2.2.2.2.2.2.2.2.2.2.2 quietOne 0 (List.replicate 16 0) [] false false (launched quietOne true)).1 (ready_of (by decide +kernel) (by decide +kernel))) ∧
    Applies ((h.2.2.2.2.2.2.2.2.2.2.2.2.2.2 quietOne 0 (List.replicate 16 0) [] false false { launched quietOne true with tables := [] }).2 (fails_of (by decide +kernel))) := by
  refine ⟨?_, ?_, ⟨_, h.2.2.2.2.2.2.2.2.2.2.2.2.2.1 (launched { quietOne with report := some ⟨0, [], false, 0⟩ } true) { quietOne with report := some ⟨0, [], false, 0⟩ } ⟨0, [], false, 0⟩
    (by decide +kernel) rfl rfl (by decide)⟩, trivial, trivial⟩
  · have e : (reportEntries (launched quietOne true) quietOne).take (2 ^ 20) = [] := by decide +kernel
    obtain ⟨u, hu, _⟩ := (h.2.2.2.2.2.2.2.2.2.2.2.2.1 (launched quietOne true) quietOne (by decide +kernel) rfl rfl (by decide +kernel) (by decide +kernel)).1 false _ (by rw [e]; rfl)
    exact ⟨u, hu⟩
  · obtain ⟨⟨⟨j, rest, lost⟩, w, s1⟩, he⟩ := failing (r := putEntries quietOne 0 ((reportEntries stuck quietOne).take (2 ^ 20)) false
      (decide (4 ∈ quietOne.badFills)) stuck) (by decide +kernel)
    obtain ⟨u, hu, _⟩ := (h.2.2.2.2.2.2.2.2.2.2.2.2.1 stuck quietOne (by decide +kernel) rfl rfl (by decide +kernel) (by decide +kernel)).2 j rest lost w s1 he
    exact ⟨u, hu⟩


/-! ## Witnesses: halts, accesses, storage -/

theorem area_of {s : State} {x : Launch} {what b : Nat} {wr : Bool} (h : what ∉ x.badFills)
    (k : ∀ i ∈ List.range (x.desc.w * x.desc.h), (seqRuns s saver x.desc.asid 2 wr (saveAddr x.desc b i) areaSize).find? (fun r => !r.2.2.2.ok) = none) :
    areaTest s x what b wr = none := by
  rw [areaTest, List.findSome?_eq_none_iff]
  intro i hi
  rw [ready_of h (k i hi)]
/-- A write of the pre-emption control register by host port 0: an operation on every bunch. -/
def control (op : Nat) (s : State) : State := write (.host 0) 0x10808 (op * 2 ^ 32 + 0xFFFFFFFF) s
/-- Its requests while one is under way, and with no launch of the id asked for. -/
theorem witness_control (h : Obligations.HaltsAndSwaps) :
    Runs .preCtlPreempt (control 0 { opened base with pre := { base.pre with busy := true } }) ∧
    Runs .preCtlArmWatchdog (control 3 { opened base with pre := { base.pre with lid := 1 } }) ∧
    Runs .preCtlPreempt (control 0 (opened base)) ∧ Runs .preCtlRelease (control 1 (opened base)) ∧ Runs .preCtlAbort (control 2 (opened base)) ∧
    Runs .preCtlArmWatchdog (control 3 (opened base)) :=
  ⟨⟨_, (h.1 (control 0 { opened base with pre := { base.pre with busy := true } }) .preCtlPreempt (by decide) (by decide +kernel)).1 (by decide +kernel)⟩,
   let ⟨u, hu, _⟩ := (h.1 (control 3 { opened base with pre := { base.pre with lid := 1 } }) .preCtlArmWatchdog (by decide) (by decide +kernel)).2
     (by decide +kernel) (by decide +kernel); ⟨u, hu⟩,
   let ⟨u, hu, _⟩ := h.2.1 (control 0 (opened base)) (by unfold requested; decide +kernel); ⟨u, hu⟩,
   let ⟨u, hu, _⟩ := h.2.2.1 (control 1 (opened base)) (by unfold requested; decide +kernel); ⟨u, hu⟩,
   let ⟨u, hu, _⟩ := h.2.2.2.1 (control 2 (opened base)) (by unfold requested; decide +kernel); ⟨u, hu⟩,
   let ⟨u, hu, _⟩ := h.2.2.2.2.1 (control 3 (opened base)) (by unfold requested; decide +kernel); ⟨u, hu⟩⟩
/-- The loaded bunch, changed, its core stopped or not. -/
def bunched (y : Bunch) (stop : Bool) : State :=
  { opened base with launches := [{ loadLaunch 0 with bunches := [y] }], cores := [(0, { loadCore 0 with stopped := stop })], now := 9000 }
theorem witness_halt (h : Obligations.HaltsAndSwaps) :
    Runs (.watchdogExpiry 0 0 9000) (bunched { loadBunch with watch := some 9000 } false) ∧ Runs (.bunchHalt 0) (bunched { loadBunch with haltAsk := true } false) :=
  ⟨let ⟨u, hu, _⟩ := h.2.2.2.2.2.1 (bunched { loadBunch with watch := some 9000 } false) 0 0 9000 _ rfl rfl (by decide +kernel) (by decide +kernel); ⟨u, hu⟩,
   let ⟨u, hu, _⟩ := h.2.2.2.2.2.2.2.2.2.2.1 (bunched { loadBunch with haltAsk := true } false) 0 ⟨0, 0, 0⟩ _ (by decide +kernel) rfl rfl (by decide +kernel); ⟨u, hu⟩⟩
theorem witness_watched (h : Obligations.HaltsAndSwaps) : Applies (h.2.2.2.2.2.2.1 base 5 0 7 (by decide +kernel)) ∧
    Applies (h.2.2.2.2.2.2.2.2.1 5 base.me (by decide +kernel)) ∧ Applies (h.2.2.2.2.2.2.2.2.2.1 5 Thread.reset (by decide +kernel)) := ⟨trivial, trivial, trivial⟩
/-- A bunch that is halting, and one that is saved. -/
def halting : Bunch := { loadBunch with state := .halting, haltAsk := true, haltAt := 7000 }
/-- The bunch saved. -/
def savedBunch : Bunch := { loadBunch with state := .saved, saved := [⟨loadCore 0, 0, [], []⟩] }
/-- The machine that holds it. -/
def out : State := { bunched savedBunch false with cores := [] }
theorem witness_halted (h : Obligations.HaltsAndSwaps) : Runs (.orphanTimeout 0 0) (bunched halting true) :=
  let ⟨u, hu, _⟩ := h.2.2.2.2.2.2.2.2.2.2.2.1 (bunched halting true) { loadLaunch 0 with bunches := [halting] } halting
    ⟨by unfold isBunch; decide +kernel, by decide +kernel, by decide +kernel, by decide +kernel⟩ (.inr (by decide +kernel)); ⟨u, hu⟩
/-- A descriptor whose save area is misplaced. -/
def badSave : Desc := { (loadLaunch 0).desc with words := (loadLaunch 0).desc.words.set 7 1 }
/-- The launches have it. -/
def misplaced (s : State) : State := { s with launches := s.launches.map fun x => { x with desc := badSave } }
/-- A save area at address 0, and at 1. -/
theorem witness_save (h : Obligations.HaltsAndSwaps) : Runs (.bunchSave 0 0) (bunched { halting with haltAsk := false } true) ∧
    Runs (.bunchSave 0 0) (misplaced (bunched { halting with haltAsk := false } true)) :=
  let s := bunched { halting with haltAsk := false } true
  let x : Launch := { loadLaunch 0 with bunches := [{ halting with haltAsk := false }] }
  let ⟨u, hu, _⟩ := (h.2.2.2.2.2.2.2.2.2.2.2.2.1 s x { halting with haltAsk := false } (by unfold isBunch; decide +kernel) (by decide +kernel) (by decide +kernel) (by decide +kernel)).2
    (by decide +kernel) (area_of (by decide +kernel) (by decide +kernel))
  ⟨⟨u, hu⟩, _, (h.2.2.2.2.2.2.2.2.2.2.2.2.1 (misplaced s) { x with desc := badSave } { halting with haltAsk := false } (by unfold isBunch; decide +kernel) (by decide +kernel) (by decide +kernel)
    (by decide +kernel)).1 (by decide +kernel)⟩
theorem apart_of {rs : List (Nat × Nat × Nat × Reach)} (h : rs.Pairwise fun r q =>
    (match r.2.2.2, q.2.2.2 with | .bytes k _, .bytes l _ => decide (k + r.2.2.1 ≤ l ∨ l + q.2.2.1 ≤ k) | _, _ => true) = true) : apart rs := by
  refine h.imp ?_
  intro r q e k a l b hr hq
  rw [hr, hq] at e
  simpa using e
theorem witness_save_core (h : Obligations.HaltsAndSwaps) :
    Applies (h.2.2.2.2.2.2.2.2.2.2.2.2.2.1 (bunched halting true) { loadLaunch 0 with bunches := [halting] } halting halting 0 (by decide +kernel)
      (by decide +kernel) (by decide +kernel) (by decide +kernel)) ∧
    Applies (h.2.2.2.2.2.2.2.2.2.2.2.2.2.2.1 (bunched halting true) { loadLaunch 0 with bunches := [halting] } 0 0 [⟨3, 5⟩] (by decide +kernel) (by decide +kernel)
      (apart_of (by decide +kernel))) := ⟨trivial, trivial⟩
/-- The read-back areas of the saved bunch match their CRCs, or the first that does not is one of them. -/
theorem witness_swap (h : Obligations.HaltsAndSwaps) : Runs (.bunchSwapIn 0 0) out := by
  have k := h.2.2.2.2.2.2.2.2.2.2.2.2.2.2.2.2.1 out { loadLaunch 0 with bunches := [savedBunch] } savedBunch (0, 0) (by unfold isBunch; decide +kernel) (by decide +kernel) (by decide +kernel) (by decide +kernel) (by decide +kernel)
    (area_of (by decide +kernel) (by decide +kernel))
  have e : ∀ q, (((List.range savedBunch.saved.length).zip savedBunch.saved).map fun p => (p.2, readArea out { loadLaunch 0 with bunches := [savedBunch] } savedBunch.idx p.1)) = [q] →
      Runs (.bunchSwapIn 0 0) out := by
    intro q hq
    rw [hq] at k
    cases hc : crcsMatch q.2 with
    | true => exact ⟨_, k.1 (by simp [hc])⟩
    | false => exact ⟨_, k.2 0 q rfl hc (by intro j r hj; cases hj)⟩
  exact e _ rfl
theorem witness_back_thread (h : Obligations.HaltsAndSwaps) : Applies (h.2.2.2.2.2.2.2.2.2.2.2.2.2.2.2.2.2.2.1 ⟨loadCore 0, 0, [], []⟩ (loadCore 0) 0 0 7 (by decide +kernel)) := trivial
theorem witness_notices (h : Obligations.HaltsAndSwaps) : Runs .tnRdWrite (write (.host 0) 0x10858 1 (opened base)) ∧
    Runs .tnBaseWrite (write (.host 0) 0x10840 0x1000 (opened base)) :=
  ⟨let ⟨u, hu, _⟩ := h.2.2.2.2.2.2.2.2.2.2.2.2.2.2.2.2.2.2.2.1 (write (.host 0) 0x10858 1 (opened base)) (by decide +kernel) (by decide +kernel); ⟨u, hu⟩,
   let ⟨u, hu, _⟩ := h.2.2.2.2.2.2.2.2.2.2.2.2.2.2.2.2.2.2.2.2 (write (.host 0) 0x10840 0x1000 (opened base)) (by decide +kernel) (by decide +kernel); ⟨u, hu⟩⟩


/-- The small machine, opened, with a piece in the network, at 50,000 ns. -/
def net1 (q : Piece) : State := { opened base with net := [q], now := 50000 }
/-- A launch that is gone. -/
theorem no_launch {o : Option Launch} (h : o.isNone = true) : ∀ x, o = some x → x.ended = true := by
  intro x e; rw [e] at h; cases h
theorem witness_access (h : Obligations.AccessesProceed) :
    Runs (.accessArrival 4) (net1 piece1) ∧
    Runs (.accessArrival 4) (net1 { piece1 with phase := .turn }) ∧
    Runs (.accessArrival 4) (net1 { piece1 with phase := .done }) ∧
    Runs (.ackArrival 4) (net1 { piece1 with phase := .done }) ∧
    Runs (.ackArrival 4) (net1 { piece1 with phase := .done, err := some 9 }) ∧
    Runs (.ackArrival 4) (net1 { piece1 with phase := .held }) ∧
    Runs (.ackArrival 4) (net1 { piece1 with phase := .detHeld }) ∧
    Runs (.ackArrival 4) (net1 { piece1 with orphan := true }) ∧
    Runs (.accessResend 4) (net1 { piece1 with phase := .done, resends := 7 }) ∧
    Runs (.accessResend 4) (net1 { piece1 with phase := .held }) ∧
    Runs (.accessResend 4) (net1 piece1) ∧
    Runs (.accessResend 4) (net1 { piece1 with acked := true }) ∧
    Runs (.accessResend 4) (net1 { piece1 with resends := 8 }) ∧
    Runs (.streamAdmitRetry 4) (net1 { piece1 with tries := 1 }) ∧
    Runs (.remoteRetest 4) (net1 { piece1 with phase := .held1 }) ∧
    Runs (.edgeTranslationWalk 4) (net1 { piece1 with phase := .waiting }) ∧
    Runs (.ackArrival 4) { net1 { piece1 with orphan := true } with launches := [] } :=
  ⟨⟨_, (h.1 (net1 piece1) 4 _ (by rfl)).1 rfl⟩,
   ⟨_, (h.1 (net1 { piece1 with phase := .turn }) 4 _ (by rfl)).2.1 rfl (by unfold soAhead; decide +kernel)⟩,
   ⟨_, (h.1 (net1 { piece1 with phase := .done }) 4 _ (by rfl)).2.2.1 rfl⟩,
   ⟨_, (h.1 (net1 { piece1 with phase := .done }) 4 _ (by rfl)).2.2.2.1 rfl rfl rfl⟩,
   ⟨_, (h.1 (net1 { piece1 with phase := .done, err := some 9 }) 4 _ (by rfl)).2.2.2.2.1 rfl rfl (by decide)⟩,
   ⟨_, (h.1 (net1 { piece1 with phase := .held }) 4 _ (by rfl)).2.2.2.2.2.1 rfl rfl⟩,
   ⟨_, (h.1 (net1 { piece1 with phase := .detHeld }) 4 _ (by rfl)).2.2.2.2.2.2.1 rfl rfl 0 0 (by decide +kernel)⟩,
   ⟨_, (h.1 (net1 { piece1 with orphan := true }) 4 _ (by rfl)).2.2.2.2.2.2.2.1 rfl ⟨loadLaunch 0, by decide +kernel⟩⟩,
   ⟨_, ((h.1 (net1 { piece1 with phase := .done, resends := 7 }) 4 _ (by rfl)).2.2.2.2.2.2.2.2.2.1 rfl rfl rfl rfl (by decide +kernel) (by decide)).1 rfl⟩,
   ⟨_, ((h.1 (net1 { piece1 with phase := .held }) 4 _ (by rfl)).2.2.2.2.2.2.2.2.2.1 rfl rfl rfl rfl (by decide +kernel) (by decide)).2.1 rfl⟩,
   ⟨_, ((h.1 (net1 piece1) 4 _ (by rfl)).2.2.2.2.2.2.2.2.2.1 rfl rfl rfl rfl (by decide +kernel) (by decide)).2.2 (by decide) (by decide)⟩,
   ⟨_, (h.1 (net1 { piece1 with acked := true }) 4 _ (by rfl)).2.2.2.2.2.2.2.2.2.2.1 (.inl rfl)⟩,
   ⟨_, (h.1 (net1 { piece1 with resends := 8 }) 4 _ (by rfl)).2.2.2.2.2.2.2.2.2.2.2.1 rfl rfl rfl rfl (by decide +kernel) (by decide)⟩,
   ⟨_, (h.1 (net1 { piece1 with tries := 1 }) 4 _ (by rfl)).2.2.2.2.2.2.2.2.2.2.2.2.1 rfl (by decide)⟩,
   ⟨_, (h.1 (net1 { piece1 with phase := .held1 }) 4 _ (by rfl)).2.2.2.2.2.2.2.2.2.2.2.2.2.2.2.1 rfl (by decide +kernel)⟩,
   ⟨_, (h.1 (net1 { piece1 with phase := .waiting }) 4 _ (by rfl)).2.2.2.2.2.2.2.2.2.2.2.2.2.2.2.2 0 rfl rfl⟩,
   let ⟨u, hu, _⟩ := (h.1 { net1 { piece1 with orphan := true } with launches := [] } 4 { piece1 with orphan := true } (by rfl)).2.2.2.2.2.2.2.2.1 rfl (no_launch (by decide +kernel)); ⟨u, hu⟩⟩
/-- A clearance, or a cancel, of piece 5, and that piece held at its target. -/
def cleared (op : MemOp) : State := { net1 { piece1 with op := op } with net := [{ piece1 with op := op }, { piece1 with id := 5, op := .write, phase := .held, own := 9 }] }
theorem witness_clearance (h : Obligations.AccessesProceed) : Runs (.releaseClearance 4) (cleared (.clearance 5)) ∧ Runs (.releaseCancel 4) (cleared (.cancel 5)) :=
  ⟨⟨_, (h.1 (cleared (.clearance 5)) 4 { piece1 with op := .clearance 5 } (by decide +kernel)).2.2.2.2.2.2.2.2.2.2.2.2.2.1 5 _ rfl rfl
      (Option.some_get (by decide +kernel)).symm (by decide +kernel)⟩,
   let ⟨u, hu, _⟩ := (h.1 (cleared (.cancel 5)) 4 { piece1 with op := .cancel 5 } (by decide +kernel)).2.2.2.2.2.2.2.2.2.2.2.2.2.2.1 5 rfl; ⟨u, hu⟩⟩
/-- A stream of another thread refused before it, no window of its own, and a window of its own. -/
theorem witness_admission (h : Obligations.AccessesProceed) :
    Applies ((h.2.1 { net1 piece1 with net := [piece1, { piece1 with id := 5, tries := 1, src := ⟨0, 0, 0, 1⟩ }] } piece1).1 (by decide +kernel) (.inr (by unfold refusedBefore; decide +kernel))) ∧
    Applies ((h.2.1 (net1 piece1) piece1).2.1 (by decide +kernel) (by decide +kernel) (by unfold refusedBefore; decide +kernel) rfl) ∧
    Applies ((h.2.1 { net1 piece1 with wins := [⟨piece1.src, piece1.tgt, 0, [], 0⟩] } piece1).2.2 (by decide +kernel) rfl) := ⟨trivial, trivial, trivial⟩
/-- Pieces at a core, in the thread's own store, at a port, a host's memory and a device register. -/
def atCore (c : Nat) : Piece := { piece1 with tgt := .core c }
/-- A machine in which core 1 belongs to the launch but is not there, and one in which it is. -/
def pairNet (q : Piece) : State := { pair with net := [q], tables := (opened base).tables, ready := (opened base).ready }
theorem witness_perform (h : Obligations.AccessesProceed) :
    Applies ((h.2.2.1 (pairNet (atCore 1)) (atCore 1)).1 1 1 rfl rfl (by decide +kernel)) ∧
    Applies ((h.2.2.1 { pairNet (atCore 1) with launches := [{ launchOf 0x048F8001 0x100000001 0x20000 with bunches := [{ loadBunch with state := .saved }] }] } (atCore 1)).2.1 1 rfl rfl (by decide +kernel)) ∧
    Applies ((h.2.2.1 (pairNet (atCore 9)) (atCore 9)).2.2.1 9 rfl rfl (by decide +kernel)) ∧
    Applies ((h.2.2.1 (pairNet piece1) { atCore 0 with loc := true }).2.2.2.1 0 0 0 rfl rfl (by decide +kernel)) ∧
    Applies ((h.2.2.1 (net1 piece1) piece1).2.2.2.2.1 0 rfl (by decide +kernel) (by decide +kernel)) ∧
    Applies ((h.2.2.1 { net1 piece1 with edges := (net1 piece1).edges.set 0 { (net1 piece1).edgePort 0 with walks := 96 } } piece1).2.2.2.2.2.1 0 rfl (by decide +kernel) (by decide +kernel)) ∧
    Applies ((h.2.2.1 (net1 piece1) { piece1 with tgt := .host 3 }).2.2.2.2.2.2.1 3 rfl (by decide) (by decide +kernel)) ∧
    (let q : Piece := { piece1 with tgt := .mmio 97, addr := 0x103F8, op := .write }
     Applies ((h.2.2.1 (net1 q) q).2.2.2.2.2.2.2.1 97 rfl rfl (by decide +kernel)) ∧
     Applies ((h.2.2.1 (net1 q) { q with op := .read }).2.2.2.2.2.2.2.2.1 97 rfl rfl (by decide +kernel)) ∧
     Applies ((h.2.2.1 (net1 q) { q with addr := 0x50100 }).2.2.2.2.2.2.2.2.2 97 7 rfl (by decide) (fun _ => by decide +kernel) nofun)) :=
  ⟨trivial, trivial, trivial, trivial, trivial, trivial, trivial, trivial, trivial, trivial⟩
/-- Leaves of page class 1 at address 0: all rights to port 0's DRAM, none, on NVMe, resident or not, replicated. -/
def leafOf (pte : Nat) : Leaf := ⟨BitVec.ofNat 64 pte, 0x30000, 2 ^ 30⟩
theorem witness_granted (h : Obligations.AccessesProceed) : let q : Piece := { piece1 with va := 0x100 }
    Applies ((h.2.2.2.1 (net1 q) 0 (leafOf 0xE1) q).1 (by unfold granted; decide +kernel)) ∧
    Applies ((h.2.2.2.1 (net1 q) 0 (leafOf 0xEF) q).2.1 (by unfold granted; decide +kernel) (by decide +kernel) (by unfold reachesDram; decide +kernel)) ∧
    Applies ((h.2.2.2.1 { net1 q with tables := [] } 0 (leafOf 0xEF) q).2.2.1 (by unfold granted; decide +kernel) (by decide +kernel) (by unfold reachesDram; decide +kernel)) ∧
    Applies ((h.2.2.2.1 (net1 q) 0 (leafOf (0xEF + 2 ^ 60)) q).2.2.2.1 (by unfold granted; decide +kernel) (by decide +kernel) (by decide +kernel)) ∧
    Applies ((h.2.2.2.1 (net1 q) 0 (leafOf (0xAF + 2 ^ 61)) q).2.2.2.2.1 (by unfold granted; decide +kernel) (by decide +kernel) (by decide +kernel)) ∧
    Applies ((h.2.2.2.1 (net1 q) 0 (leafOf (0xEF + 2 ^ 61)) q).2.2.2.2.2.1 (by unfold granted; decide +kernel) (by decide +kernel) (by decide +kernel) (by decide +kernel) (by unfold reachesDram; decide +kernel)) ∧
    (let w : Piece := { q with op := .write }
     Applies ((h.2.2.2.1 (net1 w) 0 (leafOf (0xEF + 3 * 2 ^ 60)) w).2.2.2.2.2.2 (by unfold granted; decide +kernel) (by decide +kernel) (by unfold reachesDram; decide +kernel) rfl)) :=
  ⟨trivial, trivial, trivial, trivial, trivial, trivial, trivial⟩
theorem walk_ok {r : Except Nat Leaf} {l : Leaf} (h : r.toOption = some l) : r = .ok l := by cases r <;> simp_all [Except.toOption]
theorem witness_walk (h : Obligations.AccessesProceed) :
    Applies ((h.2.2.2.2.1 { net1 piece1 with edges := [] } 0 piece1).1 Cause.edgePage (by rfl)) ∧
    Applies ((h.2.2.2.2.1 (net1 piece1) 0 { piece1 with va := 0x100 }).2 ⟨0xEF, 0x30000, 2 ^ 30⟩ (walk_ok (by decide +kernel))) := ⟨trivial, trivial⟩
/-- A reduction held for generation 3 of round 1. -/
def held3 : Piece := { piece1 with op := .redf, phase := .detHeld, det := some ⟨1, 3, 0, 0, 0, 0⟩ }
/-- The bytes: in error, a reduction of DET with room and without, and plain ones of a handler and of a normal thread. -/
theorem witness_performAt (h : Obligations.AccessesProceed) :
    Applies ((h.2.2.2.2.2.1 { net1 piece1 with badMem := [0x100] } 0x100 piece1).1 (by decide +kernel)) ∧
    Applies ((h.2.2.2.2.2.1 (net1 held3) 0x100 held3).2.1 (by decide +kernel) (by decide) (by decide +kernel) (by rfl)) ∧
    Applies ((h.2.2.2.2.2.1 { net1 held3 with net := List.replicate 256 held3 } 0x100 held3).2.2.1 (by decide +kernel) (by decide) (by decide +kernel)) ∧
    Applies ((h.2.2.2.2.2.1 (net1 piece1) 0x100 { piece1 with handler := true }).2.2.2.1 (by decide +kernel) rfl (.inl rfl)) ∧
    Applies ((h.2.2.2.2.2.1 (net1 piece1) 0x100 piece1).2.2.2.1 (by decide +kernel) rfl (.inr (by decide +kernel))) ∧
    Applies (h.2.2.2.2.2.2.2.2.1 (net1 piece1) piece1 5 none (by rfl)) ∧ Applies (h.2.2.2.2.2.2.2.2.2.1 (net1 piece1) piece1 Cause.edgePage (by rfl)) := ⟨trivial, trivial, trivial, trivial, trivial, trivial, trivial⟩
/-- An event of a piece of the core's own store and of another's, and a note that is due and one that is not. -/
theorem witness_notes (h : Obligations.AccessesProceed) :
    Applies ((h.2.2.2.2.2.2.1 (net1 piece1) { piece1 with loc := true } 5).1 rfl) ∧ Applies ((h.2.2.2.2.2.2.1 (net1 piece1) piece1 5).2 rfl) ∧
    Applies ((h.2.2.2.2.2.2.2.1 { net1 piece1 with ndNotes := [⟨50001, piece1.src, 5, 0⟩] } ⟨50001, piece1.src, 5, 0⟩ (by decide +kernel)).1 (by decide)) ∧
    Applies ((h.2.2.2.2.2.2.2.1 { net1 piece1 with ndNotes := [⟨50000, piece1.src, 5, 0⟩] } ⟨50000, piece1.src, 5, 0⟩ (by decide +kernel)).2 (by decide)) :=
  ⟨trivial, trivial, trivial, trivial⟩
/-- A fit of a word block of elements that rounds: a REDB that does so outside DET is logged. -/
theorem witness_fit : ∃ op data old, fitRounds op data old = true :=
  ⟨.redb 3, 2 ^ 46 + 10 * 2 ^ 1536, 1, by decide +kernel⟩
theorem witness_replica (h : Obligations.AccessesProceed) :
    Runs (.replicaInvalidateAck 4 2) { net1 { piece1 with phase := .waiting } with invWaits := [⟨4, [2], 0, 0, 0⟩] } ∧
    Runs (.replicaInvalidateAck 4 2) { net1 { piece1 with phase := .waiting } with invWaits := [⟨4, [1, 2], 0, 0, 0⟩] } :=
  ⟨⟨_, (h.2.2.2.2.2.2.2.2.2.2.2.2.1 { net1 { piece1 with phase := .waiting } with invWaits := [⟨4, [2], 0, 0, 0⟩] } 4 2 ⟨4, [2], 0, 0, 0⟩ { piece1 with phase := .waiting } (by decide +kernel)).1 (by decide) (by rfl) rfl⟩,
   let ⟨u, hu, _⟩ := (h.2.2.2.2.2.2.2.2.2.2.2.2.1 { net1 { piece1 with phase := .waiting } with invWaits := [⟨4, [1, 2], 0, 0, 0⟩] } 4 2 ⟨4, [1, 2], 0, 0, 0⟩ { piece1 with phase := .waiting } (by decide +kernel)).2 (by decide); ⟨u, hu⟩⟩
/-- The machine in a round of its launch with held reductions. -/
def detRound (r : Nat) (more : List Piece) : State := { net1 held3 with net := held3 :: more, launches := [{ loadLaunch 0 with round := r }] }
/-- A reduction at core 0's store. -/
def held0 : Piece := { held3 with tgt := .core 0 }
theorem witness_window (h : Obligations.AccessesProceed) :
    Runs (.detWindowClose 0) { detRound 2 [] with net := [held0] } ∧ Runs (.detWindowClose 0) (detRound 1 [{ held3 with id := 5, phase := .flying }]) ∧
    Applies ((h.2.2.2.2.2.2.2.2.2.2.2.2.2.2.2.2.1 (detRound 1 []) held0).1 _ (Option.some_get (by decide +kernel)).symm) ∧
    Applies ((h.2.2.2.2.2.2.2.2.2.2.2.2.2.2.2.2.1 (detRound 1 []) held0).2.2 0 0 rfl (by decide +kernel)) :=
  ⟨⟨_, (h.2.2.2.2.2.2.2.2.2.2.2.2.2.1 { detRound 2 [] with net := [held0] } { loadLaunch 0 with round := 2 } (2 ^ 32 + 3) (by decide +kernel) (by decide +kernel)).1 (by decide +kernel)⟩,
   ⟨_, (h.2.2.2.2.2.2.2.2.2.2.2.2.2.1 (detRound 1 [{ held3 with id := 5, phase := .flying }]) { loadLaunch 0 with round := 1 } (2 ^ 32 + 3) (by decide +kernel) (by decide +kernel)).2 (by decide +kernel)⟩, trivial, trivial⟩
theorem witness_drowsy (h : Obligations.AccessesProceed) : Runs (.windowDrowsy 0 0) (base.modMe fun th => { th with wait := some ⟨1, 2, 0, 0⟩ }) :=
  let ⟨u, hu, _⟩ := h.2.2.2.2.2.2.2.2.2.2.2.2.2.2.2.2.2.1 (base.modMe fun th => { th with wait := some ⟨1, 2, 0, 0⟩ }) 0 0 ⟨1, 2, 0, 0⟩ (by decide +kernel) (by decide +kernel); ⟨u, hu⟩
/-- A write of bytes 4 to 11 in SO behind a read of bytes 0 to 7 in UO, and the second piece of an access behind its first. -/
theorem witness_blocks (h : Obligations.AccessesProceed) :
    Applies (h.2.2.2.2.2.2.2.2.2.2.2.2.2.2.2.2.2.2.2.1 { piece1 with attr := .uo } { piece1 with va := 0x1000007, order := 1, op := .write } (by decide +kernel) rfl (by decide) (by decide +kernel)
      (.inl ⟨by decide +kernel, by decide⟩)) ∧
    Applies (h.2.2.2.2.2.2.2.2.2.2.2.2.2.2.2.2.2.2.2.1 { piece1 with acq := some 3 } { piece1 with va := 0, order := 1 } (by decide +kernel) rfl (by decide) (by decide +kernel)
      (.inr (.inl (by decide)))) ∧
    Applies (h.2.2.2.2.2.2.2.2.2.2.2.2.2.2.2.2.2.2.2.1 { piece1 with attr := .so } { piece1 with attr := .so, tgt := .host 0, va := 0, order := 1 } (by decide +kernel) rfl (by decide) (by decide +kernel)
      (.inr (.inr (.inl (by decide))))) ∧
    Applies (h.2.2.2.2.2.2.2.2.2.2.2.2.2.2.2.2.2.2.2.1 { piece1 with op := .write } { piece1 with rel := some 3, va := 0, order := 1, loc := true } (by decide +kernel) rfl (by decide) (by decide +kernel)
      (.inr (.inr (.inr (by decide +kernel))))) ∧
    Applies (h.2.2.2.2.2.2.2.2.2.2.2.2.2.2.2.2.2.2.2.2 { piece1 with phase := .unsent } { piece1 with off := 8 } (by decide +kernel) (by decide +kernel) rfl rfl (by decide) (by decide +kernel)) := ⟨trivial, trivial, trivial, trivial, trivial⟩

/-- A piece that waits at a page on NVMe, not resident or (class 1 without it) in DRAM. -/
def paged (pte : Nat) : State := poke 0x30000 pte (net1 { piece1 with va := 0, phase := .paged })
theorem witness_fault (h : Obligations.StorageRuns) : Runs (.storageFault 4) { net1 { piece1 with phase := .paged } with edges := [] } ∧
    Runs (.storageFault 4) (paged (0xAF + 2 ^ 61)) ∧ Runs (.storageFault 4) (paged 0xEF) :=
  ⟨⟨_, (h.1 { net1 { piece1 with phase := .paged } with edges := [] } 4 0 { piece1 with phase := .paged } (loadLaunch 0) (by decide +kernel) rfl rfl (by decide +kernel) rfl).1 Cause.edgePage (by rfl)⟩,
   ⟨_, (h.1 (paged (0xAF + 2 ^ 61)) 4 0 { piece1 with va := 0, phase := .paged } (loadLaunch 0) (by decide +kernel) rfl rfl (by decide +kernel) rfl).2.1 ⟨BitVec.ofNat 64 (0xAF + 2 ^ 61), 0x30000, 2 ^ 30⟩
     (walk_ok (by decide +kernel)) (by decide +kernel) (by decide +kernel)⟩,
   ⟨_, (h.1 (paged 0xEF) 4 0 { piece1 with va := 0, phase := .paged } (loadLaunch 0) (by decide +kernel) rfl rfl (by decide +kernel) rfl).2.2 ⟨BitVec.ofNat 64 0xEF, 0x30000, 2 ^ 30⟩
     (walk_ok (by decide +kernel)) (by decide +kernel)⟩⟩
/-- A fill of a page of 64 KiB, its frame the last of the port's DRAM, or none yet. -/
def fill1 (fr : Option Nat) : Fill := ⟨7, 0, 0, 0, 0, some 0, fr, [(1, 2)]⟩
/-- Cellar 0, changed. -/
def cellar (f : Cellar → Cellar) : State := { opened base with cellars := (opened base).cellars.set 0 (f .reset) }
/-- A frame of the pool of 64 KiB, its page written or not, being evicted or not. -/
def frame1 (written evicting : Bool) : Frame := ⟨0, 0, 0, 0, 0, written, evicting⟩
theorem witness_fill (h : Obligations.StorageRuns) : Runs (.pageFillComplete 0 7) (cellar fun x => { x with fills := [fill1 (some (2 ^ 30 - 2 ^ 16))] }) ∧
    Runs (.frameEviction 0 0) (cellar fun x => { x with fills := [fill1 none], fcount := [1, 0, 0] }) ∧
    Runs (.frameEviction 0 0) (cellar fun x => { x with fills := [fill1 none] }) :=
  ⟨let ⟨u, hu, _⟩ := h.2.1 (cellar fun x => { x with fills := [fill1 (some (2 ^ 30 - 2 ^ 16))] }) 0 7 (2 ^ 30 - 2 ^ 16) 0 (fill1 (some (2 ^ 30 - 2 ^ 16)))
      (by decide +kernel) (by decide) (by decide) (by decide +kernel) (by decide +kernel) (by decide +kernel); ⟨u, hu⟩,
   ⟨_, h.2.2.1 (cellar fun x => { x with fills := [fill1 none], fcount := [1, 0, 0] }) 0 0 0 (fill1 none) (by unfold firstWanting; decide +kernel) (by decide +kernel)⟩,
   ⟨_, h.2.2.2.2.1 (cellar fun x => { x with fills := [fill1 none] }) 0 0 (fill1 none) (by unfold firstWanting; decide +kernel) (by decide +kernel) (by decide +kernel)⟩⟩
/-- A fill that wants the one frame of the pool, its page mapped. -/
def wanting (written : Bool) : State := cellar fun x => { x with fills := [{ fill1 none with va := 2 ^ 30 }], frames := [frame1 written false], fcount := [1, 0, 0], smlim := x.smlim.set 0 0xFFFFFFFFFFFF8000 }
/-- The page of the frame is mapped by nothing. -/
def unmapped : State := cellar fun x => { x with fills := [{ fill1 none with va := 2 ^ 30 }], frames := [frame1 true false], fcount := [1, 0, 0] }
theorem witness_evict (h : Obligations.StorageRuns) : Runs (.frameEviction 0 0) (wanting false) ∧ Runs (.frameEviction 0 0) (wanting true) ∧
    Runs (.frameEviction 0 0) unmapped := by
  have e : ∀ w, evictable (wanting w) 0 0 (frame1 w false) := by
    intro w
    refine ⟨?_, rfl, rfl, ?_, [], [], ?_, by intro f hf; cases hf⟩ <;> cases w <;> decide +kernel
  have g : evictable unmapped 0 0 (frame1 true false) := by
    refine ⟨?_, rfl, rfl, ?_, [], [], ?_, by intro f hf; cases hf⟩ <;> decide +kernel
  obtain ⟨u, hu, _⟩ := (h.2.2.2.1 (wanting false) 0 0 { fill1 none with va := 2 ^ 30 } _ (by unfold firstWanting; decide +kernel) (e false) (by decide +kernel)).1 rfl
  obtain ⟨v, hv, _⟩ := (h.2.2.2.1 (wanting true) 0 0 { fill1 none with va := 2 ^ 30 } _ (by unfold firstWanting; decide +kernel) (e true) (by decide +kernel)).2.1 _ rfl (Option.some_get (by decide +kernel)).symm
  obtain ⟨x, hx, _⟩ := (h.2.2.2.1 unmapped 0 0 { fill1 none with va := 2 ^ 30 } _ (by unfold firstWanting; decide +kernel) g (by decide +kernel)).2.2 rfl (by decide +kernel)
  exact ⟨⟨u, hu⟩, ⟨v, hv⟩, ⟨x, hx⟩⟩
theorem witness_command_fail (h : Obligations.StorageRuns) : Runs (.nvmeCommandFail 0 7 (2 ^ 16 + 5)) (cellar fun x => { x with fills := [fill1 none] }) ∧
    Runs (.nvmeCommandFail 0 7 (2 ^ 16 + 5)) (cellar fun x => { x with fills := [{ fill1 none with fails := [(1, 3)] }] }) ∧
    Runs (.nvmeCommandFail 0 9 (2 ^ 16 + 5)) (cellar fun x => { x with frames := [frame1 true true], wbs := [⟨9, 0, 0, 0, 0, 0, 0, false, false, false, [(1, 3)]⟩] }) :=
  ⟨let ⟨u, hu, _⟩ := (h.2.2.2.2.2.2.2.2.2.2.2.1 (cellar fun x => { x with fills := [fill1 none] }) 0 7 (2 ^ 16 + 5) (fill1 none) (by decide +kernel) (by decide +kernel)).1 (by decide +kernel); ⟨u, hu⟩,
   let ⟨u, hu, _⟩ := (h.2.2.2.2.2.2.2.2.2.2.2.1 (cellar fun x => { x with fills := [{ fill1 none with fails := [(1, 3)] }] }) 0 7 (2 ^ 16 + 5) { fill1 none with fails := [(1, 3)] } (by decide +kernel) (by decide +kernel)).2 (by decide +kernel); ⟨u, hu⟩,
   let ⟨u, hu, _⟩ := h.2.2.2.2.2.2.2.2.2.2.2.2.1 (cellar fun x => { x with frames := [frame1 true true], wbs := [⟨9, 0, 0, 0, 0, 0, 0, false, false, false, [(1, 3)]⟩] }) 0 9 (2 ^ 16 + 5) ⟨9, 0, 0, 0, 0, 0, 0, false, false, false, [(1, 3)]⟩
     (frame1 true true) (by decide +kernel) (by decide +kernel) rfl rfl rfl (by decide +kernel) (by decide +kernel) (by decide +kernel) (by decide +kernel); ⟨u, hu⟩⟩
/-- A write-back whose frame is gone, a frame with a written page, and a drive with an unflushed one. -/
theorem witness_gone (h : Obligations.StorageRuns) :
    Runs (.pageWriteBackComplete 0 9 true) (cellar fun x => { x with wbs := [⟨9, 0, 0, 0, 0, 0, 0, false, true, false, []⟩] }) ∧
    Applies (h.2.2.2.2.2.2.2.2.2.2.1 (cellar fun x => { x with unflushed := [5] }) 0 0 5 (by decide) (.inl (by decide +kernel))) ∧
    Applies (h.2.2.2.2.2.2.2.2.2.2.1 unmapped 0 0 64 (by decide) (.inr ⟨frame1 true false, by decide +kernel, rfl, rfl, by decide +kernel⟩)) :=
  ⟨let ⟨u, hu, _⟩ := h.2.2.2.2.2.2.2.1 (cellar fun x => { x with wbs := [⟨9, 0, 0, 0, 0, 0, 0, false, true, false, []⟩] }) 0 9 ⟨9, 0, 0, 0, 0, 0, 0, false, true, false, []⟩
     (by decide +kernel) rfl (by decide) (by decide +kernel); ⟨u, hu⟩, trivial, trivial⟩
/-- A page of a PERSIST fence written back. -/
theorem witness_back (h : Obligations.StorageRuns) : Runs (.pageWriteBackComplete 0 9 true) (cellar fun x => { x with frames := [frame1 true false], wbs := [⟨9, 0, 0, 0, 0, 0, 0, false, true, false, []⟩] }) ∧
    Runs (.dlogMerge 0) (base.modMyCore fun k => { k with merging := true }) ∧ Runs (.dlogMerge 0) base ∧
    Applies (h.2.2.2.2.2.2.2.2.2.2.2.2.2.2.2.1 base 0 0 0x10001 (by decide)) ∧ Applies (h.2.2.2.2.2.2.2.2.2.2.2.2.2.2.2.2 (opened base) 0 0x100 0 ⟨0xEF, 0x30000, 2 ^ 30⟩ (by decide +kernel) (walk_ok (by decide +kernel))) :=
  ⟨let ⟨u, hu, _⟩ := h.2.2.2.2.2.2.1 (cellar fun x => { x with frames := [frame1 true false], wbs := [⟨9, 0, 0, 0, 0, 0, 0, false, true, false, []⟩] }) 0 9 ⟨9, 0, 0, 0, 0, 0, 0, false, true, false, []⟩ (frame1 true false)
     (by decide +kernel) rfl (by decide) (by decide +kernel) (by decide +kernel); ⟨u, hu⟩,
   ⟨_, (h.2.2.2.2.2.2.2.2.2.2.2.2.2.1 (base.modMyCore fun k => { k with merging := true }) 0 (by decide +kernel)).1⟩,
   ⟨_, h.2.2.2.2.2.2.2.2.2.2.2.2.2.2.1 base 0 (by decide +kernel)⟩, trivial, trivial⟩


/-! ## Witnesses: the module -/

/-- Ready, with no thread. -/
def module_ : State := { opened base with cores := [], launches := [] }
/-- Nothing but host ports is ready, and a machine that drains its last field. -/
def early : State := { module_ with ready := { module_.ready with host := 0 } }
theorem witness_ready (h : Obligations.BringUp) : Runs (.hostLinkTrained 3) early ∧ Runs (.edgeMemoryTrained 63 (2 ^ 52 + 1)) module_ ∧
    Runs (.cellarDrivesReady 15 0x13) module_ ∧ Runs (.linkPortLocked 15) module_ ∧ Runs (.linkPortDown 15) module_ ∧ Runs (.linkRekey 15) module_ ∧
    Runs (.linkPortLocked 0) { module_ with ready := { module_.ready with field := 0 }, draining := [47] } ∧ Runs (.grafting 0 true) early :=
  ⟨let ⟨u, hu, _⟩ := h.1 early 3 (by decide +kernel) (by decide); ⟨u, hu⟩,
   let ⟨u, hu, _⟩ := h.2.1 module_ 63 (2 ^ 52 + 1) (by unfold upward; decide +kernel) (by decide) (by decide +kernel); ⟨u, hu⟩,
   let ⟨u, hu, _⟩ := h.2.2.1 module_ 15 0x13 (by unfold upwardRest upward; decide +kernel) (by decide) (by decide +kernel) (by decide +kernel); ⟨u, hu⟩,
   let ⟨u, hu, _⟩ := h.2.2.2.1 module_ 15 (by unfold upwardLinks upwardRest upward; decide +kernel) (by decide) (by decide +kernel) (by decide +kernel); ⟨u, hu⟩,
   let ⟨u, hu, _⟩ := h.2.2.2.2.1 module_ 15 (by decide +kernel); ⟨u, hu⟩,
   let ⟨u, hu, _⟩ := h.2.2.2.2.2.2.1 module_ 15 (by decide +kernel); ⟨u, hu⟩,
   let ⟨u, hu, _⟩ := h.2.2.2.1 { module_ with ready := { module_.ready with field := 0 }, draining := [47] } 0 (by unfold upwardLinks upwardRest upward; decide +kernel) (by decide) (by decide +kernel) (by decide +kernel); ⟨u, hu⟩,
   ⟨_, (h.2.2.2.2.2.2.2.2.2.2.2.2.1 early (.inr (.inr (by decide +kernel))) 0 0 0 0 0 true).2.2.2⟩⟩
theorem witness_too_early (h : Obligations.BringUp) : Runs (.linkPortLocked 0) { module_ with ready := { module_.ready with cellar := 0 } } ∧
    Runs (.cellarDrivesReady 0 1) { module_ with ready := { module_.ready with field := 0 } } ∧ Runs (.meshLinkFailure 86015 0) module_ :=
  ⟨⟨_, h.2.2.2.2.2.2.2.2.2.2.2.2.2.1 { module_ with ready := { module_.ready with cellar := 0 } } 0 (.inl rfl)⟩,
   ⟨_, h.2.2.2.2.2.2.2.2.2.2.2.2.2.2.1 { module_ with ready := { module_.ready with field := 0 } } 0 1 (.inl (by decide +kernel))⟩,
   ⟨_, h.2.2.2.2.2.2.2.2.2.2.1 module_ 86015 0 (by decide +kernel)⟩⟩
/-- The failure of a core and of a link of a bunch raises MCHK there. -/
theorem witness_mchk (h : Obligations.BringUp) :
    (∃ u, exec (.coreFailure 0) (opened base) = .next u ∧ checkedBy u 0 0 Cause.mchkCore ((opened base).homeCore 0 0 0)) ∧
    ∃ u b core, exec (.meshLinkFailure 0 2) (opened base) = .next u ∧ checkedBy u 0 b Cause.mchkLink core := by
  obtain ⟨u, hu, _, _, _, _, _, hk⟩ := h.2.2.2.2.2.2.2.2.1 (opened base) 0 (by decide)
  obtain ⟨v, hv, _, _, _, _, _, hl⟩ := h.2.2.2.2.2.2.2.2.2.1 (opened base) 0 2 1 (by decide) (by decide +kernel)
  obtain ⟨b, core, hb⟩ := hl (loadLaunch 0) loadBunch (by decide +kernel) (by decide +kernel) (by decide +kernel) rfl
  exact ⟨⟨u, hu, hk ⟨0, 0, 0⟩ (loadLaunch 0) (by decide +kernel) (by decide +kernel) rfl⟩, v, b, core, hv, hb⟩
theorem witness_failure (h : Obligations.BringUp) : Runs (.coreFailure 86015) module_ ∧ Runs (.meshLinkFailure 86015 4) module_ ∧
    Runs (.grafting 47 false) { module_ with draining := [47] } ∧
    Runs (.grafting 0 true) { module_ with ready := { module_.ready with field := 0 } } :=
  ⟨let ⟨u, hu, _⟩ := h.2.2.2.2.2.2.2.2.1 module_ 86015 (by decide); ⟨u, hu⟩,
   let ⟨u, hu, _⟩ := h.2.2.2.2.2.2.2.2.2.1 module_ 86015 4 86014 (by decide) (by decide +kernel); ⟨u, hu⟩,
   let ⟨u, hu, _⟩ := h.2.2.2.2.2.2.2.2.2.2.2.1 { module_ with draining := [47] } 47 false (by unfold upward; decide +kernel) (by decide +kernel) (by decide) (.inr (by decide)) (by decide +kernel); ⟨u, hu⟩,
   let ⟨u, hu, _⟩ := h.2.2.2.2.2.2.2.2.2.2.2.1 { module_ with ready := { module_.ready with field := 0 } } 0 true (by unfold upward; decide +kernel) (by decide +kernel) (by decide) (.inl (by decide +kernel)) (by decide +kernel); ⟨u, hu⟩⟩
theorem witness_standby (h : Obligations.BringUp) : Runs .standbyRequest (write .firmware 0x70000 1 module_) ∧ Runs .standbyRequest (write .firmware 0x70000 1 (opened base)) ∧
    standbyBarred (write .firmware 0x70000 1 module_) = false ∧ standbyBarred (write .firmware 0x70000 1 (opened base)) = true ∧
    Runs .standbyExit (write .firmware 0x70000 0 { module_ with standby := true }) :=
  ⟨let ⟨u, hu, _⟩ := h.2.2.2.2.2.2.2.2.2.2.2.2.2.2.2.2.2.1 (write .firmware 0x70000 1 module_) (by decide +kernel); ⟨u, hu⟩,
   let ⟨u, hu, _⟩ := h.2.2.2.2.2.2.2.2.2.2.2.2.2.2.2.2.2.1 (write .firmware 0x70000 1 (opened base)) (by decide +kernel); ⟨u, hu⟩, by decide +kernel, by decide +kernel,
   let ⟨u, hu, _⟩ := h.2.2.2.2.2.2.2.2.2.2.2.2.2.2.2.2.2.2 (write .firmware 0x70000 0 { module_ with standby := true }) (by decide +kernel); ⟨u, hu⟩⟩

/-- The debugger's write of a command for slot 0 of core 0, at a level, with its arguments. -/
def command (n lvl : Nat) (a0 a1 : W64) (s : State) : State :=
  write .debugger 0x30000 (n * 2 ^ 56) { s with dbg := { s.dbg with level := lvl, arg0 := a0, arg1 := a1 },
                                                 tables := s.tables ++ [(99 * 64, 0xB000FFFC0000001F)] }
theorem witness_refused (h : Obligations.DebuggerActs) :
    Runs .setbp (command 11 2 0 0 { opened base with dbg := { base.dbg with busy := true } }) ∧ Runs .wslice (command 2 1 0 1 (opened base)) ∧
    Runs .rslice { command 1 1 0 1 (opened base) with ready := { (opened base).ready with field := 0 } } :=
  ⟨⟨_, (h.1 .setbp 2 true (by decide) (command 11 2 0 0 { opened base with dbg := { base.dbg with busy := true } }) (by decide +kernel)).1 (by decide +kernel)⟩,
   ⟨_, (h.1 .wslice 2 true (by decide) (command 2 1 0 1 (opened base)) (by decide +kernel)).2.1 (by decide +kernel) (by decide +kernel)⟩,
   ⟨_, (h.1 .rslice 1 true (by decide) { command 1 1 0 1 (opened base) with ready := { (opened base).ready with field := 0 } } (by decide +kernel)).2.2
     (by decide +kernel) (by decide +kernel) rfl (by decide +kernel)⟩⟩
/-- The last slice; 512 slices beyond a window; `status`; the last byte of a local store. -/
theorem witness_reads (h : Obligations.DebuggerActs) : Runs .rslice (command 1 1 2047 1 (opened base)) ∧ Runs .wslice (command 2 2 1536 512 (opened base)) ∧
    Runs .rcsr (command 3 1 0 0 (opened base)) ∧ Runs .wcsr (command 4 2 0 0xF (opened base)) ∧ Runs .rmem (command 5 1 0xBFFFF 1 (opened base)) ∧
    Runs .wmem (command 6 2 0 256 (opened base)) :=
  ⟨let ⟨u, hu, _⟩ := h.2.1 (command 1 1 2047 1 (opened base)) 0 0 (by unfold commanded; decide +kernel) (by decide +kernel); ⟨u, hu⟩,
   let ⟨u, hu, _⟩ := h.2.2.1 (command 2 2 1536 512 (opened base)) 0 0 (by unfold commanded; decide +kernel) (by decide +kernel); ⟨u, hu⟩,
   let ⟨u, hu, _⟩ := h.2.2.2.1 (command 3 1 0 0 (opened base)) 0 0 (by unfold commanded; decide +kernel) (by decide +kernel); ⟨u, hu⟩,
   ⟨_, h.2.2.2.2.1 (command 4 2 0 0xF (opened base)) 0 0 true true (by unfold commanded; decide +kernel) (by decide +kernel) (by decide +kernel)⟩,
   let ⟨u, hu, _⟩ := h.2.2.2.2.2.1 (command 5 1 0xBFFFF 1 (opened base)) 0 0 (by unfold commanded; decide +kernel) (by decide +kernel); ⟨u, hu⟩,
   let ⟨u, hu, _⟩ := h.2.2.2.2.2.2.1 (command 6 2 0 256 (opened base)) 0 0 (by unfold commanded; decide +kernel) (by decide +kernel); ⟨u, hu⟩⟩
/-- The machine with its thread halted. -/
def haltedThread : State := opened (base.modMe fun th => { th with halted := true })
theorem witness_runs (h : Obligations.DebuggerActs) : Runs .halt (command 7 2 0 0 (opened base)) ∧ Runs .haltb (command 8 2 0 0 (opened base)) ∧
    Runs .resume (command 9 2 0 0 haltedThread) ∧ Runs .step (command 10 2 0 0 haltedThread) ∧ Runs .step (command 10 2 0 0 (opened base)) ∧
    Runs .setbp (command 11 2 0x7FEB 0 (opened base)) ∧ Runs .brkmode (command 14 2 1 0 (opened base)) :=
  ⟨let ⟨u, hu, _⟩ := h.2.2.2.2.2.2.2.1 (command 7 2 0 0 (opened base)) 0 0 (by unfold commanded; decide +kernel); ⟨u, hu⟩,
   let ⟨u, hu, _⟩ := h.2.2.2.2.2.2.2.2.1 (command 8 2 0 0 (opened base)) 0 0 ⟨0, 0, 0⟩ (by unfold commanded; decide +kernel) (by decide +kernel); ⟨u, hu⟩,
   let ⟨u, hu, _⟩ := (h.2.2.2.2.2.2.2.2.2.2.1 (command 9 2 0 0 haltedThread) 0 0 (by unfold commanded; decide +kernel) (by decide +kernel)).1 (by decide +kernel); ⟨u, hu⟩,
   let ⟨u, hu, _⟩ := (h.2.2.2.2.2.2.2.2.2.2.2.2.2.1 (command 10 2 0 0 haltedThread) 0 0 (by unfold commanded; decide +kernel)).1 (by decide +kernel); ⟨u, hu⟩,
   ⟨_, (h.2.2.2.2.2.2.2.2.2.2.2.2.2.1 (command 10 2 0 0 (opened base)) 0 0 (by unfold commanded; decide +kernel)).2 (by decide +kernel)⟩,
   let ⟨u, hu, _⟩ := h.2.2.2.2.2.2.2.2.2.2.2.2.2.2.1 (command 11 2 0x7FEB 0 (opened base)) 0 0 (by unfold commanded; decide +kernel) (by decide +kernel) (by decide +kernel)
     (by decide +kernel) (by decide +kernel); ⟨u, hu⟩,
   let ⟨u, hu, _⟩ := h.2.2.2.2.2.2.2.2.2.2.2.2.2.2.2.1 (command 14 2 1 0 (opened base)) (by unfold commandedAll; decide +kernel); ⟨u, hu⟩⟩
/-- The saved bunch, the debugger with RD and WR at port 0. -/
def area (n : Nat) (a1 : W64) : State :=
  { command n 2 0 a1 out with tables := Tbl.set (command n 2 0 a1 out).tables 2 0xB000FFFC0000001F }
/-- The launch that was saved. -/
def savedLaunch : Launch := { loadLaunch 0 with bunches := [savedBunch] }
/-- The last 256 bytes of the area. -/
theorem witness_find (h : Obligations.DebuggerActs) : Applies (h.2.2.2.2.2.2.2.2.2.2.2.2.2.2.2.2.2.2.2 out savedLaunch savedBunch 0 (2 ^ 20 - 256) 256 (by decide +kernel) (by decide +kernel)
    (by decide +kernel) (by decide +kernel) (by decide +kernel) rfl (by intro j hj; cases hj) (by decide +kernel) (by decide +kernel)) := trivial
/-- All runs reach bytes. -/
theorem bytes_of {rs : List (Nat × Nat × Nat × Reach)} (h : (rs.all fun r => match r.2.2.2 with | .bytes .. => true | _ => false) = true) :
    ∀ r ∈ rs, ∃ k home, r.2.2.2 = .bytes k home := by
  intro r hr
  have e := List.all_eq_true.1 h r hr
  cases c : r.2.2.2 with
  | bytes k home => exact ⟨k, home, rfl⟩
  | regs | own | fails | page | later => rw [c] at e; cases e
/-- The debugger may not reach the area. -/
def shut (n : Nat) : State := { area n 256 with tables := [(99 * 64, 0xB000FFFC0000001F)] }
theorem witness_area (h : Obligations.DebuggerActs) :
    Runs .rsave (area 12 257) ∧ Runs .rsave (command 12 2 0 256 (opened base)) ∧ Runs .rsave (shut 12) ∧ Runs .rsave (area 12 256) ∧
    Runs .wsave (area 13 0) ∧ Runs .wsave (command 13 2 0 256 (opened base)) ∧ Runs .wsave (shut 13) ∧ Runs .wsave (area 13 256) :=
  ⟨⟨_, (h.2.2.2.2.2.2.2.2.2.2.2.2.2.2.2.2.1 (area 12 257) (by unfold commandedAll; decide +kernel)).1 (by decide +kernel)⟩,
   ⟨_, (h.2.2.2.2.2.2.2.2.2.2.2.2.2.2.2.2.1 (command 12 2 0 256 (opened base)) (by unfold commandedAll; decide +kernel)).2.1 (by decide +kernel)⟩,
   ⟨_, ((h.2.2.2.2.2.2.2.2.2.2.2.2.2.2.2.2.1 (shut 12) (by unfold commandedAll; decide +kernel)).2.2 savedLaunch savedBunch 0 0 (by decide +kernel) (by decide +kernel)).1 (by decide +kernel)⟩,
   let ⟨u, hu, _⟩ := ((h.2.2.2.2.2.2.2.2.2.2.2.2.2.2.2.2.1 (area 12 256) (by unfold commandedAll; decide +kernel)).2.2 savedLaunch savedBunch 0 0 (by decide +kernel)
     (by decide +kernel)).2 (bytes_of (by decide +kernel)); ⟨u, hu⟩,
   ⟨_, (h.2.2.2.2.2.2.2.2.2.2.2.2.2.2.2.2.2.1 (area 13 0) (by unfold commandedAll; decide +kernel)).1 (by decide +kernel)⟩,
   ⟨_, (h.2.2.2.2.2.2.2.2.2.2.2.2.2.2.2.2.2.1 (command 13 2 0 256 (opened base)) (by unfold commandedAll; decide +kernel)).2.1 (by decide +kernel)⟩,
   ⟨_, (h.2.2.2.2.2.2.2.2.2.2.2.2.2.2.2.2.2.1 (shut 13) (by unfold commandedAll; decide +kernel)).2.2.1 savedLaunch savedBunch 0 0 (by decide +kernel) (by decide +kernel) (by decide +kernel)⟩,
   ⟨_, (h.2.2.2.2.2.2.2.2.2.2.2.2.2.2.2.2.2.1 (area 13 256) (by unfold commandedAll; decide +kernel)).2.2.2 savedLaunch savedBunch 0 0 (by decide +kernel)
     (by decide +kernel) (by decide +kernel)⟩⟩
/-- The bunch halted by the debugger. -/
def haltedBunch : State := { opened base with launches := [{ loadLaunch 0 with bunches := [{ loadBunch with halted := true }] }] }
/-- HALTB and RESUME of a bunch: of a core without one, of one that is not halted, and of one that is; RESUME of a running thread. -/
theorem witness_bunch (h : Obligations.DebuggerActs) : Runs .haltb (command 8 2 0 0 module_) ∧ Runs .resume (command 9 2 1 0 module_) ∧
    Runs .resume (command 9 2 1 0 (opened base)) ∧ Runs .resume (command 9 2 1 0 haltedBunch) ∧ Runs .resume (command 9 2 0 0 (opened base)) :=
  ⟨⟨_, h.2.2.2.2.2.2.2.2.2.1 (command 8 2 0 0 module_) 0 0 (by unfold commanded; decide +kernel) (by decide +kernel)⟩,
   ⟨_, (h.2.2.2.2.2.2.2.2.2.2.2.1 (command 9 2 1 0 module_) 0 0 (by unfold commanded; decide +kernel) (by decide +kernel)).1 (by decide +kernel)⟩,
   ⟨_, (h.2.2.2.2.2.2.2.2.2.2.2.1 (command 9 2 1 0 (opened base)) 0 0 (by unfold commanded; decide +kernel) (by decide +kernel)).2.1 ⟨0, 0, 0⟩ (by decide +kernel) (by
      intro y hy
      rw [show (command 9 2 1 0 (opened base)).bunch? 0 0 = some loadBunch by decide +kernel] at hy
      obtain rfl := Option.some.inj hy; rfl)⟩,
   let ⟨u, hu, _⟩ := (h.2.2.2.2.2.2.2.2.2.2.2.1 (command 9 2 1 0 haltedBunch) 0 0 (by unfold commanded; decide +kernel) (by decide +kernel)).2.2 ⟨0, 0, 0⟩ { loadBunch with halted := true }
     (by decide +kernel) (by decide +kernel) rfl; ⟨u, hu⟩,
   ⟨_, (h.2.2.2.2.2.2.2.2.2.2.1 (command 9 2 0 0 (opened base)) 0 0 (by unfold commanded; decide +kernel) (by decide +kernel)).2 (by decide +kernel)⟩⟩

/-- Firmware's writes of the security registers. -/
def firmware (off v : Nat) : State := write .firmware off v (opened base)
theorem witness_security (h : Obligations.SecurityChanges) : Runs .dbgSecWrite (firmware 0x30020 0) ∧ Runs .dbgLvlWrite (firmware 0x30028 3) ∧
    Runs .dbgAuthNewchal (firmware 0x30030 1) ∧ Runs .dbgAuthVerify (firmware 0x30030 2) ∧ Runs .attestationGo (firmware 0x50048 1) ∧ Runs .rtvgo (firmware 0x50300 1) :=
  ⟨let ⟨u, hu, _⟩ := h.1 (firmware 0x30020 0) (by decide +kernel); ⟨u, hu⟩,
   let ⟨u, hu, _⟩ := h.2.1 (firmware 0x30028 3) (by decide +kernel); ⟨u, hu⟩,
   let ⟨u, hu, _⟩ := h.2.2.1 (firmware 0x30030 1) (by decide +kernel) (by decide +kernel); ⟨u, hu⟩,
   let ⟨u, hu, _⟩ := h.2.2.2.1 (firmware 0x30030 2) (by decide +kernel); ⟨u, hu⟩,
   let ⟨u, hu, _⟩ := h.2.2.2.2.2.2.2.2.2.1 (firmware 0x50048 1) (by decide +kernel); ⟨u, hu⟩,
   let ⟨u, hu, _⟩ := h.2.2.2.2.2.2.2.2.2.2.2.2 (firmware 0x50300 1) (by decide +kernel) (by decide +kernel); ⟨u, hu⟩⟩
/-- The first and the last registers of both request blocks; the report of a module that is not fused, at a misplaced and a placed
destination. -/
theorem witness_requests (h : Obligations.SecurityChanges) : Applies (h.2.2.2.2.2.2.1 base 0 0x50000 (by decide) (by decide)) ∧ Applies (h.2.2.2.2.2.2.1 base 0 0x5004F (by decide) (by decide)) ∧
    Applies (h.2.2.2.2.2.2.2.1 base 0 2 0x50100 (.inl (by decide))) ∧ Applies (h.2.2.2.2.2.2.2.1 base 0 2 0x50307 (.inr (by decide))) ∧ base.security.fused = false ∧
    Applies (h.2.2.2.2.2.2.2.2.2.2.2.1 base (by decide +kernel)) := ⟨trivial, trivial, trivial, trivial, by decide +kernel, trivial⟩
theorem witness_lockout (h : Obligations.SecurityChanges) : Runs .authLockoutExpiry { base with dbg := { base.dbg with lockout := 5, fails := 3 }, now := 5 } ∧
    Runs .attestationReportDone { base with security := { base.security with busy := true } } :=
  ⟨let ⟨u, hu, _⟩ := h.2.2.2.2.2.2.2.2.1 { base with dbg := { base.dbg with lockout := 5, fails := 3 }, now := 5 } (by decide +kernel) (by decide +kernel); ⟨u, hu⟩,
   let ⟨u, hu, _⟩ := h.2.2.2.2.2.2.2.2.2.2.1 { base with security := { base.security with busy := true } } (by decide +kernel); ⟨u, hu⟩⟩

theorem witness_registers (h : Obligations.RegistersAndTrace) : Runs .accessTableWrite (firmware 0x200000 0x8000FFFC0000001F) ∧ Runs .registerWrite (firmware 0x103E0 0) ∧
    Runs .registerWrite (firmware 0x10013 0) ∧ Runs .registerWrite (firmware 0x22F00 0) ∧ Runs .registerWrite (firmware 0xBF000 1) ∧
    Runs .trRdWrite (firmware 0x22F18 1) ∧ Runs .trCtlWrite (firmware 0x22F20 3) ∧ Runs (.traceFrameClose 47) base ∧ Runs (.traceFrameTimeout 0 1) base ∧
    Runs (.traceFrameTimeout 0 0) base :=
  ⟨let ⟨u, hu, _⟩ := h.1 (firmware 0x200000 0x8000FFFC0000001F) (by decide +kernel); ⟨u, hu⟩,
   let ⟨u, hu, _⟩ := h.2.1 (firmware 0x103E0 0) (by decide +kernel); ⟨u, hu⟩,
   let ⟨u, hu, _⟩ := h.2.1 (firmware 0x10013 0) (by decide +kernel); ⟨u, hu⟩,
   let ⟨u, hu, _⟩ := h.2.1 (firmware 0x22F00 0) (by decide +kernel); ⟨u, hu⟩,
   let ⟨u, hu, _⟩ := h.2.1 (firmware 0xBF000 1) (by decide +kernel); ⟨u, hu⟩,
   let ⟨u, hu, _⟩ := h.2.2.2.2.2.1 (firmware 0x22F18 1) (by decide +kernel) (by decide +kernel); ⟨u, hu⟩,
   let ⟨u, hu, _⟩ := h.2.2.2.2.2.2.1 (firmware 0x22F20 3) (by decide +kernel) (by decide +kernel); ⟨u, hu⟩,
   let ⟨u, hu, _⟩ := h.2.2.1 base 47 (by decide +kernel); ⟨u, hu⟩,
   ⟨_, (h.2.2.2.2.1 base 0 1).2 (by decide +kernel)⟩,
   let ⟨u, hu, _⟩ := h.2.2.1 base 0 (by decide +kernel); ⟨u, ((h.2.2.2.2.1 base 0 0).1 (by decide +kernel)).trans hu⟩⟩
/-- The last trace block, changed. -/
def ring (f : TraceBlk → TraceBlk) : TraceBlk := (({ base with trace := base.trace.set 47 (f (base.traceBlk 47)) } : State)).traceBlk 47
/-- Frames that find room, a full ring in drop and in stall mode, and a ring with room for a LEES frame and one more. -/
theorem witness_frames : (ring fun b => { b with payload := [1], mask := 3 }).full = false ∧ (ring fun b => { b with payload := [1], wr := 1 }).full = true ∧
    (ring fun b => { b with payload := [1], wr := 1, stall := true }).full = true ∧ (ring fun b => { b with payload := [1], mask := 3, pendLoss := 1 }).pendLoss ≠ 0 ∧
    (let b := ring fun b => { b with payload := [1], mask := 3, pendLoss := 1 }
     b.full = false ∧ (b.wr + 1 - b.rd).toNat ≤ b.mask.toNat) ∧
    (let b := ring fun b => { b with payload := [1], mask := 3, wr := 3, heldFrames := [[]] }
     (b.wr - 1).toNat ≤ b.mask.toNat ∧ b.heldFrames = [[]]) := by decide +kernel
theorem witness_frame (h : Obligations.RegistersAndTrace) : Applies (h.2.2.2.1 0 47 (2 ^ 32 - 1) 0 7 (List.replicate 4064 0) (Nat.le_of_eq List.length_replicate) (by decide) (by decide) (by decide) (by decide)) := trivial
/-- A word that is all ones. -/
theorem witness_no_instruction (h : Obligations.RegistersAndTrace) : Runs .wordNotAnInstruction (focus 0 0 (State.reset.withFetchWord 80 (2 ^ 80 - 1))) :=
  ⟨_, h.2.2.2.2.2.2.2.2 (focus 0 0 (State.reset.withFetchWord 80 (2 ^ 80 - 1))) _ _ (Option.some_get (by decide +kernel)).symm (by decide +kernel)⟩

/-- Two threads of normal class, the second last to issue; the first passed over so often. -/
def both (passed : Nat) (grant : Option Nat) : Core :=
  { loadCore 0 with lastN := 1, vecGrant := grant, threads := ((loadCore 0).threads.set 1 loadThread).set 0 { loadThread with passed := passed } }
/-- Both passed over six times. -/
def both6 : Core := { both 6 none with threads := (both 6 none).threads.map fun th => { th with passed := 6 } }
theorem only_both {k : Core} (h : ((List.range 8).all fun u => !((k.thread u).mayIssue 0 && (k.thread u).cls == .handler) &&
    !((k.thread u).mayIssue 0 && (k.thread u).cls == .trap)) = true) : onlyNormal k 0 := by
  intro u hu
  have := List.all_eq_true.1 h u (List.mem_range.2 hu)
  unfold readyIn
  revert this
  cases (k.thread u).mayIssue 0 <;> cases (k.thread u).cls <;> simp
theorem room_left {k : Core} {now : Nat} (h : ((List.range 9).all fun r => r == 0 || decide ((Stated.pressed k (fun _ => true) now r).length < r)) = true) :
    roomLeft k (fun _ => true) now := by
  intro r h1 h8
  have e := List.all_eq_true.1 h r (List.mem_range.2 (by omega))
  have z : (r == 0) = false := by simp; omega
  simpa [z] using e
theorem tightest_of {k : Core} {now r : Nat} (h1 : 1 ≤ r) (h8 : r ≤ 8) (h : r ≤ (Stated.pressed k (fun _ => true) now r).length)
    (hq : ((List.range r).all fun q => q == 0 || decide ((Stated.pressed k (fun _ => true) now q).length < q)) = true) : tightest k (fun _ => true) now r := by
  refine ⟨h1, h8, h, fun q h1 hr => ?_⟩
  have e := List.all_eq_true.1 hq q (List.mem_range.2 hr)
  have z : (q == 0) = false := by simp; omega
  simpa [z] using e
/-- A slot whose next instruction is a vector one, when the datapath is to be given. -/
def vecReady : State := (focus 0 0 (State.reset.withFetchWord 80 ((encode (.vadd p .f16 (d 8) (a 8) (b 8))).getD 0).toNat)).modMyCore fun k => { k with vecAsk := true }
theorem witness_issue (h : Obligations.IssueOrder) : Applies (h.1 (both 0 none) (fun _ => true) 0 0 (by decide) (by decide) (by decide) (by decide +kernel)) ∧
    Applies (h.2.1 Core.reset (fun _ => true) 0 (by decide +kernel)) ∧
    Applies (h.2.2.1 (both 0 (some 1)) (fun _ => true) 0 1 (by decide +kernel) (by decide) (by unfold readyIn; decide +kernel) (only_both (by decide +kernel)) (room_left (by decide +kernel))) ∧
    Applies (h.2.2.2.1 (both 7 (some 1)) (fun _ => true) 0 1 (by decide) (only_both (by decide +kernel))
      (tightest_of (by decide) (by decide) (by decide +kernel) (by decide +kernel))) ∧
    Applies (h.2.2.2.1 both6 (fun _ => true) 0 2 (by decide) (only_both (by decide +kernel))
      (tightest_of (by decide) (by decide) (by decide +kernel) (by decide +kernel))) ∧
    Applies ((h.2.2.2.2.1 vecReady 0 (by decide +kernel) (by decide +kernel)).1 0 (by decide +kernel)) ∧
    Applies ((h.2.2.2.2.1 base 0 (by decide +kernel) (by decide +kernel)).2 (by decide +kernel)) ∧
    Applies (h.2.2.2.2.2.1 base 0 0 (by decide +kernel) (by decide +kernel)) ∧
    Applies ((h.2.2.2.2.2.2.1 base 0 0 base.me).1 (by decide +kernel) (by decide +kernel) (by decide +kernel)) ∧
    Applies ((h.2.2.2.2.2.2.1 (base.modMyCore fun k => { k with preempted := true }) 0 0 base.me).2 (.inl (by decide +kernel))) ∧
    Applies (h.2.2.2.2.2.2.2 (base.core 0 |>.thread 0) 0 (by decide +kernel)) :=
  ⟨trivial, trivial, trivial, trivial, trivial, trivial, trivial, trivial, trivial, trivial, trivial⟩

/-! ## The checks before an instruction, the step, and the invariants -/

/-- A POP of 32 bits from port `w0`, as `ChecksStop` sees it. -/
def popWord : View := fields (.pop p (d 3) (.port 2))
/-- A result of 32 bits at bit 1,024 on its way under tag 1. -/
def awaited (s : State) : State :=
  s.modMe fun th => { th with landings := [{ id := 0, tag := 1, pos := 9, pc := 0, dest := .slices 256 8, cover := BitVec.ofNat 8192 ((2 ^ 32 - 1) * 2 ^ 1024), landed := false, kind := .plain, missing := 0, value := 5, flags := 0 }] }
/-- A repetition of a VADD of 2,048 bits, its first beat done, a group of its second beat's A in error. -/
def midway : State := base.modMe fun th => { th with badGroups := [56], loops := { th.loops with repstate := 2 ^ 53 + 2 ^ 51 + 2 ^ 24, beats := some ⟨0, 0, 0, 0, 0⟩ } }
theorem witness_mid_beat (h : Obligations.ChecksStop) : Runs (.vadd p .f16 (d 9) (a 9) (b 9)) midway :=
  ⟨_, h.1 (.vadd p .f16 (d 9) (a 9) (b 9)) _ rfl midway (by decide +kernel) (by decide +kernel) (by decide +kernel) (by decide +kernel) (by decide +kernel)
    (by decide +kernel) 56 (by decide +kernel)⟩
/-- A halted MMAC of the slot at k = 31, the array another's. -/
theorem witness_array : let s := base.modMyCore fun k => { k with mat := { k.mat with cmds := [⟨3, 0, 2, .mac, 0, 31, 0, none, true⟩], holder := some 1 } }
    (∃ k ∈ s.myCore.mat.cmds, k.slot = s.curSlot ∧ k.mslot < 4 ∧ k.op = .mac ∧ k.k < 32) ∧ s.myCore.mat.holder ≠ some s.curSlot ∧ arrayStop base = none := by
  decide +kernel
/-- A port guard of one entry fails on an empty queue. -/
theorem witness_port_guard : (base.me.queue 0).completeEntries < 2 ^ 0 := by decide +kernel
/-- WAIT names a busy tag. -/
theorem witness_wait : portGuardStop (awaited base).me .none = none ∧ (awaited base).me.busyElse 1 ≠ 0 := by decide +kernel
/-- DIST 3 names a result under way; the datapath is slot 1's; a handler at its 4,096th instruction; a flag in a bad group, and one
that a result on its way covers. -/
theorem witness_before_guard : (∃ q ∈ ((base.modMe fun th => { th with pos := 5, pend := [⟨2, 9, 0, 0, 10⟩] }).me).pend, q.pos + 3 ≤ 5 ∧ base.now < q.ready) ∧
    (vecSpec 16 true true (fields (.vadd p .f16 (d 8) (a 8) (b 8)))).vec = true ∧ (base.modMyCore fun k => { k with vecFree := 7, vecLast := 1 }).myCore.vecOther 0 0 = true ∧
    (let th := ((mode .handler 0 base).modMe fun th => { th with budget := 4096 }).me
     th.cls = .handler ∧ 4096 ≤ th.budget ∧ th.repK = 0 ∧ th.repBeat = 0) ∧
    (({ base.me with badGroups := [0] }).badRead (.flag 3)).isSome = true ∧
    (let th : Thread := { (awaited base).me with status := 8, landings := (awaited base).me.landings.map fun l => { l with cover := 8 } }
     th.badRead (.flag 3) = none ∧ th.stalechk = true ∧ ((Loc.flag 3).staleTval (th.awaited 0 th.pos)).isSome = true) := by decide +kernel
/-- Operands the description does not admit: POP of something that is no port. -/
theorem witness_legal : admitted (popSpec false (fields (.pop p (d 3) (a 3)))) base ∧ (popSpec false (fields (.pop p (d 3) (a 3)))).legal = false :=
  ⟨⟨by decide +kernel, rfl, by decide +kernel⟩, by decide +kernel⟩
/-- A class T instruction finds its own tag busy. -/
theorem witness_own_tag : let sp := binSpec 1 64 false (fields (.div pt (d 3) (a 3) (b 3)))
    (beforeGuard sp (awaited base)).toOption = some () ∧ legalStop sp (awaited base).me = none ∧ viewLat sp.v = .t ∧ sp.v.h.atag.toNat ≠ 0 ∧
    (awaited base).me.tagBusyElse sp.v.h.atag.toNat (awaited base).me.pos = true := by decide +kernel
/-- One without a tag finds a result on its way to its destination. -/
theorem witness_covered : let sp := binSpec 1 64 false (fields (.div p (d 3) (a 3) (b 3)))
    let th : Thread := { (awaited base).me with landings := (awaited base).me.landings.map fun l => { l with cover := BitVec.ofNat 8192 ((2 ^ 32 - 1) * 2 ^ 1024) } }
    legalStop sp th = none ∧ viewLat sp.v = .t ∧ sp.v.h.atag.toNat = 0 ∧ ∃ l, sp.writeLocs th = [l] ∧ th.coveringTags l.mask th.pos ≠ 0 := by
  refine ⟨by decide +kernel, by decide +kernel, by decide +kernel, .slices 256 8, by decide +kernel, by decide +kernel⟩
/-- A POP of an empty queue. -/
theorem witness_empty : let sp := popSpec false popWord
    legalStop sp base.me = none ∧ tagStop sp base.me = none ∧ popList base.me [] (sp.reads base.me) = [(2, 32, none)] := by decide +kernel
/-- A POP of 32 bits at a group pushed with 64. -/
theorem witness_width : let sp := popSpec false popWord
    let s := queued 64 7 base
    legalStop sp s.me = none ∧ tagStop sp s.me = none ∧ (∀ e ∈ popStops sp s.me ++ pushStops sp s s.me, e = none) ∧ rangeStop sp s.me = none ∧ eccStop sp s.me = none ∧
    staleStop sp s.me = none ∧ (popList s.me [] (sp.reads s.me)).map (fun x => (x.1, x.2.1, x.2.2.map Group.width)) = [(2, 32, some 64)] := by decide +kernel
/-- A destination port whose target's queue is full. -/
theorem witness_full : let sp := binSpec 1 64 false (fields (.add p (.port 4) (d 3) (a 3)))
    let s := pair.modThread 1 0 fun th => { th with qin := th.qin.set 8 ⟨[⟨2048, 0, true, 0, []⟩], []⟩ }
    legalStop sp s.me = none ∧ tagStop sp s.me = none ∧ (∀ e ∈ popStops sp s.me, e = none) ∧
    (match sp.pushes s.me with | (q, w, x) :: _ => decide (pushTest s s.curCore s.curSlot q w x = .full) | [] => false) = true := by decide +kernel
/-- A range past the window. -/
theorem witness_range : let sp := binSpec 1 64 false (fields (.add p (.slice 4 2040) (a 4) (b 4)))
    legalStop sp base.me = none ∧ tagStop sp base.me = none ∧ (∀ e ∈ popStops sp base.me ++ pushStops sp base base.me, e = none) ∧
    ((sp.readLocs base.me ++ sp.writeLocs base.me).find? (fun l => !(l.inWindow base.me.slices))).isSome = true := by decide +kernel
/-- A source under a result that has not landed, with STALECHK. -/
theorem witness_stale : let sp := binSpec 1 64 false (fields (.add p (b 3) (d 3) (d 3)))
    let s := (awaited base).modMe fun th => { th with status := 8 }
    legalStop sp s.me = none ∧ tagStop sp s.me = none ∧ (∀ e ∈ popStops sp s.me ++ pushStops sp s s.me, e = none) ∧ rangeStop sp s.me = none ∧ eccStop sp s.me = none ∧
    s.me.stalechk = true ∧ staleReads sp s.me ≠ [] := by decide +kernel

theorem no_timers (q : Nat × Instr) (r : List (Nat × Instr)) (h : base.timers = q :: r) : base.now < q.1 := by
  have : base.timers = [] := by decide +kernel
  simp [this] at h
theorem no_timers_at_reset (q : Nat × Instr) (r : List (Nat × Instr)) (h : State.reset.timers = q :: r) : State.reset.now < q.1 := by
  simp [State.reset] at h
/-- Each clause on what a step does applies somewhere. -/
theorem witness_step_runs (h : Obligations.StepRunsTheWord) : Applies ((h { base with agenda := [(base.bus, .traceFrameClose 47)] }).1 base.bus (.traceFrameClose 47) [] rfl) ∧
    Applies ((h { base with asked := [.tapRead 0 0] }).2.1 (.tapRead 0 0) [] rfl rfl) ∧
    Applies ((h { base with timers := [(3, .traceFrameClose 47)], now := 3 }).2.2.1 3 (.traceFrameClose 47) [] rfl rfl rfl (by decide)) ∧
    Applies (((h base).2.2.2.1 rfl rfl no_timers).1 0 0 (by decide +kernel) |>.1 .nop (by decide +kernel) (by rfl)) ∧
    Applies (((h State.reset).2.2.2.1 rfl rfl no_timers_at_reset).2.2.2.2 (by decide +kernel)) := ⟨trivial, trivial, trivial, trivial, trivial⟩
/-- A slot with a pending cause; a slot whose next word an execute comparator watches. -/
theorem witness_picks : pick vecReady = .datapath 0 ∧ pick (base.modMe fun th => { th with pendCause := some (raised 1), resumed := true }) = .cause 0 0 ∧
    pick { base.modMyCore (fun k => { k with comps := k.comps.set 0 ⟨true, 1, 0, 0, 0⟩ }) with dbg := { base.dbg with level := 2 } } = .comparator 0 0 := by decide +kernel
theorem witness_round_trip (h : Obligations.EncodingsAgree) :
    Applies (h.1 (.addi p (d 3) .zero 1) 0x00000001F00064000002 (by decide +kernel) (by decide +kernel)) ∧ Applies (h.2 0x00000001F00064000002 (.addi p (d 3) .zero 1) rfl) :=
  ⟨trivial, trivial⟩
theorem witness_memory (h : Obligations.StepKeepsMemory) : ∃ u, step base = .next u ∧ Mem.wf u.mem = true :=
  let ⟨u, hu, k⟩ := h base; ⟨u, hu, k (by decide +kernel)⟩
theorem witness_shape (h : Obligations.StepKeepsShape) (h' : Obligations.ResetState) : ∃ u, step State.reset = .next u ∧ shaped u := by
  simp only [Obligations.ResetState] at h'
  exact ⟨_, rfl, h State.reset _ h'.2.2.2.2.2.2.2.2.2.2.2.2.2 rfl⟩


/-! ## Words written out from Tables 9.1, 9.2 and 9.4: X, SAT, RND, WAIT, ATAG, DIST, B, A, D, GRD, OP -/

theorem test_decode_integer :
    decodeWord (0b0#1 ++ 0b0#1 ++ 0b00#2 ++ 0b0000000#7 ++ 0b001#3 ++ 0b000#3 ++ 0b001101000000000#15 ++ 0b001100000001000#15 ++ 0b001100001000000#15 ++ 0b00000000#8 ++ 0b0000000111#10) =
      .ok (.div pt (.slice 3 64) (.slice 3 8) (.slice 3 512)) ∧
    decodeWord (0b1#1 ++ 0b0#1 ++ 0b00#2 ++ 0b0000000#7 ++ 0b000#3 ++ 0b000#3 ++ 0b100000000000001#15 ++ 0b010000000010000#15 ++ 0b010000001000000#15 ++ 0b00000000#8 ++ 0b0000001100#10) =
      .ok (.andi px (.slice 4 64) (.slice 4 16) 0x4001) ∧
    decodeWord (0b0#1 ++ 0b0#1 ++ 0b00#2 ++ 0b0000000#7 ++ 0b000#3 ++ 0b000#3 ++ 0b000000000111111#15 ++ 0b010000000010000#15 ++ 0b010000001000000#15 ++ 0b00000000#8 ++ 0b0000010111#10) =
      .ok (.sari p (.slice 4 64) (.slice 4 16) 63) ∧
    decodeWord (0b0#1 ++ 0b0#1 ++ 0b00#2 ++ 0b0000000#7 ++ 0b000#3 ++ 0b000#3 ++ 0b000000000000000#15 ++ 0b010000000010000#15 ++ 0b001100001000000#15 ++ 0b00000000#8 ++ 0b0000011100#10) =
      .ok (.popc p (.slice 3 64) (.slice 4 16)) ∧
    decodeWord (0b0#1 ++ 0b0#1 ++ 0b00#2 ++ 0b0000000#7 ++ 0b000#3 ++ 0b000#3 ++ 0b111100000000000#15 ++ 0b111100001000000#15 ++ 0b010000001000000#15 ++ 0b00000000#8 ++ 0b0000100011#10) =
      .ok (.sel p (.slice 4 64) .tid .zero) ∧
    decodeWord (0b1#1 ++ 0b0#1 ++ 0b00#2 ++ 0b0000000#7 ++ 0b000#3 ++ 0b000#3 ++ 0b111111111111111#15 ++ 0b000000000000000#15 ++ 0b010000001000000#15 ++ 0b00000000#8 ++ 0b0000100101#10) =
      .ok (.movi px (.slice 4 64) 0x7FFF) ∧
    decodeWord (0b0#1 ++ 0b0#1 ++ 0b00#2 ++ 0b0000000#7 ++ 0b000#3 ++ 0b000#3 ++ 0b001101000000000#15 ++ 0b010000000010000#15 ++ 0b001100001000000#15 ++ 0b00000000#8 ++ 0b0000100111#10) =
      .ok (.bfx p (.slice 3 64) (.slice 4 16) (.slice 3 512)) ∧
    decodeWord (0b0#1 ++ 0b0#1 ++ 0b00#2 ++ 0b0000000#7 ++ 0b000#3 ++ 0b000#3 ++ 0b010001000000000#15 ++ 0b010000000010000#15 ++ 0b101000000111111#15 ++ 0b00000000#8 ++ 0b0000110000#10) =
      .ok (.cmplen p (.flag 63) (.slice 4 16) (.slice 4 512)) :=
  ⟨rfl, rfl, rfl, rfl, rfl, rfl, rfl, rfl⟩
theorem test_decode_control :
    decodeWord (0b0#1 ++ 0b0#1 ++ 0b00#2 ++ 0b0000000#7 ++ 0b000#3 ++ 0b000#3 ++ 0b000000000000010#15 ++ 0b000000000000000#15 ++ 0b000000000000001#15 ++ 0b00000000#8 ++ 0b0001000010#10) =
      .ok (.call p 0x80000001) ∧
    decodeWord (0b0#1 ++ 0b0#1 ++ 0b00#2 ++ 0b0000000#7 ++ 0b000#3 ++ 0b000#3 ++ 0b000000000000000#15 ++ 0b001100000001000#15 ++ 0b001100001000000#15 ++ 0b00000000#8 ++ 0b0001000011#10) =
      .ok (.callr p (.slice 3 64) (.slice 3 8)) ∧
    decodeWord (0b0#1 ++ 0b0#1 ++ 0b00#2 ++ 0b0000000#7 ++ 0b000#3 ++ 0b000#3 ++ 0b000000000000011#15 ++ 0b111100000010000#15 ++ 0b000000000000000#15 ++ 0b00000000#8 ++ 0b0001000100#10) =
      .ok (.loop p (.kbank 15) 3) ∧
    decodeWord (0b0#1 ++ 0b0#1 ++ 0b00#2 ++ 0b0000000#7 ++ 0b000#3 ++ 0b000#3 ++ 0b000000000000111#15 ++ 0b001100000001000#15 ++ 0b000000000000000#15 ++ 0b00000000#8 ++ 0b0001000101#10) =
      .ok (.rep p (.slice 3 8) 7) ∧
    decodeWord (0b0#1 ++ 0b0#1 ++ 0b00#2 ++ 0b1111111#7 ++ 0b000#3 ++ 0b000#3 ++ 0b000000000000000#15 ++ 0b000000000000000#15 ++ 0b000000000000000#15 ++ 0b00000000#8 ++ 0b0001000111#10) =
      .ok (.exit { Hdr.plain with wait := 0x7F }) :=
  ⟨rfl, rfl, rfl, rfl, rfl⟩
theorem test_decode_vector :
    decodeWord (0b0#1 ++ 0b0#1 ++ 0b00#2 ++ 0b0000000#7 ++ 0b000#3 ++ 0b000#3 ++ 0b010001000000000#15 ++ 0b010000000010000#15 ++ 0b010000001000000#15 ++ 0b00000000#8 ++ 0b0010011101#10) =
      .ok (.vfma p .bf16 (.slice 4 64) (.slice 4 16) (.slice 4 512)) ∧
    decodeWord (0b0#1 ++ 0b0#1 ++ 0b00#2 ++ 0b0000000#7 ++ 0b000#3 ++ 0b000#3 ++ 0b010001000000000#15 ++ 0b010000000010000#15 ++ 0b101000000000001#15 ++ 0b00000000#8 ++ 0b0100000000#10) =
      .ok (.vcmple p .i8 (.flag 1) (.slice 4 16) (.slice 4 512)) ∧
    decodeWord (0b0#1 ++ 0b0#1 ++ 0b00#2 ++ 0b0000000#7 ++ 0b000#3 ++ 0b000#3 ++ 0b001101000000000#15 ++ 0b010000000010000#15 ++ 0b010000001000000#15 ++ 0b00000000#8 ++ 0b0100100011#10) =
      .ok (.vslide p .i64 (.slice 4 64) (.slice 4 16) (.slice 3 512)) ∧
    decodeWord (0b0#1 ++ 0b0#1 ++ 0b00#2 ++ 0b0000000#7 ++ 0b000#3 ++ 0b000#3 ++ 0b000000000000000#15 ++ 0b010000000010000#15 ++ 0b001100001000000#15 ++ 0b00000000#8 ++ 0b0100111110#10) =
      .ok (.vhmin p .f32 (.slice 3 64) (.slice 4 16)) ∧
    decodeWord (0b0#1 ++ 0b0#1 ++ 0b10#2 ++ 0b0000000#7 ++ 0b111#3 ++ 0b000#3 ++ 0b010001000000000#15 ++ 0b010000000010000#15 ++ 0b010000001000000#15 ++ 0b00000000#8 ++ 0b0101010110#10) =
      .ok (.fdiv { Hdr.plain with atag := 7, rnd := 2 } .f32 (.slice 4 64) (.slice 4 16) (.slice 4 512)) ∧
    decodeWord (0b0#1 ++ 0b0#1 ++ 0b00#2 ++ 0b0000000#7 ++ 0b000#3 ++ 0b000#3 ++ 0b010001000000000#15 ++ 0b010000000010000#15 ++ 0b010000001000000#15 ++ 0b00000000#8 ++ 0b0110001100#10) =
      .ok (.fldx p .f16 (.slice 4 64) (.slice 4 16) (.slice 4 512)) :=
  ⟨rfl, rfl, rfl, rfl, rfl, rfl⟩
theorem test_decode_block :
    decodeWord (0b1#1 ++ 0b0#1 ++ 0b00#2 ++ 0b0000000#7 ++ 0b000#3 ++ 0b000#3 ++ 0b111100000000000#15 ++ 0b100000000010000#15 ++ 0b011000001000000#15 ++ 0b00000000#8 ++ 0b1000000000#10) =
      .ok (.bpack px (.slice 6 64) (.slice 8 16) .zero) ∧
    decodeWord (0b0#1 ++ 0b0#1 ++ 0b00#2 ++ 0b0000000#7 ++ 0b000#3 ++ 0b000#3 ++ 0b011001000000000#15 ++ 0b011000000010000#15 ++ 0b100100001000000#15 ++ 0b00000000#8 ++ 0b1000001000#10) =
      .ok (.bmac p (.slice 9 64) (.slice 6 16) (.slice 6 512)) ∧
    decodeWord (0b1#1 ++ 0b0#1 ++ 0b00#2 ++ 0b0000000#7 ++ 0b000#3 ++ 0b000#3 ++ 0b000000000000000#15 ++ 0b011000000010000#15 ++ 0b010000001000000#15 ++ 0b00000000#8 ++ 0b1000001100#10) =
      .ok (.bhdr px (.slice 4 64) (.slice 6 16)) :=
  ⟨rfl, rfl, rfl⟩
theorem test_decode_matrix :
    decodeWord (0b1#1 ++ 0b0#1 ++ 0b00#2 ++ 0b0000000#7 ++ 0b000#3 ++ 0b000#3 ++ 0b000000000000000#15 ++ 0b001100000001000#15 ++ 0b000000000000000#15 ++ 0b00000000#8 ++ 0b1001000010#10) =
      .ok (.mcfg px (.slice 3 8)) ∧
    decodeWord (0b0#1 ++ 0b0#1 ++ 0b00#2 ++ 0b0000000#7 ++ 0b000#3 ++ 0b000#3 ++ 0b000000000000011#15 ++ 0b100000000010000#15 ++ 0b000000000000000#15 ++ 0b00000000#8 ++ 0b1001000110#10) =
      .ok (.mgatha p (.slice 8 16) 3) ∧
    decodeWord (0b0#1 ++ 0b0#1 ++ 0b00#2 ++ 0b0000000#7 ++ 0b000#3 ++ 0b000#3 ++ 0b000000000000010#15 ++ 0b000000000000000#15 ++ 0b000000000000000#15 ++ 0b00000000#8 ++ 0b1001000111#10) =
      .ok (.mmac p 2) ∧
    decodeWord (0b0#1 ++ 0b0#1 ++ 0b00#2 ++ 0b0000000#7 ++ 0b000#3 ++ 0b000#3 ++ 0b000000000000000#15 ++ 0b000000000000000#15 ++ 0b001100001000000#15 ++ 0b00000000#8 ++ 0b1001001011#10) =
      .ok (.mstat p (.slice 3 64)) :=
  ⟨rfl, rfl, rfl, rfl⟩
theorem test_decode_memory :
    decodeWord (0b0#1 ++ 0b0#1 ++ 0b00#2 ++ 0b0000000#7 ++ 0b010#3 ++ 0b000#3 ++ 0b000000000001000#15 ++ 0b010000000010000#15 ++ 0b010100001000000#15 ++ 0b00000000#8 ++ 0b1001101011#10) =
      .ok (.acas { Hdr.plain with atag := 2 } (.slice 5 64) (.slice 4 16) 8) ∧
    decodeWord (0b1#1 ++ 0b1#1 ++ 0b00#2 ++ 0b0000000#7 ++ 0b000#3 ++ 0b000#3 ++ 0b000000000000000#15 ++ 0b010000000010000#15 ++ 0b010000001000000#15 ++ 0b00000000#8 ++ 0b1001101101#10) =
      .ok (.redi { Hdr.plain with x := true, sat := true } (.slice 4 64) (.slice 4 16) 0) ∧
    decodeWord (0b0#1 ++ 0b0#1 ++ 0b01#2 ++ 0b0000000#7 ++ 0b001#3 ++ 0b000#3 ++ 0b000000001111111#15 ++ 0b000000000000000#15 ++ 0b000000000000000#15 ++ 0b00000000#8 ++ 0b1001110000#10) =
      .ok (.fence { Hdr.plain with rnd := 1, atag := 1 } 0x7F) ∧
    decodeWord (0b1#1 ++ 0b0#1 ++ 0b00#2 ++ 0b0000000#7 ++ 0b000#3 ++ 0b000#3 ++ 0b000000000000001#15 ++ 0b010000000010000#15 ++ 0b000000001000000#15 ++ 0b00000000#8 ++ 0b1001110001#10) =
      .ok (.spill px (.slice 0 64) (.slice 4 16) 1) :=
  ⟨rfl, rfl, rfl, rfl⟩
theorem test_decode_ports :
    decodeWord (0b0#1 ++ 0b0#1 ++ 0b00#2 ++ 0b0000000#7 ++ 0b000#3 ++ 0b000#3 ++ 0b000000000000000#15 ++ 0b111100000101001#15 ++ 0b001100001000000#15 ++ 0b00000000#8 ++ 0b1010000001#10) =
      .ok (.pop p (.slice 3 64) (.port 9)) ∧
    decodeWord (0b0#1 ++ 0b0#1 ++ 0b00#2 ++ 0b0000000#7 ++ 0b000#3 ++ 0b000#3 ++ 0b000000000000011#15 ++ 0b001000000010000#15 ++ 0b010000001000000#15 ++ 0b00000000#8 ++ 0b1010000101#10) =
      .ok (.pcfg p (.slice 4 64) (.slice 2 16) 3) ∧
    decodeWord (0b1#1 ++ 0b0#1 ++ 0b00#2 ++ 0b0000000#7 ++ 0b000#3 ++ 0b000#3 ++ 0b000000000000000#15 ++ 0b010100000010000#15 ++ 0b111100000000000#15 ++ 0b00000000#8 ++ 0b1010010001#10) =
      .ok (.sendm px .zero (.slice 5 16)) ∧
    decodeWord (0b0#1 ++ 0b0#1 ++ 0b00#2 ++ 0b0000000#7 ++ 0b000#3 ++ 0b000#3 ++ 0b000000000000000#15 ++ 0b000000000000000#15 ++ 0b000000000000000#15 ++ 0b00000000#8 ++ 0b1010010101#10) =
      .ok (.hexit p) ∧
    decodeWord (0b0#1 ++ 0b0#1 ++ 0b00#2 ++ 0b0000000#7 ++ 0b000#3 ++ 0b000#3 ++ 0b000000000000000#15 ++ 0b000000000000000#15 ++ 0b011100001000000#15 ++ 0b00000000#8 ++ 0b1010011000#10) =
      .ok (.pollev p (.slice 7 64)) :=
  ⟨rfl, rfl, rfl, rfl, rfl⟩
theorem test_decode_engines :
    decodeWord (0b0#1 ++ 0b0#1 ++ 0b00#2 ++ 0b0000000#7 ++ 0b001#3 ++ 0b000#3 ++ 0b000000000000011#15 ++ 0b011100000010000#15 ++ 0b010000001000000#15 ++ 0b00000000#8 ++ 0b1010100010#10) =
      .ok (.sortk pt (.slice 4 64) (.slice 7 16) 3) ∧
    decodeWord (0b0#1 ++ 0b0#1 ++ 0b00#2 ++ 0b0000000#7 ++ 0b001#3 ++ 0b000#3 ++ 0b000000000001111#15 ++ 0b000000000000000#15 ++ 0b000000000000000#15 ++ 0b00000000#8 ++ 0b1010100011#10) =
      .ok (.qfence pt 15) ∧
    decodeWord (0b0#1 ++ 0b0#1 ++ 0b00#2 ++ 0b0000000#7 ++ 0b000#3 ++ 0b000#3 ++ 0b000000000000111#15 ++ 0b100100000010000#15 ++ 0b001100001000000#15 ++ 0b00000000#8 ++ 0b1010100110#10) =
      .ok (.rsend p (.slice 3 64) (.slice 9 16) 7) ∧
    decodeWord (0b0#1 ++ 0b0#1 ++ 0b00#2 ++ 0b0000000#7 ++ 0b001#3 ++ 0b000#3 ++ 0b000000000000000#15 ++ 0b001100000001000#15 ++ 0b010000001000000#15 ++ 0b00000000#8 ++ 0b1010101010#10) =
      .ok (.collw pt (.slice 4 64) (.slice 3 8)) ∧
    decodeWord (0b0#1 ++ 0b0#1 ++ 0b00#2 ++ 0b0000000#7 ++ 0b000#3 ++ 0b000#3 ++ 0b000000000000000#15 ++ 0b010000000010000#15 ++ 0b111100000000000#15 ++ 0b00000000#8 ++ 0b1010101100#10) =
      .ok (.twait p .zero (.slice 4 16)) :=
  ⟨rfl, rfl, rfl, rfl, rfl⟩
theorem test_decode_tasks :
    decodeWord (0b0#1 ++ 0b0#1 ++ 0b00#2 ++ 0b0000000#7 ++ 0b000#3 ++ 0b000#3 ++ 0b111100000000000#15 ++ 0b001100000001000#15 ++ 0b001100001000000#15 ++ 0b00000000#8 ++ 0b1011000000#10) =
      .ok (.spawn p (.slice 3 64) (.slice 3 8) .zero) ∧
    decodeWord (0b0#1 ++ 0b0#1 ++ 0b00#2 ++ 0b0000000#7 ++ 0b000#3 ++ 0b000#3 ++ 0b000010111111111#15 ++ 0b001100000001000#15 ++ 0b010000001000000#15 ++ 0b00000000#8 ++ 0b1011000001#10) =
      .ok (.join p (.slice 4 64) (.slice 3 8) 0x5FF) ∧
    decodeWord (0b0#1 ++ 0b0#1 ++ 0b00#2 ++ 0b0000000#7 ++ 0b000#3 ++ 0b000#3 ++ 0b000000000001111#15 ++ 0b001100000001000#15 ++ 0b111100000000000#15 ++ 0b00000000#8 ++ 0b1011000011#10) =
      .ok (.bar p .zero (.slice 3 8) 15) ∧
    decodeWord (0b0#1 ++ 0b0#1 ++ 0b00#2 ++ 0b0000000#7 ++ 0b000#3 ++ 0b000#3 ++ 0b000000000000000#15 ++ 0b010000000010000#15 ++ 0b001100001000000#15 ++ 0b00000000#8 ++ 0b1011000110#10) =
      .ok (.launch p (.slice 3 64) (.slice 4 16)) :=
  ⟨rfl, rfl, rfl, rfl⟩
theorem test_decode_system :
    decodeWord (0b0#1 ++ 0b0#1 ++ 0b00#2 ++ 0b0000000#7 ++ 0b001#3 ++ 0b000#3 ++ 0b000000000000010#15 ++ 0b010000000010000#15 ++ 0b000000000000000#15 ++ 0b00000000#8 ++ 0b1011010001#10) =
      .ok (.tinv pt (.slice 4 16) 2) ∧
    decodeWord (0b0#1 ++ 0b0#1 ++ 0b00#2 ++ 0b0000000#7 ++ 0b000#3 ++ 0b000#3 ++ 0b111111111111111#15 ++ 0b000000000000000#15 ++ 0b000000000000000#15 ++ 0b00000000#8 ++ 0b1011100000#10) =
      .ok (.trap p 0x7FFF) ∧
    decodeWord (0b0#1 ++ 0b0#1 ++ 0b00#2 ++ 0b0000000#7 ++ 0b000#3 ++ 0b000#3 ++ 0b000000000000000#15 ++ 0b000000000000000#15 ++ 0b000000000000000#15 ++ 0b00000000#8 ++ 0b1011100001#10) =
      .ok (.eret p) ∧
    decodeWord (0b0#1 ++ 0b0#1 ++ 0b00#2 ++ 0b0000000#7 ++ 0b000#3 ++ 0b000#3 ++ 0b000000100000000#15 ++ 0b010000000010000#15 ++ 0b111100000000000#15 ++ 0b00000000#8 ++ 0b1011100101#10) =
      .ok (.csrc p .zero (.slice 4 16) 0x100) ∧
    decodeWord (0b0#1 ++ 0b0#1 ++ 0b00#2 ++ 0b0000000#7 ++ 0b000#3 ++ 0b000#3 ++ 0b000000000000000#15 ++ 0b000000000000000#15 ++ 0b000000000000000#15 ++ 0b10000000#8 ++ 0b1011101000#10) =
      .ok (.idle { Hdr.plain with grd := .flag 0 false }) :=
  ⟨rfl, rfl, rfl, rfl, rfl⟩


/-- The words the manual works out: 9.7, 13.6, Tables 15.3 and 17.2, and the programs of chapters 16 and 18. -/
theorem test_decode_manual :
    decodeWord 0x00813840_3078E0A13086 = .ok (.vadd { p with grd := .flag 12 true, dist := 2, wait := 4 } .f32 (.slice 7 40) (.slice 3 60) (.slice 7 64)) ∧
    decodeWord 0x00000003_FFFFFFEC0040 = .ok (.br p 0xFFFFFFFB) ∧ decodeWord 0x00000002_000000000247 = .ok (.mmac p 2) ∧
    decodeWord 0x00000001_520000000244 = .ok (.mlda p (.slice 5 256) 1) ∧
    decodeWord 0x10004010_4040A2000261 = .ok (.st { p with rnd := 1 } (.slice 5 128) (.slice 4 32) 0x4010) ∧
    decodeWord 0x80000000_404020440271 = .ok (.spill px (.slice 1 17) (.slice 4 32) 0) ∧
    decodeWord 0x00000000_F050E1000281 = .ok (.pop p (.slice 7 64) (.port 8)) ∧
    decodeWord 0x00000000_820060A00290 = .ok (.send p (.slice 3 40) (.slice 8 256)) ∧
    decodeWord 0x000C0001_720080A002A0 = .ok (.cpy { p with atag := 3 } (.slice 4 40) (.slice 7 256) 1) ∧
    decodeWord 0x00000001_000080A002E2 = .ok (.csrr p (.slice 4 40) 1) ∧ decodeWord 0x00000002_0001280002A7 = .ok (.rwait p (.slice 9 512) 2) ∧
    decodeWord 0x80000000_305000000242 = .ok (.mcfg px (.slice 3 40)) ∧ decodeWord 0x80000000_4081E0000290 = .ok (.send px .zero (.slice 4 64)) ∧
    decodeWord 0x00000002_8401E00206A6 = .ok (.rsend { p with grd := .flag 1 false } .zero (.slice 8 512) 2) ∧
    decodeWord 0x90004040_40C001C11271 = .ok (.spill { px with rnd := 1, grd := .flag 4 true } (.slice 0 112) (.slice 4 96) 0x4040) :=
  ⟨rfl, rfl, rfl, rfl, rfl, rfl, rfl, rfl, rfl, rfl, rfl, rfl, rfl, rfl, rfl⟩

/-! ## Single steps. Operands: D at bit 1,024, A at bit 3,072, B at bit 5,120 of the window -/

/-- Window bits after a step. -/
def got (i : Instr) (s : State) (lo w : Nat) : Nat := win (after (exec i s)) lo w
/-- `fflags` after a step. -/
def raisedBy (i : Instr) (s : State) : Nat := (after (exec i s)).me.fflags.toNat
/-- Values and flags of the class T results on their way after a step. -/
def sent (i : Instr) (s : State) : List (Nat × Nat) := (after (exec i s)).me.onWay.map fun l => (l.value, l.flags)
/-- A and B. -/
def ab (w x y : Nat) : State := put 3072 w x (put 5120 w y base)
/-- A header with SAT. -/
abbrev ps : Hdr := { Hdr.plain with sat := true }

/-- By hand from R181: a wrap, and the clamp of SAT. -/
theorem test_add : got (.add p (d 3) (a 3) (b 3)) (ab 32 0xFFFFFFFF 1) 1024 32 = 0 ∧
    got (.add ps (d 3) (a 3) (b 3)) (ab 32 0x7FFFFFFF 1) 1024 32 = 0x7FFFFFFF ∧ raisedBy (.add ps (d 3) (a 3) (b 3)) (ab 32 0x7FFFFFFF 1) = Flag.sat := by
  decide +kernel
/-- Table 12.1. -/
theorem test_div : sent (.div pt (d 3) (a 3) (b 3)) (ab 32 7 0) = [(0xFFFFFFFF, Flag.dz)] ∧ sent (.rem pt (d 3) (a 3) (b 3)) (ab 32 7 0) = [(7, Flag.dz)] ∧
    sent (.div pt (d 3) (a 3) (b 3)) (ab 32 0xFFFFFFF9 2) = [(0xFFFFFFFD, 0)] ∧ sent (.rem pt (d 3) (a 3) (b 3)) (ab 32 0xFFFFFFF9 2) = [(0xFFFFFFFF, 0)] ∧
    sent (.div pt (d 3) (a 3) (b 3)) (ab 32 0x80000000 0xFFFFFFFF) = [(0x80000000, 0)] ∧
    sent (.div { pt with sat := true } (d 3) (a 3) (b 3)) (ab 32 0x80000000 0xFFFFFFFF) = [(0x7FFFFFFF, Flag.sat)] := by decide +kernel
/-- Table 12.2. -/
theorem test_shifts : got (.shl ps (d 3) (a 3) (b 1)) (ab 32 1 0x28) 1024 32 = 0x7FFFFFFF ∧ got (.shl p (d 3) (a 3) (b 1)) (ab 32 1 0xFF) 1024 32 = 0 ∧
    got (.sar p (d 3) (a 3) (b 1)) (ab 32 0x80000000 0x28) 1024 32 = 0xFFFFFFFF ∧ got (.shr p (d 3) (a 3) (b 1)) (ab 32 0x80000000 0x28) 1024 32 = 0 ∧
    got (.rol p (d 3) (a 3) (b 1)) (ab 32 1 0xFF) 1024 32 = 0x80000000 ∧ got (.shli p (d 3) (a 3) 0x7FFF) (ab 32 1 0) 1024 32 = 0 := by decide +kernel
/-- R187's constant 0x4800_0100: its last MOVH; and R185, R186, R188 by hand. -/
theorem test_moves : got (.movh p (d 3) (d 3) 0x100) (put 1024 32 0x9000 base) 1024 32 = 0x48000100 ∧ got (.movi p (d 3) 0x7FFF) base 1024 32 = 0xFFFFFFFF ∧
    got (.clz p (d 2) (a 3)) (ab 32 0x10000 0) 1024 16 = 15 ∧ got (.ctz p (d 2) (a 3)) (ab 32 0 0) 1024 16 = 32 ∧
    got (.bswap p (d 3) (a 3)) (ab 32 0x11223344 0) 1024 32 = 0x44332211 ∧ got (.sel p (d 3) (a 3) (b 3)) (ab 32 8 9) 1024 32 = 9 := by decide +kernel
/-- By hand from Table 11.5: LEN 8 at POS 4, signed under X = 0; and R191's compare. -/
theorem test_fields : got (.bfx p (d 3) (a 3) (b 3)) (ab 32 0x00000FA5 0x8004) 1024 32 = 0xFFFFFFFA ∧
    got (.cmplt p (d 3) (a 3) (b 3)) (ab 32 0xFFFFFFFF 0) 1024 32 = 1 ∧ got (.cmpltn p (d 3) (a 3) (b 3)) (ab 32 0xFFFFFFFF 0) 1024 32 = 0 := by decide +kernel
/-- 12.4: LOOP s, 5 at PC 10 with 3, and LOOP s, 2 at PC 12 with 2. -/
theorem test_loop :
    (after (exec (.loop p (a 3) 5) ((ab 32 3 0).modMe fun th => { th with pc := 10 }))).me.loops.loopst0 = 0x8003C00B00000003 ∧
    (after (exec (.loop p (a 3) 2) ((ab 32 2 0).modMe fun th => { th with pc := 12, loops := ⟨0x8003C00B00000003, 0, 0, none, none⟩ }))).me.loops.loopst1 = 0x8003800D00000002 := by
  decide +kernel
/-- 12.4: the last instruction of both loops at PC 15 counts the outer one down once the inner one is done. -/
theorem test_loop_ends :
    let u := after (exec (.addi p (d 3) (a 3) 1) (base.modMe fun th => { th with pc := 15, loops := ⟨0x8003C00B00000003, 0x8003C00D00000001, 0, none, none⟩ }))
    u.me.pc = 11 ∧ u.me.loops.loopst0 = 0x8003C00B00000002 ∧ u.me.loops.loopst1 = 0x0003C00D00000001 := by decide +kernel
/-- BR five words back from PC 7, and CALL. -/
theorem test_branch : (after (exec (.br p 0xFFFFFFFB) (base.modMe fun th => { th with pc := 7 }))).me.pc = 2 ∧
    (after (exec (.call p 9) (base.modMe fun th => { th with pc := 7 }))).me.pc = 16 := by decide +kernel
/-- A false flag guard: nothing but the PC moves. -/
theorem test_guard : got (.addi { p with grd := .flag 3 true } (d 3) (a 3) 1) base 1024 32 = 0 ∧
    (after (exec (.addi { p with grd := .flag 3 true } (d 3) (a 3) 1) base)).me.pc = 1 := by decide +kernel

/-- Table 12.3, and the I8 lanes under it. -/
theorem test_vhsum : got (.vhsum p .f32 (d 3) (a 5)) (put 3072 128 0xCB800000_3F800000_3F800000_4B800000 base) 1024 32 = 0x3F800000 ∧
    got (.vhsum p .f32 (d 3) (a 5)) (put 3072 128 0xCB800000_3F800000_3F800000_4B800000 (base.modMe fun th => { th with status := 2 })) 1024 32 = 0x40400000 ∧
    got (.vhsum p .i8 (d 1) (a 3)) (put 3072 32 0x9C9C6464 base) 1024 8 = 0 ∧ got (.vhsum ps .i8 (d 1) (a 3)) (put 3072 32 0x9C9C6464 base) 1024 8 = 0xFF := by
  decide +kernel
/-- Table 12.4. -/
theorem test_vfma : got (.vfma p .f32 (d 3) (a 3) (b 3)) (put 1024 32 0x7FC00000 (ab 32 0 0x7F800000)) 1024 32 = 0x7FC00000 ∧
    raisedBy (.vfma p .f32 (d 3) (a 3) (b 3)) (put 1024 32 0x7FC00000 (ab 32 0 0x7F800000)) = Flag.nv ∧
    raisedBy (.vfma p .f32 (d 3) (a 3) (b 3)) (put 1024 32 0x7FC12345 (ab 32 0x3F800000 0x40000000)) = 0 ∧
    raisedBy (.vfma p .f32 (d 3) (a 3) (b 3)) (put 1024 32 0x7F800001 (ab 32 0x3F800000 0x40000000)) = Flag.nv ∧
    raisedBy (.vfnma p .f32 (d 3) (a 3) (b 3)) (put 1024 32 0x7F800000 (ab 32 0x7F800000 0x3F800000)) = Flag.nv := by decide +kernel
/-- By hand: four I16 lanes, one wrapping; a lane compare into a flag's bits; VSLIDE by 1. -/
theorem test_lanes : got (.vadd p .i16 (d 4) (a 4) (b 4)) (ab 64 0xFFFF0001_7FFF0003 0x00010002_00010004) 1024 64 = 0x00000003_80000007 ∧
    got (.vbcast p .i16 (d 4) (a 2)) (ab 16 0xABCD 0) 1024 64 = 0xABCDABCD_ABCDABCD := by decide +kernel
/-- 6.4: one entry of a function table. -/
theorem test_flut : got (.flut p .f32 (d 3) (a 3) 1) (put 3072 32 0x3FA64000 (base.modMyCore fun k => { k with ft := [(256 + 0x4C, 0x3FD748003C264000)] })) 1024 32 =
    0x3FD7EE40 := by decide +kernel
/-- 6.1: eight values in BX8, the others 0. -/
theorem test_bpack : let v := 0x3C000000_BFC00000_00000000_3F800000_BDE00000_3E800000_3F000000_3FFF8000
    let s := put 3072 1024 v base
    got (.bpack px (.slice 7 256) (a 8) .zero) s 1024 64 = 0x00A00040_FC081040 ∧ got (.bpack px (.slice 7 256) (a 8) .zero) s (1024 + 256) 32 = 0x00FFF480 := by decide +kernel
/-- Bytes of core 0's local store after a step. -/
def bytes (i : Instr) (s : State) (o n : Nat) : Nat := loadN (after (exec i s)) (localKey 0 o) n
/-- By hand from R3, R258 and R259: a store and a load of 64 bits, little-endian. -/
theorem test_bytes : (Mem.read (after (exec (.st p (d 4) (a 4) 8) (put 1024 64 0x1122334455667788 (at_ 0x100)))).mem (localKey 0 0x108)).toNat = 0x88 ∧
    bytes (.st p (d 4) (a 4) 8) (put 1024 64 0x1122334455667788 (at_ 0x100)) 0x108 8 = 0x1122334455667788 ∧
    sent (.ld pt (d 3) (a 4) 4) { at_ 0x100 with mem := [⟨0x104, 0xAA⟩, ⟨0x107, 0xBB⟩] } = [(0xBB0000AA, 0)] := by decide +kernel
/-- Below Table 15.1: SPILL.Z of `s17:8` writes slice 17 to the high nibble of ea and slice 18 to the low nibble of ea + 1. -/
theorem test_spill : bytes (.spill px (.slice 1 17) (a 4) 0) { put 68 8 0xBA (at_ 0x100) with mem := [⟨0x100, 0x11⟩, ⟨0x101, 0x11⟩] } 0x100 2 = 0x1BA1 := by
  decide +kernel
/-- By hand from Table 15.2: the old value lands, and the sum, the swap and the matching CAS are stored. -/
theorem test_atomics : sent (.aadd pt (d 3) (a 4) 0) { put 1024 32 2 (at_ 0x100) with mem := [⟨0x100, 0xFF⟩] } = [(0xFF, 0)] ∧
    bytes (.aadd pt (d 3) (a 4) 0) { put 1024 32 2 (at_ 0x100) with mem := [⟨0x100, 0xFF⟩] } 0x100 4 = 0x101 ∧
    bytes (.amin pt (d 3) (a 4) 0) { put 1024 32 0xFFFFFFFF (at_ 0x100) with mem := [⟨0x100, 5⟩] } 0x100 4 = 0xFFFFFFFF ∧
    bytes (.acas pt (d 4) (a 4) 0) { put 1024 64 0x900000005 (at_ 0x100) with mem := [⟨0x100, 5⟩] } 0x100 4 = 9 := by decide +kernel
/-- By hand from R262: two lanes of REDI, the second clamped. -/
theorem test_redi : bytes (.redi ps (d 4) (a 4) 0) { put 1024 64 0x7FFFFFFF00000003 (at_ 0x100) with mem := [⟨0x100, 4⟩, ⟨0x104, 1⟩] } 0x100 8 = 0x7FFFFFFF00000007 := by
  decide +kernel

/-- A queue's head is popped and its group leaves; a push enters the east neighbour's west queue (R69). -/
theorem test_ports : got (.pop p (d 3) (.port 2)) (queued 32 7 base) 1024 32 = 7 ∧ ((after (exec (.pop p (d 3) (.port 2)) (queued 32 7 base))).me.queue 2).groups = [] ∧
    (((after (exec (.push p (.port 4) (a 3)) (put 3072 32 6 pair))).thread 1 0).queue 8).groups.map Group.value = [6] := by decide +kernel
/-- 12.1's flags read by `CSRR 1`; CSRS sets bits of `temask0` (0x031) and writes the old value. -/
theorem test_csr : got (.csrr p (d 4) 1) (base.modMe fun th => { th with fflags := 0x21 }) 1024 64 = 0x21 ∧
    (after (exec (.csrs p (d 4) (a 4) 0x031) ((ab 64 0xF0 0).modMe fun th => { th with temask0 := 0x0F }))).me.temask0 = 0xFF ∧
    got (.csrs p (d 4) (a 4) 0x031) ((ab 64 0xF0 0).modMe fun th => { th with temask0 := 0x0F }) 1024 64 = 0x0F := by decide +kernel
/-- By hand from R322 to R325: SYSC at PC 3 enters S at `stvec` with cause 0x19 and the PC after it, and ERET goes back. -/
theorem test_trap : let s := after (exec (.sysc p 0x42) ((vectors base).modMe fun th => { th with pc := 3 }))
    let u := after (exec (.eret p) s)
    s.me.scause = 0x19 ∧ s.me.stval = 0x42 ∧ s.me.sepc = 4 ∧ s.me.level = 1 ∧ s.me.cls = .trap ∧ s.me.pc = 6 ∧ s.me.sestat = 0x300000000 ∧
    u.me.pc = 4 ∧ u.me.level = 0 ∧ u.me.cls = .normal := by decide +kernel
/-- A window-range trap goes to U where `temask0` enables its class (R318), and writes nothing. -/
theorem test_range : let s := after (exec (.add p (.slice 4 2040) (a 4) (b 4)) (vectors base))
    s.me.cls = .trap ∧ s.me.level = 0 ∧ s.me.pc = 5 ∧ s.me.cause.toNat = Cause.windowRange ∧ s.me.window = base.me.window := by decide +kernel
/-- Table 2.2: the root's first child has index 0, digest 0x35D4_550A_38F1_C8D3 and depth 1; a free slot takes it. -/
theorem test_spawn : let s := after (exec (.spawn p (d 3) (a 3) .zero) (base.modMe fun th => { th with digest := 0x51468E4E8C24DEDF }))
    (s.thread 0 1).digest = 0x35D4550A38F1C8D3 ∧ (s.thread 0 1).depth = 1 ∧ (s.thread 0 1).childIx = 0 ∧ s.me.spawns = 1 := by decide +kernel
/-- By hand from R272: a message to core 1 takes a credit and carries ARG in its header. -/
theorem test_send : let s := after (exec (.send p (d 3) (a 4)) (put 3072 64 (2 ^ 32 + 0x77) base))
    s.me.credits = 31 ∧ s.msgs.map Msg.core = [1] ∧ s.msgs.map (fun m => m.header.toNat % 2 ^ 32) = [0x77] := by decide +kernel
/-- By hand from R242: MASK 0b1000 with FMTA 2 claims slot 3. -/
theorem test_mcfg : let s := after (exec (.mcfg p (a 3)) (put 3072 32 0x28 base))
    (s.myCore.mat.slot 3).owner = some 0 ∧ (s.myCore.mat.slot 0).owner = none ∧ s.me.fmta = 2 ∧ s.me.fmtb = 0 := by decide +kernel
/-- By hand from R312: a BAR of count 1 completes its generation at once. -/
theorem test_bar : got (.bar p (d 3) (a 3) 1) (ab 32 1 0) 1024 32 = 0 ∧
    (barrierOf (after (exec (.bar p (d 3) (a 3) 1) (ab 32 1 0))) 0 1).g = 1 := by decide +kernel
/-- A step of the loaded machine runs the word at its PC, an ADDI of 1 to slice 256. -/
theorem test_step : ((after (step (State.reset.withFetchWord 80 0x00000001F00064000002))).thread 0 0).pc = 1 ∧
    Machine.bits ((after (step (State.reset.withFetchWord 80 0x00000001F00064000002))).thread 0 0).allWritten.toNat 1024 32 = 1 := by decide +kernel
/-- The invariants hold in the small machine. -/
theorem test_inv : Mem.wf base.mem = true ∧ Mem.wf State.reset.mem = true := by decide +kernel

end Sys2Proof.Tests
end

section
/-! SUPPORT. The vector family (R203 to R220): the lanes of an image and of a computed image, and the instructions that compute
lane by lane, move lanes and convert them. -/

namespace Sys2Proof.Machine

open Sys2Proof Sys2Proof.Stated

/-! ## Lanes of an image -/

/-- A lane is a field of its image. -/
theorem bits_eq_laneAt (lw v j : Nat) : bits v (lw * j) lw = laneAt lw v j := by
  rw [bits, laneAt, Nat.shiftRight_eq_div_pow]

/-- Lane 0 is the low end of its image. -/
theorem trunc_eq_laneAt_zero (lw v : Nat) : trunc v lw = laneAt lw v 0 := by
  simp only [trunc, laneAt, Nat.mul_zero, Nat.pow_zero, Nat.div_one]

/-- The lanes of an image, by index. -/
theorem lanes_eq_map_laneAt (v lw n : Nat) : lanes v lw n = (List.range n).map (laneAt lw v) :=
  List.map_congr_left fun j _ => bits_eq_laneAt lw v j

/-- One more lane stands above those laid out before it. -/
theorem joinLanes_append_singleton (lw : Nat) (l : List Nat) (x : Nat) :
    joinLanes lw (l ++ [x]) = joinLanes lw l + x % 2 ^ lw * 2 ^ (lw * l.length) := by
  induction l with
  | nil =>
    simp only [List.nil_append, joinLanes, List.length_nil, Nat.mul_zero, Nat.pow_zero, Nat.mul_one, Nat.zero_shiftLeft,
      Nat.add_zero, Nat.zero_add]
  | cons y ys ih =>
    have e : 2 ^ (lw * (ys.length + 1)) = 2 ^ (lw * ys.length) * 2 ^ lw := by rw [Nat.mul_succ, Nat.pow_add]
    simp only [List.cons_append, joinLanes, ih, Nat.shiftLeft_eq, List.length_cons, e, Nat.add_mul, Nat.mul_assoc, Nat.add_assoc]

/-- Lanes computed by index and laid side by side. -/
theorem joinLanes_map_range (lw : Nat) (f : Nat → Nat) (n : Nat) : joinLanes lw ((List.range n).map f) = lanesFrom lw f n := by
  induction n with
  | zero => rfl
  | succ n ih =>
    simp only [List.range_succ, List.map_append, List.map_singleton, joinLanes_append_singleton, ih, List.length_map,
      List.length_range, lanesFrom]

/-! ## Lane moves (R211 to R213) -/

/-- VSHUF's image: lane j is the lane of A that lane j of B names, 0 where A has no such lane. -/
theorem shuffle_eq_lanesFrom (lw w a b : Nat) : shuffle lw w a b =
    lanesFrom lw (fun j => if laneAt lw b j < w / lw then laneAt lw a (laneAt lw b j) else 0) (w / lw) := by
  simp only [shuffle, lanes_eq_map_laneAt, List.map_map, bits_eq_laneAt]
  exact joinLanes_map_range _ _ _

/-- VBCAST's image: every lane is A's lane 0. -/
theorem broadcast_eq_lanesFrom (lw w a : Nat) : broadcast lw w a = lanesFrom lw (fun _ => laneAt lw a 0) (w / lw) := by
  rw [broadcast, trunc_eq_laneAt_zero, ← joinLanes_map_range, List.map_const', List.length_range]

/-- VSLIDE's image: lane j is A's lane j + n, 0 where A has no such lane. -/
theorem slide_eq_lanesFrom (lw w a : Nat) (n : Int) : slide lw w a n =
    lanesFrom lw (fun (j : Nat) => if 0 ≤ (j : Int) + n ∧ (j : Int) + n < (w / lw : Nat)
      then laneAt lw a ((j : Int) + n).toNat else 0) (w / lw) := by
  simp only [slide, bits_eq_laneAt]
  exact joinLanes_map_range _ _ _

/-! ## Conversions (R215) -/

/-- The lanes that VCVT converts, by index. -/
theorem map_convert_lanes (x : Ctx) (src dst : CvtType) :
    (lanes (x.a (cvtReadWidth x.v (x.w / dst.width) src.width) true) src.width (x.w / dst.width)).map
      (convert (roundingOf x.v.h.rnd x.th) x.th.ftz x.sat src dst) = (List.range (x.w / dst.width)).map (cvtLane x src dst) := by
  rw [lanes_eq_map_laneAt, List.map_map]
  rfl

/-! ## What each form of the family does -/

section Family

variable {i : Instr} {t : Elt} {useB : Bool} {f : LaneCtl → Nat → Nat → Nat → Nat × Nat}

/-- VSEL's lane (R209) is B's where D's is 0, and A's elsewhere. -/
theorem laneSel_eq : laneSel = fun _ a b d => (if d = 0 then b else a, 0) := by
  funext _ a b d
  simp only [laneSel, ite_not]

/-- Each of the lane-parallel instructions over A, or A and B, runs its lane function. -/
theorem exec_of_laneOp (h : laneOp i = some (t, useB, f)) (s : State) : exec i s = lanewise i t useB f s := by
  unfold laneOp at h
  split at h <;> cases h <;> rfl

/-- Each of those that read D as well runs its lane function. -/
theorem exec_of_laneOp3 (h : laneOp3 i = some (t, f)) (s : State) : exec i s = lanewise3 i t f s := by
  unfold laneOp3 at h
  split at h <;> cases h
  case h_4 => rw [← laneSel_eq]; rfl
  all_goals rfl

/-- A lane-parallel result changes its thread by its writes and flags alone. -/
@[simp] theorem laneRes_pre (x : Ctx) : (laneRes x t f).pre = id := by
  simp only [laneRes, Ctx.lanewise]
  split
  · rfl
  · simp only [Ctx.gather]
    split <;> rfl

/-- An instruction that runs a lane function over A, or A and B, writes its lanes beat by beat. -/
theorem lanewise_always (h : ∀ s, exec i s = lanewise i t useB f s) :
    Always i (vecSpec (eltWidth t) true useB) fun x => laneRes x t f :=
  Does.of_ctx h (fun _ _ => rfl) fun _ => by rw [laneRes_pre]; exact .id

/-- An instruction that runs a lane function over A, B and D writes its lanes beat by beat. -/
theorem lanewise3_always (h : ∀ s, exec i s = lanewise3 i t f s) : Always i (laneSpec3 t) fun x => laneRes x t f :=
  Does.of_ctx h (fun _ _ => rfl) fun _ => by rw [laneRes_pre]; exact .id

/-- An instruction that reads its sources whole writes the image that `f` gives of A's and B's lanes. -/
theorem whole_always (h : ∀ s, exec i s = whole i t useB f s) : Always i (vecSpec (eltWidth t) false useB) fun x =>
    let r := f (x.ctl t) x.w (lanesA x (eltWidth t)) (lanesB x (eltWidth t))
    x.write x.w r.1 r.2 :=
  Does.of_ctx h (fun _ _ => rfl) fun _ => .id

end Family

/-! ## The statements -/

/-- Settles O13: each instruction runs its lane function (`exec_of_laneOp`, `exec_of_laneOp3`) through one of the two
lane-parallel forms. -/
theorem vectorLanes : Obligations.VectorLanes :=
  ⟨fun _ _ _ _ h => lanewise_always (exec_of_laneOp h), fun _ _ _ h => lanewise3_always (exec_of_laneOp3 h)⟩

/-- Settles O17: the image of each move is its lanes by index, and VCVT's lanes and flags are those of `cvtLane`. -/
theorem laneMovesAndConversions : Obligations.LaneMovesAndConversions := by
  refine ⟨fun h t d a b => ?vshuf, fun h t d a => ?vbcast, fun h t d a b => ?vslide, fun h t d a imm => ?vcvt⟩
  case vshuf =>
    simp only [← shuffle_eq_lanesFrom]
    exact whole_always (f := fun k w a b => (shuffle (eltWidth k.t) w a b, 0)) fun _ => rfl
  case vbcast =>
    simp only [← broadcast_eq_lanesFrom]
    exact whole_always (f := fun k w a _ => (broadcast (eltWidth k.t) w a, 0)) fun _ => rfl
  case vslide =>
    simp only [← slide_eq_lanesFrom]
    exact Does.of_ctx (fun _ => rfl) (fun _ _ => rfl) fun _ => .id
  case vcvt =>
    refine Does.of_ctx (fun _ => rfl) (fun x _ => ?_) fun _ => .id
    simp only [map_convert_lanes, List.map_map, List.foldl_map, ← joinLanes_map_range]
    rfl

end Sys2Proof.Machine
end
